-- ==== Sys2Proof/Word.lean ====
section
/-!
DEFINITION. Word.lean: the word types of the AQZ-2560 model (R4, R5, R18) and the sparse table every collection of
like things is held in.
-/

namespace Sys2Proof

/-- One byte of memory. -/
abbrev Byte := BitVec 8

/-- A 64-bit register, instruction word or record word (R5). -/
abbrev Word64 := BitVec 64

/-- A device physical address: bits [47:0] of a 64-bit field (R18). -/
abbrev Dpa := BitVec 48

/-- A sparse table: key and value pairs with strictly rising keys.  A key that is not listed holds the table's
default value; the operations of `Machine/Table.lean` never list a default, so equal tables are equal data. -/
abbrev Tbl (α : Type) := List (Nat × α)

end Sys2Proof
end

