-- ==== Sys2Proof/Config.lean ====
section
/-!
DEFINITION. Config.lean: what the manual leaves open or makes depend on secret fused keys.  Every constant here is
opaque: no proof can see a value of it, so a claim about it holds for every value.
-/

namespace Sys2Proof.Config

/-- Free bits for a value the manual gives no rule for; the argument is the model's draw counter
(`State.draws`).  notes/assumptions/9. -/
opaque freeBits : Nat → BitVec 64

/-- Byte `i` of the payload of a HELLO frame, which the manual gives no place to its fields in (R360): fleet ID, EPOCH, STALE with
MODE and PROTECTED, paddock, nonce. -/
opaque helloByte : BitVec 32 → BitVec 32 → Bool × Bool × Bool → Nat → BitVec 128 → Nat → Byte

/-- Byte `i` of the payload and tag of an IDLE frame (R358): chip ID, port, stride number [15:0] and entry seed a PRBS31 generator
whose seed's form and order of bits the manual does not give. -/
opaque idleByte : Nat → Nat → Nat → Nat → Nat → Byte

/-- The shared secret that key pair `n` decapsulates from an ML-KEM-1024 ciphertext (R425). -/
opaque decapsulate : Nat → List Byte → BitVec 256

/-- Byte `i` of the encapsulation key of key pair `n` (R424, R431). -/
opaque encapsulationByte : Nat → Nat → Byte

/-- Byte `i` of the XMSS^MT signature made with a leaf over a report body (R430, R431); the body is the third
argument. -/
opaque signatureByte : Nat → Nat → List Byte → Byte

/-- Byte `i` of the 32-byte digest of the boot ROM (R431), whose text the manual does not give. -/
opaque bootRomDigestByte : Nat → Byte

/-- Byte `i` of the 32-byte digest of section `k` of a firmware image (R431, R462): 0 PHY firmware, 1 power governor firmware; the
manual does not say where in the body they lie. -/
opaque sectionDigestByte : Nat → List Byte → Nat → Byte

/-- The fuses of a row of one-time or thermometer bits with some blown (R418, R431), as bytes: their order is not stated. -/
opaque fuseBytes : (bits blown : Nat) → List Byte

/-- The 64-bit write counter tag and request bytes of a store request (R432): byte `i` for a bound. -/
opaque storeRequestByte : Nat → Nat → Byte

end Sys2Proof.Config
end

