-- ==== Sys2Proof/Syntax.lean ====
section
/-!
DEFINITION. Syntax.lean: the commands of the block, one constructor of `Instr` for each row of
spec/opcode_table.json, with the row's operands.  A tile instruction names the tile whose sequencer issues it: the
instruction word itself is fetched from the tile's instruction store at its PC (R234, R241).  A Manger command row
performs the fetched command at the front of the fetched list (R391).
-/

namespace Sys2Proof

/-- What an ECC code finds in one word or unit at a read (R297, R309). -/
inductive EccMark where
  /-- one error the code corrects -/
  | correctable
  /-- an error the code only detects -/
  | uncorrectable
  deriving DecidableEq, Repr

/-- What the outside has done to memory since the part last looked: the host's own writes to its memory (address and
byte, addresses from 0x8000_0000_0000), and the upsets that the reads of this command meet, by the DPA of the word or
unit.  For ATOMIC_PERFORM, `arrival` names the outstanding atomic that the mesh brings, counted from the oldest (R24, R270). -/
structure Env where
  host : List (Nat × BitVec 8) := []
  upsets : List (Nat × EccMark) := []
  arrival : Nat := 0
  deriving DecidableEq, Repr

/-- The readings the governor samples at a tick (R453, R456): die and stack temperatures in °C, the local source of
the unit with the hottest sensor, the measured energy of the stride in µJ, and the input in mV. -/
structure Sensors where
  tjMax : Int := 0
  hbmC : List Int := []
  hotSource : Nat := 25600
  energyUJ : Nat := 0
  inputMv : Nat := 44000
  deriving DecidableEq, Repr

/-- A link control block as received (R357). `chip` is the chip ID of the link partner, which is no field of the block. Beside it
stand the flags of the codewords that the port's lanes brought since the block before (R354): how many were corrected, and by lane
how many were uncorrectable. -/
structure Lcb where
  mark : Bool := false
  err : Bool := false
  req : Bool := false
  chip : Nat := 0
  gtc : BitVec 64 := 0
  errGroup : BitVec 16 := 0
  errLane : Nat := 0
  reqGroup : BitVec 16 := 0
  reqMap : BitVec 8 := 0
  crc : BitVec 32 := 0
  fecCorrected : Nat := 0
  fecLost : List (Nat × Nat) := []
  deriving DecidableEq, Repr

/-- A HELLO frame as received (R360); `tagOk` is the outcome of its KMAC256 check under the fleet key. -/
structure Hello where
  srcChip : Nat := 0
  srcTether : Nat := 0
  destTether : Nat := 0
  fleet : BitVec 32 := 0
  epoch : BitVec 32 := 0
  stale : Bool := false
  linkEpoch : BitVec 4 := 0
  paddock : Nat := 0
  collective : Bool := false
  isProtected : Bool := false
  nonce : BitVec 128 := 0
  tagOk : Bool := true
  deriving DecidableEq, Repr

/-- A DATA or REPORT frame as received (R356); `tagOk` is the outcome of its AES-256-GCM check under the session key
(R359), and `payload` the decrypted bytes, zero beyond the list's end. -/
structure Frame where
  epoch : BitVec 4 := 0
  destTether : Nat := 0
  srcTether : Nat := 0
  srcChip : Nat := 0
  destChip : Nat := 0
  paddock : Nat := 0
  report : Bool := false
  consumed : BitVec 32 := 0
  seqNo : BitVec 64 := 0
  collTag : BitVec 16 := 0
  reportTag : BitVec 16 := 0
  chunk : Nat := 0
  reportW : BitVec 16 := 0
  records : Nat := 0
  dest : BitVec 48 := 0
  /-- ALL_GATHER chunk 0 brings the owner's version word (R336) -/
  version : BitVec 64 := 0
  payload : List (BitVec 8) := []
  tagOk : Bool := true
  deriving DecidableEq, Repr

/-- What the part finds in a Bridle module it checks (R374, R375): the 16 words of its identity record, whether its answer to
the challenge is right, and the SECONDS, write count and tag of its life record; and whether the site's LNK_REFCLK runs (R498). -/
structure Module where
  identity : List (BitVec 64) := []
  challengeOk : Bool := true
  seconds : BitVec 32 := 0
  writes : BitVec 32 := 0
  lifeTag : BitVec 64 := 0
  refclk : Bool := true
  deriving DecidableEq, Repr

/-- The fused material (R418, R426, Reset column "fuse").  The secret fuses are MK, LK, FK, BK, AK and PK_RPS; a fuse that is
not blown is zero. -/
structure Fuses where
  lifecycle : Nat := 2
  stepping : BitVec 8 := 1
  serial : BitVec 128 := 0
  fleetId : BitVec 32 := 0
  attPub : BitVec 512 := 0
  rbMin : Nat := 0
  /-- memory and link root keys by epoch, fleet key, module authentication key, XMSS^MT seeds, storage key -/
  mkRoots : List (BitVec 256) := []
  lkRoots : List (BitVec 256) := []
  fk : BitVec 256 := 0
  bk : BitVec 256 := 0
  ak : List (BitVec 256) := []
  pkRps : BitVec 256 := 0
  /-- SHAKE256 digest of the vendor firmware public key; by default that of 64 zero bytes -/
  vh : BitVec 256 := 0x366a66d9b4ec08d7556c23891864fa91eb0853bf8b915347de87949eeaf2a57e
  tsCols : List (Nat × BitVec 12) := []
  bankCols : List (Nat × BitVec 8) := []
  deriving DecidableEq, Repr

/-- What a power-up reset meets (R461 to R467): fuses blown from outside since the part last loaded them, the bytes with which the
tray's flash was assembled (offset and byte, zero elsewhere; what FLASH_WRITE has written lies over them), the outcome of the
signature check of the image in slot A and in slot B, and what fails on the way. -/
structure Boot where
  blown : Option Fuses := none
  fuseOk : Bool := true
  flash : List (Nat × BitVec 8) := []
  signedA : Bool := true
  signedB : Bool := true
  railOk : Bool := true
  /-- local source of a block outside the sheaves whose logic BIST failed -/
  bistOuter : Option Nat := none
  /-- link ports whose logic BIST failed -/
  bistPorts : List Nat := []
  /-- local source of an HBM controller whose training failed -/
  hbmFail : Option Nat := none
  /-- AON stayed powered since the part was held (R457) -/
  aonKept : Bool := true
  /-- sheaves that failed: sheaf, logic failed, memory failed -/
  sheaves : List (Nat × Bool × Bool) := []
  deriving DecidableEq, Repr

/-- The store's answer to a request (R432): its counter, and whether its tag verifies under PK_RPS. -/
structure StoreReply where
  bound : BitVec 41 := 0
  counter : BitVec 64 := 0
  tagOk : Bool := true
  deriving DecidableEq, Repr

/-- A lifecycle transition token (R427): whether its signature verifies, its SERIAL and its target state. -/
structure Token where
  verified : Bool := true
  serial : BitVec 128 := 0
  target : Nat := 0
  deriving DecidableEq, Repr

/-- The commands of the block: one constructor for each row of spec/opcode_table.json, in the table's order. -/
inductive Instr where
  | strideTick (sensors : Sensors) (env : Env)
  | unitsAct
  | mangerRead (env : Env)
  | mangerFetch (late : List Nat)
  | replyWrite (linkOk : Bool)
  | replyBoundExpiry
  | paddockSwitch (sheaf : Nat)
  | gtcCorrection
  | programWindowOpen
  | programImageLoad (env : Env)
  | sheafActivitySpan (span : Nat)
  | selftestEnd (sheaf : Nat) (logicOk memOk : Bool)
  | strideSyncEdge (d : Int) (withinLimits : Bool)
  | holdover
  | reacquire
  | registerWrite (offset size : Nat) (value : BitVec 64)
  | apertureAccess (offset size : Nat) (write : Option (List (BitVec 8))) (env : Env)
  | mtgEntryWrite (sheaf entry word : Nat) (value : BitVec 64)
  | evtReadIndexWrite (read : BitVec 32)
  | debugMem (value : BitVec 64) (env : Env)
  | debugMemDone
  | debugHalt (value : BitVec 64)
  | debugForce (value : BitVec 64)
  | end_ (tile : Nat)
  | br (tile : Nat)
  | loop (tile : Nat)
  | swait (tile : Nat)
  | bar (tile : Nat)
  | barrierComplete (sheaf barrier : Nat)
  | fenceM (tile : Nat)
  | emit (tile : Nat)
  | nfclr (tile : Nat)
  | rdsys (tile : Nat)
  | lrem (tile : Nat)
  | nop (tile : Nat)
  | alu (tile : Nat)
  | alui (tile : Nat)
  | li (tile : Nat)
  | cmp (tile : Nat)
  | cmpi (tile : Nat)
  | pred (tile : Nat)
  | aop (tile : Nat)
  | ali (tile : Nat)
  | aaddi (tile : Nat)
  | ld (tile : Nat)
  | st (tile : Nat)
  | lda (tile : Nat)
  | sta (tile : Nat)
  | tld (tile : Nat)
  | tst (tile : Nat)
  | tset (tile : Nat)
  | tadd (tile : Nat)
  | scalarLoadReturn (tile : Nat) (env : Env)
  | movb (tile : Nat)
  | movt (tile : Nat)
  | moveComplete (tile index : Nat) (env : Env)
  | atom (tile : Nat)
  | atomicPerform (tile : Nat) (env : Env)
  | fmm (tile : Nat)
  | fwaProductStart (tile : Nat) (env : Env)
  | fwaProductComplete (tile : Nat)
  | fdr (tile : Nat)
  | fwaDrainStart (tile : Nat)
  | fwaDrainComplete (tile : Nat)
  | ffence (tile : Nat)
  | bmm (tile : Nat)
  | bwaProductStart (tile : Nat) (env : Env)
  | bwaProductComplete (tile : Nat)
  | bdr (tile : Nat)
  | bwaDrainStart (tile : Nat)
  | bwaDrainComplete (tile : Nat)
  | hq (tile : Nat)
  | hx (tile : Nat)
  | hw (tile : Nat)
  | ht (tile : Nat)
  | conversionStart (tile : Nat)
  | conversionComplete (tile : Nat) (env : Env)
  | mopen (tile : Nat)
  | mclose (tile : Nat)
  | mtgCloseEvaluation (sheaf entry : Nat)
  | partVerdict (paddock entry : Nat)
  | mverd (tile : Nat)
  | agreementRepeat (tile : Nat)
  | agreementCompare (tile : Nat)
  | ctab (tile : Nat)
  | tableBuildComplete (tile : Nat) (env : Env)
  | ciss (tile : Nat)
  | chaffStreamStart (tile : Nat) (env : Env)
  | chaffIssueComplete (tile : Nat)
  | cdr (tile : Nat)
  | chaffDrainComplete (tile : Nat)
  | ckclr (tile : Nat)
  | ckrd (tile : Nat)
  | clen (tile : Nat)
  | sdraw (tile : Nat)
  | sdrop (tile : Nat)
  | sowerOperationComplete (tile : Nat) (env : Env)
  | waitu (tile : Nat)
  | reservedOpcode (tile : Nat)
  | tileBudget (tile : Nat) (accepted : List Nat)
  | mangerNop
  | config (env : Env)
  | copy
  | sealIn
  | sealOut
  | copyEngineTransfer (env : Env)
  | copyBoundExpiry
  | programSet (env : Env)
  | restart (env : Env)
  | collective (env : Env)
  | collAbort
  | tetherOpen (env : Env)
  | tetherClose
  | linkRetrain
  | paddockSet (env : Env)
  | paddockRelease (env : Env)
  | keyRotate
  | attest (env : Env)
  | sealKey (env : Env)
  | selftest (env : Env)
  | reservedCommand
  | readyWordPoll (coll : Nat)
  | collectiveStart (coll : Nat)
  | chunkSend (coll : Nat) (env : Env)
  | ownerUpdate (coll chunk : Nat) (env : Env)
  | permuteHoldRelease (coll : Nat)
  | collectiveDeadline (coll : Nat)
  | laneGroupStart (port : Nat)
  | entrySend (port entry : Nat) (env : Env)
  | linkControlBlock (port : Nat) (lcb : Lcb)
  | laneRemap (port : Nat)
  | laneFail (port lane : Nat) (stamp : BitVec 16)
  | helloFrame (port : Nat) (hello : Hello)
  | dataFrame (port : Nat) (frame : Frame) (env : Env)
  | reportFrame (port : Nat) (frame : Frame)
  | idleFrame (port : Nat)
  | tetherOpeningTimeout (tether : Nat)
  | tetherBroken (tether : Nat)
  | tetherBoundExpiry (tether : Nat)
  | bridleInsert (site : Nat) (found : Module)
  | bridleRemove (site : Nat)
  | bridleLifeWrite (site : Nat) (seconds : BitVec 32)
  | bridleWear (site : Nat) (seconds : BitVec 32)
  | bridleEol (site : Nat) (seconds : BitVec 32)
  | patrolRead (stack unit : Nat) (env : Env)
  | regionClearEnd (region : Nat)
  | keySweepEnd (paddock : Nat)
  | gleanerRecord
  | gleanerRingWrite
  | hostLinkTrain (width rate : Nat)
  | hostReset
  | inputExcursion (mv : Nat)
  | inputFail (mv : Nat)
  | refclkLoss
  | powerUpReset (boot : Boot)
  | regRead (offset : Nat)
  | capWrite (value : BitVec 16)
  | mgtRestart
  | hold
  | sleep
  | lifecycle (token : Token)
  | flashWrite (offset : Nat) (data : List (BitVec 8))
  | rpsFetch
  | rpsReply (reply : StoreReply)
  | mgtReservedRequest (op : BitVec 8)
  | linkTrainingEnd (port : Nat) (lanes : BitVec 4) (delayNs : BitVec 16)
  | debugScan
  | inputExcursionEnd (mv : Nat)
  | hostRegisterRead (offset size : Nat)
  deriving DecidableEq, Repr

end Sys2Proof
end

