-- ==== Sys2Proof/WellFormed.lean ====
section
/-!
DEFINITION. WellFormed.lean: the checks a command's operands meet: a tile, sheaf, port or other unit that exists (R13,
R14, R353, R361, R374), sizes the port can carry (R11) and codes within their fields.
-/

namespace Sys2Proof

/-- Tiles 0 to 25,599 exist (R13). -/
def tileOk (t : Nat) : Bool := decide (t < 25600)

/-- Sheaves 0 to 399 exist (R14). -/
def sheafOk (s : Nat) : Bool := decide (s < 400)

/-- Ports 0 to 23 exist (R353). -/
def portOk (n : Nat) : Bool := decide (n < 24)

/-- Tethers 0 to 4,095 exist (R361). -/
def tetherOk (t : Nat) : Bool := decide (t < 4096)

/-- Bridle sites 0 to 5 exist (R353). -/
def siteOk (m : Nat) : Bool := decide (m < 6)

/-- Paddocks 0 to 15 exist (R403). -/
def paddockOk (p : Nat) : Bool := decide (p < 16)

/-- Martingale entries 0 to 255 exist. -/
def entryOk (e : Nat) : Bool := decide (e < 256)

/-- HBM regions 0 to 511 exist (R404). -/
def regionOk (r : Nat) : Bool := decide (r < 512)

/-- A local source that R16 lists: tiles and sheaf units, HBM controllers, the Whippletree, link ports, the host port, the
Farrier and the power governor.  The others are reserved, and no record holds them (R17). -/
def sourceOk (x : Nat) : Bool :=
  decide (x < 26008) || x == 26016 || (decide (26032 ≤ x) && decide (x < 26056)) || x == 26080 || x == 26096 || x == 26112

/-- A unit outside the sheaves whose logic BIST holds the part (R467): a mesh port, named by its sheaf unit, an HBM controller, the
Whippletree, the host port, the Farrier or the power governor. -/
def outerUnit (x : Nat) : Bool := decide (25600 ≤ x) && sourceOk x && !(decide (26032 ≤ x) && decide (x < 26056))

/-- What a power-up reset meets names units that exist: the fuses within their fields, the units that fail, and every sheaf once. -/
def bootOk (b : Boot) : Bool :=
  ((b.blown.map fun f => decide (f.lifecycle ≤ 4) && decide (f.rbMin ≤ 64)).getD true) && (b.bistOuter.map outerUnit).getD true &&
    (b.hbmFail.map fun x => decide (26000 ≤ x) && decide (x < 26008)).getD true && b.bistPorts.all portOk &&
    (b.sheaves.all fun x => sheafOk x.1) && decide (b.sheaves.map Prod.fst).Nodup

/-- The operands of the command name units that exist and fit their fields. -/
def Instr.WellFormed : Instr → Bool
  | .strideTick x _ => sourceOk x.hotSource
  | .unitsAct => true
  | .mangerRead _ => true
  | .mangerFetch late => late.all fun q => decide (q < 16)
  | .replyWrite _ => true
  | .replyBoundExpiry => true
  | .paddockSwitch s => sheafOk s
  | .gtcCorrection => true
  | .programWindowOpen => true
  | .programImageLoad _ => true
  | .sheafActivitySpan i => decide (i < 98)
  | .selftestEnd s _ _ => sheafOk s
  | .strideSyncEdge _ _ => true
  | .holdover => true
  | .reacquire => true
  | .registerWrite _ _ _ => true
  | .apertureAccess o n _ _ => decide (o + n ≤ 8192 * 0x200000)
  | .mtgEntryWrite s e w _ => sheafOk s && entryOk e && decide (w < 6)
  | .evtReadIndexWrite _ => true
  | .debugMem _ _ => true
  | .debugMemDone => true
  | .debugHalt _ => true
  | .debugForce _ => true
  | .end_ t => tileOk t
  | .br t => tileOk t
  | .loop t => tileOk t
  | .swait t => tileOk t
  | .bar t => tileOk t
  | .barrierComplete s b => sheafOk s && decide (b < 4)
  | .fenceM t => tileOk t
  | .emit t => tileOk t
  | .nfclr t => tileOk t
  | .rdsys t => tileOk t
  | .lrem t => tileOk t
  | .nop t => tileOk t
  | .alu t => tileOk t
  | .alui t => tileOk t
  | .li t => tileOk t
  | .cmp t => tileOk t
  | .cmpi t => tileOk t
  | .pred t => tileOk t
  | .aop t => tileOk t
  | .ali t => tileOk t
  | .aaddi t => tileOk t
  | .ld t => tileOk t
  | .st t => tileOk t
  | .lda t => tileOk t
  | .sta t => tileOk t
  | .tld t => tileOk t
  | .tst t => tileOk t
  | .tset t => tileOk t
  | .tadd t => tileOk t
  | .scalarLoadReturn t _ => tileOk t
  | .movb t => tileOk t
  | .movt t => tileOk t
  | .moveComplete t i _ => tileOk t && decide (i < 16)
  | .atom t => tileOk t
  | .atomicPerform t env => tileOk t && decide (env.arrival < 16)
  | .fmm t => tileOk t
  | .fwaProductStart t _ => tileOk t
  | .fwaProductComplete t => tileOk t
  | .fdr t => tileOk t
  | .fwaDrainStart t => tileOk t
  | .fwaDrainComplete t => tileOk t
  | .ffence t => tileOk t
  | .bmm t => tileOk t
  | .bwaProductStart t _ => tileOk t
  | .bwaProductComplete t => tileOk t
  | .bdr t => tileOk t
  | .bwaDrainStart t => tileOk t
  | .bwaDrainComplete t => tileOk t
  | .hq t => tileOk t
  | .hx t => tileOk t
  | .hw t => tileOk t
  | .ht t => tileOk t
  | .conversionStart t => tileOk t
  | .conversionComplete t _ => tileOk t
  | .mopen t => tileOk t
  | .mclose t => tileOk t
  | .mtgCloseEvaluation s e => sheafOk s && entryOk e
  | .partVerdict p e => paddockOk p && entryOk e
  | .mverd t => tileOk t
  | .agreementRepeat t => tileOk t
  | .agreementCompare t => tileOk t
  | .ctab t => tileOk t
  | .tableBuildComplete t _ => tileOk t
  | .ciss t => tileOk t
  | .chaffStreamStart t _ => tileOk t
  | .chaffIssueComplete t => tileOk t
  | .cdr t => tileOk t
  | .chaffDrainComplete t => tileOk t
  | .ckclr t => tileOk t
  | .ckrd t => tileOk t
  | .clen t => tileOk t
  | .sdraw t => tileOk t
  | .sdrop t => tileOk t
  | .sowerOperationComplete t _ => tileOk t
  | .waitu t => tileOk t
  | .reservedOpcode t => tileOk t
  | .tileBudget t accepted => tileOk t && accepted.all fun i => decide (i < 16)
  | .mangerNop => true
  | .config _ => true
  | .copy => true
  | .sealIn => true
  | .sealOut => true
  | .copyEngineTransfer _ => true
  | .copyBoundExpiry => true
  | .programSet _ => true
  | .restart _ => true
  | .collective _ => true
  | .collAbort => true
  | .tetherOpen _ => true
  | .tetherClose => true
  | .linkRetrain => true
  | .paddockSet _ => true
  | .paddockRelease _ => true
  | .keyRotate => true
  | .attest _ => true
  | .sealKey _ => true
  | .selftest _ => true
  | .reservedCommand => true
  | .readyWordPoll _ => true
  | .collectiveStart _ => true
  | .chunkSend _ _ => true
  | .ownerUpdate _ _ _ => true
  | .permuteHoldRelease _ => true
  | .collectiveDeadline _ => true
  | .laneGroupStart n => portOk n
  | .entrySend n i _ => portOk n && decide (i < 1000)
  | .linkControlBlock n l => portOk n && l.fecLost.all fun x => decide (x.1 < 4)
  | .laneRemap n => portOk n
  | .laneFail n j _ => portOk n && decide (j < 4)
  | .helloFrame n _ => portOk n
  | .dataFrame n _ _ => portOk n
  | .reportFrame n _ => portOk n
  | .idleFrame n => portOk n
  | .tetherOpeningTimeout t => tetherOk t
  | .tetherBroken t => tetherOk t
  | .tetherBoundExpiry t => tetherOk t
  | .bridleInsert m f => siteOk m && decide (f.identity.length = 16)
  | .bridleRemove m => siteOk m
  | .bridleLifeWrite m _ => siteOk m
  | .bridleWear m _ => siteOk m
  | .bridleEol m _ => siteOk m
  | .patrolRead k u _ => decide (k < 8) && decide (u < 2 ^ 33)
  | .regionClearEnd r => regionOk r
  | .keySweepEnd p => paddockOk p
  | .gleanerRecord => true
  | .gleanerRingWrite => true
  | .hostLinkTrain w r => (w == 8 || w == 4) && decide (1 ≤ r ∧ r ≤ 3)
  | .hostReset => true
  | .inputExcursion mv => decide (mv < 65536)
  | .inputFail mv => decide (mv < 65536)
  | .refclkLoss => true
  | .powerUpReset b => bootOk b
  | .regRead _ => true
  | .capWrite _ => true
  | .mgtRestart => true
  | .hold => true
  | .sleep => true
  | .lifecycle _ => true
  | .flashWrite _ d => decide (d.length ≤ 256)
  | .rpsFetch => true
  | .rpsReply _ => true
  | .mgtReservedRequest op => op == 0 || decide (10 ≤ op.toNat)
  | .linkTrainingEnd n _ _ => portOk n
  | .debugScan => true
  | .inputExcursionEnd mv => decide (mv < 65536)
  | .hostRegisterRead _ _ => true

end Sys2Proof
end

