-- ==== Sys2Proof/Decode.lean ====
section
/-!
DEFINITION. Decode.lean: the commands that table words spell.  No row of spec/opcode_table.json gives bits: a command
of this block is an event with operands, not a word.
-/

namespace Sys2Proof

/-- The command an `nbits`-bit table word spells: none, as no row of the table has bits. -/
def decodeTableWord (_nbits _w : Nat) : Option Instr := none

end Sys2Proof
end

