-- ==== Sys2Proof/Machine/State.lean ====
section
/-!
DEFINITION. Machine/State.lean: everything the manual gives the part to hold, as plain data, and the state right after
the power-up reset (R10, R405, R461, R474).  A table (`Tbl`) lists only what differs from its default; the defaults are
the reset values of the structures below.  Times are GTC values as natural numbers.
-/

namespace Sys2Proof.Machine

/-- Why the machine stops.  No meaning of this model raises a fault: the manual reports every trouble of the part by an
event, a reply, a tile fault or a held part, each of which is a next state. -/
inductive Fault where
  /-- Raised by nothing; kept so that the outcome type has a fault to name.  Safe: a machine that never stops here
  claims nothing about a stop. -/
  | none
  deriving DecidableEq, Repr

/-- Why a command has no meaning. -/
inductive Refusal where
  /-- Raised by an arm of `exec` whose command has no meaning yet, with its mnemonic.  Safe: nothing is claimed of it. -/
  | notModelled (mnemonic : String)
  deriving DecidableEq, Repr

/-- Sequencer states (R222). -/
inductive SeqState where
  | idle
  | running
  | waiting
  | barrier
  | halted
  | faulted
  deriving DecidableEq, Repr

/-- An open loop level (R253): remaining count, body start and body end. -/
structure LoopLevel where
  remaining : BitVec 24
  start : BitVec 11
  stop : BitVec 11
  deriving DecidableEq, Repr

/-- The kinds of operation a tile has under way (R231, R248, R272, R127). -/
inductive OpKind where
  | fmm
  | fdr
  | bmm
  | bdr
  | watchProduct
  | hq
  | hx
  | hw
  | ht
  | ctab
  | ciss
  | cdr
  | sdraw
  | sdrop
  | movb
  | movt
  | atom
  | ld
  | lda
  | tld
  deriving DecidableEq, Repr

/-- One operation that a tile has issued and that is not complete: the instruction word and PC, and the register
operands as read at issue (R248).  `d`, `a`, `b` are descriptors (or 48-bit addresses), `x`, `y`, `z` scalars. -/
structure UnitOp where
  kind : OpKind
  pc : BitVec 11 := 0
  word : BitVec 64 := 0
  d : BitVec 256 := 0
  a : BitVec 256 := 0
  b : BitVec 256 := 0
  x : BitVec 32 := 0
  y : BitVec 32 := 0
  z : BitVec 32 := 0
  /-- the format tag of a product (R141, R161, R198) when it is already fixed -/
  tag : BitVec 64 := 0
  /-- accepted while its bank was DRAINING: it waits and takes its tag at its start (R142) -/
  waits : Bool := false
  /-- source tensors of the operands, for a sampled product (R127, R229) -/
  srcA : BitVec 256 := 0
  srcB : BitVec 256 := 0
  sampled : Bool := false
  /-- the read of a scalar load met an uncorrectable word: it faults when it returns (R230) -/
  unreadable : Bool := false
  /-- FP32 values of a drain toward the Hame, row-major over its extent (R146) -/
  values : Tbl (BitVec 32) := []
  issued : Nat := 0
  /-- GTC at which its wait on a DRAINING bank ended (R142, R162) -/
  freed : Nat := 0
  started : Option Nat := none
  deriving DecidableEq, Repr

/-- An accumulator bank of the FWA or BWA (R140, R161): tag with STATE in [63:62], elements as FP32 codes, captured
row scales (R134), the drained extent (R277), and the BF16 results of its agreement-watch repeats (R129, R130). -/
structure Bank where
  tag : BitVec 64 := 0
  elems : Tbl (BitVec 32) := []
  rowA : Tbl (BitVec 16) := []
  rowB : Tbl (BitVec 16) := []
  extM : Nat := 0
  extN : Nat := 0
  /-- the extent of the products that have started: what stays of it when an accepted one faults (R143, R277) -/
  doneM : Nat := 0
  doneN : Nat := 0
  watch : Tbl (BitVec 16) := []
  watched : Bool := false
  /-- products accepted since the bank became ACTIVE, or repeats complete in it, and the activation entry of its watch
  (R127, R129) -/
  products : Nat := 0
  activation : Nat := 0
  /-- a bank of repeats of a layer on rung 2 (R129) -/
  always : Bool := false
  deriving DecidableEq, Repr

/-- A Chaff threshold table (R189): entries, range M (BF16), mode, element type (false E4M3, true INT8), built. -/
structure ChaffTable where
  entries : Tbl (BitVec 32) := []
  range : BitVec 16 := 0
  mode : Bool := false
  int8 : Bool := false
  built : Bool := false
  /-- built with an explicit range: codes beyond it are clipped (R190) -/
  clips : Bool := false
  deriving DecidableEq, Repr

/-- A Chaff result bank (R198) with its tag in the layout of SHF_CHF_TAG, and what R198 also compares. -/
structure ChaffBank where
  tag : BitVec 64 := 0
  sums : Tbl (BitVec 32) := []
  nans : List Nat := []
  rangeA : BitVec 16 := 0
  rangeB : BitVec 16 := 0
  expA : BitVec 8 := 0
  expB : BitVec 8 := 0
  rowA : BitVec 16 := 0
  rowB : Tbl (BitVec 16) := []
  extG : Nat := 0
  deriving DecidableEq, Repr

/-- A program range of a tile's instruction store (R240, R241), with the queue that admitted it (R454). -/
structure ProgRange where
  paddock : Nat := 0
  origin : BitVec 11 := 0
  length : BitVec 12 := 0
  budget : BitVec 17 := 0
  entry : BitVec 11 := 0
  queue : Nat := 0
  deriving DecidableEq, Repr

/-- The fault record SHF_SEQ_FAULT_t (R238). -/
structure FaultRecord where
  position : BitVec 17 := 0
  pc : BitVec 11 := 0
  strideLo : BitVec 16 := 0
  cause : BitVec 8 := 0
  deriving DecidableEq, Repr

/-- A tile (R21): its sequencer, arrays, Chaff engine and the operations under way. -/
structure Tile where
  seqState : SeqState := .idle
  pc : BitVec 11 := 0
  sregs : Tbl (BitVec 32) := []
  aregs : Tbl (BitVec 48) := []
  preds : BitVec 8 := 0
  tregs : Tbl (BitVec 256) := []
  loops : List LoopLevel := []
  /-- s registers (0 to 31) and a registers (32 to 47) whose value lands at a time (R249) -/
  landing : List (Nat × Nat) := []
  nextIssue : Nat := 0
  gtcHi : BitVec 32 := 0
  store : Tbl (BitVec 64) := []
  ranges : List ProgRange := []
  program : Option ProgRange := none
  /-- contexts that a load or restart made HALTED with all registers zero (R242), whatever was saved of them: the paddock,
  and the stride from which its tile starts, if it starts -/
  fresh : List (Nat × Option Nat) := []
  fault : FaultRecord := {}
  /-- the event of the tile's last fault, and when the faulting instruction issued: of two faults in one aclk the one from
  the instruction issued first is recorded (R238) -/
  faultEvent : Option (BitVec 64 × BitVec 128) := none
  faultIssued : Nat := 0
  nfFlag : Bool := false
  nfPos : BitVec 32 := 0
  /-- stride of the last EVT_NUM_NONFINITE, and GTC of the last non-finite output (R88, R239) -/
  nfStride : Option Nat := none
  nfAt : Option Nat := none
  budgetMax : BitVec 17 := 0
  hand : BitVec 8 := 0
  fwaBanks : Tbl Bank := []
  bwaBanks : Tbl Bank := []
  fwa : List UnitOp := []
  bwa : List UnitOp := []
  hame : List UnitOp := []
  chaff : List UnitOp := []
  sower : List UnitOp := []
  moves : List UnitOp := []
  atomics : List UnitOp := []
  loads : List UnitOp := []
  fwaFree : Nat := 0
  bwaFree : Nat := 0
  fwaDone : Nat := 0
  bwaDone : Nat := 0
  /-- GTC at which the Sower has served the gradient drains (R167) -/
  gradDone : Nat := 0
  chaffFree : Nat := 0
  chaffStreamEnd : Nat := 0
  chaffDone : Nat := 0
  listDone : Nat := 0
  hameDone : Nat := 0
  /-- number of products issued under each entry since its window opened (R127, R154) -/
  sampleIdx : Tbl Nat := []
  tables : Tbl ChaffTable := []
  lengths : Tbl (BitVec 32) := []
  chaffBanks : Tbl ChaffBank := []
  /-- what a DRAINING result bank holds once its drain ends: the issues accepted into it meanwhile (R198, R272) -/
  chaffNext : Tbl ChaffBank := []
  topk : List (BitVec 32 × BitVec 16) := []
  topkK : Nat := 1
  fwaBusy : BitVec 64 := 0
  fwaProducts : BitVec 32 := 0
  fwaOutliers : BitVec 24 := 0
  bwaBusy : BitVec 64 := 0
  bwaProducts : BitVec 32 := 0
  bwaRepeats : BitVec 24 := 0
  chaffIssues : BitVec 32 := 0
  chaffTerminated : Nat := 0
  chaffInvalid : BitVec 16 := 0
  chaffClipped : BitVec 16 := 0
  tsCe : BitVec 24 := 0
  tsUe : BitVec 16 := 0
  tsLastUe : BitVec 13 := 0
  deriving DecidableEq, Repr

/-- The phases of a paddock (R28). -/
inductive Phase where
  | idle
  | gen
  | fwd
  | bwd
  deriving DecidableEq, Repr

/-- A Martingale entry (R97 to R130), with CTL as its register word. -/
structure MtgEntry where
  hist : Tbl (BitVec 16) := []
  ctl : BitVec 64 := 0
  tExp : BitVec 8 := 0
  nextT : BitVec 8 := 0
  rung : BitVec 2 := 0
  nextRung : BitVec 2 := 0
  head : BitVec 4 := 0
  isOpen : Bool := false
  verdict : BitVec 3 := 0
  repeats : BitVec 2 := 0
  cleanRun : BitVec 8 := 0
  sat : BitVec 24 := 0
  zero : BitVec 24 := 0
  ovfl : BitVec 16 := 0
  zrange : BitVec 16 := 0
  satb : BitVec 16 := 0
  zerob : BitVec 16 := 0
  nonfin : BitVec 16 := 0
  lastAmax : BitVec 16 := 0
  lastMinblk : BitVec 16 := 0
  samples : BitVec 32 := 0
  elems : BitVec 32 := 0
  exceed : BitVec 32 := 0
  maxrel : BitVec 16 := 0
  abandoned : BitVec 16 := 0
  /-- intra-zeroed rows of the window, and its zeroed blocks and rows without them (R111, R113, R114) -/
  intra : Nat := 0
  zeroed : Nat := 0
  /-- the window converted or drained at least one element (R115 step 2, R168) -/
  converted : Bool := false
  /-- a conversion of the window wrote a trouble plane (R116) -/
  wroteTrouble : Bool := false
  /-- the phase of a close whose verdict is not formed, and the time of the close (R110, R115) -/
  evaluating : Option (Phase × Nat) := none
  /-- the next quantisation raises flag levels (R116) -/
  raiseFlags : Bool := false
  /-- an infinite gradient element was replaced: NEXT_T is lowered at the next close (R122) -/
  lowerT : Bool := false
  /-- the open window takes part in the PART entry (R123) -/
  inPart : Bool := false
  deriving DecidableEq, Repr

/-- A tile that waits at a sheaf barrier (R236). -/
structure Arrival where
  pos : Nat
  barrier : Nat
  mask : BitVec 64
  time : Nat
  deriving DecidableEq, Repr

/-- A sheaf (R22): Martingale, Silage, barriers, activity and counters. -/
structure Sheaf where
  entries : Tbl MtgEntry := []
  groups : BitVec 32 := 0
  flushed : BitVec 32 := 0
  arrivals : List Arrival := []
  active : Bool := false
  /-- the paddock the sheaf ran in the last stride, for the switch of R64 -/
  ran : Option Nat := none
  /-- GTC at which the loads of a switch end (R65) -/
  entriesLoaded : Nat := 0
  /-- PART windows of outgoing paddocks whose verdict is still to come: paddock, entry number, and the entry as closed
  (R65) -/
  savedParts : List (Nat × Nat × MtgEntry) := []
  /-- entries saved at a switch whose registers do not show their window whole: paddock, entry number, and the entry as
  saved (R65, notes/assumptions/30) -/
  savedWindows : List (Nat × Nat × MtgEntry) := []
  conflicts : Tbl (BitVec 64) := []
  bankCe : BitVec 24 := 0
  bankUe : BitVec 16 := 0
  bankLastUe : BitVec 18 := 0
  deriving DecidableEq, Repr

/-- How a 64-byte HBM unit is stored (R311): under a paddock's key of an epoch, as the plaintext it decrypts to (`zeroRoot`:
the key of an all-zero MK, R426), or as bytes that another paddock stored unchanged. -/
inductive Stored where
  | underKey (paddock epoch : Nat) (zeroRoot : Bool) (plain : BitVec 512)
  | raw (bytes : BitVec 512)
  deriving DecidableEq, Repr

/-- A 64-byte HBM unit with its metadata symbol (R308); the default is a cleared unit (R314). -/
structure HbmUnit where
  stored : Stored := .raw 0
  epoch : BitVec 4 := 0
  clear : Bool := true
  deriving DecidableEq, Repr

/-- Paddock states (R403). -/
inductive PdkState where
  | free
  | active
  | releasing
  deriving DecidableEq, Repr

/-- What the part holds for one paddock outside the registers of its commit group. -/
structure Paddock where
  state : PdkState := .free
  memEpoch : BitVec 4 := 0
  linkEpoch : BitVec 4 := 0
  sweep : Bool := false
  sealingKey : Option (BitVec 256) := none
  /-- key in force for copies admitted from the next tick (R425) -/
  sealingNext : Option (BitVec 256) := none
  sealCtr : BitVec 64 := 0
  /-- the seal counter of the key before, for the seals admitted under it (R401) -/
  sealCtrOld : BitVec 64 := 0
  /-- the draw of the random source that the encapsulation key pair comes from, when there is one (R424) -/
  keyPair : Option Nat := none
  rotateMem : Bool := false
  rotateLink : Nat := 0
  sowerKey : BitVec 128 := 0
  ucode : List (BitVec 32) := []
  stray : BitVec 16 := 0
  replayCount : BitVec 16 := 0
  replayPending : Bool := false
  widenCount : BitVec 16 := 0
  lastTag : BitVec 16 := 0
  versionStale : Bool := false
  nonfinHit : Bool := false
  frozenHit : Bool := false
  latchValid : Bool := false
  latchedStep : BitVec 28 := 0
  latched : Tbl (BitVec 128) := []
  cNonfinGrad : BitVec 32 := 0
  cNonfinUpd : BitVec 32 := 0
  cFrozen : BitVec 32 := 0
  cHeld : BitVec 32 := 0
  cStale : BitVec 32 := 0
  cInvalid : BitVec 8 := 0
  cUe : BitVec 16 := 0
  cMismatch : BitVec 8 := 0
  slack : BitVec 17 := 0
  slackStride : BitVec 16 := 0
  heldBits : BitVec 16 := 0
  energy : BitVec 64 := 0
  energySeen : BitVec 64 := 0
  maxW : Option Nat := none
  budgetFault : Bool := false
  /-- the regions of a whole release that are still to clear, and how many it has in all (R415) -/
  clearing : BitVec 512 := 0
  releasedRegions : Nat := 0
  debugUsed : BitVec 4 := 0
  deriving DecidableEq, Repr

/-- Region states (PDK_REGION_r, R404). -/
inductive RegionState where
  | none
  | owned
  | scrubbing
  deriving DecidableEq, Repr

/-- An HBM region of 1 GiB (R404). -/
structure Region where
  state : RegionState := .none
  owner : BitVec 4 := 0
  deriving DecidableEq, Repr

/-- A PADDOCK_SET or PADDOCK_RELEASE admitted and not yet committed (R410, R412). -/
structure PdkChange where
  release : Bool
  paddock : Nat
  isNew : Bool
  whole : Bool
  sheaves : BitVec 400
  regions : BitVec 512
  share : BitVec 10
  reply : Nat
  deriving DecidableEq, Repr

/-- What the commit of a tick brings into force at position 200 (R52): groups, register values, composition changes. -/
structure Staged where
  groups : BitVec 17 := 0
  values : Tbl (BitVec 64) := []
  changes : List PdkChange := []
  /-- microprograms accepted at the tick, by paddock (R125) -/
  ucodes : List (Nat × List (BitVec 32)) := []
  deriving DecidableEq, Repr

/-- A Manger command record, words 0 to 6 (R387). -/
structure CmdRec where
  w0 : BitVec 64 := 0
  w1 : BitVec 64 := 0
  w2 : BitVec 64 := 0
  w3 : BitVec 64 := 0
  w4 : BitVec 64 := 0
  w5 : BitVec 64 := 0
  w6 : BitVec 64 := 0
  deriving DecidableEq, Repr

/-- A fetched command that is not acted on yet, with its queue, slot, reply ring and fetch stride (R385, R386). -/
structure Fetched where
  queue : Nat
  slot : Nat
  rbase : BitVec 48
  paddock : Nat
  stride : Nat
  cmd : CmdRec
  deriving DecidableEq, Repr

/-- The answer to a command acted on, until it is written (R393). -/
structure Reply where
  id : Nat
  queue : Nat
  slot : Nat
  rbase : BitVec 48
  paddock : Nat
  stride : Nat
  w0 : BitVec 64
  result : BitVec 8 := 0
  note : BitVec 8 := 0
  detail : BitVec 64 := 0
  actStride : Nat
  /-- false while the action that decides RESULT is still to come (R242, R410) -/
  settled : Bool := true
  /-- EVT_REPLY_LATE raised -/
  late : Bool := false
  /-- dropped by a host reset (R473): its bound still expires -/
  dropped : Bool := false
  deriving DecidableEq, Repr

/-- The kinds of transfer the copy engine makes (R392). -/
inductive CopyKind where
  | copy
  | sealIn
  | sealOut
  deriving DecidableEq, Repr

/-- An admitted copy or seal (R392). -/
structure CopyJob where
  kind : CopyKind
  queue : Nat
  slot : Nat
  paddock : Nat
  cmd : CmdRec
  bytes : Nat
  bound : Nat
  /-- the sealing key in force at admission (R425) -/
  key : BitVec 256 := 0
  late : Bool := false
  deriving DecidableEq, Repr

/-- Registers and pointers of a Manger queue outside its commit group (R383, R384). -/
structure QueueHead where
  head : BitVec 16 := 0
  phase : Bool := true
  lateReads : BitVec 16 := 0
  deriving DecidableEq, Repr

/-- An event record (R475); `epoch` counts the GTC loads before it (R41). -/
structure Event where
  gtc : BitVec 64
  epoch : Nat
  source : BitVec 32
  cls : BitVec 16
  code : BitVec 16
  payload : BitVec 128
  deriving DecidableEq, Repr

/-- A summary entry of the Gleaner (R481, R482). -/
structure Summary where
  cls : BitVec 16
  source : BitVec 32
  classWide : Bool
  epoch : Nat
  first : BitVec 64
  last : BitVec 64
  count : BitVec 32
  code : BitVec 16
  deriving DecidableEq, Repr

/-- The Gleaner (R480 to R485). -/
structure Gleaner where
  /-- raised, not yet arrived -/
  arriving : List Event := []
  /-- kept whole, in order of arrival -/
  kept : List Event := []
  summaries : List Summary := []
  /-- records of the time before ENABLE (R484) -/
  early : List Event := []
  read : BitVec 32 := 0
  write : BitVec 32 := 0
  written : BitVec 64 := 0
  dropped : BitVec 64 := 0
  deriving DecidableEq, Repr

/-- A load, restart or debug stop under way (R242, R487). -/
inductive ProgKind where
  | load
  | restart
  | halt
  deriving DecidableEq, Repr

/-- A tile that a PROGRAM_SET, RESTART or debug HALT names, with the DPA of its image and the range its header gives. -/
structure ProgImage where
  tile : Nat
  dpa : BitVec 48 := 0
  range : ProgRange := {}
  deriving DecidableEq, Repr

/-- A PROGRAM_SET, RESTART or debug HALT that is not carried out yet. -/
structure ProgCmd where
  kind : ProgKind
  paddock : Nat
  queue : Nat
  stride : Nat
  images : List ProgImage
  reply : Nat
  stopped : Bool := false
  deriving DecidableEq, Repr

/-- A sheaf in self-test or waiting for it (R470, R471). -/
structure TestJob where
  sheaf : Nat
  kind : BitVec 2
  extended : Bool
  command : Nat
  started : Option Nat := none
  deriving DecidableEq, Repr

/-- The tallies of a SELFTEST command (R472). -/
structure TestTally where
  passed : Nat := 0
  failed : Nat := 0
  left : Nat := 0
  deriving DecidableEq, Repr

/-- An outgoing frame (R356). -/
inductive OutFrame where
  /-- payload and tag of an IDLE frame come from a PRBS31 generator seeded with the chip ID, port, stride number [15:0] and entry
  index (R358) -/
  | idle (chip port stride entry : Nat)
  | hello (destChip : Nat) (h : Hello)
  | data (f : Frame)
  | report (f : Frame)
  deriving DecidableEq, Repr

/-- A frame kept for a resend until W_r after its entry (R370). -/
structure SentFrame where
  lane : Nat
  stamp : BitVec 16
  until_ : Nat
  tether : Nat
  frame : Frame
  /-- acceptance stride, and whether EVT_TETHER_LATE was raised for it -/
  stride : Nat
  late : Bool
  deriving DecidableEq, Repr

/-- What the next link control block brings the partner (R357): loss, by stamp and lane (R369), and a remap, by map and live
lanes after it (R370, R372). -/
structure LcbReport where
  err : Option (BitVec 16 × Nat) := none
  req : Option (BitVec 8 × Nat) := none
  deriving DecidableEq, Repr

/-- A scale-out port (R353 to R372). -/
structure Port where
  delayNs : BitVec 16 := 0
  laneMap : BitVec 8 := 0xE4
  laneOk : BitVec 4 := 0
  /-- logical lanes 0 to live − 1 are live -/
  live : Nat := 0
  state : BitVec 3 := 0
  fecCorr : BitVec 32 := 0
  fecUncorr : BitVec 8 := 0
  tagFail : BitVec 8 := 0
  resent : BitVec 16 := 0
  gait : Tbl (BitVec 16) := []
  bistFailed : Bool := false
  /-- what the next LCBs bring the partner, one each -/
  out : List LcbReport := []
  /-- remaps to apply at a stamped lane group, in order: stamp, map, live lanes after it -/
  remaps : List (BitVec 16 × BitVec 8 × Nat) := []
  sent : List SentFrame := []
  lastLcb : Option Lcb := none
  /-- the LCB sent last (R357) -/
  sentLcb : Option Lcb := none
  lastEntry : Option (Nat × OutFrame) := none
  /-- the 8,256 bytes of the frame of the last entry, as its lane carried them (R356) -/
  wire : List (BitVec 8) := []
  /-- the lane group of the last entry, counted from GTC 0, and the entries of it that carried their frame (R355) -/
  sentGroup : Nat := 0
  sentEntries : List Nat := []
  /-- disabled at the end of its module's life (R377) -/
  ended : Bool := false
  offsetStride : Option Nat := none
  /-- lanes the next training end brings up (R372) -/
  training : BitVec 4 := 0
  /-- entries of the tethers of a released paddock, carrying IDLE frames until the scrub ends (R378, R416): entry and
  paddock -/
  scrubHeld : List (Nat × Nat) := []
  deriving DecidableEq, Repr

/-- Tether states (R363). -/
inductive TetherState where
  | closed
  | opening
  | formed
  | degraded
  | broken
  deriving DecidableEq, Repr

/-- What an accepted transfer carries (R364). -/
inductive Transfer where
  | ring (frame : BitVec 32)
  | chunk (frame : Frame)
  deriving DecidableEq, Repr

/-- An accepted frame not yet sent: SEQ, acceptance stride, content, and the frame itself when it is a resend (R370). -/
structure Pend where
  seqNo : BitVec 64
  stride : Nat
  what : Transfer
  resend : Bool := false
  late : Bool := false
  deriving DecidableEq, Repr

/-- A tether (R361 to R365). -/
structure Tether where
  state : TetherState := .closed
  paddock : Nat := 0
  peerChip : BitVec 16 := 0
  peerTether : BitVec 12 := 0
  boundM1 : BitVec 3 := 0
  bminM1 : BitVec 3 := 0
  isProtected : Bool := false
  collective : Bool := false
  ports : BitVec 64 := 0
  sendRing : BitVec 48 := 0
  tail : BitVec 48 := 0
  recvRing : BitVec 48 := 0
  recvCount : BitVec 48 := 0
  consumedAt : BitVec 48 := 0
  ringFrames : BitVec 16 := 0
  slots : Nat := 0
  lateCount : BitVec 32 := 0
  accepted : BitVec 32 := 0
  nextSeq : BitVec 64 := 0
  reportSeq : BitVec 64 := 0
  openStride : Nat := 0
  lastValid : Nat := 0
  linkEpoch : BitVec 4 := 0
  /-- the last HELLO of its peer showed it stale, or of another EPOCH (R351) -/
  peerStale : Bool := false
  /-- the session key of the formation (R359, R419) -/
  sessionKey : BitVec 256 := 0
  ownNonce : BitVec 128 := 0
  peerNonce : BitVec 128 := 0
  pend : List Pend := []
  /-- frames that left too late for their bound, and are not reported yet: SEQ and acceptance stride (R58, R371) -/
  lateSent : List (BitVec 64 × Nat) := []
  staged : List Frame := []
  /-- receive side: frames delivered without a gap, and delivered beyond it -/
  delivered : BitVec 64 := 0
  beyond : List (BitVec 64) := []
  /-- last CONSUMED the peer reported for the frames this tether sends -/
  peerConsumed : BitVec 32 := 0
  /-- own CONSUMED word as read at the last tick -/
  ownConsumed : BitVec 32 := 0
  /-- reports to send on this tether: CONSUMED due in ring mode, and by TAG the L and w due (R324) -/
  reportDue : Bool := false
  tagsDue : Tbl (BitVec 32 × BitVec 16) := []
  /-- start reports of collectives that are not admitted here yet: w by TAG (R324) -/
  early : Tbl (BitVec 16) := []
  /-- PERMUTE chunks of the peer that are written here, and the w last reported, by TAG (R324, R339) -/
  permGot : Tbl (Nat × BitVec 16) := []
  /-- the stride in which it moved away from a module at its end of life: frames accepted up to it leave on the old entries (R377) -/
  movedAt : Option Nat := none
  deriving DecidableEq, Repr

/-- A Bridle site (R374 to R377). -/
structure Site where
  state : BitVec 3 := 0
  kind : BitVec 2 := 0
  wear : BitVec 2 := 0
  seconds : BitVec 32 := 0
  ratedH : BitVec 16 := 0
  identity : Tbl (BitVec 64) := []
  /-- the life record as last read or written back: SECONDS, write count and tag (R374) -/
  written : BitVec 32 := 0
  writes : BitVec 32 := 0
  lifeTag : BitVec 64 := 0
  /-- the nonce of the challenge (R375) -/
  nonce : BitVec 128 := 0
  /-- the time up to which SECONDS counts (R376) -/
  countedAt : Nat := 0
  /-- a port of the site was disabled since the life record was last written (R376) -/
  portOff : Bool := false
  /-- LNK_REFCLK of the site runs (R498) -/
  clocked : Bool := false
  deriving DecidableEq, Repr

/-- A chunk in a slot of the reduction buffer (R326): contributions and their sums. -/
structure ChunkSlot where
  arrived : Nat := 0
  sums : Tbl (BitVec 32) := []
  /-- contributions that arrived in the aclk `at_`, by ascending rank, not yet added (R326) -/
  waiting : List (Nat × List (BitVec 32)) := []
  at_ : Nat := 0
  updated : Bool := false
  deriving DecidableEq, Repr

/-- A held chunk of a permute (R339): the tether that brought it, or none for one of the part itself, its destination and
bytes. -/
structure HeldChunk where
  tether : Option Nat
  dest : BitVec 48
  bytes : List (BitVec 8)
  deriving DecidableEq, Repr

/-- A permute-table entry (R338). -/
structure PermEntry where
  destRank : Nat
  src : BitVec 48
  dst : BitVec 48
  count : Nat
  deriving DecidableEq, Repr

/-- An admitted, incomplete collective (R317 to R343). -/
structure Coll where
  id : Nat
  paddock : Nat
  descDpa : BitVec 48
  tag : BitVec 16
  kind : Nat
  gmode : Nat
  pM1 : Nat
  rank : Nat
  window : Nat
  members : List (Nat × Nat)
  src : BitVec 48
  dst : BitVec 48
  version : BitVec 48
  vtable : BitVec 48
  chunks : Nat
  gentry : Nat
  gsheaf : Nat
  gscale : BitVec 16
  first : BitVec 40
  ready : BitVec 48
  deadline : Nat
  done : BitVec 48
  readyCount : BitVec 32
  perms : List PermEntry
  step : BitVec 28
  key : BitVec 128
  admitted : Nat
  isReady : Bool := false
  started : Bool := false
  slots : Nat := 0
  low : Nat := 0
  sendC : Nat := 0
  sendJ : Nat := 1
  peers : Tbl (Nat × Nat) := []
  chunkSlots : Tbl ChunkSlot := []
  held : List HeldChunk := []
  /-- by rank: the lowest chunk not received (ALL_GATHER), or chunks sent (PERMUTE) -/
  got : Tbl Nat := []
  /-- rank and number of the chunks received beyond the lowest missing one (ALL_GATHER) -/
  beyond : List (Nat × Nat) := []
  /-- the ranges that received chunks were directed to (PERMUTE, R340) -/
  received : List (Nat × Nat) := []
  /-- DPA of the member table (R318) -/
  membersDpa : BitVec 48 := 0
  aborting : Bool := false
  updatedAny : Bool := false
  fMismatch : Bool := false
  fStale : Bool := false
  fUe : Bool := false
  fFrozen : Bool := false
  fNonfin : Bool := false
  fLate : Bool := false
  raised : BitVec 5 := 0
  deriving DecidableEq, Repr

/-- The power state of the part (R459). -/
inductive PowerState where
  | running
  | held
  | asleep
  deriving DecidableEq, Repr

/-- Time states (R41). -/
inductive TimeState where
  | acquire
  | locked
  | holdover
  deriving DecidableEq, Repr

/-- The stride and time logic (R34 to R42). -/
structure Time where
  gtc : BitVec 64 := 0
  state : TimeState := .locked
  offset : BitVec 16 := 0
  ignored : BitVec 16 := 0
  missed : Nat := 0
  edgeUsed : Bool := false
  residual : Int := 0
  mark : Option (BitVec 64) := none
  loads : Nat := 0
  /-- a load put the GTC at a tick whose work STRIDE_TICK still has to do (R35, R41) -/
  tickDue : Bool := false
  /-- what of the present stride is still to come (R45): position 200, the fetch, the opening of the program window, the
  read of the queues for the next tick, and the next span of R443 -/
  actDue : Bool := true
  fetchDue : Bool := true
  windowDue : Bool := true
  readDue : Bool := true
  nextSpan : Nat := 0
  deriving DecidableEq, Repr

/-- The power governor (R440 to R458). -/
structure Power where
  inputMv : BitVec 16 := 0
  strideW : BitVec 16 := 0
  chargeW : Nat := 0
  /-- charges in tenths of a watt of the strides before the present one, newest first, up to 15 (R448) -/
  charges : List Nat := []
  held : BitVec 16 := 0
  prevHeld : BitVec 16 := 0
  heldSheaves : BitVec 9 := 0
  tjMax : BitVec 8 := 0
  hbmMax : BitVec 8 := 0
  derate : BitVec 12 := 0
  warn : Bool := false
  prevTrip : Bool := false
  tripRecord : Bool := false
  energy : BitVec 64 := 0
  /-- PWR_ENERGY as the steps of R436 give it during a scrub (R437) -/
  energySeen : BitVec 64 := 0
  queueEnergy : Tbl (BitVec 64) := []
  queueSeen : Tbl (BitVec 64) := []
  excursion : Bool := false
  /-- the span of R443 in which a sheaf was last returned, counted from GTC 0, and the returns in it -/
  returnSpan : Nat := 0
  returned : Nat := 0
  overBits : BitVec 16 := 0
  releaseQ : BitVec 400 := 0
  returnQ : BitVec 400 := 0
  refresh : BitVec 8 := 0
  /-- the sheaves active at any position of the present stride: charge in tenths of a watt, and the paddock it runs (R447,
  R448) -/
  planned : Tbl (Nat × Option Nat) := []
  /-- sheaves of the paddocks held in the present stride -/
  heldCount : Nat := 0
  deriving DecidableEq, Repr

/-- Boot and self-test (R459 to R474). -/
structure BootState where
  power : PowerState := .running
  failSrc : BitVec 16 := 0
  failCode : BitVec 8 := 0
  failedAtBoot : BitVec 9 := 0
  rejectA : Bool := false
  slot : BitVec 2 := 1
  passed : BitVec 16 := 0
  failed : BitVec 16 := 0
  failMask : BitVec 400 := 0
  jobs : List TestJob := []
  tallies : Tbl TestTally := []
  outer : Bool := false
  deriving DecidableEq, Repr

/-- A request to the replay-protected store (R432, R433): the bound read, or a new bound written. -/
inductive StoreRequest where
  | read
  | write (bound : BitVec 41)
  deriving DecidableEq, Repr

/-- Security state of the Farrier (R418 to R439). -/
structure Security where
  fuses : Fuses := {}
  fwVersion : BitVec 32 := 0
  /-- the bytes of the running firmware image (R428, R431) -/
  image : List (BitVec 8) := []
  attReady : Bool := false
  attNext : BitVec 41 := 0
  attLimit : BitVec 41 := 0
  attThisTick : Nat := 0
  storeCounter : Option (BitVec 64) := none
  /-- the request to the store that awaits its answer (R505), and whether RPS_FETCH has read it -/
  request : Option StoreRequest := none
  requestRead : Bool := false
  /-- a request that waits for the one before it -/
  nextRequest : Option StoreRequest := none
  touched : BitVec 16 := 0
  scan : Bool := false
  halt : Bool := false
  force : Bool := false
  sramRead : Bool := false
  deriving DecidableEq, Repr

/-- The host port (R379 to R402). -/
structure HostPort where
  up : Bool := true
  width : Nat := 8
  rate : Nat := 3
  resetPending : Bool := false
  heads : Tbl QueueHead := []
  slotsRead : Tbl (List CmdRec) := []
  fetched : List Fetched := []
  replies : List Reply := []
  nextReply : Nat := 0
  copies : List CopyJob := []
  logDrop : Bool := false
  fault : Bool := false
  security : Bool := false
  /-- data of the last completion sent to the host, and whether it is poisoned (R297) -/
  data : List (BitVec 8) := []
  poisoned : Bool := false
  deriving DecidableEq, Repr

/-- Register bits written in one aclk, by offset (R9, R391): what the device set, or what the host wrote. -/
structure SameAclk where
  time : Nat := 0
  written : Tbl (BitVec 64) := []
  deriving DecidableEq, Repr

/-- An atomic that a bank performed (R270): when, at which address, and the tile that sent it. -/
structure AtomicDone where
  at_ : Nat
  addr : Nat
  tile : Nat
  deriving DecidableEq, Repr

/-- The whole part. -/
structure State where
  /-- the commands that wait, first in, first out -/
  pending : List Instr
  time : Time
  /-- registers with a stored value, in force, by offset of the register map (R489) -/
  regs : Tbl (BitVec 64)
  /-- shadow values of RWS fields by offset (R8, R12) -/
  shadows : Tbl (BitVec 64)
  /-- bits the device set, and bits the host wrote, in the last aclk in which it did (R9) -/
  devSet : SameAclk
  hostSet : SameAclk
  /-- bits written through BAR0 in the last aclk in which one was written (R391) -/
  barSet : SameAclk
  staged : Option Staged
  /-- PADDOCK_SET and PADDOCK_RELEASE shadows not yet committed -/
  changes : List PdkChange
  masks : Tbl (BitVec 400)
  shares : Tbl (BitVec 10)
  regions : Tbl Region
  paddocks : Tbl Paddock
  sheaves : Tbl Sheaf
  tiles : Tbl Tile
  /-- tile stores, sheaf banks, physical Silage and host memory, by DPA -/
  mem : List Host.Cell
  /-- HBM units by DPA[38:6] -/
  hbm : Tbl HbmUnit
  /-- words of SRAM (DPA div 8) that hold an error until written whole (R297) -/
  eccWords : Tbl EccMark
  /-- HBM units (DPA div 64) that hold an error (R309) -/
  eccUnits : Tbl EccMark
  hbmCe : Tbl (BitVec 32)
  hbmUe : Tbl (BitVec 16)
  hbmErr : Tbl (BitVec 64)
  /-- the atomics performed in the last aclk in which one was (R270) -/
  atomicsDone : List AtomicDone
  host : HostPort
  gleaner : Gleaner
  progs : List ProgCmd
  debugMem : Option (BitVec 64)
  ports : Tbl Port
  tethers : Tbl Tether
  sites : Tbl Site
  colls : List Coll
  nextColl : Nat
  power : Power
  boot : BootState
  sec : Security
  /-- the bytes that FLASH_WRITE has written into the tray's management flash (R506); the others are as the tray was assembled with -/
  flash : Tbl (Option (BitVec 8))
  /-- the response of the management port: status byte and data (R502) -/
  mgt : List (BitVec 8)
  thermTripLow : Bool
  /-- GTC of the last rise of STRIDE_MARK (R500) -/
  strideMark : Nat
  /-- the model's own counter of free values drawn (not the manual's) -/
  draws : Nat
  deriving DecidableEq, Repr

/-- The Sower key of SEED 0 (R208): SHAKE256 of "AQZ-SOWER" and eight zero bytes, 128 bits little-endian. -/
def sowerKeyZero : BitVec 128 := 0x2b4f9ff13784db64e1170cf92b83f84c

/-- The reset value of paddock `p` (R403, R405, R208). -/
def paddockReset (p : Nat) : Paddock :=
  { state := if p = 0 then .active else .free, sowerKey := sowerKeyZero }

/-- The reset value of region `r` (R405). -/
def regionReset (r : Nat) : Region :=
  if r ≤ 7 then { state := .owned, owner := 0 } else {}

/-- The state right after the power-up reset (R10, R302, R314, R405, R444, R474). -/
def State.reset : State where
  pending := []
  time := {}
  regs := []
  shadows := []
  devSet := {}
  hostSet := {}
  barSet := {}
  staged := none
  changes := []
  masks := []
  shares := []
  regions := []
  paddocks := []
  sheaves := []
  tiles := []
  mem := []
  hbm := []
  eccWords := []
  eccUnits := []
  hbmCe := []
  hbmUe := []
  hbmErr := []
  atomicsDone := []
  host := {}
  gleaner := {}
  progs := []
  debugMem := none
  ports := []
  tethers := []
  sites := []
  colls := []
  nextColl := 0
  power := {}
  boot := {}
  sec := { request := some .read }
  flash := []
  mgt := []
  thermTripLow := false
  strideMark := 0
  draws := 0

end Sys2Proof.Machine
end

