-- ==== Sys2Proof/Machine/Table.lean ====
section
/-!
DEFINITION. Machine/Table.lean: reading and writing sparse tables, and bytes of memory.  A write of the default removes
the entry, so the canonical form is kept.
-/

namespace Sys2Proof

/-- The value at key `k`, or `d` when the table lists none. -/
def Tbl.get {α : Type} (d : α) : Tbl α → Nat → α
  | [], _ => d
  | (j, v) :: rest, k => if j = k then v else if k < j then d else Tbl.get d rest k

/-- The table without key `k`. -/
def Tbl.drop {α : Type} : Tbl α → Nat → Tbl α
  | [], _ => []
  | (j, v) :: rest, k => if j = k then rest else if k < j then (j, v) :: rest else (j, v) :: Tbl.drop rest k

/-- The table with `v` listed at key `k`. -/
def Tbl.insert {α : Type} : Tbl α → Nat → α → Tbl α
  | [], k, v => [(k, v)]
  | (j, w) :: rest, k, v =>
    if j = k then (k, v) :: rest else if k < j then (k, v) :: (j, w) :: rest else (j, w) :: Tbl.insert rest k v

/-- The table that reads `v` at key `k`; `d` is the default, which is never listed. -/
def Tbl.put {α : Type} [DecidableEq α] (d : α) (m : Tbl α) (k : Nat) (v : α) : Tbl α :=
  if v = d then Tbl.drop m k else Tbl.insert m k v

/-- The table with the value at `k` changed by `f`. -/
def Tbl.modify {α : Type} [DecidableEq α] (d : α) (m : Tbl α) (k : Nat) (f : α → α) : Tbl α :=
  Tbl.put d m k (f (Tbl.get d m k))

/-- A table from a list of values at keys `k`, `k + 1`, … -/
def Tbl.ofList {α : Type} [DecidableEq α] (d : α) : Nat → List α → Tbl α
  | _, [] => []
  | k, v :: rest => if v = d then Tbl.ofList d (k + 1) rest else (k, v) :: Tbl.ofList d (k + 1) rest

/-- Keys strictly rise. -/
def Tbl.sorted {α : Type} : Tbl α → Bool
  | [] => true
  | [_] => true
  | (j, _) :: (k, w) :: rest => decide (j < k) && Tbl.sorted ((k, w) :: rest)

/-- The canonical form of memory: addresses strictly rising and no byte equal to what an unlisted address reads as. -/
def Memory.wf (m : List Host.Cell) : Bool :=
  Tbl.sorted m && m.all fun c => decide (c.2 ≠ 0)

/-- One byte of memory: an unlisted address reads zero (R302, notes/assumptions/2). -/
def Memory.byte (m : List Host.Cell) (a : Nat) : Byte := Tbl.get 0 m a

/-- Memory with one byte written. -/
def Memory.setByte (m : List Host.Cell) (a : Nat) (b : Byte) : List Host.Cell := Tbl.put 0 m a b

/-- `n` bytes from address `a`. -/
def Memory.bytes (m : List Host.Cell) (a : Nat) : Nat → List Byte
  | 0 => []
  | n + 1 => Memory.byte m a :: Memory.bytes m (a + 1) n

/-- Memory with a list of bytes written from address `a`. -/
def Memory.setBytes (m : List Host.Cell) (a : Nat) : List Byte → List Host.Cell
  | [] => m
  | b :: rest => Memory.setBytes (Memory.setByte m a b) (a + 1) rest

/-- Memory with every address from `lo` up to but not at `hi` zero (a bulk clear, R303). -/
def Memory.clear (m : List Host.Cell) (lo hi : Nat) : List Host.Cell :=
  m.filter fun c => decide (c.1 < lo ∨ hi ≤ c.1)

end Sys2Proof
end

