-- ==== Sys2Proof/Machine/Bits.lean ====
section
/-!
DEFINITION. Machine/Bits.lean: bit fields, byte order (R4, R5), saturating counts and two's complement.
-/

namespace Sys2Proof.Machine

/-- Bits [lo + len − 1 : lo] of a value as a number (R4). -/
def bits {n : Nat} (v : BitVec n) (lo len : Nat) : Nat := (v.toNat >>> lo) % 2 ^ len

/-- One bit of a value. -/
def bit {n : Nat} (v : BitVec n) (i : Nat) : Bool := v.getLsbD i

/-- Number 1 or 0. -/
def b2n (b : Bool) : Nat := if b then 1 else 0

/-- The value with bits [lo + len − 1 : lo] replaced by `x`. -/
def setBits {n : Nat} (v : BitVec n) (lo len x : Nat) : BitVec n :=
  let mask := BitVec.ofNat n ((2 ^ len - 1) <<< lo)
  (v &&& ~~~mask) ||| BitVec.ofNat n ((x % 2 ^ len) <<< lo)

/-- A word assembled from fields: low bit, width and value of each; bits not named are zero. -/
def pack (n : Nat) : List (Nat × Nat × Nat) → BitVec n
  | [] => 0
  | (lo, len, x) :: rest => BitVec.ofNat n ((x % 2 ^ len) <<< lo) ||| pack n rest

/-- The mask of bits [lo + len − 1 : lo]. -/
def maskOf (lo len : Nat) : BitVec 64 := BitVec.ofNat 64 ((2 ^ len - 1) <<< lo)

/-- The union of several field masks. -/
def fieldMask : List (Nat × Nat) → BitVec 64
  | [] => 0
  | (lo, len) :: rest => maskOf lo len ||| fieldMask rest

/-- A saturating sum. -/
def satAdd {n : Nat} (v : BitVec n) (k : Nat) : BitVec n :=
  if v.toNat + k < 2 ^ n then BitVec.ofNat n (v.toNat + k) else BitVec.allOnes n

/-- A wrapping sum. -/
def wrapAdd {n : Nat} (v : BitVec n) (k : Nat) : BitVec n := v + BitVec.ofNat n k

/-- The two's complement code of an integer, saturating at the width's symmetric range (R39, R479). -/
def satInt (n : Nat) (x : Int) : BitVec n :=
  let top : Int := 2 ^ (n - 1) - 1
  BitVec.ofInt n (if x > top then top else if x < -top then -top else x)

/-- Sign extension of the low `len` bits of a number to `n` bits. -/
def sext (n len x : Nat) : BitVec n := BitVec.ofInt n (BitVec.ofNat len x).toInt

/-- The smallest multiple of `m` not below `x`. -/
def alignUp (x m : Nat) : Nat := (x + m - 1) / m * m

/-- Division rounded up. -/
def ceilDiv (a b : Nat) : Nat := (a + b - 1) / b

/-- The number a little-endian byte list spells (R5). -/
def leNat : List Byte → Nat
  | [] => 0
  | b :: rest => b.toNat + 256 * leNat rest

/-- The `n` little-endian bytes of a number (R5). -/
def leBytes : Nat → Nat → List Byte
  | 0, _ => []
  | n + 1, x => BitVec.ofNat 8 (x % 256) :: leBytes n (x / 256)

/-- Word `i` of a record's bytes. -/
def recordWord (bs : List Byte) (i : Nat) : BitVec 64 := BitVec.ofNat 64 (leNat ((bs.drop (8 * i)).take 8))

/-- Numbers lo, lo + 1, …, lo + n − 1. -/
def span (lo n : Nat) : List Nat := (List.range n).map (lo + ·)

/-- `f` applied `n` times with the indices 0 to n − 1 in order. -/
def forRange {α : Type} (n : Nat) (init : α) (f : α → Nat → α) : α := (List.range n).foldl f init

/-- The number of bits set. -/
def popCount {n : Nat} (v : BitVec n) : Nat := ((List.range n).filter fun i => v.getLsbD i).length

/-- The indices of the bits set, ascending. -/
def setIndices {n : Nat} (v : BitVec n) : List Nat := (List.range n).filter fun i => v.getLsbD i

/-- The value with bit `i` given. -/
def withBit {n : Nat} (v : BitVec n) (i : Nat) (b : Bool) : BitVec n :=
  let m := BitVec.ofNat n (1 <<< i)
  if b then v ||| m else v &&& ~~~m

/-- The list with its element `i` changed. -/
def listModify {α : Type} (l : List α) (i : Nat) (f : α → α) : List α :=
  l.zipIdx.map fun p => if p.2 = i then f p.1 else p.1

/-- The list without its element `i`. -/
def listDrop {α : Type} (l : List α) (i : Nat) : List α := l.eraseIdx i

end Sys2Proof.Machine
end

