-- ==== Sys2Proof/Machine/Fp.lean ====
section
/-!
DEFINITION. Machine/Fp.lean: the numeric formats and roundings of Number Formats, Rounding and Conformance, exactly:
a finite value is an integer times a power of two, and each rounding is one step from an exact rational.
-/

namespace Sys2Proof.Machine

/-- A numeric value: NaN, an infinity by sign, or (−1)^neg × man × 2^exp (zero keeps its sign). -/
inductive Num where
  | nan
  | inf (neg : Bool)
  | fin (neg : Bool) (man : Nat) (exp : Int)
  deriving DecidableEq, Repr

/-- A floating-point layout (R68): exponent and mantissa widths, bias, and whether the top exponent field holds
infinity and NaN (IEEE style), or only mantissa all ones is NaN (E4M3), or every code is finite (E2M1). -/
structure Fmt where
  ebits : Nat
  mbits : Nat
  bias : Nat
  ieee : Bool
  nanTop : Bool
  deriving DecidableEq, Repr

/-- BF16 (R68). -/
def fmtBf16 : Fmt := ⟨8, 7, 127, true, false⟩
/-- FP32 (R68). -/
def fmtFp32 : Fmt := ⟨8, 23, 127, true, false⟩
/-- E4M3 (R68). -/
def fmtE4m3 : Fmt := ⟨4, 3, 7, false, true⟩
/-- E5M2 (R68). -/
def fmtE5m2 : Fmt := ⟨5, 2, 15, true, false⟩
/-- E2M1 (R68). -/
def fmtE2m1 : Fmt := ⟨2, 1, 1, false, false⟩

/-- The sign bit's position. -/
def Fmt.sbit (f : Fmt) : Nat := f.ebits + f.mbits

/-- The exponent of one unit of the smallest subnormal. -/
def Fmt.qmin (f : Fmt) : Int := 1 - (f.bias : Int) - (f.mbits : Int)

/-- The magnitude code of the largest finite value (R68). -/
def Fmt.maxCode (f : Fmt) : Nat :=
  if f.ieee then ((2 ^ f.ebits - 1) <<< f.mbits) - 1
  else if f.nanTop then 2 ^ f.sbit - 2
  else 2 ^ f.sbit - 1

/-- The value a code stands for (R68, R69). -/
def Fmt.decode (f : Fmt) (code : Nat) : Num :=
  let neg := (code >>> f.sbit) % 2 = 1
  let e := (code >>> f.mbits) % 2 ^ f.ebits
  let m := code % 2 ^ f.mbits
  if f.ieee && e == 2 ^ f.ebits - 1 then (if m = 0 then .inf neg else .nan)
  else if f.nanTop && e == 2 ^ f.ebits - 1 && m == 2 ^ f.mbits - 1 then .nan
  else if e = 0 then .fin neg m f.qmin
  else .fin neg (2 ^ f.mbits + m) (f.qmin + (e : Int) - 1)

/-- The canonical quiet NaN (R70). -/
def Fmt.nanCode (f : Fmt) : Nat :=
  if f.ieee then ((2 ^ f.ebits - 1) <<< f.mbits) + 2 ^ (f.mbits - 1) else 2 ^ f.sbit - 1

/-- The code of an infinity. -/
def Fmt.infCode (f : Fmt) (neg : Bool) : Nat := (b2n neg <<< f.sbit) + ((2 ^ f.ebits - 1) <<< f.mbits)

/-- An integer quotient rounded to nearest, ties to even (R79). -/
def rneDiv (a b : Nat) : Nat :=
  let q := a / b
  let r := a % b
  if 2 * r < b then q else if b < 2 * r then q + 1 else if q % 2 = 0 then q else q + 1

/-- floor(log2 (a / b)) for positive a and b. -/
def log2Quot (a b : Nat) : Int :=
  let d : Int := (Nat.log2 a : Int) - (Nat.log2 b : Int)
  -- a / b lies in [2^(d-1), 2^(d+1))
  let ge : Bool := if 0 ≤ d then decide (b <<< d.toNat ≤ a) else decide (b ≤ a <<< (-d).toNat)
  if ge then d else d - 1

/-- a / b × 2^e in units of 2^q, as a numerator and denominator. -/
def inUnits (a b : Nat) (e q : Int) : Nat × Nat :=
  let s := e - q
  if 0 ≤ s then (a <<< s.toNat, b) else (a, b <<< (-s).toNat)

/-- The magnitude code that RNE gives for a / b × 2^e (R79), before any overflow treatment: the code may exceed the
format's largest finite code. -/
def Fmt.roundMag (f : Fmt) (a b : Nat) (e : Int) : Nat :=
  if a = 0 then 0 else
  let lg := log2Quot a b + e
  let q0 := lg - (f.mbits : Int)
  let q := if q0 < f.qmin then f.qmin else q0
  let (n, d) := inUnits a b e q
  let m := rneDiv n d
  -- m units of 2^q: exponent field is q − qmin + 1 for normals; a carry moves on by itself in the code
  if q = f.qmin && m < 2 ^ f.mbits then m
  else m + (q - f.qmin).toNat * 2 ^ f.mbits

/-- RNE of a signed rational into the format; overflow to infinity (`sat` false) or to the largest finite value, and
subnormal results flushed to a zero of the same sign when `flush` (R79, R83, R90, R91). -/
def Fmt.roundRat (f : Fmt) (sat flush neg : Bool) (a b : Nat) (e : Int) : Nat :=
  let mag := f.roundMag a b e
  let mag := if flush && decide (mag < 2 ^ f.mbits) then 0 else mag
  let mag := if mag > f.maxCode then (if sat then f.maxCode else (2 ^ f.ebits - 1) <<< f.mbits) else mag
  (b2n neg <<< f.sbit) + mag

/-- RNE of a value into the format (NaN canonical, R70). -/
def Fmt.encode (f : Fmt) (sat flush : Bool) : Num → Nat
  | .nan => f.nanCode
  | .inf neg => if sat then (b2n neg <<< f.sbit) + f.maxCode else f.infCode neg
  | .fin neg m e => f.roundRat sat flush neg m 1 e

/-- Whether the code is a subnormal (exponent field zero, mantissa not). -/
def Fmt.isSubnormal (f : Fmt) (code : Nat) : Bool :=
  decide ((code >>> f.mbits) % 2 ^ f.ebits = 0) && decide (code % 2 ^ f.mbits ≠ 0)

/-- The code with a subnormal replaced by a zero of the same sign (R90). -/
def Fmt.flush (f : Fmt) (code : Nat) : Nat :=
  if f.isSubnormal code then ((code >>> f.sbit) % 2) <<< f.sbit else code

/-- The value zero with sign. -/
def Num.zero (neg : Bool) : Num := .fin neg 0 0

/-- Whether the value is ±0. -/
def Num.isZero : Num → Bool
  | .fin _ m _ => decide (m = 0)
  | _ => false

/-- Whether the value is finite. -/
def Num.isFinite : Num → Bool
  | .fin _ _ _ => true
  | _ => false

/-- Sign of the value. -/
def Num.isNeg : Num → Bool
  | .nan => false
  | .inf s => s
  | .fin s _ _ => s

/-- The value negated. -/
def Num.neg : Num → Num
  | .nan => .nan
  | .inf s => .inf (!s)
  | .fin s m e => .fin (!s) m e

/-- The magnitude. -/
def Num.abs : Num → Num
  | .nan => .nan
  | .inf _ => .inf false
  | .fin _ m e => .fin false m e

/-- The exact product (infinity times zero is NaN). -/
def Num.mul : Num → Num → Num
  | .nan, _ => .nan
  | _, .nan => .nan
  | .inf s, .inf t => .inf (s != t)
  | .inf s, .fin t m _ => if m = 0 then .nan else .inf (s != t)
  | .fin s m _, .inf t => if m = 0 then .nan else .inf (s != t)
  | .fin s m e, .fin t n f => .fin (s != t) (m * n) (e + f)

/-- The value times 2^k. -/
def Num.scale (k : Int) : Num → Num
  | .fin s m e => .fin s m (e + k)
  | v => v

/-- The integer a finite value is in units of 2^q, for q not above its exponent. -/
def Num.units (q : Int) : Num → Int
  | .fin s m e => let x : Int := ((m <<< (e - q).toNat : Nat) : Int); if s then -x else x
  | _ => 0

/-- The exact sum.  A zero sum of opposite signs is +0 as IEEE 754 rounds to nearest; opposite infinities give NaN. -/
def Num.add : Num → Num → Num
  | .nan, _ => .nan
  | _, .nan => .nan
  | .inf s, .inf t => if s = t then .inf s else .nan
  | .inf s, .fin _ _ _ => .inf s
  | .fin _ _ _, .inf t => .inf t
  | .fin s m e, .fin t n f =>
    if m = 0 ∧ n = 0 then .fin (s && t) 0 0
    else if m = 0 then .fin t n f
    else if n = 0 then .fin s m e
    else
      let q := if e ≤ f then e else f
      let x := Num.units q (.fin s m e) + Num.units q (.fin t n f)
      if x = 0 then .fin false 0 0 else .fin (decide (x < 0)) x.natAbs q

/-- |a| compared with |b| for finite values: true when |a| < |b|. -/
def Num.magLt : Num → Num → Bool
  | .fin _ m e, .fin _ n f =>
    let q := if e ≤ f then e else f
    decide (m <<< (e - q).toNat < n <<< (f - q).toNat)
  | .fin _ _ _, .inf _ => true
  | _, _ => false

/-- The larger magnitude of two finite values. -/
def Num.magMax (a b : Num) : Num := if Num.magLt a b then b.abs else a.abs

/-- a < b for values that are not NaN. -/
def Num.lt (a b : Num) : Bool :=
  if a.isZero && b.isZero then false
  else match a.isNeg, b.isNeg with
    | true, false => true
    | false, true => false
    | false, false => Num.magLt a b
    | true, true => Num.magLt b a

/-- a / b × 2^e < c / d × 2^f for naturals with b, d positive. -/
def ratLt (a b : Nat) (e : Int) (c d : Nat) (f : Int) : Bool :=
  let q := if e ≤ f then e else f
  decide ((a <<< (e - q).toNat) * d < (c <<< (f - q).toNat) * b)

/-- BF16 code to value. -/
def bf (c : BitVec 16) : Num := fmtBf16.decode c.toNat
/-- FP32 code to value. -/
def fp (c : BitVec 32) : Num := fmtFp32.decode c.toNat
/-- FP32 value rounded by RNE with subnormals flushed (R90: arrays, Whippletree). -/
def toFp (v : Num) : BitVec 32 := BitVec.ofNat 32 (fmtFp32.encode false true v)
/-- FP32 value rounded by RNE with subnormals kept. -/
def toFpKeep (v : Num) : BitVec 32 := BitVec.ofNat 32 (fmtFp32.encode false false v)
/-- BF16 value rounded by RNE with subnormals kept (Hame, Chaff, R289). -/
def toBfKeep (v : Num) : BitVec 16 := BitVec.ofNat 16 (fmtBf16.encode false false v)
/-- BF16 value rounded by RNE with subnormals flushed (FWA drain, bank atomic, R90). -/
def toBf (v : Num) : BitVec 16 := BitVec.ofNat 16 (fmtBf16.encode false true v)
/-- The canonical BF16 NaN (R70). -/
def bfNan : BitVec 16 := 0x7FC0
/-- Whether a BF16 code is NaN or infinite. -/
def bfNonFinite (c : BitVec 16) : Bool := decide (bits c 7 8 = 255)
/-- BF16 code with a subnormal flushed (R90). -/
def bfFlush (c : BitVec 16) : BitVec 16 := BitVec.ofNat 16 (fmtBf16.flush c.toNat)
/-- FP32 code with a subnormal flushed (R90). -/
def fpFlush (c : BitVec 32) : BitVec 32 := BitVec.ofNat 32 (fmtFp32.flush c.toNat)
/-- Whether a BF16 code is NaN. -/
def bfIsNan (c : BitVec 16) : Bool := bfNonFinite c && decide (bits c 0 7 ≠ 0)
/-- A BF16 code with a NaN made canonical (R70). -/
def bfCanonical (c : BitVec 16) : BitVec 16 := if bfIsNan c then bfNan else c
/-- A value in the subnormal range of FP32 and BF16 replaced by a zero of the same sign before it is rounded (R166). -/
def Num.flushed : Num → Num
  | .fin s m e => if ratLt m 1 e 1 1 (-126) then .fin s 0 0 else .fin s m e
  | v => v
/-- An integer as a value. -/
def numOfInt (x : Int) : Num := .fin (decide (x < 0)) x.natAbs 0

/-- Stochastic rounding of an FP32 code with 16 random bits (R80). -/
def stochasticRound (x : BitVec 32) (u : BitVec 16) : BitVec 16 :=
  let m := bits x 0 31
  let sign := bits x 31 1 <<< 15
  if bits x 23 8 = 255 then (if bits x 0 23 = 0 then BitVec.ofNat 16 (bits x 16 16) else bfNan)
  else if bits x 23 8 = 0 then BitVec.ofNat 16 sign
  else
    let r := ((m + u.toNat) >>> 16) % 2 ^ 15
    let r := if r ≥ 0x7F80 then 0x7F7F else r
    BitVec.ofNat 16 (sign + r)

/-- Steps of an integer square root: `fuel` result bits from the top. -/
def isqrtAux : Nat → Nat → Nat → Nat
  | 0, _, r => r
  | k + 1, n, r =>
    let t := r + 2 ^ k
    isqrtAux k n (if t * t ≤ n then t else r)

/-- The integer square root of n, for n below 4^bits. -/
def isqrt (bitsN n : Nat) : Nat := isqrtAux bitsN n 0

/-- FP32 square root with one RNE rounding (R331); a negative value other than −0 gives NaN. -/
def fpSqrt (c : BitVec 32) : BitVec 32 :=
  match fp c with
  | .nan => 0x7FC00000
  | .inf s => if s then 0x7FC00000 else c
  | .fin s m e =>
    if m = 0 then c
    else if s then 0x7FC00000
    else
      -- make the exponent even and give the root 32 guard bits, with a sticky bit
      let (m, e) := if e % 2 = 0 then (m, e) else (m * 2, e - 1)
      let big := m <<< 64
      let r := isqrt 64 big
      let sticky := b2n (decide (r * r ≠ big))
      BitVec.ofNat 32 (fmtFp32.roundRat false true false (2 * r + sticky) 1 (e / 2 - 33))

/-- FP32 sum with one RNE rounding and subnormals flushed (R89, R90, R326, R331). -/
def fpAdd (a b : BitVec 32) : BitVec 32 := toFp (Num.add (fp a) (fp b))
/-- FP32 difference. -/
def fpSub (a b : BitVec 32) : BitVec 32 := toFp (Num.add (fp a) (fp b).neg)
/-- FP32 product. -/
def fpMul (a b : BitVec 32) : BitVec 32 := toFp (Num.mul (fp a) (fp b))
/-- FP32 quotient with one RNE rounding. -/
def fpDiv (a b : BitVec 32) : BitVec 32 :=
  match fp a, fp b with
  | .nan, _ => 0x7FC00000
  | _, .nan => 0x7FC00000
  | .inf _, .inf _ => 0x7FC00000
  | .inf s, .fin t _ _ => BitVec.ofNat 32 (fmtFp32.infCode (s != t))
  | .fin s _ _, .inf t => BitVec.ofNat 32 (b2n (s != t) <<< 31)
  | .fin s m e, .fin t n f =>
    if n = 0 then (if m = 0 then 0x7FC00000 else BitVec.ofNat 32 (fmtFp32.infCode (s != t)))
    else BitVec.ofNat 32 (fmtFp32.roundRat false true (s != t) m n (e - f))
/-- A BF16 code widened exactly to FP32. -/
def bfToFp (c : BitVec 16) : BitVec 32 := BitVec.ofNat 32 (c.toNat <<< 16)

/-- The smallest code of `f` whose value is not below a / b × 2^e, for a positive format range: RNE is not used here
(R102, R103, R101). -/
def Fmt.ceilMag (f : Fmt) (a b : Nat) (e : Int) : Nat :=
  if a = 0 then 0 else
  let lg := log2Quot a b + e
  let q0 := lg - (f.mbits : Int)
  let q := if q0 < f.qmin then f.qmin else q0
  let (n, d) := inUnits a b e q
  let m := ceilDiv n d
  if q = f.qmin && m < 2 ^ f.mbits then m
  else m + (q - f.qmin).toNat * 2 ^ f.mbits

/-- The largest code of `f` whose value is not above a × 2^e (R101). -/
def Fmt.floorMag (f : Fmt) (a : Nat) (e : Int) : Nat :=
  if a = 0 then 0 else
  let lg := log2Quot a 1 + e
  let q0 := lg - (f.mbits : Int)
  let q := if q0 < f.qmin then f.qmin else q0
  let (n, d) := inUnits a 1 e q
  let m := n / d
  if q = f.qmin && m < 2 ^ f.mbits then m
  else m + (q - f.qmin).toNat * 2 ^ f.mbits

/-- E2M1 code expanded exactly to E4M3 (R77). -/
def expandE2m1 (c : Nat) : Nat :=
  let m := match c % 8 with
    | 0 => 0x00 | 1 => 0x30 | 2 => 0x38 | 3 => 0x3C | 4 => 0x40 | 5 => 0x44 | 6 => 0x48 | _ => 0x4C
  m + (c / 8 % 2) * 128

/-- INT4 code sign-extended to INT8 (R77). -/
def expandInt4 (c : Nat) : Nat := (sext 8 4 (c % 16)).toNat

end Sys2Proof.Machine
end

