-- ==== Sys2Proof/Machine/Aes.lean ====
section
/-!
DEFINITION. Machine/Aes.lean: AES-256 (FIPS 197) and its two modes that the manual names: XTS for HBM units (R312) and
GCM for link frames and sealed buffers (R359, R400).  A block is a list of its 16 bytes as numbers.
-/

namespace Sys2Proof.Machine

/-! ### The block cipher -/

/-- The substitution box of AES, entry `i` in bits [8i + 7 : 8i]. -/
def aesBoxWord : Nat :=
  0xc072a49cafa2d4adf04759fa7dc982ca76abd7fe2b670130c56f6bf27b777c63 +
  (0x75b227ebe28012079a059618c323c7041531d871f1e5a534ccf73f362693fdb7 <<< 256) +
  (0xcf584c4a39becb6a5bb1fc20ed00d153842fe329b3d63b52a05a6e1b1a2c8309 <<< 512) +
  (0xd2f3ff1021dab6bcf5389d928f40a351a89f3c507f02f94585334d43fbaaefd0 <<< 768) +
  (0xdb0b5ede14b8ee4688902a22dc4f816073195d643d7ea7c41744975fec130ccd <<< 1024) +
  (0x08ae7a65eaf4566ca94ed58d6d37c8e779e4959162acd3c25c2406490a3a32e0 <<< 1280) +
  (0x9e1dc186b95735610ef6034866b53e708a8bbd4b1f74dde8c6b4a61c2e2578ba <<< 1536) +
  (0x16bb54b00f2d99416842e6bf0d89a18cdf2855cee9871e9b948ed9691198f8e1 <<< 1792)

/-- The inverse substitution box, entry `i` in bits [8i + 7 : 8i]. -/
def aesBoxBackWord : Nat :=
  0xcbe9dec444438e3487ff2f9b8239e37cfbd7f3819ea340bf38a53630d56a0952 +
  (0x25d18b6d49a25b76b224d92866a12e084ec3fa420b954cee3d23c2a632947b54 <<< 256) +
  (0x849d8da75746155edab9edfd5048706c92b6655dcc5ca4d41698688664f6f872 <<< 512) +
  (0x6b8a130103bdafc1020f3fca8f1e2cd00645b3b80558e4f70ad3bc8c00abd890 <<< 768) +
  (0x6edf751ce837f9e28535ade72274ac9673e6b4f0cecff297eadc674f4111913a <<< 1024) +
  (0xf45acd78fec0db9a2079d2c64b3e56fc1bbe18aa0e62b76f89c5291d711af147 <<< 1280) +
  (0xef9cc9939f7ae52d0d4ab519a97f51605fec8027591012b131c7078833a8dd1f <<< 1536) +
  (0x7d0c2155631469e126d677ba7e042b17619953833cbbebc8b0f52aae4d3be0a0 <<< 1792)

/-- Entry `b` of the substitution box. -/
def aesBox (b : Nat) : Nat := (aesBoxWord >>> (8 * b)) % 256

/-- Entry `b` of the inverse box. -/
def aesBoxBack (b : Nat) : Nat := (aesBoxBackWord >>> (8 * b)) % 256

/-- A field element times x modulo x^8 + x^4 + x^3 + x + 1. -/
def aesDouble (b : Nat) : Nat := if b < 128 then 2 * b else (2 * b) ^^^ 0x11B

/-- A field element times `c` < 16. -/
def aesTimes (c b : Nat) : Nat :=
  (if c % 2 = 1 then b else 0) ^^^ (if c / 2 % 2 = 1 then aesDouble b else 0) ^^^
    (if c / 4 % 2 = 1 then aesDouble (aesDouble b) else 0) ^^^ (if c / 8 % 2 = 1 then aesDouble (aesDouble (aesDouble b)) else 0)

/-- Byte by byte XOR. -/
def xorBytes (a b : List Nat) : List Nat := List.zipWith (fun u v => u ^^^ v) a b

/-- The key schedule: word `i` from word `i − 1` and word `i − 8`, the words so far newest first. -/
def aesNextWord (i : Nat) (words : List (List Nat)) : List Nat :=
  let last := words.getD 0 []
  let mixed :=
    if i % 8 = 0 then xorBytes ((last.drop 1 ++ last.take 1).map aesBox) [2 ^ (i / 8 - 1), 0, 0, 0]
    else if i % 8 = 4 then last.map aesBox
    else last
  xorBytes mixed (words.getD 7 [])

/-- The words 8 to 59 of the schedule, added to the first eight. -/
def aesWords : (n i : Nat) → List (List Nat) → List (List Nat)
  | 0, _, words => words
  | n + 1, i, words => aesWords n (i + 1) (aesNextWord i words :: words)

/-- The 15 round keys of a 32-byte key. -/
def aesRoundKeys (key : List Byte) : List (List Nat) :=
  let first := ((List.range 8).map fun i => ((key.drop (4 * i)).take 4).map BitVec.toNat).reverse
  let all := (aesWords 52 8 first).reverse.flatten
  (List.range 15).map fun r => (all.drop (16 * r)).take 16

/-- The bytes of a block put where `place` reads them from. -/
def aesMove (place : Nat → Nat) (b : List Nat) : List Nat := (List.range 16).map fun i => b.getD (place i) 0

/-- Each byte of a column, as a sum of the column's bytes with the coefficients turned by its row. -/
def aesMixColumns (coef : List Nat) (b : List Nat) : List Nat :=
  (List.range 16).map fun i =>
    (List.range 4).foldl (fun v j => v ^^^ aesTimes (coef.getD ((j + 4 - i % 4) % 4) 0) (b.getD (i / 4 * 4 + j) 0)) 0

/-- A block enciphered under a 32-byte key. -/
def aesEncrypt (key : List Byte) (block : List Nat) : List Nat :=
  let keys := aesRoundKeys key
  let shifted (b : List Nat) := aesMove (fun i => (i + 4 * (i % 4)) % 16) (b.map aesBox)
  let inner := ((keys.drop 1).take 13).foldl (fun b k => xorBytes (aesMixColumns [2, 3, 1, 1] (shifted b)) k)
    (xorBytes block (keys.getD 0 []))
  xorBytes (shifted inner) (keys.getD 14 [])

/-- A block deciphered under a 32-byte key. -/
def aesDecrypt (key : List Byte) (block : List Nat) : List Nat :=
  let keys := aesRoundKeys key
  let shifted (b : List Nat) := (aesMove (fun i => (i + 12 * (i % 4)) % 16) b).map aesBoxBack
  let inner := ((keys.drop 1).take 13).reverse.foldl
    (fun b k => aesMixColumns [14, 11, 13, 9] (xorBytes (shifted b) k)) (xorBytes block (keys.getD 14 []))
  xorBytes (shifted inner) (keys.getD 0 [])

/-! ### XTS (R312) -/

/-- A tweak times α: the 128-bit little-endian number doubled modulo x^128 + x^7 + x^2 + x + 1. -/
def xtsDouble (t : Nat) : Nat := if t < 2 ^ 127 then 2 * t else (2 * t - 2 ^ 128) ^^^ 0x87

/-- The 16 bytes of a number, little-endian. -/
def blockLe (t : Nat) : List Nat := (List.range 16).map fun i => (t >>> (8 * i)) % 256

/-- The little-endian number of a block's bytes. -/
def blockLeNat : List Nat → Nat
  | [] => 0
  | b :: rest => b + 256 * blockLeNat rest

/-- Blocks of a data unit passed through the cipher, each between two additions of its tweak. -/
def xtsBlocks (cipher : List Nat → List Nat) : (n t : Nat) → BitVec 512 → (i : Nat) → Nat
  | 0, _, _, _ => 0
  | n + 1, t, unit, i =>
    let tweak := blockLe t
    let out := xorBytes (cipher (xorBytes (blockLe (unit.toNat >>> (128 * i))) tweak)) tweak
    (blockLeNat out <<< (128 * i)) + xtsBlocks cipher n (xtsDouble t) unit (i + 1)

/-- The first tweak of data unit `u` under the tweak key. -/
def xtsTweak (tweakKey : List Byte) (u : Nat) : Nat := blockLeNat (aesEncrypt tweakKey (blockLe u))

/-- A 64-byte unit (byte 0 in the low bits) enciphered under the 64 key bytes: data key, then tweak key. -/
def xtsEncrypt (keys : List Byte) (u : Nat) (plain : BitVec 512) : BitVec 512 :=
  BitVec.ofNat 512 (xtsBlocks (aesEncrypt (keys.take 32)) 4 (xtsTweak (keys.drop 32) u) plain 0)

/-- A 64-byte unit deciphered under the 64 key bytes. -/
def xtsDecrypt (keys : List Byte) (u : Nat) (stored : BitVec 512) : BitVec 512 :=
  BitVec.ofNat 512 (xtsBlocks (aesDecrypt (keys.take 32)) 4 (xtsTweak (keys.drop 32) u) stored 0)

/-! ### GCM (R359, R400) -/

/-- The big-endian number of a byte list. -/
def beNat (bs : List Byte) : Nat := bs.foldl (fun v b => 256 * v + b.toNat) 0

/-- The 16 bytes of a number, big-endian. -/
def blockBe (v : Nat) : List Nat := (blockLe v).reverse

/-- The key stream block of a counter block. -/
def gcmPad (key : List Byte) (counter : Nat) : List Nat := aesEncrypt key (blockBe counter)

/-- The counter block of a 96-bit nonce, `n` blocks on from the tag's own, which has n = 0. -/
def gcmCounter (nonce : List Byte) (n : Nat) : Nat := beNat nonce * 2 ^ 32 + (n + 1) % 2 ^ 32

/-- `n` blocks of key stream from block `k`. -/
def gcmStream (key nonce : List Byte) : (n k : Nat) → List Nat
  | 0, _ => []
  | n + 1, k => gcmPad key (gcmCounter nonce k) ++ gcmStream key nonce n (k + 1)

/-- Plaintext to ciphertext, and back: the same XOR with the key stream. -/
def gcmCrypt (key nonce : List Byte) (text : List Byte) : List Byte :=
  List.zipWith (fun b k => b ^^^ BitVec.ofNat 8 k) text (gcmStream key nonce (ceilDiv text.length 16) 1)

/-- A product in the field of GHASH: the bits of `x` from the first, bit 127, on; `v` is halved at each. -/
def ghashTimes : (n x v : Nat) → Nat
  | 0, _, _ => 0
  | n + 1, x, v =>
    (if x.testBit n then v else 0) ^^^ ghashTimes n x (if v % 2 = 1 then v / 2 ^^^ (0xE1 <<< 120) else v / 2)

/-- One block into the hash. -/
def ghashStep (h y x : Nat) : Nat := ghashTimes 128 (y ^^^ x) h

/-- A string into the hash, filled with zeros to whole blocks. -/
def ghashBytes (h y : Nat) (bs : List Byte) : Nat :=
  (List.range (ceilDiv bs.length 16)).foldl (fun y i =>
    let b := (bs.drop (16 * i)).take 16
    ghashStep h y (beNat b * 2 ^ (8 * (16 - b.length)))) y

/-- The 16-byte tag of additional data and ciphertext under a 32-byte key and a 12-byte nonce. -/
def gcmTag (key nonce added cipher : List Byte) : List Byte :=
  let h := beNat ((aesEncrypt key (blockBe 0)).map (BitVec.ofNat 8))
  let y := ghashBytes h (ghashBytes h 0 added) cipher
  let y := ghashStep h y (8 * added.length * 2 ^ 64 + 8 * cipher.length)
  (xorBytes (blockBe y) (gcmPad key (gcmCounter nonce 0))).map (BitVec.ofNat 8)

end Sys2Proof.Machine
end

