-- ==== Sys2Proof/Machine/RegMap.lean ====
section
/-!
DEFINITION. Machine/RegMap.lean: the register map (R489): every register, its offset, the fields software writes and
the reset value of the stored ones.
-/

namespace Sys2Proof.Machine

/-- A register of the map, with the indices its name carries.  Tile-indexed registers carry the tile number. -/
inductive Reg where
  | glbChip | cfgEpoch
  | gtc | strideNo | timeCtl | timeStatus | gtcLoad | commit | commitResult | gaitCtl
  | gaitSched (n : Nat)
  | replyStatus | hostLink
  | qCtl (q : Nat) | qBase (q : Nat) | qRbase (q : Nat) | qHead (q : Nat)
  | sealCtr (p : Nat)
  | apt (n : Nat)
  | ringCtl | ringIdx | evtWritten | evtDropped
  | evtRate (c : Nat)
  | pdkCtl (p : Nat) | pdkCtx (p : Nat) | sheafMask (p w : Nat) | sowerSeed (p : Nat) | sowerStep (p : Nat)
  | region (r : Nat)
  | lifecycle | secFw | attIndex | attLimit | debugState
  | attPub (j : Nat) | serial (j : Nat)
  | pwrCap | pwrStatus | pwrTherm | pwrEnergy
  | slack (p : Nat) | pdkEnergy (p : Nat) | qEnergy (q : Nat)
  | bstBoot | bstStatus
  | sheafTest (w : Nat) | sheafFail (w : Nat)
  | hbmStatus (k : Nat) | hbmEcc (k : Nat) | hbmErrAddr (k : Nat)
  | scrubCtl
  | portCtl (n : Nat) | portStatus (n : Nat) | portErr (n : Nat) | lnkGait (n i : Nat)
  | fleet
  | tether (t : Nat) | tetherStat (t : Nat) | tetherSeq (t : Nat)
  | bridleStatus (m : Nat) | bridleId (m j : Nat)
  | wteBuf (p : Nat) | wteStatus (p : Nat) | wteLatch (p : Nat) | cntA (p : Nat) | cntB (p : Nat) | cntC (p : Nat)
  | group0 (p g : Nat) | group1 (p g : Nat)
  | mtgPolicy (p : Nat) | mtgUcode (p : Nat) | mtgThresh (p : Nat) | mtgWatch (p : Nat) | mtgStatus (p : Nat)
  | dbgMemCtl | dbgMemData (j : Nat) | dbgHalt | dbgForceAddr | dbgForceValue
  | seqState (t : Nat) | seqFault (t : Nat) | seqNf (t : Nat) | seqBudget (t : Nat)
  | fwaBusy (t : Nat) | fwaStat (t : Nat) | fwaTag (t q : Nat)
  | bwaBusy (t : Nat) | bwaStat (t : Nat) | bwaTag (t q : Nat)
  | hnd (t : Nat)
  | silageCtl (m : Nat) | silageStat (m : Nat)
  | chfStat (t : Nat) | chfChk (t : Nat) | chfLen (t j : Nat) | chfTag (t q : Nat)
  | tsEcc (t : Nat)
  | bankConf (m r : Nat) | bankEcc (m : Nat) | repair (m : Nat)
  | mtgWord (m e w : Nat)
  deriving DecidableEq, Repr

/-- The window offset of sheaf `m` (R489). -/
def windowBase (m : Nat) : Nat := 0x3000000 + 0x10000 * m

/-- The window of a tile's sheaf and the tile's position times a step. -/
def tileAt (t lo step : Nat) : Nat := windowBase (t / 64) + lo + step * (t % 64)

/-- The offset of a register (Register Map). -/
def Reg.offset : Reg → Nat
  | .glbChip => 0x0
  | .cfgEpoch => 0x40
  | .gtc => 0x100000
  | .strideNo => 0x100008
  | .timeCtl => 0x100010
  | .timeStatus => 0x100018
  | .gtcLoad => 0x100020
  | .commit => 0x100040
  | .commitResult => 0x100048
  | .gaitCtl => 0x100080
  | .gaitSched n => 0x100100 + 8 * n
  | .replyStatus => 0x200000
  | .hostLink => 0x200008
  | .qCtl q => 0x200100 + 0x20 * q
  | .qBase q => 0x200108 + 0x20 * q
  | .qRbase q => 0x200110 + 0x20 * q
  | .qHead q => 0x200118 + 0x20 * q
  | .sealCtr p => 0x200400 + 8 * p
  | .apt n => 0x210000 + 8 * n
  | .ringCtl => 0x300000
  | .ringIdx => 0x300008
  | .evtWritten => 0x300010
  | .evtDropped => 0x300018
  | .evtRate c => 0x300100 + 8 * c
  | .pdkCtl p => 0x400000 + 0x80 * p
  | .pdkCtx p => 0x400008 + 0x80 * p
  | .sheafMask p w => 0x400020 + 0x80 * p + 8 * w
  | .sowerSeed p => 0x400800 + 16 * p
  | .sowerStep p => 0x400808 + 16 * p
  | .region r => 0x401000 + 8 * r
  | .lifecycle => 0x500000
  | .secFw => 0x500008
  | .attIndex => 0x500010
  | .attLimit => 0x500018
  | .debugState => 0x500020
  | .attPub j => 0x500040 + 8 * j
  | .serial j => 0x500080 + 8 * j
  | .pwrCap => 0x600000
  | .pwrStatus => 0x600008
  | .pwrTherm => 0x600010
  | .pwrEnergy => 0x600018
  | .slack p => 0x600100 + 8 * p
  | .pdkEnergy p => 0x600200 + 8 * p
  | .qEnergy q => 0x600280 + 8 * q
  | .bstBoot => 0x700000
  | .bstStatus => 0x700008
  | .sheafTest w => 0x700040 + 8 * w
  | .sheafFail w => 0x700080 + 8 * w
  | .hbmStatus k => 0x800000 + 0x40 * k
  | .hbmEcc k => 0x800008 + 0x40 * k
  | .hbmErrAddr k => 0x800010 + 0x40 * k
  | .scrubCtl => 0x800400
  | .portCtl n => 0x1000000 + 0x4000 * n
  | .portStatus n => 0x1000008 + 0x4000 * n
  | .portErr n => 0x1000010 + 0x4000 * n
  | .lnkGait n i => 0x1002000 + 0x4000 * n + 8 * i
  | .fleet => 0x1070000
  | .tether t => 0x1080000 + 32 * t
  | .tetherStat t => 0x1080008 + 32 * t
  | .tetherSeq t => 0x1080010 + 32 * t
  | .bridleStatus m => 0x10C0000 + 0x100 * m
  | .bridleId m j => 0x10C0080 + 0x100 * m + 8 * j
  | .wteBuf p => 0x1800000 + 8 * p
  | .wteStatus p => 0x1801000 + 0x40 * p
  | .wteLatch p => 0x1801008 + 0x40 * p
  | .cntA p => 0x1801010 + 0x40 * p
  | .cntB p => 0x1801018 + 0x40 * p
  | .cntC p => 0x1801020 + 0x40 * p
  | .group0 p g => 0x1810000 + 0x1000 * p + 16 * g
  | .group1 p g => 0x1810008 + 0x1000 * p + 16 * g
  | .mtgPolicy p => 0x2000000 + 0x100 * p
  | .mtgUcode p => 0x2000008 + 0x100 * p
  | .mtgThresh p => 0x2000010 + 0x100 * p
  | .mtgWatch p => 0x2000018 + 0x100 * p
  | .mtgStatus p => 0x2000020 + 0x100 * p
  | .dbgMemCtl => 0x2800000
  | .dbgMemData j => 0x2800008 + 8 * j
  | .dbgHalt => 0x2800080
  | .dbgForceAddr => 0x2800090
  | .dbgForceValue => 0x2800098
  | .seqState t => tileAt t 0x1000 32
  | .seqFault t => tileAt t 0x1008 32
  | .seqNf t => tileAt t 0x1010 32
  | .seqBudget t => tileAt t 0x1018 32
  | .fwaBusy t => tileAt t 0x2000 16
  | .fwaStat t => tileAt t 0x2008 16
  | .fwaTag t q => tileAt t 0x2400 32 + 8 * q
  | .bwaBusy t => tileAt t 0x3000 16
  | .bwaStat t => tileAt t 0x3008 16
  | .bwaTag t q => tileAt t 0x3400 32 + 8 * q
  | .hnd t => tileAt t 0x3C00 8
  | .silageCtl m => windowBase m + 0x3E00
  | .silageStat m => windowBase m + 0x3E08
  | .chfStat t => tileAt t 0x4000 16
  | .chfChk t => tileAt t 0x4008 16
  | .chfLen t j => tileAt t 0x4400 32 + 8 * j
  | .chfTag t q => tileAt t 0x4C00 32 + 8 * q
  | .tsEcc t => tileAt t 0x5800 8
  | .bankConf m r => windowBase m + 0x6000 + 8 * r
  | .bankEcc m => windowBase m + 0x6400
  | .repair m => windowBase m + 0x6800
  | .mtgWord m e w => windowBase m + 0x8000 + 128 * e + 8 * w

/-- The index of an offset in an array of `n` registers at `base` with the given step, if it names one of them. -/
def arr (o base step n : Nat) (f : Nat → Reg) : Option Reg :=
  if base ≤ o ∧ (o - base) % step = 0 ∧ (o - base) / step < n then some (f ((o - base) / step)) else none

/-- As `arr` for an array of arrays. -/
def arr2 (o base step n lo step2 n2 : Nat) (f : Nat → Nat → Reg) : Option Reg :=
  if base ≤ o ∧ (o - base) / step < n then
    arr ((o - base) % step) lo step2 n2 (f ((o - base) / step))
  else none

/-- The first name found in a list of candidates. -/
def firstReg : List (Option Reg) → Option Reg
  | [] => none
  | some r :: _ => some r
  | none :: rest => firstReg rest

/-- A single register at an offset. -/
def one (o base : Nat) (r : Reg) : Option Reg := if o = base then some r else none

/-- Registers of a sheaf's window by offset in the window. -/
def Reg.inWindow (m o : Nat) : Option Reg :=
  if o < 0x2000 then arr2 o 0x1000 32 64 0 8 4 fun t j =>
      match j with
      | 0 => .seqState (64 * m + t) | 1 => .seqFault (64 * m + t) | 2 => .seqNf (64 * m + t) | _ => .seqBudget (64 * m + t)
  else if o < 0x2400 then arr2 o 0x2000 16 64 0 8 2 fun t j =>
      match j with | 0 => .fwaBusy (64 * m + t) | _ => .fwaStat (64 * m + t)
  else if o < 0x3000 then arr2 o 0x2400 32 64 0 8 4 fun t q => .fwaTag (64 * m + t) q
  else if o < 0x3400 then arr2 o 0x3000 16 64 0 8 2 fun t j =>
      match j with | 0 => .bwaBusy (64 * m + t) | _ => .bwaStat (64 * m + t)
  else if o < 0x3C00 then arr2 o 0x3400 32 64 0 8 4 fun t q => .bwaTag (64 * m + t) q
  else if o < 0x3E00 then arr o 0x3C00 8 64 fun t => .hnd (64 * m + t)
  else if o < 0x4000 then firstReg [one o 0x3E00 (.silageCtl m), one o 0x3E08 (.silageStat m)]
  else if o < 0x4400 then arr2 o 0x4000 16 64 0 8 2 fun t j =>
      match j with | 0 => .chfStat (64 * m + t) | _ => .chfChk (64 * m + t)
  else if o < 0x4C00 then arr2 o 0x4400 32 64 0 8 4 fun t j => .chfLen (64 * m + t) j
  else if o < 0x5800 then arr2 o 0x4C00 32 64 0 8 4 fun t q => .chfTag (64 * m + t) q
  else if o < 0x6000 then arr o 0x5800 8 64 fun t => .tsEcc (64 * m + t)
  else if o < 0x6400 then arr o 0x6000 8 66 fun r => .bankConf m r
  else if o < 0x8000 then firstReg [one o 0x6400 (.bankEcc m), one o 0x6800 (.repair m)]
  else arr2 o 0x8000 128 256 0 8 11 fun e w => .mtgWord m e w

/-- Registers of the LNK block by offset. -/
def Reg.inLnk (o : Nat) : Option Reg :=
  firstReg
    [arr o 0x1000000 0x4000 24 .portCtl, arr o 0x1000008 0x4000 24 .portStatus, arr o 0x1000010 0x4000 24 .portErr,
     arr2 o 0x1000000 0x4000 24 0x2000 8 1000 .lnkGait, one o 0x1070000 .fleet,
     arr o 0x1080000 32 4096 .tether, arr o 0x1080008 32 4096 .tetherStat, arr o 0x1080010 32 4096 .tetherSeq,
     arr o 0x10C0000 0x100 6 .bridleStatus, arr2 o 0x10C0000 0x100 6 0x80 8 16 .bridleId]

/-- Registers of the WTE, MTG and DBG blocks by offset. -/
def Reg.inWteMtgDbg (o : Nat) : Option Reg :=
  if o < 0x2000000 then firstReg
    [arr o 0x1800000 8 16 .wteBuf, arr o 0x1801000 0x40 16 .wteStatus, arr o 0x1801008 0x40 16 .wteLatch,
     arr o 0x1801010 0x40 16 .cntA, arr o 0x1801018 0x40 16 .cntB, arr o 0x1801020 0x40 16 .cntC,
     arr2 o 0x1810000 0x1000 16 0 16 256 .group0, arr2 o 0x1810000 0x1000 16 8 16 256 .group1]
  else if o < 0x2800000 then firstReg
    [arr o 0x2000000 0x100 16 .mtgPolicy, arr o 0x2000008 0x100 16 .mtgUcode, arr o 0x2000010 0x100 16 .mtgThresh,
     arr o 0x2000018 0x100 16 .mtgWatch, arr o 0x2000020 0x100 16 .mtgStatus]
  else firstReg
    [one o 0x2800000 .dbgMemCtl, arr o 0x2800008 8 8 .dbgMemData, one o 0x2800080 .dbgHalt,
     one o 0x2800090 .dbgForceAddr, one o 0x2800098 .dbgForceValue]

/-- Registers of the STR, MNG and EVT blocks by offset. -/
def Reg.inStrMngEvt (o : Nat) : Option Reg :=
  if o < 0x200000 then firstReg
    [one o 0x0 .glbChip, one o 0x40 .cfgEpoch, one o 0x100000 .gtc, one o 0x100008 .strideNo, one o 0x100010 .timeCtl,
     one o 0x100018 .timeStatus, one o 0x100020 .gtcLoad, one o 0x100040 .commit, one o 0x100048 .commitResult,
     one o 0x100080 .gaitCtl, arr o 0x100100 8 64 .gaitSched]
  else if o < 0x300000 then firstReg
    [one o 0x200000 .replyStatus, one o 0x200008 .hostLink, arr o 0x200100 0x20 16 .qCtl, arr o 0x200108 0x20 16 .qBase,
     arr o 0x200110 0x20 16 .qRbase, arr o 0x200118 0x20 16 .qHead, arr o 0x200400 8 16 .sealCtr,
     arr o 0x210000 8 8192 .apt]
  else firstReg
    [one o 0x300000 .ringCtl, one o 0x300008 .ringIdx, one o 0x300010 .evtWritten, one o 0x300018 .evtDropped,
     arr o 0x300108 8 11 fun i => .evtRate (i + 1)]

/-- Registers of the PDK, SEC, PWR, BST and HBM blocks by offset. -/
def Reg.inPdkToHbm (o : Nat) : Option Reg :=
  if o < 0x500000 then firstReg
    [if o < 0x400800 then firstReg
        [arr o 0x400000 0x80 16 .pdkCtl, arr o 0x400008 0x80 16 .pdkCtx, arr2 o 0x400000 0x80 16 0x20 8 7 .sheafMask]
      else none,
     arr o 0x400800 16 16 .sowerSeed, arr o 0x400808 16 16 .sowerStep, arr o 0x401000 8 512 .region]
  else if o < 0x600000 then firstReg
    [one o 0x500000 .lifecycle, one o 0x500008 .secFw, one o 0x500010 .attIndex, one o 0x500018 .attLimit,
     one o 0x500020 .debugState, arr o 0x500040 8 8 .attPub, arr o 0x500080 8 2 .serial]
  else if o < 0x800000 then firstReg
    [one o 0x600000 .pwrCap, one o 0x600008 .pwrStatus, one o 0x600010 .pwrTherm, one o 0x600018 .pwrEnergy,
     arr o 0x600100 8 16 .slack, arr o 0x600200 8 16 .pdkEnergy, arr o 0x600280 8 16 .qEnergy,
     one o 0x700000 .bstBoot, one o 0x700008 .bstStatus, arr o 0x700040 8 7 .sheafTest, arr o 0x700080 8 7 .sheafFail]
  else firstReg
    [arr o 0x800000 0x40 8 .hbmStatus, arr o 0x800008 0x40 8 .hbmEcc, arr o 0x800010 0x40 8 .hbmErrAddr,
     one o 0x800400 .scrubCtl]

/-- The register an offset of the register space names, if any (R489). -/
def Reg.ofOffset (o : Nat) : Option Reg :=
  if o < 0x400000 then Reg.inStrMngEvt o
  else if o < 0x1000000 then Reg.inPdkToHbm o
  else if o < 0x1800000 then Reg.inLnk o
  else if o < 0x3000000 then Reg.inWteMtgDbg o
  else if (o - 0x3000000) / 0x10000 < 400 then Reg.inWindow ((o - 0x3000000) / 0x10000) ((o - 0x3000000) % 0x10000)
  else none

/-- The indices of a register name are those the map lists (R489). -/
def Reg.exists_ : Reg → Bool
  | .gaitSched n => decide (n < 64)
  | .qCtl q | .qBase q | .qRbase q | .qHead q | .qEnergy q => decide (q < 16)
  | .sealCtr p | .pdkCtl p | .pdkCtx p | .sowerSeed p | .sowerStep p | .slack p | .pdkEnergy p => decide (p < 16)
  | .wteBuf p | .wteStatus p | .wteLatch p | .cntA p | .cntB p | .cntC p => decide (p < 16)
  | .mtgPolicy p | .mtgUcode p | .mtgThresh p | .mtgWatch p | .mtgStatus p => decide (p < 16)
  | .apt n => decide (n < 8192)
  | .evtRate c => decide (1 ≤ c ∧ c ≤ 11)
  | .sheafMask p w => decide (p < 16 ∧ w < 7)
  | .region r => decide (r < 512)
  | .attPub j | .dbgMemData j => decide (j < 8)
  | .serial j => decide (j < 2)
  | .sheafTest w | .sheafFail w => decide (w < 7)
  | .hbmStatus k | .hbmEcc k | .hbmErrAddr k => decide (k < 8)
  | .portCtl n | .portStatus n | .portErr n => decide (n < 24)
  | .lnkGait n i => decide (n < 24 ∧ i < 1000)
  | .tether t | .tetherStat t | .tetherSeq t => decide (t < 4096)
  | .bridleStatus m => decide (m < 6)
  | .bridleId m j => decide (m < 6 ∧ j < 16)
  | .group0 p g | .group1 p g => decide (p < 16 ∧ g < 256)
  | .seqState t | .seqFault t | .seqNf t | .seqBudget t | .fwaBusy t | .fwaStat t | .bwaBusy t | .bwaStat t => decide (t < 25600)
  | .hnd t | .chfStat t | .chfChk t | .tsEcc t => decide (t < 25600)
  | .fwaTag t q | .bwaTag t q | .chfLen t q | .chfTag t q => decide (t < 25600 ∧ q < 4)
  | .silageCtl m | .silageStat m | .bankEcc m | .repair m => decide (m < 400)
  | .bankConf m r => decide (m < 400 ∧ r < 66)
  | .mtgWord m e w => decide (m < 400 ∧ e < 256 ∧ w < 11)
  | _ => true

/-- The sheaf whose window holds the register. -/
def Reg.sheaf : Reg → Option Nat
  | .seqState t | .seqFault t | .seqNf t | .seqBudget t | .fwaBusy t | .fwaStat t | .bwaBusy t | .bwaStat t => some (t / 64)
  | .hnd t | .chfStat t | .chfChk t | .tsEcc t | .fwaTag t _ | .bwaTag t _ | .chfLen t _ | .chfTag t _ => some (t / 64)
  | .silageCtl m | .silageStat m | .bankEcc m | .repair m | .bankConf m _ | .mtgWord m _ _ => some m
  | _ => none

/-- The RWS fields of a register: the bits that its shadow holds (R8). -/
def Reg.rws : Reg → BitVec 64
  | .glbChip => maskOf 0 16
  | .cfgEpoch => maskOf 0 32
  | .timeCtl => fieldMask [(8, 5), (0, 2)]
  | .gaitCtl => fieldMask [(8, 1), (0, 6)]
  | .gaitSched _ => maskOf 0 16
  | .qCtl _ => fieldMask [(32, 9), (16, 4), (8, 4), (0, 1)]
  | .qBase _ => maskOf 0 48
  | .qRbase _ => maskOf 0 48
  | .apt _ => fieldMask [(63, 1), (62, 1), (56, 4), (21, 27)]
  | .ringCtl => fieldMask [(63, 1), (56, 5), (0, 48)]
  | .evtRate _ => maskOf 0 12
  | .pdkCtl _ => maskOf 0 2
  | .pdkCtx _ => maskOf 16 32
  | .sowerSeed _ => maskOf 0 64
  | .sowerStep _ => maskOf 0 28
  | .pwrCap => maskOf 0 12
  | .scrubCtl => maskOf 0 1
  | .portCtl _ => fieldMask [(48, 16), (36, 4), (32, 2), (0, 1)]
  | .wteBuf _ => maskOf 0 12
  | .mtgPolicy _ => fieldMask [(37, 4), (32, 5), (24, 1), (16, 1)]
  | .mtgUcode _ => fieldMask [(56, 8), (0, 48)]
  | .mtgThresh _ => maskOf 8 48
  | .mtgWatch _ => maskOf 0 24
  | .silageCtl _ => maskOf 0 5
  | _ => 0

/-- The reset value of RATE of event class `c` (R477). -/
def rateReset (c : Nat) : Nat := [0, 64, 512, 256, 256, 64, 256, 64, 64, 64, 64, 1024].getD c 0

/-- The reset value of a register whose fields this model stores by offset (the Reset columns). -/
def Reg.reset : Reg → BitVec 64
  | .cfgEpoch => BitVec.ofNat 64 (1 <<< 32)
  | .qCtl _ => 0x400
  | .ringCtl => BitVec.ofNat 64 (12 <<< 56)
  | .evtRate c => BitVec.ofNat 64 (rateReset c)
  | .pwrCap => 2400
  | .scrubCtl => 1
  | .portCtl _ => BitVec.ofNat 64 (1 <<< 32)
  | .wteBuf _ => 128
  | .mtgPolicy _ => BitVec.ofNat 64 (1 <<< 37)
  | .mtgThresh _ => pack 64 [(48, 8, 1), (40, 8, 24), (24, 16, 1), (8, 16, 16)]
  | .mtgWatch _ => pack 64 [(16, 8, 5), (8, 8, 2), (0, 8, 10)]
  | _ => 0

/-- Group number of GLOBAL (R49). -/
def groupGlobal : Nat := 16

/-- The commit group that a register's RWS fields always belong to: 16 GLOBAL, p paddock p; SHF_SILAGE_CTL follows the
sheaf's holders instead (R177), and every other register without RWS fields has none. -/
def Reg.group? : Reg → Option Nat
  | .glbChip | .cfgEpoch | .timeCtl | .gaitCtl | .gaitSched _ | .qCtl _ | .qBase _ | .qRbase _ | .apt _ | .ringCtl => some 16
  | .evtRate _ | .pwrCap | .scrubCtl | .portCtl _ | .wteBuf _ => some 16
  | .pdkCtl p | .pdkCtx p | .sowerSeed p | .sowerStep p => some p
  | .mtgPolicy p | .mtgUcode p | .mtgThresh p | .mtgWatch p => some p
  | _ => none

end Sys2Proof.Machine
end

