-- ==== Sys2Proof/Machine/Events.lean ====
section
/-!
DEFINITION. Machine/Events.lean: event classes and codes (R477, R479), local sources (R16), and the shared operations
that read the register file, keep time (R34 to R36) and raise an event (R475, R476, R480).
-/

namespace Sys2Proof.Machine

/-- Class and code of an event (R479). -/
abbrev EventCode := Nat × Nat

def evtSyncJump : EventCode := (1, 1)
def evtSyncLost : EventCode := (1, 2)
def evtTimeOffset : EventCode := (1, 3)
def evtTimeRefused : EventCode := (1, 4)
def evtCommitRefused : EventCode := (1, 5)
def evtNumWiden : EventCode := (2, 1)
def evtNumFlag : EventCode := (2, 2)
def evtNumReplay : EventCode := (2, 3)
def evtNumSat : EventCode := (2, 4)
def evtMtgScaleClamp : EventCode := (2, 5)
def evtNumAgree : EventCode := (2, 6)
def evtNumNonfinite : EventCode := (2, 7)
def evtTileFault : EventCode := (3, 1)
def evtTileBudget : EventCode := (3, 2)
def evtTilePhase : EventCode := (3, 3)
def evtFwaFault : EventCode := (3, 4)
def evtBwaFault : EventCode := (3, 5)
def evtChfFault : EventCode := (3, 6)
def evtHameFault : EventCode := (3, 7)
def evtSwrFault : EventCode := (3, 8)
def evtSlgAccess : EventCode := (3, 9)
def evtSlgPartial : EventCode := (3, 10)
def evtChfDomain : EventCode := (3, 11)
def evtBwaDiscard : EventCode := (3, 12)
def evtMemUnbacked : EventCode := (4, 1)
def evtSramUe : EventCode := (4, 2)
def evtHbmUe : EventCode := (4, 3)
def evtShardVersion : EventCode := (5, 1)
def evtWteUe : EventCode := (5, 2)
def evtWteLate : EventCode := (5, 3)
def evtWteNonfinite : EventCode := (5, 4)
def evtWteFrozen : EventCode := (5, 5)
def evtLnkLaneFail : EventCode := (6, 1)
def evtLnkFleet : EventCode := (6, 2)
def evtCfgStale : EventCode := (6, 3)
def evtTetherLate : EventCode := (6, 4)
def evtTetherDegraded : EventCode := (6, 5)
def evtTetherDown : EventCode := (6, 6)
def evtBridleAuth : EventCode := (6, 7)
def evtBridleWear : EventCode := (6, 8)
def evtBridleEol : EventCode := (6, 9)
def evtRegAccess : EventCode := (7, 1)
def evtAptUnmapped : EventCode := (7, 2)
def evtHostLink : EventCode := (7, 3)
def evtMngReadLate : EventCode := (7, 4)
def evtReplyLate : EventCode := (7, 5)
def evtCopyLate : EventCode := (7, 6)
def evtSealTag : EventCode := (7, 7)
def evtPdkReleased : EventCode := (8, 1)
def evtKeyWrap : EventCode := (8, 2)
def evtKeySweepDone : EventCode := (8, 3)
def evtLifecycle : EventCode := (8, 4)
def evtRpsAuth : EventCode := (8, 5)
def evtAttIndex : EventCode := (8, 6)
def evtDebugUse : EventCode := (8, 7)
def evtPwrInput : EventCode := (9, 1)
def evtPwrHold : EventCode := (9, 2)
def evtPwrOver : EventCode := (9, 3)
def evtThermWarn : EventCode := (9, 4)
def evtThermDerate : EventCode := (9, 5)
def evtThermTrip : EventCode := (9, 6)
def evtFwFallback : EventCode := (10, 1)
def evtBstFail : EventCode := (10, 2)
def evtBstDone : EventCode := (10, 3)
def evtTileUser : EventCode := (11, 1)

/-- Local source of a sheaf unit (R16). -/
def srcSheaf (m : Nat) : Nat := 25600 + m
/-- Local source of an HBM controller (R16). -/
def srcHbm (k : Nat) : Nat := 26000 + k
/-- Local source of the Whippletree (R16). -/
def srcWte : Nat := 26016
/-- Local source of a link port (R16). -/
def srcPort (n : Nat) : Nat := 26032 + n
/-- Local source of the host port (R16). -/
def srcHost : Nat := 26080
/-- Local source of the Farrier (R16). -/
def srcFarrier : Nat := 26096
/-- Local source of the power governor (R16). -/
def srcPower : Nat := 26112

/-! ### Register file -/

/-- The value in force of a register whose fields are stored by offset. -/
def State.reg (s : State) (r : Reg) : BitVec 64 := Tbl.get r.reset s.regs r.offset

/-- The state with the stored value of a register replaced. -/
def State.setReg (s : State) (r : Reg) (v : BitVec 64) : State := { s with regs := Tbl.put r.reset s.regs r.offset v }

/-- A field of a register in force. -/
def State.field (s : State) (r : Reg) (lo len : Nat) : Nat := bits (s.reg r) lo len

/-- The shadow value of a register's RWS fields: the value in force unless another was written (R8). -/
def State.shadow (s : State) (r : Reg) : BitVec 64 := Tbl.get (s.reg r &&& r.rws) s.shadows r.offset

/-- The state with a register's shadow written. -/
def State.setShadow (s : State) (r : Reg) (v : BitVec 64) : State :=
  { s with shadows := Tbl.put (s.reg r &&& r.rws) s.shadows r.offset (v &&& r.rws) }

/-- The state with a register's RWS fields in force changed, its shadow left as software wrote it (R51, R52). -/
def State.bringIntoForce (s : State) (r : Reg) (v : BitVec 64) : State :=
  let sh := s.shadow r
  let s := s.setReg r ((s.reg r &&& ~~~r.rws) ||| (v &&& r.rws))
  { s with shadows := Tbl.put (s.reg r &&& r.rws) s.shadows r.offset sh }

/-- A register at its reset value, in force and shadow. -/
def State.resetReg (s : State) (r : Reg) : State :=
  { s with regs := Tbl.drop s.regs r.offset, shadows := Tbl.drop s.shadows r.offset }

/-- The chip ID in force (R491). -/
def State.chipId (s : State) : Nat := s.field .glbChip 0 16

/-! ### Time -/

/-- aclk cycles of a stride (R35). -/
def strideLen : Nat := 100000

/-- The GTC (R34). -/
def State.now (s : State) : Nat := s.time.gtc.toNat

/-- The stride number (R35). -/
def State.stride (s : State) : Nat := s.now / strideLen

/-- The position within the stride (R35). -/
def State.position (s : State) : Nat := s.now % strideLen

/-- The GTC set. -/
def State.setNow (s : State) (t : Nat) : State := { s with time := { s.time with gtc := BitVec.ofNat 64 t } }

/-- Time moves on to `t`, if it is later, and never past the end of the stride: the tick is a command of its own
(notes/assumptions/3). -/
def State.advanceTo (s : State) (t : Nat) : State :=
  let t := min t (s.stride * strideLen + (strideLen - 1))
  if s.now < t then s.setNow t else s

/-- Time moves on to a position of the present stride. -/
def State.advancePos (s : State) (pos : Nat) : State := s.advanceTo (s.stride * strideLen + pos)

/-- One aclk passes with nothing commanded: the GTC advances by one (R34), but not over a tick, which is the command
STRIDE_TICK (notes/assumptions/3). -/
def State.idle (s : State) : State :=
  if (s.now + 1) % strideLen = 0 then s else s.setNow (s.now + 1)

/-! ### Events -/

/-- The source number of a local source (R16). -/
def State.source (s : State) (local_ : Nat) : BitVec 32 := pack 32 [(16, 16, s.chipId), (0, 16, local_)]

/-- Bits of the present aclk in a record of R9, for a register. -/
def SameAclk.bits (x : SameAclk) (now : Nat) (r : Reg) : BitVec 64 := if x.time = now then Tbl.get 0 x.written r.offset else 0

/-- Bits of a register noted in a record of R9. -/
def SameAclk.note (x : SameAclk) (now : Nat) (r : Reg) (m : BitVec 64) : SameAclk :=
  let old := if x.time = now then x.written else []
  { time := now, written := Tbl.put 0 old r.offset (Tbl.get 0 old r.offset ||| m) }

/-- Bits that the device has set in this aclk: a write in the same aclk does not clear them (R9). -/
def State.deviceBits (s : State) (r : Reg) : BitVec 64 := s.devSet.bits s.now r
/-- The device sets bits of a register. -/
def State.noteDevice (s : State) (r : Reg) (m : BitVec 64) : State := { s with devSet := s.devSet.note s.now r m }
/-- Bits that the host has written in this aclk: a device update in the same aclk leaves them (R9). -/
def State.hostBits (s : State) (r : Reg) : BitVec 64 := s.hostSet.bits s.now r
/-- The host writes bits of a register. -/
def State.noteHost (s : State) (r : Reg) (m : BitVec 64) : State := { s with hostSet := s.hostSet.note s.now r m }

/-- Bits that a BAR0 write has brought in this aclk: a CONFIG of the same aclk leaves them, since that write is performed second
(R391). -/
def State.barBits (s : State) (r : Reg) : BitVec 64 := s.barSet.bits s.now r
/-- A BAR0 write brings bits of a register. -/
def State.noteBar (s : State) (r : Reg) (m : BitVec 64) : State := { s with barSet := s.barSet.note s.now r m }

/-- FAULT of MNG_REPLY_STATUS set (R397). -/
def State.setFault (s : State) : State :=
  { s with host := { s.host with fault := true } }.noteDevice .replyStatus (maskOf 7 1)

/-- SECURITY of MNG_REPLY_STATUS set (R397). -/
def State.setSecurity (s : State) : State :=
  { s with host := { s.host with security := true } }.noteDevice .replyStatus (maskOf 6 1)

/-- LOG_DROP of MNG_REPLY_STATUS set (R483). -/
def State.setLogDrop (s : State) : State :=
  { s with host := { s.host with logDrop := true } }.noteDevice .replyStatus (maskOf 9 1)

/-- The events that set FAULT (R397). -/
def setsFault (e : EventCode) : Bool :=
  [evtSramUe, evtHbmUe, evtWteUe, evtReplyLate, evtCopyLate, evtMngReadLate, evtHostLink].contains e

/-- An event raised at a given GTC: it is on its way to the Gleaner (R475, R480). -/
def State.raiseAt (s : State) (at_ : Nat) (src : Nat) (e : EventCode) (payload : BitVec 128) : State :=
  let ev : Event := { gtc := BitVec.ofNat 64 at_, epoch := s.time.loads, source := s.source src, cls := BitVec.ofNat 16 e.1,
                      code := BitVec.ofNat 16 e.2, payload := payload }
  let s := { s with gleaner := { s.gleaner with arriving := s.gleaner.arriving ++ [ev] } }
  if setsFault e then s.setFault else s

/-- An event raised now. -/
def State.raise (s : State) (src : Nat) (e : EventCode) (payload : BitVec 128) : State :=
  s.raiseAt s.now src e payload

/-! ### Running, held, asleep -/

/-- Whether the part runs (R459, R460): a held or sleeping part performs nothing but management requests. -/
def State.isRunning (s : State) : Bool := decide (s.boot.power = .running)

/-- A meaning applies only while the part runs. -/
def State.whenRunning (s : State) (f : State → State) : State := if s.isRunning then f s else s

end Sys2Proof.Machine
end

