-- ==== Sys2Proof/Machine/Keccak.lean ====
section
/-!
DEFINITION. Machine/Keccak.lean: SHAKE256 (FIPS 202) and KMAC256 (NIST SP 800-185), which the manual names for the Sower
key (R208), the derived keys (R419), the tags of HELLO frames and Bridle modules (R360, R374, R375) and the digests of
reports and firmware (R428, R431).  A state is five planes of five 64-bit lanes: lane `x` of plane `y` is A[x, y].
-/

namespace Sys2Proof.Machine

/-- Five lanes of one plane, or five planes of a state, turned by one place: element `x` of the result is element
`x + 1`. -/
def turned {α : Type} : List α → List α
  | [] => []
  | a :: rest => rest ++ [a]

/-- Element `x` of the result is element `x − 1`. -/
def turnedBack {α : Type} (l : List α) : List α := l.drop (l.length - 1) ++ l.take (l.length - 1)

/-- A lane turned left by `k` bits, 0 ≤ k < 64. -/
def laneTurn (v : BitVec 64) (k : Nat) : BitVec 64 := BitVec.ofNat 64 ((v.toNat <<< k) ||| (v.toNat >>> (64 - k)))

/-- Lane by lane XOR of two planes. -/
def planeXor (a b : List (BitVec 64)) : List (BitVec 64) := List.zipWith (fun u v => u ^^^ v) a b

/-- Theta: every lane takes the parities of two neighbouring columns. -/
def spongeTheta (planes : List (List (BitVec 64))) : List (List (BitVec 64)) :=
  let parity := planes.foldl planeXor (List.replicate 5 0)
  let effect := planeXor (turnedBack parity) ((turned parity).map fun v => laneTurn v 1)
  planes.map (planeXor effect)

/-- The walk of rho and pi from lane (x, y), `t` steps on: the lane it meets, turned by (t + 1)(t + 2)/2, goes to
(y, 2x + 3y), where the walk goes on.  Each element is the place x + 5y in the result and the lane put there. -/
def spongeWalk (planes : List (List (BitVec 64))) : (fuel t x y : Nat) → List (Nat × BitVec 64)
  | 0, _, _, _ => []
  | fuel + 1, t, x, y =>
    let x' := y
    let y' := (2 * x + 3 * y) % 5
    (x' + 5 * y', laneTurn ((planes.getD y []).getD x 0) ((t + 1) * (t + 2) / 2 % 64)) :: spongeWalk planes fuel (t + 1) x' y'

/-- Rho and pi: lane (0, 0) stays, and the walk from (1, 0) moves the other 24. -/
def spongeRhoPi (planes : List (List (BitVec 64))) : List (List (BitVec 64)) :=
  let moved := (0, (planes.getD 0 []).getD 0 0) :: spongeWalk planes 24 0 1 0
  (List.range 5).map fun y => (List.range 5).map fun x => ((moved.find? fun p => p.1 == x + 5 * y).map Prod.snd).getD 0

/-- Chi, plane by plane. -/
def spongeChi (planes : List (List (BitVec 64))) : List (List (BitVec 64)) :=
  planes.map fun p => planeXor p (List.zipWith (fun u v => ~~~u &&& v) (turned p) (turned (turned p)))

/-- The shift register of the round constants, x^8 + x^6 + x^5 + x^4 + 1, one step on. -/
def roundBitNext (r : Nat) : Nat := if r < 128 then 2 * r else (2 * r) ^^^ 0x171

/-- The round constant that the register state `r` starts: bit 2^j − 1 for each of the next seven register bits, and the
register after them. -/
def roundConstant : (fuel j r : Nat) → Nat × Nat
  | 0, _, r => (0, r)
  | fuel + 1, j, r =>
    let later := roundConstant fuel (j + 1) (roundBitNext r)
    (if r % 2 = 1 then later.1 ||| (1 <<< (2 ^ j - 1)) else later.1, later.2)

/-- Iota: the round constant into lane (0, 0). -/
def spongeIota (c : Nat) (planes : List (List (BitVec 64))) : List (List (BitVec 64)) :=
  match planes with
  | (v :: vs) :: rest => ((v ^^^ BitVec.ofNat 64 c) :: vs) :: rest
  | other => other

/-- `n` rounds from the register state `r`. -/
def spongeRounds : (n r : Nat) → List (List (BitVec 64)) → List (List (BitVec 64))
  | 0, _, planes => planes
  | n + 1, r, planes =>
    let c := roundConstant 7 0 r
    spongeRounds n c.2 (spongeIota c.1 (spongeChi (spongeRhoPi (spongeTheta planes))))

/-- The permutation of the sponge: 24 rounds. -/
def spongePermute (planes : List (List (BitVec 64))) : List (List (BitVec 64)) := spongeRounds 24 1 planes

/-- Bytes absorbed per permutation: 1,600 bits less twice 256 bits of security. -/
def spongeRate : Nat := 136

/-- One block absorbed: its 17 lanes are added to the state, which is permuted. -/
def spongeAbsorb (planes : List (List (BitVec 64))) (block : List Byte) : List (List (BitVec 64)) :=
  spongePermute (planes.zipIdx.map fun p =>
    planeXor p.1 ((List.range 5).map fun x => BitVec.ofNat 64 (leNat ((block.drop (8 * (x + 5 * p.2))).take 8))))

/-- The message cut into blocks of the rate. -/
def spongeBlocks (msg : List Byte) : List (List Byte) :=
  (List.range (ceilDiv msg.length spongeRate)).map fun k => (msg.drop (spongeRate * k)).take spongeRate

/-- The padded message: the suffix byte, zeros, and the last bit of the last block set. -/
def spongePad (suffix : Nat) (msg : List Byte) : List Byte :=
  let gap := spongeRate - msg.length % spongeRate
  if gap = 1 then msg ++ [BitVec.ofNat 8 (suffix + 0x80)]
  else msg ++ [BitVec.ofNat 8 suffix] ++ List.replicate (gap - 2) 0 ++ [0x80]

/-- The first 136 bytes of a state. -/
def spongeBytes (planes : List (List (BitVec 64))) : List Byte := (planes.flatten.take 17).flatMap fun v => leBytes 8 v.toNat

/-- Blocks of output, each a permutation after the one before. -/
def spongeSqueeze : (n : Nat) → List (List (BitVec 64)) → List Byte
  | 0, _ => []
  | n + 1, planes => spongeBytes planes ++ spongeSqueeze n (spongePermute planes)

/-- `n` bytes of the sponge over a message with the suffix of its function. -/
def spongeHash (suffix : Nat) (msg : List Byte) (n : Nat) : List Byte :=
  let planes := (spongeBlocks (spongePad suffix msg)).foldl spongeAbsorb (List.replicate 5 (List.replicate 5 0))
  (spongeSqueeze (ceilDiv n spongeRate) planes).take n

/-- SHAKE256 of a message, `n` bytes of output. -/
def shake256 (msg : List Byte) (n : Nat) : List Byte := spongeHash 0x1F msg n

/-- The 32-byte SHAKE256 digest of a message. -/
def shakeDigest (msg : List Byte) : List Byte := shake256 msg 32

/-- The bytes of an ASCII label, without a terminator (R419). -/
def ascii (label : String) : List Byte := label.toList.map fun c => BitVec.ofNat 8 c.toNat

/-- The fewest big-endian bytes of a length below 2^16, at least one. -/
def lengthBytes (x : Nat) : List Byte :=
  if x < 256 then [BitVec.ofNat 8 x] else [BitVec.ofNat 8 (x / 256), BitVec.ofNat 8 x]

/-- left_encode of SP 800-185. -/
def leftEncode (x : Nat) : List Byte := BitVec.ofNat 8 (lengthBytes x).length :: lengthBytes x

/-- right_encode of SP 800-185. -/
def rightEncode (x : Nat) : List Byte := lengthBytes x ++ [BitVec.ofNat 8 (lengthBytes x).length]

/-- encode_string of SP 800-185. -/
def encodeString (bs : List Byte) : List Byte := leftEncode (8 * bs.length) ++ bs

/-- bytepad of SP 800-185 to the rate. -/
def rateFill (bs : List Byte) : List Byte :=
  let whole := leftEncode spongeRate ++ bs
  whole ++ List.replicate ((spongeRate - whole.length % spongeRate) % spongeRate) 0

/-- KMAC256 under a key of a message with a customisation label, `n` bytes of output. -/
def kmac256 (key msg : List Byte) (n : Nat) (label : String) : List Byte :=
  spongeHash 0x04
    (rateFill (encodeString (ascii "KMAC") ++ encodeString (ascii label)) ++ rateFill (encodeString key) ++ msg ++ rightEncode (8 * n)) n

end Sys2Proof.Machine
end

