-- ==== Sys2Proof/Machine/Keys.lean ====
section
/-!
DEFINITION. Machine/Keys.lean: the keys derived from the fused material (R418, R419), and the lifecycle states that say
which of it is used (R426).
-/

namespace Sys2Proof.Machine

/-- Lifecycle state BLANK (R426). -/
def lifeBlank : Nat := 0
/-- Lifecycle state PROVISIONED (R426). -/
def lifeProvisioned : Nat := 1
/-- Lifecycle state FIELD (R426). -/
def lifeField : Nat := 2
/-- Lifecycle state RETURNED (R426). -/
def lifeReturned : Nat := 3
/-- Lifecycle state SCRAPPED (R426). -/
def lifeScrapped : Nat := 4

/-- HBM keys are derived with an all-zero MK: in BLANK no secret fuse is set, and in RETURNED MK is no longer used (R426). -/
def zeroRoots (f : Fuses) : Bool := decide (f.lifecycle = lifeBlank) || decide (f.lifecycle = lifeReturned)

/-- The 64 bytes of the XTS keys of paddock `p` and epoch `e` (R419): data key, then tweak key; `zero` for an all-zero MK. -/
def memoryKeys (f : Fuses) (zero : Bool) (p e : Nat) : List Byte :=
  shake256 (ascii "AQZ-MEM" ++ leBytes 32 (if zero then 0 else (f.mkRoots.getD e 0).toNat) ++ leBytes 1 p ++ leBytes 1 e) 64

/-- FIELD, the lifecycle state with tethers and paddocks other than 0, in which the link and fleet keys are used (R426). -/
def inField (s : State) : Bool := decide (s.sec.fuses.lifecycle = lifeField)

/-- The non-secret fuses in the order of R418: FLEET_ID, VH, RB_MIN, LIFECYCLE and SERIAL. -/
def openFuseBytes (f : Fuses) : List Byte :=
  leBytes 4 f.fleetId.toNat ++ leBytes 32 f.vh.toNat ++ Config.fuseBytes 64 f.rbMin ++ Config.fuseBytes 4 f.lifecycle ++
    leBytes 16 f.serial.toNat

/-- The link key of paddock `p` and epoch `e` (R419). -/
def linkKey (f : Fuses) (p e : Nat) : List Byte :=
  shake256 (ascii "AQZ-LNK" ++ leBytes 32 (f.lkRoots.getD e 0).toNat ++ leBytes 1 p ++ leBytes 1 e) 32

/-- The fleet handshake key (R360, R419). -/
def handshakeKey (f : Fuses) : List Byte := shake256 (ascii "AQZ-FLEET" ++ leBytes 32 f.fk.toNat) 32

/-- One end of a tether as its session key takes it: chip ID, tether index and HELLO nonce (R419). -/
structure TetherEnd where
  chip : BitVec 16
  index : BitVec 12
  nonce : BitVec 128
  deriving DecidableEq, Repr

/-- The bytes of one end. -/
def TetherEnd.bytes (x : TetherEnd) : List Byte := leBytes 2 x.chip.toNat ++ leBytes 2 x.index.toNat ++ leBytes 16 x.nonce.toNat

/-- The session key of a tether (R359, R419): the end with the lower chip ID comes first. -/
def sessionKey (link : List Byte) (own peer : TetherEnd) : BitVec 256 :=
  let (lo, hi) := if peer.chip.toNat < own.chip.toNat then (peer, own) else (own, peer)
  BitVec.ofNat 256 (leNat (kmac256 link (lo.bytes ++ hi.bytes) 32 "AQZ-TETHER"))

/-- The module authentication key BK (R374, R419). -/
def moduleKey (f : Fuses) : List Byte := leBytes 32 f.bk.toNat

end Sys2Proof.Machine
end

