-- ==== Sys2Proof/Machine/Ops.lean ====
section
/-!
DEFINITION. Machine/Ops.lean: the parts of the state by number, who runs and owns what (R60, R61, R293, R294, R404), and
memory as a master with an access paddock sees it (R291 to R299, R309 to R314, R176, R178).
-/

namespace Sys2Proof.Machine

/-! ### Parts of the state by number -/

/-- Tile `n`. -/
def State.tile (s : State) (n : Nat) : Tile := Tbl.get {} s.tiles n
/-- Tile `n` replaced. -/
def State.setTile (s : State) (n : Nat) (t : Tile) : State := { s with tiles := Tbl.put {} s.tiles n t }
/-- Tile `n` changed. -/
def State.modTile (s : State) (n : Nat) (f : Tile → Tile) : State := s.setTile n (f (s.tile n))
/-- Sheaf `m`. -/
def State.sheaf (s : State) (m : Nat) : Sheaf := Tbl.get {} s.sheaves m
/-- Sheaf `m` replaced. -/
def State.setSheaf (s : State) (m : Nat) (x : Sheaf) : State := { s with sheaves := Tbl.put {} s.sheaves m x }
/-- Sheaf `m` changed. -/
def State.modSheaf (s : State) (m : Nat) (f : Sheaf → Sheaf) : State := s.setSheaf m (f (s.sheaf m))
/-- Martingale entry `e` of sheaf `m`. -/
def State.entry (s : State) (m e : Nat) : MtgEntry := Tbl.get {} (s.sheaf m).entries e
/-- A Martingale entry changed. -/
def State.modEntry (s : State) (m e : Nat) (f : MtgEntry → MtgEntry) : State :=
  s.modSheaf m fun x => { x with entries := Tbl.modify {} x.entries e f }
/-- Paddock `p`. -/
def State.pdk (s : State) (p : Nat) : Paddock := Tbl.get (paddockReset p) s.paddocks p
/-- Paddock `p` changed. -/
def State.modPdk (s : State) (p : Nat) (f : Paddock → Paddock) : State :=
  { s with paddocks := Tbl.put (paddockReset p) s.paddocks p (f (s.pdk p)) }
/-- HBM region `r`. -/
def State.region (s : State) (r : Nat) : Region := Tbl.get (regionReset r) s.regions r
/-- HBM region `r` replaced. -/
def State.setRegion (s : State) (r : Nat) (x : Region) : State := { s with regions := Tbl.put (regionReset r) s.regions r x }
/-- Port `n`. -/
def State.port (s : State) (n : Nat) : Port := Tbl.get {} s.ports n
/-- Port `n` changed. -/
def State.modPort (s : State) (n : Nat) (f : Port → Port) : State := { s with ports := Tbl.modify {} s.ports n f }
/-- Tether `t`. -/
def State.tether (s : State) (t : Nat) : Tether := Tbl.get {} s.tethers t
/-- Tether `t` changed. -/
def State.modTether (s : State) (t : Nat) (f : Tether → Tether) : State := { s with tethers := Tbl.modify {} s.tethers t f }
/-- Bridle site `m`. -/
def State.site (s : State) (m : Nat) : Site := Tbl.get {} s.sites m
/-- Bridle site `m` changed. -/
def State.modSite (s : State) (m : Nat) (f : Site → Site) : State := { s with sites := Tbl.modify {} s.sites m f }
/-- Manger queue `q`. -/
def State.queue (s : State) (q : Nat) : QueueHead := Tbl.get {} s.host.heads q
/-- Manger queue `q` changed. -/
def State.modQueue (s : State) (q : Nat) (f : QueueHead → QueueHead) : State :=
  { s with host := { s.host with heads := Tbl.modify {} s.host.heads q f } }
/-- The sheaf mask of paddock `p`, in force. -/
def State.mask (s : State) (p : Nat) : BitVec 400 := Tbl.get 0 s.masks p
/-- The mask of paddock `p` set. -/
def State.setMask (s : State) (p : Nat) (v : BitVec 400) : State := { s with masks := Tbl.put 0 s.masks p v }
/-- LINK_SHARE of paddock `p`, in force. -/
def State.share (s : State) (p : Nat) : BitVec 10 := Tbl.get 0 s.shares p
/-- A free value of 64 bits: the counter moves on, so that every draw is fresh (notes/assumptions/9). -/
def State.draw (s : State) : BitVec 64 × State := (Config.freeBits s.draws, { s with draws := s.draws + 1 })

/-! ### Composition -/

/-- Paddock numbers 0 to 15. -/
def paddockNumbers : List Nat := List.range 16

/-- The phase in force of paddock `p` (R28): the PHASE field of PDK_CTL_p. -/
def State.phase (s : State) (p : Nat) : Phase :=
  match s.field (.pdkCtl p) 0 2 with
  | 0 => .idle
  | 1 => .gen
  | 2 => .fwd
  | _ => .bwd

/-- Whether every paddock's phase is IDLE (R42). -/
def State.allIdle (s : State) : Bool := paddockNumbers.all fun p => decide (s.phase p = .idle)

/-- Paddocks of a family of masks that include sheaf `m`. -/
def holdersOf (mask : Nat → BitVec 400) (m : Nat) : List Nat := paddockNumbers.filter fun p => bit (mask p) m

/-- Paddocks whose mask in force includes sheaf `m` (R404). -/
def State.holders (s : State) (m : Nat) : List Nat := holdersOf s.mask m

/-- A sheaf is shared when two or more masks include it (R60). -/
def State.sharedSheaf (s : State) (m : Nat) : Bool := decide (2 ≤ (s.holders m).length)

/-- The gait entry in use in a stride (R59). -/
def State.gaitEntry (s : State) (stride : Nat) : BitVec 64 :=
  s.reg (.gaitSched (stride % (s.field .gaitCtl 0 6 + 1)))

/-- The paddock that sheaf `m` runs in a stride under R60 and R61. -/
def State.selects (s : State) (m stride : Nat) : Option Nat :=
  match s.holders m with
  | [] => none
  | [p] => some p
  | hs => if s.field .gaitCtl 8 1 = 1 then hs.find? fun p => bit (s.gaitEntry stride) p else none

/-- The paddock that sheaf `m` runs in the present stride. -/
def State.runs (s : State) (m : Nat) : Option Nat := s.selects m s.stride

/-- The paddock whose contexts and entries sheaf `m` holds: from the tick until its switch still the one it ran before
(R64, R65). -/
def State.holds (s : State) (m : Nat) : Option Nat :=
  match (s.sheaf m).ran with
  | some p => some p
  | none => s.runs m

/-- Sheaves whose test has started (R471). -/
def State.underTest (s : State) (m : Nat) : Bool := s.boot.jobs.any fun j => decide (j.sheaf = m) && j.started.isSome

/-- Sheaves being self-tested: from the admission of their command until their re-initialisation ends (R470). -/
def State.isolated (s : State) (m : Nat) : Bool := s.boot.jobs.any fun j => decide (j.sheaf = m)

/-- Whether a sheaf is FAILED (R467). -/
def State.sheafFailed (s : State) (m : Nat) : Bool := bit s.boot.failMask m

/-- The SRAM owner of sheaf `m` in the stride (R294). -/
def State.sramOwner (s : State) (m : Nat) : Option Nat :=
  if s.sheafFailed m || s.isolated m then none else s.runs m

/-- The paddock that tile `n`'s sheaf runs: the access paddock of its operations (R293). -/
def State.tilePaddock (s : State) (n : Nat) : Nat := (s.runs (n / 64)).getD 0

/-- Sheaves in a mask, ascending. -/
def sheavesOf (mask : BitVec 400) : List Nat := setIndices mask

/-- The tiles of a sheaf. -/
def tilesOfSheaf (m : Nat) : List Nat := span (64 * m) 64

/-- The sheaf unit whose source number the global Martingale uses for paddock `p` (R292). -/
def State.firstSheaf (s : State) (p : Nat) : Nat := ((sheavesOf (s.mask p)).head?).getD 0

/-! ### Places -/

/-- DPA of the first byte of a tile store (R291). -/
def tileBase (n : Nat) : Nat := 0x100000000000 + n * 0x10000
/-- DPA of the first byte of a sheaf's bank range (R291). -/
def sheafBase (m : Nat) : Nat := 0x200000000000 + m * 0x400000
/-- DPA of the first byte of the register space (R291). -/
def regBase : Nat := 0x300000000000
/-- DPA of the first byte of host memory (R19). -/
def hostBase : Nat := 0x800000000000

/-- What lies at an address (R291), before any question of who reaches it. -/
inductive Place where
  /-- HBM: 64-byte unit number -/
  | hbm (unit : Nat)
  /-- a tile store: tile and offset -/
  | store (tile off : Nat)
  /-- a sheaf bank outside Silage: sheaf and offset -/
  | bank (m off : Nat)
  /-- the Silage region or window beyond its extent: an ordinary access to it is refused (R176) -/
  | silageRefused (m : Nat)
  /-- the Silage window in RAW mode: sheaf and physical offset in the bank range -/
  | silageRaw (m off : Nat)
  /-- the Silage window in SLG12 mode: sheaf, group and byte of the group -/
  | silageGroup (m g i : Nat)
  /-- a register: BAR0 offset -/
  | reg (off : Nat)
  /-- host memory -/
  | host
  /-- nothing -/
  | none
  deriving DecidableEq, Repr

/-- Banks of sheaf `m` in Silage (R176). -/
def State.silageBanks (s : State) (m : Nat) : Nat := s.field (.silageCtl m) 0 4
/-- Silage mode RAW (R176). -/
def State.silageRawMode (s : State) (m : Nat) : Bool := decide (s.field (.silageCtl m) 4 1 = 1)

/-- What lies at DPA `a` (R291, R176). -/
def State.place (s : State) (a : Nat) : Place :=
  if a < 2 ^ 39 then .hbm (a / 64)
  else if 0x100000000000 ≤ a ∧ a < 0x100000000000 + 25600 * 0x10000 then
    let o := a - 0x100000000000
    if o % 0x10000 < 0xC000 then .store (o / 0x10000) (o % 0x10000) else .none
  else if 0x200000000000 ≤ a ∧ a < 0x200000000000 + 400 * 0x400000 then
    let o := a - 0x200000000000
    let m := o / 0x400000
    let x := o % 0x400000
    let b := s.silageBanks m
    if x < 0x200000 then
      if x < (16 - b) * 0x20000 then .bank m x else .silageRefused m
    else if b = 0 then .none
    else
      let w := x - 0x200000
      if s.silageRawMode m then
        if w < b * 0x20000 then .silageRaw m ((16 - b) * 0x20000 + w) else .silageRefused m
      else if w / 64 < b * 0x20000 / 49 then .silageGroup m (w / 64) (w % 64)
      else .silageRefused m
  else if 0x300000000000 ≤ a ∧ a < 0x300000000000 + 0x4900000 then
    (match Reg.ofOffset ((a - 0x300000000000) / 8 * 8) with
     | some _ => .reg (a - 0x300000000000)
     | Option.none => .none)
  else if hostBase ≤ a ∧ a < 2 ^ 48 then .host
  else .none

/-- Who owns an HBM region: the owning paddock while OWNED; a SCRUBBING region is unbacked (R414). -/
def State.hbmOwner (s : State) (unit : Nat) : Option Nat :=
  let r := s.region (unit / 2 ^ 24)
  match r.state with
  | .owned => some r.owner.toNat
  | _ => none

/-- How a master with access paddock `p` reaches a byte (R292, R294, R295, R311, R176). -/
inductive Reach where
  | ok
  | unbacked
  | silage
  deriving DecidableEq, Repr

/-- Reach of DPA `a` for access paddock `p`; `fromHost` marks the host port and the Farrier, whose register writes are
performed (R295). -/
def State.reach (s : State) (p a : Nat) (write fromHost : Bool) : Reach :=
  match s.place a with
  | .hbm u => if (s.hbmOwner u).isSome then .ok else .unbacked
  | .store t _ => if s.sramOwner (t / 64) = some p then .ok else .unbacked
  | .bank m _ => if s.sramOwner m = some p then .ok else .unbacked
  | .silageRefused m => if s.sramOwner m = some p then .silage else .unbacked
  | .silageRaw m _ => if s.sramOwner m = some p then .ok else .unbacked
  | .silageGroup m _ _ => if s.sramOwner m = some p then .ok else .unbacked
  | .reg _ => if write && !fromHost then .unbacked else .ok
  | .host => .ok
  | .none => .unbacked

/-! ### HBM units (R308 to R314) -/

/-- The stored form of unit `u`. -/
def State.unit (s : State) (u : Nat) : HbmUnit := Tbl.get {} s.hbm u

/-- The bytes that lie in a unit as a paddock without the key sees them: ciphertext (R311, R312). -/
def State.storedBytes (s : State) (u : Nat) (x : HbmUnit) : BitVec 512 :=
  if x.clear then 0
  else match x.stored with
    | .underKey p e z v => xtsEncrypt (memoryKeys s.sec.fuses z p e) u v
    | .raw b => b

/-- What paddock `p`, the owner, reads: the stored bytes decrypted under the key of the unit's epoch tag (R311). -/
def State.plainBytes (s : State) (p u : Nat) (x : HbmUnit) : BitVec 512 :=
  if x.clear then 0
  else
    let z := zeroRoots s.sec.fuses
    let own := xtsDecrypt (memoryKeys s.sec.fuses z p x.epoch.toNat) u
    match x.stored with
    | .underKey q e zq v => if q = p ∧ e = x.epoch.toNat ∧ zq = z then v else own (s.storedBytes u x)
    | .raw b => own b

/-- Unit `u` as read with access paddock `p` (R311); an unowned region reads zero (R292). -/
def State.readUnit (s : State) (p u : Nat) : BitVec 512 :=
  match s.hbmOwner u with
  | none => 0
  | some o => if o = p then s.plainBytes p u (s.unit u) else s.storedBytes u (s.unit u)

/-- Unit `u` written whole with access paddock `p` (R311). -/
def State.writeUnit (s : State) (p u : Nat) (v : BitVec 512) : State :=
  match s.hbmOwner u with
  | none => s
  | some o =>
    let x := s.unit u
    let y : HbmUnit :=
      if o = p then { stored := .underKey p (s.pdk p).memEpoch.toNat (zeroRoots s.sec.fuses) v, epoch := (s.pdk p).memEpoch, clear := false }
      else { stored := .raw v, epoch := if x.clear then (s.pdk o).memEpoch else x.epoch, clear := false }
    { s with hbm := Tbl.put {} s.hbm u y }

/-- Bytes `i`, `i + 1`, … of a 64-byte value replaced. -/
def mergeBytes (v : BitVec 512) : Nat → List Byte → BitVec 512
  | _, [] => v
  | i, b :: rest => mergeBytes (setBits v (8 * i) 8 b.toNat) (i + 1) rest

/-! ### Silage groups (R178) -/

/-- The largest exponent field of 32 BF16 codes, or 0 when all are ±0. -/
def slgMaxExp (vs : List (BitVec 16)) : Nat := vs.foldl (fun m v => max m (bits v 7 8)) 0

/-- One element packed to 12 bits under header exponent `eb`. -/
def slgPackElem (eb : Nat) (v : BitVec 16) : Nat :=
  let e := bits v 7 8
  let sgn := bits v 15 1
  if 1 ≤ e ∧ eb - e ≤ 14 then sgn * 2048 + (eb - e) * 128 + bits v 0 7 else sgn * 2048 + 15 * 128

/-- Whether packing flushes a normal value. -/
def slgFlushes (eb : Nat) (v : BitVec 16) : Bool := decide (1 ≤ bits v 7 8) && decide (14 < eb - bits v 7 8)

/-- One element unpacked. -/
def slgUnpackElem (eb x : Nat) : BitVec 16 :=
  let d := x / 128 % 16
  let sgn := x / 2048 % 2
  if d = 15 then BitVec.ofNat 16 (sgn * 2 ^ 15) else BitVec.ofNat 16 (sgn * 2 ^ 15 + (eb - d) * 128 + x % 128)

/-- The 48-byte element string of a group. -/
def slgPack (eb : Nat) : List (BitVec 16) → Nat
  | [] => 0
  | v :: rest => slgPackElem eb v + 4096 * slgPack eb rest

/-- BF16 codes of a byte list, two bytes each. -/
def bf16s : List Byte → List (BitVec 16)
  | a :: b :: rest => BitVec.ofNat 16 (a.toNat + 256 * b.toNat) :: bf16s rest
  | _ => []

/-- Physical address of an SLG12 group's element string and of its header byte (R176). -/
def State.slgAt (s : State) (m g : Nat) : Nat × Nat :=
  let base := sheafBase m + (16 - s.silageBanks m) * 0x20000
  let gs := s.silageBanks m * 0x20000 / 49
  (base + 48 * g, base + 48 * gs + g)

/-- The 64 bytes an SLG12 group reads as. -/
def State.readGroup (s : State) (m g : Nat) : List Byte :=
  let (a, h) := s.slgAt m g
  let eb := (Memory.byte s.mem h).toNat
  let str := leNat (Memory.bytes s.mem a 48)
  (List.range 32).flatMap fun i => leBytes 2 (slgUnpackElem eb (str / 2 ^ (12 * i) % 4096)).toNat

/-- Marks of words that a write covers whole, removed (R297, R309). -/
def clearMarks (m : Tbl EccMark) (size lo n : Nat) : Tbl EccMark :=
  m.filter fun c => !(decide (lo ≤ c.1 * size) && decide (c.1 * size + size ≤ lo + n))

/-- A whole SLG12 group written, with GROUPS and FLUSHED counted; the bank words that its element string covers whole are
repaired (R297, R299). -/
def State.writeGroup (s : State) (m g : Nat) (bs : List Byte) : State :=
  let vs := bf16s bs
  let eb := slgMaxExp vs
  let (a, h) := s.slgAt m g
  let s := { s with mem := Memory.setByte (Memory.setBytes s.mem a (leBytes 48 (slgPack eb vs))) h (BitVec.ofNat 8 eb),
                    eccWords := clearMarks s.eccWords 8 a 48 }
  s.modSheaf m fun x =>
    { x with groups := wrapAdd x.groups 1, flushed := satAdd x.flushed (vs.filter (slgFlushes eb)).length }

/-! ### Reading and writing bytes -/

/-- One byte as read with access paddock `p`: zero where the access is unbacked or refused (R292, R176). Register bytes
are read through the register file instead (`Machine/ReadReg.lean`) and read zero here. -/
def State.readByte (s : State) (p a : Nat) : Byte :=
  if s.reach p a false false = .ok then
    match s.place a with
    | .hbm u => BitVec.ofNat 8 (bits (s.readUnit p u) (8 * (a % 64)) 8)
    | .store _ _ => Memory.byte s.mem a
    | .bank _ _ => Memory.byte s.mem a
    | .silageRaw m off => Memory.byte s.mem (sheafBase m + off)
    | .silageGroup m g i => (s.readGroup m g).getD i 0
    | .host => Memory.byte s.mem a
    | _ => 0
  else 0

/-- `n` bytes from `a`. -/
def State.readBytes (s : State) (p a : Nat) : Nat → List Byte
  | 0 => []
  | n + 1 => s.readByte p a :: s.readBytes p (a + 1) n

/-- A little-endian number of `n` bytes at `a` (R5). -/
def State.readNat (s : State) (p a n : Nat) : Nat := leNat (s.readBytes p a n)

/-- A 64-bit record word. -/
def State.readWord (s : State) (p a : Nat) : BitVec 64 := BitVec.ofNat 64 (s.readNat p a 8)

/-- The place of an HBM byte (R306): pseudo-channel of the part, row, bank and byte within the row. -/
structure HbmPlace where
  pc : Nat
  row : Nat
  bank : Nat
  col : Nat
  deriving DecidableEq, Repr

/-- The bits of a DPA that scramble its pseudo-channel (R306). -/
def channelMix (a : Nat) : Nat := (a >>> 17) % 512 ^^^ (a >>> 26) % 512 ^^^ (a >>> 35) % 16

/-- The place of the HBM byte at DPA `a` (R306). -/
def hbmPlace (a : Nat) : HbmPlace :=
  { pc := (a >>> 8) % 512 ^^^ channelMix a, row := (a >>> 23) % 2 ^ 16, bank := (a >>> 19) % 16,
    col := (a >>> 17) % 4 * 256 + a % 256 }

/-- The stack of a place (R306). -/
def HbmPlace.stack (x : HbmPlace) : Nat := x.pc / 64

/-- The pseudo-channel of a place within its stack (R306). -/
def HbmPlace.chan (x : HbmPlace) : Nat := x.pc % 64

/-- The DPA that a place recovers (R306): the mapping is one to one. -/
def HbmPlace.address (x : HbmPlace) : Nat :=
  let a := x.row <<< 23 ||| x.bank <<< 19 ||| (x.col / 256) <<< 17 ||| x.col % 256
  a ||| (x.pc ^^^ channelMix a) <<< 8

/-- HBM stack of a unit (R306). -/
def stackOf (u : Nat) : Nat := (hbmPlace (u * 64)).stack

/-- One corrected HBM unit (R309). -/
def State.correctUnit (s : State) (u : Nat) : State :=
  { s with eccUnits := Tbl.drop s.eccUnits u, hbmCe := Tbl.modify 0 s.hbmCe (stackOf u) fun c => satAdd c 1 }

/-- One uncorrectable HBM unit (R309, R310). -/
def State.failUnit (s : State) (u : Nat) (patrol : Bool) : State :=
  let k := stackOf u
  let s := { s with hbmUe := Tbl.modify 0 s.hbmUe k fun c => satAdd c 1,
                    hbmErr := Tbl.put 0 s.hbmErr k (pack 64 [(63, 1, 1), (6, 33, u)]) }
  let s := s.noteDevice (.hbmErrAddr k) (maskOf 63 1)
  s.raise (srcHbm k) evtHbmUe (pack 128 [(0, 33, u), (33, 1, b2n patrol)])

/-- Bytes written within one aligned 64-byte unit with access paddock `p`.  Unbacked and refused writes are dropped
(R292, R176); a partial write to an HBM unit reads it first, and fails when the unit is uncorrectable (R309, R313). -/
def State.writeChunk (s : State) (p a : Nat) (bs : List Byte) (fromHost : Bool) : State :=
  if s.reach p a true fromHost = .ok then
    match s.place a with
    | .hbm u =>
      if bs.length = 64 then
        { s with eccUnits := Tbl.drop s.eccUnits u }.writeUnit p u (mergeBytes (s.readUnit p u) 0 bs)
      else
        (match s.eccUnits.find? fun c => decide (c.1 = u) with
         | some (_, .uncorrectable) => s.failUnit u false
         | some (_, .correctable) => (s.correctUnit u).writeUnit p u (mergeBytes (s.readUnit p u) (a % 64) bs)
         | Option.none => s.writeUnit p u (mergeBytes (s.readUnit p u) (a % 64) bs))
    | .store _ _ => { s with mem := Memory.setBytes s.mem a bs, eccWords := clearMarks s.eccWords 8 a bs.length }
    | .bank _ _ => { s with mem := Memory.setBytes s.mem a bs, eccWords := clearMarks s.eccWords 8 a bs.length }
    | .silageRaw m off =>
      { s with mem := Memory.setBytes s.mem (sheafBase m + off) bs, eccWords := clearMarks s.eccWords 8 (sheafBase m + off) bs.length }
    | .silageGroup m g i => if i = 0 ∧ bs.length = 64 then s.writeGroup m g bs else s
    | .host => { s with mem := Memory.setBytes s.mem a bs }
    | _ => s
  else s

/-- A write of part of an uncorrectable HBM unit, which fails (R309). -/
def State.writeFails (s : State) (p a : Nat) (bs : List Byte) : Bool :=
  decide (s.reach p a true false = .ok) && decide (bs.length ≠ 64) &&
    (match s.place a with
     | .hbm u => decide ((s.eccUnits.find? fun c => decide (c.1 = u)).map Prod.snd = some .uncorrectable)
     | _ => false)

/-- A byte list cut at aligned 64-byte units: address and bytes of each part.  `fuel` bounds the number of parts. -/
def cutUnits : Nat → Nat → List Byte → List (Nat × List Byte)
  | 0, _, _ => []
  | _, _, [] => []
  | fuel + 1, a, bs =>
    let n := 64 - a % 64
    (a, bs.take n) :: cutUnits fuel (a + n) (bs.drop n)

/-- Bytes written from `a`, unit by unit. -/
def State.writeBytes (s : State) (p a : Nat) (bs : List Byte) : State :=
  (cutUnits (bs.length / 64 + 2) a bs).foldl (fun s c => s.writeChunk p c.1 c.2 false) s

/-- Bytes written by the host port or the Farrier. -/
def State.writeBytesHost (s : State) (p a : Nat) (bs : List Byte) : State :=
  (cutUnits (bs.length / 64 + 2) a bs).foldl (fun s c => s.writeChunk p c.1 c.2 true) s

/-- A BF16 or other 16-bit code at `a`. -/
def State.read16 (s : State) (p a : Nat) : BitVec 16 := BitVec.ofNat 16 (s.readNat p a 2)
/-- A 16-bit code written at `a`. -/
def State.write16 (s : State) (p a : Nat) (v : BitVec 16) : State := s.writeBytes p a (leBytes 2 v.toNat)

/-- Whether every byte of [a, a + n) is reached; the lowest byte that is not, otherwise. Only the first byte of each
aligned 64-byte unit and the range's own first byte can differ, as every range of R291 is a multiple of 64 bytes, except
in register space. -/
def State.firstUnreached (s : State) (p a n : Nat) (write : Bool) : Option (Nat × Reach) :=
  let probes := if n = 0 then [] else a :: ((List.range ((a + n - 1) / 64 - a / 64)).map fun i => (a / 64 + 1 + i) * 64)
  (probes.find? fun x => s.reach p x write false ≠ .ok).map fun x => (x, s.reach p x write false)

/-! ### Errors (R297, R299, R309) -/

/-- What the outside did since: the host's writes to its own memory, and the upsets the reads meet. -/
def State.takeEnv (s : State) (env : Env) : State :=
  let s := { s with mem := env.host.foldl (fun m c => if hostBase ≤ c.1 then Memory.setByte m c.1 c.2 else m) s.mem }
  env.upsets.foldl (fun s u =>
    if u.1 < 2 ^ 39 then { s with eccUnits := Tbl.insert s.eccUnits (u.1 / 64) u.2 }
    else if u.1 < hostBase then { s with eccWords := Tbl.insert s.eccWords (u.1 / 8) u.2 } else s) s

/-- One corrected SRAM word: counted and written back (R297, R299). -/
def State.correctWord (s : State) (w : Nat) : State :=
  let s := { s with eccWords := Tbl.drop s.eccWords w }
  let a := w * 8
  if a < 0x200000000000 then
    let n := (a - 0x100000000000) / 0x10000
    s.modTile n fun t => { t with tsCe := satAdd t.tsCe 1 }
  else
    s.modSheaf ((a - 0x200000000000) / 0x400000) fun x => { x with bankCe := satAdd x.bankCe 1 }

/-- One uncorrectable SRAM word read: counted, recorded and raised (R297, R299). -/
def State.failWord (s : State) (w : Nat) : State :=
  let a := w * 8
  if a < 0x200000000000 then
    let o := a - 0x100000000000
    let n := o / 0x10000
    let s := s.modTile n fun t => { t with tsUe := satAdd t.tsUe 1, tsLastUe := BitVec.ofNat 13 (o % 0x10000 / 8) }
    s.raise n evtSramUe (pack 128 [(0, 48, a)])
  else
    let o := a - 0x200000000000
    let m := o / 0x400000
    let s := s.modSheaf m fun x => { x with bankUe := satAdd x.bankUe 1, bankLastUe := BitVec.ofNat 18 (o % 0x400000 / 8) }
    s.raise (srcSheaf m) evtSramUe (pack 128 [(0, 48, a)])

/-- The error marks of a read of physical bytes [a, a + n), in ascending address. -/
def State.marksIn (s : State) (a n : Nat) : List (Nat × EccMark) :=
  if n = 0 then []
  else if a < 2 ^ 39 then s.eccUnits.filter fun c => decide (a / 64 ≤ c.1) && decide (c.1 ≤ (a + n - 1) / 64)
  else s.eccWords.filter fun c => decide (a / 8 ≤ c.1) && decide (c.1 ≤ (a + n - 1) / 8)

/-- The effect of one marked word or unit on a read, and its address when uncorrectable. -/
def State.readMark (s : State) (hbm : Bool) (c : Nat × EccMark) : State × Option Nat :=
  match hbm, c.2 with
  | true, .correctable => (s.correctUnit c.1, none)
  | true, .uncorrectable => (s.failUnit c.1 false, some (c.1 * 64))
  | false, .correctable => (s.correctWord c.1, none)
  | false, .uncorrectable => (s.failWord c.1, some (c.1 * 8))

/-- Marks met in ascending order up to the first uncorrectable one. -/
def State.readMarks (s : State) (hbm : Bool) : List (Nat × EccMark) → State × Option Nat
  | [] => (s, none)
  | c :: rest =>
    match s.readMark hbm c with
    | (s, some a) => (s, some a)
    | (s, none) => s.readMarks hbm rest

/-- The error check of a read of physical bytes [a, a + n): the state with its counts and events, and the address of the
first uncorrectable word or unit (R297, R309). -/
def State.checkRead (s : State) (a n : Nat) : State × Option Nat := s.readMarks (decide (a < 2 ^ 39)) (s.marksIn a n)

/-- The error check of the part of one aligned 64-byte unit that a read covers, as software addresses it: a Silage group
brings its element string and its header byte (R176, R297). -/
def State.checkUnit (s : State) (a n : Nat) : State × Option Nat :=
  match s.place a with
  | .silageRaw m off => s.checkRead (sheafBase m + off) n
  | .silageGroup m g _ =>
    (match s.checkRead (s.slgAt m g).1 48 with
     | (s, some x) => (s, some x)
     | (s, none) => s.checkRead (s.slgAt m g).2 1)
  | .reg _ => (s, none)
  | .host => (s, none)
  | .none => (s, none)
  | _ => s.checkRead a n

/-- The aligned 64-byte units of [a, a + n): first byte and byte count of each part. -/
def unitsOf (a n : Nat) : List (Nat × Nat) :=
  if n = 0 then []
  else (List.range ((a + n - 1) / 64 - a / 64 + 1)).map fun i =>
    let lo := max a ((a / 64 + i) * 64)
    (lo, min (a + n) ((a / 64 + i + 1) * 64) - lo)

/-- The error check of units in order, up to the first one that is unreadable: its address as software gives it, and the
DPA of its word. -/
def State.checkUnits (s : State) : List (Nat × Nat) → State × Option (Nat × Nat)
  | [] => (s, none)
  | u :: rest =>
    match s.checkUnit u.1 u.2 with
    | (s, some w) => (s, some (u.1, w))
    | (s, none) => s.checkUnits rest

/-- The error check of a read as software addresses it (R297, R299, R309): the unit and the word that failed. -/
def State.checkSource (s : State) (a n : Nat) : State × Option (Nat × Nat) := s.checkUnits (unitsOf a n)

/-- The error check of a read, its failing word alone. -/
def State.checkReadAt (s : State) (a n : Nat) : State × Option Nat :=
  let (s, bad) := s.checkSource a n
  (s, bad.map Prod.snd)

/-- EVT_MEM_UNBACKED raised by a master (R292). -/
def State.raiseUnbacked (s : State) (src p a : Nat) (write : Bool) : State :=
  s.raise src evtMemUnbacked (pack 128 [(0, 48, a), (48, 4, p), (52, 1, b2n write)])

/-- Bulk clear of a tile store (R303). -/
def State.clearStore (s : State) (n : Nat) : State :=
  { s with mem := Memory.clear s.mem (tileBase n) (tileBase n + 0xC000), eccWords := clearMarks s.eccWords 8 (tileBase n) 0xC000 }

/-- Bulk clear of part of a sheaf's banks (R303). -/
def State.clearBanks (s : State) (m lo hi : Nat) : State :=
  { s with mem := Memory.clear s.mem (sheafBase m + lo) (sheafBase m + hi),
           eccWords := clearMarks s.eccWords 8 (sheafBase m + lo) (hi - lo) }

/-! ### Masters other than tiles (R176, R178, R292) -/

/-- Payload layout F for a refused or partial Silage access that no tile issued: cause 0 and the DPA (R479). -/
def slgPayload (a : Nat) : BitVec 128 := pack 128 [(64, 48, a)]

/-- The aligned 64-byte units of a byte range that are reached and cover a Silage group only in part (R178). -/
def State.partialGroup (s : State) (p a : Nat) (bs : List Byte) : Option (Nat × Nat) :=
  ((cutUnits (bs.length / 64 + 2) a bs).findSome? fun c =>
    match s.place c.1 with
    | .silageGroup m _ i => if s.reach p c.1 true true = .ok ∧ ¬ (i = 0 ∧ c.2.length = 64) then some (m, c.1) else none
    | _ => none)

/-- The event of an access of which a byte is not reached (R176, R292): the lowest such address. -/
def State.raiseReach (s : State) (src p a n : Nat) (write : Bool) : State :=
  match s.firstUnreached p a n write with
  | some (x, .silage) => (match s.place x with
    | .silageRefused m => s.raise (srcSheaf m) evtSlgAccess (slgPayload x)
    | _ => s)
  | some (x, _) => s.raiseUnbacked src p x write
  | none => s

/-- A write by a master with a source number: what is not reached is dropped, and a Silage group written in part is refused
(R178, R292). -/
def State.masterWrite (s : State) (src p a : Nat) (bs : List Byte) : State :=
  let s := s.raiseReach src p a bs.length true
  let s := match s.partialGroup p a bs with
    | some (m, x) => s.raise (srcSheaf m) evtSlgPartial (slgPayload x)
    | none => s
  s.writeBytes p a bs

end Sys2Proof.Machine
end

