-- ==== Sys2Proof/Machine/Operands.lean ====
section
/-!
DEFINITION. Machine/Operands.lean: the instruction word (R244 to R247, R271), reserved encodings (R246, R276), the
register file of a tile (R224), tensor descriptors and their planes (R226, R227) and the descriptor checks (R228).
-/

namespace Sys2Proof.Machine

/-! ### Fields of an instruction word (R244) -/

/-- Major opcode. -/
def opOf (w : BitVec 64) : Nat := bits w 56 8
/-- Register field D of format R or I. -/
def fD (w : BitVec 64) : Nat := bits w 47 5
/-- Register field A. -/
def fA (w : BitVec 64) : Nat := bits w 42 5
/-- Register field B. -/
def fB (w : BitVec 64) : Nat := bits w 37 5
/-- Register field C. -/
def fC (w : BitVec 64) : Nat := bits w 32 5
/-- Function field of format R. -/
def fF (w : BitVec 64) : Nat := bits w 24 8
/-- Function field of format I. -/
def fF10 (w : BitVec 64) : Nat := bits w 32 10
/-- Immediate of format R. -/
def imm24 (w : BitVec 64) : Nat := bits w 0 24
/-- Immediate of format I. -/
def imm32 (w : BitVec 64) : BitVec 32 := BitVec.ofNat 32 (bits w 0 32)

/-- The guard holds (R245): p[G] XOR GN, with p0 reading as 1. -/
def guardHolds (preds : BitVec 8) (w : BitVec 64) : Bool :=
  let g := bits w 52 3
  (g == 0 || bit preds g) != bit w 55

/-! ### The hand-off field (R276) -/

/-- PV: the instruction is the producer of slot PSLOT. -/
def hPv (w : BitVec 64) : Bool := bit w 15
/-- PSLOT. -/
def hPslot (w : BitVec 64) : Nat := bits w 13 2
/-- CV: the instruction consumes slot CSLOT. -/
def hCv (w : BitVec 64) : Bool := bit w 12
/-- CSLOT. -/
def hCslot (w : BitVec 64) : Nat := bits w 10 2
/-- REL: the slot becomes FREE when the consumer is complete. -/
def hRel (w : BitVec 64) : Bool := bit w 9
/-- COP: the operand in field B. -/
def hCop (w : BitVec 64) : Bool := bit w 8

/-- Settings of the hand-off field that are reserved whatever the instruction: REL or COP without CV. -/
def handLegal (w : BitVec 64) : Bool := hCv w || (!hRel w && !hCop w)

/-! ### Reserved encodings (R246) -/

/-- Function values of ALU and ALUI (R258). -/
def aluLegal (f : Nat) (imm : Bool) : Bool := if imm then decide (f < 0x0E) else decide (f < 0x0F)

/-- Whether the word's major opcode, function, register indices and fields are none of them reserved (R246). -/
def legalWord (w : BitVec 64) : Bool :=
  match opOf w with
  | 0x01 => true
  | 0x02 => true
  | 0x03 => decide (bits w 52 4 = 0) && decide (bits w 36 11 ≠ 0)
  | 0x04 => true
  | 0x05 => true
  | 0x06 => true
  | 0x07 => true
  | 0x08 => true
  | 0x09 => decide (bits w 0 8 ≤ 9)
  | 0x0A => true
  | 0x0B => true
  | 0x10 => aluLegal (fF w) false && (decide (fF w ≠ 0x0E) || decide (fC w < 8))
  | 0x11 => aluLegal (fF10 w) true
  | 0x12 => true
  | 0x13 => decide (fF w ≤ 5) && decide (fD w < 8)
  | 0x14 => decide (fF10 w ≤ 5) && decide (fD w < 8)
  | 0x15 =>
    decide (fF w ≤ 5) && decide (fD w < 8) && (decide (fF w = 5) || decide (fA w < 8)) &&
      (decide (4 ≤ fF w) || decide (fB w < 8))
  | 0x18 =>
    match fF w with
    | 0 => decide (fD w < 16) && decide (fA w < 16)
    | 1 => decide (fD w < 16) && decide (fA w < 16)
    | 2 => decide (fD w < 16) && decide (fA w < 16)
    | 3 => decide (fD w < 16) && decide (fA w < 16)
    | 4 => decide (fD w < 16)
    | 5 => decide (fA w < 16)
    | 6 => decide (fA w < 16)
    | _ => false
  | 0x19 => true
  | 0x1A => decide (fD w < 16) && decide (fA w < 16)
  | 0x20 => decide (bits w 24 2 ≠ 3)
  | 0x21 => decide (bits w 24 2 ≠ 3)
  | 0x22 => decide (fD w < 16)
  | 0x23 => decide (fB w < 16)
  | 0x24 => decide (fD w < 16)
  | 0x25 => decide (fB w < 16)
  | 0x26 => decide (fF w ≤ 7) && decide (fD w < 16) && (decide (2 ≤ fF w) || decide (fA w < 16))
  | 0x27 => decide (fD w < 16)
  | 0x28 => decide (fD w < 16) && decide (fA w < 16)
  | 0x29 => decide (fD w < 16) && decide (fA w < 16)
  | 0x2C => decide (fA w < 16)
  | 0x30 => decide (fA w < 16) && decide (fB w < 16) && handLegal w && !hPv w
  | 0x31 => decide (fD w < 16) && handLegal w && !hCv w && !(hPv w && bit w 2)
  | 0x32 => true
  | 0x38 => decide (fA w < 16) && decide (fB w < 16) && handLegal w && !hPv w
  | 0x39 => decide (fD w < 16)
  | 0x40 => decide (fD w < 16) && decide (fA w < 16) && handLegal w && !hCop w
  | 0x41 => decide (fD w < 16) && decide (fA w < 16) && handLegal w && !hCop w
  | 0x42 => decide (fD w < 16) && decide (fA w < 16) && handLegal w && !hCop w
  | 0x43 => decide (fD w < 16) && decide (fA w < 16) && handLegal w && !hCop w
  | 0x48 => true
  | 0x49 => true
  | 0x4A => true
  | 0x50 => bit w 4 || decide (fA w < 16)
  | 0x51 => decide (fA w < 16) && decide (fB w < 16)
  | 0x52 => bit w 2 || decide (fD w < 16)
  | 0x53 => decide (1 ≤ bits w 0 7) && decide (bits w 0 7 ≤ 64)
  | 0x54 => decide (fA w < 16)
  | 0x55 => true
  | 0x58 => true
  | 0x59 => decide (fA w < 16)
  | 0x60 => true
  | _ => false

/-! ### Register hazards (R249): registers by one index, s 0 to 31, a 32 to 47, t 48 to 63, p 64 to 71 -/

/-- Index of s register `i`. -/
def rS (i : Nat) : Nat := i
/-- Index of a register `i`. -/
def rA (i : Nat) : Nat := 32 + i
/-- Index of t register `i`. -/
def rT (i : Nat) : Nat := 48 + i

/-- The registers an instruction names and reads or writes, whose value may be pending (R249). -/
def usesOf (w : BitVec 64) : List Nat :=
  match opOf w with
  | 0x05 => [rS (fA w), rS (fB w)]
  | 0x07 => [rS (fA w), rS (fB w), rS (fC w)]
  | 0x09 => [rS (fD w)]
  | 0x0A => [rS (fD w)]
  | 0x10 => [rS (fD w), rS (fA w), rS (fB w)]
  | 0x11 => [rS (fD w), rS (fA w)]
  | 0x12 => [rS (fD w)]
  | 0x13 => [rS (fA w), rS (fB w)]
  | 0x14 => [rS (fA w)]
  | 0x18 =>
    match fF w with
    | 3 => [rA (fD w), rA (fA w)]
    | 4 => [rA (fD w), rS (fA w), rS (fB w)]
    | 5 => [rS (fD w), rA (fA w)]
    | 6 => [rS (fD w), rA (fA w)]
    | _ => [rA (fD w), rA (fA w), rS (fB w)]
  | 0x19 => [rA (bits w 48 4)]
  | 0x1A => [rA (fD w), rA (fA w)]
  | 0x20 => [rS (fD w), rS (fA w)]
  | 0x21 => [rS (fB w), rS (fA w)]
  | 0x22 => [rA (fD w), rS (fA w)]
  | 0x23 => [rA (fB w), rS (fA w)]
  | 0x24 => [rT (fD w), rS (fA w)]
  | 0x25 => [rT (fB w), rS (fA w)]
  | 0x26 => if fF w < 2 then [rT (fD w), rA (fA w)] else [rT (fD w), rS (fA w)]
  | 0x27 => [rT (fD w), rS (fA w), rS (fB w)]
  | 0x28 => [rA (fD w), rA (fA w), rS (fB w)]
  | 0x29 => [rT (fD w), rT (fA w)]
  | 0x2C => if bit w 26 then [rS (fD w), rA (fA w), rS (fB w)] else [rA (fA w), rS (fB w)]
  | 0x30 => [rT (fA w), rT (fB w)]
  | 0x31 => [rT (fD w)]
  | 0x38 => [rT (fA w), rT (fB w)]
  | 0x39 => [rT (fD w), rS (fB w), rS (fC w)]
  | 0x40 => [rT (fD w), rT (fA w)]
  | 0x41 => [rT (fD w), rT (fA w)]
  | 0x42 => [rT (fD w), rT (fA w)]
  | 0x43 => [rT (fD w), rT (fA w)]
  | 0x4A => [rS (fD w)]
  | 0x50 => if bit w 4 then [rS (fB w)] else [rT (fA w)]
  | 0x51 => [rT (fA w), rT (fB w), rS (fC w)]
  | 0x52 => if bit w 2 then [rS (fB w)] else [rT (fD w)]
  | 0x54 => [rA (fA w)]
  | 0x55 => [rS (fA w)]
  | 0x58 => [rS (fD w), rS (fA w), rS (fB w), rS (fC w)]
  | 0x59 => [rT (fA w), rS (fB w), rS (fC w)]
  | _ => []

/-- The Reserved shape of a product (R135, R157).  It falls under FWA_SHAPE and BWA_SHAPE where the array looks at it (R151,
R171), and is a reserved encoding where it does not: the guard does not hold (R246), or an extent is zero (R152, R163)
(DEDUCED, notes/assumptions/81). -/
def reservedShape (w : BitVec 64) : Bool := (decide (opOf w = 0x30) || decide (opOf w = 0x38)) && decide (bits w 2 2 = 3)

/-- The word is a reserved encoding whether or not its guard holds (R246), or one that only a failed guard leaves to the
sequencer. -/
def reservedWord (preds : BitVec 8) (w : BitVec 64) : Bool := !legalWord w || (reservedShape w && !guardHolds preds w)

/-! ### Register file (R224) -/

/-- s register `i`. -/
def Tile.s (t : Tile) (i : Nat) : BitVec 32 := Tbl.get 0 t.sregs i
/-- s register `i` written. -/
def Tile.setS (t : Tile) (i : Nat) (v : BitVec 32) : Tile := { t with sregs := Tbl.put 0 t.sregs i v }
/-- a register `i`. -/
def Tile.a (t : Tile) (i : Nat) : BitVec 48 := Tbl.get 0 t.aregs i
/-- a register `i` written. -/
def Tile.setA (t : Tile) (i : Nat) (v : BitVec 48) : Tile := { t with aregs := Tbl.put 0 t.aregs i v }
/-- t register `i`. -/
def Tile.t (t : Tile) (i : Nat) : BitVec 256 := Tbl.get 0 t.tregs i
/-- t register `i` written. -/
def Tile.setT (t : Tile) (i : Nat) (v : BitVec 256) : Tile := { t with tregs := Tbl.put 0 t.tregs i v }
/-- Predicate `i`: p0 reads as 1. -/
def Tile.p (t : Tile) (i : Nat) : Bool := if i = 0 then true else bit t.preds i
/-- Predicate `i` written: writes to p0 are ignored. -/
def Tile.setP (t : Tile) (i : Nat) (b : Bool) : Tile := if i = 0 then t else { t with preds := withBit t.preds i b }

/-- The instruction at the tile's PC (R241). -/
def Tile.fetch (t : Tile) : BitVec 64 := Tbl.get 0 t.store t.pc.toNat

/-- Index of the last instruction of the tile's program (R252). -/
def Tile.lastPc (t : Tile) : Nat :=
  match t.program with
  | some r => r.origin.toNat + r.length.toNat - 1
  | none => 0

/-- Declared budget B of the tile's program (R234). -/
def Tile.budget (t : Tile) : Nat :=
  match t.program with
  | some r => r.budget.toNat
  | none => 0

/-! ### Tensor descriptors (R226) -/

/-- BASE: DPA of element (0, 0). -/
def dBase (d : BitVec 256) : Nat := bits d 0 48
/-- FORMAT. -/
def dFormat (d : BitVec 256) : Nat := bits d 48 4
/-- VALID. -/
def dValid (d : BitVec 256) : Bool := bit d 52
/-- HAS_ENTRY. -/
def dHasEntry (d : BitVec 256) : Bool := bit d 53
/-- OUTLIER. -/
def dOutlier (d : BitVec 256) : Bool := bit d 54
/-- TROUBLE. -/
def dTrouble (d : BitVec 256) : Bool := bit d 55
/-- ENTRY. -/
def dEntry (d : BitVec 256) : Nat := bits d 56 8
/-- SCALE_BASE. -/
def dScale (d : BitVec 256) : Nat := bits d 64 48
/-- LINK. -/
def dLink (d : BitVec 256) : Nat := bits d 112 4
/-- LINK_V. -/
def dLinkV (d : BitVec 256) : Bool := bit d 116
/-- EXT0. -/
def dExt0 (d : BitVec 256) : Nat := bits d 128 21
/-- EXT1. -/
def dExt1 (d : BitVec 256) : Nat := bits d 149 21
/-- STRIDE1 in units of 32 bytes. -/
def dStride1 (d : BitVec 256) : Nat := bits d 192 32
/-- STREAM. -/
def dStream (d : BitVec 256) : BitVec 32 := BitVec.ofNat 32 (bits d 224 32)

/-- Format code BF16 (R67). -/
def fBf16 : Nat := 0
/-- Format code OAT4 (R67). -/
def fOat4 : Nat := 1
/-- Format code OAT4I (R67). -/
def fOat4i : Nat := 2
/-- Format code TEFF8 (R67). -/
def fTeff8 : Nat := 3
/-- Format code TEFF8I (R67). -/
def fTeff8i : Nat := 4
/-- Format code E5M2R (R67). -/
def fE5m2r : Nat := 5
/-- Format code INT32 (R67). -/
def fInt32 : Nat := 6

/-- A block format (R73). -/
def isBlock (f : Nat) : Bool := f == 1 || f == 2
/-- A row format (R74). -/
def isRow (f : Nat) : Bool := f == 3 || f == 4 || f == 5
/-- A scaled format. -/
def isScaled (f : Nat) : Bool := isBlock f || isRow f
/-- A format of the integer family: INT4 or INT8 elements. -/
def isIntFmt (f : Nat) : Bool := f == 2 || f == 4

/-- Element bytes of a row (R227): `expanded` selects the layout of R133 for block formats. -/
def rowBytes (f ext0 : Nat) (expanded : Bool) : Nat :=
  if f = 0 then 2 * ext0
  else if f = 6 then 4 * ext0
  else if isBlock f && !expanded then (ext0 + 1) / 2
  else ext0

/-- Address of row `r` of the element plane (R227). -/
def rowAt (d : BitVec 256) (r : Nat) : Nat := dBase d + 32 * dStride1 d * r

/-- Bytes of the scale plane (R73, R74). -/
def scaleBytes (f ext0 ext1 : Nat) : Nat :=
  if isBlock f then ext0 / 32 * ext1 else if isRow f then 2 * ext1 else 0

/-- Segments of a row (R105). -/
def segments (ext0 : Nat) : Nat := ceilDiv ext0 256

/-- Address of the outlier plane for format `f` (R227). -/
def outlierAt (d : BitVec 256) (f : Nat) : Nat := alignUp (dScale d + scaleBytes f (dExt0 d) (dExt1 d)) 32

/-- Bytes of the outlier plane (R106). -/
def outlierBytes (d : BitVec 256) : Nat := 32 * segments (dExt0 d) * dExt1 d

/-- Address of the trouble plane (R227); `outlier` says whether an outlier plane is before it. -/
def troubleAt (d : BitVec 256) (f : Nat) (outlier : Bool) : Nat :=
  if outlier then alignUp (outlierAt d f + outlierBytes d) 32 else outlierAt d f

/-- Bytes of the trouble plane (R112): one per block or row. -/
def troubleBytes (d : BitVec 256) (f : Nat) : Nat :=
  if isBlock f then dExt0 d / 32 * dExt1 d else dExt1 d

/-- The address ranges of the element plane: one per row, or one whole range when rows are adjacent. -/
def elemRanges (d : BitVec 256) (f ext0 ext1 : Nat) (expanded : Bool) : List (Nat × Nat) :=
  let n := rowBytes f ext0 expanded
  if n = 0 ∨ ext1 = 0 then []
  else if ext1 = 1 ∨ 32 * dStride1 d = n then [(dBase d, n * ext1)]
  else (List.range ext1).map fun r => (rowAt d r, n)

/-- The ranges of the scale, outlier and trouble planes. -/
def planeRanges (d : BitVec 256) (f : Nat) (outlier trouble : Bool) : List (Nat × Nat) :=
  if isScaled f then
    [(dScale d, scaleBytes f (dExt0 d) (dExt1 d))] ++
      (if outlier then [(outlierAt d f, outlierBytes d)] else []) ++
      (if trouble then [(troubleAt d f outlier, troubleBytes d f)] else [])
  else []

/-! ### Martingale entries named by descriptors -/

/-- Kind of an entry (R97): 0 NONE, 1 FWD, 2 KEPT, 3 GRAD. -/
def MtgEntry.kind (e : MtgEntry) : Nat := bits e.ctl 18 2
/-- CTL.SCAP. -/
def MtgEntry.scap (e : MtgEntry) : Nat := bits e.ctl 40 8
/-- CTL.MARGIN, two's complement. -/
def MtgEntry.margin (e : MtgEntry) : Int := (BitVec.ofNat 4 (bits e.ctl 28 4)).toInt
/-- CTL.RUNG_MIN. -/
def MtgEntry.rungMin (e : MtgEntry) : Nat := bits e.ctl 26 2
/-- CTL.RUNG_MAX. -/
def MtgEntry.rungMax (e : MtgEntry) : Nat := bits e.ctl 24 2
/-- CTL.FAMILY: true for the integer family. -/
def MtgEntry.integer (e : MtgEntry) : Bool := bit e.ctl 23
/-- CTL.OUTLIER. -/
def MtgEntry.outlier (e : MtgEntry) : Bool := bit e.ctl 22
/-- CTL.REPEAT_ALLOW. -/
def MtgEntry.repeatAllow (e : MtgEntry) : Bool := bit e.ctl 21
/-- CTL.SCOPE: true for PART. -/
def MtgEntry.part (e : MtgEntry) : Bool := bit e.ctl 20

/-- A FWD entry is malformed (R99). -/
def MtgEntry.malformed (e : MtgEntry) : Bool :=
  decide (e.kind = 1) &&
    (decide (e.scap < 0x38) || decide (0x7E < e.scap) || decide (e.rungMin = 3) || decide (e.rungMax = 3) ||
      decide (e.rungMax < e.rungMin))

/-- Effective format of an entry (R98). -/
def MtgEntry.format (e : MtgEntry) : Nat :=
  match e.kind with
  | 1 => if e.rung = 0 then (if e.integer then fOat4i else fOat4) else (if e.integer then fTeff8i else fTeff8)
  | 2 => fE5m2r
  | _ => fBf16

/-- The format an instruction uses for a descriptor: that of a FWD entry it names, else its FORMAT field (R98). -/
def State.effective (s : State) (m : Nat) (d : BitVec 256) : Nat :=
  if dHasEntry d && decide ((s.entry m (dEntry d)).kind = 1) then (s.entry m (dEntry d)).format else dFormat d

/-- The entry a descriptor names. -/
def State.entryOf (s : State) (m : Nat) (d : BitVec 256) : MtgEntry := s.entry m (dEntry d)

/-- The tensor scale exponent a descriptor takes: T of the entry it names, or 0 (R71, R226). -/
def State.scaleExp (s : State) (m : Nat) (d : BitVec 256) : Int :=
  if dHasEntry d then (s.entryOf m d).tExp.toInt else 0

/-! ### Descriptor checks (R228) -/

/-- Cause codes of R238. -/
def cIllegal : Nat := 0x01
def cBudget : Nat := 0x02
def cPhase : Nat := 0x03
def cBranch : Nat := 0x04
def cLoop : Nat := 0x05
def cAlign : Nat := 0x06
def cEcc : Nat := 0x07
def cBarPeer : Nat := 0x08
def cBarMask : Nat := 0x09
def cMovAddr : Nat := 0x0A
def cSwrStream : Nat := 0x0B
def cSwrClass : Nat := 0x0C
def cDescInvalid : Nat := 0x10
def cDescFormat : Nat := 0x11
def cDescAlign : Nat := 0x12
def cDescBlock : Nat := 0x13
def cDescEntry : Nat := 0x14
def cFwaPair : Nat := 0x20
def cFwaShape : Nat := 0x21
def cFwaOutlierBoth : Nat := 0x22
def cFwaTag : Nat := 0x23
def cFwaDrainTarget : Nat := 0x24
def cFwaDrainEmpty : Nat := 0x25
def cFwaRecompRung : Nat := 0x26
def cFwaEcc : Nat := 0x27
def cBwaPair : Nat := 0x30
def cBwaShape : Nat := 0x31
def cBwaTag : Nat := 0x32
def cBwaDrainTarget : Nat := 0x33
def cBwaDrainEmpty : Nat := 0x34
def cBwaEcc : Nat := 0x35
def cHndEmpty : Nat := 0x36
def cChfFormat : Nat := 0x40
def cChfLength : Nat := 0x41
def cChfTable : Nat := 0x42
def cChfTag : Nat := 0x43
def cChfCount : Nat := 0x44
def cChfDrainEmpty : Nat := 0x45
def cChfEcc : Nat := 0x46
def cHmeTranspose : Nat := 0x50
def cHmeRow : Nat := 0x51
def cSlgAccess : Nat := 0x58
def cSlgPartial : Nat := 0x59

/-- The first failing check of R228 on a descriptor, as a cause: `fmt` is the format in use, `accepted` the formats the
instruction accepts, `needs` whether it needs an entry. -/
def State.descFault (s : State) (m : Nat) (d : BitVec 256) (fmt : Nat) (accepted : Nat → Bool) (expanded needs : Bool) :
    Option Nat :=
  if !dValid d then some cDescInvalid
  else if decide (6 < dFormat d) || !accepted fmt then some cDescFormat
  else if decide (dBase d % 32 ≠ 0) || (isScaled fmt && decide (dScale d % 32 ≠ 0)) then some cDescAlign
  else if decide (1 < dExt1 d) && decide (32 * dStride1 d < rowBytes fmt (dExt0 d) expanded) then some cDescAlign
  else if isBlock fmt && decide (dExt0 d % 32 ≠ 0) then some cDescBlock
  else if (needs && !dHasEntry d) ||
      (dHasEntry d && (decide ((s.entryOf m d).kind = 0) || (s.entryOf m d).malformed)) then some cDescEntry
  else none

/-- Byte addresses that a list of ranges touches outside a permitted set; the lowest, if any.  A range is probed at its
first byte and at every 64-byte boundary in it, as places are multiples of 64 bytes. -/
def lowestBad (ok : Nat → Bool) (ranges : List (Nat × Nat)) : Option Nat :=
  let bads := ranges.filterMap fun r =>
    if r.2 = 0 then none
    else (r.1 :: ((List.range ((r.1 + r.2 - 1) / 64 - r.1 / 64)).map fun i => (r.1 / 64 + 1 + i) * 64)).find? fun a => !ok a
  bads.foldl (fun acc a => match acc with | none => some a | some b => some (min a b)) none

/-- An address in the tile's own tile store (R274). -/
def ownStore (n a : Nat) : Bool := decide (tileBase n ≤ a) && decide (a < tileBase n + 0xC000)

/-- Whether two lists of ranges overlap. -/
def rangesOverlap (xs ys : List (Nat × Nat)) : Bool :=
  xs.any fun x => ys.any fun y => decide (x.1 < y.1 + y.2) && decide (y.1 < x.1 + x.2)

end Sys2Proof.Machine
end

