-- ==== Sys2Proof/Machine/TileOps.lean ====
section
/-!
DEFINITION. Machine/TileOps.lean: what every tile instruction shares: issue, guard and stall (R245 to R249), retirement
(R252, R253), faults (R237, R238, R511), hand-off slots (R172 to R175) and the non-finite flag's place.
-/

namespace Sys2Proof.Machine

/-! ### Hand-off slots (R172) -/

/-- State of slot `h`: 0 FREE, 1 FILLING, 2 READY. -/
def Tile.slot (t : Tile) (h : Nat) : Nat := bits t.hand (2 * h) 2
/-- Slot `h` set. -/
def Tile.setSlot (t : Tile) (h v : Nat) : Tile := { t with hand := setBits t.hand (2 * h) 2 v }

/-- Operations that carry the hand-off field (R276). -/
def OpKind.hasHand : OpKind → Bool
  | .fmm | .fdr | .bmm | .hq | .hx | .hw | .ht => true
  | _ => false

/-- The operation is a producer of a slot. -/
def UnitOp.pv (o : UnitOp) : Bool := o.kind.hasHand && hPv o.word
/-- The operation consumes a slot. -/
def UnitOp.cv (o : UnitOp) : Bool := o.kind.hasHand && hCv o.word

/-- Every slot an operation names is in the state it waits for (R172, R173). -/
def Tile.slotsReady (t : Tile) (o : UnitOp) : Bool :=
  (!o.pv || decide (t.slot (hPslot o.word) = 0)) && (!o.cv || decide (t.slot (hCslot o.word) = 2))

/-- An operation may start as far as its slots go; on a FAULTED tile what remains does not wait for slots (R511). -/
def Tile.mayStart (t : Tile) (o : UnitOp) : Bool := t.slotsReady o || decide (t.seqState = .faulted)

/-- The slot effects of an operation's start: a producer's slot becomes FILLING (R172). -/
def Tile.slotStart (t : Tile) (o : UnitOp) : Tile :=
  if o.pv && decide (t.seqState ≠ .faulted) then t.setSlot (hPslot o.word) 1 else t

/-- The slot effects of its completion: a producer's slot becomes READY, a released consumer's slot FREE (R172, R173). -/
def Tile.slotEnd (t : Tile) (o : UnitOp) : Tile :=
  if t.seqState = .faulted then t
  else
    let t := if o.cv && hRel o.word then t.setSlot (hCslot o.word) 0 else t
    if o.pv then t.setSlot (hPslot o.word) 2 else t

/-- A producer of slot `h` has been issued and is not complete (R174). -/
def Tile.producing (t : Tile) (h : Nat) : Bool :=
  (t.fwa ++ t.bwa ++ t.hame).any fun o => o.pv && decide (hPslot o.word = h)

/-- A consumer that names a FREE slot with no producer issued (R174). -/
def Tile.handEmpty (t : Tile) (w : BitVec 64) : Bool :=
  hCv w && decide (t.slot (hCslot w) = 0) && !t.producing (hCslot w)

/-! ### Banks -/

/-- Bank state of a tag: 0 EMPTY, 1 ACTIVE, 2 DRAINING (R140). -/
def tagState (tag : BitVec 64) : Nat := bits tag 62 2
/-- The tag with its state set. -/
def setTagState (tag : BitVec 64) (v : Nat) : BitVec 64 := setBits tag 62 2 v
/-- FWA bank `q`. -/
def Tile.fwaBank (t : Tile) (q : Nat) : Bank := Tbl.get {} t.fwaBanks q
/-- BWA bank `q`. -/
def Tile.bwaBank (t : Tile) (q : Nat) : Bank := Tbl.get {} t.bwaBanks q
/-- Chaff bank `q`. -/
def Tile.chaffBank (t : Tile) (q : Nat) : ChaffBank := Tbl.get {} t.chaffBanks q
/-- FWA bank `q` set. -/
def Tile.setFwaBank (t : Tile) (q : Nat) (b : Bank) : Tile := { t with fwaBanks := Tbl.put {} t.fwaBanks q b }
/-- BWA bank `q` set. -/
def Tile.setBwaBank (t : Tile) (q : Nat) (b : Bank) : Tile := { t with bwaBanks := Tbl.put {} t.bwaBanks q b }
/-- Chaff bank `q` set. -/
def Tile.setChaffBank (t : Tile) (q : Nat) (b : ChaffBank) : Tile := { t with chaffBanks := Tbl.put {} t.chaffBanks q b }
/-- Result bank `q` as the issues accepted behind its drain leave it (R198, R272). -/
def Tile.chaffBehind (t : Tile) (q : Nat) : ChaffBank := Tbl.get {} t.chaffNext q
/-- Result bank `q` behind its drain set. -/
def Tile.setChaffBehind (t : Tile) (q : Nat) (b : ChaffBank) : Tile := { t with chaffNext := Tbl.put {} t.chaffNext q b }
/-- The bank an operation names. -/
def UnitOp.bank (o : UnitOp) : Nat := bits o.word 0 2
/-- An operation's descriptor or scalar operand fields name a shape in [3:2]. -/
def UnitOp.shape (o : UnitOp) : Nat := bits o.word 2 2

/-! ### Faults -/

/-- The event of a fault cause (R238). -/
def eventOfCause (c : Nat) : EventCode :=
  if c = cBudget then evtTileBudget
  else if c = cPhase then evtTilePhase
  else if c = cSwrStream ∨ c = cSwrClass then evtSwrFault
  else if 0x20 ≤ c ∧ c ≤ 0x27 then evtFwaFault
  else if 0x30 ≤ c ∧ c ≤ 0x36 then evtBwaFault
  else if 0x40 ≤ c ∧ c ≤ 0x46 then evtChfFault
  else if c = cHmeTranspose ∨ c = cHmeRow then evtHameFault
  else if c = cSlgAccess then evtSlgAccess
  else if c = cSlgPartial then evtSlgPartial
  else evtTileFault

/-- Causes whose event carries a DPA (R478). -/
def causeHasDpa (c : Nat) : Bool := c == cMovAddr || c == cSlgAccess || c == cSlgPartial

/-- Payload layout F (R478). -/
def faultPayload (cause pc position op dpa : Nat) : BitVec 128 :=
  pack 128 [(0, 8, cause), (16, 11, pc), (32, 17, position), (56, 8, op),
            (64, 48, if causeHasDpa cause then dpa else 0)]

/-- An operation not started that waits for a slot to become FREE or READY (R511). -/
def Tile.waitsOnSlot (t : Tile) (o : UnitOp) : Bool := o.started.isNone && (o.pv || o.cv) && !t.slotsReady o

/-- A bank emptied by an abandoned product: EMPTY, or DRAINING with nothing in it while an accepted drain of it is still to
complete (R140, R511). -/
def emptiedBank (ops : List UnitOp) (drain : OpKind) (q : Nat) : Bank :=
  { tag := setTagState 0 (if ops.any fun o => decide (o.kind = drain) && decide (o.bank = q) then 2 else 0) }

/-- The tile with the operations that wait on a slot abandoned: their banks become EMPTY (R511).  A product that waits for a
drain accepted before it holds no bank: that drain completes as it would have (R143, R162). -/
def Tile.abandonWaiting (t : Tile) : Tile :=
  let gone := (t.fwa ++ t.bwa).filter t.waitsOnSlot
  let t' := { t with fwa := t.fwa.filter fun o => !t.waitsOnSlot o, bwa := t.bwa.filter fun o => !t.waitsOnSlot o,
                     hame := t.hame.filter fun o => !t.waitsOnSlot o }
  gone.foldl (fun t o => match o.kind with
    | .fmm => if o.waits then t else t.setFwaBank o.bank (emptiedBank t.fwa .fdr o.bank)
    | .fdr => t.setFwaBank o.bank {}
    | .bmm => if o.waits then t else t.setBwaBank o.bank (emptiedBank t.bwa .bdr o.bank)
    | _ => t) t'

/-- What a tile faults for: cause, DPA, the time of the fault, when the faulting instruction issued, its PC and its major
opcode (R238). -/
structure TileFault where
  cause : Nat
  dpa : Nat
  at_ : Nat
  issued : Nat
  pc : BitVec 11
  op : Nat
  deriving DecidableEq, Repr

/-- The payload of a fault's event. -/
def TileFault.payload (f : TileFault) : BitVec 128 := faultPayload f.cause f.pc.toNat (f.at_ % strideLen) f.op f.dpa

/-- A fault as SHF_SEQ_FAULT_t and the tile's notes keep it (R238). -/
def Tile.recordFault (t : Tile) (f : TileFault) : Tile :=
  { t with
    fault := { position := BitVec.ofNat 17 (f.at_ % strideLen), pc := f.pc, strideLo := BitVec.ofNat 16 (f.at_ / strideLen),
               cause := BitVec.ofNat 8 f.cause },
    faultEvent := some (BitVec.ofNat 64 f.at_, f.payload), faultIssued := f.issued }

/-- The event of a fault that another fault of the same aclk replaces is taken back: one fault raises one event (R238). -/
def State.retractFault (s : State) (n : Nat) (ev : BitVec 64 × BitVec 128) : State :=
  { s with gleaner := { s.gleaner with
      arriving := s.gleaner.arriving.filter fun e => !(decide (e.source = s.source n) && decide (e.gtc = ev.1) && decide (e.payload = ev.2)) } }

/-- A FAULTED tile meets a second fault in the aclk of its first: the one from the instruction issued first is the one
recorded (R238). -/
def State.keepEarlierFault (s : State) (n : Nat) (f : TileFault) : State :=
  let t := s.tile n
  match t.faultEvent with
  | none => s
  | some ev =>
    if t.seqState = .faulted ∧ ev.1 = BitVec.ofNat 64 f.at_ ∧ f.issued < t.faultIssued then
      ((s.retractFault n ev).setTile n (t.recordFault f)).raiseAt f.at_ n (eventOfCause f.cause) f.payload
    else s

/-- A tile enters FAULTED (R223, R238): fault record, one event, every slot FREE (R175).  A tile that is neither RUNNING nor at
a barrier does not fault. -/
def State.stopTile (s : State) (n : Nat) (f : TileFault) : State :=
  let t := s.tile n
  if t.seqState ≠ .running ∧ t.seqState ≠ .barrier then s.keepEarlierFault n f
  else
    let t' := { t.abandonWaiting.recordFault f with seqState := .faulted, hand := 0 }
    let s := (s.setTile n t').modSheaf (n / 64) fun x => { x with arrivals := x.arrivals.filter fun a => decide (a.pos ≠ n % 64) }
    let s := if f.cause = cBudget then s.modPdk (s.tilePaddock n) fun x => { x with budgetFault := true } else s
    (s.raiseAt f.at_ n (eventOfCause f.cause) f.payload).setFault

/-- A sequencer state in which a tile can no longer arrive at a barrier (R237). -/
def SeqState.gone : SeqState → Bool
  | .faulted | .halted | .idle | .waiting => true
  | _ => false

/-- The aclk of position 1,999 + B of the stride (R234). -/
def State.deadline (s : State) (n : Nat) : Nat := s.stride * strideLen + 1999 + (s.tile n).budget

/-- A barrier arrival whose mask holds a tile that can no longer arrive; a tile at its own deadline is stopped by its watchdog instead
(R237). -/
def State.peerGone (s : State) (m : Nat) (a : Arrival) : Bool :=
  decide (s.now < s.deadline (64 * m + a.pos)) && (setIndices a.mask).any fun p => (s.tile (64 * m + p)).seqState.gone

/-- Tiles of sheaf `m` that wait at a barrier with a participant that stopped fault with BAR_PEER in the next aclk
(R237); each such fault may stop others. -/
def State.peerFaults (m : Nat) : Nat → State → State
  | 0, s => s
  | k + 1, s =>
    match (s.sheaf m).arrivals.find? (s.peerGone m) with
    | none => s
    | some a =>
      let t := s.tile (64 * m + a.pos)
      let s' := s.stopTile (64 * m + a.pos)
        { cause := cBarPeer, dpa := 0, at_ := s.now + 1, issued := a.time, pc := t.pc, op := opOf t.fetch }
      State.peerFaults m k (s'.modSheaf m fun x => { x with arrivals := x.arrivals.filter fun b => decide (b.pos ≠ a.pos) })

/-- A tile faults now at its present instruction (R238), and peers that wait for it with it (R237). -/
def State.tileFault (s : State) (n cause dpa : Nat) : State :=
  let t := s.tile n
  State.peerFaults (n / 64) 64
    (s.stopTile n { cause := cause, dpa := dpa, at_ := s.now, issued := s.now, pc := t.pc, op := opOf t.fetch })

/-- A tile faults now for an operation it issued earlier (R238). -/
def State.opFault (s : State) (n cause dpa : Nat) (o : UnitOp) : State :=
  State.peerFaults (n / 64) 64
    (s.stopTile n { cause := cause, dpa := dpa, at_ := s.now, issued := o.issued, pc := o.pc, op := opOf o.word })

/-! ### Issue and retirement -/

/-- What an instruction does once it issues. -/
inductive Issued where
  /-- it cannot issue yet: the sequencer stalls and nothing happens -/
  | wait
  /-- it faults: nothing of it takes effect -/
  | fault (cause dpa : Nat)
  /-- it retires after `aclk` cycles with its effect, taking a branch to `target` if one is named -/
  | retire (s : State) (aclk : Nat) (target : Option Nat)
  /-- LOOP: it retires in one aclk to a PC with a new loop stack -/
  | jump (s : State) (pc : Nat) (loops : List LoopLevel)
  /-- it issues and does not retire yet (BAR) -/
  | hold (s : State)

/-- Loop levels examined at a body end, innermost first (R253): the back-edge's target, if any, and what stays open. -/
def examineLoops (pc : BitVec 11) : List LoopLevel → Option (BitVec 11) × List LoopLevel
  | [] => (none, [])
  | l :: rest =>
    if l.stop = pc then
      if l.remaining = 0 then examineLoops pc rest
      else (some l.start, { l with remaining := l.remaining - 1 } :: rest)
    else (none, l :: rest)

/-- PC and loop stack after a retirement (R252, R253); none when the PC would advance past the last instruction. -/
def Tile.after (t : Tile) (target : Option Nat) : Option (BitVec 11 × List LoopLevel) :=
  match target with
  | some x => some (BitVec.ofNat 11 x, (t.loops.reverse.dropWhile fun l => decide (l.stop.toNat < x)).reverse)
  | none =>
    match examineLoops t.pc t.loops.reverse with
    | (some start, ls) => some (start, ls.reverse)
    | (none, ls) => if t.lastPc ≤ t.pc.toNat then none else some (t.pc + 1, ls.reverse)

/-- PC and loop stack after a stride wait or END at index x (R253): the back-edge of a level whose body ends there is taken when
the tile next runs, so the PC stands at x + 1 and the levels stay until then. -/
def Tile.afterWait (t : Tile) : Option (BitVec 11 × List LoopLevel) :=
  match t.loops.getLast? with
  | some l => if l.stop = t.pc then some (t.pc + 1, t.loops) else t.after none
  | none => t.after none

/-- PC and loop stack of a tile that runs again after the stride wait at PC − 1 (R253); none when the PC would stand past the
last instruction. -/
def Tile.afterResume (t : Tile) : Option (BitVec 11 × List LoopLevel) :=
  match examineLoops (t.pc - 1) t.loops.reverse with
  | (some start, ls) => some (start, ls.reverse)
  | (none, ls) => if t.lastPc < t.pc.toNat then none else some (t.pc, ls.reverse)

/-- Registers that an operation under way will write (R249). -/
def Tile.pendingRegs (t : Tile) : List Nat :=
  (t.loads.map fun o => match o.kind with
    | .lda => rA (fD o.word)
    | .tld => rT (fD o.word)
    | _ => rS (fD o.word)) ++
  ((t.atomics.filter fun o => bit o.word 26).map fun o => rS (fD o.word)) ++
  ((t.sower.filter fun o => decide (o.kind = .sdraw)).map fun o => rS (fD o.word))

/-- The t registers that the operands of a product name through LINK, which the product reads for the agreement watch (R127,
R229). -/
def Tile.linksOf (t : Tile) (w : BitVec 64) : List Nat :=
  if opOf w = 0x30 then ([t.t (fA w), t.t (fB w)].filter dLinkV).map fun d => rT (dLink d) else []

/-- The registers an instruction of the tile reads or writes (R249). -/
def Tile.usesAt (t : Tile) (w : BitVec 64) : List Nat := usesOf w ++ t.linksOf w

/-- When the registers an instruction names have landed: none while one is written by an operation under way (R249). -/
def Tile.operandsAt (t : Tile) (uses : List Nat) : Option Nat :=
  if uses.any fun r => t.pendingRegs.contains r then none
  else some (t.landing.foldl (fun at_ l => if uses.contains l.1 then max at_ l.2 else at_) 0)

/-- A register whose value lands `k` aclk from now (R249). -/
def Tile.landAt (t : Tile) (r at_ : Nat) : Tile := { t with landing := (t.landing.filter fun l => decide (l.1 ≠ r)) ++ [(r, at_)] }

/-- The branch target of a BR is bad (R233, R252); it is checked whether or not the guard holds (R246). -/
def Tile.badBranch (t : Tile) (w : BitVec 64) : Bool :=
  decide (opOf w = 2) && (decide (bits w 0 11 = 0) || decide (t.lastPc < t.pc.toNat + bits w 0 11))

/-- As `State.retire`, for a stride wait (R253). -/
def State.retireWait (before s : State) (n : Nat) : State :=
  match (before.tile n).afterWait with
  | none => before.tileFault n cBranch 0
  | some (pc, loops) => s.modTile n fun t => { t with pc := pc, loops := loops, nextIssue := s.now + 1 }

/-- The retirement of tile `n`'s instruction, with the effect `s` (R252): the PC moves on, or the tile faults with
TILE_BRANCH and keeps the state `before`. -/
def State.retire (before s : State) (n aclk : Nat) (target : Option Nat) : State :=
  match (before.tile n).after target with
  | none => before.tileFault n cBranch 0
  | some (pc, loops) => s.modTile n fun t => { t with pc := pc, loops := loops, nextIssue := s.now + aclk }

/-- An instruction that names a Martingale entry, by its number or by a descriptor (R65). -/
def Tile.namesEntry (t : Tile) (w : BitVec 64) : Bool :=
  let d := dHasEntry (t.t (fD w))
  let a := dHasEntry (t.t (fA w))
  let b := dHasEntry (t.t (fB w))
  match opOf w with
  | 0x30 => a || b
  | 0x31 => d && bit w 2
  | 0x38 => a || b
  | 0x39 => d
  | 0x40 => d
  | 0x41 => a
  | 0x42 => a
  | 0x43 => a
  | 0x48 => true
  | 0x49 => true
  | 0x4A => true
  | 0x51 => a || b
  | 0x52 => d && !bit w 2
  | _ => false

/-- When an instruction of tile `n` no longer waits for the loads of a paddock switch (R65). -/
def State.entriesReady (s : State) (n : Nat) (w : BitVec 64) : Nat :=
  if (s.tile n).namesEntry w then (s.sheaf (n / 64)).entriesLoaded else 0

/-- The GTC at which the present stride's program window opens (R46). -/
def State.windowStart (s : State) : Nat := s.stride * strideLen + 2000

/-- An instruction of tile `n` with major opcode `op`: it issues in the program window (R46) when the tile runs, its word
carries the opcode and no reserved encoding, its registers have landed, its unit can accept it at a time `ready` gives
(R272), and the watchdog has not passed; its guard decides whether it executes (R234, R245, R246, R249). -/
def State.issueWhen (s : State) (n op : Nat) (ready : State → Tile → BitVec 64 → Option Nat)
    (body : State → Tile → BitVec 64 → Issued) : State :=
  let t := s.tile n
  let w := t.fetch
  let g := guardHolds t.preds w
  if !s.isRunning || decide (t.seqState ≠ .running) || decide (opOf w ≠ op) || reservedWord t.preds w then s
  else
    match t.operandsAt (if g then t.usesAt w else []), if g then ready s t w else some 0 with
    | some at_, some unit =>
      let at_ := max (max (max t.nextIssue at_) (max unit (if g then s.entriesReady n w else 0))) (max s.windowStart s.now)
      if s.stride * strideLen + 1999 + t.budget < at_ then s
      else
        let s1 := s.advanceTo at_
        if t.badBranch w then s1.tileFault n cBranch 0
        else if !g then s1.retire s1 n 1 none
        else
          match body s1 t w with
          | .wait => s
          | .fault cause dpa => s1.tileFault n cause dpa
          | .retire s2 aclk target => s1.retire s2 n aclk target
          | .jump s2 pc loops => s2.modTile n fun t => { t with pc := BitVec.ofNat 11 pc, loops := loops, nextIssue := s2.now + 1 }
          | .hold s2 => s2
    | _, _ => s

/-- As `issueWhen`, for an instruction that needs no unit. -/
def State.issue (s : State) (n op : Nat) (body : State → Tile → BitVec 64 → Issued) : State :=
  s.issueWhen n op (fun _ _ _ => some 0) body

/-- The watchdog count w (R234). -/
def State.watchdog (s : State) : Nat := s.position - 2000

/-- The tile has nothing outstanding that a stride wait waits for (R235). -/
def Tile.quiet (t : Tile) : Bool :=
  t.moves.isEmpty && t.atomics.isEmpty && t.fwa.isEmpty &&
    (t.bwa.all fun o => decide (o.kind = .watchProduct) && decide (bits o.tag 58 2 ≠ 2)) &&
    t.hame.isEmpty && t.chaff.isEmpty && t.sower.isEmpty

/-- A repeat of tile `n` is stopped and discarded: ABANDONED of its activation entry goes up by the products it held
(R128, R284). -/
def State.countAbandoned (s : State) (m e k : Nat) : State :=
  if k = 0 then s else s.modEntry m e fun x => { x with abandoned := satAdd x.abandoned k }

/-- An operation is a sampled repeat, not one of rung 2, whose activation entry satisfies a condition. -/
def UnitOp.sampledRepeat (o : UnitOp) (p : Nat → Bool) : Bool :=
  decide (o.kind = .watchProduct) && decide (bits o.tag 58 2 ≠ 2) && p (bits o.tag 32 8)

/-- The sampled repeats of tile `n` under some entries that are not complete are stopped and discarded, each counted once
(R128, R284); repeats of rung 2 are not (R129), and a complete repeat stays for its comparison. -/
def State.abandonRepeats (s : State) (n : Nat) (p : Nat → Bool) : State :=
  let m := n / 64
  let t := s.tile n
  let s := (t.bwa.filter fun o => o.sampledRepeat p).foldl (fun s o => s.countAbandoned m (bits o.tag 32 8) 1) s
  s.modTile n fun t => { t with bwa := t.bwa.filter fun o => !o.sampledRepeat p }

/-- The index of an operand register: values read at issue (R248). -/
def Tile.opOperands (t : Tile) (w : BitVec 64) : UnitOp :=
  { kind := .fmm, pc := t.pc, word := w, d := t.t (fD w), a := t.t (fA w), b := t.t (fB w),
    x := t.s (fA w), y := t.s (fB w), z := t.s (fC w) }

/-- A tile's local address of an execution unit operation: the phase of the tile's paddock. -/
def State.tilePhase (s : State) (n : Nat) : Phase := s.phase (s.tilePaddock n)

/-- The first operation of a list that satisfies a condition, and the list without it. -/
def takeFirst (p : UnitOp → Bool) : List UnitOp → Option (UnitOp × List UnitOp)
  | [] => none
  | o :: rest =>
    if p o then some (o, rest)
    else match takeFirst p rest with
      | none => none
      | some (x, ys) => some (x, o :: ys)

/-- The list with its first operation that satisfies `p` replaced. -/
def updateFirst (p : UnitOp → Bool) (f : UnitOp → UnitOp) : List UnitOp → List UnitOp
  | [] => []
  | o :: rest => if p o then f o :: rest else o :: updateFirst p f rest

end Sys2Proof.Machine
end

