-- ==== Sys2Proof/Machine/Flags.lean ====
section
/-!
DEFINITION. Machine/Flags.lean: the non-finite flag of a tile (R88, R239), the status field of a reply (R393 to R397) and
the results of scalar arithmetic and comparison (R258, R259).
-/

namespace Sys2Proof.Machine

/-- A non-finite element at a row-major position of an output tile, found when operation `o` of tile `n` completes
(R88): the first position is kept while the flag is set, and one event a stride is raised. -/
def State.nonFinite (s : State) (n : Nat) (o : UnitOp) (position : Nat) : State :=
  let t := s.tile n
  let pos : BitVec 32 := if t.nfFlag then t.nfPos else BitVec.ofNat 32 (min position 0xFFFFFFFF)
  let s' := s.setTile n { t with nfFlag := true, nfPos := pos, nfStride := some s.stride, nfAt := some s.now }
  if t.nfStride = some s.stride then s'
  else s'.raise n evtNumNonfinite (pack 128 [(0, 32, pos.toNat), (32, 11, o.pc.toNat), (48, 8, opOf o.word)])

/-- The first non-finite position of an output, if any, sets the flag. -/
def State.nonFiniteAt (s : State) (n : Nat) (o : UnitOp) : Option Nat → State
  | none => s
  | some p => s.nonFinite n o p

/-- The flag cleared by NFCLR or software (R239): a setting in the same aclk leaves it set (R9). -/
def State.clearNonFinite (s : State) (n : Nat) : State :=
  let t := s.tile n
  if t.nfAt = some s.now then s else s.setTile n { t with nfFlag := false, nfPos := 0 }

/-- The result of ALU and ALUI function `f` (R258); `sel` is p[C] for SEL. -/
def aluResult (f : Nat) (x y : BitVec 32) (sel : Bool) : BitVec 32 :=
  let sh := y.toNat % 32
  match f with
  | 0x00 => x + y
  | 0x01 => x - y
  | 0x02 => x * y
  | 0x03 => BitVec.ofNat 32 (x.toNat * y.toNat / 2 ^ 32)
  | 0x04 => x &&& y
  | 0x05 => x ||| y
  | 0x06 => x ^^^ y
  | 0x07 => x <<< sh
  | 0x08 => x >>> sh
  | 0x09 => x.sshiftRight sh
  | 0x0A => if x.toInt ≤ y.toInt then x else y
  | 0x0B => if x.toInt ≤ y.toInt then y else x
  | 0x0C => if x.toNat ≤ y.toNat then x else y
  | 0x0D => if x.toNat ≤ y.toNat then y else x
  | _ => if sel then x else y

/-- The condition of CMP and CMPI (R259). -/
def cmpResult (f : Nat) (x y : BitVec 32) : Bool :=
  match f with
  | 0 => decide (x = y)
  | 1 => decide (x ≠ y)
  | 2 => decide (x.toInt < y.toInt)
  | 3 => decide (x.toNat < y.toNat)
  | 4 => decide (y.toInt ≤ x.toInt)
  | _ => decide (y.toNat ≤ x.toNat)

end Sys2Proof.Machine
end

