-- ==== Sys2Proof/Machine/ReadReg.lean ====
section
/-!
DEFINITION. Machine/ReadReg.lean: what every register of the map reads as (R8, R10, R490), what a master whose access paddock is
not 0 reads (R435 to R437, R455), and the window of a sheaf that is FAILED or under test (R492).
-/

namespace Sys2Proof.Machine

/-! ### The status field (R344, R350, R373, R397, R458) -/

/-- A port is enabled: by the configuration in force, and not disabled at the end of its module's life (R377). -/
def State.portEnabled (s : State) (n : Nat) : Bool := decide (s.field (.portCtl n) 0 1 = 1) && !(s.port n).ended

/-- LINK of the status field (R373). -/
def State.linkBit (s : State) : Bool :=
  ((List.range 24).any fun n => s.portEnabled n && (decide ((s.port n).state = 3) || decide ((s.port n).state = 0))) ||
    (s.tethers.any fun t => decide (t.2.state = .degraded) || decide (t.2.state = .broken)) ||
    (s.sites.any fun x => decide (x.2.wear ≠ 0))

/-- NUMERIC of the status field (R344, R115). -/
def State.numericBit (s : State) : Bool :=
  paddockNumbers.any fun p =>
    (s.pdk p).frozenHit || (s.pdk p).nonfinHit || (s.pdk p).versionStale || (s.pdk p).replayPending

/-- POWER of the status field (R458). -/
def State.powerBit (s : State) : Bool :=
  decide (s.power.held ≠ 0) || s.power.excursion || decide (s.power.overBits ≠ 0)

/-- THERMAL of the status field (R458). -/
def State.thermalBit (s : State) : Bool := s.power.warn || decide (s.power.derate ≠ 0)

/-- STALE: no non-zero EPOCH committed since reset (R350). -/
def State.staleBit (s : State) : Bool := bit (s.reg .cfgEpoch) 32

/-- MNG_REPLY_STATUS: ATTN is the OR of bits [9:2]; `tenant` leaves out EVT_PENDING and LOG_DROP (R397, R398). -/
def State.replyStatus (s : State) (tenant : Bool) : BitVec 64 :=
  let x : List Bool :=
    [!tenant && decide (s.gleaner.write ≠ s.gleaner.read), s.numericBit, s.linkBit, s.powerBit, s.thermalBit, s.host.security,
     s.host.fault, s.staleBit, !tenant && s.host.logDrop]
  let v := x.zipIdx.foldl (fun v b => if b.1 then v + 2 ^ (b.2 + 1) else v) 0
  pack 64 [(16, 16, s.stride), (0, 16, if 4 ≤ v then v + 1 else v)]

/-! ### Registers of units -/

/-- Encodings of R222. -/
def SeqState.code : SeqState → Nat
  | .idle => 0
  | .running => 1
  | .waiting => 2
  | .barrier => 3
  | .halted => 4
  | .faulted => 5

/-- Encodings of R363. -/
def TetherState.code : TetherState → Nat
  | .closed => 0
  | .opening => 1
  | .formed => 2
  | .degraded => 3
  | .broken => 4

/-- Encodings of R403. -/
def PdkState.code : PdkState → Nat
  | .free => 0
  | .active => 1
  | .releasing => 2

/-- Encodings of PDK_REGION_r.STATE. -/
def RegionState.code : RegionState → Nat
  | .none => 0
  | .owned => 1
  | .scrubbing => 2

/-- Bits of the banks whose tag is not EMPTY. -/
def nonEmpty (tag : Nat → BitVec 64) : Nat :=
  (List.range 4).foldl (fun v q => if tagState (tag q) = 0 then v else v + 2 ^ q) 0

/-- SHF_SEQ_STATE_t. -/
def Tile.seqStateReg (t : Tile) : BitVec 64 :=
  pack 64 [(32, 16, t.ranges.foldl (fun v r => v ||| 2 ^ r.paddock) 0), (16, 11, t.pc.toNat), (0, 3, t.seqState.code)]

/-- SHF_SEQ_FAULT_t. -/
def Tile.seqFaultReg (t : Tile) : BitVec 64 :=
  pack 64 [(47, 17, t.fault.position.toNat), (32, 11, t.fault.pc.toNat), (16, 16, t.fault.strideLo.toNat), (0, 8, t.fault.cause.toNat)]

/-- SHF_CHF_LEN_t_j. -/
def Tile.chfLenReg (t : Tile) (j : Nat) : BitVec 64 := Tbl.get 0 t.lengths (2 * j + 1) ++ Tbl.get 0 t.lengths (2 * j)

/-- A word of a Martingale entry: SHF_MTG_HIST, CTL, STATE, CNT and WATCH (R97, R130). -/
def MtgEntry.word (e : MtgEntry) (w : Nat) : BitVec 64 :=
  match w with
  | 4 => e.ctl
  | 5 => pack 64 [(56, 8, e.tExp.toNat), (48, 8, e.nextT.toNat), (46, 2, e.rung.toNat), (44, 2, e.nextRung.toNat), (40, 4, e.head.toNat),
                  (39, 1, b2n e.isOpen), (36, 3, e.verdict.toNat), (34, 2, e.repeats.toNat), (24, 8, e.cleanRun.toNat)]
  | 6 => pack 64 [(40, 24, e.sat.toNat), (16, 24, e.zero.toNat), (0, 16, e.ovfl.toNat)]
  | 7 => pack 64 [(48, 16, e.zrange.toNat), (32, 16, e.satb.toNat), (16, 16, e.zerob.toNat), (0, 16, e.nonfin.toNat)]
  | 8 => pack 64 [(32, 32, e.samples.toNat), (0, 32, e.elems.toNat)]
  | 9 => pack 64 [(32, 32, e.exceed.toNat), (16, 16, e.maxrel.toNat), (0, 16, e.abandoned.toNat)]
  | 10 => pack 64 [(48, 16, e.lastAmax.toNat), (32, 16, e.lastMinblk.toNat)]
  | _ => pack 64 ((List.range 4).map fun i => (16 * i, 16, (Tbl.get 0 e.hist (4 * w + i)).toNat))

/-- LNK_PORT_STATUS_n. -/
def Port.statusReg (p : Port) : BitVec 64 :=
  pack 64 [(48, 16, p.delayNs.toNat), (32, 8, p.laneMap.toNat), (28, 4, p.laneOk.toNat),
           (16, 10, (p.gait.filter fun e => bit e.2 15).length), (0, 3, p.state.toNat)]

/-- LNK_TETHER_t. -/
def Tether.reg (t : Tether) : BitVec 64 :=
  pack 64 [(48, 16, t.peerChip.toNat), (36, 12, t.peerTether.toNat), (32, 4, t.paddock), (29, 3, t.state.code), (28, 1, b2n t.collective),
           (27, 1, b2n t.isProtected), (24, 3, t.bminM1.toNat), (21, 3, t.boundM1.toNat), (0, 12, t.slots)]

/-- LNK_BRIDLE_STATUS_m. -/
def Site.statusReg (x : Site) : BitVec 64 :=
  pack 64 [(32, 32, x.seconds.toNat), (16, 16, x.ratedH.toNat), (6, 2, x.wear.toNat), (4, 2, x.kind.toNat), (0, 3, x.state.toNat)]

/-- PDK_CTL_p outside PHASE. -/
def State.pdkCtlReg (s : State) (p : Nat) : BitVec 64 :=
  let x := s.pdk p
  pack 64 [(62, 2, x.state.code), (52, 4, x.memEpoch.toNat), (48, 4, x.linkEpoch.toNat), (47, 1, b2n x.sweep),
           (46, 1, b2n x.sealingKey.isSome), (45, 1, b2n x.keyPair.isSome), (32, 10, (s.share p).toNat)]

/-- Admitted, incomplete collectives of paddock `p`. -/
def State.collsOf (s : State) (p : Nat) : Nat := (s.colls.filter fun c => decide (c.paddock = p)).length

/-- A region is being cleared, or a paddock released: R416 and R437 hold. -/
def State.scrubbing (s : State) : Bool :=
  (s.regions.any fun r => decide (r.2.state = .scrubbing)) || paddockNumbers.any fun p => decide ((s.pdk p).state = .releasing)

/-- PWR_STATUS; during a scrub power readings read zero (R416, R436, R437). -/
def State.pwrStatusReg (s : State) : BitVec 64 :=
  let q := s.scrubbing
  pack 64 [(48, 16, s.power.inputMv.toNat), (32, 16, if q then 0 else s.power.strideW.toNat), (20, 12, if q then 0 else s.power.chargeW),
           (9, 9, s.power.heldSheaves.toNat), (0, 9, (s.sheaves.filter fun x => x.2.active).length)]

/-- PWR_THERM. -/
def State.pwrThermReg (s : State) : BitVec 64 :=
  pack 64 [(56, 8, s.power.tjMax.toNat), (48, 8, s.power.hbmMax.toNat), (32, 12, s.power.derate.toNat), (2, 1, b2n s.power.prevTrip),
           (1, 1, b2n (decide (s.power.derate ≠ 0))), (0, 1, b2n s.power.warn)]

/-- A test port enabled by the lifecycle state: BLANK or RETURNED (R426, R508). -/
def State.portEn (s : State) : Bool := s.sec.fuses.lifecycle == 0 || s.sec.fuses.lifecycle == 3

/-- SEC_DEBUG_STATE (R439). -/
def State.debugStateReg (s : State) : BitVec 64 :=
  pack 64 [(32, 16, s.sec.touched.toNat), (7, 1, b2n s.sec.scan), (6, 1, b2n s.sec.halt), (5, 1, b2n s.sec.force),
           (4, 1, b2n s.sec.sramRead), (0, 1, b2n s.portEn)]

/-- BST_BOOT. -/
def State.bstBootReg (s : State) : BitVec 64 :=
  pack 64 [(32, 16, s.boot.failSrc.toNat), (24, 8, s.boot.failCode.toNat), (8, 9, s.boot.failedAtBoot.toNat),
           (2, 1, b2n s.boot.rejectA), (0, 2, s.boot.slot.toNat)]

/-- BST_STATUS. -/
def State.bstStatusReg (s : State) : BitVec 64 :=
  pack 64 [(48, 16, s.boot.passed.toNat), (32, 16, s.boot.failed.toNat),
           (16, 9, (s.boot.jobs.filter fun j => j.started.isNone).length), (0, 4, (s.boot.jobs.filter fun j => j.started.isSome).length)]

/-- Sheaves being self-tested, from the admission of their command on (R470), as a mask. -/
def State.testMask (s : State) : BitVec 400 :=
  s.boot.jobs.foldl (fun v j => withBit v j.sheaf true) 0

/-- Word `w` of a sheaf mask. -/
def maskWord (v : BitVec 400) (w : Nat) : BitVec 64 := BitVec.ofNat 64 (bits v (64 * w) 64)

/-- Redundant columns of sheaf `m` (SHF_REPAIR). -/
def State.repairReg (s : State) (m : Nat) : BitVec 64 :=
  pack 64 [(16, 12, (Tbl.get 0 s.sec.fuses.tsCols m).toNat), (0, 8, (Tbl.get 0 s.sec.fuses.bankCols m).toNat)]

/-- What a register reads, outside its RWS fields, to the operator (R8, R10). -/
def State.unitReg (s : State) (r : Reg) : BitVec 64 :=
  match r with
  | .glbChip => pack 64 [(48, 16, 0x2560), (40, 8, s.sec.fuses.stepping.toNat)]
  | .gtc => s.time.gtc
  | .strideNo => pack 64 [(0, 47, s.stride)]
  | .timeStatus => pack 64 [(32, 16, s.time.offset.toNat), (16, 16, s.time.ignored.toNat),
      (0, 2, match s.time.state with | .acquire => 0 | .locked => 1 | .holdover => 2)]
  | .replyStatus => s.replyStatus false
  | .hostLink => if s.host.up then pack 64 [(8, 1, 1), (4, 4, s.host.width), (0, 3, s.host.rate)] else 0
  | .qHead q => pack 64 [(48, 16, (s.queue q).lateReads.toNat), (32, 1, b2n (s.queue q).phase), (0, 16, (s.queue q).head.toNat)]
  | .sealCtr p => (s.pdk p).sealCtr
  | .ringIdx => s.gleaner.read ++ s.gleaner.write
  | .evtWritten => s.gleaner.written
  | .evtDropped => s.gleaner.dropped
  | .pdkCtl p => s.pdkCtlReg p
  | .sheafMask p w => maskWord (s.mask p) w
  | .region r => pack 64 [(6, 2, (s.region r).state.code), (0, 4, (s.region r).owner.toNat)]
  | .lifecycle => pack 64 [(0, 3, s.sec.fuses.lifecycle)]
  | .secFw => pack 64 [(32, 32, s.sec.fwVersion.toNat), (0, 7, s.sec.fuses.rbMin)]
  | .attIndex => pack 64 [(63, 1, b2n s.sec.attReady), (0, 40, s.sec.attNext.toNat)]
  | .attLimit => pack 64 [(0, 41, s.sec.attLimit.toNat)]
  | .debugState => s.debugStateReg
  | .attPub j => BitVec.ofNat 64 (bits s.sec.fuses.attPub (64 * j) 64)
  | .serial j => BitVec.ofNat 64 (bits s.sec.fuses.serial (64 * j) 64)
  | .pwrStatus => s.pwrStatusReg
  | .pwrTherm => s.pwrThermReg
  | .pwrEnergy => if s.scrubbing then s.power.energySeen else s.power.energy
  | .slack p => pack 64 [(47, 17, (s.pdk p).slack.toNat), (16, 16, (s.pdk p).slackStride.toNat), (0, 5, popCount (s.pdk p).heldBits)]
  | .pdkEnergy p => if s.scrubbing then (s.pdk p).energySeen else (s.pdk p).energy
  | .qEnergy q => if s.scrubbing then Tbl.get 0 s.power.queueSeen q else Tbl.get 0 s.power.queueEnergy q
  | .bstBoot => s.bstBootReg
  | .bstStatus => s.bstStatusReg
  | .sheafTest w => maskWord s.testMask w
  | .sheafFail w => maskWord s.boot.failMask w
  | .hbmStatus k => pack 64 [(8, 2, b2n (bit s.power.refresh k)), (0, 2, 2)]
  | .hbmEcc k => pack 64 [(32, 32, (Tbl.get 0 s.hbmCe k).toNat), (16, 16, (Tbl.get 0 s.hbmUe k).toNat)]
  | .hbmErrAddr k => Tbl.get 0 s.hbmErr k
  | .portStatus n => (s.port n).statusReg
  | .portErr n => pack 64 [(32, 32, (s.port n).fecCorr.toNat), (24, 8, (s.port n).fecUncorr.toNat), (16, 8, (s.port n).tagFail.toNat),
      (0, 16, (s.port n).resent.toNat)]
  | .lnkGait n i => pack 64 [(0, 16, (Tbl.get 0 (s.port n).gait i).toNat)]
  | .fleet => pack 64 [(0, 32, s.sec.fuses.fleetId.toNat)]
  | .tether t => (s.tether t).reg
  | .tetherStat t => pack 64 [(32, 32, (s.tether t).lateCount.toNat), (0, 32, (s.tether t).accepted.toNat)]
  | .tetherSeq t => (s.tether t).nextSeq
  | .bridleStatus m => (s.site m).statusReg
  | .bridleId m j => Tbl.get 0 (s.site m).identity j
  | .wteStatus p => pack 64 [(48, 16, (s.pdk p).lastTag.toNat), (39, 9, s.collsOf p), (2, 1, b2n (s.pdk p).versionStale),
      (1, 1, b2n (s.pdk p).nonfinHit), (0, 1, b2n (s.pdk p).frozenHit)]
  | .wteLatch p => pack 64 [(63, 1, b2n (s.pdk p).latchValid), (0, 28, (s.pdk p).latchedStep.toNat)]
  | .cntA p => (s.pdk p).cNonfinGrad ++ (s.pdk p).cNonfinUpd
  | .cntB p => (s.pdk p).cFrozen ++ (s.pdk p).cHeld
  | .cntC p => pack 64 [(32, 32, (s.pdk p).cStale.toNat), (24, 8, (s.pdk p).cInvalid.toNat), (8, 16, (s.pdk p).cUe.toNat),
      (0, 8, (s.pdk p).cMismatch.toNat)]
  | .mtgStatus p => pack 64 [(48, 16, (s.pdk p).stray.toNat), (32, 16, (s.pdk p).replayCount.toNat), (16, 1, b2n (s.pdk p).replayPending),
      (0, 16, (s.pdk p).widenCount.toNat)]
  | .dbgMemCtl => s.reg .dbgMemCtl ||| pack 64 [(62, 1, b2n s.debugMem.isNone)]
  | .seqState t => (s.tile t).seqStateReg
  | .seqFault t => (s.tile t).seqFaultReg
  | .seqNf t => pack 64 [(32, 1, b2n (s.tile t).nfFlag), (0, 32, (s.tile t).nfPos.toNat)]
  | .seqBudget t => pack 64 [(32, 17, (s.tile t).budgetMax.toNat), (0, 17, (s.tile t).budget)]
  | .fwaBusy t => (s.tile t).fwaBusy
  | .fwaStat t => pack 64 [(32, 32, (s.tile t).fwaProducts.toNat), (8, 24, (s.tile t).fwaOutliers.toNat),
      (0, 4, nonEmpty fun q => ((s.tile t).fwaBank q).tag)]
  | .fwaTag t q => ((s.tile t).fwaBank q).tag
  | .bwaBusy t => (s.tile t).bwaBusy
  | .bwaStat t => pack 64 [(32, 32, (s.tile t).bwaProducts.toNat), (8, 24, (s.tile t).bwaRepeats.toNat),
      (0, 4, nonEmpty fun q => ((s.tile t).bwaBank q).tag)]
  | .bwaTag t q => ((s.tile t).bwaBank q).tag
  | .hnd t => pack 64 [(0, 8, (s.tile t).hand.toNat)]
  | .silageStat m => (s.sheaf m).groups ++ (s.sheaf m).flushed
  | .chfStat t => pack 64 [(32, 32, (s.tile t).chaffIssues.toNat), (0, 32, (s.tile t).chaffTerminated / 64)]
  | .chfChk t => pack 64 [(48, 16, (s.tile t).chaffInvalid.toNat), (32, 16, (s.tile t).chaffClipped.toNat),
      (0, 4, nonEmpty fun q => ((s.tile t).chaffBank q).tag)]
  | .chfLen t j => (s.tile t).chfLenReg j
  | .chfTag t q => ((s.tile t).chaffBank q).tag
  | .tsEcc t => pack 64 [(40, 24, (s.tile t).tsCe.toNat), (24, 16, (s.tile t).tsUe.toNat), (0, 13, (s.tile t).tsLastUe.toNat)]
  | .bankConf m r => Tbl.get 0 (s.sheaf m).conflicts r
  | .bankEcc m => pack 64 [(40, 24, (s.sheaf m).bankCe.toNat), (24, 16, (s.sheaf m).bankUe.toNat), (0, 18, (s.sheaf m).bankLastUe.toNat)]
  | .repair m => s.repairReg m
  | .mtgWord m e w => (s.entry m e).word w
  | r => s.reg r

/-- What a register reads to the operator: RWS fields read their shadow (R8). -/
def State.fullReg (s : State) (r : Reg) : BitVec 64 := (s.unitReg r &&& ~~~r.rws) ||| (s.shadow r &&& r.rws)

/-! ### What tenants see (R435) -/

/-- The paddock that indexes a register. -/
def Reg.paddock? : Reg → Option Nat
  | .sealCtr p | .pdkCtl p | .pdkCtx p | .sheafMask p _ | .sowerSeed p | .sowerStep p | .slack p | .pdkEnergy p => some p
  | .wteBuf p | .wteStatus p | .wteLatch p | .cntA p | .cntB p | .cntC p | .group0 p _ | .group1 p _ => some p
  | .mtgPolicy p | .mtgUcode p | .mtgThresh p | .mtgWatch p | .mtgStatus p => some p
  | _ => none

/-- Registers of the DBG block. -/
def Reg.isDebug : Reg → Bool
  | .dbgMemCtl | .dbgMemData _ | .dbgHalt | .dbgForceAddr | .dbgForceValue => true
  | _ => false

/-- Count fields that tenants read coarsened: low bit and width. -/
def Reg.coarse : Reg → List (Nat × Nat)
  | .portErr _ => [(32, 32), (24, 8), (16, 8), (0, 16)]
  | .tetherStat _ => [(32, 32), (0, 32)]
  | .cntA _ | .cntB _ => [(32, 32), (0, 32)]
  | .cntC _ => [(32, 32), (24, 8), (8, 16), (0, 8)]
  | .seqBudget _ => [(32, 17)]
  | .fwaBusy _ | .bwaBusy _ | .bankConf _ _ => [(0, 64)]
  | .fwaStat _ | .bwaStat _ => [(32, 32), (8, 24)]
  | .chfStat _ => [(32, 32), (0, 32)]
  | .chfChk _ => [(48, 16), (32, 16)]
  | .tsEcc _ | .bankEcc _ => [(40, 24), (24, 16)]
  | .repair _ => [(16, 12), (0, 8)]
  | _ => []

/-- A field coarsened: v − (v mod 2^16). -/
def coarsen (v : BitVec 64) (f : Nat × Nat) : BitVec 64 :=
  setBits v f.1 f.2 (bits v f.1 f.2 - bits v f.1 f.2 % 2 ^ 16)

/-- The register lies in the window of a sheaf that the reader's paddock does not hold alone. -/
def State.foreignWindow (s : State) (p : Nat) (r : Reg) : Bool :=
  match r.sheaf with
  | some m => !decide (s.holders m = [p])
  | none => false

/-- What a register reads to a master with access paddock `p` other than 0 (R435, R436, R455). -/
def State.tenantReg (s : State) (p : Nat) (r : Reg) : BitVec 64 :=
  if (match r.paddock? with | some q => decide (q ≠ p) | none => false) || s.foreignWindow p r || r.isDebug then 0
  else
    match r with
    | .pwrStatus => 0
    | .pwrEnergy => 0
    | .pdkEnergy q => (s.pdk q).energySeen
    | .qEnergy q => Tbl.get 0 s.power.queueSeen q
    | r => r.coarse.foldl coarsen (s.fullReg r)

/-- The window of a FAILED sheaf or of one under test reads zero, but for SHF_REPAIR (R492). -/
def State.windowDark (s : State) (r : Reg) : Bool :=
  match r with
  | .repair _ => false
  | r =>
    match r.sheaf with
    | some m => s.sheafFailed m || s.isolated m
    | none => false

/-- A register as read with access paddock `p` (R435, R490, R492). -/
def State.readReg (s : State) (p : Nat) (r : Reg) : BitVec 64 :=
  if s.windowDark r then 0 else if p = 0 then s.fullReg r else s.tenantReg p r

/-! ### Bytes, register space included -/

/-- One byte as read with access paddock `p`, register space included (R291, R295). -/
def State.readByteAll (s : State) (p a : Nat) : Byte :=
  match s.place a with
  | .reg off =>
    (match Reg.ofOffset (off / 8 * 8) with
     | some r => BitVec.ofNat 8 (bits (s.readReg p r) (8 * (off % 8)) 8)
     | none => 0)
  | _ => s.readByte p a

/-- `n` bytes from `a`, register space included. -/
def State.readBytesAll (s : State) (p a n : Nat) : List Byte := (List.range n).map fun i => s.readByteAll p (a + i)

/-- A register access that is an aligned 32-bit or 64-bit one (R11). -/
def accessOk (offset size : Nat) : Bool := (size == 4 || size == 8) && decide (offset % size = 0)

/-- The value an access of the register space returns (R11, R490); none when it names no register or has a wrong size. -/
def State.accessReg (s : State) (p offset size : Nat) : Option (BitVec 64) :=
  if accessOk offset size then
    (Reg.ofOffset (offset / 8 * 8)).map fun r =>
      let v := s.readReg p r
      if size = 8 then v else BitVec.ofNat 64 (bits v (8 * (offset % 8)) 32)
  else none

end Sys2Proof.Machine
end

