-- ==== Sys2Proof/Machine/RegWrite.lean ====
section
/-!
DEFINITION. Machine/RegWrite.lean: writing a register under its field access types (R8, R9, R12, R490), the Martingale entry
words (R99), the read index of the event ring (R485), and forcing a register (R487, R488).
-/

namespace Sys2Proof.Machine

/-- The bits of `old` that a write leaves, and those it brings. -/
def merge64 (old mask v : BitVec 64) : BitVec 64 := (old &&& ~~~mask) ||| (v &&& mask)

/-- Four HIST values from a register word. -/
def putHist (h : Tbl (BitVec 16)) (w : Nat) (v : BitVec 64) : Tbl (BitVec 16) :=
  (List.range 4).foldl (fun h i => Tbl.put 0 h (4 * w + i) (BitVec.ofNat 16 (bits v (16 * i) 16))) h

/-- Fields of CTL (word 4). -/
def mtgCtlMask : BitVec 64 := fieldMask [(40, 8), (18, 14)]

/-- A write of word `w` of a Martingale entry (R97, R99): ignored while the entry is open; T keeps its value when the
reserved encoding 0x80 is written. -/
def MtgEntry.write (e : MtgEntry) (w : Nat) (mask v : BitVec 64) : MtgEntry :=
  if e.isOpen then e
  else if w < 4 then { e with hist := putHist e.hist w (merge64 (e.word w) mask v) }
  else if w = 4 then { e with ctl := merge64 e.ctl mask v &&& mtgCtlMask }
  else if w = 5 then
    let t := bits (merge64 (e.word 5) mask v) 56 8
    if t = 0x80 then e else { e with tExp := BitVec.ofNat 8 t }
  else e

/-- A write of READ of EVT_RING_IDX (R485): a value outside WRITE − 2^LOG2_SIZE to WRITE leaves it. -/
def State.writeReadIndex (s : State) (v : BitVec 32) : State :=
  let n := 2 ^ s.field .ringCtl 56 5
  if (s.gleaner.write - v).toNat ≤ n then { s with gleaner := { s.gleaner with read := v } } else s

/-- The bits a write of 1 clears: not those the device set in the same aclk (R9). -/
def State.clears (s : State) (r : Reg) (mask v : BitVec 64) : BitVec 64 := v &&& mask &&& ~~~s.deviceBits r

/-- A write of the fields outside RWS, by access type; a GO or REACQUIRE bit does nothing here. -/
def State.writeFields (s : State) (r : Reg) (mask v : BitVec 64) : State :=
  let c := s.clears r mask v
  match r with
  | .timeCtl => s.setReg r ((s.reg r &&& ~~~maskOf 16 1) ||| (merge64 (s.reg r) mask v &&& maskOf 16 1))
  | .gtcLoad => s.setReg r (merge64 (s.reg r) mask v)
  | .commit => s.setReg r ((merge64 (s.reg r) mask v &&& maskOf 0 17) ||| s.deviceBits r)
  | .commitResult => s.setReg r (s.reg r &&& ~~~(c &&& fieldMask [(32, 17), (0, 17)]))
  | .replyStatus =>
    { s with host := { s.host with logDrop := s.host.logDrop && !bit c 9, fault := s.host.fault && !bit c 7,
                                   security := s.host.security && !bit c 6 } }
  | .ringIdx => if bit mask 32 then s.writeReadIndex (BitVec.ofNat 32 (bits v 32 32)) else s
  | .hbmErrAddr k => if bit c 63 then { s with hbmErr := Tbl.modify 0 s.hbmErr k fun x => x &&& ~~~maskOf 63 1 } else s
  | .wteStatus p => s.modPdk p fun x => { x with versionStale := x.versionStale && !bit c 2, nonfinHit := x.nonfinHit && !bit c 1,
                                                  frozenHit := x.frozenHit && !bit c 0 }
  | .group0 _ _ => s.setReg r (merge64 (s.reg r) mask v)
  | .group1 _ _ => s.setReg r (merge64 (s.reg r) mask v &&& maskOf 0 17)
  | .mtgStatus p =>
    s.modPdk p fun x => { x with
      replayCount := if bit mask 32 then BitVec.ofNat 16 (bits v 32 16) else x.replayCount,
      replayPending := x.replayPending && !bit c 16 }
  | .dbgMemCtl => s.setReg r (merge64 (s.reg r) mask v &&& fieldMask [(61, 1), (56, 4), (0, 48)])
  | .dbgMemData _ => s.setReg r (merge64 (s.reg r) mask v)
  | .dbgHalt => s.setReg r (merge64 (s.reg r) mask v &&& maskOf 0 15)
  | .dbgForceAddr => s.setReg r (merge64 (s.reg r) mask v &&& maskOf 0 27)
  | .dbgForceValue => s.setReg r (merge64 (s.reg r) mask v)
  | .seqNf t => if bit (v &&& mask) 32 then s.clearNonFinite t else s
  | .seqBudget t => if bits c 32 17 ≠ 0 then s.modTile t fun x => { x with budgetMax := 0 } else s
  | .mtgWord m e w => s.modEntry m e fun x => x.write w mask v
  | _ => s

/-- A write of a register's RWS fields: the halves combine in one shadow (R8, R12). What a CAP_WRITE set in the same aclk stays
(R504). -/
def State.writeShadow (s : State) (r : Reg) (mask v : BitVec 64) : State :=
  let mask := mask &&& ~~~s.deviceBits r
  if r.rws &&& mask = 0 then s else s.setShadow r (merge64 (s.shadow r) mask v)

/-- Bits of a register as the device updates them: those the host has written in this aclk stay (R9). -/
def State.deviceUpdate (s : State) (r : Reg) (v : BitVec 64) : BitVec 64 := merge64 v (s.hostBits r) (s.reg r)

/-- A Martingale entry as the device updates it: in the RW fields of its words, what the host has written in this aclk stays
(R9). -/
def State.keepWritten (s : State) (m e : Nat) (old new : MtgEntry) : MtgEntry :=
  let h (w : Nat) : BitVec 64 := s.hostBits (.mtgWord m e w)
  if (List.range 6).all fun w => decide (h w = 0) then new
  else
    { new with
      hist := (List.range 4).foldl (fun t w => putHist t w (merge64 (new.word w) (h w) (old.word w))) new.hist,
      ctl := merge64 new.ctl (h 4) old.ctl,
      tExp := if bits (h 5) 56 8 ≠ 0 then old.tExp else new.tExp }

/-- A register written, with no behaviour of its own: dropped in the window of a FAILED sheaf or one under test (R492). -/
def State.writePlain (s : State) (r : Reg) (mask v : BitVec 64) : State :=
  if s.windowDark r then s else ((s.writeFields r mask v).writeShadow r mask v).noteHost r mask

/-! ### FORCE (R487, R488) -/

/-- The paddocks that own what a sheaf holds: the one it runs, or those whose masks include it, or the operator. -/
def State.sheafPaddocks (s : State) (m : Nat) : List Nat :=
  match s.runs m with
  | some p => [p]
  | none => if (s.holders m).isEmpty then [0] else s.holders m

/-- A use of debug path `path` on some paddocks (R439): TOUCHED, and EVT_DEBUG_USE once a path, paddock and stride. -/
def State.debugUse (s : State) (path : Nat) (ps : List Nat) : State :=
  ps.foldl (fun s p =>
    let s := { s with sec := { s.sec with touched := withBit s.sec.touched p true } }
    if bit (s.pdk p).debugUsed path then s
    else (s.modPdk p fun x => { x with debugUsed := withBit x.debugUsed path true }).raise srcFarrier evtDebugUse
      (pack 128 [(0, 4, p), (4, 2, path)])) s

/-- Registers of the SEC block. -/
def Reg.isSec : Reg → Bool
  | .lifecycle | .secFw | .attIndex | .attLimit | .debugState | .attPub _ | .serial _ => true
  | _ => false

/-- Encodings of R222 read back. -/
def SeqState.ofCode (n : Nat) : SeqState :=
  match n with
  | 1 => .running
  | 2 => .waiting
  | 3 => .barrier
  | 4 => .halted
  | 5 => .faulted
  | _ => .idle

/-- Fields of a Martingale entry from the value of word `w`. -/
def MtgEntry.force (e : MtgEntry) (w : Nat) (v : BitVec 64) : MtgEntry :=
  let f (lo n k : Nat) : BitVec n := BitVec.ofNat n (bits v lo k)
  match w with
  | 4 => { e with ctl := v &&& mtgCtlMask }
  | 5 => { e with tExp := f 56 8 8, nextT := f 48 8 8, rung := f 46 2 2, nextRung := f 44 2 2, head := f 40 4 4, isOpen := bit v 39,
                  verdict := f 36 3 3, repeats := f 34 2 2, cleanRun := f 24 8 8 }
  | 6 => { e with sat := f 40 24 24, zero := f 16 24 24, ovfl := f 0 16 16 }
  | 7 => { e with zrange := f 48 16 16, satb := f 32 16 16, zerob := f 16 16 16, nonfin := f 0 16 16 }
  | 8 => { e with samples := f 32 32 32, elems := f 0 32 32 }
  | 9 => { e with exceed := f 32 32 32, maxrel := f 16 16 16, abandoned := f 0 16 16 }
  | 10 => { e with lastAmax := f 48 16 16, lastMinblk := f 32 16 16 }
  | _ => { e with hist := putHist e.hist w v }

/-- Tile registers forced. -/
def Tile.force (t : Tile) (r : Reg) (v : BitVec 64) : Tile :=
  let f (lo n k : Nat) : BitVec n := BitVec.ofNat n (bits v lo k)
  match r with
  | .seqState _ => { t with pc := f 16 11 11, seqState := SeqState.ofCode (bits v 0 3) }
  | .seqFault _ => { t with fault := { position := f 47 17 17, pc := f 32 11 11, strideLo := f 16 16 16, cause := f 0 8 8 } }
  | .seqNf _ => { t with nfFlag := bit v 32, nfPos := f 0 32 32 }
  | .seqBudget _ => { t with budgetMax := f 32 17 17 }
  | .fwaBusy _ => { t with fwaBusy := v }
  | .fwaStat _ => { t with fwaProducts := f 32 32 32, fwaOutliers := f 8 24 24 }
  | .fwaTag _ q => t.setFwaBank q { t.fwaBank q with tag := v &&& ~~~fieldMask [(56, 2), (0, 14)] }
  | .bwaBusy _ => { t with bwaBusy := v }
  | .bwaStat _ => { t with bwaProducts := f 32 32 32, bwaRepeats := f 8 24 24 }
  | .bwaTag _ q => t.setBwaBank q { t.bwaBank q with tag := v &&& ~~~fieldMask [(56, 3), (0, 22)] }
  | .hnd _ => { t with hand := f 0 8 8 }
  | .chfStat _ => { t with chaffIssues := f 32 32 32, chaffTerminated := 64 * bits v 0 32 }
  | .chfChk _ => { t with chaffInvalid := f 48 16 16, chaffClipped := f 32 16 16 }
  | .chfLen _ j => { t with lengths := Tbl.put 0 (Tbl.put 0 t.lengths (2 * j) (f 0 32 32)) (2 * j + 1) (f 32 32 32) }
  | .chfTag _ q => t.setChaffBank q { t.chaffBank q with tag := v &&& ~~~maskOf 32 4 }
  | .tsEcc _ => { t with tsCe := f 40 24 24, tsUe := f 24 16 16, tsLastUe := f 0 13 13 }
  | _ => t

/-- Sheaf registers forced. -/
def Sheaf.force (x : Sheaf) (r : Reg) (v : BitVec 64) : Sheaf :=
  let f (lo n k : Nat) : BitVec n := BitVec.ofNat n (bits v lo k)
  match r with
  | .silageStat _ => { x with groups := f 32 32 32, flushed := f 0 32 32 }
  | .bankConf _ i => { x with conflicts := Tbl.put 0 x.conflicts i v }
  | .bankEcc _ => { x with bankCe := f 40 24 24, bankUe := f 24 16 16, bankLastUe := f 0 18 18 }
  | .mtgWord _ e w => { x with entries := Tbl.modify {} x.entries e fun y => y.force w v }
  | _ => x

/-- Registers indexed by a paddock forced. -/
def Paddock.force (x : Paddock) (r : Reg) (v : BitVec 64) : Paddock :=
  let f (lo n k : Nat) : BitVec n := BitVec.ofNat n (bits v lo k)
  match r with
  | .sealCtr _ => { x with sealCtr := v }
  | .pdkCtl _ => { x with memEpoch := f 52 4 4, linkEpoch := f 48 4 4, sweep := bit v 47,
                          state := if bits v 62 2 = 1 then .active else if bits v 62 2 = 2 then .releasing else .free }
  | .slack _ => { x with slack := f 47 17 17, slackStride := f 16 16 16 }
  | .pdkEnergy _ => { x with energy := v }
  | .wteStatus _ => { x with lastTag := f 48 16 16, versionStale := bit v 2, nonfinHit := bit v 1, frozenHit := bit v 0 }
  | .wteLatch _ => { x with latchValid := bit v 63, latchedStep := f 0 28 28 }
  | .cntA _ => { x with cNonfinGrad := f 32 32 32, cNonfinUpd := f 0 32 32 }
  | .cntB _ => { x with cFrozen := f 32 32 32, cHeld := f 0 32 32 }
  | .cntC _ => { x with cStale := f 32 32 32, cInvalid := f 24 8 8, cUe := f 8 16 16, cMismatch := f 0 8 8 }
  | .mtgStatus _ => { x with stray := f 48 16 16, replayCount := f 32 16 16, replayPending := bit v 16, widenCount := f 0 16 16 }
  | _ => x

/-- Word `w` of a sheaf mask replaced. -/
def withMaskWord (m : BitVec 400) (w : Nat) (v : BitVec 64) : BitVec 400 := setBits m (64 * w) 64 v.toNat

/-- Registers of the other blocks forced; a field that is derived from other state keeps following that state, and a fuse
field is not written (R488). -/
def State.forceUnit (s : State) (r : Reg) (v : BitVec 64) : State :=
  let f (lo n k : Nat) : BitVec n := BitVec.ofNat n (bits v lo k)
  match r with
  | .gtc => { s with time := { s.time with gtc := v } }
  | .timeStatus => { s with time := { s.time with
      offset := f 32 16 16, ignored := f 16 16 16,
      state := if bits v 0 2 = 0 then .acquire else if bits v 0 2 = 2 then .holdover else .locked } }
  | .replyStatus => { s with host := { s.host with logDrop := bit v 9, fault := bit v 7, security := bit v 6 } }
  | .qHead q => s.modQueue q fun x => { x with lateReads := f 48 16 16, phase := bit v 32, head := f 0 16 16 }
  | .ringIdx => { s with gleaner := { s.gleaner with read := f 32 32 32, write := f 0 32 32 } }
  | .evtWritten => { s with gleaner := { s.gleaner with written := v } }
  | .evtDropped => { s with gleaner := { s.gleaner with dropped := v } }
  | .sheafMask p w => s.setMask p (withMaskWord (s.mask p) w v)
  | .region i => s.setRegion i { state := if bits v 6 2 = 1 then .owned else if bits v 6 2 = 2 then .scrubbing else .none, owner := f 0 4 4 }
  | .pwrStatus => { s with power := { s.power with inputMv := f 48 16 16, strideW := f 32 16 16, chargeW := bits v 20 12, heldSheaves := f 9 9 9 } }
  | .pwrTherm => { s with power := { s.power with tjMax := f 56 8 8, hbmMax := f 48 8 8, derate := f 32 12 12, warn := bit v 0 } }
  | .pwrEnergy => { s with power := { s.power with energy := v } }
  | .qEnergy q => { s with power := { s.power with queueEnergy := Tbl.put 0 s.power.queueEnergy q v } }
  | .bstBoot => { s with boot := { s.boot with failSrc := f 32 16 16, failCode := f 24 8 8, failedAtBoot := f 8 9 9, rejectA := bit v 2, slot := f 0 2 2 } }
  | .bstStatus => { s with boot := { s.boot with passed := f 48 16 16, failed := f 32 16 16 } }
  | .sheafFail w => { s with boot := { s.boot with failMask := withMaskWord s.boot.failMask w v } }
  | .hbmStatus k => { s with power := { s.power with refresh := withBit s.power.refresh k (decide (bits v 8 2 = 1)) } }
  | .hbmEcc k => { s with hbmCe := Tbl.put 0 s.hbmCe k (f 32 32 32), hbmUe := Tbl.put 0 s.hbmUe k (f 16 16 16) }
  | .hbmErrAddr k => { s with hbmErr := Tbl.put 0 s.hbmErr k (v &&& fieldMask [(63, 1), (6, 33)]) }
  | .portStatus n => s.modPort n fun x => { x with delayNs := f 48 16 16, laneMap := f 32 8 8, laneOk := f 28 4 4, state := f 0 3 3 }
  | .portErr n => s.modPort n fun x => { x with fecCorr := f 32 32 32, fecUncorr := f 24 8 8, tagFail := f 16 8 8, resent := f 0 16 16 }
  | .lnkGait n i => s.modPort n fun x => { x with gait := Tbl.put 0 x.gait i (f 0 16 16 &&& 0xCFFF) }
  | .tether t => s.modTether t fun x => { x with
      peerChip := f 48 16 16, peerTether := f 36 12 12, paddock := bits v 32 4, collective := bit v 28, isProtected := bit v 27,
      state := (match bits v 29 3 with | 1 => .opening | 2 => .formed | 3 => .degraded | 4 => .broken | _ => .closed),
      bminM1 := f 24 3 3, boundM1 := f 21 3 3, slots := bits v 0 12 }
  | .tetherStat t => s.modTether t fun x => { x with lateCount := f 32 32 32, accepted := f 0 32 32 }
  | .tetherSeq t => s.modTether t fun x => { x with nextSeq := v }
  | .bridleStatus m => s.modSite m fun x => { x with seconds := f 32 32 32, ratedH := f 16 16 16, wear := f 6 2 2, kind := f 4 2 2, state := f 0 3 3 }
  | .bridleId m j => s.modSite m fun x => { x with identity := Tbl.put 0 x.identity j v }
  | .pdkCtl p => { s.modPdk p (fun x => x.force r v) with shares := Tbl.put 0 s.shares p (f 32 10 10) }
  | .cfgEpoch => s.setReg r (v &&& maskOf 0 33)
  | .timeCtl => s.setReg r (v &&& fieldMask [(16, 1), (8, 5), (0, 2)])
  | .gtcLoad | .group0 _ _ => s.setReg r v
  | .commit => s.setReg r (v &&& maskOf 0 17)
  | .commitResult => s.setReg r (v &&& fieldMask [(56, 8), (32, 17), (0, 17)])
  | .group1 _ _ => s.setReg r (v &&& maskOf 0 17)
  | r =>
    match r.paddock? with
    | some p => s.modPdk p fun x => x.force r v
    | none => s

/-- A register forced in force and shadow, whatever its access types, unless the SEC or DBG block holds it or its window
is dark (R487, R488, R492). -/
def State.forceReg (s : State) (r : Reg) (v : BitVec 64) : State :=
  if r.isSec || r.isDebug || s.windowDark r then s
  else
    let s := match r.sheaf with
      | some m => (match r with
        | .silageStat _ | .bankConf _ _ | .bankEcc _ | .mtgWord _ _ _ => s.modSheaf m fun x => x.force r v
        | .seqState t | .seqFault t | .seqNf t | .seqBudget t | .fwaBusy t | .fwaStat t | .fwaTag t _ | .bwaBusy t | .bwaStat t
        | .bwaTag t _ | .hnd t | .chfStat t | .chfChk t | .chfLen t _ | .chfTag t _ | .tsEcc t => s.modTile t fun x => x.force r v
        | _ => s)
      | none => s.forceUnit r v
    if r.rws = 0 then s
    else (s.setReg r (merge64 (s.reg r) r.rws v)).setShadow r (v &&& r.rws)

/-- The paddocks a register indexes, or whose sheaf window holds it, else paddock 0 (R487). -/
def State.regPaddocks (s : State) (r : Reg) : List Nat :=
  match r.paddock?, r.sheaf with
  | some p, _ => [p]
  | none, some m => if (s.holders m).isEmpty then [0] else s.holders m
  | none, none => [0]

end Sys2Proof.Machine
end

