-- ==== Sys2Proof/Machine/Moves.lean ====
section
/-!
DEFINITION. Machine/Moves.lean: moves and atomics (R231, R250, R265 to R270, R176, R178, R292, R299).
-/

namespace Sys2Proof.Machine

/-- A piece of a move: source, destination and length in bytes. -/
structure Segment where
  src : Nat
  dst : Nat
  len : Nat
  deriving DecidableEq, Repr

/-- The source bytes of a move. -/
def sources (gs : List Segment) : List (Nat × Nat) := gs.map fun g => (g.src, g.len)
/-- The destination bytes of a move. -/
def targets (gs : List Segment) : List (Nat × Nat) := gs.map fun g => (g.dst, g.len)

/-- The scale, outlier and trouble planes that a MOVT with F[1] = 1 copies, both layouts with tA's flags (R266). -/
def planeSegments (d a : BitVec 256) : List Segment :=
  let f := dFormat a
  if !isScaled f then []
  else
    let d := setBits (setBits d 128 21 (dExt0 a)) 149 21 (dExt1 a)
    [{ src := dScale a, dst := dScale d, len := scaleBytes f (dExt0 a) (dExt1 a) }] ++
      (if dOutlier a then [{ src := outlierAt a f, dst := outlierAt d f, len := outlierBytes a }] else []) ++
      (if dTrouble a then [{ src := troubleAt a f (dOutlier a), dst := troubleAt d f (dOutlier a), len := troubleBytes a f }] else [])

/-- The rows of a MOVT, and its planes (R266). -/
def tensorSegments (w : BitVec 64) (d a : BitVec 256) : List Segment :=
  let n := rowBytes (dFormat a) (dExt0 a) (bit w 24)
  ((List.range (dExt1 a)).map fun r => { src := rowAt a r, dst := rowAt d r, len := n }) ++
    (if bit w 25 then planeSegments d a else [])

/-- The pieces of a move under way: `d` and `a` are two DPAs and `y` a length (MOVB), or two descriptors (MOVT). -/
def UnitOp.segments (o : UnitOp) : List Segment :=
  if o.kind = .movt then tensorSegments o.word o.d o.a
  else [{ src := o.a.toNat, dst := o.d.toNat, len := o.y.toNat }]

/-- Addresses at which the kind of place or its reach can change within a range: every 64 bytes, or every 8 in the
register space. -/
def probes (r : Nat × Nat) : List Nat :=
  if r.2 = 0 then []
  else
    let step := if regBase ≤ r.1 + r.2 ∧ r.1 < regBase + 0x4900000 then 8 else 64
    r.1 :: (List.range ((r.1 + r.2 - 1) / step - r.1 / step)).map fun i => (r.1 / step + 1 + i) * step

/-- The lowest address of some ranges at which a condition fails. -/
def lowestFailing (ok : Nat → Bool) (ranges : List (Nat × Nat)) : Option Nat :=
  (ranges.filterMap fun r => (probes r).find? fun a => !ok a).foldl
    (fun acc a => match acc with | none => some a | some b => some (min a b)) none

/-- The lowest address in both of two ranges. -/
def overlapOf (x y : Nat × Nat) : Option Nat :=
  if x.1 < y.1 + y.2 ∧ y.1 < x.1 + x.2 ∧ x.2 ≠ 0 ∧ y.2 ≠ 0 then some (max x.1 y.1) else none

/-- The lowest address that is both source and destination of a move. -/
def moveOverlap (gs : List Segment) : Option Nat :=
  ((sources gs).flatMap fun x => (targets gs).filterMap (overlapOf x)).foldl
    (fun acc a => match acc with | none => some a | some b => some (min a b)) none

/-- Whether every byte of the 64-byte group at `a` lies in one of the ranges. -/
def groupCovered (ranges : List (Nat × Nat)) (a : Nat) : Bool :=
  (List.range 64).all fun i => ranges.any fun r => decide (r.1 ≤ a + i) && decide (a + i < r.1 + r.2)

/-- The lowest byte of a destination in an SLG12 group that the move does not cover whole (R178). -/
def State.partialTarget (s : State) (ranges : List (Nat × Nat)) : Option Nat :=
  lowestFailing (fun a => match s.place a with
    | .silageGroup _ _ _ => groupCovered ranges (a / 64 * 64)
    | _ => true) ranges

/-- What stops a move or a conversion at issue (R176, R178, R292): a byte that is unbacked, one in the refused Silage
region, or a Silage group written in part; cause and lowest such address. -/
def State.reachFault (s : State) (p : Nat) (srcs dsts : List (Nat × Nat)) : Option (Nat × Nat) :=
  let worst (r : Reach) : Option Nat :=
    let x := lowestFailing (fun a => decide (s.reach p a false false ≠ r)) srcs
    let y := lowestFailing (fun a => decide (s.reach p a true false ≠ r)) dsts
    match x, y with
    | some a, some b => some (min a b)
    | some a, none => some a
    | none, y => y
  match worst .unbacked with
  | some a => some (cMovAddr, a)
  | none =>
    match worst .silage with
    | some a => some (cSlgAccess, a)
    | none => (s.partialTarget dsts).map fun a => (cSlgPartial, a)

/-- Moves and atomics outstanding: at most 16 (R250). -/
def Tile.moveRoom (t : Tile) : Bool := decide (t.moves.length + t.atomics.length < 16)

/-- A move begins, unless its bytes overlap or are not reached (R265, R266, R292). -/
def State.beginMove (s : State) (n : Nat) (o : UnitOp) : Issued :=
  let gs := o.segments
  match moveOverlap gs with
  | some a => .fault cMovAddr a
  | none =>
    match s.reachFault (s.tilePaddock n) (sources gs) (targets gs) with
    | some (cause, a) => .fault cause a
    | none => .retire (s.modTile n fun t => { t with moves := t.moves ++ [o] }) 1 none

/-- MOVB (R265). -/
def movbBody (n : Nat) (s : State) (t : Tile) (w : BitVec 64) : Issued :=
  if !t.moveRoom then .wait
  else
    let d := (t.a (fD w)).toNat
    let a := (t.a (fA w)).toNat
    let len := t.s (fB w)
    if d % 32 ≠ 0 ∨ a % 32 ≠ 0 ∨ len.toNat % 32 ≠ 0 then .fault cAlign 0
    else if len = 0 then .retire s 1 none
    else s.beginMove n { kind := .movb, pc := t.pc, word := w, d := BitVec.ofNat 256 d, a := BitVec.ofNat 256 a, y := len,
                         issued := s.now, started := some s.now }

/-- MOVB. -/
def execMovb (n : Nat) (s : State) : Host.Outcome State Fault Refusal := .next (s.issue n 0x28 (movbBody n))

/-- The descriptor checks of a MOVT (R228, R266): tA, then tD, then their formats against each other.  A move uses the
format field itself (R98 names conversions and products). -/
def State.movtFault (s : State) (m : Nat) (w : BitVec 64) (d a : BitVec 256) : Option Nat :=
  match s.descFault m a (dFormat a) (fun _ => true) (bit w 24) false with
  | some c => some c
  | none =>
    match s.descFault m d (dFormat d) (fun _ => true) (bit w 24) false with
    | some c => some c
    | none => if dFormat d ≠ dFormat a then some cDescFormat else none

/-- MOVT (R266). -/
def movtBody (n : Nat) (s : State) (t : Tile) (w : BitVec 64) : Issued :=
  if !t.moveRoom then .wait
  else
    let d := t.t (fD w)
    let a := t.t (fA w)
    match s.movtFault (n / 64) w d a with
    | some c => .fault c 0
    | none =>
      if dExt0 a = 0 ∨ dExt1 a = 0 then .retire s 1 none
      else s.beginMove n { kind := .movt, pc := t.pc, word := w, d := d, a := a, issued := s.now, started := some s.now }

/-- MOVT. -/
def execMovt (n : Nat) (s : State) : Host.Outcome State Fault Refusal := .next (s.issue n 0x29 (movtBody n))

/-- The mesh port a byte is reached through (R24): the tile stores and banks of a sheaf share its port. -/
inductive MeshPort where
  | stack (k : Nat)
  | sheaf (m : Nat)
  | reg
  | host
  deriving DecidableEq, Repr

/-- The port of an address. -/
def State.meshPort (s : State) (a : Nat) : MeshPort :=
  match s.place a with
  | .hbm u => .stack (stackOf u)
  | .store t _ => .sheaf (t / 64)
  | .bank m _ => .sheaf m
  | .silageRefused m => .sheaf m
  | .silageRaw m _ => .sheaf m
  | .silageGroup m _ _ => .sheaf m
  | .reg _ => .reg
  | .host => .host
  | .none => .host

/-- The source and destination ports of the messages of a segment: each 32-byte part lies behind one port at either end. -/
def State.segmentPorts (s : State) (g : Segment) : List (MeshPort × MeshPort) :=
  ((List.range (ceilDiv g.len 32)).map fun i => (s.meshPort (g.src + 32 * i), s.meshPort (g.dst + 32 * i))).eraseDups

/-- The port pairs of an operation of tile `n`: an atomic goes from the tile's sheaf to the bank's (R24, R231). -/
def State.opPorts (s : State) (n : Nat) (o : UnitOp) : List (MeshPort × MeshPort) :=
  if o.kind = .atom then [(.sheaf (n / 64), s.meshPort o.a.toNat)] else o.segments.flatMap s.segmentPorts

/-- Whether an outstanding operation of tile `n` was issued before another and shares a source and destination port with it: it
completes first (R24, R231, R267). -/
def State.precedes (s : State) (n : Nat) (e o : UnitOp) : Bool :=
  decide (e.issued < o.issued) && (s.opPorts n e).any fun x => (s.opPorts n o).contains x

/-- An outstanding move or atomic of tile `n` completes before another. -/
def State.mustWait (s : State) (n : Nat) (o : UnitOp) : Bool :=
  ((s.tile n).moves ++ (s.tile n).atomics).any fun e => s.precedes n e o

/-- The source bytes of a move read in order up to the first unreadable unit (R299): the destination address of its first
byte, and the DPA of the word. -/
def State.readSegments (s : State) : List Segment → State × Option (Nat × Nat)
  | [] => (s, none)
  | g :: rest =>
    match s.checkSource g.src g.len with
    | (s, some (a, w)) => (s, some (g.dst + (a - g.src), w))
    | (s, none) => s.readSegments rest

/-- The bytes of a move, each with its destination, in order. -/
def State.moveBytes (s : State) (p : Nat) (gs : List Segment) : List (Nat × List Byte) :=
  gs.map fun g => (g.dst, s.readBytesAll p g.src g.len)

/-- Bytes gathered in aligned 64-byte units: each unit's own bytes as they lie, written in one piece (R267). -/
def unitPieces (parts : List (Nat × List Byte)) : List (Nat × List Byte) :=
  let cut := parts.flatMap fun p => cutUnits (p.2.length / 64 + 2) p.1 p.2
  let whole (u : Nat) : List (Nat × Byte) := (cut.filter fun c => decide (c.1 / 64 = u)).flatMap fun c =>
    c.2.zipIdx.map fun b => (c.1 + b.2, b.1)
  let units := (cut.map fun c => c.1 / 64).eraseDups
  units.flatMap fun u =>
    let bs := whole u
    if (List.range 64).all fun i => bs.any fun b => decide (b.1 = 64 * u + i) then
      [(64 * u, (List.range 64).map fun i => ((bs.reverse.find? fun b => decide (b.1 = 64 * u + i)).map Prod.snd).getD 0)]
    else (cut.filter fun c => decide (c.1 / 64 = u))

/-- Units written in order. -/
def State.writePieces (s : State) (p : Nat) (pieces : List (Nat × List Byte)) : State :=
  pieces.foldl (fun s c => s.writeChunk p c.1 c.2 false) s

/-- The parts of a move before a destination address, in the order of the move: nothing at or after the 64-byte unit of
that address. -/
def partsBefore (dst : Nat) : List (Nat × List Byte) → List (Nat × List Byte)
  | [] => []
  | p :: rest =>
    if p.1 ≤ dst ∧ dst < p.1 + p.2.length then [(p.1, p.2.take (dst / 64 * 64 - p.1))]
    else p :: partsBefore dst rest

/-- The pieces that a failed operation writes: those before the first unreadable byte in its order, and none in the 64-byte
destination unit of that byte (R299). -/
def piecesBefore (dst : Nat) (parts : List (Nat × List Byte)) : List (Nat × List Byte) :=
  (unitPieces (partsBefore dst parts)).filter fun c => decide (c.1 / 64 ≠ dst / 64)

/-- The pieces of operation `o` of tile `n` are written in order.  A write of part of an uncorrectable HBM unit fails the
operation: the tile faults with MOV_ADDR and nothing after it is written (R231, R309). -/
def State.deliver (s : State) (n : Nat) (o : UnitOp) (p : Nat) (pieces : List (Nat × List Byte)) : State :=
  match pieces.findIdx? fun c => s.writeFails p c.1 c.2 with
  | none => s.writePieces p pieces
  | some i => (s.writePieces p (pieces.take (i + 1))).opFault n cMovAddr ((pieces.getD i (0, [])).1 / 64 * 64) o

/-- The lowest address of host memory that a move names while the host link is down, when it cannot be reached (R473). -/
def State.hostCut (s : State) (o : UnitOp) : Option Nat :=
  if s.host.up then none else ((o.segments.flatMap fun g => [g.src, g.dst]).filter fun a => decide (hostBase ≤ a)).min?

/-- A move makes its accesses (R267, R299): all of it, or what lies before its first unreadable unit, which faults the
tile with MOV_ADDR.  One to or from host memory that cannot be reached fails whole (R473). -/
def State.performMove (s : State) (n : Nat) (o : UnitOp) : State :=
  match s.hostCut o with
  | some a => s.opFault n cMovAddr a o
  | none =>
    let p := s.tilePaddock n
    let (s, bad) := s.readSegments o.segments
    let parts := s.moveBytes p o.segments
    match bad with
    | none => s.deliver n o p (unitPieces parts)
    | some (dst, w) => (s.deliver n o p (piecesBefore dst parts)).opFault n cMovAddr w o

/-- Outstanding move `i` of tile `n` completes, unless an earlier move or atomic between the same ports is still outstanding
(R24). -/
def State.completeMove (s : State) (n i : Nat) : State :=
  match (s.tile n).moves[i]? with
  | none => s
  | some o =>
    if s.mustWait n o then s
    else (s.modTile n fun t => { t with moves := listDrop t.moves i }).performMove n o

/-- MOVE_COMPLETE. -/
def execMoveComplete (n i : Nat) (env : Env) (s : State) : Host.Outcome State Fault Refusal :=
  .next (s.whenRunning fun s => (s.takeEnv env).completeMove n i)

/-- Bytes an atomic works on (R268). -/
def atomSize (w : BitVec 64) : Nat := if bit w 24 then 2 else 4

/-- What stops an atomic at issue (R269). -/
def State.atomFault (s : State) (n : Nat) (w : BitVec 64) (a : Nat) : Option (Nat × Nat) :=
  if a % atomSize w ≠ 0 then some (cAlign, 0)
  else match s.place a with
    | .silageRefused _ => some (cSlgAccess, a)
    | .silageRaw _ _ => some (cSlgAccess, a)
    | .silageGroup _ _ _ => some (cSlgAccess, a)
    | .bank m _ => if s.sramOwner m = some (s.tilePaddock n) then none else some (cMovAddr, a)
    | _ => some (cMovAddr, a)

/-- ATOM (R268, R269). -/
def atomBody (n : Nat) (s : State) (t : Tile) (w : BitVec 64) : Issued :=
  if !t.moveRoom then .wait
  else
    let a := (t.a (fA w)).toNat
    match s.atomFault n w a with
    | some (cause, dpa) => .fault cause dpa
    | none => .retire (s.modTile n fun x => { x with atomics := x.atomics ++
        [{ kind := .atom, pc := t.pc, word := w, a := BitVec.ofNat 256 a, y := t.s (fB w), issued := s.now, started := some s.now }] }) 1 none

/-- ATOM. -/
def execAtom (n : Nat) (s : State) : Host.Outcome State Fault Refusal := .next (s.issue n 0x2C (atomBody n))

/-- The sum of two BF16 codes with one rounding to nearest, subnormals flushed at input and output (R90). -/
def bfAdd (x y : BitVec 16) : BitVec 16 := toBf (Num.add (bf (bfFlush x)) (bf (bfFlush y)))

/-- The new value of an atomic (R268). -/
def atomResult (w : BitVec 64) (old x : Nat) : Nat :=
  match bits w 24 2 with
  | 0 => (old + x) % 2 ^ 32
  | 1 => (bfAdd (BitVec.ofNat 16 old) (BitVec.ofNat 16 x)).toNat
  | 2 => x
  | _ => x % 2 ^ 16

/-- An atomic on an address that an atomic of a higher source has changed in this very aclk: the bank takes those of one aclk
in ascending order of source, so it did not arrive in this one (R270). -/
def State.atomicTooLate (s : State) (n a : Nat) : Bool :=
  s.atomicsDone.any fun x => decide (x.at_ = s.now) && decide (x.addr = a) && decide (n < x.tile)

/-- An atomic's effect at its bank (R268, R269); an uncorrectable word fails it, and stays unchanged (R299). -/
def State.doAtomic (s : State) (n : Nat) (o : UnitOp) : State :=
  let a := o.a.toNat
  let size := atomSize o.word
  let done : AtomicDone := { at_ := s.now, addr := a, tile := n }
  let s : State := { s with atomicsDone := (s.atomicsDone.filter fun x => decide (x.at_ = s.now)) ++ [done] }
  match s.checkRead a size with
  | (s, some w) => s.opFault n cMovAddr w o
  | (s, none) =>
    let old := leNat (Memory.bytes s.mem a size)
    let s := s.writeChunk (s.tilePaddock n) a (leBytes size (atomResult o.word old o.y.toNat)) false
    if bit o.word 26 then s.modTile n fun t => t.setS (fD o.word) (BitVec.ofNat 32 old) else s

/-- Outstanding atomic `i` of tile `n` is performed (R268 to R270), unless an earlier operation of the tile between the same
ports is still outstanding (R24), or one of a higher source was performed on its address in this aclk. -/
def State.performAtomic (s : State) (n i : Nat) : State :=
  match (s.tile n).atomics[i]? with
  | none => s
  | some o =>
    if s.mustWait n o || s.atomicTooLate n o.a.toNat then s
    else (s.modTile n fun t => { t with atomics := listDrop t.atomics i }).doAtomic n o

/-- ATOMIC_PERFORM. -/
def execAtomicPerform (n : Nat) (env : Env) (s : State) : Host.Outcome State Fault Refusal :=
  .next (s.whenRunning fun s => (s.takeEnv env).performAtomic n env.arrival)

end Sys2Proof.Machine
end

