-- ==== Sys2Proof/Machine/Switchable.lean ====
section
/-!
DEFINITION. Machine/Switchable.lean: program images (R240), and the check of a program on a shared sheaf (R66, R144, R175, R204).
-/

namespace Sys2Proof.Machine

/-! ### Images (R240) -/

/-- Bytes of an image header. -/
def headerBytes : Nat := 32

/-- The header fields of an image (R240). -/
structure ImageHeader where
  entry : Nat
  length : Nat
  budget : Nat
  origin : Nat
  deriving DecidableEq, Repr

/-- The header whose words 0 and 1 are given. -/
def ImageHeader.ofWords (w0 w1 : BitVec 64) : ImageHeader :=
  { entry := bits w0 32 11, length := bits w0 20 12, budget := bits w0 0 17, origin := bits w1 0 11 }

/-- The header of the image at `a` as paddock `p` reads it. -/
def State.imageHeader (s : State) (p a : Nat) : ImageHeader := ImageHeader.ofWords (s.readWord p a) (s.readWord p (a + 8))

/-- The instructions of an image, as paddock `p` reads them. -/
def State.imageBody (s : State) (p : Nat) (i : ProgImage) : List (BitVec 64) :=
  (List.range i.range.length.toNat).map fun k => s.readWord p (i.dpa.toNat + headerBytes + 8 * k)

/-- An image may lie at `a`: host memory, a region the paddock owns, or a sheaf bank of a sheaf of its mask that no other
paddock shares (R242). -/
def State.imageMayLie (s : State) (p a : Nat) : Bool :=
  match s.place a with
  | .host => true
  | .hbm u => decide (s.hbmOwner u = some p)
  | .bank m _ => decide (s.holders m = [p]) && decide (s.sramOwner m = some p)
  | _ => false

/-- Every byte of [a, a + n) lies where an image may. -/
def State.imagePlaced (s : State) (p a n : Nat) : Bool := (lowestFailing (s.imageMayLie p) [(a, n)]).isNone

/-! ### What a program keeps across a stride wait (R66) -/

/-- The guard of an instruction always holds. -/
def guardAlways (w : BitVec 64) : Bool := decide (bits w 52 4 = 0)
/-- The guard of an instruction never holds: p0 inverted. -/
def guardNever (w : BitVec 64) : Bool := decide (bits w 52 4 = 8)

/-- What may hold at an instruction, one bit each: FWA banks not EMPTY [3:0], BWA banks [7:4], Chaff banks [11:8], slots not
FREE [15:12], tables and list built in an earlier stride [20:16], in this stride [25:21], and that it is reached [26]. -/
abbrev Kept := BitVec 27

/-- Banks and slots that a program may not keep at a stride wait. -/
def keptMask : Kept := 0xFFFF

/-- The facts that an instruction may add and, when its guard always holds, takes away. -/
def keptEffect (w : BitVec 64) : Kept × Kept :=
  let b (lo : Nat) (i : Nat) : Kept := BitVec.ofNat 27 (1 <<< (lo + i))
  let slotOut : Kept := if hPv w then b 12 (hPslot w) else 0
  let slotIn : Kept := if hCv w && hRel w then b 12 (hCslot w) else 0
  match opOf w with
  | 0x30 => (b 0 (bits w 0 2), slotIn)
  | 0x31 => (slotOut, b 0 (bits w 0 2))
  | 0x38 => (b 4 (bits w 0 2), slotIn)
  | 0x39 => (0, b 4 (bits w 0 2))
  | 0x40 => (slotOut, slotIn)
  | 0x41 => (slotOut, slotIn)
  | 0x42 => (slotOut, slotIn)
  | 0x43 => (slotOut, slotIn)
  | 0x50 => (b 21 (bits w 0 2), b 16 (bits w 0 2))
  | 0x51 => (b 8 (bits w 0 2), 0)
  | 0x52 => if bit w 2 then (b 25 0, b 8 (bits w 0 2)) else (0, b 8 (bits w 0 2))
  | 0x53 => (b 25 0, b 20 0)
  | _ => (0, 0)

/-- The facts after an instruction; a stride wait makes what is built a thing of an earlier stride. -/
def keptAfter (w : BitVec 64) (x : Kept) : Kept :=
  if guardNever w then x
  else if opOf w = 0x04 then
    let waited := x ||| ((x >>> 5) &&& 0x1F0000)
    let waited := waited &&& ~~~(0x3E00000 : Kept)
    if guardAlways w then waited else waited ||| x
  else
    let e := keptEffect w
    (if guardAlways w then x &&& ~~~e.2 else x) ||| e.1

/-- Whether an instruction reached with some facts breaks R66: a stride wait with a bank not EMPTY or a slot not FREE, or a
table or list named that an earlier stride built (R144, R175, R204). -/
def keptBreaks (w : BitVec 64) (x : Kept) : Bool :=
  if guardNever w then false
  else
    match opOf w with
    | 0x04 => decide (x &&& keptMask ≠ 0)
    | 0x51 => bit x (16 + bits w 6 2) || bit x (16 + bits w 8 2)
    | 0x52 => bit w 2 && bit x 20
    | 0x54 => bit x 20
    | _ => false

/-- Loops of a program that may go back: body end and body start. -/
def loopEdges (prog : List (BitVec 64)) : List (Nat × Nat) :=
  (prog.zipIdx.filter fun w => decide (opOf w.1 = 0x03) && decide (2 ≤ bits w.1 0 24)).map fun w => (w.2 + bits w.1 36 11, w.2 + 1)

/-- Where an instruction may go. -/
def successors (edges : List (Nat × Nat)) (i : Nat) (w : BitVec 64) : List Nat :=
  let next := (i + 1) :: (edges.filter fun e => decide (e.1 = i)).map Prod.snd
  if guardNever w then next
  else
    match opOf w with
    | 0x01 => if guardAlways w then [] else next
    | 0x02 => (i + bits w 0 11) :: (if guardAlways w then [] else next)
    | 0x03 => if bits w 0 24 = 0 then [i + bits w 36 11 + 1] else next
    | _ => next

/-- Facts joined at an instruction. -/
def joinKept (m : Tbl Kept) (i : Nat) (x : Kept) : Tbl Kept := Tbl.modify 0 m i fun y => y ||| x

/-- One pass over a program: facts flow along every edge. -/
def keptPass (edges : List (Nat × Nat)) (prog : List (BitVec 64)) (m : Tbl Kept) : Tbl Kept :=
  prog.zipIdx.foldl (fun m w =>
    let x := Tbl.get 0 m w.2
    if bit x 26 then (successors edges w.2 w.1).foldl (fun m j => joinKept m j (keptAfter w.1 x)) m else m) m

/-- Passes that carry every fact round loops nested four deep (R253). -/
def keptPasses : Nat := 12

/-- A program can keep tile contents across a stride wait (R66): some path, with every guard open that is not always or
never true, breaks it (DEDUCED, notes/assumptions/32). -/
def keepsContents (entry : Nat) (prog : List (BitVec 64)) : Bool :=
  let edges := loopEdges prog
  let start : Tbl Kept := [(entry, BitVec.ofNat 27 (1 <<< 26))]
  let m := (List.range keptPasses).foldl (fun m _ => keptPass edges prog m) start
  prog.zipIdx.any fun w => let x := Tbl.get 0 m w.2
    bit x 26 && keptBreaks w.1 x

/-- The instructions of a program range of a tile. -/
def Tile.rangeBody (t : Tile) (r : ProgRange) : List (BitVec 64) :=
  (List.range r.length.toNat).map fun i => Tbl.get 0 t.store (r.origin.toNat + i)

/-- A loaded range of tile `t` keeps contents. -/
def Tile.rangeKeeps (t : Tile) (r : ProgRange) : Bool := keepsContents r.entry.toNat (t.rangeBody r)

/-- The program of an image keeps contents. -/
def State.imageKeeps (s : State) (p : Nat) (i : ProgImage) : Bool := keepsContents i.range.entry.toNat (s.imageBody p i)

end Sys2Proof.Machine
end

