-- ==== Sys2Proof/Machine/Gleaner.lean ====
section
/-!
DEFINITION. Machine/Gleaner.lean: event records from their arrival to the ring (R43, R44, R475, R480 to R485).
-/

namespace Sys2Proof.Machine

/-! ### Arrival (R480, R481) -/

/-- The stride in which an event happened. -/
def Event.stride (e : Event) : Nat := e.gtc.toNat / strideLen

/-- Two records belong to one stride of one run of the GTC (R41). -/
def Event.sameStride (x y : Event) : Bool := decide (x.epoch = y.epoch) && decide (x.stride = y.stride)

/-- Code of a summary record (R475). -/
def summaryCode : BitVec 16 := 0xFFFF

/-- Summary entries for one class and source (R481). -/
def maxSummaries : Nat := 1024

/-- A summary entry that takes a record: its own, or the class-wide one. -/
def Summary.matches_ (x : Summary) (e : Event) (classWide : Bool) : Bool :=
  decide (x.cls = e.cls) && decide (x.classWide = classWide) && (classWide || decide (x.source = e.source))

/-- A summary with one more record. -/
def Summary.add (x : Summary) (e : Event) : Summary := { x with last := e.gtc, count := satAdd x.count 1 }

/-- A summary opened by a record. -/
def Summary.ofEvent (e : Event) (source : BitVec 32) (classWide : Bool) : Summary :=
  { cls := e.cls, source := source, classWide := classWide, epoch := e.epoch, first := e.gtc, last := e.gtc, count := 1, code := e.code }

/-- A record coalesced into an entry of the table, a new one being opened when none takes it. -/
def coalesceInto (xs : List Summary) (e : Event) (source : BitVec 32) (classWide : Bool) : List Summary :=
  if xs.any fun x => x.matches_ e classWide then xs.map fun x => if x.matches_ e classWide then x.add e else x
  else xs ++ [Summary.ofEvent e source classWide]

/-- A record coalesced (R481): into the entry of its class and source, or into the class-wide one when the table is full, with the
Farrier of the chip ID at its GTC as source (R482, R491). -/
def State.coalesce (s : State) (e : Event) : State :=
  let xs := s.gleaner.summaries
  let room := (xs.any fun x => x.matches_ e false) || decide ((xs.filter fun x => !x.classWide).length < maxSummaries)
  let ys := if room then coalesceInto xs e e.source false else coalesceInto xs e (setBits e.source 0 16 srcFarrier) true
  { s with gleaner := { s.gleaner with summaries := ys } }

/-- Records of a class kept whole in the stride of a record (R481). -/
def State.keptOf (s : State) (e : Event) : Nat :=
  (s.gleaner.kept.filter fun x => decide (x.cls = e.cls) && decide (x.code ≠ summaryCode) && x.sameStride e).length

/-- The oldest record on its way arrives: it is kept whole, or coalesced (R481). -/
def State.takeRecord (s : State) : State :=
  match s.gleaner.arriving with
  | [] => s
  | e :: rest =>
    let s := { s with gleaner := { s.gleaner with arriving := rest } }
    if s.keptOf e < s.field (.evtRate e.cls.toNat) 0 12 then { s with gleaner := { s.gleaner with kept := s.gleaner.kept ++ [e] } }
    else s.coalesce e

/-- GLEANER_RECORD. -/
def execGleanerRecord (s : State) : Host.Outcome State Fault Refusal := .next (s.whenRunning State.takeRecord)

/-- Every record on its way arrives, in order. -/
def State.takeRecords (s : State) : State := s.gleaner.arriving.foldl (fun s _ => s.takeRecord) s

/-! ### Summaries (R482) -/

/-- The record of a summary entry. -/
def Summary.record (x : Summary) : Event :=
  { gtc := x.first, epoch := x.epoch, source := x.source, cls := x.cls, code := summaryCode,
    payload := pack 128 [(0, 64, x.last.toNat), (64, 32, x.count.toNat), (96, 16, x.code.toNat), (112, 1, b2n x.classWide)] }

/-- The end of a stride for the Gleaner: what is on its way arrives, and each summary entry becomes a record (R480, R482). -/
def State.endSummaries (s : State) : State :=
  let s := s.takeRecords
  { s with gleaner := { s.gleaner with kept := s.gleaner.kept ++ s.gleaner.summaries.map Summary.record, summaries := [] } }

/-! ### The ring (R43, R44, R475, R483, R484) -/

/-- The order of R43, on either side of a GTC load separately (R41). -/
def Event.before (x y : Event) : Bool :=
  decide (x.epoch < y.epoch) ||
    (decide (x.epoch = y.epoch) &&
      (decide (x.gtc.toNat < y.gtc.toNat) || (decide (x.gtc = y.gtc) && decide (x.source.toNat < y.source.toNat))))

/-- A record put into an ordered list, after those that it does not precede: records of one source stay as emitted. -/
def insertEvent (e : Event) : List Event → List Event
  | [] => [e]
  | x :: rest => if e.before x then e :: x :: rest else x :: insertEvent e rest

/-- Records in the order of R43. -/
def sortEvents (xs : List Event) : List Event := xs.foldl (fun ys e => insertEvent e ys) []

/-- The 32 bytes of a record (R475). -/
def Event.bytes (e : Event) : List Byte :=
  leBytes 8 e.gtc.toNat ++ leBytes 4 e.source.toNat ++ leBytes 2 e.cls.toNat ++ leBytes 2 e.code.toNat ++ leBytes 16 e.payload.toNat

/-- The ring is enabled. -/
def State.ringEnabled (s : State) : Bool := decide (s.field .ringCtl 63 1 = 1)

/-- A dropped record (R483, R484). -/
def State.dropRecord (s : State) : State := { s with gleaner := { s.gleaner with dropped := s.gleaner.dropped + 1 } }.setLogDrop

/-- A record written at WRITE, or dropped when the ring is full (R483). -/
def State.ringPut (s : State) (e : Event) : State :=
  let n := 2 ^ s.field .ringCtl 56 5
  if (s.gleaner.write - s.gleaner.read).toNat = n then s.dropRecord
  else
    let s := s.masterWrite srcFarrier 0 (s.field .ringCtl 0 48 + 32 * (s.gleaner.write.toNat % n)) e.bytes
    { s with gleaner := { s.gleaner with write := s.gleaner.write + 1, written := s.gleaner.written + 1 } }

/-- Records that the Gleaner keeps while the ring is off (R484). -/
def maxEarly : Nat := 256

/-- A record kept for a later ring, or dropped. -/
def State.keepEarly (s : State) (e : Event) : State :=
  if s.gleaner.early.length < maxEarly then { s with gleaner := { s.gleaner with early := s.gleaner.early ++ [e] } } else s.dropRecord

/-- The records of every stride that ended `age` strides ago or earlier leave the Gleaner in the order of R43. -/
def State.ringWrite (s : State) (age : Nat) : State :=
  let old (e : Event) : Bool := decide (e.epoch < s.time.loads) || decide (e.stride + age ≤ s.stride)
  let out := sortEvents (s.gleaner.kept.filter old)
  let s := { s with gleaner := { s.gleaner with kept := s.gleaner.kept.filter fun e => !old e } }
  if s.ringEnabled then
    let out := s.gleaner.early ++ out
    out.foldl State.ringPut { s with gleaner := { s.gleaner with early := [] } }
  else out.foldl State.keepEarly s

/-- GLEANER_RING_WRITE (R483, R484). -/
def execGleanerRingWrite (s : State) : Host.Outcome State Fault Refusal := .next (s.whenRunning fun s => s.ringWrite 1)

end Sys2Proof.Machine
end

