-- ==== Sys2Proof/Machine/Time.lean ====
section
/-!
DEFINITION. Machine/Time.lean: alignment of the GTC (R37 to R42): edges of STRIDE_SYNC, upstream time marks, correction,
holdover and the single load of ACQUIRE.
-/

namespace Sys2Proof.Machine

/-- SRC of STR_TIME_CTL in force (R37): 0 FREE, 1 SYNC, 2 LINK. -/
def State.timeSrc (s : State) : Nat := s.field .timeCtl 0 2

/-! ### What a load of the GTC carries along -/

/-- A time moved by a load. -/
def movedBy (d : Int) (t : Nat) : Nat := ((t : Int) + d).toNat

/-- An operation's times moved. -/
def UnitOp.moved (d : Int) (o : UnitOp) : UnitOp := { o with issued := movedBy d o.issued, freed := movedBy d o.freed, started := o.started.map (movedBy d) }

/-- The times a tile keeps, moved with the GTC so that what is under way takes as long as before; `k` is the change of the
stride number. -/
def Tile.moved (d k : Int) (t : Tile) : Tile :=
  { t with
    landing := t.landing.map fun l => (l.1, movedBy d l.2), nextIssue := movedBy d t.nextIssue,
    fresh := t.fresh.map fun f => (f.1, f.2.map (movedBy k)), nfStride := t.nfStride.map (movedBy k), nfAt := t.nfAt.map (movedBy d),
    fwa := t.fwa.map (UnitOp.moved d), bwa := t.bwa.map (UnitOp.moved d), hame := t.hame.map (UnitOp.moved d),
    chaff := t.chaff.map (UnitOp.moved d), sower := t.sower.map (UnitOp.moved d), moves := t.moves.map (UnitOp.moved d),
    atomics := t.atomics.map (UnitOp.moved d), loads := t.loads.map (UnitOp.moved d),
    fwaFree := movedBy d t.fwaFree, bwaFree := movedBy d t.bwaFree, fwaDone := movedBy d t.fwaDone, bwaDone := movedBy d t.bwaDone,
    gradDone := movedBy d t.gradDone, faultIssued := movedBy d t.faultIssued,
    chaffFree := movedBy d t.chaffFree, chaffStreamEnd := movedBy d t.chaffStreamEnd, chaffDone := movedBy d t.chaffDone,
    listDone := movedBy d t.listDone, hameDone := movedBy d t.hameDone }

/-- The times a sheaf keeps, moved. -/
def Sheaf.moved (d : Int) (x : Sheaf) : Sheaf :=
  { x with
    arrivals := x.arrivals.map fun a => { a with time := movedBy d a.time },
    entriesLoaded := movedBy d x.entriesLoaded,
    entries := x.entries.map fun e => (e.1, { e.2 with evaluating := e.2.evaluating.map fun v => (v.1, movedBy d v.2) }) }

/-- The strides and times the host port keeps, moved: promises of R56 and R392 run on in strides. -/
def HostPort.moved (k : Int) (h : HostPort) : HostPort :=
  { h with
    fetched := h.fetched.map fun f => { f with stride := movedBy k f.stride },
    replies := h.replies.map fun r => { r with stride := movedBy k r.stride },
    copies := h.copies.map fun c => { c with bound := movedBy k c.bound } }

/-- The strides and times a tether keeps, moved. -/
def Tether.moved (k : Int) (t : Tether) : Tether :=
  { t with openStride := movedBy k t.openStride, lastValid := movedBy k t.lastValid, movedAt := t.movedAt.map (movedBy k),
           pend := t.pend.map (fun x => { x with stride := movedBy k x.stride }),
           lateSent := t.lateSent.map fun x => (x.1, movedBy k x.2) }

/-- The strides and times a port keeps, moved. -/
def Port.moved (d k : Int) (p : Port) : Port :=
  { p with sent := p.sent.map fun x => { x with until_ := movedBy d x.until_, stride := movedBy k x.stride }, offsetStride := p.offsetStride.map (movedBy k) }

/-- What the stride that a load enters still has to come (R45), for a load that lands at position `pos` off a tick, `k` strides
on; a load onto a tick begins its stride there. -/
def State.landAt (s : State) (k : Int) (pos : Nat) : State :=
  if k = 0 ∨ pos = 0 then s
  else { s with time := { s.time with
    actDue := s.time.actDue || decide (pos ≤ 200), fetchDue := decide (pos < 1200), readDue := decide (pos ≤ 96000),
    windowDue := decide (pos ≤ 2000), nextSpan := (pos - 2000) / 1000 } }

/-- The GTC loaded (R34, R41): records of the time before stand ahead of every later one, the state becomes LOCKED, and
what is under way keeps its distance in time (notes/assumptions/11). -/
def State.loadGtc (s : State) (v : Nat) : State :=
  let s := s.endSummaries
  let d : Int := (v : Int) - s.now
  let k : Int := (v / strideLen : Nat) - (s.stride : Nat)
  let s : State := { s with
    tiles := s.tiles.map fun t => (t.1, t.2.moved d k), sheaves := s.sheaves.map fun x => (x.1, x.2.moved d),
    host := s.host.moved k, tethers := s.tethers.map fun t => (t.1, t.2.moved k), ports := s.ports.map fun p => (p.1, p.2.moved d k),
    sites := s.sites.map fun x => (x.1, { x.2 with countedAt := movedBy d x.2.countedAt }),
    progs := s.progs.map fun c => { c with stride := movedBy k c.stride },
    colls := s.colls.map fun c => { c with admitted := movedBy k c.admitted },
    boot := { s.boot with jobs := s.boot.jobs.map fun j => { j with started := j.started.map (movedBy d) } },
    strideMark := movedBy d s.strideMark,
    time := { s.time with
      gtc := BitVec.ofNat 64 v, state := .locked, loads := s.time.loads + 1, residual := 0, missed := 0, edgeUsed := true,
      tickDue := decide (v % strideLen = 0) } }
  s.landAt k (v % strideLen)

/-! ### Edges and marks (R39) -/

/-- A difference d measured in LOCKED or HOLDOVER: used, or ignored (R39). -/
def State.useEdge (s : State) (d : Int) : State :=
  let s := { s with time := { s.time with offset := satInt 16 d } }
  match s.time.state with
  | .locked =>
    if d.natAbs ≤ 100 then { s with time := { s.time with residual := d, edgeUsed := true } }
    else
      { s with time := { s.time with ignored := satAdd s.time.ignored 1 } }.raise srcFarrier evtSyncJump
        (pack 128 [(0, 16, (satInt 16 d).toNat)])
  | .holdover =>
    if d.natAbs ≤ 1000 then { s with time := { s.time with state := .locked, residual := d, edgeUsed := true } } else s
  | .acquire => s

/-- The value that the first usable edge loads in ACQUIRE with SRC = SYNC, and whether it is that of STR_GTC_LOAD (R41). -/
def State.acquireValue (s : State) : Option (Nat × Bool) :=
  let v := (s.reg .gtcLoad).toNat
  if s.field .timeCtl 16 1 = 1 ∧ v % strideLen = 0 then some (v, true)
  else s.time.mark.map fun m => (((m.toNat / strideLen + 1) * strideLen) % 2 ^ 64, false)

/-- LOAD_ARM cleared by the device, unless the host wrote it in the same aclk (R9, R41). -/
def State.clearLoadArm (s : State) : State :=
  if s.hostBits .timeCtl &&& maskOf 16 1 ≠ 0 then s else s.setReg .timeCtl (s.reg .timeCtl &&& ~~~maskOf 16 1)

/-- STRIDE_SYNC_EDGE (R39, R41, R499): with SRC = SYNC, an edge within the electrical limits is used, ignored, or loads the
GTC in ACQUIRE, which happens only while every paddock's phase is IDLE (R34). -/
def State.syncEdge (s : State) (d : Int) (withinLimits : Bool) : State :=
  if s.timeSrc ≠ 1 || !withinLimits then s
  else if s.time.state = .acquire then
    match if s.allIdle then s.acquireValue else none with
    | some (v, armed) => if armed then (s.loadGtc v).clearLoadArm else s.loadGtc v
    | none => s
  else s.useEdge d

/-- STRIDE_SYNC_EDGE. -/
def execStrideSyncEdge (d : Int) (withinLimits : Bool) (s : State) : Host.Outcome State Fault Refusal :=
  .next (s.whenRunning fun s => s.syncEdge d withinLimits)

/-- The largest correction of a stride, in counts (R39). -/
def maxCorrection : Nat := 4

/-- What remains of d after the correction of one stride (R39). -/
def corrected (d : Int) : Int := if d.natAbs ≤ maxCorrection then 0 else if d < 0 then d + maxCorrection else d - maxCorrection

/-- GTC_CORRECTION (R39, R46): the counts withheld (d below 0) or inserted between positions 1,900 and 1,999 change how many
aclk cycles pass, not the positions passed. -/
def State.correctGtc (s : State) : State :=
  if 1999 ≤ s.position then s
  else
    let s := s.advancePos 1999
    { s with time := { s.time with residual := if s.timeSrc = 0 then s.time.residual else corrected s.time.residual } }

/-- GTC_CORRECTION. -/
def execGtcCorrection (s : State) : Host.Outcome State Fault Refusal := .next (s.whenRunning State.correctGtc)

/-- Strides without a usable edge before HOLDOVER (R39). -/
def maxMissed : Nat := 16

/-- HOLDOVER (R39). -/
def State.enterHoldover (s : State) : State :=
  if s.timeSrc ≠ 0 ∧ s.time.state = .locked ∧ maxMissed ≤ s.time.missed then
    { s with time := { s.time with state := .holdover } }.raise srcFarrier evtSyncLost 0
  else s

/-- HOLDOVER. -/
def execHoldover (s : State) : Host.Outcome State Fault Refusal := .next (s.whenRunning State.enterHoldover)

/-- A stride ends: one more without a usable edge, or none (R39). -/
def State.countMissed (s : State) : State :=
  { s with time := { s.time with missed := if s.time.edgeUsed then 0 else s.time.missed + 1, edgeUsed := false } }

/-- A commit brings SRC into force (R41): a change to SYNC or LINK enters ACQUIRE, a change to FREE is LOCKED. -/
def State.sourceChanged (s : State) (old : Nat) : State :=
  if s.timeSrc = old then s
  else { s with time := { s.time with state := if s.timeSrc = 0 then .locked else .acquire, residual := 0, missed := 0 } }

end Sys2Proof.Machine
end

