-- ==== Sys2Proof/Machine/Commit.lean ====
section
/-!
DEFINITION. Machine/Commit.lean: the rules of a commit (R50, R51, R53 and the rule tables of the chapters), and the composition
changes that PADDOCK_SET and PADDOCK_RELEASE place among the GLOBAL shadows (R404, R410, R412).
-/

namespace Sys2Proof.Machine

/-! ### Composition changes -/

/-- Region numbers in a list. -/
def regionsIn (v : BitVec 512) : List Nat := setIndices v

/-- Regions owned by paddock `p`. -/
def State.regionsOf (s : State) (p : Nat) : List Nat :=
  (List.range 512).filter fun r => decide ((s.region r).state = .owned) && decide ((s.region r).owner.toNat = p)

/-- Regions given a state and owner. -/
def State.setRegions (s : State) (rs : List Nat) (x : Region) : State := rs.foldl (fun s r => s.setRegion r x) s

/-- The composition after a change (R404, R410 to R413): masks, region owners, LINK_SHARE and paddock states. -/
def State.withChange (s : State) (c : PdkChange) : State :=
  let p := c.paddock
  let owner := BitVec.ofNat 4 p
  if c.release then
    let rs := if c.whole then s.regionsOf p else regionsIn c.regions
    let s := s.setRegions rs { state := .scrubbing, owner := owner }
    let s := s.setMask p (if c.whole then 0 else s.mask p &&& ~~~c.sheaves)
    if c.whole then
      { s.modPdk p (fun x => { x with state := .releasing }) with shares := Tbl.put 0 s.shares p 0 }
    else s
  else
    let s := (s.setRegions (regionsIn c.regions) { state := .owned, owner := owner }).setMask p (s.mask p ||| c.sheaves)
    let s := { s with shares := Tbl.put 0 s.shares p c.share }
    if c.isNew then s.modPdk p fun x => { x with state := .active } else s

/-- The composition with every change admitted so far committed (R391, R417). -/
def State.composed (s : State) : State := s.changes.foldl State.withChange s

/-! ### What a group sees (R50) -/

/-- The commit group of a register's RWS fields; SHF_SILAGE_CTL follows the masks in force before the tick (R177). -/
def State.groupOf (s : State) (r : Reg) : Option Nat :=
  match r with
  | .silageCtl m => (match s.holders m with
    | [p] => some p
    | _ => some groupGlobal)
  | r => r.group?

/-- What the group under evaluation sees: the state before the tick, the groups whose shadows count, and the composition. -/
structure Look where
  s : State
  seen : BitVec 17
  comp : State

/-- The view of group `g` when the groups in `done` have committed at this tick. -/
def State.look (s : State) (done : BitVec 17) (g : Nat) : Look :=
  let seen := withBit done g true
  { s := s, seen := seen, comp := if bit seen groupGlobal then s.composed else s }

/-- A register as the group sees it. -/
def Look.val (l : Look) (r : Reg) : BitVec 64 :=
  match l.s.groupOf r with
  | some g => if bit l.seen g then (l.s.reg r &&& ~~~r.rws) ||| (l.s.shadow r &&& r.rws) else l.s.reg r
  | none => l.s.reg r

/-- A field of a register as the group sees it. -/
def Look.field (l : Look) (r : Reg) (lo len : Nat) : Nat := bits (l.val r) lo len

/-- A field that the evaluated group would change. -/
def Look.changes (l : Look) (r : Reg) (lo len : Nat) : Bool := decide (l.field r lo len ≠ l.s.field r lo len)

/-- Registers with a stored value or a shadow. -/
def State.touchedRegs (s : State) : List Reg :=
  (s.regs.map Prod.fst ++ s.shadows.map Prod.fst).filterMap Reg.ofOffset

/-! ### Reserved encodings (R7, R53) -/

/-- A register value holds a reserved encoding in an RWS field. -/
def Reg.reservedValue (r : Reg) (v : BitVec 64) : Bool :=
  match r with
  | .timeCtl => decide (bits v 0 2 = 3) || decide (24 ≤ bits v 8 5)
  | .qCtl _ => decide (256 < bits v 32 9) || decide (bits v 8 4 < 4)
  | .pwrCap => decide (bits v 0 12 < 1000) || decide (2800 < bits v 0 12)
  | .portCtl _ => decide (bits v 32 2 = 3)
  | .wteBuf _ => decide (2048 < bits v 0 12)
  | .mtgPolicy _ => decide (bits v 32 5 ≠ 0) && (decide (bits v 32 5 < 4) || decide (16 < bits v 32 5))
  | .silageCtl _ => decide (12 < bits v 0 4)
  | _ => false

/-- RSV_ENCODING. -/
def Look.reserved (l : Look) (g : Nat) : Bool :=
  l.s.touchedRegs.any fun r => decide (l.s.groupOf r = some g) && r.reservedValue (l.val r)

/-! ### Sharing (R59 to R66, R408) -/

/-- Sheaves of the part. -/
def sheafNumbers : List Nat := List.range 400

/-- Sheaves that two or more paddocks hold, as the group sees them. -/
def Look.sharedSheaves (l : Look) : List Nat := sheafNumbers.filter fun m => l.comp.sharedSheaf m

/-- Two paddocks that one gait entry runs share a sheaf. -/
def Look.twoOwners (l : Look) : Bool :=
  decide (l.field .gaitCtl 8 1 = 1) &&
    (List.range (l.field .gaitCtl 0 6 + 1)).any fun n =>
      let e := l.val (.gaitSched n)
      l.sharedSheaves.any fun m => decide (2 ≤ ((l.comp.holders m).filter fun p => bit e p).length)

/-- Two paddocks share a sheaf while the schedule is off. -/
def Look.overlap (l : Look) : Bool := decide (l.field .gaitCtl 8 1 = 0) && !l.sharedSheaves.isEmpty

/-- A shared sheaf keeps contents that a switch would lose (R66): Silage banks, or a program, loaded or still to be loaded,
that keeps them across a stride wait. -/
def Look.notSwitchable (l : Look) : Bool :=
  let shared := l.sharedSheaves
  shared.any fun m =>
    decide (l.field (.silageCtl m) 0 4 ≠ 0) ||
      (l.s.tiles.any fun t => decide (t.1 / 64 = m) && t.2.ranges.any t.2.rangeKeeps) ||
      (l.s.progs.any fun c => decide (c.kind = .load) &&
        c.images.any fun i => decide (i.tile / 64 = m) && l.s.imageKeeps c.paddock i)

/-- Whether [a, a + n) lies wholly in regions that paddock `p` owns, as the group sees them. -/
def Look.ownedSpan (l : Look) (p a n : Nat) : Bool :=
  decide (a + n ≤ 2 ^ 39) && (List.range ((a + n - 1) / 2 ^ 30 + 1 - a / 2 ^ 30)).all fun i =>
    let x := l.comp.region (a / 2 ^ 30 + i)
    decide (x.state = .owned) && decide (x.owner.toNat = p)

/-- Bytes of a context area (R407). -/
def contextBytes : Nat := 400 * 0x10000

/-- A paddock that holds a shared sheaf has a context area outside its regions (R408). -/
def Look.badContext (l : Look) (p : Nat) : Bool :=
  ((sheavesOf (l.comp.mask p)).any fun m => l.comp.sharedSheaf m) && !l.ownedSpan p (l.field (.pdkCtx p) 16 32 * 0x10000) contextBytes

/-! ### Links (R362, R371) -/

/-- Logical lane of an entry (R355). -/
def laneOf (entry : Nat) : Nat := entry % 4

/-- A gait-table entry is assigned. -/
def gaitValid (e : BitVec 16) : Bool := bit e 15

/-- DEG changes while an entry of a PROTECTED tether lies on a lane that it would no longer protect. -/
def Look.degLoses (l : Look) (n : Nat) : Bool :=
  l.changes (.portCtl n) 32 2 &&
    (l.s.port n).gait.any fun e => gaitValid e.2 && bit e.2 14 && decide (4 - l.field (.portCtl n) 32 2 ≤ laneOf e.1)

/-- ENABLE is cleared, or REACH or FABRIC_NS changes, on a port that carries entries. -/
def Look.portBusy (l : Look) (n : Nat) : Bool :=
  ((l.changes (.portCtl n) 0 1 && decide (l.field (.portCtl n) 0 1 = 0)) || l.changes (.portCtl n) 36 4 || l.changes (.portCtl n) 48 16) &&
    (l.s.port n).gait.any fun e => gaitValid e.2

/-! ### The GLOBAL group -/

/-- Queue numbers. -/
def queueNumbers : List Nat := List.range 16
/-- Port numbers. -/
def portNumbers : List Nat := List.range 24

/-- QUOTA summed over enabled queues. -/
def Look.quotaSum (l : Look) : Nat :=
  queueNumbers.foldl (fun n q => if l.field (.qCtl q) 0 1 = 1 then n + l.field (.qCtl q) 32 9 else n) 0

/-- MNG_RING (R386). -/
def Look.badRing (l : Look) (q : Nat) : Bool :=
  let on := decide (l.field (.qCtl q) 0 1 = 1)
  let base := l.field (.qBase q) 0 48
  let rbase := l.field (.qRbase q) 0 48
  (on && (decide (base % 4096 ≠ 0) || decide (rbase % 4096 ≠ 0) || decide (base < hostBase) || decide (rbase < hostBase))) ||
    (on && decide (l.s.field (.qCtl q) 0 1 = 1) &&
      (l.changes (.qBase q) 0 48 || l.changes (.qRbase q) 0 48 || l.changes (.qCtl q) 8 4 || l.changes (.qCtl q) 16 4))

/-- MNG_APT_HOST (R386). -/
def Look.badPage (l : Look) : Bool :=
  l.s.touchedRegs.any fun r => match r with
    | .apt n => bit (l.val (.apt n)) 63 && decide (hostBase ≤ l.field (.apt n) 21 27 * 0x200000)
    | _ => false

/-- Bytes of the event ring of 2^k records. -/
def ringBytes (k : Nat) : Nat := 32 * 2 ^ k

/-- EVT_RING (R484). -/
def Look.badEventRing (l : Look) : Bool :=
  let k := l.field .ringCtl 56 5
  let base := l.field .ringCtl 0 48
  let on := decide (l.field .ringCtl 63 1 = 1)
  decide (k < 12) || decide (24 < k) ||
    (on && decide (l.s.field .ringCtl 63 1 = 1) && (l.changes .ringCtl 0 48 || l.changes .ringCtl 56 5)) ||
    (on && (decide (base % 4096 ≠ 0) || !l.ownedSpan 0 base (ringBytes k)))

/-- RATE summed over the classes. -/
def Look.rateSum (l : Look) : Nat := (span 1 11).foldl (fun n c => n + l.field (.evtRate c) 0 12) 0

/-- SLOTS summed over the paddocks. -/
def Look.slotSum (l : Look) : Nat := paddockNumbers.foldl (fun n p => n + l.field (.wteBuf p) 0 12) 0

/-- A collective that takes chunk slots (R323). -/
def Coll.takesSlots (c : Coll) : Bool := decide (c.kind = 1) || decide (c.kind = 3)

/-- WTE_SLOTS_ZERO (R323). -/
def Look.slotsZero (l : Look) : Bool :=
  paddockNumbers.any fun p => decide (l.field (.wteBuf p) 0 12 = 0) && l.changes (.wteBuf p) 0 12 &&
    l.s.colls.any fun c => decide (c.paddock = p) && c.takesSlots

/-- Every phase is IDLE, as the group sees them. -/
def Look.allIdle (l : Look) : Bool := paddockNumbers.all fun p => decide (l.field (.pdkCtl p) 0 2 = 0)

/-- The failing rules of the GLOBAL group, by rule ID (R53). -/
def Look.globalRules (l : Look) : List (Nat × Bool) :=
  [(0x01, l.reserved groupGlobal),
   (0x02, (l.changes .timeCtl 0 2 || l.changes .timeCtl 8 5) && !l.allIdle),
   (0x03, l.twoOwners), (0x04, l.overlap), (0x05, l.notSwitchable),
   (0x20, decide (2048 < l.slotSum)), (0x22, l.slotsZero),
   (0x28, decide (l.s.field .cfgEpoch 0 32 ≠ 0) && decide (l.field .cfgEpoch 0 32 = 0)),
   (0x30, portNumbers.any l.degLoses), (0x31, portNumbers.any l.portBusy),
   (0x38, decide (256 < l.quotaSum)), (0x39, queueNumbers.any l.badRing), (0x3A, l.badPage),
   (0x41, paddockNumbers.any l.badContext),
   (0x48, portNumbers.any fun n => (l.s.port n).bistFailed && l.changes (.portCtl n) 0 1 && decide (l.field (.portCtl n) 0 1 = 1)),
   (0x50, decide (3072 < l.rateSum)), (0x51, l.badEventRing),
   (0x58, l.changes .glbChip 0 16 && ((l.s.tethers.any fun t => decide (t.2.state ≠ .closed)) || !l.allIdle))]

/-! ### A paddock's group -/

/-- MTG_THRESH. -/
def Look.badThresh (l : Look) (p : Nat) : Bool :=
  decide (l.field (.mtgThresh p) 48 8 = 0) || decide (l.field (.mtgThresh p) 40 8 = 0) || decide (32 < l.field (.mtgThresh p) 40 8)

/-- The commit enables a microprogram: UCODE_EN becomes 1, or another program is named while it is 1 (R125). -/
def Look.enablesUcode (l : Look) (p : Nat) : Bool :=
  decide (l.field (.mtgPolicy p) 16 1 = 1) &&
    (l.changes (.mtgPolicy p) 16 1 || decide (l.val (.mtgUcode p) ≠ l.s.reg (.mtgUcode p)))

/-- DPA and length of the microprogram. -/
def Look.ucodeSpan (l : Look) (p : Nat) : Nat × Nat := (l.field (.mtgUcode p) 0 48, l.field (.mtgUcode p) 56 8)

/-- The placement of the microprogram is wrong, or it is longer than 64 instructions, or empty (R125). -/
def Look.ucodeMisplaced (l : Look) (p : Nat) : Bool :=
  let (a, n) := l.ucodeSpan p
  decide (a % 4 ≠ 0) || decide (64 < n) || decide (n = 0) || !l.ownedSpan p a (4 * n)

/-- The text of a microprogram breaks R125: a reserved opcode, a branch backward or beyond the end, or no END. -/
def ucodeBad (text : List (BitVec 32)) : Bool :=
  (text.any fun w => decide (0x10 ≤ bits w 27 5)) ||
    (text.zipIdx.any fun w => (decide (bits w.1 27 5 = 0x0A) || decide (bits w.1 27 5 = 0x0B)) &&
      decide (text.length ≤ w.2 + 1 + bits w.1 0 16)) ||
    !(text.any fun w => decide (bits w 27 5 = 0))

/-- The text of a microprogram as its paddock reads it. -/
def State.ucodeText (s : State) (p a n : Nat) : List (BitVec 32) :=
  (List.range n).map fun i => BitVec.ofNat 32 (s.readNat p (a + 4 * i) 4)

/-- The check of the microprogram that a commit enables (R125): the state with what the read met, and whether it failed. -/
def State.checkUcode (s : State) (l : Look) (p : Nat) : State × Bool :=
  if !l.enablesUcode p then (s, false)
  else if l.ucodeMisplaced p then (s, true)
  else
    let (a, n) := l.ucodeSpan p
    match s.checkSource a (4 * n) with
    | (s, some _) => (s, true)
    | (s, none) => (s, ucodeBad (l.comp.ucodeText p a n))

/-- The phase in the paddock's shadow is a given one, newly. -/
def Look.entersPhase (l : Look) (p phase : Nat) : Bool := l.changes (.pdkCtl p) 0 2 && decide (l.field (.pdkCtl p) 0 2 = phase)

/-- The failing rules of paddock `p`'s group but for its microprogram, by rule ID. -/
def Look.paddockRules (l : Look) (p : Nat) : List (Nat × Bool) :=
  [(0x01, l.reserved p), (0x04, l.overlap), (0x05, l.notSwitchable),
   (0x10, l.entersPhase p 3 && (l.s.pdk p).replayPending),
   (0x12, l.badThresh p),
   (0x21, l.entersPhase p 1 && (l.s.pdk p).versionStale),
   (0x40, decide ((l.comp.pdk p).state ≠ .active)),
   (0x41, l.badContext p)]

/-! ### Evaluation (R50, R51) -/

/-- The lowest failing rule. -/
def lowestRule (rules : List (Nat × Bool)) : Option Nat :=
  (rules.filter fun r => r.2).foldl (fun acc r => match acc with | none => some r.1 | some x => some (min x r.1)) none

/-- The judgement of a group: the state with what its reads met, and the rule that refuses it. -/
def State.judgeGroup (s : State) (done : BitVec 17) (g : Nat) : State × Option Nat :=
  let l := s.look done g
  if g = groupGlobal then (s, lowestRule l.globalRules)
  else
    let (s, bad) := s.checkUcode l g
    (s, lowestRule ((0x11, bad) :: l.paddockRules g))

/-- A refused group (R51). -/
def State.refuseGroup (s : State) (g rule : Nat) : State :=
  let s := s.setReg .commitResult (setBits (s.reg .commitResult ||| maskOf (32 + g) 1) 56 8 rule)
  (s.noteDevice .commitResult (maskOf (32 + g) 1)).raise srcFarrier evtCommitRefused (pack 128 [(0, 5, g), (8, 8, rule)])

/-- A committed group (R51). -/
def State.applyGroup (s : State) (g : Nat) : State :=
  (s.setReg .commitResult (s.reg .commitResult ||| maskOf g 1)).noteDevice .commitResult (maskOf g 1)

/-- The armed groups in the order of R50. -/
def armedGroups (arm : BitVec 64) : List Nat :=
  (if bit arm groupGlobal then [groupGlobal] else []) ++ paddockNumbers.filter fun p => bit arm p

/-- The evaluation of the armed groups: the state and the groups that commit (R50, R51). -/
def State.evaluate (s : State) : List Nat → BitVec 17 → State × BitVec 17
  | [], done => (s, done)
  | g :: rest, done =>
    match s.judgeGroup done g with
    | (s, some rule) => (s.refuseGroup g rule).evaluate rest done
    | (s, none) => (s.applyGroup g).evaluate rest (withBit done g true)

/-- The values that committed groups bring into force: RWS fields whose shadow differs (R51, R52). -/
def State.stagedValues (s : State) (done : BitVec 17) : Tbl (BitVec 64) :=
  s.shadows.filter fun e => match Reg.ofOffset e.1 with
    | some r => (match s.groupOf r with
      | some g => bit done g
      | none => false)
    | none => false

/-- The microprograms that committed groups enable, by paddock (R125). -/
def State.stagedUcodes (s : State) (done : BitVec 17) : List (Nat × List (BitVec 32)) :=
  (paddockNumbers.filter fun p => bit done p && (s.look done p).enablesUcode p).map fun p =>
    let l := s.look done p
    (p, l.comp.ucodeText p (l.ucodeSpan p).1 (l.ucodeSpan p).2)

/-- The answer of a command set by its action (R393). -/
def State.settleReply (s : State) (id : Nat) (result note detail : Nat) : State :=
  { s with host := { s.host with replies := s.host.replies.map fun r =>
      if r.id = id ∧ r.settled = false then
        { r with result := BitVec.ofNat 8 result, note := BitVec.ofNat 8 note, detail := BitVec.ofNat 64 detail, settled := true }
      else r } }

/-- The commit of a tick (R49 to R51, R410): the armed groups are judged; what commits is staged for position 200. PADDOCK_SET and
PADDOCK_RELEASE take effect with GLOBAL, or are answered FAILED. -/
def State.commitTick (s : State) : State :=
  let arm := s.reg .commit
  let groups := armedGroups arm
  let (s, done) := s.evaluate groups 0
  let mask := groups.foldl (fun v g => v ||| maskOf g 1) (0 : BitVec 64)
  let s := s.setReg .commit (s.reg .commit &&& ~~~mask)
  let ok := bit done groupGlobal
  let st : Staged := { groups := done, values := s.stagedValues done, changes := if ok then s.changes else [],
                       ucodes := s.stagedUcodes done }
  let s := s.changes.foldl (fun s c => if ok then s.settleReply c.reply 0 0 0 else s.settleReply c.reply 2 0x30 0) s
  { s with staged := if done = 0 then none else some st, changes := [] }

end Sys2Proof.Machine
end

