-- ==== Sys2Proof/Machine/HostWrite.lean ====
section
/-!
DEFINITION. Machine/HostWrite.lean: accesses of the host port to registers and through the aperture (R11, R381, R382), the
debug paths (R439, R487, R488) and REACQUIRE (R42).
-/

namespace Sys2Proof.Machine

/-! ### Debug paths -/

/-- The paddocks a debug access at DPA `a` reaches (R439). -/
def State.debugReaches (s : State) (a : Nat) : List Nat :=
  match s.place a with
  | .hbm u => match s.hbmOwner u with | some o => [o] | none => [0]
  | .store t _ => s.sheafPaddocks (t / 64)
  | .bank m _ | .silageRefused m | .silageRaw m _ | .silageGroup m _ _ => s.sheafPaddocks m
  | .reg off => match Reg.ofOffset (off / 8 * 8) with | some r => s.regPaddocks r | none => [0]
  | .host | .none => [0]

/-- The 64 bytes at `a` as the MEM path reads them, with the key paddock `p` for HBM (R487): R294 is set aside. -/
def State.debugRead (s : State) (p a : Nat) : List Byte :=
  match s.place a with
  | .hbm u => leBytes 64 (s.readUnit p u).toNat
  | .store _ _ | .bank _ _ | .host => Memory.bytes s.mem a 64
  | .silageRaw m off => Memory.bytes s.mem (sheafBase m + off) 64
  | .silageGroup m g _ => s.readGroup m g
  | _ => s.readBytesAll 0 a 64

/-- 64 bytes written at `a` by the MEM path: registers of the register space take whole 64-bit writes. -/
def State.debugWrite (s : State) (p a : Nat) (bs : List Byte) : State :=
  match s.place a with
  | .hbm _ | .host => s.writeChunk p a bs true
  | .store _ _ | .bank _ _ => { s with mem := Memory.setBytes s.mem a bs, eccWords := clearMarks s.eccWords 8 a 64 }
  | .silageRaw m off =>
    { s with mem := Memory.setBytes s.mem (sheafBase m + off) bs, eccWords := clearMarks s.eccWords 8 (sheafBase m + off) 64 }
  | .silageGroup m g _ => s.writeGroup m g bs
  | _ =>
    if regBase ≤ a ∧ a < regBase + 0x4900000 then
      (List.range 8).foldl (fun s i =>
        match Reg.ofOffset (a - regBase + 8 * i) with
        | some r => if r.isDebug then s else s.writePlain r (BitVec.allOnes 64) (BitVec.ofNat 64 (leNat ((bs.drop (8 * i)).take 8)))
        | none => s) s
    else s

/-- Whether any of the 64 bytes at `a` lies in a backed place for the MEM path; a SCRUBBING or unowned region is
unbacked (R414). -/
def State.debugBacked (s : State) (a : Nat) : Bool :=
  match s.place a with
  | .hbm u => (s.hbmOwner u).isSome
  | .none => (List.range 8).any fun i => decide (s.place (a + 8 * i) ≠ .none)
  | _ => true

/-- Whether the address lies in SRAM. -/
def Place.isSram : Place → Bool
  | .store _ _ | .bank _ _ | .silageRefused _ | .silageRaw _ _ | .silageGroup _ _ _ => true
  | _ => false

/-- A GO of DBG_MEM_CTL (R487, R488): the access is made and DONE falls; a GO while DONE is 0 is ignored. -/
def State.debugMemGo (s : State) : State :=
  if s.debugMem.isSome then s
  else
    let ctl := s.reg .dbgMemCtl
    let a := bits ctl 6 42 * 64
    let p := bits ctl 56 4
    let write := bit ctl 61
    let s := { s with debugMem := some ctl }
    let s := s.debugUse 0 (s.debugReaches a)
    let s := if (s.place a).isSram && !write then { s with sec := { s.sec with sramRead := true } } else s
    let s := if s.debugBacked a then s else s.raiseUnbacked srcFarrier p a write
    let s := match s.place a with
      | .silageRefused m => s.raise (srcSheaf m) evtSlgAccess (slgPayload a)
      | _ => s
    if write then
      s.debugWrite p a ((List.range 8).flatMap fun j => leBytes 8 (s.reg (.dbgMemData j)).toNat)
    else
      let s := if s.debugBacked a && decide (a < hostBase) then (s.checkReadAt a 64).1 else s
      let bs := s.debugRead p a
      (List.range 8).foldl (fun s j => s.setReg (.dbgMemData j) (s.deviceUpdate (.dbgMemData j) (BitVec.ofNat 64 (leNat ((bs.drop (8 * j)).take 8))))) s

/-- A GO of DBG_HALT (R487): the stop of tile TILE at position 200 of the next tick is requested. -/
def State.debugHaltGo (s : State) : State :=
  let n := s.field .dbgHalt 0 15
  if 25600 ≤ n then { s with sec := { s.sec with halt := true } }.debugUse 1 [0]
  else
    let s := { s with sec := { s.sec with halt := true } }.debugUse 1 (s.sheafPaddocks (n / 64))
    { s with progs := s.progs ++ [{ kind := .halt, paddock := s.tilePaddock n, queue := 0, stride := s.stride, images := [{ tile := n }], reply := 0 }] }

/-- A GO of DBG_FORCE_ADDR (R487, R488): VALUE goes into the register at OFFSET; an offset that names none writes nothing
and still counts as a use. -/
def State.debugForceGo (s : State) : State :=
  let v := s.reg .dbgForceValue
  let s := { s with sec := { s.sec with force := true } }
  match Reg.ofOffset (s.field .dbgForceAddr 0 27) with
  | some r => (s.debugUse 2 (s.regPaddocks r)).forceReg r v
  | none => s.debugUse 2 [0]

/-! ### Registers with a behaviour of their own -/

/-- REACQUIRE written as 1 (R41, R42); with SRC = FREE the state stays LOCKED. -/
def State.reacquire (s : State) : State :=
  if s.allIdle then
    if s.field .timeCtl 0 2 = 0 then s else { s with time := { s.time with state := .acquire } }
  else s.raise srcFarrier evtTimeRefused 0

/-- A register written by the host port or the Farrier (R8), acting bits included. -/
def State.writeReg (s : State) (r : Reg) (mask v : BitVec 64) : State :=
  let s := s.writePlain r mask v
  let x := v &&& mask
  match r with
  | .timeCtl => if bit x 17 then s.reacquire else s
  | .dbgMemCtl => if bit x 63 then s.debugMemGo else s
  | .dbgHalt => if bit x 63 then s.debugHaltGo else s
  | .dbgForceAddr => if bit x 63 then s.debugForceGo else s
  | _ => s

/-- A register written through BAR0 (R391). -/
def State.barWrite (s : State) (r : Reg) (mask v : BitVec 64) : State := (s.noteBar r mask).writeReg r mask v

/-- EVT_REG_ACCESS (R11, R381, R479). -/
def State.raiseRegAccess (s : State) (offset size : Nat) (write : Bool) : State :=
  s.raise srcHost evtRegAccess (pack 128 [(0, 27, offset), (27, 1, b2n write), (32, 4, size)])

/-- The bits of a register that an access of `size` bytes at `offset` covers (R11). -/
def accessMask (offset size : Nat) : BitVec 64 := maskOf (8 * (offset % 8)) (8 * size)

/-- An access of the register space written; `none` when it names no register or has a wrong size (R11). -/
def State.writeAccess (s : State) (offset size : Nat) (v : BitVec 64) : Option State :=
  if accessOk offset size then
    (Reg.ofOffset (offset / 8 * 8)).map fun r =>
      s.barWrite r (accessMask offset size) (BitVec.ofNat 64 (v.toNat <<< (8 * (offset % 8))))
  else none

/-- BAR0's extent (R381). -/
def bar0Size : Nat := 0x4000000

/-- A host write to BAR0 (R11, R381). -/
def State.hostWrite (s : State) (offset size : Nat) (v : BitVec 64) : State :=
  if !s.host.up || decide (bar0Size ≤ offset) then s
  else (s.writeAccess offset size v).getD (s.raiseRegAccess offset size true)

/-- The data of a completion sent to the host. -/
def State.complete (s : State) (bs : List Byte) (poisoned : Bool) : State :=
  { s with host := { s.host with data := bs, poisoned := poisoned } }

/-- A host read of BAR0 (R11, R381). -/
def State.hostRead (s : State) (offset size : Nat) : State :=
  if !s.host.up || decide (bar0Size ≤ offset) then s
  else
    match s.accessReg 0 offset size with
    | some v => s.complete (leBytes size v.toNat) false
    | none => (s.raiseRegAccess offset size false).complete (List.replicate size 0) false

/-! ### The aperture (R382) -/

/-- Size of an aperture page. -/
def pageSize : Nat := 0x200000

/-- A read through a mapped page with access paddock `p`. -/
def State.pageRead (s : State) (p a n : Nat) : State × List Byte :=
  if regBase ≤ a ∧ a < regBase + 0x4900000 then
    match s.place (a / 8 * 8) with
    | .reg _ => match s.accessReg p (a - regBase) n with
      | some v => (s, leBytes n v.toNat)
      | none => (s.raiseRegAccess (a - regBase) n false, List.replicate n 0)
    | _ => (s.raiseUnbacked srcHost p a false, List.replicate n 0)
  else
    let s := match s.firstUnreached p a n false with
      | some (x, .silage) => (match s.place x with
        | .silageRefused m => s.raise (srcSheaf m) evtSlgAccess (slgPayload x)
        | _ => s)
      | some (x, _) => s.raiseUnbacked srcHost p x false
      | none => s
    (s, s.readBytes p a n)

/-- A write through a mapped page with access paddock `p`: a register takes it only from paddock 0 (R382, R295). -/
def State.pageWrite (s : State) (p a : Nat) (bs : List Byte) : State :=
  if regBase ≤ a ∧ a < regBase + 0x4900000 then
    match s.place (a / 8 * 8) with
    | .reg _ =>
      if p ≠ 0 then s.raiseUnbacked srcHost p a true
      else (s.writeAccess (a - regBase) bs.length (BitVec.ofNat 64 (leNat bs))).getD (s.raiseRegAccess (a - regBase) bs.length true)
    | _ => s.raiseUnbacked srcHost p a true
  else
    let s := match s.firstUnreached p a bs.length true with
      | some (x, .silage) => (match s.place x with
        | .silageRefused m => s.raise (srcSheaf m) evtSlgAccess (slgPayload x)
        | _ => s)
      | some (x, _) => s.raiseUnbacked srcHost p x true
      | none => s
    let s := match s.partialGroup p a bs with
      | some (m, x) => s.raise (srcSheaf m) evtSlgPartial (slgPayload x)
      | none => s
    s.writeBytesHost p a bs

/-- An access of one page: `data` is what is written, if it is a write. -/
def State.pageAccess (s : State) (offset n : Nat) (data : Option (List Byte)) : State × List Byte :=
  let page := offset / pageSize
  let r := s.reg (.apt page)
  let a := bits r 21 27 * pageSize + offset % pageSize
  let p := bits r 56 4
  if !bit r 63 then
    (s.raise srcHost evtAptUnmapped (pack 128 [(0, 13, page), (13, 21, offset % pageSize), (34, 1, b2n data.isSome)]), List.replicate n 0)
  else
    match data with
    | some bs => (if bit r 62 then s.pageWrite p a bs else s, [])
    | none => s.pageRead p a n

/-- Whether the read met an uncorrectable word or unit (R297): its completion is poisoned. -/
def State.pagePoisoned (s : State) (offset n : Nat) : State × Bool :=
  let r := s.reg (.apt (offset / pageSize))
  let a := bits r 21 27 * pageSize + offset % pageSize
  if bit r 63 && decide (a < regBase) && decide (s.reach (bits r 56 4) a false true = .ok) then
    let (s, bad) := s.checkReadAt a n
    (s, bad.isSome)
  else (s, false)

/-- A BAR2 access of `n` bytes (R382); it lies in one page, or is cut at the page boundary. -/
def State.aperture (s : State) (offset n : Nat) (data : Option (List Byte)) : State :=
  if !s.host.up then s
  else
    let k := min n (pageSize - offset % pageSize)
    match data with
    | some bs =>
      let s := (s.pageAccess offset k (some (bs.take k))).1
      if k < n then (s.pageAccess (offset + k) (n - k) (some (bs.drop k))).1 else s
    | none =>
      let (s, bad) := s.pagePoisoned offset k
      let (s, xs) := s.pageAccess offset k none
      if k < n then
        let (s, bad2) := s.pagePoisoned (offset + k) (n - k)
        let (s, ys) := s.pageAccess (offset + k) (n - k) none
        s.complete (xs ++ ys) (bad || bad2)
      else s.complete xs bad

/-! ### Commands -/

/-- REGISTER_WRITE (R8, R11, R12, R489, R490). -/
def execRegisterWrite (offset size : Nat) (value : BitVec 64) (s : State) : Host.Outcome State Fault Refusal :=
  .next (s.whenRunning fun s => s.hostWrite offset size value)

/-- HOST_REGISTER_READ (R11, R381, R489). -/
def execHostRegisterRead (offset size : Nat) (s : State) : Host.Outcome State Fault Refusal :=
  .next (s.whenRunning fun s => s.hostRead offset size)

/-- APERTURE_ACCESS (R382). -/
def execApertureAccess (offset size : Nat) (write : Option (List Byte)) (env : Env) (s : State) :
    Host.Outcome State Fault Refusal :=
  .next (s.whenRunning fun s => (s.takeEnv env).aperture offset size write)

/-- MTG_ENTRY_WRITE (R99): a word of a Martingale entry, written whole by the host or a CONFIG. -/
def execMtgEntryWrite (sheaf entry word : Nat) (value : BitVec 64) (s : State) : Host.Outcome State Fault Refusal :=
  .next (s.whenRunning fun s => s.barWrite (.mtgWord sheaf entry word) (BitVec.allOnes 64) value)

/-- EVT_READ_INDEX_WRITE (R485): READ of EVT_RING_IDX. -/
def execEvtReadIndexWrite (read : BitVec 32) (s : State) : Host.Outcome State Fault Refusal :=
  .next (s.whenRunning fun s => s.barWrite .ringIdx (maskOf 32 32) (read ++ (0 : BitVec 32)))

/-- REACQUIRE (R42): a write of 1 to REACQUIRE of STR_TIME_CTL alone. -/
def execReacquire (s : State) : Host.Outcome State Fault Refusal := .next (s.whenRunning State.reacquire)

/-- DEBUG_MEM (R487): a write of DBG_MEM_CTL. -/
def execDebugMem (value : BitVec 64) (env : Env) (s : State) : Host.Outcome State Fault Refusal :=
  .next (s.whenRunning fun s => (s.takeEnv env).barWrite .dbgMemCtl (BitVec.allOnes 64) value)

/-- DEBUG_MEM_DONE (R488): the operation under way completes. -/
def execDebugMemDone (s : State) : Host.Outcome State Fault Refusal :=
  .next (s.whenRunning fun s => { s with debugMem := none })

/-- DEBUG_HALT (R487): a write of DBG_HALT. -/
def execDebugHalt (value : BitVec 64) (s : State) : Host.Outcome State Fault Refusal :=
  .next (s.whenRunning fun s => s.barWrite .dbgHalt (BitVec.allOnes 64) value)

/-- DEBUG_FORCE (R487, R488): a write of DBG_FORCE_ADDR. -/
def execDebugForce (value : BitVec 64) (s : State) : Host.Outcome State Fault Refusal :=
  .next (s.whenRunning fun s => s.barWrite .dbgForceAddr (BitVec.allOnes 64) value)

/-- DEBUG_SCAN (R487): only while PORT_EN is 1; every TOUCHED bit is set. -/
def execDebugScan (s : State) : Host.Outcome State Fault Refusal :=
  .next (s.whenRunning fun s =>
    if s.portEn then { s with sec := { s.sec with scan := true } }.debugUse 3 paddockNumbers else s)

end Sys2Proof.Machine
end

