-- ==== Sys2Proof/Machine/Master.lean ====
section
/-!
DEFINITION. Machine/Master.lean: reads and writes of masters other than tiles (R176, R178, R292 to R295, R297, R309), such as the
Manger, the copy engine, the ports and the context moves of a switch.
-/

namespace Sys2Proof.Machine

/-- Free bytes (notes/assumptions/9). -/
def State.freeBytes (s : State) : Nat → State × List Byte
  | 0 => (s, [])
  | n + 1 =>
    let (v, s) := s.draw
    let (s, rest) := s.freeBytes n
    (s, BitVec.ofNat 8 v.toNat :: rest)

/-- Aligned 64-byte units of a read in order: an unreached one reads zero, an uncorrectable one as free bytes; the flag tells
whether one was uncorrectable (R292, R297, R309). -/
def State.readPieces (s : State) (p : Nat) : List (Nat × Nat) → State × List Byte × Bool
  | [] => (s, [], false)
  | u :: rest =>
    let (s, bs, bad) : State × List Byte × Bool :=
      if s.reach p u.1 false false ≠ .ok then (s, List.replicate u.2 0, false)
      else
        match s.checkUnit u.1 u.2 with
        | (s, none) => (s, s.readBytesAll p u.1 u.2, false)
        | (s, some _) =>
          let (s, bs) := s.freeBytes u.2
          (s, bs, true)
    let (s, more, worse) := s.readPieces p rest
    (s, bs ++ more, bad || worse)

/-- A read of `n` bytes by a master with a source number: the bytes, and whether one was uncorrectable. -/
def State.masterRead (s : State) (src p a n : Nat) : State × List Byte × Bool :=
  (s.raiseReach src p a n false).readPieces p (unitsOf a n)

/-- A read of one 64-bit word by a master. -/
def State.masterWord (s : State) (src p a : Nat) : State × BitVec 64 :=
  let (s, bs, _) := s.masterRead src p a 8
  (s, BitVec.ofNat 64 (leNat bs))

/-! ### Operand records (R388) -/

/-- A byte of an operand record may lie at `a`: device memory of the queue's paddock. -/
def State.operandMayLie (s : State) (p a : Nat) : Bool :=
  match s.place a with
  | .hbm u => decide (s.hbmOwner u = some p)
  | .store _ _ | .bank _ _ | .silageRaw _ _ | .silageGroup _ _ _ => decide (s.reach p a false false = .ok)
  | _ => false

/-- Every byte of [a, a + n) lies where an operand record may. -/
def State.operandPlaced (s : State) (p a n : Nat) : Bool := (lowestFailing (s.operandMayLie p) [(a, n)]).isNone

/-- An operand record read: its bytes, or none where it does not lie in device memory of the paddock or cannot be read. -/
def State.readOperand (s : State) (p a n : Nat) : State × Option (List Byte) :=
  if !s.operandPlaced p a n then (s, none)
  else
    match s.checkSource a n with
    | (s, some _) => (s, none)
    | (s, none) => (s, some (s.readBytes p a n))

end Sys2Proof.Machine
end

