-- ==== Sys2Proof/Machine/Copies.lean ====
section
/-!
DEFINITION. Machine/Copies.lean: the copy engine (R392), sealed exchange (R399 to R402) and the fields of a command record (R387).
-/

namespace Sys2Proof.Machine

/-! ### Command records (R387) -/

/-- OPCODE. -/
def CmdRec.opcode (c : CmdRec) : Nat := bits c.w0 0 8
/-- CMD_ID. -/
def CmdRec.cmdId (c : CmdRec) : Nat := bits c.w0 32 32
/-- ARG. -/
def CmdRec.arg (c : CmdRec) : Nat := bits c.w1 0 48
/-- ARG2. -/
def CmdRec.arg2 (c : CmdRec) : Nat := bits c.w2 0 48
/-- COUNT. -/
def CmdRec.count (c : CmdRec) : Nat := bits c.w3 0 32
/-- DONE. -/
def CmdRec.done (c : CmdRec) : Nat := bits c.w4 0 48
/-- PARAM. -/
def CmdRec.param (c : CmdRec) : BitVec 64 := c.w5
/-- ARG3. -/
def CmdRec.arg3 (c : CmdRec) : Nat := bits c.w6 0 48

/-! ### Results and notes (R394, R438) -/

/-- REFUSED. -/
def resRefused : Nat := 1
/-- FAILED. -/
def resFailed : Nat := 2
/-- ILLEGAL. -/
def resIllegal : Nat := 3
/-- ZERO_LENGTH. -/
def noteZeroLength : Nat := 0x01
/-- ADM_BUDGET. -/
def noteBudget : Nat := 0x10
/-- ADM_POWER. -/
def notePower : Nat := 0x11
/-- ADM_SLOTS. -/
def noteSlots : Nat := 0x12
/-- ADM_SWITCH. -/
def noteSwitch : Nat := 0x13
/-- ADM_OWNER. -/
def noteOwner : Nat := 0x14
/-- COLL_FULL. -/
def noteCollFull : Nat := 0x18
/-- NOT_FOUND. -/
def noteNotFound : Nat := 0x19
/-- RSV_ENCODING. -/
def noteReserved : Nat := 0x20
/-- OPERAND. -/
def noteOperand : Nat := 0x21
/-- UNBACKED. -/
def noteUnbacked : Nat := 0x22
/-- SEAL_TAG. -/
def noteSealTag : Nat := 0x28
/-- SEAL_KEY. -/
def noteSealKey : Nat := 0x29
/-- KEY_BUSY. -/
def noteKeyBusy : Nat := 0x31
/-- ATT_INDEX. -/
def noteAttIndex : Nat := 0x32
/-- ATT_EXHAUSTED. -/
def noteAttExhausted : Nat := 0x33
/-- ATT_BUSY. -/
def noteAttBusy : Nat := 0x34
/-- SEAL_BUSY. -/
def noteSealBusy : Nat := 0x35
/-- NO_EK. -/
def noteNoEk : Nat := 0x36
/-- LIFECYCLE. -/
def noteLifecycle : Nat := 0x37

/-! ### Transfer of 64-byte units (R392) -/

/-- Payload layout Q (R478). -/
def queuePayload (queue slot cmdId : Nat) : BitVec 128 := pack 128 [(0, 4, queue), (4, 16, slot), (32, 32, cmdId)]

/-- A device unit is reached by the copy engine: not in the register space (R392). -/
def State.copyReaches (s : State) (p a : Nat) (write : Bool) : Bool :=
  match s.place a with
  | .reg _ => false
  | _ => decide (s.reach p a write false = .ok)

/-- A unit read: none where it is not reached or not readable. -/
def State.copyRead (s : State) (p a : Nat) : State × Option (List Byte) :=
  if !s.copyReaches p a false then (s.raiseReach srcHost p a 64 false, none)
  else
    match s.checkSource a 64 with
    | (s, some _) => (s, none)
    | (s, none) => (s, some (s.readBytes p a 64))

/-- A unit written, and whether it was reached. -/
def State.copyWrite (s : State) (p a : Nat) (bs : List Byte) : State × Bool :=
  if s.copyReaches p a true then (s.writeChunk p a bs false, true) else (s.raiseReach srcHost p a 64 true, false)

/-- Units written in ascending address: the offset of the first one that is not reached. -/
def State.copyOut (s : State) (p a : Nat) : Nat → Nat → List Byte → State × Option Nat
  | 0, _, _ => (s, none)
  | k + 1, off, bs =>
    match s.copyWrite p (a + off) (bs.take 64) with
    | (s, false) => (s, some off)
    | (s, true) => s.copyOut p a k (off + 64) (bs.drop 64)

/-- Units read in ascending address: their bytes, or the offset of the first one that cannot be read. -/
def State.copyIn (s : State) (p a : Nat) : Nat → Nat → State × (Nat ⊕ List Byte)
  | 0, _ => (s, .inr [])
  | k + 1, off =>
    match s.copyRead p (a + off) with
    | (s, none) => (s, .inl off)
    | (s, some bs) =>
      match s.copyIn p a k (off + 64) with
      | (s, .inl x) => (s, .inl x)
      | (s, .inr rest) => (s, .inr (bs ++ rest))

/-- How a copy ends: RESULT, NOTE and DETAIL of its completion record. -/
structure CopyEnd where
  result : Nat := 0
  note : Nat := 0
  detail : Nat := 0
  deriving DecidableEq, Repr

/-- The end of a copy at an unreached or unreadable unit. -/
def CopyEnd.unbacked (off : Nat) : CopyEnd := { result := resFailed, note := noteUnbacked, detail := off }

/-- A COPY, unit by unit: nothing from the first unit that fails onward is written. -/
def State.copyUnits (s : State) (p src dst : Nat) : Nat → Nat → State × CopyEnd
  | 0, _ => (s, {})
  | k + 1, off =>
    match s.copyRead p (src + off) with
    | (s, none) => (s, .unbacked off)
    | (s, some bs) =>
      match s.copyWrite p (dst + off) bs with
      | (s, false) => (s, .unbacked off)
      | (s, true) => s.copyUnits p src dst k (off + 64)

/-! ### Sealed units (R400 to R402) -/

/-- Bytes of a sealed unit. -/
def sealUnit : Nat := 4096
/-- Bytes of a trailer. -/
def trailerBytes : Nat := 32

/-- The additional data of unit `u` of `count` (R400). -/
def sealData (buffer : BitVec 64) (u count : Nat) : BitVec 128 := pack 128 [(0, 64, buffer.toNat), (64, 32, u), (96, 32, count)]

/-- The nonce of a unit that the part seals (R401). -/
def sealNonce (ctr : BitVec 64) : BitVec 96 := pack 96 [(0, 64, ctr.toNat), (88, 8, 0x80)]

/-- Bytes combined with the AES-256-GCM key stream: ciphertext of plaintext, plaintext of ciphertext (R400). -/
def sealCrypt (key : BitVec 256) (nonce : BitVec 96) (bs : List Byte) : List Byte :=
  gcmCrypt (leBytes 32 key.toNat) (leBytes 12 nonce.toNat) bs

/-- The AES-256-GCM tag of a sealed unit (R400). -/
def sealTag (key : BitVec 256) (nonce : BitVec 96) (added : BitVec 128) (cipher : List Byte) : List Byte :=
  gcmTag (leBytes 32 key.toNat) (leBytes 12 nonce.toNat) (leBytes 16 added.toNat) cipher

/-- The trailer of a sealed unit (R400). -/
def sealTrailer (nonce : BitVec 96) (tag : List Byte) : List Byte := leBytes 12 nonce.toNat ++ leBytes 4 0 ++ tag

/-- The seal counter of a key of paddock `p`: the one of R399 for the key in force, that of the key before it for a seal admitted
under that key (R401, R425). -/
def State.sealCount (s : State) (p : Nat) (key : BitVec 256) : BitVec 64 :=
  let x := s.pdk p
  if x.sealingKey = some key then x.sealCtr else x.sealCtrOld

/-- The seal counter of a key of paddock `p` advances (R401). -/
def State.countSeal (s : State) (p : Nat) (key : BitVec 256) : State :=
  s.modPdk p fun x => if x.sealingKey = some key then { x with sealCtr := x.sealCtr + 1 } else { x with sealCtrOld := x.sealCtrOld + 1 }

/-- SEAL_OUT (R401): units sealed in ascending order. -/
def State.sealOutUnits (s : State) (p : Nat) (key : BitVec 256) (c : CmdRec) : Nat → Nat → State × CopyEnd
  | 0, _ => (s, {})
  | k + 1, u =>
    match s.copyIn p (c.arg + sealUnit * u) 64 0 with
    | (s, .inl off) => (s, .unbacked (sealUnit * u + off))
    | (s, .inr plain) =>
      let nonce := sealNonce (s.sealCount p key)
      let s := s.countSeal p key
      let cipher := sealCrypt key nonce plain
      let tag := sealTag key nonce (sealData c.param u c.count) cipher
      let s := s.writeBytes p (c.arg2 + sealUnit * u) cipher
      let s := s.writeBytes p (c.arg3 + trailerBytes * u) (sealTrailer nonce tag)
      s.sealOutUnits p key c k (u + 1)

/-- SEAL_IN (R402): a unit is written only after its tag has verified. -/
def State.sealInUnits (s : State) (p : Nat) (key : BitVec 256) (c : CmdRec) : Nat → Nat → State × CopyEnd
  | 0, _ => (s, {})
  | k + 1, u =>
    let cipher := s.readBytes p (c.arg2 + sealUnit * u) sealUnit
    let trailer := s.readBytes p (c.arg3 + trailerBytes * u) trailerBytes
    let nonce := BitVec.ofNat 96 (leNat (trailer.take 12))
    if sealTag key nonce (sealData c.param u c.count) cipher ≠ trailer.drop 16 then
      (s, { result := resFailed, note := noteSealTag, detail := u })
    else
      match s.copyOut p (c.arg + sealUnit * u) 64 0 (sealCrypt key nonce cipher) with
      | (s, some off) => (s, .unbacked (sealUnit * u + off))
      | (s, none) => s.sealInUnits p key c k (u + 1)

/-! ### The engine -/

/-- The completion record of a copy (R392). -/
def copyRecord (job : CopyJob) (e : CopyEnd) : List Byte :=
  leBytes 8 (pack 64 [(32, 32, job.cmd.cmdId), (24, 8, e.note), (16, 8, e.result), (1, 1, b2n job.late), (0, 1, 1)]).toNat ++
    leBytes 8 e.detail

/-- A copy ends: its completion record is written, and a failed tag is told (R392, R397, R402). -/
def State.endCopy (s : State) (job : CopyJob) (e : CopyEnd) : State :=
  let s := if e.note = noteSealTag then
      (s.raise srcHost evtSealTag (queuePayload job.queue job.slot job.cmd.cmdId ||| pack 128 [(64, 32, e.detail)])).setSecurity
    else s
  s.masterWrite srcHost job.paddock job.cmd.done (copyRecord job e)

/-- The data movement of an admitted copy or seal. -/
def State.performCopy (s : State) (job : CopyJob) : State × CopyEnd :=
  let c := job.cmd
  match job.kind with
  | .copy => s.copyUnits job.paddock c.arg c.arg2 (c.count / 64) 0
  | .sealIn => s.sealInUnits job.paddock job.key c c.count 0
  | .sealOut => s.sealOutUnits job.paddock job.key c c.count 0

/-- COPY_ENGINE_TRANSFER (R392): the oldest admitted copy is performed, and its completion record written; while the
link is down it ends without writing anything (R473). -/
def State.transferCopy (s : State) : State :=
  match s.host.copies with
  | [] => s
  | job :: rest =>
    let s := { s with host := { s.host with copies := rest } }
    if !s.host.up then s
    else
      let (s, e) := s.performCopy job
      s.endCopy job e

/-- COPY_ENGINE_TRANSFER. -/
def execCopyEngineTransfer (env : Env) (s : State) : Host.Outcome State Fault Refusal :=
  .next (s.whenRunning fun s => (s.takeEnv env).transferCopy)

/-- A copy has missed its bound, and was not reported yet. -/
def State.copyOverdue (s : State) (job : CopyJob) : Bool := !job.late && decide (job.bound ≤ s.stride)

/-- COPY_BOUND_EXPIRY (R392). -/
def State.expireCopies (s : State) : State :=
  let late := s.host.copies.filter s.copyOverdue
  let t := late.foldl (fun t job => t.raise srcHost evtCopyLate (queuePayload job.queue job.slot job.cmd.cmdId)) s
  { t with host := { t.host with copies := t.host.copies.map fun job => if s.copyOverdue job then { job with late := true } else job } }

/-- COPY_BOUND_EXPIRY. -/
def execCopyBoundExpiry (s : State) : Host.Outcome State Fault Refusal := .next (s.whenRunning State.expireCopies)

/-- The seals of a released paddock end without writing further data (R413). -/
def State.endSeals (s : State) (p : Nat) : State :=
  let mine (job : CopyJob) : Bool := decide (job.paddock = p) && decide (job.kind ≠ .copy)
  let gone := s.host.copies.filter mine
  let s := { s with host := { s.host with copies := s.host.copies.filter fun job => !mine job } }
  gone.foldl (fun s job => s.endCopy job { result := resFailed, note := noteSealKey }) s

end Sys2Proof.Machine
end

