-- ==== Sys2Proof/Machine/Power.lean ====
section
/-!
DEFINITION. Machine/Power.lean: the power governor (R440 to R458): charges and holds, slack, energy, temperature, the input, and
the hold of the part (R459, R460).
-/

namespace Sys2Proof.Machine

/-! ### Holding the part (R459, R460) -/

/-- FAIL_CODE values (BST_BOOT). -/
def failScrapped : Nat := 0x01
/-- FUSE. -/
def failFuse : Nat := 0x02
/-- FW_REJECT. -/
def failFirmware : Nat := 0x03
/-- RAIL. -/
def failRail : Nat := 0x04
/-- BIST_OUTER. -/
def failBistOuter : Nat := 0x05
/-- HBM. -/
def failHbm : Nat := 0x06
/-- SHEAVES. -/
def failSheaves : Nat := 0x07
/-- INPUT. -/
def failInput : Nat := 0x08
/-- TRIP. -/
def failTrip : Nat := 0x09
/-- REQUEST. -/
def failRequest : Nat := 0x0A

/-- The part is held in reset with a FAIL_CODE; one that is held or asleep already stays as it is (R459, R460). -/
def State.holdPart (s : State) (code : Nat) : State :=
  if s.isRunning then { s with boot := { s.boot with power := .held, failCode := BitVec.ofNat 8 code } } else s

/-! ### Charges (R446, R447), in tenths of a watt -/

/-- BASE. -/
def chargeBase : Nat := 8000
/-- An active sheaf that runs no paddock, or one without work, held or in phase IDLE. -/
def chargeIdle : Nat := 10
/-- A sheaf under test (R471). -/
def chargeTest : Nat := 49

/-- The charge of a sheaf that runs a paddock with work, by the paddock's phase. -/
def chargeOf : Phase → Nat
  | .idle => 10
  | .gen => 30
  | .fwd => 30
  | .bwd => 49

/-- The effective cap E in watts (R448, R456). -/
def State.effectiveCap (s : State) : Nat := s.field .pwrCap 0 12 - s.power.derate.toNat

/-- A start of a tile for a paddock is due by a stride (R242). -/
def Tile.startDueBy (t : Tile) (p stride : Nat) : Bool :=
  t.fresh.any fun f => decide (f.1 = p) && (match f.2 with | some k => decide (k ≤ stride) | none => false)

/-- A load or restart has made the tile's context of a paddock HALTED, and nothing has started it since (R242). -/
def Tile.isFresh (t : Tile) (p : Nat) : Bool := t.fresh.any fun f => decide (f.1 = p)

/-- A sequencer state that is work (R447). -/
def SeqState.busy : SeqState → Bool
  | .running => true
  | .waiting => true
  | .barrier => true
  | _ => false

/-- The state bits of the saved context record of tile `n` (R243): byte 0xC6 bits [3:1]. -/
def State.savedState (s : State) (p n : Nat) : SeqState :=
  match bits (s.readWord p (s.field (.pdkCtx p) 16 32 * 0x10000 + 0x10000 * (n / 64) + 256 * (n % 64) + 0xC0)) 49 3 with
  | 2 => .waiting
  | 4 => .halted
  | 5 => .faulted
  | _ => .idle

/-- Tile `n` is work of paddock `p` in the present stride (R447). On a sheaf whose switch to `p` is still to come, the saved
context tells, also when a release has left `p` alone on it. -/
def State.tileWork (s : State) (p n : Nat) : Bool :=
  let t := s.tile n
  if t.isFresh p then t.startDueBy p s.stride
  else if (s.sheaf (n / 64)).ran = some p then t.seqState.busy
  else if s.sharedSheaf (n / 64) || (s.sheaf (n / 64)).ran.isSome then (s.savedState p n).busy
  else false

/-- Paddock `p` has work on sheaf `m` (R447). -/
def State.hasWork (s : State) (p m : Nat) : Bool := (tilesOfSheaf m).any (s.tileWork p)

/-- The charge of an active sheaf with some paddocks held, and the paddock it runs (R446, R447, R448). -/
def State.planSheaf (s : State) (held : List Nat) (m : Nat) : Nat × Option Nat :=
  if s.underTest m then (chargeTest, none)
  else
    match s.runs m with
    | none => (chargeIdle, none)
    | some p => (if held.contains p || !s.hasWork p m then chargeIdle else chargeOf (s.phase p), some p)

/-- Active sheaves. -/
def State.activeSheaves (s : State) : List Nat := (List.range 400).filter fun m => (s.sheaf m).active

/-- The charges of the active sheaves with some paddocks held. -/
def State.plan (s : State) (held : List Nat) : Tbl (Nat × Option Nat) :=
  s.activeSheaves.map fun m => (m, s.planSheaf held m)

/-- The sum of charges of a plan with BASE. -/
def planTotal (plan : Tbl (Nat × Option Nat)) : Nat := plan.foldl (fun n c => n + c.2.1) chargeBase

/-- Sheaves still gated that a stride of releases makes active at most (R443). -/
def maxReleases : Nat := 392

/-- The charge of the sheaves that the stride will release (R447): queued and still gated. -/
def State.queuedCharge (s : State) : Nat :=
  chargeIdle * min maxReleases ((setIndices s.power.releaseQ).filter fun m => !(s.sheaf m).active).length

/-- The charges of the 15 strides before, a stride before stride 0 counting as E (R448). -/
def State.priorCharge (s : State) : Nat :=
  let past := s.power.charges.take 15
  past.foldl (fun n c => n + c) 0 + (15 - past.length) * (10 * s.effectiveCap)

/-- The held paddocks: one more of `rest`, which descends, while the sum does not fit (R448). -/
def State.holdMore (s : State) (prior queued : Nat) : List Nat → List Nat → List Nat
  | [], held => held
  | p :: rest, held =>
    if 160 * s.effectiveCap < prior + queued + planTotal (s.plan held) then s.holdMore prior queued rest (held ++ [p]) else held

/-- A set of paddocks as bits. -/
def paddockBits (ps : List Nat) : BitVec 16 := ps.foldl (fun v p => withBit v p true) 0

/-- The hold decision of position 200 (R448, R449): the charges of the stride, the held paddocks, and EVT_PWR_HOLD for one that the
stride before did not hold. -/
def State.decideHolds (s : State) : State :=
  let runners := (paddockNumbers.reverse).filter fun p => s.activeSheaves.any fun m => decide (s.runs m = some p) && !s.underTest m
  let held := s.holdMore s.priorCharge s.queuedCharge runners []
  let plan := s.plan held
  let before := s.power.held
  let count := (plan.filter fun c => match c.2.2 with | some p => held.contains p | none => false).length
  let s := { s with power := { s.power with prevHeld := before, held := paddockBits held, planned := plan, heldCount := count } }
  (paddockNumbers.filter fun p => held.contains p && !bit before p).foldl (fun s p =>
    s.raise srcPower evtPwrHold (pack 128 [(0, 4, p), (16, 12, s.effectiveCap)])) s

/-- Paddock `p` is held in the present stride (R449). -/
def State.isHeld (s : State) (p : Nat) : Bool := bit s.power.held p

/-- A sheaf becomes active within the stride, running a paddock or none: it is charged (R442, R447). -/
def State.chargeSheaf (s : State) (m charge : Nat) (p : Option Nat) : State :=
  let old := Tbl.get (0, none) s.power.planned m
  { s with power := { s.power with planned := Tbl.insert s.power.planned m (max old.1 charge, if old.1 = 0 then p else old.2) } }

/-! ### The end of a stride: charge, slack and energy (R447, R452 to R454) -/

/-- The charge of the ended stride, CHARGE_W and HELD (R447). -/
def State.closeCharge (s : State) : State :=
  let total := planTotal s.power.planned
  { s with power := { s.power with
      charges := (total :: s.power.charges).take 15, chargeW := total / 10, heldSheaves := BitVec.ofNat 9 s.power.heldCount } }

/-- The slack of paddock `p` in the ended stride (R452). -/
def Paddock.slackOf (x : Paddock) : Nat := if x.budgetFault then 0 else 98000 - x.maxW.getD 0

/-- PWR_SLACK_p for the ended stride `k` (R452). -/
def State.reportSlack (s : State) (k : Nat) : State :=
  paddockNumbers.foldl (fun s p => s.modPdk p fun x => { x with
    slack := BitVec.ofNat 17 x.slackOf, slackStride := BitVec.ofNat 16 k,
    heldBits := withBit (x.heldBits <<< 1) 0 (bit s.power.held p), maxW := none, budgetFault := false }) s

/-- The common denominator of the shares of R454: up to 16 holders of a sheaf, 512 regions. -/
def shareUnit : Nat := 720720 * 512

/-- The part of a sheaf's charge that falls to paddock `p`, in tenths of a watt times `shareUnit` (R454). -/
def State.sheafShare (s : State) (p : Nat) (c : Nat × (Nat × Option Nat)) : Nat :=
  match c.2.2 with
  | some q => if q = p then c.2.1 * shareUnit else 0
  | none =>
    match s.holders c.1 with
    | [] => if p = 0 then c.2.1 * shareUnit else 0
    | hs => if hs.contains p then c.2.1 * shareUnit / hs.length else 0

/-- Regions that count for paddock `p` (R454): its own, and for paddock 0 those that nobody owns. -/
def State.regionShare (s : State) (p : Nat) : Nat :=
  ((List.range 512).filter fun r =>
    let x := s.region r
    if x.state = .owned then decide (x.owner.toNat = p) else decide (p = 0)).length

/-- The charge of paddock `p` with its part of BASE. -/
def State.paddockCharge (s : State) (p : Nat) : Nat :=
  s.power.planned.foldl (fun n c => n + s.sheafShare p c) (chargeBase * s.regionShare p * (shareUnit / 512))

/-- The energy of a tile's 1/64 share of its sheaf's part (R454). -/
def tileEnergy (energy total charge : Nat) : Nat := energy * charge / (total * 64)

/-- The queues whose programs run on the sheaves of paddock `p`, each with the energy of a tile. -/
def State.queueShares (s : State) (p energy total : Nat) : List (Nat × Nat) :=
  (s.power.planned.filter fun c => decide (c.2.2 = some p)).flatMap fun c =>
    (tilesOfSheaf c.1).filterMap fun n => (s.tile n).program.bind fun r =>
      if r.paddock = p then some (r.queue, tileEnergy energy total c.2.1) else none

/-- The lowest enabled queue of paddock `p` (R454). -/
def State.lowestQueue (s : State) (p : Nat) : Option Nat :=
  (List.range 16).find? fun q => decide (s.field (.qCtl q) 0 1 = 1) && decide (s.field (.qCtl q) 16 4 = p)

/-- Energy added to a queue. -/
def State.addQueueEnergy (s : State) (q e : Nat) : State :=
  { s with power := { s.power with queueEnergy := Tbl.modify 0 s.power.queueEnergy q fun x => wrapAdd x e } }

/-- The energy of paddock `p` in the ended stride, divided among its queues (R454). -/
def State.givePaddock (s : State) (p share energy total : Nat) : State :=
  let tiles := s.queueShares p energy total
  let rest := share - tiles.foldl (fun n x => n + x.2) 0
  let s := s.modPdk p fun x => { x with energy := wrapAdd x.energy share }
  let s := tiles.foldl (fun s x => s.addQueueEnergy x.1 x.2) s
  match s.lowestQueue p with
  | some q => s.addQueueEnergy q rest
  | none => s

/-- The energy of the ended stride attributed (R453, R454). -/
def State.attributeEnergy (s : State) (energy : Nat) : State :=
  let total := planTotal s.power.planned
  let shares := paddockNumbers.map fun p => energy * s.paddockCharge p / (total * shareUnit)
  let left := energy - shares.foldl (fun n x => n + x) 0
  let s := { s with power := { s.power with energy := wrapAdd s.power.energy energy } }
  paddockNumbers.foldl (fun s p => s.givePaddock p (shares.getD p 0 + (if p = 0 then left else 0)) energy total) s

/-- A value rounded down to a whole joule (R436). -/
def wholeJoules (v : BitVec 64) : BitVec 64 := BitVec.ofNat 64 (v.toNat - v.toNat % 1000000)

/-- The sampling of R436 at the tick of stride `k`. -/
def State.sampleEnergy (s : State) (k : Nat) : State :=
  if k % 100 ≠ 0 then s
  else
    let s := { s with power := { s.power with
      energySeen := wholeJoules s.power.energy,
      queueSeen := (List.range 16).foldl (fun m q => Tbl.put 0 m q (wholeJoules (Tbl.get 0 s.power.queueEnergy q))) [] } }
    paddockNumbers.foldl (fun s p => s.modPdk p fun x => { x with energySeen := wholeJoules x.energy }) s

/-- STRIDE_W of the ended stride, the mean of its energy in µJ over 100 µs, and EVT_PWR_OVER (R453, R458): once per run of strides
with the condition. -/
def State.measurePower (s : State) (energy : Nat) : State :=
  let watts := energy / 100
  let exceeded := decide (21 * s.effectiveCap < 20 * watts)
  let old := s.power.overBits
  let s := { s with power := { s.power with strideW := BitVec.ofNat 16 watts, overBits := withBit (old <<< 1) 0 exceeded } }
  if exceeded && decide (old = 0) then s.raise srcPower evtPwrOver (pack 128 [(0, 16, watts), (16, 16, s.effectiveCap)]) else s

/-! ### The input (R440) -/

/-- The input lies outside 40 V to 50 V. -/
def outOfRange (mv : Nat) : Bool := decide (mv < 40000) || decide (50000 < mv)

/-- A reading of the input monitor, which AON keeps running while the part is held or asleep (R440, R460). -/
def State.noteInput (s : State) (mv : Nat) : State :=
  { s with power := { s.power with inputMv := BitVec.ofNat 16 mv, excursion := outOfRange mv } }

/-- A reading in a running part: the first one of an excursion raises EVT_PWR_INPUT, and POWER is set while it lasts (R440, R458). -/
def State.readInput (s : State) (mv : Nat) : State :=
  let old := s.power.excursion
  let s := s.noteInput mv
  if s.isRunning && outOfRange mv && !old then s.raise srcPower evtPwrInput (pack 128 [(0, 16, mv)]) else s

/-! ### Temperature (R456, R457) -/

/-- The largest of some temperatures, 0 of none. -/
def maxTemp : List Int → Int
  | [] => 0
  | x :: rest => rest.foldl (fun a b => if a < b then b else a) x

/-- Payload layout H (R478); a source that R16 does not list is placed in no record (R17), and the governor's own stands there. -/
def State.heatPayload (s : State) (x : Sensors) : BitVec 128 :=
  pack 128 [(0, 8, s.power.tjMax.toNat), (8, 8, s.power.hbmMax.toNat), (16, 16, if sourceOk x.hotSource then x.hotSource else srcPower), (32, 12, s.power.derate.toNat)]

/-- The refresh bit of each stack after its own reading (R456). -/
def refreshAfter (old : BitVec 8) (readings : List Int) : BitVec 8 :=
  readings.zipIdx.foldl (fun v r =>
    if 8 ≤ r.2 then v else if 85 ≤ r.1 then withBit v r.2 true else if r.1 < 80 then withBit v r.2 false else v) old

/-- DERATE_W raised by 100 W, up to CAP_W − 1,000 W (R456). -/
def State.derateUp (s : State) : Nat := max s.power.derate.toNat (min (s.power.derate.toNat + 100) (s.field .pwrCap 0 12 - 1000))

/-- The thermal sample of a tick (R456, R457). -/
def State.sampleHeat (s : State) (x : Sensors) : State :=
  let tj := x.tjMax
  let hm := maxTemp x.hbmC
  let hot := decide (100 ≤ tj) || decide (95 ≤ hm)
  let s := { s with power := { s.power with
    tjMax := BitVec.ofInt 8 tj, hbmMax := BitVec.ofInt 8 hm, refresh := refreshAfter s.power.refresh x.hbmC } }
  let s : State := if hot && !s.power.warn then
      let s : State := { s with power := { s.power with warn := true } }
      s.raise srcPower evtThermWarn (s.heatPayload x)
    else s
  let s : State := if 105 ≤ tj ∨ 100 ≤ hm then
      let old : BitVec 12 := s.power.derate
      let s : State := { s with power := { s.power with derate := BitVec.ofNat 12 s.derateUp } }
      if decide (old = 0) && decide (s.power.derate ≠ 0) then s.raise srcPower evtThermDerate (s.heatPayload x) else s
    else if !hot then
      let d := s.power.derate.toNat - 100
      { s with power := { s.power with derate := BitVec.ofNat 12 d, warn := s.power.warn && decide (d ≠ 0) } }
    else s
  if 115 ≤ tj ∨ 105 ≤ hm then
    let s := s.raise srcPower evtThermTrip (s.heatPayload x)
    { s with thermTripLow := true, power := { s.power with tripRecord := true } }.holdPart failTrip
  else s

/-! ### The input's commands and the reference clock (R440, R497) -/

/-- INPUT_EXCURSION (R440, R458): the input has left 40 V to 50 V. -/
def State.inputExcursion (s : State) (mv : Nat) : State := if outOfRange mv then s.readInput mv else s

/-- INPUT_EXCURSION. -/
def execInputExcursion (mv : Nat) (s : State) : Host.Outcome State Fault Refusal := .next (s.inputExcursion mv)

/-- INPUT_EXCURSION_END (R440): the input is back between 40 V and 50 V. -/
def State.endExcursion (s : State) (mv : Nat) : State := if outOfRange mv then s else s.noteInput mv

/-- INPUT_EXCURSION_END. -/
def execInputExcursionEnd (mv : Nat) (s : State) : Host.Outcome State Fault Refusal := .next (s.endExcursion mv)

/-- INPUT_FAIL (R440): below 38 V or above 53 V for more than 2 µs, the part is held. -/
def State.inputFail (s : State) (mv : Nat) : State :=
  if 38000 ≤ mv ∧ mv ≤ 53000 then s else (s.readInput mv).holdPart failInput

/-- INPUT_FAIL. -/
def execInputFail (mv : Nat) (s : State) : Host.Outcome State Fault Refusal := .next (s.inputFail mv)

/-- REFCLK_LOSS (R497). -/
def execRefclkLoss (s : State) : Host.Outcome State Fault Refusal := .next (s.whenRunning fun s => s.holdPart failRail)

end Sys2Proof.Machine
end

