-- ==== Sys2Proof/Machine/Wire.lean ====
section
/-!
DEFINITION. Machine/Wire.lean: the bytes that a scale-out port puts on a lane: link control blocks with their CRC-32 (R357),
the frame header (R356), the sealing of DATA and REPORT frames (R359, R365), and HELLO and IDLE frames (R358, R360).
-/

namespace Sys2Proof

/-- The CRC-32 register, reflected, after one bit. -/
def crc32Bit (r : BitVec 32) : BitVec 32 := if r.getLsbD 0 then (r >>> 1) ^^^ 0xEDB88320 else r >>> 1

/-- The register after one byte. -/
def crc32Byte (r : BitVec 32) (b : BitVec 8) : BitVec 32 := (List.range 8).foldl (fun v _ => crc32Bit v) (r ^^^ b.setWidth 32)

/-- The CRC-32 of IEEE 802.3 of some bytes: polynomial 0x04C11DB7, least significant bit of each byte first, register and
result inverted. -/
def crc32 (bs : List (BitVec 8)) : BitVec 32 := ~~~bs.foldl crc32Byte 0xFFFFFFFF

/-- Bytes 0 to 27 of a link control block (R357). -/
def Lcb.bytes (l : Lcb) : List (BitVec 8) :=
  let flags := (if l.mark then 1 else 0) + (if l.err then 2 else 0) + (if l.req then 4 else 0)
  let le := Machine.leBytes
  le 1 flags ++ le 3 0 ++ le 8 l.gtc.toNat ++ le 2 l.errGroup.toNat ++ le 1 l.errLane ++ le 1 0 ++
    le 2 l.reqGroup.toNat ++ le 1 l.reqMap.toNat ++ le 9 0

/-- The block with its CRC, as it is sent (R357). -/
def Lcb.signed (l : Lcb) : Lcb := { l with crc := crc32 l.bytes }

/-- The block passes its check (R357). -/
def Lcb.crcOk (l : Lcb) : Bool := decide (l.crc = crc32 l.bytes)

/-- TYPE codes of R356. -/
def Frame.typeData : Nat := 1
/-- IDLE. -/
def Frame.typeIdle : Nat := 2
/-- HELLO. -/
def Frame.typeHello : Nat := 3
/-- REPORT. -/
def Frame.typeReport : Nat := 4

/-- The 48 header bytes of a DATA or REPORT frame (R356). -/
def Frame.header (kind : Nat) (f : Frame) : List (BitVec 8) :=
  let le := Machine.leBytes
  le 1 kind ++ le 1 f.epoch.toNat ++ le 2 f.destTether ++ le 2 f.srcTether ++ le 2 f.srcChip ++ le 2 f.destChip ++
    le 1 f.paddock ++ le 1 (if f.report then 1 else 0) ++ le 4 f.consumed.toNat ++ le 8 f.seqNo.toNat ++
    le 2 f.collTag.toNat ++ le 2 f.reportTag.toNat ++ le 4 f.chunk ++ le 2 f.reportW.toNat ++ le 2 f.records ++
    le 6 f.dest.toNat ++ le 6 0

/-- The 96-bit nonce of a frame (R359). -/
def Frame.nonce (f : Frame) : List (BitVec 8) :=
  Machine.leBytes 8 f.seqNo.toNat ++ Machine.leBytes 2 (f.srcTether % 4096) ++ Machine.leBytes 2 f.srcChip

/-- Bytes of a frame's payload. -/
def frameBytes : Nat := 8192

/-- The 8,192 bytes of a payload. -/
def Frame.payloadBytes (f : Frame) : List (BitVec 8) := f.payload.take frameBytes ++ List.replicate (frameBytes - f.payload.length) 0

/-- A DATA or REPORT frame as its lane carries it: header, payload enciphered by AES-256-GCM under the session key, and the tag
over both with the header as additional data (R356, R359). -/
def Frame.wire (kind : Nat) (key : BitVec 256) (f : Frame) : List (BitVec 8) :=
  let k := Machine.leBytes 32 key.toNat
  let cipher := Machine.gcmCrypt k f.nonce f.payloadBytes
  f.header kind ++ cipher ++ Machine.gcmTag k f.nonce (f.header kind) cipher

/-- The header of a HELLO frame: TYPE, EPOCH, the tether indices, the chips and the paddock; the other fields are zero. -/
def Hello.header (destChip : Nat) (h : Hello) : List (BitVec 8) :=
  ({ epoch := h.linkEpoch, destTether := h.destTether, srcTether := h.srcTether, srcChip := h.srcChip, destChip := destChip,
     paddock := h.paddock } : Frame).header Frame.typeHello

/-- A HELLO frame as its lane carries it: it ends with a KMAC256 tag under the fleet handshake key (R360). -/
def Hello.wire (handshake : List (BitVec 8)) (destChip : Nat) (h : Hello) : List (BitVec 8) :=
  let body := h.header destChip ++
    (List.range frameBytes).map (Config.helloByte h.fleet h.epoch (h.stale, h.collective, h.isProtected) h.paddock h.nonce)
  body ++ Machine.kmac256 handshake body 16 ""

/-- An IDLE frame as its lane carries it: the header is zero but for TYPE, and payload and tag are pseudo-random (R358). -/
def idleWire (chip port stride entry : Nat) : List (BitVec 8) :=
  ({} : Frame).header Frame.typeIdle ++ (List.range (frameBytes + 16)).map (Config.idleByte chip port stride entry)

namespace Machine

/-- The bytes of an outgoing frame: `key` is the session key of its tether. -/
def OutFrame.wire (f : Fuses) (key : BitVec 256) : OutFrame → List Byte
  | .idle chip port stride entry => idleWire chip port stride entry
  | .hello destChip h => h.wire (handshakeKey f) destChip
  | .data x => x.wire Frame.typeData key
  | .report x => x.wire Frame.typeReport key

end Machine
end Sys2Proof
end

