-- ==== Sys2Proof/Machine/Links.lean ====
section
/-!
DEFINITION. Machine/Links.lean: the scale-out ports (R353 to R373): entries and their assignment, frames sent, link control blocks,
lane failures and remaps, the states of a tether and its handshake.
-/

namespace Sys2Proof.Machine

/-! ### Lanes and entries (R355) -/

/-- Entries of a port's stride. -/
def entryCount : Nat := 1000
/-- Length of a lane group, in ns. -/
def groupLen : Nat := 400
/-- Position at which an entry starts. -/
def entryStart (i : Nat) : Nat := groupLen * (i / 4)
/-- Position, in a lane group, of the first bit of its link control block: the last 32 of 10,000 bytes (R355). -/
def lcbOffset : Nat := 398

/-- Port states (LNK_PORT_STATUS). -/
def portDown : BitVec 3 := 0
/-- TRAINING. -/
def portTraining : BitVec 3 := 1
/-- UP. -/
def portUp : BitVec 3 := 2
/-- DEGRADED. -/
def portDegraded : BitVec 3 := 3
/-- DARK. -/
def portDark : BitVec 3 := 4

/-- The port's link is up. -/
def Port.linkUp (p : Port) : Bool := decide (p.state = portUp) || decide (p.state = portDegraded)

/-- The physical lane of logical lane `l` (LANE_MAP). -/
def mapLane (m : BitVec 8) (l : Nat) : Nat := bits m (2 * l) 2

/-- The logical lane that runs on physical lane `j`. -/
def logicalOf (m : BitVec 8) (j : Nat) : Nat := ((List.range 4).find? fun l => decide (mapLane m l = j)).getD 0

/-- A map with two logical lanes exchanged. -/
def swapLanes (m : BitVec 8) (a b : Nat) : BitVec 8 :=
  setBits (setBits m (2 * a) 2 (mapLane m b)) (2 * b) 2 (mapLane m a)

/-- An entry's logical lane is live. -/
def Port.entryLive (p : Port) (i : Nat) : Bool := p.linkUp && decide (laneOf i < p.live)

/-- The gait-table value of an entry. -/
def Port.gaitAt (p : Port) (i : Nat) : BitVec 16 := Tbl.get 0 p.gait i

/-- The tether that a gait-table value names. -/
def gaitTether (e : BitVec 16) : Nat := bits e 0 12

/-- The entries of port `n` assigned to tether `t`, ascending. -/
def State.entriesOn (s : State) (n t : Nat) : List Nat :=
  ((s.port n).gait.filter fun e => gaitValid e.2 && decide (gaitTether e.2 = t)).map Prod.fst

/-- The Bridle site of port `n` (R353). -/
def siteOf (n : Nat) : Nat := n / 4

/-- A LIVE site (LNK_BRIDLE_STATUS). -/
def siteLive : BitVec 3 := 2

/-- Port `n` may train: it is enabled, its module has passed its check (R375), and its site's LNK_REFCLK runs (R498). -/
def State.mayTrain (s : State) (n : Nat) : Bool :=
  let x := s.site (siteOf n)
  s.portEnabled n && decide (x.state = siteLive) && x.clocked

/-- A port that no longer runs, in state DOWN or DARK. -/
def Port.off (state : BitVec 3) (p : Port) : Port :=
  { p with state := state, live := 0, laneOk := 0, sent := [], out := [], remaps := [], training := 0 }

/-- The site of port `n` has its life record to write back: a port of it was disabled (R376). -/
def State.portWentOff (s : State) (n : Nat) : State := s.modSite (siteOf n) fun x => { x with portOff := true }

/-- The module of port `n` has reached its end of life (R377). -/
def State.siteEnded (s : State) (n : Nat) : Bool := decide ((s.site (siteOf n)).wear = 2)

/-- The entries of tether `t` on port `n` are old ones, which only its earlier frames use (R377). -/
def State.oldEntries (s : State) (n t : Nat) : Bool := (s.tether t).movedAt.isSome && s.siteEnded n

/-- The entries of port `n` that frames accepted now will use. -/
def State.newEntries (s : State) (n t : Nat) : List Nat := if s.oldEntries n t then [] else s.entriesOn n t

/-- Live entries of tether `t`, and all of them. -/
def State.entryCounts (s : State) (t : Nat) : Nat × Nat :=
  portNumbers.foldl (fun x n =>
    let es := s.newEntries n t
    (x.1 + (es.filter (s.port n).entryLive).length, x.2 + es.length)) (0, 0)

/-- A stamp (R357): stride number [7:0] and lane group. -/
def stampOf (stride group : Nat) : BitVec 16 := pack 16 [(8, 8, stride), (0, 8, group)]

/-- Lane groups from one stamp to another, modulo 256 strides. -/
def stampGap (x y : BitVec 16) : Nat :=
  let n (v : BitVec 16) : Nat := bits v 8 8 * 250 + bits v 0 8
  (n y + 64000 - n x) % 64000

/-- Stamp `y` is not before stamp `x`, within half of the range of stamps. -/
def stampReached (x y : BitVec 16) : Bool := decide (stampGap x y < 32000)

/-! ### Assignment (R362, R368) -/

/-- Entries in the order of R362: from 20 up, then 0 to 19. -/
def entryOrder : List Nat := span 20 980 ++ List.range 20

/-- DEG of port `n` in force. -/
def State.portDeg (s : State) (n : Nat) : Nat := s.field (.portCtl n) 32 2

/-- Entry `i` of port `n` is free to assign: not assigned, not held back by a scrub (R378), and on a protected lane if the tether is
PROTECTED (R371). -/
def State.entryFree (s : State) (n i : Nat) (prot : Bool) : Bool :=
  let p := s.port n
  !gaitValid (p.gaitAt i) && !(p.scrubHeld.any fun h => decide (h.1 = i)) && (!prot || decide (laneOf i + s.portDeg n ≤ 3))

/-- `count` free entries of port `n` in the order of R362. -/
def State.pickEntries (s : State) (n count : Nat) (prot : Bool) : Option (List Nat) :=
  let es := (entryOrder.filter fun i => s.entryFree n i prot).take count
  if es.length = count then some es else none

/-- The gait-table value of an entry of tether `t`. -/
def gaitValue (t : Nat) (prot : Bool) : BitVec 16 := pack 16 [(15, 1, 1), (14, 1, b2n prot), (0, 12, t)]

/-- Entries of port `n` written for tether `t`. -/
def State.assignEntries (s : State) (n t : Nat) (prot : Bool) (es : List Nat) : State :=
  s.modPort n fun p => { p with gait := es.foldl (fun g i => Tbl.put 0 g i (gaitValue t prot)) p.gait }

/-- The entries of tether `t` cleared on some ports. -/
def State.clearEntries (s : State) (t : Nat) (ports : List Nat) : State :=
  ports.foldl (fun s n => s.modPort n fun p => { p with gait := p.gait.filter fun e => !(gaitValid e.2 && decide (gaitTether e.2 = t)) }) s

/-- Ends of the entries of tether `t` in the send period, counted from the tick of the acceptance stride, ascending (R364, R368). -/
def State.entryEnds (s : State) (t : Nat) : List Nat :=
  let part (lo hi base : Nat) : List Nat := (span lo (hi - lo)).flatMap fun i =>
    (portNumbers.filter fun n => let e := (s.port n).gaitAt i; gaitValid e && decide (gaitTether e = t) && !s.oldEntries n t).map fun _ =>
      base + entryStart i + groupLen
  part 20 entryCount 0 ++ part 0 20 strideLen

/-- The largest DELAY_NS + FABRIC_NS over the ports of tether `t` (R368). -/
def State.tetherDelay (s : State) (t : Nat) : Nat :=
  portNumbers.foldl (fun d n =>
    if (s.newEntries n t).isEmpty then d else max d ((s.port n).delayNs.toNat + s.field (.portCtl n) 48 16)) 0

/-- W_r (R368). -/
def resendWindow (delay : Nat) : Nat := 1400 + 2 * delay

/-- b_min of tether `t` with the entries assigned (R368). -/
def State.boundMin (s : State) (t : Nat) (prot : Bool) : Nat :=
  let ends := s.entryEnds t
  let c := ends.length
  let d := s.tetherDelay t
  let shift := if prot then ceilDiv (resendWindow d) groupLen + 1 else 0
  let last (x : Nat) : Nat := ends.getD ((x + shift) % c) 0 + strideLen * ((x + shift) / c)
  let worst := (List.range c).foldl (fun m x => max m (last x)) 0
  max 1 (ceilDiv (worst + d + 1000) strideLen)

/-! ### Tether states (R363) -/

/-- The lowest port of tether `t`: the source of its events. -/
def State.tetherSource (s : State) (t : Nat) : Nat := srcPort ((setIndices (s.tether t).ports).head?.getD 0)

/-- Payload layout T (R478) with more fields. -/
def State.tetherPayload (s : State) (t : Nat) (fields : List (Nat × Nat × Nat)) : BitVec 128 :=
  pack 128 ([(64, 12, t), (76, 16, (s.tether t).peerChip.toNat), (92, 4, (s.tether t).paddock)] ++ fields)

/-- The tether is formed: it has a session key. -/
def Tether.isFormed (x : Tether) : Bool :=
  decide (x.state = .formed) || decide (x.state = .degraded) || decide (x.state = .broken)

/-- EVT_TETHER_DOWN. -/
def State.raiseDown (s : State) (t cause : Nat) : State := s.raise (s.tetherSource t) evtTetherDown (s.tetherPayload t [(0, 1, cause)])

/-- Lanes changed: the live entries of a tether are counted again; a formed one that has lost entries is DEGRADED, or BROKEN with
none left (R371). -/
def State.refreshTether (s : State) (t : Nat) : State :=
  let (live, all) := s.entryCounts t
  let x := s.tether t
  if x.state = .closed then s
  else
    let s := s.modTether t fun x => { x with slots := live }
    if x.state = .formed ∨ x.state = .degraded then
      if live = 0 then (s.modTether t fun x => { x with state := .broken }).raiseDown t 1
      else if live < all ∧ x.state = .formed then
        (s.modTether t fun x => { x with state := .degraded }).raise (s.tetherSource t) evtTetherDegraded (s.tetherPayload t [(0, 12, live)])
      else s
    else s

/-- The tethers with entries on port `n` counted again. -/
def State.refreshPort (s : State) (n : Nat) : State :=
  let ts := (s.tethers.map Prod.fst).filter fun t => bit (s.tether t).ports n
  ts.foldl State.refreshTether s

/-- Tether `t` stays on a module at its end of life (R377). -/
def State.staysOnEnded (s : State) (t : Nat) : Bool := portNumbers.any fun n => s.siteEnded n && !(s.newEntries n t).isEmpty

/-- A port of a module at its end of life that carries no entries is disabled, its lasers off (R377). -/
def State.darkenPort (s : State) (n : Nat) : State :=
  if s.siteEnded n && (s.port n).gait.isEmpty && !(s.port n).ended then
    (s.modPort n fun p => { p.off portDark with ended := true }).portWentOff n
  else s

/-- A tether that has moved gives up its old entries when its earlier frames have left (R377). -/
def State.finishMove (s : State) (t : Nat) : State :=
  let x := s.tether t
  match x.movedAt with
  | none => s
  | some k =>
    if x.pend.any fun f => decide (f.stride ≤ k) then s
    else
      let old := portNumbers.filter s.siteEnded
      let s := (s.clearEntries t old).modTether t fun x => { x with
        movedAt := none, ports := old.foldl (fun v n => withBit v n false) x.ports }
      old.foldl State.darkenPort s

/-- A DEGRADED tether whose entries are all live is FORMED at the tick (R372). -/
def State.restoreTethers (s : State) : State :=
  (s.tethers.map Prod.fst).foldl (fun s t =>
    let s := s.finishMove t
    let (live, all) := s.entryCounts t
    if (s.tether t).state = .degraded ∧ live = all ∧ s.staysOnEnded t = false then s.modTether t fun x => { x with state := .formed, slots := live } else s) s

/-- A tether CLOSED: its contract ends and its entries are free (R363). -/
def State.closeTether (s : State) (t : Nat) : State :=
  (s.clearEntries t portNumbers).modTether t fun x => { x with
    state := .closed, slots := 0, pend := [], lateSent := [], staged := [], reportDue := false, tagsDue := [], movedAt := none,
    peerStale := false, sessionKey := 0 }

/-- TETHER_OPENING_TIMEOUT (R363): 64 strides without a valid HELLO of the peer. -/
def State.timeOutTether (s : State) (t : Nat) : State :=
  let x := s.tether t
  if x.state = .opening ∧ x.openStride + 64 ≤ s.stride then (s.raiseDown t 0).closeTether t else s

/-- TETHER_OPENING_TIMEOUT. -/
def execTetherOpeningTimeout (t : Nat) (s : State) : Host.Outcome State Fault Refusal :=
  .next (s.whenRunning fun s => s.timeOutTether t)

/-- TETHER_BROKEN (R363): every entry lost, or no valid frame of the paired tether for 8 strides. -/
def State.breakTether (s : State) (t : Nat) : State :=
  let x := s.tether t
  if (x.state = .formed ∨ x.state = .degraded) ∧ (x.lastValid + 8 ≤ s.stride ∨ (s.entryCounts t).1 = 0) then
    (s.modTether t fun x => { x with state := .broken }).raiseDown t 1
  else s

/-- TETHER_BROKEN. -/
def execTetherBroken (t : Nat) (s : State) : Host.Outcome State Fault Refusal :=
  .next (s.whenRunning fun s => s.breakTether t)

/-- A frame accepted in a stride is past the tether's bound, and was not reported yet (R57). -/
def Tether.overdue (x : Tether) (now : Nat) (f : Pend) : Bool := !f.late && decide (f.stride + x.boundM1.toNat + 1 ≤ now)

/-- TETHER_BOUND_EXPIRY (R58, R371): each frame past its bound, unsent or sent too late for it, raises EVT_TETHER_LATE and
counts. -/
def State.expireTether (s : State) (t : Nat) : State :=
  let x := s.tether t
  let late (f : BitVec 64 × Nat) : Bool := decide (f.2 + x.boundM1.toNat + 1 ≤ s.stride)
  let gone := (x.lateSent.filter late).map Prod.fst ++ (x.pend.filter (x.overdue s.stride)).map Pend.seqNo
  let s := gone.foldl (fun s v => s.raise (s.tetherSource t) evtTetherLate (s.tetherPayload t [(0, 64, v.toNat)])) s
  s.modTether t fun y => { y with
    lateCount := satAdd y.lateCount gone.length, lateSent := y.lateSent.filter fun f => !late f,
    pend := y.pend.map fun f => if x.overdue s.stride f then { f with late := true } else f }

/-- TETHER_BOUND_EXPIRY. -/
def execTetherBoundExpiry (t : Nat) (s : State) : Host.Outcome State Fault Refusal :=
  .next (s.whenRunning fun s => s.expireTether t)

/-! ### Acceptance (R364) and reports (R365) -/

/-- A 32-bit word that a port reads for a tether. -/
def State.readCount (s : State) (t : Nat) (a : BitVec 48) : State × BitVec 32 :=
  let (s, bs, _) := s.masterRead (s.tetherSource t) (s.tether t).paddock a.toNat 4
  (s, BitVec.ofNat 32 (leNat bs))

/-- The transfers that tether `t` accepts at the tick. -/
def State.acceptTether (s : State) (t : Nat) : State :=
  let x := s.tether t
  if x.state = .formed ∨ x.state = .degraded then
    let room := x.slots - x.pend.length
    if x.collective then
      let k := min room x.staged.length
      let new := (x.staged.take k).zipIdx.map fun f => ({ seqNo := x.nextSeq + BitVec.ofNat 64 f.2, stride := s.stride, what := .chunk f.1 } : Pend)
      s.modTether t fun x => { x with
        accepted := wrapAdd x.accepted k, nextSeq := wrapAdd x.nextSeq k, pend := x.pend ++ new, staged := x.staged.drop k }
    else
      let (s, tail) := s.readCount t x.tail
      let k := min (min room (tail - x.accepted).toNat) (x.ringFrames.toNat - (x.accepted - x.peerConsumed).toNat)
      let new := (List.range k).map fun i => ({ seqNo := x.nextSeq + BitVec.ofNat 64 i, stride := s.stride, what := .ring (x.accepted + BitVec.ofNat 32 i) } : Pend)
      s.modTether t fun x => { x with accepted := wrapAdd x.accepted k, nextSeq := wrapAdd x.nextSeq k, pend := x.pend ++ new }
  else s

/-- The tick's acceptance and reading of CONSUMED words (R364, R365). -/
def State.tetherTick (s : State) : State :=
  (s.tethers.map Prod.fst).foldl (fun s t =>
    let s := s.acceptTether t
    let x := s.tether t
    if x.isFormed && !x.collective then
      let (s, v) := s.readCount t x.consumedAt
      s.modTether t fun x => { x with ownConsumed := v, reportDue := true }
    else s) s

/-- The report fields of the next frame of a tether, if a report is due, and the tether without it (R324, R365). -/
def Tether.takeReport (x : Tether) : Option (BitVec 32 × BitVec 16 × BitVec 16) × Tether :=
  if x.collective then
    match x.tagsDue with
    | [] => (none, x)
    | r :: rest => (some (r.2.1, BitVec.ofNat 16 r.1, r.2.2), { x with tagsDue := rest })
  else if x.reportDue then (some (x.ownConsumed, 0, 0), { x with reportDue := false })
  else (none, x)

/-- A frame with report fields. -/
def withReport (f : Frame) (r : Option (BitVec 32 × BitVec 16 × BitVec 16)) : Frame :=
  match r with
  | some (c, tag, w) => { f with report := true, consumed := c, reportTag := tag, reportW := w }
  | none => f

/-! ### Sending (R358, R365) -/

/-- A frame with the header fields that every frame of tether `t` has (R356). -/
def State.addressed (s : State) (t : Nat) (seqNo : BitVec 64) (f : Frame) : Frame :=
  let x := s.tether t
  { f with
    epoch := x.linkEpoch, destTether := x.peerTether.toNat, srcTether := t, srcChip := s.chipId, destChip := x.peerChip.toNat,
    paddock := x.paddock, seqNo := seqNo }

/-- The content of an unsent frame as it leaves on port `n`: a ring frame is read from the send ring. -/
def State.loadFrame (s : State) (n t : Nat) (f : Pend) : State × Frame :=
  let x := s.tether t
  match f.what with
  | .chunk c => (s, if f.resend then c else s.addressed t f.seqNo c)
  | .ring _ =>
    let a := x.sendRing.toNat + frameBytes * (f.seqNo.toNat % max 1 x.ringFrames.toNat)
    let (s, bs, _) := s.masterRead (srcPort n) x.paddock a frameBytes
    (s, s.addressed t f.seqNo { payload := bs })

/-- A lane group counted from GTC 0. -/
def State.groupAt (s : State) (i : Nat) : Nat := s.stride * 250 + i / 4

/-- The entries of port `n` that carried their frame in the lane group of entry `i` of this stride (R355). -/
def State.entriesGone (s : State) (n i : Nat) : List Nat :=
  if (s.port n).sentGroup = s.groupAt i then (s.port n).sentEntries else []

/-- The entry carries a frame: its lane carries no other one in this lane group (R355). -/
def State.sendOut (s : State) (n i : Nat) (key : BitVec 256) (f : OutFrame) : State :=
  s.modPort n fun p => { p with
    lastEntry := some (i, f), wire := f.wire s.sec.fuses key, sentGroup := s.groupAt i, sentEntries := s.entriesGone n i ++ [i] }

/-- Time from a frame's arrival to the end of its write, in ns (R366, R368). -/
def writeTime : Nat := 1000

/-- A data frame leaves in entry `i` of port `n`: it is kept for a resend until W_r after the entry (R370), and noted when it leaves
too late for its bound (R58, R371). -/
def State.sendData (s : State) (n i t : Nat) (f : Pend) (rest : List Pend) : State :=
  let (s, frame) := s.loadFrame n t f
  let x := { s.tether t with pend := rest }
  let (r, x) := if f.resend then (none, x) else x.takeReport
  let frame := if f.resend then frame else withReport frame r
  let leaves := s.stride * strideLen + entryStart i + groupLen
  let misses := !f.late && decide ((f.stride + x.boundM1.toNat + 1) * strideLen < leaves + s.tetherDelay t + writeTime)
  let x := if misses then { x with lateSent := x.lateSent ++ [(f.seqNo, f.stride)] } else x
  let kept : SentFrame :=
    { lane := mapLane (s.port n).laneMap (laneOf i), stamp := stampOf s.stride (i / 4),
      until_ := leaves + resendWindow (s.tetherDelay t),
      tether := t, frame := frame, stride := f.stride, late := f.late || misses }
  let s := (s.modTether t fun _ => x).modPort n fun p => { p with
    sent := (p.sent.filter fun y => decide (s.now ≤ y.until_)) ++ [kept], resent := if f.resend then satAdd p.resent 1 else p.resent }
  s.sendOut n i x.sessionKey (.data frame)

/-- An IDLE frame leaves (R358). -/
def State.sendIdle (s : State) (n i : Nat) : State := s.sendOut n i 0 (.idle s.chipId n (s.stride % 2 ^ 16) i)

/-- A REPORT frame of tether `t` leaves (R365). -/
def State.sendReport (s : State) (n i t : Nat) : State :=
  let x := s.tether t
  match x.takeReport with
  | (none, _) => s.sendIdle n i
  | (some r, y) =>
    let f := withReport (s.addressed t (BitVec.ofNat 64 (2 ^ 63) + x.reportSeq) {}) (some r)
    (s.modTether t fun _ => { y with reportSeq := y.reportSeq + 1 }).sendOut n i x.sessionKey (.report f)

/-- The link epoch in force of the paddock of tether `t` (R423). -/
def State.linkEpochOf (s : State) (t : Nat) : BitVec 4 := (s.pdk (s.tether t).paddock).linkEpoch

/-- The HELLO frame of tether `t` (R360, R423). -/
def State.helloOf (s : State) (t : Nat) : Hello :=
  let x := s.tether t
  { srcChip := s.chipId, srcTether := t, destTether := x.peerTether.toNat, fleet := s.sec.fuses.fleetId,
    epoch := BitVec.ofNat 32 (s.field .cfgEpoch 0 32), stale := s.staleBit, linkEpoch := s.linkEpochOf t, paddock := x.paddock,
    collective := x.collective, isProtected := x.isProtected, nonce := x.ownNonce }

/-- The frame for an entry that `ahead` entries precede, and the frames left: of a tether that has moved, old entries take the
earlier frames (R365, R377). -/
def Tether.nextFrame (x : Tether) (old : Bool) (ahead : Nat) : Option (Pend × List Pend) :=
  let may (f : Pend) : Bool := (x.movedAt.map fun k => decide (f.stride ≤ k) == old).getD true
  (x.pend.zipIdx.filter fun f => may f.1)[ahead]?.map fun f => (f.1, x.pend.eraseIdx f.2)

/-- The live entries of the tether of entry `i` of port `n` that start with it, come before it in ascending port and entry, draw on
the same frames, and have not carried theirs: the older frames are theirs (R365). -/
def State.entriesAhead (s : State) (n i t : Nat) : Nat :=
  ((portNumbers.filter fun k => decide (k ≤ n) && s.oldEntries k t == s.oldEntries n t).flatMap fun k =>
    (span (4 * (i / 4)) 4).filter fun j =>
      (decide (k < n) || decide (j < i)) && (s.port k).entryLive j && gaitValid ((s.port k).gaitAt j) &&
        decide (gaitTether ((s.port k).gaitAt j) = t) && !(s.entriesGone k j).contains j).length

/-- ENTRY_SEND (R358, R363, R365, R378): the frame that entry `i` of port `n` carries. -/
def State.sendEntry (s : State) (n i : Nat) : State :=
  if !(s.port n).entryLive i || decide (entryCount ≤ i) || decide (entryStart i + groupLen ≤ s.position) ||
      (s.entriesGone n i).contains i then s
  else
    let s := s.advancePos (entryStart i)
    let e := (s.port n).gaitAt i
    let t := gaitTether e
    let x := s.tether t
    if !gaitValid e then s.sendIdle n i
    else if x.state = .opening ∧ inField s = true then s.sendOut n i 0 (.hello x.peerChip.toNat (s.helloOf t))
    else if x.isFormed then
      match x.nextFrame (s.oldEntries n t) (s.entriesAhead n i t) with
      | some (f, rest) => s.sendData n i t f rest
      | none => s.sendReport n i t
    else s.sendIdle n i

/-- ENTRY_SEND. -/
def execEntrySend (n i : Nat) (env : Env) (s : State) : Host.Outcome State Fault Refusal :=
  .next (s.whenRunning fun s => (s.takeEnv env).sendEntry n i)

/-! ### Link control blocks (R357, R370) -/

/-- EVT_LNK_LANE_FAIL. -/
def State.raiseLaneFail (s : State) (n lane : Nat) (own : Bool) (map : BitVec 8) (stamp : BitVec 16) : State :=
  s.raise (srcPort n) evtLnkLaneFail (pack 128 [(0, 2, lane), (2, 1, b2n own), (8, 8, map.toNat), (16, 16, stamp.toNat)])

/-- The stamp of the first lane-group boundary after a request that leaves at time `t` arrives (R370). -/
def requestStamp (t delay : Nat) : BitVec 16 :=
  let g := (t + delay) / groupLen + 1
  stampOf (g / 250) (g % 250)

/-- The link control block that port `n` sends now (R357): the time mark in group 0, and what it has to report and request. -/
def State.lcbOf (s : State) (n : Nat) : Lcb :=
  let p := s.port n
  let group := s.position / groupLen
  let stamp := requestStamp ((s.now / groupLen + 1) * groupLen) p.delayNs.toNat
  let r : LcbReport := p.out.headD {}
  Lcb.signed
    { mark := decide (group = 0), err := r.err.isSome, req := r.req.isSome, chip := s.chipId, gtc := s.time.gtc,
      errGroup := (r.err.map Prod.fst).getD 0, errLane := (r.err.map Prod.snd).getD 0,
      reqGroup := if r.req.isSome then stamp else 0, reqMap := (r.req.map Prod.fst).getD 0 }

/-- The lane group whose link control block port `n` sends next in this stride. -/
def State.nextGroup (s : State) (n : Nat) : Nat :=
  let g := s.position / groupLen
  match (s.port n).sentLcb with
  | some l => if l.gtc.toNat / groupLen = s.now / groupLen then g + 1 else g
  | none => g

/-- LANE_GROUP_START (R357, R370, R372): the port sends one link control block on every live lane; a remap that it requests, it
applies itself at the same stamp. -/
def State.sendLcb (s : State) (n : Nat) : State :=
  let g := s.nextGroup n
  if !(s.port n).linkUp || decide ((s.port n).live = 0) || decide (250 ≤ g) then s
  else
    let s := s.advancePos (g * groupLen + lcbOffset)
    let l := s.lcbOf n
    s.modPort n fun p => { p with
      sentLcb := some l, out := p.out.drop 1,
      remaps := (match (p.out.headD {}).req with | some (m, k) => p.remaps ++ [(l.reqGroup, m, k)] | none => p.remaps) }

/-- LANE_GROUP_START. -/
def execLaneGroupStart (n : Nat) (s : State) : Host.Outcome State Fault Refusal :=
  .next (s.whenRunning fun s => s.sendLcb n)

/-- The time mark of a link control block (R40, R41): the offset of the neighbour, the last mark received, and the upstream port's
use of it; a load only while every paddock's phase is IDLE (R34). -/
def State.takeMark (s : State) (n : Nat) (l : Lcb) : State :=
  let p := s.port n
  let offset : Int := (s.now : Int) - p.delayNs.toNat - l.gtc.toNat
  let again := match p.offsetStride with | some k => decide (s.stride < k + 1000) | none => false
  let s := if 20 < offset.natAbs ∧ again = false then
      (s.modPort n fun p => { p with offsetStride := some s.stride }).raise srcFarrier evtTimeOffset
        (pack 128 [(0, 16, (satInt 16 offset).toNat), (16, 5, n), (32, 16, l.chip)])
    else s
  let s := { s with time := { s.time with mark := some l.gtc } }
  if s.timeSrc = 2 ∧ s.field .timeCtl 8 5 = n then
    if s.time.state = .acquire then (if s.allIdle then s.loadGtc ((l.gtc.toNat + p.delayNs.toNat) % 2 ^ 64) else s)
    else s.useEdge (-offset)
  else s

/-- A frame sent, back ahead of the unsent frames (R370). -/
def SentFrame.again (x : SentFrame) : Pend :=
  { seqNo := x.frame.seqNo, stride := x.stride, what := .chunk x.frame, resend := true, late := x.late }

/-- Loss reported by the partner (R370): the frames sent on the lane from the group onward that are still held are sent again. -/
def State.resendLost (s : State) (n lane : Nat) (stamp : BitVec 16) : State :=
  let lost (x : SentFrame) : Bool := decide (x.lane = lane) && stampReached stamp x.stamp && decide (s.now ≤ x.until_)
  let gone := (s.port n).sent.filter lost
  let s := s.modPort n fun p => { p with sent := p.sent.filter fun x => !lost x }
  gone.reverse.foldl (fun s x =>
    if (s.tether x.tether).isFormed then s.modTether x.tether fun t => { t with pend := x.again :: t.pend } else s) s

/-- The map and the live lanes of port `n` once every remap under way applies. -/
def Port.comingLanes (p : Port) : BitVec 8 × Nat :=
  match (p.out.filterMap LcbReport.req).getLast?, p.remaps.getLast? with
  | some x, _ => x
  | none, some (_, m, k) => (m, k)
  | none, none => (p.laneMap, p.live)

/-- A remap that the partner requests (R370, R372): with a loss report a lane has failed, without one a lane has been retrained and
is the highest live logical lane of the map. -/
def State.requestRemap (s : State) (n : Nat) (l : Lcb) : State :=
  let live := (s.port n).comingLanes.2
  if l.err then
    (s.modPort n fun p => { p with
      state := portDegraded, laneOk := withBit p.laneOk l.errLane false, remaps := p.remaps ++ [(l.reqGroup, l.reqMap, live - 1)] }).raiseLaneFail
        n l.errLane false l.reqMap l.errGroup
  else
    let k := min 4 (live + 1)
    s.modPort n fun p => { p with
      laneOk := withBit p.laneOk (mapLane l.reqMap (k - 1)) true, remaps := p.remaps ++ [(l.reqGroup, l.reqMap, k)] }

/-- The stamp, at the partner, of the lane group that arrives at port `n` now. -/
def State.arrivalStamp (s : State) (n : Nat) : BitVec 16 :=
  let g := (s.now - (s.port n).delayNs.toNat) / groupLen
  stampOf (g / 250) (g % 250)

/-- The codeword flags of the lanes (R354, R369): corrected codewords wrap, uncorrectable ones saturate, and each lane with loss is
reported in an LCB of its own, unless a report of it waits already. -/
def State.takeFlags (s : State) (n : Nat) (l : Lcb) : State :=
  let stamp := s.arrivalStamp n
  let waits (p : Port) (j : Nat) : Bool := p.out.any fun r => decide (r.err.map Prod.snd = some j)
  let lost := l.fecLost.filter fun x => decide (0 < x.2)
  s.modPort n fun p =>
    let p := { p with
      fecCorr := p.fecCorr + BitVec.ofNat 32 l.fecCorrected, fecUncorr := satAdd p.fecUncorr ((lost.map Prod.snd).foldl (· + ·) 0) }
    lost.foldl (fun p x => if waits p x.1 || !bit p.laneOk x.1 then p else { p with out := p.out ++ [{ err := some (stamp, x.1) }] }) p

/-- LINK_CONTROL_BLOCK (R357): a copy that passes its check is acted on once. -/
def State.takeLcb (s : State) (n : Nat) (l : Lcb) : State :=
  if !(s.port n).linkUp then s
  else
  let s := s.takeFlags n l
  let l := { l with fecCorrected := 0, fecLost := [] }
  if !l.crcOk || decide ((s.port n).lastLcb = some l) then s
  else
    let s := s.modPort n fun p => { p with lastLcb := some l }
    let s := if l.err then s.resendLost n l.errLane l.errGroup else s
    let s := if l.req then s.requestRemap n l else s
    if l.mark then s.takeMark n l else s

/-- LINK_CONTROL_BLOCK. -/
def execLinkControlBlock (n : Nat) (l : Lcb) (s : State) : Host.Outcome State Fault Refusal :=
  .next (s.whenRunning fun s => s.takeLcb n l)

/-! ### Lanes (R369 to R372) -/

/-- A port with a lane map and a number of live lanes in force. -/
def Port.withLanes (p : Port) (m : BitVec 8) (live : Nat) : Port :=
  { p with laneMap := m, live := live,
           state := if live = 0 then portDown else if live < 4 then portDegraded else portUp }

/-- LANE_REMAP (R370): at the stamped lane group the map applies, and the entries of dead lanes are lost. -/
def State.applyRemap (s : State) (n : Nat) : State :=
  match (s.port n).remaps with
  | [] => s
  | (stamp, m, live) :: rest =>
    let ahead := (bits stamp 8 8 + 256 - s.stride % 256) % 256
    if 0 < ahead ∧ ahead < 128 then s
    else
      let s := if ahead = 0 then s.advancePos (bits stamp 0 8 * groupLen) else s
      (s.modPort n fun p => { p.withLanes m live with remaps := rest }).refreshPort n

/-- LANE_REMAP. -/
def execLaneRemap (n : Nat) (s : State) : Host.Outcome State Fault Refusal :=
  .next (s.whenRunning fun s => s.applyRemap n)

/-- A physical lane of port `n` fails at its receiver (R369, R370): the partner is told in the next link control block, and asked for
the remap; with no live lane left the port is DOWN at once. -/
def State.failLane (s : State) (n lane : Nat) (stamp : BitVec 16) : State :=
  let p := s.port n
  let (m, live) := p.comingLanes
  let l := logicalOf m lane
  if !p.linkUp || decide (4 ≤ lane) || decide (live ≤ l) then s
  else
    let m' := if l + 1 = live then m else swapLanes m l (live - 1)
    let s := s.modPort n fun p => { p with
      state := portDegraded, laneOk := withBit p.laneOk lane false, out := p.out ++ [{ err := some (stamp, lane), req := some (m', live - 1) }] }
    let s := s.raiseLaneFail n lane true m' stamp
    if live = 1 then
      (s.modPort n fun p => { p.withLanes m' 0 with out := [], remaps := [] }).refreshPort n
    else s

/-- LANE_FAIL. -/
def execLaneFail (n lane : Nat) (stamp : BitVec 16) (s : State) : Host.Outcome State Fault Refusal :=
  .next (s.whenRunning fun s => s.failLane n lane stamp)

/-- The map that puts some physical lanes first, in ascending order, then the others. -/
def orderedMap (lanes : BitVec 4) : BitVec 8 :=
  let order := (List.range 4).filter (bit lanes) ++ (List.range 4).filter fun j => !bit lanes j
  pack 8 (order.zipIdx.map fun x => (2 * x.2, 2, x.1))

/-- The end of the training of a port at bring-up (R372): DELAY_NS is measured and the lanes that trained carry the port. -/
def Port.bringUp (p : Port) (lanes : BitVec 4) (delay : BitVec 16) : Port :=
  { p.withLanes (if lanes = 15 then 0xE4 else orderedMap lanes) (popCount lanes) with
    laneOk := lanes, delayNs := delay, training := 0, out := [], remaps := [] }

/-- One retrained lane: it becomes the highest live logical lane, announced with REQ in an LCB of its own (R372). -/
def Port.rejoin (p : Port) (lane : Nat) : Port :=
  let (m, live) := p.comingLanes
  { p with laneOk := withBit p.laneOk lane true, out := p.out ++ [{ req := some (swapLanes m (logicalOf m lane) live, live + 1) }] }

/-- LINK_TRAINING_END (R372, R498): of a port being brought up, or of the lanes that LINK_RETRAIN named. A retrained lane starts at
the stamped lane group that its link control block announces. -/
def State.endTraining (s : State) (n : Nat) (lanes : BitVec 4) (delay : BitVec 16) : State :=
  let p := s.port n
  let back := (List.range 4).filter fun j => bit lanes j && bit p.training j && !bit p.laneOk j
  if !s.mayTrain n then s
  else if p.state = portTraining then (s.modPort n fun p => p.bringUp lanes delay).refreshPort n
  else if back.isEmpty then s.modPort n fun p => { p with training := 0 }
  else if p.live = 0 then
    (s.modPort n fun p => p.bringUp (back.foldl (fun v j => withBit v j true) p.laneOk) p.delayNs).refreshPort n
  else s.modPort n fun p => back.foldl Port.rejoin { p with training := 0 }

/-- LINK_TRAINING_END. -/
def execLinkTrainingEnd (n : Nat) (lanes : BitVec 4) (delay : BitVec 16) (s : State) : Host.Outcome State Fault Refusal :=
  .next (s.whenRunning fun s => s.endTraining n lanes delay)

/-! ### HELLO and IDLE (R351, R358, R360) -/

/-- EVT_CFG_STALE (R351). -/
def State.raiseStale (s : State) (n : Nat) (h : Hello) : State :=
  s.raise (srcPort n) evtCfgStale (pack 128
    [(0, 16, s.chipId), (16, 16, h.srcChip), (32, 32, s.field .cfgEpoch 0 32), (64, 32, h.epoch.toNat), (96, 1, b2n s.staleBit), (97, 1, b2n h.stale)])

/-- The HELLO matches the own contract, and the link epoch in force (R360, R423). -/
def Tether.matchesHello (x : Tether) (epoch : BitVec 4) (h : Hello) : Bool :=
  decide (h.srcChip = x.peerChip.toNat) && decide (h.srcTether = x.peerTether.toNat) && decide (h.paddock = x.paddock) &&
    decide (h.collective = x.collective) && decide (h.linkEpoch = epoch)

/-- What the HELLO shows of its peer is kept for the opening tether that names it: a stale peer, or one of another EPOCH (R351). -/
def State.notePeer (s : State) (h : Hello) (stale : Bool) : State :=
  s.modTether h.destTether fun x =>
    if x.state = .opening ∧ h.srcChip = x.peerChip.toNat ∧ h.srcTether = x.peerTether.toNat then { x with peerStale := stale } else x

/-- The session key that tether `t` forms with (R359, R419, R423). -/
def State.formKey (s : State) (t : Nat) (h : Hello) : BitVec 256 :=
  let x := s.tether t
  sessionKey (linkKey s.sec.fuses x.paddock (s.linkEpochOf t).toNat)
    { chip := BitVec.ofNat 16 s.chipId, index := BitVec.ofNat 12 t, nonce := x.ownNonce }
    { chip := x.peerChip, index := x.peerTether, nonce := h.nonce }

/-- HELLO_FRAME (R351, R360, R363). -/
def State.takeHello (s : State) (n : Nat) (h : Hello) : State :=
  if !(s.port n).linkUp || !inField s then s
  else if !h.tagOk || decide (h.fleet ≠ s.sec.fuses.fleetId) then
    (s.raise (srcPort n) evtLnkFleet (pack 128 [(0, 32, h.fleet.toNat), (32, 16, h.srcChip), (48, 1, b2n (!h.tagOk))])).setSecurity
  else if h.epoch.toNat ≠ s.field .cfgEpoch 0 32 ∨ h.stale = true ∨ s.staleBit = true then (s.notePeer h true).raiseStale n h
  else
    let t := h.destTether
    let x := s.tether t
    if x.state = .opening ∧ x.matchesHello (s.linkEpochOf t) h = true then
      (s.modTether t fun x => { x with
        state := .formed, peerNonce := h.nonce, lastValid := s.stride, nextSeq := 0, reportSeq := 0, delivered := 0, beyond := [],
        peerConsumed := 0, pend := [], lateSent := [], staged := [], peerStale := false,
        linkEpoch := s.linkEpochOf t, sessionKey := s.formKey t h }).refreshTether t
    else s.notePeer h false

/-- HELLO_FRAME. -/
def execHelloFrame (n : Nat) (h : Hello) (s : State) : Host.Outcome State Fault Refusal :=
  .next (s.whenRunning fun s => s.takeHello n h)

/-- IDLE_FRAME (R358): it carries no data of any paddock and is not delivered. -/
def State.takeIdle (s : State) (_ : Nat) : State := s

/-- IDLE_FRAME. -/
def execIdleFrame (n : Nat) (s : State) : Host.Outcome State Fault Refusal :=
  .next (s.whenRunning fun s => s.takeIdle n)

end Sys2Proof.Machine
end

