-- ==== Sys2Proof/Machine/Hame.lean ====
section
/-!
DEFINITION. Machine/Hame.lean: the Hame's conversions (R73 to R78, R83 to R88, R98, R101 to R112, R116, R164, R165, R274,
R281 to R283) and the windows they count in.
-/

namespace Sys2Proof.Machine

/-! ### Scales and elements as values -/

/-- A block scale as decoded (R75): sign ignored, 0x7F not a number. -/
def blockScale (c : Nat) : Num := if c % 128 = 127 then .nan else fmtE4m3.decode (c % 128)

/-- A row scale as decoded (R76): sign ignored, NaN and infinity not a number, zero and subnormal zero. -/
def rowScale (c : Nat) : Num :=
  if c / 128 % 256 = 255 then .nan else if c / 128 % 256 = 0 then Num.zero false else fmtBf16.decode (c % 2 ^ 15)

/-- An element of a scaled format, alone (R68, R69). -/
def elemNum (fmt code : Nat) : Num :=
  if fmt = fOat4 then fmtE2m1.decode (code % 16)
  else if fmt = fOat4i then numOfInt (BitVec.ofNat 4 code).toInt
  else if fmt = fTeff8 then fmtE4m3.decode (code % 256)
  else if fmt = fTeff8i then numOfInt (BitVec.ofNat 8 code).toInt
  else fmtE5m2.decode (code % 256)

/-- Widening of one element (R72, R75, R76, R78). -/
def widen (fmt code : Nat) (scale : Num) (t : Int) : BitVec 16 :=
  if scale = .nan then bfNan
  else if scale.isZero then 0
  else toBfKeep (((elemNum fmt code).mul scale).scale t)

/-- Largest finite element of a scaled format (R84, R102). -/
def emax (fmt : Nat) : Nat :=
  if fmt = fOat4 then 6 else if fmt = fOat4i then 7 else if fmt = fTeff8 then 448 else if fmt = fTeff8i then 127 else 57344

/-- Largest finite element of an integer format, or its float layout. -/
def elemFmt (fmt : Nat) : Fmt := if fmt = fOat4 then fmtE2m1 else if fmt = fTeff8 then fmtE4m3 else fmtE5m2

/-! ### Quantisation -/

/-- What a quantisation needs to know (R102 to R106, R111). -/
structure QuantRule where
  fmt : Nat
  t : Int
  scap : Nat
  outliers : Bool
  raise : Bool
  satElem : Nat
  zeroFrac : Nat
  deriving DecidableEq, Repr

/-- What a conversion adds to a window (R84, R101, R104, R111); magnitudes as BF16 codes, 0 for none. -/
structure Counts where
  sat : Nat := 0
  zero : Nat := 0
  ovfl : Nat := 0
  zrange : Nat := 0
  satb : Nat := 0
  zerob : Nat := 0
  nonfin : Nat := 0
  intra : Nat := 0
  elems : Nat := 0
  amax : Nat := 0
  minblk : Nat := 0
  deriving DecidableEq, Repr

/-- The smaller of two measures, 0 standing for none. -/
def minMeasure (x y : Nat) : Nat := if x = 0 then y else if y = 0 then x else min x y

/-- Counts of two pieces of a conversion. -/
def Counts.plus (x y : Counts) : Counts :=
  { sat := x.sat + y.sat, zero := x.zero + y.zero, ovfl := x.ovfl + y.ovfl, zrange := x.zrange + y.zrange, satb := x.satb + y.satb,
    zerob := x.zerob + y.zerob, nonfin := x.nonfin + y.nonfin, intra := x.intra + y.intra, elems := x.elems + y.elems,
    amax := max x.amax y.amax, minblk := minMeasure x.minblk y.minblk }

/-- A block or row as written: its scale, its codes, its trouble byte and its counts. -/
structure QuantUnit where
  scale : Nat := 0
  codes : List Nat := []
  trouble : Nat := 0
  counts : Counts := {}
  deriving DecidableEq, Repr

/-- The smallest BF16 magnitude not below a value, limited to the largest finite one (R101). -/
def measureUp : Num → Nat
  | .fin _ m e => min (fmtBf16.ceilMag m 1 e) 0x7F7F
  | _ => 0

/-- The largest BF16 magnitude not above a non-zero value, at least the smallest subnormal (R101). -/
def measureDown : Num → Nat
  | .fin _ m e => max (min (fmtBf16.floorMag m e) 0x7F7F) 1
  | _ => 0

/-- E4M3 code of the effective cap of a block at flag level `f` (R102). -/
def capCode (scap f : Nat) : Nat := min (scap + 8 * f) 0x7E

/-- |x| > y × 2^t for a value and a natural number y. -/
def exceedsInt (x : Num) (y : Nat) (t : Int) : Bool :=
  match x with
  | .fin _ m e => ratLt y 1 t m 1 e
  | _ => false

/-- An outlier candidate (R105): |x| above the block's effective cap times Emax times 2^T. -/
def isCandidate (r : QuantRule) (f : Nat) (x : Num) : Bool :=
  match blockScale (capCode r.scap f) with
  | .fin _ m e => exceedsInt x (m * emax r.fmt) (e + r.t)
  | _ => false

/-- The selected scale code for largest magnitude `a` (R102, R103). -/
def selectScale (r : QuantRule) (f : Nat) (a : Num) : Nat :=
  match a with
  | .fin _ m e =>
    if isBlock r.fmt then min (fmtE4m3.ceilMag m (emax r.fmt) (e - r.t)) (capCode r.scap f)
    else min (max (fmtBf16.ceilMag m (emax r.fmt) (e - r.t)) 0x0080) 0x7F7F
  | _ => 0

/-- The quotient a / (Emax × 2^T) is below the smallest scale: the block or row is at the floor (R102, R103). -/
def atFloor (r : QuantRule) (a : Num) : Bool :=
  match a with
  | .fin _ m e => ratLt m (emax r.fmt) (e - r.t) 1 1 (if isBlock r.fmt then -9 else -126)
  | _ => false

/-- One finite element quantised (R83): exact quotient by the scale and 2^T, one rounding, saturating. -/
def quantElem (r : QuantRule) (scale x : Num) : Nat :=
  match x, scale with
  | .fin neg m e, .fin _ sm se =>
    if isIntFmt r.fmt then
      let (n, d) := inUnits m sm (e - se - r.t) 0
      let q := min (rneDiv n d) (emax r.fmt)
      if neg then (2 ^ (if isBlock r.fmt then 4 else 8) - q) % 2 ^ (if isBlock r.fmt then 4 else 8) else q
    else (elemFmt r.fmt).roundRat true false neg m sm (e - se - r.t)
  | _, _ => 0

/-- Whether |x| / (scale × 2^T) exceeds Emax (R84). -/
def saturates (r : QuantRule) (scale x : Num) : Bool :=
  match x, scale with
  | .fin _ m e, .fin _ sm se => ratLt (emax r.fmt * sm) 1 (se + r.t) m 1 e
  | _, _ => false

/-- Whether an element code is a zero. -/
def zeroCode (fmt code : Nat) : Bool :=
  if isIntFmt fmt then code == 0 else decide (code % 2 ^ (elemFmt fmt).sbit = 0)

/-- The code of a non-finite element of a TEFF8 or E5M2R row (R85). -/
def nonFiniteCode (fmt : Nat) (x : Num) : Nat :=
  match x with
  | .inf neg => if fmt = fE5m2r then fmtE5m2.infCode neg else 0x7F
  | _ => if fmt = fE5m2r then 0x7E else 0x7F

/-- One block or row quantised at flag level `f`: its inputs, and which of them go onto the outlier path; `ovf` says
whether its segment overflowed that path.  R85 gives no row scale for a TEFF8 or E5M2R row that holds a non-finite input:
the model selects it from the row's finite inputs, the smallest normal 0x0080 when it has none or all are zero (DESIGN
CHOICE, notes/assumptions/72). -/
def quantUnit (r : QuantRule) (f : Nat) (ovf : Bool) (xs : List (Num × Bool)) : QuantUnit :=
  let base := f + 16 * b2n ovf
  let bad := xs.any fun x => !x.1.isFinite
  if bad && (isBlock r.fmt || decide (r.fmt = fTeff8i)) then
    { scale := if isBlock r.fmt then 0x7F else 0x7FC0, codes := xs.map fun _ => 0, trouble := base, counts := { nonfin := 1 } }
  else
    let ins := (xs.filter fun x => !x.2 && x.1.isFinite).map Prod.fst
    let a := ins.foldl Num.magMax (Num.zero false)
    if !bad && a.isZero then
      { scale := if isBlock r.fmt then 0x38 else 0x3F80, codes := xs.map fun _ => 0, trouble := base + 32,
        counts := { zrange := 1, elems := xs.length } }
    else
      let sc := selectScale r f a
      let sv := if isBlock r.fmt then blockScale sc else rowScale sc
      let codes := xs.map fun x => if x.2 then 0 else if x.1.isFinite then quantElem r sv x.1 else nonFiniteCode r.fmt x.1
      if bad then { scale := sc, codes := codes, trouble := base, counts := { nonfin := 1 } }
      else
        let nz := ins.filter fun x => !x.isZero
        let sat := (nz.filter (saturates r sv)).length
        let zc := (nz.filter fun x => zeroCode r.fmt (quantElem r sv x)).length
        let frac := decide (nz ≠ []) && decide (r.zeroFrac * nz.length ≤ 32 * zc)
        let zeroed := (atFloor r a && frac) || (decide (nz ≠ []) && decide (zc = nz.length))
        let satd := decide (r.satElem ≤ sat)
        let intra := !atFloor r a && frac && !zeroed && (decide (r.fmt = fTeff8) || decide (r.fmt = fTeff8i))
        { scale := sc, codes := codes, trouble := base + 4 * b2n satd + 8 * b2n zeroed,
          counts := { sat := sat, zero := zc, satb := b2n satd, zerob := b2n zeroed, intra := b2n intra, elems := xs.length,
                      amax := measureUp a, minblk := measureDown a } }

/-- A candidate put into a list of at most 8, largest magnitude first and lower index first among equals (R105). -/
def insertCandidate (x : Num × Nat) : List (Num × Nat) → List (Num × Nat)
  | [] => [x]
  | y :: rest => if Num.magLt y.1 x.1 then x :: y :: rest else y :: insertCandidate x rest

/-- The indices taken onto the outlier path of a segment, ascending, and how many candidates found no place (R105). -/
def takeOutliers (cands : List (Num × Nat)) : List Nat × Nat :=
  let best := (cands.foldl (fun l x => insertCandidate x l) []).take 8
  ((cands.filter fun c => best.any fun b => decide (b.2 = c.2)).map Prod.snd, cands.length - best.length)

/-- The outlier record of a segment (R106): index and BF16 value of each, then empty entries. -/
def outlierRecord (seg : List Num) (idx : List Nat) : List Byte :=
  (idx.flatMap fun i => leBytes 4 (i * 65536 + (toBfKeep (seg.getD i (Num.zero false))).toNat)) ++
    List.replicate (32 - 4 * idx.length) 0

/-- The lists of at most `k` consecutive elements of a list; `fuel` bounds their number. -/
def chunksOf {α : Type} (k : Nat) : Nat → List α → List (List α)
  | 0, _ => []
  | _, [] => []
  | fuel + 1, xs => xs.take k :: chunksOf k fuel (xs.drop k)

/-- A segment of at most 256 elements: its blocks, its outlier record. `levels` are the flag levels of its blocks. -/
def quantSegment (r : QuantRule) (levels : List Nat) (seg : List Num) : List QuantUnit × List Byte × Nat :=
  let blocks := chunksOf 32 9 seg
  let cands := (blocks.zipIdx.flatMap fun b =>
    if b.1.any fun x => !x.isFinite then []
    else b.1.zipIdx.filterMap fun x => if isCandidate r (levels.getD b.2 0) x.1 then some (x.1, 32 * b.2 + x.2) else none)
  let (idx, left) := if r.outliers then takeOutliers cands else ([], 0)
  let units := blocks.zipIdx.map fun b =>
    quantUnit r (levels.getD b.2 0) (decide (left ≠ 0)) (b.1.zipIdx.map fun x => (x.1, idx.contains (32 * b.2 + x.2)))
  (units, outlierRecord seg idx, left)

/-- A row quantised: its units, its outlier records and the candidates left over (R105). -/
def quantRow (r : QuantRule) (levels : List Nat) (row : List Num) : List QuantUnit × List Byte × Nat :=
  if isBlock r.fmt then
    let segs := chunksOf 256 (row.length / 256 + 1) row
    (segs.zipIdx.map fun g => quantSegment r (levels.drop (8 * g.2)) g.1).foldl
      (fun acc x => (acc.1 ++ x.1, acc.2.1 ++ x.2.1, acc.2.2 + x.2.2)) ([], [], 0)
  else ([quantUnit r (levels.getD 0 0) false (row.map fun x => (x, false))], [], 0)

/-- Element codes as bytes of the element plane (R73, R74). -/
def codeBytes (fmt : Nat) (codes : List Nat) : List Byte :=
  if isBlock fmt then (chunksOf 2 (codes.length / 2 + 1) codes).map fun c => BitVec.ofNat 8 (c.getD 0 0 % 16 + 16 * (c.getD 1 0 % 16))
  else codes.map (BitVec.ofNat 8)

/-- Scale bytes of a unit. -/
def scaleOut (fmt c : Nat) : List Byte := if isBlock fmt then leBytes 1 c else leBytes 2 c

/-- The flag level after the fall-back of R116: raised by one where bit 2 or bit 4 of the old trouble byte is set. -/
def flagLevel (raise : Bool) (old : Nat) : Nat :=
  if raise && (decide (old / 4 % 2 = 1) || decide (old / 16 % 2 = 1)) then min (old % 4 + 1) 3 else old % 4

/-- A whole tensor quantised: element rows, scale plane, outlier plane, trouble plane, counts, first non-finite position
row-major. -/
structure Quantised where
  rows : List (List Byte)
  scales : List Byte
  outliers : List Byte
  troubles : List Byte
  counts : Counts
  nonFinite : Option Nat
  deriving DecidableEq, Repr

/-- Blocks or rows of one row of `ext0` elements. -/
def unitsPerRow (fmt ext0 : Nat) : Nat := if isBlock fmt then ext0 / 32 else 1

/-- A tensor of value rows quantised; `old` is its trouble plane as it stands. -/
def quantise (r : QuantRule) (ext0 : Nat) (old : List Byte) (rows : List (List Num)) : Quantised :=
  let u := unitsPerRow r.fmt ext0
  let done := rows.zipIdx.map fun row =>
    quantRow r ((List.range u).map fun i => flagLevel r.raise (old.getD (row.2 * u + i) 0).toNat) row.1
  let units := done.flatMap fun x => x.1
  let nf := (rows.zipIdx.findSome? fun row => (row.1.findIdx? fun x => !x.isFinite).map fun c => row.2 * ext0 + c)
  { rows := done.map fun x => codeBytes r.fmt (x.1.flatMap fun y => y.codes),
    scales := units.flatMap fun x => scaleOut r.fmt x.scale,
    outliers := if r.outliers then done.flatMap fun x => x.2.1 else [],
    troubles := units.map fun x => BitVec.ofNat 8 x.trouble,
    counts := (units.foldl (fun c x => Counts.plus c x.counts) ({} : Counts)).plus { ovfl := done.foldl (fun n x => n + x.2.2) 0 },
    nonFinite := nf }

/-! ### Windows (R110, R111) -/

/-- A paddock's STRAY count goes up (R110). -/
def State.stray (s : State) (p : Nat) : State := s.modPdk p fun x => { x with stray := satAdd x.stray 1 }

/-- An open entry takes a conversion's counts. -/
def MtgEntry.take (e : MtgEntry) (c : Counts) (trouble : Bool) : MtgEntry :=
  { e with
    sat := satAdd e.sat c.sat, zero := satAdd e.zero c.zero, ovfl := satAdd e.ovfl c.ovfl, zrange := satAdd e.zrange c.zrange,
    satb := satAdd e.satb c.satb, zerob := satAdd e.zerob (c.zerob + c.intra), nonfin := satAdd e.nonfin c.nonfin,
    intra := e.intra + c.intra, zeroed := e.zeroed + c.zerob, converted := e.converted || decide (c.elems ≠ 0), wroteTrouble := e.wroteTrouble || trouble,
    lastAmax := BitVec.ofNat 16 (max e.lastAmax.toNat c.amax), lastMinblk := BitVec.ofNat 16 (minMeasure e.lastMinblk.toNat c.minblk) }

/-- A conversion of a tile of sheaf `m` adds to the window of entry `e`, or to STRAY when the entry is closed (R110). -/
def State.account (s : State) (m e : Nat) (c : Counts) (trouble : Bool) : State :=
  if (s.entry m e).isOpen then s.modEntry m e fun x => x.take c trouble
  else s.stray ((s.runs m).getD 0)

/-! ### Acceptance (R274, R281) -/

/-- A place the Hame reaches for a tile of sheaf `m`, or the tile's own store alone (R274). -/
def State.hamePlace (s : State) (n : Nat) (own : Bool) (a : Nat) : Bool :=
  if own then ownStore n a
  else match s.place a with
    | .hbm _ => true
    | .store t _ => decide (t / 64 = n / 64)
    | .bank m _ => decide (m = n / 64)
    | .silageRefused m => decide (m = n / 64)
    | .silageRaw m _ => decide (m = n / 64)
    | .silageGroup m _ _ => decide (m = n / 64)
    | _ => false

/-- The ranges of a conversion: its planes within reach (R274, R292), no overlap of source and destination (`overlap` is
the cause), then the Silage rules. -/
def State.hameRanges (s : State) (n : Nat) (own : Bool) (overlap : Nat) (srcs dsts : List (Nat × Nat)) : Option (Nat × Nat) :=
  let p := s.tilePaddock n
  let x := lowestFailing (fun a => s.hamePlace n false a && decide (s.reach p a false false ≠ .unbacked)) srcs
  let y := lowestFailing (fun a => s.hamePlace n own a && decide (s.reach p a true false ≠ .unbacked)) dsts
  match x, y with
  | some a, some b => some (cMovAddr, min a b)
  | some a, none => some (cMovAddr, a)
  | none, some b => some (cMovAddr, b)
  | none, none =>
    match (srcs.flatMap fun u => dsts.filterMap (overlapOf u)).foldl (fun acc a => match acc with | none => some a | some b => some (min a b)) none with
    | some a => some (overlap, a)
    | none => s.reachFault p srcs dsts

/-- Kinds of entry a descriptor may name for a conversion: true also where R228 answers DESC_ENTRY instead. -/
def State.kindOk (s : State) (m : Nat) (d : BitVec 256) (kinds : List Nat) : Bool :=
  let e := s.entryOf m d
  !dHasEntry d || decide (e.kind = 0) || e.malformed || kinds.contains e.kind

/-- Extents of two descriptors agree. -/
def sameExtents (d a : BitVec 256) : Bool := decide (dExt0 d = dExt0 a) && decide (dExt1 d = dExt1 a)

/-- The format tD of an HQ is quantised into: that of a FWD or KEPT entry (R98, R281). -/
def State.targetFormat (s : State) (m : Nat) (d : BitVec 256) : Nat := s.effective m d

/-- OUTLIER of tD is what its entry asks for (R281). -/
def State.outlierOk (s : State) (m : Nat) (d : BitVec 256) : Bool :=
  let e := s.entryOf m d
  !dHasEntry d || decide (e.kind = 0) || e.malformed ||
    decide (dOutlier d = (decide (e.kind = 1) && decide (e.rung = 0) && e.outlier))

/-- Acceptance of a format: the effective one for a FWD entry, E5M2R for a KEPT one. -/
def State.formatOk (s : State) (m : Nat) (d : BitVec 256) (f : Nat) : Bool :=
  if dHasEntry d && decide ((s.entryOf m d).kind = 2) then decide (f = fE5m2r) else true

/-- Ranges a conversion reads from a scaled source. -/
def scaledSource (a : BitVec 256) (f : Nat) : List (Nat × Nat) :=
  elemRanges a f (dExt0 a) (dExt1 a) false ++ planeRanges a f (dOutlier a) false

/-- The checks of HQ: cause and DPA (R109, R228, R274, R281). -/
def State.hqFault (s : State) (n : Nat) (d a : BitVec 256) : Option (Nat × Nat) :=
  let m := n / 64
  let f := s.targetFormat m d
  match s.descFault m a (s.effective m a) (fun f => decide (f = fBf16)) false false with
  | some c => some (c, 0)
  | none =>
    let ok := s.kindOk m d [1, 2] && sameExtents d a && s.outlierOk m d && s.formatOk m d f
    match s.descFault m d f (fun _ => ok) false true with
    | some c => some (c, 0)
    | none =>
      if isRow f && decide (65536 < dExt0 d) then some (cHmeRow, 0)
      else s.hameRanges n false cMovAddr (elemRanges a fBf16 (dExt0 a) (dExt1 a) false)
        (elemRanges d f (dExt0 d) (dExt1 d) false ++ planeRanges d f (dOutlier d) (dTrouble d))

/-- tD of an HX as it is written: tA's format and outlier flag, no trouble plane. -/
def expandTarget (d a : BitVec 256) : BitVec 256 := setBits (setBits d 54 1 (b2n (dOutlier a))) 55 1 0

/-- The checks of HX (R228, R274, R281). -/
def State.hxFault (s : State) (n : Nat) (d a : BitVec 256) : Option (Nat × Nat) :=
  let m := n / 64
  let f := s.effective m a
  let plain := !dHasEntry a || decide ((s.entryOf m a).kind = 0) || (s.entryOf m a).malformed
  match s.descFault m a f (fun f => s.kindOk m a [1] && (plain || isBlock f)) false true with
  | some c => some (c, 0)
  | none =>
    let ok := sameExtents d a && dHasEntry d && decide (dEntry d = dEntry a)
    match s.descFault m d f (fun _ => ok) true true with
    | some c => some (c, 0)
    | none =>
      let x := expandTarget d a
      s.hameRanges n true cMovAddr (scaledSource a f)
        (elemRanges x f (dExt0 x) (dExt1 x) true ++ planeRanges x f (dOutlier x) false)

/-- The checks of HW (R228, R274, R281). -/
def State.hwFault (s : State) (n : Nat) (d a : BitVec 256) : Option (Nat × Nat) :=
  let m := n / 64
  let f := s.effective m a
  match s.descFault m a f (fun f => s.kindOk m a [1, 2] && s.formatOk m a f) false true with
  | some c => some (c, 0)
  | none =>
    let ok := sameExtents d a && !dHasEntry d
    match s.descFault m d (s.effective m d) (fun f => ok && decide (f = fBf16)) false false with
    | some c => some (c, 0)
    | none => s.hameRanges n false cMovAddr (scaledSource a f) (elemRanges d fBf16 (dExt0 d) (dExt1 d) false)

/-- The checks of HT (R164, R228, R274, R281). -/
def State.htFault (s : State) (n : Nat) (d a : BitVec 256) : Option (Nat × Nat) :=
  let m := n / 64
  match s.descFault m a (s.effective m a) (fun f => s.kindOk m a [3] && decide (f = fBf16)) false false with
  | some c => some (c, 0)
  | none =>
    let ok := decide (dExt0 d = dExt1 a) && decide (dExt1 d = dExt0 a) && decide (dHasEntry d = dHasEntry a) &&
      (!dHasEntry a || decide (dEntry d = dEntry a))
    match s.descFault m d (s.effective m d) (fun f => ok && decide (f = fBf16)) false false with
    | some c => some (c, 0)
    | none =>
      if dExt0 a % 32 ≠ 0 ∨ dExt1 a % 32 ≠ 0 then some (cHmeTranspose, 0)
      else s.hameRanges n false cHmeTranspose (elemRanges a fBf16 (dExt0 a) (dExt1 a) false) (elemRanges d fBf16 (dExt0 d) (dExt1 d) false)

/-- The Hame accepts a conversion while fewer than 4 of the tile are incomplete (R272). -/
def hameReady (_ : State) (t : Tile) (_ : BitVec 64) : Option Nat := if t.hame.length < 4 then some 0 else none

/-- A conversion issues: its checks, its hand-off slot (R174), and its place in the queue; `x` keeps the format it works
in. -/
def convBody (n : Nat) (k : OpKind) (check : State → BitVec 256 → BitVec 256 → Option (Nat × Nat)) (fmt : State → BitVec 256 → BitVec 256 → Nat)
    (s : State) (t : Tile) (w : BitVec 64) : Issued :=
  let d := t.t (fD w)
  let a := t.t (fA w)
  match check s d a with
  | some (c, dpa) => .fault c dpa
  | none =>
    if t.handEmpty w then .fault cHndEmpty 0
    else .retire (s.modTile n fun t => { t with hame := t.hame ++
      [{ kind := k, pc := t.pc, word := w, d := d, a := a, x := BitVec.ofNat 32 (fmt s d a), issued := s.now }] }) 1 none

/-- HQ. -/
def execHq (n : Nat) (s : State) : Host.Outcome State Fault Refusal :=
  .next (s.issueWhen n 0x40 hameReady (convBody n .hq (fun s d a => s.hqFault n d a) fun s d _ => s.targetFormat (n / 64) d))

/-- HX. -/
def execHx (n : Nat) (s : State) : Host.Outcome State Fault Refusal :=
  .next (s.issueWhen n 0x41 hameReady (convBody n .hx (fun s d a => s.hxFault n d a) fun s _ a => s.effective (n / 64) a))

/-- HW. -/
def execHw (n : Nat) (s : State) : Host.Outcome State Fault Refusal :=
  .next (s.issueWhen n 0x42 hameReady (convBody n .hw (fun s d a => s.hwFault n d a) fun s _ a => s.effective (n / 64) a))

/-- HT. -/
def execHt (n : Nat) (s : State) : Host.Outcome State Fault Refusal :=
  .next (s.issueWhen n 0x43 hameReady (convBody n .ht (fun s d a => s.htFault n d a) fun _ _ _ => fBf16))

/-! ### Start -/

/-- The entry a conversion names: that of tD for HQ and a drain, that of tA for the others. -/
def UnitOp.entryDesc (o : UnitOp) : BitVec 256 := if o.kind = .hq ∨ o.kind = .fdr then o.d else o.a

/-- A conversion with a zero extent (R283). -/
def UnitOp.emptyConv (o : UnitOp) : Bool := decide (dExt0 o.a = 0) || decide (dExt1 o.a = 0)

/-- CONVERSION_START (R172, R173, R283): the tile's conversions run one at a time in issue order; the first of them starts
when its slots allow, with T in force then. -/
def State.startConversion (s : State) (n : Nat) : State :=
  let t := s.tile n
  match t.hame with
  | [] => s
  | o :: rest =>
    if o.started.isSome || !t.mayStart o then s
    else
      let at_ := if o.pv || o.cv then s.now else max o.issued t.hameDone
      let s := s.advanceTo at_
      let e : Int := s.scaleExp (n / 64) o.entryDesc
      let o := { o with started := some (if o.pv || o.cv then s.now else at_), y := BitVec.ofInt 32 e }
      s.modTile n fun t => { t.slotStart o with hame := o :: rest }

/-- CONVERSION_START. -/
def execConversionStart (n : Nat) (s : State) : Host.Outcome State Fault Refusal :=
  .next (s.whenRunning fun s => s.startConversion n)

/-! ### Completion -/

/-- Steps of a conversion times the step time, in quarters of an aclk (R283). -/
def UnitOp.convQuarters (o : UnitOp) : Nat :=
  let e0 := dExt0 o.a
  let e1 := dExt1 o.a
  match o.kind with
  | .hq => 4 * (if isBlock o.x.toNat then ceilDiv (e0 * e1) 1024 else 2 * e1 * ceilDiv e0 1024)
  | .hx => ceilDiv (e0 * e1) 1024
  | .hw => 4 * ceilDiv (e0 * e1) 1024
  | .ht => 8 * ((e0 / 32) * (e1 / 32))
  | _ => 4

/-- aclk a conversion takes with no other tile requesting (R283). -/
def UnitOp.convTime (o : UnitOp) : Nat := if o.emptyConv then 1 else 24 + ceilDiv o.convQuarters 4

/-- A plane read by a conversion: its bytes, and where the first byte of the destination that depends on byte `i` lies. -/
structure PlaneRead where
  addr : Nat
  len : Nat
  dst : Nat → Nat

/-- The planes read in order, checked up to the first unreadable unit: the destination address at which the conversion's
writes end, and the DPA of the word (R299). -/
def State.readPlanes (s : State) : List PlaneRead → State × Option (Nat × Nat)
  | [] => (s, none)
  | p :: rest =>
    match s.checkSource p.addr p.len with
    | (s, some (a, w)) => (s, some (p.dst (a - p.addr), w))
    | (s, none) => s.readPlanes rest

/-- Rows of a BF16 tensor read as codes. -/
def State.bfRows (s : State) (p : Nat) (a : BitVec 256) : List (List (BitVec 16)) :=
  (List.range (dExt1 a)).map fun r => bf16s (s.readBytes p (rowAt a r) (2 * dExt0 a))

/-- Element byte at which the block, segment or row holding element `c` begins in a quantised row. -/
def unitStart (f : Nat) (outlier : Bool) (c : Nat) : Nat :=
  if !isBlock f then 0 else if outlier then c / 256 * 128 else c / 32 * 16

/-- The planes HQ reads: the BF16 rows and the trouble plane of its destination. -/
def hqReads (o : UnitOp) (f : Nat) : List PlaneRead :=
  ((List.range (dExt1 o.a)).map fun r =>
    { addr := rowAt o.a r, len := 2 * dExt0 o.a, dst := fun i => rowAt o.d r + unitStart f (dOutlier o.d) (i / 2) }) ++
  (if dTrouble o.d then
    [{ addr := troubleAt o.d f (dOutlier o.d), len := troubleBytes o.d f,
       dst := fun i => rowAt o.d (i / unitsPerRow f (dExt0 o.d)) + unitStart f false (32 * (i % unitsPerRow f (dExt0 o.d))) }]
   else [])

/-- The rule of a quantisation into tD by a tile of sheaf `m`, with T as at its start.  Flag levels rise only in a window of
phase GEN or FWD: a recomputation reproduces the operands of the last forward window (R116, R120). -/
def State.quantRule (s : State) (m p : Nat) (o : UnitOp) : QuantRule :=
  let e := s.entryOf m o.d
  { fmt := o.x.toNat, t := o.y.toInt, scap := e.scap, outliers := dOutlier o.d && isBlock o.x.toNat, raise := e.isOpen && e.raiseFlags && (decide (s.phase p = .gen) || decide (s.phase p = .fwd)),
    satElem := s.field (.mtgThresh p) 48 8, zeroFrac := s.field (.mtgThresh p) 40 8 }

/-- The planes a quantisation writes, in order. -/
def quantParts (d : BitVec 256) (f : Nat) (q : Quantised) : List (Nat × List Byte) :=
  (q.rows.zipIdx.map fun r => (rowAt d r.2, r.1)) ++ [(dScale d, q.scales)] ++
    (if dOutlier d then [(outlierAt d f, q.outliers)] else []) ++
    (if dTrouble d then [(troubleAt d f (dOutlier d), q.troubles)] else [])

/-- What a conversion does: the parts it writes, the counts it adds and the first non-finite position. -/
structure ConvResult where
  parts : List (Nat × List Byte)
  counts : Counts := {}
  trouble : Bool := false
  nonFinite : Option Nat := none

/-- Quantisation of value rows under tD's entry (R83 to R85, R101 to R106, R112). -/
def State.quantResult (s : State) (n : Nat) (o : UnitOp) (rows : List (List Num)) : ConvResult :=
  let p := s.tilePaddock n
  let f := o.x.toNat
  let old := if dTrouble o.d then s.readBytes p (troubleAt o.d f (dOutlier o.d)) (troubleBytes o.d f) else []
  let q := quantise (s.quantRule (n / 64) p o) (dExt0 o.d) old rows
  { parts := quantParts o.d f q, counts := q.counts, trouble := dTrouble o.d, nonFinite := q.nonFinite }

/-- Outlier entries of row `r` of a source: index within the row and BF16 value (R106). -/
def State.rowOutliers (s : State) (p : Nat) (a : BitVec 256) (f r : Nat) : List (Nat × Nat) :=
  (List.range (segments (dExt0 a))).flatMap fun g =>
    (List.range 8).filterMap fun j =>
      let w := s.readNat p (outlierAt a f + 32 * (r * segments (dExt0 a) + g) + 4 * j) 4 % 2 ^ 24
      if w = 0 then none else some (256 * g + w / 65536 % 256, w % 65536)

/-- The 4-bit or 8-bit code of element `c` of a row of bytes. -/
def codeAt (f : Nat) (row : List Byte) (c : Nat) : Nat :=
  if isBlock f then (row.getD (c / 2) 0).toNat / 16 ^ (c % 2) % 16 else (row.getD c 0).toNat

/-- The planes HX and HW read from a scaled source. -/
def scaledReads (o : UnitOp) (f : Nat) : List PlaneRead :=
  let wide := o.kind = .hw
  let nb := dExt0 o.a / 32
  let elemDst (r c : Nat) : Nat := rowAt o.d r + (if wide then 2 * c else c)
  ((List.range (dExt1 o.a)).map fun r =>
    { addr := rowAt o.a r, len := rowBytes f (dExt0 o.a) false,
      dst := fun i => elemDst r (if isBlock f then 2 * i else i) }) ++
  [{ addr := dScale o.a, len := scaleBytes f (dExt0 o.a) (dExt1 o.a),
     dst := fun i => if wide then (if isBlock f then elemDst (i / nb) (32 * (i % nb)) else elemDst (i / 2) 0) else dScale o.d + i }] ++
  (if dOutlier o.a then
    [{ addr := outlierAt o.a f, len := outlierBytes o.a,
       dst := fun i => if wide then elemDst (i / 32 / segments (dExt0 o.a)) (256 * (i / 32 % segments (dExt0 o.a)))
                       else outlierAt o.d f + i }]
   else [])

/-- The first element of a scaled block tensor that stands for a non-finite value, row-major: its block scale is not a
number, or its outlier entry holds a non-finite value (R75, R85, R88). -/
def State.scaledNonFinite (s : State) (p : Nat) (a : BitVec 256) (f : Nat) : Option Nat :=
  (List.range (dExt1 a)).findSome? fun r =>
    let outs := if dOutlier a then (s.rowOutliers p a f r).filter fun x => bfNonFinite (BitVec.ofNat 16 x.2) else []
    ((List.range (dExt0 a)).find? fun c =>
      decide (blockScale (s.readNat p (dScale a + r * (dExt0 a / 32) + c / 32) 1) = .nan) ||
        outs.any fun x => decide (x.1 = c)).map fun c => r * dExt0 a + c

/-- HX (R77, R133, R281, R282): 4-bit elements become bytes; scale and outlier planes are copied, and a NaN block scale or a
non-finite outlier among them sets the non-finite flag (R88). -/
def State.expandResult (s : State) (n : Nat) (o : UnitOp) : ConvResult :=
  let p := s.tilePaddock n
  let f := o.x.toNat
  let d := expandTarget o.d o.a
  let one (c : Nat) : Byte := BitVec.ofNat 8 (if f = fOat4i then expandInt4 c else expandE2m1 c)
  let rows := (List.range (dExt1 o.a)).map fun r =>
    let b := s.readBytes p (rowAt o.a r) (rowBytes f (dExt0 o.a) false)
    (rowAt d r, (List.range (dExt0 o.a)).map fun c => one (codeAt f b c))
  { parts := rows ++ [(dScale d, s.readBytes p (dScale o.a) (scaleBytes f (dExt0 o.a) (dExt1 o.a)))] ++
      (if dOutlier o.a then [(outlierAt d f, s.readBytes p (outlierAt o.a f) (outlierBytes o.a))] else []),
    nonFinite := s.scaledNonFinite p o.a f }

/-- The scale of element `c` of row `r` of a scaled source. -/
def State.sourceScale (s : State) (p : Nat) (a : BitVec 256) (f r c : Nat) : Num :=
  if isBlock f then blockScale (s.readNat p (dScale a + r * (dExt0 a / 32) + c / 32) 1)
  else rowScale (s.readNat p (dScale a + 2 * r) 2)

/-- HW (R78, R282); a NaN that an outlier entry holds is written canonical (R70). -/
def State.widenResult (s : State) (n : Nat) (o : UnitOp) : ConvResult :=
  let p := s.tilePaddock n
  let f := o.x.toNat
  let rows := (List.range (dExt1 o.a)).map fun r =>
    let b := s.readBytes p (rowAt o.a r) (rowBytes f (dExt0 o.a) false)
    let outs := if dOutlier o.a then s.rowOutliers p o.a f r else []
    (List.range (dExt0 o.a)).map fun c =>
      match outs.find? fun x => decide (x.1 = c) with
      | some x => bfCanonical (BitVec.ofNat 16 x.2)
      | none => widen f (codeAt f b c) (s.sourceScale p o.a f r c) o.y.toInt
  { parts := rows.zipIdx.map fun r => (rowAt o.d r.2, r.1.flatMap fun v => leBytes 2 v.toNat),
    nonFinite := rows.zipIdx.findSome? fun r => (r.1.findIdx? bfNonFinite).map fun c => r.2 * dExt0 o.d + c }

/-- HT (R164, R165). -/
def State.transposeResult (s : State) (n : Nat) (o : UnitOp) : ConvResult :=
  let src := s.bfRows (s.tilePaddock n) o.a
  let rows := (List.range (dExt0 o.a)).map fun j => (List.range (dExt1 o.a)).map fun i => bfCanonical ((src.getD i []).getD j 0)
  { parts := rows.zipIdx.map fun r => (rowAt o.d r.2, r.1.flatMap fun v => leBytes 2 v.toNat),
    nonFinite := rows.zipIdx.findSome? fun r => (r.1.findIdx? bfNonFinite).map fun c => r.2 * dExt0 o.d + c }

/-- What HT reads. -/
def htReads (o : UnitOp) : List PlaneRead :=
  (List.range (dExt1 o.a)).map fun r =>
    { addr := rowAt o.a r, len := 2 * dExt0 o.a, dst := fun i => rowAt o.d (i / 2) + 2 * r }

/-- What the trouble plane of a drain's target reads (R112, R278). -/
def drainReads (o : UnitOp) (f : Nat) : List PlaneRead :=
  if dTrouble o.d then
    [{ addr := troubleAt o.d f false, len := troubleBytes o.d f,
       dst := fun i => rowAt o.d (i / unitsPerRow f (dExt0 o.d)) + unitStart f false (32 * (i % unitsPerRow f (dExt0 o.d))) }]
  else []

/-- Values of a drain as rows (R146). -/
def drainRows (o : UnitOp) : List (List Num) :=
  (List.range (dExt1 o.a)).map fun r => (List.range (dExt0 o.a)).map fun c => fp (Tbl.get 0 o.values (r * dExt0 o.a + c))

/-- The planes a conversion reads. -/
def UnitOp.reads (o : UnitOp) : List PlaneRead :=
  match o.kind with
  | .hq => hqReads o o.x.toNat
  | .ht => htReads o
  | .fdr => drainReads o o.x.toNat
  | _ => scaledReads o o.x.toNat

/-- What a conversion writes and counts. -/
def State.convResult (s : State) (n : Nat) (o : UnitOp) : ConvResult :=
  match o.kind with
  | .hq => s.quantResult n o ((s.bfRows (s.tilePaddock n) o.a).map fun r => r.map bf)
  | .hx => s.expandResult n o
  | .hw => s.widenResult n o
  | .ht => s.transposeResult n o
  | _ => s.quantResult n o (drainRows o)

/-- The effects of a conversion on memory, its entry's window and the non-finite flag; one that meets an unreadable word
fails, as does one that writes part of an uncorrectable HBM unit (R88, R110, R299, R309). -/
def State.convert (s : State) (n : Nat) (o : UnitOp) : State :=
  let p := s.tilePaddock n
  let (s, bad) := s.readPlanes o.reads
  let r := s.convResult n o
  match bad with
  | some (dst, w) => (s.deliver n o p (piecesBefore dst r.parts)).opFault n cMovAddr w o
  | none =>
    let pieces := unitPieces r.parts
    let failed := pieces.any fun c => s.writeFails p c.1 c.2
    let s := s.deliver n o p pieces
    if failed then s
    else
      let s := if o.kind = .ht then s else s.account (n / 64) (dEntry o.entryDesc) r.counts r.trouble
      s.nonFiniteAt n o (if o.kind = .fdr then none else r.nonFinite)

/-- CONVERSION_COMPLETE (R283): the conversion that started completes; its slots move on (R172, R173). -/
def State.completeConversion (s : State) (n : Nat) : State :=
  match (s.tile n).hame with
  | [] => s
  | o :: rest =>
    match o.started with
    | none => s
    | some at_ =>
      let s := s.advanceTo (at_ + o.convTime)
      let s := s.modTile n fun t => { t with hame := rest, hameDone := max t.hameDone (at_ + o.convTime) }
      let s := if o.emptyConv then s else s.convert n o
      s.modTile n fun t => t.slotEnd o

/-- CONVERSION_COMPLETE. -/
def execConversionComplete (n : Nat) (env : Env) (s : State) : Host.Outcome State Fault Refusal :=
  .next (s.whenRunning fun s => (s.takeEnv env).completeConversion n)

end Sys2Proof.Machine
end

