-- ==== Sys2Proof/Machine/Fwa.lean ====
section
/-!
DEFINITION. Machine/Fwa.lean: the forward array: products, accumulator banks and drains (R131 to R149, R152, R154, R272 to
R278), and the sampling of products for the agreement watch (R127, R129, R229).
-/

namespace Sys2Proof.Machine

/-- M_s of a shape (R135), and of the backward shapes (R157). -/
def shapeM (sh : Nat) : Nat := 32 / 2 ^ sh
/-- N_s of a shape. -/
def shapeN (sh : Nat) : Nat := 32 * 2 ^ sh

/-- TA or T fields of a tag as integers. -/
def tagT (tag : BitVec 64) (lo : Nat) : Int := (BitVec.ofNat 8 (bits tag lo 8)).toInt

/-- The tag a product writes or is compared with (R141), STATE left 0. -/
def State.fwaTagOf (s : State) (m : Nat) (w : BitVec 64) (a b : BitVec 256) : BitVec 64 :=
  let ea := s.entryOf m a
  let eb := s.entryOf m b
  pack 64 [(60, 2, bits w 2 2), (58, 2, ea.rung.toNat), (48, 8, ea.tExp.toNat), (40, 8, eb.tExp.toNat), (32, 8, dEntry a),
           (24, 8, dEntry b), (20, 4, s.effective m a), (16, 4, s.effective m b), (15, 1, b2n (dOutlier a)), (14, 1, b2n (dOutlier b))]

/-- A product with a zero extent or length (R152, R163). -/
def emptyProduct (a b : BitVec 256) : Bool :=
  decide (dExt0 a = 0) || decide (dExt0 b = 0) || decide (dExt1 a = 0) || decide (dExt1 b = 0)

/-- Operand formats and entries form a pair of R132. -/
def State.fwaPairOk (s : State) (m : Nat) (a b : BitVec 256) : Bool :=
  decide ((s.entryOf m a).kind = 1) && decide ((s.entryOf m b).kind = 1) &&
    decide ((s.entryOf m a).integer = (s.entryOf m b).integer)

/-- Ranges a product reads of one operand (R133, R134, R227): `rows` row scales when it captures them. -/
def operandRanges (d : BitVec 256) (f rows : Nat) (first : Bool) : List (Nat × Nat) :=
  elemRanges d f (dExt0 d) (dExt1 d) true ++
    (if isBlock f then [(dScale d, scaleBytes f (dExt0 d) (dExt1 d))] else if first then [(dScale d, 2 * rows)] else []) ++
    (if dOutlier d then [(outlierAt d f, outlierBytes d)] else [])

/-- Ranges a forward product reads. -/
def fwaRanges (w : BitVec 64) (a b : BitVec 256) (fa fb : Nat) (first : Bool) : List (Nat × Nat) :=
  operandRanges a fa (shapeM (bits w 2 2)) first ++ operandRanges b fb (shapeN (bits w 2 2)) first

/-- The checks of FMM once its phase is right: cause and DPA (R120, R132, R135, R137, R142, R151, R228, R274).  When several
conditions of R151 fail the manual gives no order: the model tests FWA_PAIR, FWA_SHAPE, FWA_OUTLIER_BOTH, FWA_RECOMP_RUNG,
FWA_TAG and MOV_ADDR in this order, and HND_EMPTY last (DESIGN CHOICE, notes/assumptions/74). -/
def State.fmmFault (s : State) (n : Nat) (w : BitVec 64) (a b : BitVec 256) : Option (Nat × Nat) :=
  let m := n / 64
  let fa := s.effective m a
  let fb := s.effective m b
  let sh := bits w 2 2
  match s.descFault m a fa (fun _ => true) true true, s.descFault m b fb (fun _ => true) true true with
  | some c, _ => some (c, 0)
  | none, some c => some (c, 0)
  | none, none =>
    if emptyProduct a b then (if sh = 3 then some (cIllegal, 0) else none)
    else if !s.fwaPairOk m a b then some (cFwaPair, 0)
    else if sh = 3 ∨ dExt0 a ≠ dExt0 b ∨ dExt0 a % 32 ≠ 0 ∨ shapeM sh < dExt1 a ∨ shapeN sh < dExt1 b then some (cFwaShape, 0)
    else if dOutlier a && dOutlier b then some (cFwaOutlierBoth, 0)
    else if s.tilePhase n = .bwd ∧ ((s.entryOf m a).rung = 2 ∨ (s.entryOf m b).rung = 2) then some (cFwaRecompRung, 0)
    else
      let bank := (s.tile n).fwaBank (bits w 0 2)
      let active := decide (tagState bank.tag = 1)
      if active && decide (setTagState bank.tag 0 ≠ s.fwaTagOf m w a b) then some (cFwaTag, 0)
      else (lowestFailing (ownStore n) (fwaRanges w a b fa fb (!active))).map fun x => (cMovAddr, x)

/-- A product takes its place in a bank: the first one writes the tag, and the drained extent grows (R140, R277). -/
def Bank.claim (b : Bank) (tag : BitVec 64) (m n : Nat) : Bank :=
  { b with tag := setTagState tag 1, extM := max b.extM m, extN := max b.extN n, products := b.products + 1 }

/-! ### Sampling (R127, R129, R154, R229) -/

/-- The source tensor of an operand, when its link names a valid BF16 descriptor of the same extents (R229). -/
def Tile.source (t : Tile) (d : BitVec 256) : Option (BitVec 256) :=
  let x := t.t (dLink d)
  if dLinkV d && dValid x && decide (dFormat x = fBf16) && sameExtents x d then some x else none

/-- Whether product `i` of tile `n` is repeated: every one on rung 2, else by WATCH_K = 4 to 16 (R127, R129).  The rung is
that of operand A in the tag: a product of which operand B's entry alone stands on rung 2 is not repeated for it (DESIGN
CHOICE, notes/assumptions/73). -/
def State.sampledProduct (s : State) (n i : Nat) (tag : BitVec 64) : Bool :=
  let k := s.field (.mtgPolicy (s.tilePaddock n)) 32 5
  (s.tilePhase n = .gen || s.tilePhase n = .fwd) &&
    (decide (bits tag 58 2 = 2) || (decide (4 ≤ k) && decide (k ≤ 16) && decide ((i + n) % 2 ^ k = 0)))

/-- The source tensors of a repeat are operands the BWA reads: BF16 in the tile's own store, under a GRAD entry or none
(R155, R274). -/
def State.repeatable (s : State) (n : Nat) (x y : BitVec 256) : Bool :=
  let ok (d : BitVec 256) : Bool := !dHasEntry d || decide ((s.entryOf (n / 64) d).kind = 3)
  ok x && ok y && (lowestFailing (ownStore n) (elemRanges x fBf16 (dExt0 x) (dExt1 x) false ++ elemRanges y fBf16 (dExt0 y) (dExt1 y) false)).isNone

/-- The product is counted under its activation entry, and its repeat is queued for the Martingale if it is sampled. -/
def State.sampleProduct (s : State) (n : Nat) (o : UnitOp) : State :=
  let t := s.tile n
  let e := dEntry o.a
  let i := Tbl.get 0 t.sampleIdx e
  let s := s.modTile n fun t => { t with sampleIdx := Tbl.put 0 t.sampleIdx e (i + 1) }
  match t.source o.a, t.source o.b with
  | some x, some y =>
    if s.sampledProduct n i o.tag && s.repeatable n x y then
      s.modTile n fun t => { t with bwa := t.bwa ++ [{ o with kind := .watchProduct, srcA := x, srcB := y, sampled := true, waits := false }] }
    else s
  | _, _ => s

/-! ### FMM -/

/-- The FWA accepts a product when its array input is free (R138, R272). -/
def fmmReady (_ : State) (t : Tile) (_ : BitVec 64) : Option Nat :=
  if t.fwa.any fun o => decide (o.kind = .fmm) && o.started.isNone then none else some t.fwaFree

/-- FMM (R277): the product is accepted; into a bank that is not DRAINING it takes its tag now (R142).  A product with a zero
extent does not wait for a drain of its bank, of which it reads and writes nothing (DESIGN CHOICE, notes/assumptions/75). -/
def fmmBody (n : Nat) (s : State) (t : Tile) (w : BitVec 64) : Issued :=
  let a := t.t (fA w)
  let b := t.t (fB w)
  if s.tilePhase n = .idle then .fault cPhase 0
  else match s.fmmFault n w a b with
    | some (c, dpa) => .fault c dpa
    | none =>
      if t.handEmpty w then .fault cHndEmpty 0
      else
        let empty := emptyProduct a b
        let bank := t.fwaBank (bits w 0 2)
        let waits := !empty && decide (tagState bank.tag = 2)
        let tag := if empty then 0 else s.fwaTagOf (n / 64) w a b
        let o : UnitOp := { kind := .fmm, pc := t.pc, word := w, a := a, b := b, tag := tag, waits := waits, issued := s.now }
        let s := s.modTile n fun t =>
          let t := { t with fwa := t.fwa ++ [o] }
          if empty || waits then t else t.setFwaBank o.bank (bank.claim tag (dExt1 a) (dExt1 b))
        .retire (if empty then s else s.sampleProduct n o) 1 none

/-- FMM. -/
def execFmm (n : Nat) (s : State) : Host.Outcome State Fault Refusal := .next (s.issueWhen n 0x30 fmmReady (fmmBody n))

/-! ### Start of a product -/

/-- The checks of the reads of an array operation: the state after them, and whether one was unreadable (R139, R160). -/
def State.readRanges (s : State) : List (Nat × Nat) → State × Bool
  | [] => (s, false)
  | r :: rest =>
    match s.checkRead r.1 r.2 with
    | (s, some _) => (s, true)
    | (s, none) => s.readRanges rest

/-- Row scales read by the first product into a bank (R134). -/
def State.captureScales (s : State) (d : BitVec 256) (f rows : Nat) : Tbl (BitVec 16) :=
  if isRow f then Tbl.ofList 0 0 (bf16s (Memory.bytes s.mem (dScale d) (2 * rows))) else []

/-- A product that faults leaves its bank as it was before it was accepted (R143): its place and its share of the extent are
taken back, and a drain accepted meanwhile still finds the bank DRAINING. -/
def Bank.unclaim (b : Bank) : Bank :=
  if b.products ≤ 1 then { tag := setTagState 0 (if tagState b.tag = 2 then 2 else 0) }
  else { b with products := b.products - 1, extM := b.doneM, extN := b.doneN }

/-- A product into the bank starts: its extent is part of what a drain delivers (R277). -/
def Bank.begun (b : Bank) (m n : Nat) : Bank := { b with doneM := max b.doneM m, doneN := max b.doneN n }

/-- A product that faults at its start is not counted under its activation entry (R154). -/
def Tile.uncount (t : Tile) (o : UnitOp) : Tile := { t with sampleIdx := Tbl.modify 0 t.sampleIdx (dEntry o.a) fun i => i - 1 }

/-- The time an array product starts: in issue order when the input is free, after the wait on a DRAINING bank has ended
(R142, R162); a consumer of a slot starts when the slot lets it (R173). -/
def UnitOp.startTime (o : UnitOp) (now free : Nat) : Nat := if o.cv then max now free else max (max o.issued o.freed) free

/-- FWA_PRODUCT_START (R138, R142, R152, R273): the product that waits starts when the drain it waits for is complete and its
slot is READY; its operands are read, and the first into a bank captures the row scales. -/
def State.startFwaProduct (s : State) (n : Nat) : State :=
  let t := s.tile n
  match takeFirst (fun o => decide (o.kind = .fmm) && o.started.isNone) t.fwa with
  | none => s
  | some (o, rest) =>
    let bank := t.fwaBank o.bank
    if !t.mayStart o || o.waits then s
    else
      let at_ := o.startTime s.now t.fwaFree
      let s := s.advanceTo at_
      if emptyProduct o.a o.b then
        s.modTile n fun t =>
          { (t.slotStart o) with
            fwaFree := at_ + 1,
            fwa := updateFirst (fun x => decide (x.kind = .fmm) && x.started.isNone) (fun x => { x with started := some at_ }) t.fwa }
      else
        let fa := bits o.tag 20 4
        let fb := bits o.tag 16 4
        let first := decide (bank.products = 1)
        let (s, bad) := s.readRanges (fwaRanges o.word o.a o.b fa fb first)
        if bad then
          (s.modTile n fun t => { (t.setFwaBank o.bank bank.unclaim).uncount o with
              fwa := rest, bwa := t.bwa.filter fun x => !(decide (x.kind = .watchProduct) && decide (x.issued = o.issued)) }).opFault n cFwaEcc 0 o
        else
          let sh := bits o.word 2 2
          let bank := if first then { bank with rowA := s.captureScales o.a fa (shapeM sh), rowB := s.captureScales o.b fb (shapeN sh) } else bank
          s.modTile n fun t =>
            { (t.slotStart o).setFwaBank o.bank (bank.begun (dExt1 o.a) (dExt1 o.b)) with
              fwaFree := at_ + dExt0 o.a,
              fwa := updateFirst (fun x => decide (x.kind = .fmm) && x.started.isNone) (fun x => { x with started := some at_ }) t.fwa }

/-- FWA_PRODUCT_START. -/
def execFwaProductStart (n : Nat) (env : Env) (s : State) : Host.Outcome State Fault Refusal :=
  .next (s.whenRunning fun s => (s.takeEnv env).startFwaProduct n)

/-! ### Arithmetic of a product (R136, R137) -/

/-- The code of element (r, k) of an operand in tile store. -/
def State.operandCode (s : State) (d : BitVec 256) (r k : Nat) : Nat := (Memory.byte s.mem (rowAt d r + k)).toNat

/-- An 8-bit element of an operand (R133): E4M3, or INT8. -/
def operandNum (f code : Nat) : Num := if isIntFmt f then numOfInt (BitVec.ofNat 8 code).toInt else fmtE4m3.decode code

/-- The scale of group `g` of row `r`: the block scale, or 1 for a row format (R132). -/
def State.groupScale (s : State) (d : BitVec 256) (f r g : Nat) : Num :=
  if isBlock f then blockScale (Memory.byte s.mem (dScale d + r * (dExt0 d / 32) + g)).toNat else .fin false 1 0

/-- An element under its group's scale, before the scale multiplies it: +0 under a zero scale (R75). -/
def underScale (scale x : Num) : Num := if scale.isZero then Num.zero false else x

/-- The term a group of 32 adds (R89, R136): the exact sum of products times the exact product of its scales. -/
def State.groupTerm (s : State) (a b : BitVec 256) (fa fb m n g : Nat) : Num :=
  let sa := s.groupScale a fa m g
  let sb := s.groupScale b fb n g
  if sa = .nan ∨ sb = .nan then .nan
  else
    let sum := (List.range 32).foldl (fun acc i =>
      acc.add ((underScale sa (operandNum fa (s.operandCode a m (32 * g + i)))).mul
        (underScale sb (operandNum fb (s.operandCode b n (32 * g + i)))))) (Num.zero false)
    let sum := if sum.isZero then Num.zero false else sum
    (sum.mul sa).mul sb

/-- Outlier entries of row `r` of an operand in tile store that lie in group `g`, in ascending k (R106, R137). -/
def State.groupOutliers (s : State) (d : BitVec 256) (f r g : Nat) : List (Nat × Nat) :=
  if dOutlier d then
    let seg := g / 8
    let es := (List.range 8).filterMap fun j =>
      let w := leNat (Memory.bytes s.mem (outlierAt d f + 32 * (r * segments (dExt0 d) + seg) + 4 * j) 4) % 2 ^ 24
      if w = 0 then none else some (256 * seg + w / 65536 % 256, w % 65536)
    (List.range 32).flatMap fun i => es.filter fun e => decide (e.1 = 32 * g + i) && decide (e.1 < dExt0 d)
  else []

/-- The term of one outlier x of one operand against element (k, row) of the other, whose tensor exponent of the first is
`t` (R137). -/
def State.outlierTerm (s : State) (x : Nat) (t : Int) (d : BitVec 256) (f row k : Nat) : Num :=
  let g := s.groupScale d f row (k / 32)
  let v := if g = .nan then .nan else (underScale g (operandNum f (s.operandCode d row k))).mul g
  ((bf (BitVec.ofNat 16 x)).scale (-t)).mul v

/-- A term added to an accumulator element with one rounding, subnormals flushed (R82, R90). -/
def accumulate (acc : BitVec 32) (x : Num) : BitVec 32 := toFp ((fp acc).add x)

/-- Accumulator element (m, n) after a product (R136, R137). -/
def State.productElement (s : State) (o : UnitOp) (acc : BitVec 32) (m n : Nat) : BitVec 32 :=
  let fa := bits o.tag 20 4
  let fb := bits o.tag 16 4
  (List.range (dExt0 o.a / 32)).foldl (fun acc g =>
    let acc := accumulate acc (s.groupTerm o.a o.b fa fb m n g)
    let acc := (s.groupOutliers o.a fa m g).foldl (fun acc e => accumulate acc (s.outlierTerm e.2 (tagT o.tag 48) o.b fb n e.1)) acc
    (s.groupOutliers o.b fb n g).foldl (fun acc e => accumulate acc (s.outlierTerm e.2 (tagT o.tag 40) o.a fa m e.1)) acc) acc

/-- Row and column pairs of an extent, row-major. -/
def cells (m n : Nat) : List (Nat × Nat) := (List.range m).flatMap fun i => (List.range n).map fun j => (i, j)

/-- Outliers a product takes: each once (SHF_FWA_STAT). -/
def State.outlierCount (s : State) (d : BitVec 256) (f : Nat) : Nat :=
  ((List.range (dExt1 d)).flatMap fun r => (List.range (dExt0 d / 32)).flatMap fun g => s.groupOutliers d f r g).length

/-- A bank after a product (R136). -/
def State.fwaBankAfter (s : State) (o : UnitOp) (b : Bank) : Bank :=
  let ns := shapeN (bits o.word 2 2)
  let step (e : Tbl (BitVec 32)) (c : Nat × Nat) : Tbl (BitVec 32) :=
    Tbl.modify 0 e (c.1 * ns + c.2) fun acc => s.productElement o acc c.1 c.2
  { b with elems := (cells (dExt1 o.a) (dExt1 o.b)).foldl step b.elems }

/-- FWA_PRODUCT_COMPLETE (R138, R152): the oldest started product completes. -/
def State.completeFwaProduct (s : State) (n : Nat) : State :=
  match takeFirst (fun o => decide (o.kind = .fmm) && o.started.isSome) (s.tile n).fwa with
  | none => s
  | some (o, rest) =>
    let at_ := o.started.getD 0
    if emptyProduct o.a o.b then
      let s := s.advanceTo (at_ + 1)
      s.modTile n fun t => { (t.slotEnd o) with fwa := rest, fwaDone := max t.fwaDone (at_ + 1) }
    else
      let k := dExt0 o.a
      let s := s.advanceTo (at_ + k + 12)
      let bank := s.fwaBankAfter o ((s.tile n).fwaBank o.bank)
      let taken := s.outlierCount o.a (bits o.tag 20 4) + s.outlierCount o.b (bits o.tag 16 4)
      s.modTile n fun t =>
        let t := (t.slotEnd o).setFwaBank o.bank bank
        { t with
          fwa := rest, fwaDone := max t.fwaDone (at_ + k + 12), fwaBusy := wrapAdd t.fwaBusy k,
          fwaProducts := wrapAdd t.fwaProducts 1, fwaOutliers := wrapAdd t.fwaOutliers taken }

/-- FWA_PRODUCT_COMPLETE. -/
def execFwaProductComplete (n : Nat) (s : State) : Host.Outcome State Fault Refusal :=
  .next (s.whenRunning fun s => s.completeFwaProduct n)

/-! ### FDR -/

/-- A drain is accepted while no earlier drain of the unit waits to start (R272). -/
def fdrReady (_ : State) (t : Tile) (_ : BitVec 64) : Option Nat :=
  if t.fwa.any fun o => decide (o.kind = .fdr) && o.started.isNone then none else some 0

/-- A descriptor without its entry: what an FDR to TILE sees of tD (R278). -/
def withoutEntry (d : BitVec 256) : BitVec 256 := setBits d 53 1 0

/-- tD of a HAME drain as it is written: the drained extent, no outlier plane (R278). -/
def drainTarget (d : BitVec 256) (m n : Nat) : BitVec 256 :=
  setBits (setBits d 128 42 (m * 2 ^ 21 + n)) 54 1 0

/-- The bank is not one a drain can take: DRAINING, or EMPTY with no product in flight to it (R151). -/
def drainEmpty (tag : BitVec 64) (ops : List UnitOp) (k : OpKind) (q : Nat) : Bool :=
  decide (tagState tag = 2) || (decide (tagState tag = 0) && !ops.any fun o => decide (o.kind = k) && decide (o.bank = q))

/-- Ranges of a drain written row by row into tile store: rows and columns within tD's extents (R278). -/
def drainRanges (d : BitVec 256) (m n : Nat) : List (Nat × Nat) :=
  (List.range (min m (dExt1 d))).map fun r => (rowAt d r, 2 * min n (dExt0 d))

/-- The checks of FDR once its phase is right (R146, R151, R228, R274, R278).  When several conditions fail the manual gives no
order: the model tests FWA_DRAIN_EMPTY, then FWA_DRAIN_TARGET, then MOV_ADDR (DESIGN CHOICE, notes/assumptions/74). -/
def State.fdrFault (s : State) (n : Nat) (w : BitVec 64) (d : BitVec 256) : Option (Nat × Nat) :=
  let m := n / 64
  let t := s.tile n
  let q := bits w 0 2
  let b := t.fwaBank q
  if bit w 2 then
    let f := s.effective m d
    let e := s.entryOf m d
    match s.descFault m d f (fun _ => true) false true with
    | some c => some (c, 0)
    | none =>
      if drainEmpty b.tag t.fwa .fmm q then some (cFwaDrainEmpty, 0)
      else if e.kind ≠ 1 ∨ !isBlock f ∨ (e.outlier && decide (e.rung = 0)) ∨ b.extN % 32 ≠ 0 then some (cFwaDrainTarget, 0)
      else
        let x := drainTarget d b.extM b.extN
        s.hameRanges n false cMovAddr [] (elemRanges x f b.extN b.extM false ++ planeRanges x f false (dTrouble x))
  else
    match s.descFault m (withoutEntry d) (dFormat d) (fun f => decide (f = fBf16)) false false with
    | some c => some (c, 0)
    | none =>
      if drainEmpty b.tag t.fwa .fmm q then some (cFwaDrainEmpty, 0)
      else (lowestFailing (ownStore n) (drainRanges d b.extM b.extN)).map fun x => (cMovAddr, x)

/-- FDR (R145 to R147): the bank becomes DRAINING (R140). -/
def fdrBody (n : Nat) (s : State) (t : Tile) (w : BitVec 64) : Issued :=
  let d := t.t (fD w)
  if s.tilePhase n = .idle then .fault cPhase 0
  else match s.fdrFault n w d with
    | some (c, dpa) => .fault c dpa
    | none =>
      let q := bits w 0 2
      let f := if bit w 2 then s.effective (n / 64) d else fBf16
      let o : UnitOp := { kind := .fdr, pc := t.pc, word := w, d := d, x := BitVec.ofNat 32 f, issued := s.now }
      .retire (s.modTile n fun t =>
        let b := t.fwaBank q
        let t := t.setFwaBank q { b with tag := setTagState b.tag 2 }
        { t with fwa := t.fwa ++ [o] }) 1 none

/-- FDR. -/
def execFdr (n : Nat) (s : State) : Host.Outcome State Fault Refusal := .next (s.issueWhen n 0x31 fdrReady (fdrBody n))

/-- A sum of products under a row scale: a scale that is not a number, or a NaN in the accumulator, gives NaN (R76, R145); a
zero or subnormal scale makes every element of its row +0 (R76), and so the sum +0, whatever else the accumulator holds
(DESIGN CHOICE between R76 and the product of R145, notes/assumptions/76); any other multiplies the sum exactly. -/
def underRowScale (scale v : Num) : Num :=
  if scale = .nan ∨ v = .nan then .nan else if scale.isZero then Num.zero false else v.mul scale

/-- Element (m, n) of a bank times its drain scales, exactly (R132, R145). -/
def Bank.fwaValue (b : Bank) (m n : Nat) : Num :=
  let v := (fp (Tbl.get 0 b.elems (m * shapeN (bits b.tag 60 2) + n))).scale (tagT b.tag 48 + tagT b.tag 40)
  let v := if isRow (bits b.tag 20 4) then underRowScale (rowScale (Tbl.get 0 b.rowA m).toNat) v else v
  if isRow (bits b.tag 16 4) then underRowScale (rowScale (Tbl.get 0 b.rowB n).toNat) v else v

/-- The bank's results as FP32 values toward the Hame, row-major over the drained extent (R145, R146). -/
def Bank.fwaFp32 (b : Bank) : Tbl (BitVec 32) := Tbl.ofList 0 0 ((cells b.extM b.extN).map fun c => toFp (b.fwaValue c.1 c.2))

/-- The BF16 code of a drained element (R145). -/
def Bank.fwaBf16 (b : Bank) (m n : Nat) : BitVec 16 := toBf (b.fwaValue m n)

/-- An accumulator element of the BWA as a drain forms it: exact, times 2^(TX + TZ − TD), flushed before it is rounded
(R166). -/
def Bank.bwaValue (b : Bank) (td : Int) (i j : Nat) : Num :=
  ((fp (Tbl.get 0 b.elems (i * shapeN (bits b.tag 60 2) + j))).scale (tagT b.tag 48 + tagT b.tag 40 - td)).flushed

/-- Element (m, n) of a repeat, drained to COMPARE by RNE with TD = 0 (R166). -/
def Bank.repeatBf16 (b : Bank) (m n : Nat) : BitVec 16 := toBf (b.bwaValue 0 m n)

/-- Repeats of bank `q` that are not complete. -/
def Tile.openRepeats (t : Tile) (q : Nat) : Bool := t.bwa.any fun o => decide (o.kind = .watchProduct) && decide (o.bank = q)

/-- On rung 2 every product of the bank was repeated: the repeats' results are the ones written (R129, R148). -/
def Tile.repeated (t : Tile) (q : Nat) : Bool :=
  decide (bits (t.fwaBank q).tag 58 2 = 2) && decide ((t.bwaBank q).products = (t.fwaBank q).products) && !(t.openRepeats q) &&
    decide ((t.fwaBank q).products ≠ 0)

/-- The BF16 result that a drain of bank `q` writes at (m, n). -/
def Tile.drainResult (t : Tile) (q m n : Nat) : BitVec 16 :=
  if t.repeated q then (t.bwaBank q).repeatBf16 m n else (t.fwaBank q).fwaBf16 m n

/-- The values that a drain of bank `q` sends to the Hame: the repeats' results on rung 2 (R146, R148). -/
def Tile.hameValues (t : Tile) (q : Nat) : Tbl (BitVec 32) :=
  let b := t.fwaBank q
  if t.repeated q then Tbl.ofList 0 0 ((cells b.extM b.extN).map fun c => bfToFp ((t.bwaBank q).repeatBf16 c.1 c.2)) else b.fwaFp32

/-- FWA_DRAIN_START (R147, R172, R273): the drain that waits starts when the products accepted before it are complete; on
rung 2 a drain toward the Hame waits for the repeats it hands over (R148). -/
def State.startFwaDrain (s : State) (n : Nat) : State :=
  let t := s.tile n
  let waiting (o : UnitOp) : Bool := decide (o.kind = .fdr) && o.started.isNone
  match takeFirst waiting t.fwa with
  | none => s
  | some (o, _) =>
    let before := t.fwa.takeWhile fun x => !waiting x
    if before.any (fun x => decide (x.kind = .fmm) && decide (x.bank = o.bank)) || !t.mayStart o ||
        (bit o.word 2 && decide (bits (t.fwaBank o.bank).tag 58 2 = 2) && t.openRepeats o.bank) then s
    else
      let at_ := if o.pv then s.now else max o.issued t.fwaDone
      let s := s.advanceTo at_
      let b := t.fwaBank o.bank
      s.modTile n fun t =>
        let t := { (t.slotStart o) with fwa := updateFirst waiting (fun x => { x with started := some at_ }) t.fwa }
        if bit o.word 2 then
          let d := drainTarget o.d b.extM b.extN
          let h : UnitOp := { kind := .fdr, pc := o.pc, word := o.word &&& ~~~maskOf 8 8, d := d, a := d, x := o.x, values := t.hameValues o.bank, issued := at_ }
          { t with hame := t.hame ++ [h] }
        else t

/-- FWA_DRAIN_START. -/
def execFwaDrainStart (n : Nat) (s : State) : Host.Outcome State Fault Refusal :=
  .next (s.whenRunning fun s => s.startFwaDrain n)

/-- The time at which a drain can end: 24 aclk after its start, or when the Hame has taken its request step (R147); none
while that step, or a repeat it waits for (R148), is still to come. -/
def Tile.drainEnd (t : Tile) (o : UnitOp) (at_ : Nat) : Option Nat :=
  if bit o.word 2 then
    match t.hame.find? fun x => decide (x.kind = .fdr) && decide (x.issued = at_) && decide (x.pc = o.pc) with
    | none => some at_
    | some x => x.started.map fun h => h + 17
  else if bits (t.fwaBank o.bank).tag 58 2 = 2 ∧ t.openRepeats o.bank then none
  else some (at_ + 24)

/-- The FWA's own results kept for the comparison of R130, while repeats of the bank exist.  Where the bank accumulated
several products of which only some were sampled, y_f is the whole bank's drain and y_b the sum of the sampled repeats
(DESIGN CHOICE, notes/assumptions/73). -/
def Tile.keepForCompare (t : Tile) (q : Nat) : Tile :=
  let b := t.fwaBank q
  let r := t.bwaBank q
  if t.openRepeats q || (bit r.tag 59 && decide (r.products ≠ 0)) then
    let y := Tbl.ofList 0 0 ((cells b.extM b.extN).map fun c => b.fwaBf16 c.1 c.2)
    let r := { r with watch := y, watched := true, extM := b.extM, extN := b.extN, activation := bits b.tag 32 8 }
    { t.setBwaBank q r with
      bwa := t.bwa.map fun o => if o.kind = .watchProduct ∧ o.bank = q then { o with waits := true } else o }
  else t

/-- The wait of the product aimed at DRAINING bank `q` ends with the bank EMPTY: it takes its tag now and claims the bank
(R142). -/
def State.endFwaWait (s : State) (n q : Nat) : State :=
  let waiting (o : UnitOp) : Bool := decide (o.kind = .fmm) && o.waits && decide (o.bank = q)
  match takeFirst waiting (s.tile n).fwa with
  | none => s
  | some (o, _) =>
    let tag := s.fwaTagOf (n / 64) o.word o.a o.b
    s.modTile n fun t =>
      { t.setFwaBank q (({} : Bank).claim tag (dExt1 o.a) (dExt1 o.b)) with
        fwa := updateFirst waiting (fun x => { x with waits := false, tag := tag, freed := s.now }) t.fwa }

/-- FWA_DRAIN_COMPLETE (R88, R145 to R148): the drained elements are written, the non-finite flag is set by what is delivered,
the bank is EMPTY, and a product that waits for it takes it (R142). -/
def State.completeFwaDrain (s : State) (n : Nat) : State :=
  let t := s.tile n
  match takeFirst (fun o => decide (o.kind = .fdr) && o.started.isSome) t.fwa with
  | none => s
  | some (o, rest) =>
    match t.drainEnd o (o.started.getD 0) with
    | none => s
    | some at_ =>
      let s := s.advanceTo at_
      let b := t.fwaBank o.bank
      let rows := (List.range b.extM).map fun m => (List.range b.extN).map fun c => t.drainResult o.bank m c
      let bad := rows.zipIdx.findSome? fun r => (r.1.findIdx? bfNonFinite).map fun c => r.2 * shapeN (bits b.tag 60 2) + c
      let bad := if bit o.word 2 then
          ((cells b.extM b.extN).find? fun c => !(fp (Tbl.get 0 (t.hameValues o.bank) (c.1 * b.extN + c.2))).isFinite).map
            fun c => c.1 * shapeN (bits b.tag 60 2) + c.2
        else bad
      let s := s.modTile n fun t => { ((t.keepForCompare o.bank).setFwaBank o.bank {}).slotEnd o with fwa := rest }
      let s := if bit o.word 2 then s
        else s.writePieces (s.tilePaddock n) (unitPieces ((rows.zipIdx.filter fun r => decide (r.2 < dExt1 o.d)).map fun r =>
          (rowAt o.d r.2, (r.1.take (dExt0 o.d)).flatMap fun v => leBytes 2 v.toNat)))
      (s.endFwaWait n o.bank).nonFiniteAt n o bad

/-- FWA_DRAIN_COMPLETE. -/
def execFwaDrainComplete (n : Nat) (s : State) : Host.Outcome State Fault Refusal :=
  .next (s.whenRunning fun s => s.completeFwaDrain n)

/-- The drain fence (R149): every FWA product, and every drain of any unit, that the tile issued is complete. -/
def Tile.fenced (t : Tile) : Bool :=
  t.fwa.isEmpty && (t.bwa.all fun o => decide (o.kind ≠ .bdr)) && t.chaff.all fun o => decide (o.kind ≠ .cdr)

/-- FFENCE (R149): it retires when the fence holds. -/
def ffenceBody (s : State) (t : Tile) (_ : BitVec 64) : Issued := if t.fenced then .retire s 1 none else .wait

/-- FFENCE. -/
def execFfence (n : Nat) (s : State) : Host.Outcome State Fault Refusal := .next (s.issue n 0x32 ffenceBody)

end Sys2Proof.Machine
end

