-- ==== Sys2Proof/Machine/Sower.lean ====
section
/-!
DEFINITION. Machine/Sower.lean: the Sower function (R215, R216), its counters (R210 to R213) and the derivation of the
Sower key (R208).
-/

namespace Sys2Proof.Machine

/-- 32-bit left rotation (R215). -/
def rotl32 (v : BitVec 32) (k : Nat) : BitVec 32 := (v <<< k) ||| (v >>> (32 - k))

/-- Round constant rc[r] (R216). -/
def sowerRc (r : Nat) : BitVec 32 := BitVec.ofNat 32 ((r + 1) * 0x9E3779B9)

/-- Word j of a 128-bit key, counter or output (R215). -/
def word32 (v : BitVec 128) (j : Nat) : BitVec 32 := BitVec.ofNat 32 (bits v (32 * j) 32)

/-- The four words the rounds work on. -/
structure SowerX where
  x0 : BitVec 32
  x1 : BitVec 32
  x2 : BitVec 32
  x3 : BitVec 32
  deriving DecidableEq, Repr

/-- One round of R215. -/
def sowerRound (key : BitVec 128) (r : Nat) (x : SowerX) : SowerX :=
  let a0 := x.x0 + x.x1
  let a3 := rotl32 (x.x3 ^^^ a0) 16
  let a2 := x.x2 + a3
  let a1 := rotl32 (x.x1 ^^^ a2) 7
  { x0 := a1 + word32 key ((r + 1) % 4) + sowerRc r, x1 := a2, x2 := a3, x3 := a0 }

/-- The ten rounds of R215 on the keyed counter. -/
def sowerRounds (key : BitVec 128) (c : BitVec 128) : SowerX :=
  (List.range 10).foldl (fun x r => sowerRound key r x)
    { x0 := word32 c 0 + word32 key 0, x1 := word32 c 1 + word32 key 1,
      x2 := word32 c 2 + word32 key 2, x3 := word32 c 3 + word32 key 3 }

/-- The 128 random bits of a counter under a key (R215). -/
def sower (key : BitVec 128) (c : BitVec 128) : BitVec 128 :=
  let x := sowerRounds key c
  (x.x3 + word32 key 3) ++ (x.x2 + word32 key 2) ++ (x.x1 + word32 key 1) ++ (x.x0 + word32 key 0)

/-- Consumer class SR (R210). -/
def classSr : Nat := 1
/-- Consumer class CHAFF (R210). -/
def classChaff : Nat := 2
/-- Consumer class SAMPLE (R210). -/
def classSample : Nat := 3
/-- Consumer class DROPOUT (R210). -/
def classDropout : Nat := 4

/-- A counter of the indexed layout (R211). -/
def sowerIndexed (cls : Nat) (step : BitVec 28) (stream : BitVec 32) (position : BitVec 64) : BitVec 128 :=
  pack 128 [(124, 4, cls), (96, 28, step.toNat), (64, 32, stream.toNat), (0, 64, position.toNat)]

/-- A counter of the Chaff layout (R212): domain, lane position, tile, draw number, cycle. -/
def sowerChaff (domain lane tile draw cycle : Nat) : BitVec 128 :=
  pack 128 [(124, 4, classChaff), (120, 4, domain), (112, 8, lane), (96, 16, tile), (64, 32, draw), (0, 9, cycle / 8)]

/-- The 16 random bits of element j under the indexed layout (R81, R213). -/
def sowerElement (key : BitVec 128) (cls : Nat) (step : BitVec 28) (stream : BitVec 32) (j : Nat) : BitVec 16 :=
  BitVec.ofNat 16 (bits (sower key (sowerIndexed cls step stream (BitVec.ofNat 64 (j / 8)))) (16 * (j % 8)) 16)

/-- The Sower key of a seed (R208): SHAKE256 of "AQZ-SOWER" and the seed, 128 bits. -/
def sowerKeyOf (seed : BitVec 64) : BitVec 128 :=
  BitVec.ofNat 128 (leNat (shake256 (ascii "AQZ-SOWER" ++ leBytes 8 seed.toNat) 16))

end Sys2Proof.Machine
end

