-- ==== Sys2Proof/Machine/Bwa.lean ====
section
/-!
DEFINITION. Machine/Bwa.lean: the backward array: products, banks and gradient drains (R155 to R168, R171, R213, R214, R279,
R280), and the agreement watch's repeats and comparisons (R127 to R130).
-/

namespace Sys2Proof.Machine

/-- An operand of the BWA is BF16 under a GRAD entry or none (R155). -/
def State.bwaPairOk (s : State) (m : Nat) (d : BitVec 256) : Bool :=
  decide (dFormat d = fBf16) && (!dHasEntry d || decide ((s.entryOf m d).kind = 3))

/-- The entry index a tag holds: 0 without an entry (R161). -/
def tagEntry (d : BitVec 256) : Nat := if dHasEntry d then dEntry d else 0

/-- The tag of a backward product (R156, R161), STATE left 0. -/
def State.bwaTagOf (s : State) (m sh : Nat) (watch : Bool) (x z : BitVec 256) : BitVec 64 :=
  let t (d : BitVec 256) : Nat := if dHasEntry d then (s.entryOf m d).tExp.toNat else 0
  pack 64 [(60, 2, sh), (59, 1, b2n watch), (48, 8, t x), (40, 8, t z), (32, 8, tagEntry x), (24, 8, tagEntry z),
           (23, 1, b2n (dHasEntry x)), (22, 1, b2n (dHasEntry z))]

/-- Ranges a backward product reads. -/
def bwaRanges (x z : BitVec 256) : List (Nat × Nat) :=
  elemRanges x fBf16 (dExt0 x) (dExt1 x) false ++ elemRanges z fBf16 (dExt0 z) (dExt1 z) false

/-- The checks of BMM once its phase is right (R155, R157, R162, R171, R228, R274, R279). -/
def State.bmmFault (s : State) (n : Nat) (w : BitVec 64) (x z : BitVec 256) : Option (Nat × Nat) :=
  let m := n / 64
  let sh := bits w 2 2
  match s.descFault m x (dFormat x) (fun _ => true) false false, s.descFault m z (dFormat z) (fun _ => true) false false with
  | some c, _ => some (c, 0)
  | none, some c => some (c, 0)
  | none, none =>
    if emptyProduct x z then (if sh = 3 then some (cIllegal, 0) else none)
    else if !s.bwaPairOk m x || !s.bwaPairOk m z then some (cBwaPair, 0)
    else if sh = 3 ∨ dExt0 x ≠ dExt0 z ∨ shapeM sh < dExt1 x ∨ shapeN sh < dExt1 z then some (cBwaShape, 0)
    else
      let bank := (s.tile n).bwaBank (bits w 0 2)
      if decide (tagState bank.tag = 1) && decide (setTagState bank.tag 0 ≠ s.bwaTagOf m sh false x z) then some (cBwaTag, 0)
      else (lowestFailing (ownStore n) (bwaRanges x z)).map fun a => (cMovAddr, a)

/-- The BWA accepts a product when its array input is free (R159, R272). -/
def bmmReady (_ : State) (t : Tile) (_ : BitVec 64) : Option Nat :=
  if t.bwa.any fun o => decide (o.kind = .bmm) && o.started.isNone then none else some t.bwaFree

/-- BMM (R162, R169, R279). -/
def bmmBody (n : Nat) (s : State) (t : Tile) (w : BitVec 64) : Issued :=
  let x := t.t (fA w)
  let z := t.t (fB w)
  if s.tilePhase n ≠ .bwd then .fault cPhase 0
  else match s.bmmFault n w x z with
    | some (c, dpa) => .fault c dpa
    | none =>
      if t.handEmpty w then .fault cHndEmpty 0
      else
        let empty := emptyProduct x z
        let bank := t.bwaBank (bits w 0 2)
        let waits := !empty && decide (tagState bank.tag = 2)
        let tag := if empty then 0 else s.bwaTagOf (n / 64) (bits w 2 2) false x z
        let o : UnitOp := { kind := .bmm, pc := t.pc, word := w, a := x, b := z, tag := tag, waits := waits, issued := s.now }
        .retire (s.modTile n fun t =>
          let t := { t with bwa := t.bwa ++ [o] }
          if empty || waits then t else t.setBwaBank o.bank (bank.claim tag (dExt1 x) (dExt1 z))) 1 none

/-- BMM. -/
def execBmm (n : Nat) (s : State) : Host.Outcome State Fault Refusal := .next (s.issueWhen n 0x38 bmmReady (bmmBody n))

/-- Time a product of length K holds the array input (R159). -/
def bwaSpan (k : Nat) : Nat := ceilDiv (4 * k) 3

/-- BWA_PRODUCT_START (R159, R162, R163, R273). -/
def State.startBwaProduct (s : State) (n : Nat) : State :=
  let t := s.tile n
  let waiting (x : UnitOp) : Bool := decide (x.kind = .bmm) && x.started.isNone
  match takeFirst waiting t.bwa with
  | none => s
  | some (o, rest) =>
    let bank := t.bwaBank o.bank
    if !t.mayStart o || o.waits then s
    else
      let at_ := o.startTime s.now t.bwaFree
      let s := s.advanceTo at_
      if emptyProduct o.a o.b then
        s.modTile n fun t =>
          { (t.slotStart o) with bwaFree := at_ + 1, bwa := updateFirst waiting (fun x => { x with started := some at_ }) t.bwa }
      else
        let (s, bad) := s.readRanges (bwaRanges o.a o.b)
        if bad then
          (s.modTile n fun t => { t.setBwaBank o.bank bank.unclaim with bwa := rest }).opFault n cBwaEcc 0 o
        else
          s.modTile n fun t =>
            { (t.slotStart o).setBwaBank o.bank (bank.begun (dExt1 o.a) (dExt1 o.b)) with
              bwaFree := at_ + bwaSpan (dExt0 o.a),
              bwa := updateFirst waiting (fun x => { x with started := some at_ }) t.bwa }

/-- BWA_PRODUCT_START. -/
def execBwaProductStart (n : Nat) (env : Env) (s : State) : Host.Outcome State Fault Refusal :=
  .next (s.whenRunning fun s => (s.takeEnv env).startBwaProduct n)

/-- A BF16 operand element in tile store, a subnormal flushed (R90, R158). -/
def State.bwaNum (s : State) (d : BitVec 256) (r k : Nat) : Num :=
  bf (bfFlush (BitVec.ofNat 16 (leNat (Memory.bytes s.mem (rowAt d r + 2 * k) 2))))

/-- An accumulator element after a product: the products in ascending k, each exact, one rounding per addition (R89, R158). -/
def State.bwaElement (s : State) (x z : BitVec 256) (acc : BitVec 32) (i j : Nat) : BitVec 32 :=
  (List.range (dExt0 x)).foldl (fun acc k => accumulate acc ((s.bwaNum x i k).mul (s.bwaNum z j k))) acc

/-- A bank after a product. -/
def State.bwaBankAfter (s : State) (sh : Nat) (x z : BitVec 256) (b : Bank) : Bank :=
  let step (e : Tbl (BitVec 32)) (c : Nat × Nat) : Tbl (BitVec 32) :=
    Tbl.modify 0 e (c.1 * shapeN sh + c.2) fun acc => s.bwaElement x z acc c.1 c.2
  { b with elems := (cells (dExt1 x) (dExt1 z)).foldl step b.elems }

/-- The operands of a product or of a repeat. -/
def UnitOp.operands (o : UnitOp) : BitVec 256 × BitVec 256 := if o.kind = .watchProduct then (o.srcA, o.srcB) else (o.a, o.b)

/-- The bank with one more complete repeat in it (R129, R130). -/
def Bank.repeated (b : Bank) (watch : Bool) : Bank := { b with products := b.products + b2n watch }

/-- BWA_PRODUCT_COMPLETE (R159, R163): the oldest started product or repeat completes.  A product with a zero extent is not
counted in PRODUCTS of SHF_BWA_STAT_t (DESIGN CHOICE, notes/assumptions/78). -/
def State.completeBwaProduct (s : State) (n : Nat) : State :=
  match takeFirst (fun o => decide (o.kind ≠ .bdr) && o.started.isSome) (s.tile n).bwa with
  | none => s
  | some (o, rest) =>
    let at_ := o.started.getD 0
    let (x, z) := o.operands
    if emptyProduct x z then
      let s := s.advanceTo (at_ + 1)
      s.modTile n fun t => { (t.slotEnd o) with bwa := rest, bwaDone := max t.bwaDone (at_ + 1) }
    else
      let k := bwaSpan (dExt0 x)
      let s := s.advanceTo (at_ + k + 16)
      let bank := s.bwaBankAfter (bits o.word 2 2) x z ((s.tile n).bwaBank o.bank)
      let watch := decide (o.kind = .watchProduct)
      s.modTile n fun t =>
        let t := (t.slotEnd o).setBwaBank o.bank (bank.repeated watch)
        { t with
          bwa := rest, bwaDone := max t.bwaDone (at_ + k + 16), bwaBusy := wrapAdd t.bwaBusy k,
          bwaProducts := wrapAdd t.bwaProducts (b2n !watch), bwaRepeats := wrapAdd t.bwaRepeats (b2n watch) }

/-- BWA_PRODUCT_COMPLETE. -/
def execBwaProductComplete (n : Nat) (s : State) : Host.Outcome State Fault Refusal :=
  .next (s.whenRunning fun s => s.completeBwaProduct n)

/-! ### BDR -/

/-- A drain is accepted while no earlier drain of the unit waits to start (R272). -/
def bdrReady (_ : State) (t : Tile) (_ : BitVec 64) : Option Nat :=
  if t.bwa.any fun o => decide (o.kind = .bdr) && o.started.isNone then none else some 0

/-- Rows and columns of a GRAD drain within its destination tensor (R280). -/
def gradExtent (d : BitVec 256) (m n r0 c0 : Nat) : Nat × Nat := (min m (dExt1 d - r0), min n (dExt0 d - c0))

/-- Ranges a GRAD drain writes. -/
def gradRanges (d : BitVec 256) (e : Nat × Nat) : List (Nat × Nat) := (List.range e.1).map fun r => (rowAt d r, 2 * e.2)

/-- The checks of BDR once its phase is right (R166, R171, R214, R228, R274, R280). -/
def State.bdrFault (s : State) (n : Nat) (w : BitVec 64) (d : BitVec 256) (r0 c0 : Nat) : Option (Nat × Nat) :=
  let m := n / 64
  let t := s.tile n
  let q := bits w 0 2
  match s.descFault m d (dFormat d) (fun f => decide (f = fBf16)) false false with
  | some c => some (c, 0)
  | none =>
    if dHasEntry d && decide ((s.entryOf m d).kind ≠ 3) then some (cBwaDrainTarget, 0)
    else if drainEmpty (t.bwaBank q).tag t.bwa .bmm q then some (cBwaDrainEmpty, 0)
    else if bit (dStream d) 31 then some (cSwrStream, 0)
    else (lowestFailing (ownStore n) (gradRanges d (gradExtent d (t.bwaBank q).extM (t.bwaBank q).extN r0 c0))).map fun a => (cMovAddr, a)

/-- BDR (R166, R280): the bank becomes DRAINING. -/
def bdrBody (n : Nat) (s : State) (t : Tile) (w : BitVec 64) : Issued :=
  let d := t.t (fD w)
  let r0 := t.s (fB w)
  let c0 := t.s (fC w)
  if s.tilePhase n ≠ .bwd then .fault cPhase 0
  else match s.bdrFault n w d r0.toNat c0.toNat with
    | some (c, dpa) => .fault c dpa
    | none =>
      let q := bits w 0 2
      let o : UnitOp := { kind := .bdr, pc := t.pc, word := w, d := d, x := r0, z := c0, issued := s.now }
      .retire (s.modTile n fun t =>
        let b := t.bwaBank q
        let t := t.setBwaBank q { b with tag := setTagState b.tag 2 }
        { t with bwa := t.bwa ++ [o] }) 1 none

/-- BDR. -/
def execBdr (n : Nat) (s : State) : Host.Outcome State Fault Refusal := .next (s.issueWhen n 0x39 bdrReady (bdrBody n))

/-- aclk for which a gradient drain of an extent takes the tile's Sower (R167): 8 elements per aclk. -/
def gradReadTime (e : Nat × Nat) : Nat := ceilDiv (e.1 * e.2) 8

/-- The extent a gradient drain delivers. -/
def Tile.gradExtentOf (t : Tile) (o : UnitOp) : Nat × Nat :=
  gradExtent o.d (t.bwaBank o.bank).extM (t.bwaBank o.bank).extN o.x.toNat o.z.toNat

/-- BWA_DRAIN_START (R166, R167, R273): TD is the exponent in force now; the Sower serves one gradient drain after the other. -/
def State.startBwaDrain (s : State) (n : Nat) : State :=
  let t := s.tile n
  let waiting (o : UnitOp) : Bool := decide (o.kind = .bdr) && o.started.isNone
  match takeFirst waiting t.bwa with
  | none => s
  | some (o, _) =>
    let before := t.bwa.takeWhile fun x => !waiting x
    if before.any fun x => decide (x.kind = .bmm) && decide (x.bank = o.bank) then s
    else
      let at_ := max (max o.issued t.bwaDone) t.gradDone
      let s := s.advanceTo at_
      let td : Int := s.scaleExp (n / 64) o.d
      s.modTile n fun t =>
        { t with
          gradDone := at_ + gradReadTime (t.gradExtentOf o),
          bwa := updateFirst waiting (fun x => { x with started := some at_, y := BitVec.ofInt 32 td }) t.bwa }

/-- BWA_DRAIN_START. -/
def execBwaDrainStart (n : Nat) (s : State) : Host.Outcome State Fault Refusal :=
  .next (s.whenRunning fun s => s.startBwaDrain n)

/-- A drained accumulator element before rounding (R166): FP32, subnormals flushed, beyond the range infinite. -/
def Bank.gradFp32 (b : Bank) (td : Int) (i j : Nat) : BitVec 32 := toFp (b.bwaValue td i j)

/-- The BF16 gradient at (i, j) of a drain: stochastically rounded with the Sower bits of its place in the whole tensor
(R80, R81, R167, R213). -/
def State.gradCode (s : State) (p : Nat) (o : UnitOp) (b : Bank) (i j : Nat) : BitVec 16 :=
  let idx := (o.x.toNat + i) * dExt0 o.d + (o.z.toNat + j)
  stochasticRound (b.gradFp32 o.y.toInt i j)
    (sowerElement (s.pdk p).sowerKey classSr (BitVec.ofNat 28 (s.field (.sowerStep p) 0 28)) (dStream o.d) idx)

/-- What a GRAD drain adds to its entry's window (R168). -/
def gradCounts (td : Int) (rows : List (List (BitVec 16))) : Counts :=
  { nonfin := (rows.filter fun r => r.any bfNonFinite).length,
    elems := (rows.map List.length).sum,
    amax := rows.foldl (fun a r => r.foldl (fun a v => if bfNonFinite v then a else max a (measureUp ((bf v).scale td))) a) 0 }

/-- aclk of a gradient drain (R167): a full bank takes 128 aclk of reading, and the writing ends 8 aclk later. -/
def gradDrainTime (e : Nat × Nat) : Nat := gradReadTime e + 8

/-- As `State.endFwaWait`, for a product aimed at a DRAINING bank of the BWA (R162). -/
def State.endBwaWait (s : State) (n q : Nat) : State :=
  let waiting (o : UnitOp) : Bool := decide (o.kind = .bmm) && o.waits && decide (o.bank = q)
  match takeFirst waiting (s.tile n).bwa with
  | none => s
  | some (o, _) =>
    let tag := s.bwaTagOf (n / 64) (bits o.word 2 2) false o.a o.b
    s.modTile n fun t =>
      { t.setBwaBank q (({} : Bank).claim tag (dExt1 o.a) (dExt1 o.b)) with
        bwa := updateFirst waiting (fun x => { x with waits := false, tag := tag, freed := s.now }) t.bwa }

/-- BWA_DRAIN_COMPLETE (R88, R166 to R168, R280).  A drained element that R280 leaves unwritten still sets the non-finite flag,
as a result of the drain, and enters no count of the window (DESIGN CHOICE, notes/assumptions/77). -/
def State.completeBwaDrain (s : State) (n : Nat) : State :=
  let t := s.tile n
  match takeFirst (fun o => decide (o.kind = .bdr) && o.started.isSome) t.bwa with
  | none => s
  | some (o, rest) =>
    let b := t.bwaBank o.bank
    let e := t.gradExtentOf o
    let s := s.advanceTo (o.started.getD 0 + gradDrainTime e)
    let p := s.tilePaddock n
    let rows := (List.range e.1).map fun i => (List.range e.2).map fun j => s.gradCode p o b i j
    let bad := ((cells b.extM b.extN).find? fun c => !(fp (b.gradFp32 o.y.toInt c.1 c.2)).isFinite).map fun c =>
      c.1 * shapeN (bits b.tag 60 2) + c.2
    let s := s.modTile n fun t => { ((t.setBwaBank o.bank {}).slotEnd o) with bwa := rest }
    let s := s.writePieces p (unitPieces (rows.zipIdx.map fun r => (rowAt o.d r.2, r.1.flatMap fun v => leBytes 2 v.toNat)))
    let s := if dHasEntry o.d then s.account (n / 64) (dEntry o.d) (gradCounts o.y.toInt rows) false else s
    (s.endBwaWait n o.bank).nonFiniteAt n o bad

/-- BWA_DRAIN_COMPLETE. -/
def execBwaDrainComplete (n : Nat) (s : State) : Host.Outcome State Fault Refusal :=
  .next (s.whenRunning fun s => s.completeBwaDrain n)

/-! ### The agreement watch -/

/-- The repeat that may start next: the BWA is idle, and the bank of its number holds repeats of the same FWA bank or
nothing (R128). -/
def Tile.nextRepeat (t : Tile) : Option UnitOp :=
  if t.bwa.any fun o => o.started.isSome then none
  else t.bwa.find? fun o => decide (o.kind = .watchProduct) && decide (o.waits = (t.bwaBank o.bank).watched)

/-- AGREEMENT_REPEAT (R127 to R129, R169): the Martingale issues a sampled product again on the idle BWA, in the B-shape of
its FWA product.  The repeat takes the BWA bank of its FWA bank's number, which the manual leaves open (DESIGN CHOICE,
notes/assumptions/73). -/
def State.issueRepeat (s : State) (n : Nat) : State :=
  let t := s.tile n
  if s.tilePhase n ≠ .gen ∧ s.tilePhase n ≠ .fwd then s
  else match t.nextRepeat with
    | none => s
    | some o =>
      let same (x : UnitOp) : Bool := decide (x = o)
      let tag := s.bwaTagOf (n / 64) (bits o.word 2 2) true o.srcA o.srcB
      let b := t.bwaBank o.bank
      let drop (s : State) : State := s.modTile n fun t => { t with bwa := t.bwa.filter fun x => !same x }
      if tagState b.tag = 1 ∧ setTagState b.tag 0 ≠ tag then drop (s.countAbandoned (n / 64) (bits o.tag 32 8) 1)
      else
        let (s, bad) := s.readRanges (bwaRanges o.srcA o.srcB)
        if bad then (drop s).opFault n cBwaEcc 0 o
        else
          let b := { b with tag := setTagState tag 1, activation := bits o.tag 32 8, always := decide (bits o.tag 58 2 = 2) }
          s.modTile n fun t =>
            { t.setBwaBank o.bank b with bwa := updateFirst same (fun x => { x with started := some (max s.now t.bwaFree) }) t.bwa }

/-- AGREEMENT_REPEAT. -/
def execAgreementRepeat (n : Nat) (s : State) : Host.Outcome State Fault Refusal :=
  .next (s.whenRunning fun s => s.issueRepeat n)

/-- The relative error of one element as a BF16 magnitude (R130); `open_` is the free value for a non-finite operand. -/
def relativeError (yf yb open_ : BitVec 16) : BitVec 16 :=
  if bfNonFinite yf || bfNonFinite yb then open_
  else
    match bf yf, bf yb with
    | .fin s m e, .fin t k f =>
      if k = 0 then (if m = 0 then 0 else 0x7F80)
      else
        match (Num.fin s m e).add (Num.fin t k f).neg with
        | .fin _ d g => BitVec.ofNat 16 (fmtBf16.roundRat false false false d k (g - f))
        | _ => open_
    | _, _ => open_

/-- A magnitude code above 2^−k. -/
def aboveLimit (r : BitVec 16) (k : Nat) : Bool :=
  bfNonFinite r || (match bf r with | .fin _ m e => ratLt 1 1 (-(k : Int)) m 1 e | _ => true)

/-- The relative errors of a compared output, drawing a free value for each non-finite pair. -/
def State.errorsOf (s : State) : List (BitVec 16 × BitVec 16) → State × List (BitVec 16)
  | [] => (s, [])
  | (yf, yb) :: rest =>
    if bfNonFinite yf || bfNonFinite yb then
      let (v, s) := s.draw
      let (s, rs) := s.errorsOf rest
      (s, relativeError yf yb (BitVec.ofNat 16 (bits v 0 15)) :: rs)
    else
      let (s, rs) := s.errorsOf rest
      (s, relativeError yf yb 0 :: rs)

/-- The statistics a comparison adds (R130). -/
def MtgEntry.compare (e : MtgEntry) (products warn : Nat) (rs : List (BitVec 16)) : MtgEntry :=
  { e with samples := satAdd e.samples products, elems := satAdd e.elems rs.length,
           exceed := satAdd e.exceed (rs.filter fun r => aboveLimit r warn).length,
           maxrel := BitVec.ofNat 16 (rs.foldl (fun a r => max a r.toNat) e.maxrel.toNat) }

/-- A bank whose repeats and whose FWA drain are both complete. -/
def Tile.comparable (t : Tile) (q : Nat) : Bool :=
  (t.bwaBank q).watched && !(t.bwa.any fun o => decide (o.kind = .watchProduct) && decide (o.bank = q) && o.waits)

/-- AGREEMENT_COMPARE (R130, R166, R167): the repeats of a bank drain to COMPARE and are compared with the FWA drain; the
statistics enter the activation entry's open window, and the bank is EMPTY.  After that window has closed the statistics are
dropped: nothing counts them, ABANDONED included (DESIGN CHOICE, notes/assumptions/73). -/
def State.compareRepeats (s : State) (n : Nat) : State :=
  let t := s.tile n
  match (List.range 4).find? t.comparable with
  | none => s
  | some q =>
    let b := t.bwaBank q
    let done := s.modTile n fun t => t.setBwaBank q {}
    if b.products = 0 then done
    else
      let s := done.advanceTo (t.bwaDone + 24)
      let (s, rs) := s.errorsOf ((cells b.extM b.extN).map fun c => (Tbl.get 0 b.watch (c.1 * b.extN + c.2), b.repeatBf16 c.1 c.2))
      if (s.entry (n / 64) b.activation).isOpen then
        s.modEntry (n / 64) b.activation fun e => e.compare b.products (s.field (.mtgWatch (s.tilePaddock n)) 16 8) rs
      else s

/-- AGREEMENT_COMPARE. -/
def execAgreementCompare (n : Nat) (s : State) : Host.Outcome State Fault Refusal :=
  .next (s.whenRunning fun s => s.compareRepeats n)

end Sys2Proof.Machine
end

