-- ==== Sys2Proof/Machine/Martingale.lean ====
section
/-!
DEFINITION. Machine/Martingale.lean: opening and closing windows, verdicts and their actions (R100, R110, R113 to R124), the
policy microprogram and the reference policy (R125, R126), and the verdict read (R284, R285).
-/

namespace Sys2Proof.Machine

/-! ### Opening a window -/

/-- Entry number of MOPEN, MCLOSE and MVERD. -/
def entryImm (w : BitVec 64) : Nat := bits w 0 8

/-- The rung an open installs: NEXT_RUNG, for a FWD entry within CTL.RUNG_MIN and CTL.RUNG_MAX (R99). -/
def MtgEntry.rungToInstall (e : MtgEntry) : BitVec 2 :=
  if e.kind = 1 then BitVec.ofNat 2 (max e.rungMin (min e.rungMax e.nextRung.toNat)) else e.nextRung

/-- The entry with a new window: counts and measures clear, OPEN set (R110); `installs` brings NEXT_T and NEXT_RUNG into
force. -/
def MtgEntry.openWindow (e : MtgEntry) (installs : Bool) : MtgEntry :=
  let e := if installs then { e with tExp := e.nextT, rung := e.rungToInstall } else e
  { e with
    isOpen := true, sat := 0, zero := 0, ovfl := 0, zrange := 0, satb := 0, zerob := 0, nonfin := 0, lastAmax := 0,
    lastMinblk := 0, samples := 0, elems := 0, exceed := 0, maxrel := 0, abandoned := 0, intra := 0, zeroed := 0,
    converted := false, wroteTrouble := false, inPart := e.part && decide (e.kind ≠ 0) }

/-- An open installs NEXT_T and NEXT_RUNG: GRAD entries in every phase, others in GEN and FWD (R120). -/
def MtgEntry.installs (e : MtgEntry) (phase : Phase) : Bool := decide (e.kind = 3) || decide (phase = .gen) || decide (phase = .fwd)

/-- Entry `e` of sheaf `m` opens; an open entry is joined (R110).  A T written in this aclk stays (R9).  Products
are counted again from here (R127). -/
def State.openEntry (s : State) (m e : Nat) (phase : Phase) : State :=
  if (s.entry m e).isOpen then s
  else
    let s := s.modEntry m e fun x => s.keepWritten m e x (x.openWindow (x.installs phase))
    (tilesOfSheaf m).foldl (fun s n => s.modTile n fun t => { t with sampleIdx := Tbl.put 0 t.sampleIdx e 0 }) s

/-- MOPEN waits for the drain fence (R149), and while a close of its entry is being evaluated (R110). -/
def mopenReady (m : Nat) (s : State) (t : Tile) (w : BitVec 64) : Option Nat :=
  if t.fenced && (s.entry m (entryImm w)).evaluating.isNone then some 0 else none

/-- MOPEN (R99, R110, R120, R284). -/
def mopenBody (n : Nat) (s : State) (_ : Tile) (w : BitVec 64) : Issued :=
  let m := n / 64
  let x := s.entry m (entryImm w)
  if decide (x.kind = 0) || x.malformed then .fault cDescEntry 0
  else .retire (s.openEntry m (entryImm w) (s.tilePhase n)) 4 none

/-- MOPEN. -/
def execMopen (n : Nat) (s : State) : Host.Outcome State Fault Refusal :=
  .next (s.issueWhen n 0x48 (mopenReady (n / 64)) (mopenBody n))

/-! ### Closing a window -/

/-- An operation issued before `at_` whose results enter the window of entry `e`: a conversion, a drain toward the Hame or
a gradient drain (R284). -/
def UnitOp.feeds (o : UnitOp) (e at_ : Nat) : Bool :=
  decide (o.issued < at_) &&
    (match o.kind with
     | .hq | .hx | .hw | .ht => dHasEntry o.entryDesc && decide (dEntry o.entryDesc = e)
     | .fdr => bit o.word 2 && decide (dEntry o.d = e)
     | _ => false)

/-- The gradient drains of a tile are named by their destination. -/
def UnitOp.feedsGrad (o : UnitOp) (e at_ : Nat) : Bool :=
  decide (o.kind = .bdr) && decide (o.issued < at_) && dHasEntry o.d && decide (dEntry o.d = e)

/-- MCLOSE retires at once for a closed entry; otherwise it waits for what was accepted before it issued (R284). -/
def mcloseReady (m : Nat) (s : State) (t : Tile) (w : BitVec 64) : Option Nat :=
  let e := entryImm w
  if !(s.entry m e).isOpen then some 0
  else if (tilesOfSheaf m).any fun n =>
      let x := s.tile n
      (x.hame.any fun o => o.feeds e t.nextIssue) || (x.fwa.any fun o => o.feeds e t.nextIssue) ||
        (x.bwa.any fun o => o.feedsGrad e t.nextIssue) then none
  else some 0

/-- Entry `e` of sheaf `m` closes under a phase: repeats of the entry not yet compared are discarded, and the evaluation of
the close begins (R284). -/
def State.closeEntry (s : State) (m e : Nat) (phase : Phase) : State :=
  let s := (tilesOfSheaf m).foldl (fun s n => s.abandonRepeats n fun x => decide (x = e)) s
  s.modEntry m e fun x => { x with isOpen := false, evaluating := some (phase, s.now) }

/-- MCLOSE (R110, R284). -/
def mcloseBody (n : Nat) (s : State) (_ : Tile) (w : BitVec 64) : Issued :=
  let m := n / 64
  let e := entryImm w
  .retire (if (s.entry m e).isOpen then s.closeEntry m e (s.tilePhase n) else s) 1 none

/-- MCLOSE. -/
def execMclose (n : Nat) (s : State) : Host.Outcome State Fault Refusal :=
  .next (s.issueWhen n 0x49 (mcloseReady (n / 64)) (mcloseBody n))

/-! ### Verdict read -/

/-- The verdict word (R285). -/
def MtgEntry.verdictWord (e : MtgEntry) : BitVec 32 :=
  pack 32 [(16, 1, b2n e.isOpen), (8, 8, e.nextT.toNat), (4, 2, e.nextRung.toNat), (0, 3, e.verdict.toNat)]

/-- MVERD stalls while the close is being evaluated (R117, R285). -/
def mverdReady (m : Nat) (s : State) (_ : Tile) (w : BitVec 64) : Option Nat :=
  if (s.entry m (entryImm w)).evaluating.isNone then some 0 else none

/-- MVERD (R285). -/
def mverdBody (n : Nat) (s : State) (_ : Tile) (w : BitVec 64) : Issued :=
  .retire (s.modTile n fun t => t.setS (fD w) (s.entry (n / 64) (entryImm w)).verdictWord) 1 none

/-- MVERD. -/
def execMverd (n : Nat) (s : State) : Host.Outcome State Fault Refusal :=
  .next (s.issueWhen n 0x4A (mverdReady (n / 64)) (mverdBody n))

/-! ### The reference rule (R98, R100) -/

/-- TOP of an entry at a rung (R98). -/
def MtgEntry.top (e : MtgEntry) (rung : Nat) : Num :=
  match e.kind with
  | 2 => .fin false 57344 0
  | 3 => .fin false 1 64
  | _ =>
    if rung = 0 then (Num.fin false (if e.integer then 7 else 6) 0).mul (blockScale e.scap)
    else .fin false (if e.integer then 127 else 448) 0

/-- The history maximum A (R100), as a BF16 magnitude: 0 when HIST holds no finite value but zeros. -/
def MtgEntry.histMax (e : MtgEntry) : BitVec 16 :=
  (List.range 16).foldl (fun a i =>
    let v := Tbl.get 0 e.hist i
    let g := BitVec.ofNat 16 (bits v 0 15)
    if bfNonFinite v then a else if a.toNat < g.toNat then g else a) 0

/-- The smallest t with a ≤ top × 2^t for positive finite a and top (R100, R126). -/
def scaleFor (a top : Num) : Option Int :=
  match a, top with
  | .fin _ m e, .fin _ mt et =>
    if m = 0 ∨ mt = 0 then none
    else
      let lg := log2Quot m mt + e - et
      some (if ratLt mt 1 (et + lg) m 1 e then lg + 1 else lg)
  | _, _ => none

/-- A value clamped to a field's range. -/
def clampInt (lo hi x : Int) : Int := if x < lo then lo else if hi < x then hi else x

/-- floor(log2 |v|) of a BF16 code that is finite and not zero. -/
def bfLog2 (v : BitVec 16) : Int :=
  match bf v with
  | .fin _ m e => log2Quot m 1 + e
  | _ => 0

/-! ### Policy microprogram (R126) -/

/-- A run of the microprogram: its registers, the entry, NEXT_RUNG as the run found it, the draw counter and whether SETT
clamped. -/
structure UcodeRun where
  regs : Tbl (BitVec 16) := []
  entry : MtgEntry
  firstRung : BitVec 2 := entry.nextRung
  draws : Nat
  clamped : Bool := false
  deriving DecidableEq, Repr

/-- Register mk. -/
def UcodeRun.m (r : UcodeRun) (k : Nat) : BitVec 16 := Tbl.get 0 r.regs k
/-- Register mk written. -/
def UcodeRun.set (r : UcodeRun) (k : Nat) (v : BitVec 16) : UcodeRun := { r with regs := Tbl.put 0 r.regs k v }
/-- A register written with a free value: the manual states no result (notes/assumptions/9). -/
def UcodeRun.setFree (r : UcodeRun) (k : Nat) : UcodeRun :=
  { r.set k (BitVec.ofNat 16 (Config.freeBits r.draws).toNat) with draws := r.draws + 1 }

/-- The sources of LDS (R126). -/
def MtgEntry.source (e : MtgEntry) (k : Nat) : BitVec 16 :=
  let sat16 (x : Nat) : BitVec 16 := BitVec.ofNat 16 (min x 0xFFFF)
  match k with
  | 16 => e.histMax
  | 17 => e.lastAmax
  | 18 => e.lastMinblk
  | 19 => BitVec.ofInt 16 e.tExp.toInt
  | 20 => BitVec.ofInt 16 e.margin
  | 21 => BitVec.ofNat 16 e.nextRung.toNat
  | 22 => BitVec.ofNat 16 e.rungMin
  | 23 => BitVec.ofNat 16 e.cleanRun.toNat
  | 24 => BitVec.ofNat 16 e.verdict.toNat
  | 25 => sat16 e.sat.toNat
  | 26 => sat16 e.zero.toNat
  | 27 => sat16 e.ovfl.toNat
  | 28 => e.satb
  | 29 => e.zerob
  | 30 => e.maxrel
  | 31 => sat16 e.exceed.toNat
  | _ => Tbl.get 0 e.hist ((e.head.toNat + 16 - k) % 16)

/-- A signed sum that saturates at 16 bits. -/
def sat16Int (x : Int) : BitVec 16 := BitVec.ofInt 16 (clampInt (-32768) 32767 x)

/-- The magnitude of a BF16 code, when it is finite and its sign gives it a logarithm. -/
def positiveBf (v : BitVec 16) : Bool := !bfNonFinite v && !bit v 15

/-- One microprogram instruction: the run after it, and how many following instructions it skips; none ends the run. -/
def UcodeRun.exec (r : UcodeRun) (w : BitVec 32) : Option (UcodeRun × Nat) :=
  let d := bits w 24 3
  let a := r.m (bits w 21 3)
  let b := r.m (bits w 18 3)
  let imm := bits w 0 16
  let go (r : UcodeRun) : Option (UcodeRun × Nat) := some (r, 0)
  match bits w 27 5 with
  | 0x01 => go (r.set d (r.entry.source (imm % 32)))
  | 0x02 => go (r.set d (BitVec.ofNat 16 imm))
  | 0x03 => go (r.set d (sat16Int (a.toInt + b.toInt)))
  | 0x04 => go (r.set d (sat16Int (a.toInt - b.toInt)))
  | 0x05 => go (r.set d (if a.toInt ≤ b.toInt then a else b))
  | 0x06 => go (r.set d (if a.toInt ≤ b.toInt then b else a))
  | 0x07 =>
    if bits a 0 15 = 0 then go (r.set d (BitVec.ofInt 16 (-128)))
    else if positiveBf a then
      (match scaleFor (bf a) (r.entry.top r.entry.nextRung.toNat) with
       | some t => go (r.set d (BitVec.ofInt 16 t))
       | none => go (r.setFree d))
    else go (r.setFree d)
  | 0x08 =>
    if bfIsNan a || bfIsNan b then go (r.setFree d)
    else go (r.set d (BitVec.ofNat 16 (max (bits a 0 15) (bits b 0 15))))
  | 0x09 =>
    if bits a 0 15 = 0 then go (r.set d (BitVec.ofInt 16 (-128)))
    else if positiveBf a then go (r.set d (BitVec.ofInt 16 (bfLog2 a)))
    else go (r.setFree d)
  | 0x0A => some (r, if a.toInt < b.toInt then imm else 0)
  | 0x0B => some (r, if a = b then imm else 0)
  | 0x0C =>
    let t := clampInt (-127) 127 a.toInt
    go { r with entry := { r.entry with nextT := BitVec.ofInt 8 t }, clamped := r.clamped || decide (t ≠ a.toInt) }
  | 0x0D =>
    let v := BitVec.ofInt 4 (clampInt (-8) 7 a.toInt)
    go { r with entry := { r.entry with ctl := setBits r.entry.ctl 28 4 v.toNat } }
  | 0x0E =>
    if (r.entry.rungMin : Int) ≤ a.toInt ∧ a.toInt ≤ r.entry.nextRung.toNat then
      -- one rung at a time (R99): a run lowers NEXT_RUNG by one at most (DESIGN CHOICE, notes/assumptions/80)
      go { r with entry := { r.entry with nextRung := BitVec.ofNat 2 (max a.toNat (r.firstRung.toNat - 1)) } }
    else go r
  | 0x0F => go { r with entry := { r.entry with cleanRun := BitVec.ofInt 8 (clampInt 0 255 a.toInt) } }
  | _ => none

/-- The instructions from some point on, the first `skip` of them passed over; END or the end of the text ends the run. -/
def UcodeRun.run (r : UcodeRun) : Nat → List (BitVec 32) → UcodeRun
  | _, [] => r
  | k + 1, _ :: rest => r.run k rest
  | 0, w :: rest =>
    match r.exec w with
    | none => r
    | some (r', k) => r'.run k rest

/-- The built-in reference policy (R100, R126): the rung first, then NEXT_T, T itself when the history maximum is 0. -/
def MtgEntry.reference (e : MtgEntry) (draws : Nat) : UcodeRun :=
  let e := if e.verdict = 0 ∧ 64 ≤ e.cleanRun.toNat ∧ e.rungMin < e.nextRung.toNat then
      { e with nextRung := e.nextRung - 1, cleanRun := 0 } else e
  let a := e.histMax
  if a = 0 then { entry := { e with nextT := e.tExp }, draws := draws }
  else
    match scaleFor (bf a) (e.top e.nextRung.toNat) with
    | some t =>
      let x := t + e.margin
      let c := clampInt (-127) 127 x
      { entry := { e with nextT := BitVec.ofInt 8 c }, draws := draws, clamped := decide (c ≠ x) }
    | none => { entry := { e with nextT := BitVec.ofNat 8 (Config.freeBits draws).toNat }, draws := draws + 1 }

/-- Step 6 of R115: the paddock's microprogram, or the reference policy. -/
def State.policy (s : State) (p : Nat) (e : MtgEntry) : UcodeRun :=
  if s.field (.mtgPolicy p) 16 1 = 1 then ({ entry := e, draws := s.draws } : UcodeRun).run 0 (s.pdk p).ucode
  else e.reference s.draws

/-! ### The verdict (R113 to R122) -/

/-- What a judgement leaves: the entry, its events, and what it does to the paddock's replay and widening counts. -/
structure Judged where
  entry : MtgEntry
  events : List EventCode := []
  widened : Bool := false
  replayed : Bool := false
  draws : Nat
  deriving DecidableEq, Repr

/-- A window of a FWD entry has overflow (R113). -/
def MtgEntry.overflow (e : MtgEntry) (zerobLim : Nat) : Bool :=
  if e.kind ≠ 1 then false
  else if e.rung = 0 then
    decide (e.ovfl ≠ 0) ||
      (decide (e.lastAmax ≠ 0) && decide (e.lastMinblk ≠ 0) &&
        decide ((e.scap / 8 % 16 : Nat) - 7 + 9 < bfLog2 e.lastAmax - bfLog2 e.lastMinblk))
  else if e.rung = 1 then decide (zerobLim ≤ e.intra)
  else false

/-- Very-low-precision trouble (R114). -/
def MtgEntry.vlp (e : MtgEntry) (satbLim zerobLim : Nat) : Bool :=
  decide (satbLim ≤ e.satb.toNat) || decide (zerobLim ≤ min e.zeroed 0xFFFF)

/-- Bits of VERDICT: REPEAT, FLAG and REPLAY at [36], [37] and [38] of STATE. -/
def vRepeat : BitVec 3 := 1
/-- FLAG. -/
def vFlag : BitVec 3 := 2
/-- REPLAY. -/
def vReplay : BitVec 3 := 4

/-- Steps 3 and 4 of R115 for a window with overflow: the widening repeat if it is permitted, else the fall-back. -/
def Judged.overflowed (j : Judged) : Judged :=
  let e := j.entry
  if e.repeatAllow && decide (e.rung.toNat < e.rungMax) && decide (e.repeats.toNat < 2) then
    { j with entry := { e with nextRung := e.rung + 1, repeats := e.repeats + 1, verdict := e.verdict ||| vRepeat },
             events := j.events ++ [evtNumWiden], widened := true }
  else
    { j with entry := { e with verdict := e.verdict ||| vFlag, raiseFlags := e.raiseFlags || e.wroteTrouble }, events := j.events ++ [evtNumFlag] }

/-- Steps 3 to 5 of R115. `replayOk`: REPLAY_COUNT is below REPLAY_MAX. -/
def Judged.trouble (j : Judged) (satbLim zerobLim : Nat) (replayOk : Bool) : Judged :=
  let e := j.entry
  let vlp := e.vlp satbLim zerobLim
  let j := if e.overflow zerobLim then j.overflowed else j
  if vlp && !j.widened then
    if replayOk then
      { j with
        entry := { j.entry with
          hist := Tbl.ofList 0 0 (List.replicate 16 e.lastAmax), verdict := j.entry.verdict ||| vReplay },
        events := j.events ++ [evtNumReplay], replayed := true }
    else if decide (e.kind = 1) && decide (j.entry.verdict &&& vFlag = 0) then j.overflowed
    else j
  else j

/-- The agreement watch's limits are passed (R130). -/
def MtgEntry.disagrees (e : MtgEntry) (maxExp fracExp : Nat) : Bool :=
  aboveLimit e.maxrel maxExp || decide (e.elems.toNat < e.exceed.toNat * 2 ^ fracExp)

/-- NEXT_T moved by `d` within the clamp (R116, R122). -/
def MtgEntry.shiftT (e : MtgEntry) (d : Int) : MtgEntry := { e with nextT := BitVec.ofInt 8 (clampInt (-127) 127 (e.nextT.toInt + d)) }

/-- A pending raise of flag levels outlives a window whose quantisations wrote no trouble plane, and any window of another phase:
it is for the next quantisation of the next step or its replay (R116, R120). -/
def MtgEntry.raiseLeft (e : MtgEntry) : Bool := e.raiseFlags && !e.wroteTrouble

/-- The judgement of a closed window whose counts and measures stand in `e`, under the phase of its close (R115, R116,
R120, R122, R130). -/
def State.judge (s : State) (p : Nat) (phase : Phase) (e : MtgEntry) : Judged :=
  let grad := decide (e.kind = 3)
  if !grad && decide (phase ≠ .gen) && decide (phase ≠ .fwd) then
    { entry := { e with verdict := 0, lowerT := false }, draws := s.draws }
  else
    let e := if e.converted then { e with head := e.head + 1, hist := Tbl.put 0 e.hist ((e.head.toNat + 1) % 16) e.lastAmax } else e
    let j : Judged := { entry := { e with nextRung := e.rung, verdict := 0, raiseFlags := e.raiseLeft }, draws := s.draws }
    let satbLim := s.field (.mtgThresh p) 24 16
    let j := if grad then j
      else j.trouble satbLim (s.field (.mtgThresh p) 8 16)
        (decide ((s.pdk p).replayCount.toNat < s.field (.mtgPolicy p) 37 4))
    let evs := j.events ++ (if !grad && decide (satbLim ≤ e.satb.toNat) then [evtNumSat] else [])
    let r := s.policy p j.entry
    let x := r.entry
    let x := if decide (x.verdict &&& vFlag ≠ 0) && !x.wroteTrouble && decide (x.rung ≠ 1) then x.shiftT 1 else x
    let x := if x.lowerT then { x.shiftT (-1) with lowerT := false } else x
    let x := if grad then x
      else if x.verdict = 0 then { x with cleanRun := satAdd x.cleanRun 1, repeats := 0 } else { x with cleanRun := 0 }
    { j with
      entry := x, draws := r.draws,
      events := evs ++ (if r.clamped then [evtMtgScaleClamp] else []) ++
        (if x.disagrees (s.field (.mtgWatch p) 8 8) (s.field (.mtgWatch p) 0 8) then [evtNumAgree] else []) }

/-- Payload layouts M and A of R478. -/
def MtgEntry.payload (x : MtgEntry) (e p : Nat) (code : EventCode) : BitVec 128 :=
  if code = evtNumAgree then
    pack 128 [(0, 8, e), (28, 4, p), (32, 16, x.maxrel.toNat), (64, 32, x.exceed.toNat), (96, 32, x.elems.toNat)]
  else
    pack 128 [(0, 8, e), (8, 8, x.tExp.toNat), (16, 8, x.nextT.toNat), (24, 2, x.rung.toNat), (26, 2, x.nextRung.toNat), (28, 4, p),
              (32, 16, x.satb.toNat), (48, 16, x.zerob.toNat), (64, 16, x.ovfl.toNat), (80, 16, x.lastAmax.toNat),
              (96, 16, x.nonfin.toNat)]

/-- What a judgement does outside the entry: the replay request and its count (R115 step 5, R119), WIDEN_COUNT, and its
events with the source of sheaf `m`. A host write of REPLAY_COUNT in the same aclk wins (R9). -/
def State.applyJudged (s : State) (m e p : Nat) (j : Judged) : State :=
  let s := { s with draws := j.draws }
  let s := if j.widened then s.modPdk p fun x => { x with widenCount := satAdd x.widenCount 1 } else s
  let s := if j.replayed then
      let hostWrote := s.hostBits (.mtgStatus p) &&& maskOf 32 16 ≠ 0
      (s.modPdk p fun x => { x with replayPending := true, replayCount := if hostWrote then x.replayCount else x.replayCount + 1 }).noteDevice
        (.mtgStatus p) (maskOf 16 1)
    else s
  j.events.foldl (fun s c => s.raise (srcSheaf m) c (j.entry.payload e p c)) s

/-- MTG_CLOSE_EVALUATION (R115, R120, R124): the verdict of a SHEAF entry whose close is being evaluated. -/
def State.evaluateClose (s : State) (m e : Nat) : State :=
  let x := s.entry m e
  match x.evaluating with
  | none => s
  | some (phase, _) =>
    if x.inPart then s
    else
      let p := (s.holds m).getD 0
      let j := s.judge p phase { x with evaluating := none }
      (s.modEntry m e fun _ => s.keepWritten m e x j.entry).applyJudged m e p j

/-- MTG_CLOSE_EVALUATION. -/
def execMtgCloseEvaluation (m e : Nat) (s : State) : Host.Outcome State Fault Refusal :=
  .next (s.whenRunning fun s => s.evaluateClose m e)

/-! ### PART entries (R65, R123) -/

/-- The participants of entry `e` of paddock `p`: sheaf, whether its entry was saved at a switch, and the entry. -/
def State.partners (s : State) (p e : Nat) : List (Nat × Bool × MtgEntry) :=
  (sheavesOf (s.mask p)).flatMap fun m =>
    let x := s.entry m e
    (if decide (s.holds m = some p) && x.inPart && (x.isOpen || x.evaluating.isSome) then [(m, false, x)] else []) ++
      ((s.sheaf m).savedParts.filter fun c => decide (c.1 = p) && decide (c.2.1 = e)).map fun c => (m, true, c.2.2)

/-- Saturating sums of the counts of two windows, the largest LAST_AMAX and the smallest LAST_MINBLK (R123). -/
def MtgEntry.joinWindow (x y : MtgEntry) : MtgEntry :=
  { x with
    sat := satAdd x.sat y.sat.toNat, zero := satAdd x.zero y.zero.toNat, ovfl := satAdd x.ovfl y.ovfl.toNat,
    zrange := satAdd x.zrange y.zrange.toNat, satb := satAdd x.satb y.satb.toNat, zerob := satAdd x.zerob y.zerob.toNat,
    nonfin := satAdd x.nonfin y.nonfin.toNat, samples := satAdd x.samples y.samples.toNat, elems := satAdd x.elems y.elems.toNat,
    exceed := satAdd x.exceed y.exceed.toNat, abandoned := satAdd x.abandoned y.abandoned.toNat,
    maxrel := if x.maxrel.toNat < y.maxrel.toNat then y.maxrel else x.maxrel,
    lastAmax := BitVec.ofNat 16 (max x.lastAmax.toNat y.lastAmax.toNat),
    lastMinblk := BitVec.ofNat 16 (minMeasure x.lastMinblk.toNat y.lastMinblk.toNat),
    intra := x.intra + y.intra, zeroed := x.zeroed + y.zeroed, converted := x.converted || y.converted,
    wroteTrouble := x.wroteTrouble || y.wroteTrouble, lowerT := x.lowerT || y.lowerT }

/-- A participant after the verdict: VERDICT, NEXT_T and NEXT_RUNG, the history, the run counts and the MARGIN of the judgement
(R123, R126 SETM); its own counts and measures, and the rest of its CTL, stay. -/
def MtgEntry.takeVerdict (x v : MtgEntry) : MtgEntry :=
  { x with
    verdict := v.verdict, nextT := v.nextT, nextRung := v.nextRung, hist := v.hist, head := v.head, repeats := v.repeats,
    cleanRun := v.cleanRun, ctl := setBits x.ctl 28 4 (bits v.ctl 28 4), raiseFlags := v.raiseFlags, lowerT := v.lowerT, evaluating := none, inPart := false, isOpen := false }

/-- Word `w` of the saved copy of an entry (R65, R407); its reserved words are zero (R6). -/
def MtgEntry.savedWord (x : MtgEntry) (w : Nat) : BitVec 64 := if w < 11 then x.word w else 0

/-- The registers do not show the entry's window whole. -/
def MtgEntry.hides (x : MtgEntry) : Bool :=
  x.converted || x.wroteTrouble || x.raiseFlags || x.lowerT || decide (x.intra ≠ 0) || decide (x.zeroed ≠ 0)

/-- The entry with what the registers do not show taken from `x`. -/
def MtgEntry.withHidden (y x : MtgEntry) : MtgEntry :=
  { y with converted := x.converted, wroteTrouble := x.wroteTrouble, raiseFlags := x.raiseFlags, lowerT := x.lowerT,
           intra := x.intra, zeroed := x.zeroed }

/-- The sheaf keeps what the saved copy of an entry of paddock `p` does not show (DESIGN CHOICE, notes/assumptions/30). -/
def Sheaf.keepWindow (x : Sheaf) (p e : Nat) (y : MtgEntry) : Sheaf :=
  { x with savedWindows := (x.savedWindows.filter fun d => !(decide (d.1 = p) && decide (d.2.1 = e))) ++
      (if y.hides then [(p, e, y)] else []) }

/-- The 128 bytes of a saved entry. -/
def MtgEntry.bytes (x : MtgEntry) : List Byte := (List.range 16).flatMap fun w => leBytes 8 (x.savedWord w).toNat

/-- The entry whose saved copy holds some words; the inverse of `MtgEntry.savedWord`. -/
def MtgEntry.ofWords (w : Nat → BitVec 64) : MtgEntry :=
  let f (i lo len n : Nat) : BitVec n := BitVec.ofNat n (bits (w i) lo len)
  { hist := Tbl.ofList 0 0 ((List.range 16).map fun i => BitVec.ofNat 16 (bits (w (i / 4)) (16 * (i % 4)) 16)),
    ctl := w 4 &&& fieldMask [(40, 8), (18, 14)],
    tExp := f 5 56 8 8, nextT := f 5 48 8 8, rung := f 5 46 2 2, nextRung := f 5 44 2 2, head := f 5 40 4 4, isOpen := bit (w 5) 39,
    verdict := f 5 36 3 3, repeats := f 5 34 2 2, cleanRun := f 5 24 8 8,
    sat := f 6 40 24 24, zero := f 6 16 24 24, ovfl := f 6 0 16 16,
    zrange := f 7 48 16 16, satb := f 7 32 16 16, zerob := f 7 16 16 16, nonfin := f 7 0 16 16,
    samples := f 8 32 32 32, elems := f 8 0 32 32, exceed := f 9 32 32 32, maxrel := f 9 16 16 16, abandoned := f 9 0 16 16,
    lastAmax := f 10 48 16 16, lastMinblk := f 10 32 16 16 }

/-- DPA of the context area of paddock `p` for sheaf `m` (R407). -/
def State.contextBase (s : State) (p m : Nat) : Nat := s.field (.pdkCtx p) 16 32 * 0x10000 + 0x10000 * m

/-- DPA of the saved copy of entry `e` (R407). -/
def State.entryArea (s : State) (p m e : Nat) : Nat := s.contextBase p m + 0x4000 + 128 * e

/-- The lowest-numbered sheaf in the mask of paddock `p`, or sheaf 0: the source of the global Martingale's writes (R292). -/
def State.lowestSheaf (s : State) (p : Nat) : Nat := ((sheavesOf (s.mask p)).head?).getD 0

/-- A participant takes the verdict, in its sheaf or in its saved copy (R65, R123); what the host has written of its entry in
this aclk stays (R9). -/
def State.deliverVerdict (s : State) (p e : Nat) (v : MtgEntry) (c : Nat × Bool × MtgEntry) : State :=
  let x := c.2.2.takeVerdict v
  if c.2.1 then
    (s.masterWrite (srcSheaf (s.lowestSheaf p)) p (s.entryArea p c.1 e) x.bytes).modSheaf c.1 fun y =>
      { y with savedParts := y.savedParts.filter fun d => !(decide (d.1 = p) && decide (d.2.1 = e)) }.keepWindow p e x
  else s.modEntry c.1 e fun y => s.keepWritten c.1 e y x

/-- A window of paddock `p` that sheaf `m` holds saved and open when the phase of `p` changes is closed in its saved copy, judged under
the old phase (R65, R121). -/
def State.closeSaved (s : State) (p m : Nat) (old : Phase) (e : Nat) : State :=
  let y := MtgEntry.ofWords (recordWord (s.readBytes p (s.entryArea p m e) 128))
  let y := match (s.sheaf m).savedWindows.find? fun c => decide (c.1 = p) && decide (c.2.1 = e) with
    | some c => y.withHidden c.2.2
    | none => y
  if !y.isOpen then s
  else
    let j := s.judge p old { y with isOpen := false }
    let s := (s.masterWrite (srcSheaf m) p (s.entryArea p m e) j.entry.bytes).modSheaf m fun x => x.keepWindow p e j.entry
    s.applyJudged m e p j

/-- PART_VERDICT (R123, R124): once every participant has closed, one verdict is formed from their joined windows under the
entry of the lowest-numbered one, and written into each. -/
def State.judgePart (s : State) (p e : Nat) : State :=
  match s.partners p e with
  | [] => s
  | c :: rest =>
    if (c :: rest).any fun d => d.2.2.isOpen then s
    else
      let lead := rest.foldl (fun x d => x.joinWindow d.2.2) c.2.2
      let phase := (lead.evaluating.map Prod.fst).getD .idle
      let j := s.judge p phase { lead with evaluating := none }
      let s := (c :: rest).foldl (fun s d => s.deliverVerdict p e j.entry d) s
      s.applyJudged c.1 e p j

/-- PART_VERDICT. -/
def execPartVerdict (p e : Nat) (s : State) : Host.Outcome State Fault Refusal :=
  .next (s.whenRunning fun s => s.judgePart p e)

end Sys2Proof.Machine
end

