-- ==== Sys2Proof/Machine/Whippletree.lean ====
section
/-!
DEFINITION. Machine/Whippletree.lean: collectives and the owner update (R317 to R344, R512): starting and pacing, wire values,
arrival-order addition, parameter records, shard versions and permutes.
-/

namespace Sys2Proof.Machine

/-! ### Kinds and counts -/

/-- KIND encodings (R317). -/
def kindReduce : Nat := 1
/-- ALL_GATHER. -/
def kindGather : Nat := 2
/-- PERMUTE. -/
def kindPermute : Nat := 3

/-- Elements of a chunk (R322). -/
def chunkElems : Nat := 2048
/-- Records of a permute chunk (R322). -/
def chunkRecords : Nat := 1024

/-- Members P. -/
def Coll.count (c : Coll) : Nat := c.pM1 + 1
/-- Elements S of a shard (R322). -/
def Coll.shard (c : Coll) : Nat := chunkElems * c.chunks

/-- The collective with a number. -/
def State.coll (s : State) (id : Nat) : Option Coll := s.colls.find? fun c => decide (c.id = id)
/-- A collective changed. -/
def State.modColl (s : State) (id : Nat) (f : Coll → Coll) : State :=
  { s with colls := s.colls.map fun c => if c.id = id then f c else c }

/-- The tethers of a collective: those of the other ranks, with the rank. -/
def Coll.peersOf (c : Coll) : List (Nat × Nat) :=
  (c.members.zipIdx.filter fun m => decide (m.2 ≠ c.rank)).map fun m => (m.2, m.1.1)

/-! ### Events of a collective (R343, R344) -/

/-- An event of the Whippletree, at most once per collective; `k` is its bit of `raised`, and layout C is added. -/
def State.wteEvent (s : State) (id k : Nat) (e : EventCode) (fields : List (Nat × Nat × Nat)) : State :=
  match s.coll id with
  | none => s
  | some c =>
    if bit c.raised k then s
    else (s.modColl id fun c => { c with raised := withBit c.raised k true }).raise srcWte e
      (pack 128 (fields ++ [(108, 4, c.paddock), (112, 16, c.tag.toNat)]))

/-- A record unit that cannot be read, or a dropped write (R333, R512): counted in UE. -/
def State.wteUe (s : State) (id a : Nat) : State :=
  match s.coll id with
  | none => s
  | some c =>
    let s := (s.modPdk c.paddock fun x => { x with cUe := satAdd x.cUe 1 }).modColl id fun c => { c with fUe := true }
    s.wteEvent id 1 evtWteUe [(0, 33, a / 64)]

/-! ### Memory as the Whippletree sees it (R512) -/

/-- The bytes of a range, unit by unit: none where a unit is unbacked or uncorrectable. -/
def State.wtePieces (s : State) (p : Nat) : List (Nat × Nat) → State × List (Option (List Byte))
  | [] => (s, [])
  | u :: rest =>
    let (s, x) : State × Option (List Byte) :=
      if s.reach p u.1 false false ≠ .ok then (s, none)
      else
        match s.checkUnit u.1 u.2 with
        | (s, some _) => (s, none)
        | (s, none) => (s, some (s.readBytesAll p u.1 u.2))
    let (s, more) := s.wtePieces p rest
    (s, x :: more)

/-- A range read byte by byte. -/
def State.wteBytes (s : State) (p a n : Nat) : State × List (Option Byte) :=
  let units := unitsOf a n
  let (s, xs) := s.wtePieces p units
  (s, (xs.zip units).flatMap fun x => match x.1 with
    | some bs => bs.map some
    | none => List.replicate x.2.2 none)

/-- The bytes of a range, if every one can be read. -/
def allBytes : List (Option Byte) → Option (List Byte)
  | [] => some []
  | none :: _ => none
  | some b :: rest => (allBytes rest).map fun bs => b :: bs

/-- A number of `n` bytes, if it can be read. -/
def State.wteNat (s : State) (p a n : Nat) : State × Option Nat :=
  let (s, xs) := s.wteBytes p a n
  (s, (allBytes xs).map leNat)

/-- BF16 codes of a range; one of which a byte cannot be read is NaN (R333, R512). -/
def codesOf : List (Option Byte) → List (BitVec 16)
  | some a :: some b :: rest => BitVec.ofNat 16 (a.toNat + 256 * b.toNat) :: codesOf rest
  | _ :: _ :: rest => bfNan :: codesOf rest
  | _ => []

/-- A write of the Whippletree: each aligned 64-byte unit that is not backed is dropped and counted (R512). -/
def State.wteWrite (s : State) (id p a : Nat) (bs : List Byte) : State :=
  (cutUnits (bs.length / 64 + 2) a bs).foldl (fun s c =>
    if s.reach p c.1 true false ≠ .ok then s.wteUe id c.1 else s.writeChunk p c.1 c.2 false) s

/-! ### Overlap (R340) -/

/-- The byte ranges that a collective reads, its ready word among them. -/
def Coll.reads (c : Coll) : List (Nat × Nat) :=
  let n := c.count
  (c.ready.toNat, 4) ::
  if c.kind = kindReduce then [(c.src.toNat, 2 * n * c.shard), (c.dst.toNat, 8 * c.shard)]
  else if c.kind = kindGather then
    [(c.src.toNat, 8 * c.shard), (c.version.toNat, 8)] ++ (if c.gmode = 2 then [(c.vtable.toNat, 8 * n)] else [])
  else (c.src.toNat, 32 * c.chunks) :: c.perms.map fun e => (e.src.toNat, 8 * e.count)

/-- The byte ranges that a collective writes on the part; of a permute, what its own table moves within the part and what has been
received (notes/assumptions/49). -/
def Coll.writes (c : Coll) : List (Nat × Nat) :=
  let n := c.count
  (c.done.toNat, 8) ::
    (if c.kind = kindReduce then [(c.dst.toNat, 8 * c.shard), (c.version.toNat, 8)]
     else if c.kind = kindGather then
      (c.dst.toNat, 2 * n * c.shard) :: (if c.gmode = 1 then [(c.vtable.toNat, 8 * n)] else [])
     else ((c.perms.filter fun e => decide (e.destRank = c.rank)).map fun e => (e.dst.toNat, 8 * e.count)) ++ c.received)

/-- Two lists of ranges meet. -/
def rangesMeet (xs ys : List (Nat × Nat)) : Bool := xs.any fun x => ys.any fun y => (overlapOf x y).isSome

/-- Two collectives overlap. -/
def Coll.overlaps (x y : Coll) : Bool :=
  rangesMeet x.writes (y.reads ++ y.writes) || rangesMeet y.writes (x.reads ++ x.writes)

/-- An earlier-admitted collective of the paddock that overlaps `c` is incomplete. -/
def State.collBlocked (s : State) (c : Coll) : Bool :=
  s.colls.any fun x => decide (x.paddock = c.paddock) && decide (x.id < c.id) && x.overlaps c

/-! ### Reports (R323, R324) -/

/-- The lowest chunk of an ALL_GATHER that has not come from every rank. -/
def Coll.gathered (c : Coll) : Nat := (List.range c.count).foldl (fun l r => min l (Tbl.get 0 c.got r)) c.chunks

/-- L as reported on tether `t`: the lowest incomplete chunk, or, for a PERMUTE, the chunks of that peer written here
(notes/assumptions/49). -/
def State.reportL (s : State) (c : Coll) (t : Nat) : Nat :=
  if c.kind = kindReduce then c.low
  else if c.kind = kindGather then c.gathered
  else (Tbl.get (0, 0) (s.tether t).permGot c.tag.toNat).1

/-- w as reported. -/
def Coll.reportW (c : Coll) : BitVec 16 := if c.kind = kindGather then 0xFFFF else BitVec.ofNat 16 c.slots

/-- A report becomes due on one tether of a collective. -/
def State.dueReport (s : State) (c : Coll) (t : Nat) : State :=
  let l := BitVec.ofNat 32 (s.reportL c t)
  s.modTether t fun x => { x with tagsDue := Tbl.insert x.tagsDue c.tag.toNat (l, c.reportW) }

/-- A report becomes due on every tether of a collective. -/
def State.dueReports (s : State) (c : Coll) : State := c.peersOf.foldl (fun s m => s.dueReport c m.2) s

/-- A report of a peer (R324): kept with the collective, or, when it announces a start, until the collective is admitted here. -/
def State.takeCollReport (s : State) (t : Nat) (tag : BitVec 16) (l : BitVec 32) (w : BitVec 16) : State :=
  let p := (s.tether t).paddock
  match s.colls.find? fun c => decide (c.paddock = p) && decide (c.tag = tag) with
  | some c =>
    (match c.peersOf.find? fun m => decide (m.2 = t) with
     | some m => s.modColl c.id fun c => { c with peers := Tbl.insert c.peers m.1 (l.toNat, w.toNat) }
     | none => s)
  | none => if l = 0 then s.modTether t fun x => { x with early := Tbl.insert x.early tag.toNat w } else s

/-! ### Ready word and start (R321, R323) -/

/-- READY_WORD_POLL (R321): a ready word that cannot be read never reaches READY_COUNT (R512). -/
def State.pollReady (s : State) (id : Nat) : State :=
  match s.coll id with
  | none => s
  | some c =>
    if c.isReady then s
    else
      match s.wteNat c.paddock c.ready.toNat 4 with
      | (s, some v) => if c.readyCount.toNat ≤ v then s.modColl id fun c => { c with isReady := true } else s
      | (s, none) => s.modColl id fun c => { c with fUe := true }

/-- READY_WORD_POLL. -/
def execReadyWordPoll (id : Nat) (s : State) : Host.Outcome State Fault Refusal :=
  .next (s.whenRunning fun s => s.pollReady id)

/-- Chunk slots of paddock `p` that are taken. -/
def State.slotsTaken (s : State) (p : Nat) : Nat :=
  (s.colls.filter fun c => decide (c.paddock = p) && c.started && c.takesSlots).foldl (fun n c => n + c.slots) 0

/-- SLOTS of paddock `p` in force. -/
def State.slotShare (s : State) (p : Nat) : Nat := s.field (.wteBuf p) 0 12

/-- An earlier collective of the paddock waits for slots (R323: slots are taken in admission order). -/
def State.slotQueueAhead (s : State) (c : Coll) : Bool :=
  s.colls.any fun x => decide (x.paddock = c.paddock) && decide (x.id < c.id) && x.isReady && !x.started && x.takesSlots && !s.collBlocked x

/-- COLLECTIVE_START (R323, R324, R340): a ready collective takes w slots and reports. -/
def State.startColl (s : State) (id : Nat) : State :=
  match s.coll id with
  | none => s
  | some c =>
    let share := s.slotShare c.paddock
    let w := min c.window share
    if !c.isReady || c.started || s.collBlocked c then s
    else if c.takesSlots && (s.slotQueueAhead c || decide (share < s.slotsTaken c.paddock + w)) then s
    else
      let s := s.modColl id fun c => { c with started := true, slots := if c.takesSlots then w else 0 }
      let s := c.peersOf.foldl (fun s m => s.modTether m.2 fun x => { x with permGot := Tbl.drop x.permGot c.tag.toNat }) s
      match s.coll id with
      | some c => s.dueReports c
      | none => s

/-- COLLECTIVE_START. -/
def execCollectiveStart (id : Nat) (s : State) : Host.Outcome State Fault Refusal :=
  .next (s.whenRunning fun s => s.startColl id)

/-! ### Completion (R335, R343) -/

/-- One byte into a CRC-16 of polynomial 0x1021 (R335). -/
def crcByte (crc : BitVec 16) (b : Byte) : BitVec 16 :=
  (List.range 8).foldl (fun c _ => if bit c 15 then (c <<< 1) ^^^ 0x1021 else c <<< 1) (crc ^^^ (BitVec.ofNat 16 b.toNat <<< 8))

/-- The digest of a byte string (R335). -/
def crc16 (bs : List Byte) : BitVec 16 := bs.foldl crcByte 0xFFFF

/-- The PARAM bytes of record units: unreadable ones as 0x7FC0 (R512). -/
def paramBytes : List (Option (List Byte)) → List Byte
  | [] => []
  | some bs :: rest => ((List.range 8).flatMap fun e => (bs.drop (8 * e)).take 2) ++ paramBytes rest
  | none :: rest => ((List.range 8).flatMap fun _ => leBytes 2 bfNan.toNat) ++ paramBytes rest

/-- The version word of an owner (R335): PARTIAL, STEP and the digest of the shard. -/
def versionWord (partial_ : Bool) (step : BitVec 28) (digest : BitVec 16) : BitVec 64 :=
  pack 64 [(63, 1, b2n partial_), (16, 28, step.toNat), (0, 16, digest.toNat)]

/-- The version word written at VERSION (R335, R337, R342): not while VERSION_STALE is set. -/
def State.writeVersion (s : State) (c : Coll) (aborted : Bool) : State :=
  if (s.pdk c.paddock).versionStale then s
  else
    let (s, units) := s.wtePieces c.paddock ((List.range (c.shard / 8)).map fun u => (c.dst.toNat + 64 * u, 64))
    let lost := units.any Option.isNone
    let s := if lost then s.modColl c.id fun c => { c with fUe := true } else s
    s.wteWrite c.id c.paddock c.version.toNat (leBytes 8 (versionWord (aborted || lost) c.step (crc16 (paramBytes units))).toNat)

/-- The completion word (R343). -/
def Coll.completion (c : Coll) (aborted : Bool) : BitVec 64 :=
  pack 64 [(48, 16, c.tag.toNat), (7, 1, b2n c.fMismatch), (6, 1, b2n c.fStale), (5, 1, b2n c.fUe), (4, 1, b2n c.fFrozen),
           (3, 1, b2n c.fNonfin), (2, 1, b2n c.fLate), (1, 1, b2n aborted), (0, 1, 1)]

/-- A collective ends: an aborted one that updated any chunk writes its version word; then its completion word, and its slots are
free (R342, R343). -/
def State.endColl (s : State) (id : Nat) (aborted : Bool) : State :=
  match s.coll id with
  | none => s
  | some c =>
    let s := if c.kind = kindReduce ∧ (aborted && c.updatedAny) = true then s.writeVersion c true else s
    let word := ((s.coll id).getD c).completion aborted
    let s := s.wteWrite id c.paddock c.done.toNat (leBytes 8 word.toNat)
    { s.modPdk c.paddock (fun x => { x with lastTag := c.tag }) with colls := s.colls.filter fun x => decide (x.id ≠ id) }

/-- What a collective of the part sends has been sent, and what it receives has been written; of a permute, what its own table moves
is written as the peers report it, and nothing is held. -/
def Coll.isComplete (c : Coll) : Bool :=
  if c.kind = kindReduce then decide (c.low = c.chunks) && (decide (c.count ≤ 1) || decide (c.sendC = c.chunks))
  else if c.kind = kindGather then
    decide (c.sendC = c.chunks) && (List.range c.count).all fun r => decide (Tbl.get 0 c.got r = c.chunks)
  else
    decide (c.sendC = c.perms.length) && c.held.isEmpty && c.peersOf.all fun m => decide (Tbl.get 0 c.got m.1 ≤ (Tbl.get (0, 0) c.peers m.1).1)

/-- A started collective that is complete ends.  A permute ends with a CHUNK_SEND that finds nothing left to send, since no rule
tells a member how many chunks its peers direct to it (DESIGN CHOICE, notes/assumptions/49). -/
def State.settleColl (s : State) (id : Nat) : State :=
  match s.coll id with
  | some c => if c.started && decide (c.kind ≠ kindPermute) && c.isComplete then s.endColl id false else s
  | none => s

/-! ### Wire values (R325, R336) -/

/-- The FP32 value of a gradient element (R325): exact, infinite beyond the range, subnormals flushed. -/
def wireValue (t : Int) (e : BitVec 16) : BitVec 32 :=
  if bits e 7 8 = 255 ∧ bits e 0 7 ≠ 0 then 0x7FC00000 else toFp ((bf (bfFlush e)).scale t)

/-- The gradient elements from `x` on of a collective, as sent (R325): T of GENTRY is that in force now. -/
def State.gradientWire (s : State) (c : Coll) (x : Nat) : State × List (BitVec 32) :=
  let t := (s.entry c.gsheaf c.gentry).tExp.toInt
  let (s, bs) := s.wteBytes c.paddock (c.src.toNat + 2 * x) (2 * chunkElems)
  let s := if bs.any Option.isNone then s.modColl c.id fun c => { c with fUe := true } else s
  (s, (codesOf bs).map (wireValue t))

/-- PARAM fields of the record units of a chunk, unreadable ones as NaN (R336, R512). -/
def State.gatherCodes (s : State) (c : Coll) (chunk : Nat) : State × List (BitVec 16) :=
  let (s, units) := s.wtePieces c.paddock ((List.range (chunkElems / 8)).map fun u => (c.src.toNat + 8 * chunkElems * chunk + 64 * u, 64))
  let s := if units.any Option.isNone then s.modColl c.id fun c => { c with fUe := true } else s
  (s, bf16s (paramBytes units))

/-- The owner's version word, as sent with chunk 0 (R336, R512). -/
def State.readVersion (s : State) (c : Coll) : State × BitVec 64 :=
  match s.wteNat c.paddock c.version.toNat 8 with
  | (s, some v) => (s, BitVec.ofNat 64 v)
  | (s, none) => (s.modColl c.id fun c => { c with fUe := true }, versionWord true 0 0)

/-- Little-endian bytes of FP32 codes. -/
def fpBytes (xs : List (BitVec 32)) : List Byte := xs.flatMap fun v => leBytes 4 v.toNat

/-- FP32 codes of a payload. -/
def fpCodes (n : Nat) (bs : List Byte) : List (BitVec 32) :=
  (List.range n).map fun i => BitVec.ofNat 32 (leNat ((bs.drop (4 * i)).take 4))

/-- A gathered value narrowed to BF16 (R336): exact, only a NaN changes. -/
def gatherCode (v : BitVec 32) : BitVec 16 :=
  if bits v 23 8 = 255 ∧ bits v 0 23 ≠ 0 then bfNan else BitVec.ofNat 16 (bits v 16 16)

/-! ### Gather receipts (R336) -/

/-- The fields of a version word in EVT_SHARD_VERSION, from bit `lo`. -/
def versionFields (v : BitVec 64) (lo : Nat) : List (Nat × Nat × Nat) :=
  [(lo, 28, bits v 16 28), (lo + 28, 16, bits v 0 16), (lo + 44, 1, bits v 63 1)]

/-- GMODE acts on the version word of rank `r` (R336). -/
def State.takeVersion (s : State) (c : Coll) (r : Nat) (v : BitVec 64) : State :=
  let a := c.vtable.toNat + 8 * r
  if c.gmode = 1 then s.wteWrite c.id c.paddock a (leBytes 8 v.toNat)
  else if c.gmode = 2 then
    let (s, old) := s.wteNat c.paddock a 8
    let s := if old.isNone then s.modColl c.id fun c => { c with fUe := true } else s
    if old = some v.toNat then s
    else
      let s := s.modPdk c.paddock fun x => { x with versionStale := true, cMismatch := satAdd x.cMismatch 1 }
      let s := (s.noteDevice (.wteStatus c.paddock) (maskOf 2 1)).modColl c.id fun c => { c with fMismatch := true }
      s.wteEvent c.id 0 evtShardVersion
        (versionFields v 0 ++ versionFields (BitVec.ofNat 64 (old.getD 0)) 48 ++ [(96, 12, r)])
  else s

/-- The lowest missing chunk of rank `r`, and what lies beyond it, once the chunks that follow it without a gap are counted. -/
def Coll.closeGap (c : Coll) (r : Nat) : Nat → Coll
  | 0 => c
  | k + 1 =>
    let low := Tbl.get 0 c.got r
    if c.beyond.contains (r, low) then
      { c with got := Tbl.put 0 c.got r (low + 1), beyond := c.beyond.filter fun x => decide (x ≠ (r, low)) }.closeGap r k
    else c

/-- A chunk of rank `r` noted as received. -/
def Coll.noteChunk (c : Coll) (r chunk : Nat) : Coll :=
  if chunk < Tbl.get 0 c.got r || c.beyond.contains (r, chunk) then c
  else { c with beyond := c.beyond ++ [(r, chunk)] }.closeGap r (c.beyond.length + 1)

/-- A gathered chunk of rank `r` written (R336): its BF16 values, and the version word with chunk 0.  When the lowest incomplete
chunk changes, a report is due on every tether (R324). -/
def State.takeGather (s : State) (c : Coll) (r chunk : Nat) (version : BitVec 64) (xs : List (BitVec 32)) : State :=
  let s := if chunk = 0 then s.takeVersion c r version else s
  let s := s.wteWrite c.id c.paddock (c.dst.toNat + 2 * (r * c.shard + chunkElems * chunk)) (xs.flatMap fun v => leBytes 2 (gatherCode v).toNat)
  let s := s.modColl c.id fun c => c.noteChunk r chunk
  match s.coll c.id with
  | some c' => if c'.gathered = c.gathered then s else s.dueReports c'
  | none => s

/-! ### Permutes (R338, R339) -/

/-- The source ranges of a permute not yet read for sending: the rest of the entry being sent and the entries after it. -/
def Coll.unread (c : Coll) : List (Nat × Nat) :=
  (c.perms.drop c.sendC).zipIdx.map fun e =>
    let skip := if e.2 = 0 then c.sendJ else 0
    (e.1.src.toNat + 8 * skip, 8 * (e.1.count - skip))

/-- A chunk written bit for bit; its sender's count of written chunks goes up, and a report is due on every tether (R324). -/
def State.writePermute (s : State) (c : Coll) (h : HeldChunk) : State :=
  let s := s.wteWrite c.id c.paddock h.dest.toNat h.bytes
  match h.tether with
  | none => s
  | some t =>
    (s.modTether t fun x => { x with
      permGot := Tbl.insert x.permGot c.tag.toNat ((Tbl.get (0, 0) x.permGot c.tag.toNat).1 + 1, c.reportW) }).dueReports c

/-- A permute chunk arrives: it is held while its destination overlaps source records not yet read (R339). -/
def State.takePermute (s : State) (c : Coll) (h : HeldChunk) : State :=
  let s := s.modColl c.id fun c => { c with received := c.received ++ [(h.dest.toNat, h.bytes.length)] }
  if rangesMeet [(h.dest.toNat, h.bytes.length)] c.unread then s.modColl c.id fun c => { c with held := c.held ++ [h] }
  else s.writePermute c h

/-- PERMUTE_HOLD_RELEASE (R339): the first held chunk whose destination is free is written. -/
def State.releaseHeld (s : State) (id : Nat) : State :=
  match s.coll id with
  | none => s
  | some c =>
    match c.held.findIdx? fun h => !rangesMeet [(h.dest.toNat, h.bytes.length)] c.unread with
    | none => s
    | some i =>
      match c.held[i]? with
      | none => s
      | some h => (s.modColl id fun c => { c with held := c.held.eraseIdx i }).writePermute c h

/-- PERMUTE_HOLD_RELEASE. -/
def execPermuteHoldRelease (id : Nat) (s : State) : Host.Outcome State Fault Refusal :=
  .next (s.whenRunning fun s => s.releaseHeld id)

/-! ### Sending (R322 to R325, R336, R338) -/

/-- A chunk handed to a tether of the collective. -/
def State.stageChunk (s : State) (t : Nat) (f : Frame) : State := s.modTether t fun x => { x with staged := x.staged ++ [f] }

/-- The member of rank `r` may be sent chunk `k` (R323, R324): it has reported, and the chunk lies in its window. -/
def Coll.mayGet (c : Coll) (r k : Nat) : Bool :=
  c.peers.any fun m => decide (m.1 = r) && decide (k < m.2.1 + m.2.2)

/-- The tether to rank `r`. -/
def Coll.tetherTo (c : Coll) (r : Nat) : Nat := (c.members.getD r (0, 0)).1

/-- The next destination, or the next chunk (R322): destinations RANK + j in rising j, for each chunk in turn; `first` is the first
j of a chunk. -/
def Coll.advance (c : Coll) (first : Nat) : Coll :=
  if c.sendJ + 1 < c.count then { c with sendJ := c.sendJ + 1 } else { c with sendC := c.sendC + 1, sendJ := first }

/-- The next chunk of an RS_UPDATE (R325). With P = 1 nothing is sent. -/
def State.sendReduce (s : State) (c : Coll) : State :=
  let r := (c.rank + c.sendJ) % c.count
  if c.count ≤ 1 then s.modColl c.id fun c => { c with sendC := c.chunks }
  else if !c.mayGet r c.sendC then s
  else
    let (s, xs) := s.gradientWire c (r * c.shard + chunkElems * c.sendC)
    let s := s.stageChunk (c.tetherTo r) { collTag := c.tag, chunk := c.sendC, payload := fpBytes xs }
    s.modColl c.id fun c => c.advance 1

/-- The next chunk of an ALL_GATHER (R336): the owner's own copy first, then the other members in rank order. -/
def State.sendGather (s : State) (c : Coll) : State :=
  let r := (c.rank + c.sendJ) % c.count
  if decide (c.sendJ ≠ 0) && !c.mayGet r c.sendC then s
  else
    let (s, xs) := s.gatherCodes c c.sendC
    let (s, v) := if c.sendC = 0 then s.readVersion c else (s, 0)
    let s :=
      if c.sendJ = 0 then s.takeGather c c.rank c.sendC v (xs.map bfToFp)
      else s.stageChunk (c.tetherTo r) { collTag := c.tag, chunk := c.sendC, version := v, payload := fpBytes (xs.map bfToFp) }
    s.modColl c.id fun c => c.advance 0

/-- The bytes of records; the spec states no bytes for what cannot be read, which is free, and UE is noted (R512,
notes/assumptions/50). -/
def State.permuteBytes (s : State) (c : Coll) (a n : Nat) : State × List Byte :=
  let (s, bs) := s.wteBytes c.paddock a n
  let s := if bs.any Option.isNone then s.wteUe c.id a else s
  bs.foldl (fun x b => match b with
    | some v => (x.1, x.2 ++ [v])
    | none =>
      let (v, s) := x.1.draw
      (s, x.2 ++ [BitVec.ofNat 8 v.toNat])) (s, [])

/-- The next chunk of a PERMUTE (R338): up to 1,024 records of the entry being sent, to its rank, or within the part. -/
def State.sendPermute (s : State) (c : Coll) : State :=
  match c.perms[c.sendC]? with
  | none => s
  | some e =>
    let k := min chunkRecords (e.count - c.sendJ)
    let away := decide (e.destRank ≠ c.rank)
    let sentTo := Tbl.get 0 c.got e.destRank
    if k = 0 then s.modColl c.id fun c => { c with sendC := c.sendC + 1, sendJ := 0 }
    else if away && !c.mayGet e.destRank sentTo then s
    else
      let dest := e.dst + BitVec.ofNat 48 (8 * c.sendJ)
      let (s, bs) := s.permuteBytes c (e.src.toNat + 8 * c.sendJ) (8 * k)
      let c' : Coll := if c.sendJ + k < e.count then { c with sendJ := c.sendJ + k } else { c with sendC := c.sendC + 1, sendJ := 0 }
      let running := c.low
      let s := s.modColl c.id fun x => { x with
        sendC := c'.sendC, sendJ := c'.sendJ, low := running + 1, got := if away then Tbl.put 0 x.got e.destRank (sentTo + 1) else x.got }
      if away then
        s.stageChunk (c.tetherTo e.destRank) { collTag := c.tag, chunk := running, records := k, dest := dest, payload := bs }
      else s.takePermute { c with sendC := c'.sendC, sendJ := c'.sendJ } { tether := none, dest := dest, bytes := bs }

/-- CHUNK_SEND (R322 to R325, R336, R338); a permute that is complete ends here (notes/assumptions/49). -/
def State.sendChunk (s : State) (id : Nat) : State :=
  match s.coll id with
  | none => s
  | some c =>
    if !c.started then s
    else
      let s :=
        if c.kind = kindReduce then if c.sendC < c.chunks then s.sendReduce c else s
        else if c.kind = kindGather then if c.sendC < c.chunks then s.sendGather c else s
        else if c.isComplete then s.endColl id false else s.sendPermute c
      s.settleColl id

/-- CHUNK_SEND. -/
def execChunkSend (id : Nat) (env : Env) (s : State) : Host.Outcome State Fault Refusal :=
  .next (s.whenRunning fun s => (s.takeEnv env).sendChunk id)

/-! ### Arrival (R326) -/

/-- A contribution added to a chunk: the first one is written, later ones are added with one rounding each (R326). -/
def ChunkSlot.addWire (x : ChunkSlot) (xs : List (BitVec 32)) : ChunkSlot :=
  { x with
    arrived := x.arrived + 1,
    sums := if x.arrived = 0 then Tbl.ofList 0 0 xs
            else Tbl.ofList 0 0 (xs.zipIdx.map fun v => fpAdd (Tbl.get 0 x.sums v.2) v.1) }

/-- The contributions of the aclk before are added, in ascending rank (R326). -/
def ChunkSlot.settle (x : ChunkSlot) : ChunkSlot :=
  x.waiting.foldl (fun y c => y.addWire c.2) { x with arrived := x.arrived - x.waiting.length, waiting := [] }

/-- A contribution put among those of its aclk, by rank. -/
def insertRank (c : Nat × List (BitVec 32)) : List (Nat × List (BitVec 32)) → List (Nat × List (BitVec 32))
  | [] => [c]
  | x :: rest => if c.1 < x.1 then c :: x :: rest else x :: insertRank c rest

/-- A contribution of rank `r` arrives at `now`: those of one aclk are added in ascending rank (R326). -/
def ChunkSlot.arrive (x : ChunkSlot) (now r : Nat) (xs : List (BitVec 32)) : ChunkSlot :=
  let x := if x.at_ = now then x else { x.settle with at_ := now }
  { x with arrived := x.arrived + 1, waiting := insertRank (r, xs) x.waiting }

/-- A data chunk of a collective arrives on tether `t` (R324, R326, R336, R338).  One of no collective that runs here is dropped:
its sender had no report of it, or the collective has been aborted (R324, R342). -/
def State.takeChunk (s : State) (t : Nat) (f : Frame) : State :=
  let p := (s.tether t).paddock
  match s.colls.find? fun c => decide (c.paddock = p) && decide (c.tag = f.collTag) && c.started with
  | some c =>
    (match c.peersOf.find? fun m => decide (m.2 = t) with
     | none => s
     | some m =>
       if c.kind = kindReduce then
         if f.chunk < c.low ∨ c.low + c.slots ≤ f.chunk then s
         else s.modColl c.id fun c => { c with
           chunkSlots := Tbl.modify {} c.chunkSlots f.chunk fun x => x.arrive s.now m.1 (fpCodes chunkElems f.payload) }
       else if c.kind = kindGather then
         (s.takeGather c m.1 f.chunk f.version (fpCodes chunkElems f.payload)).settleColl c.id
       else s.takePermute c { tether := some t, dest := f.dest, bytes := f.payload.take (8 * f.records) })
  | none => s

/-! ### The owner update (R327 to R333) -/

/-- Fields of a latched group entry (R329), packed as word 1 above word 0. -/
def gEta (g : BitVec 128) : BitVec 16 := BitVec.ofNat 16 (bits g 0 16)
/-- C1. -/
def gC1 (g : BitVec 128) : BitVec 16 := BitVec.ofNat 16 (bits g 16 16)
/-- C2. -/
def gC2 (g : BitVec 128) : BitVec 16 := BitVec.ofNat 16 (bits g 32 16)
/-- EPS. -/
def gEps (g : BitVec 128) : BitVec 16 := BitVec.ofNat 16 (bits g 48 16)
/-- DECAY. -/
def gDecay (g : BitVec 128) : BitVec 16 := BitVec.ofNat 16 (bits g 64 16)
/-- FROZEN. -/
def gFrozen (g : BitVec 128) : Bool := bit g 80

/-- A coefficient outside 0 to 1. -/
def outsideUnit (c : BitVec 16) : Bool :=
  !(bf c).isFinite || Num.lt (bf c) (.zero false) || Num.lt (.fin false 1 0) (bf c)

/-- A value that is negative or not finite. -/
def negativeOrNot (c : BitVec 16) : Bool := !(bf c).isFinite || Num.lt (bf c) (.zero false)

/-- An invalid entry (R329). -/
def groupInvalid (g : BitVec 128) : Bool :=
  outsideUnit (gC1 g) || outsideUnit (gC2 g) || negativeOrNot (gEta g) || negativeOrNot (gEps g) || negativeOrNot (gDecay g)

/-- The group table latched for a step (R330). -/
def State.latchGroups (s : State) (p : Nat) (step : BitVec 28) : State :=
  let x := s.pdk p
  if x.latchValid && decide (x.latchedStep = step) then s
  else
    let table := (List.range 256).map fun g => (s.reg (.group1 p g) ++ s.reg (.group0 p g) : BitVec 128)
    s.modPdk p fun x => { x with latchValid := true, latchedStep := step, latched := Tbl.ofList 0 0 table }

/-- The record of R327. -/
def rParam (r : BitVec 64) : BitVec 16 := BitVec.ofNat 16 (bits r 0 16)
/-- M. -/
def rM (r : BitVec 64) : BitVec 16 := BitVec.ofNat 16 (bits r 16 16)
/-- V. -/
def rV (r : BitVec 64) : BitVec 16 := BitVec.ofNat 16 (bits r 32 16)
/-- GROUP. -/
def rGroup (r : BitVec 64) : Nat := bits r 48 8
/-- NODECAY. -/
def rNoDecay (r : BitVec 64) : Bool := bit r 56
/-- HOLD. -/
def rHold (r : BitVec 64) : Bool := bit r 57

/-- A BF16 input of the update, widened exactly, subnormals flushed (R90, R331). -/
def wteIn (c : BitVec 16) : BitVec 32 := bfToFp (bfFlush c)

/-- The FP32 results p1, m1 and v1 of R331. -/
structure Updated where
  p1 : BitVec 32
  m1 : BitVec 32
  v1 : BitVec 32
  deriving DecidableEq, Repr

/-- The arithmetic of R331. -/
def updateOf (gscale : BitVec 16) (g : BitVec 128) (r : BitVec 64) (sum : BitVec 32) : Updated :=
  let p := wteIn (rParam r)
  let m := wteIn (rM r)
  let v := wteIn (rV r)
  let x := fpMul sum (wteIn gscale)
  let m1 := fpAdd m (fpMul (wteIn (gC1 g)) (fpSub x m))
  let v1 := fpAdd v (fpMul (wteIn (gC2 g)) (fpSub (fpMul x x) v))
  let den := fpAdd (fpFlush (fpSqrt v1)) (wteIn (gEps g))
  let w := fpDiv m1 den
  let w := if rNoDecay r then w else fpAdd w (fpMul (wteIn (gDecay g)) p)
  { p1 := fpSub p (fpMul (wteIn (gEta g)) w), m1 := m1, v1 := v1 }

/-- Every result is finite. -/
def Updated.isFinite (u : Updated) : Bool := (fp u.p1).isFinite && (fp u.m1).isFinite && (fp u.v1).isFinite

/-- Streams of the SR draws (R213). -/
def streamParam : BitVec 32 := 0x80000000

/-- The new record: PARAM, M and V rounded stochastically, GROUP and FLAGS unchanged (R80, R213, R327, R328). -/
def newRecord (key : BitVec 128) (step : BitVec 28) (index : Nat) (r : BitVec 64) (u : Updated) : BitVec 64 :=
  let draw (k : Nat) := sowerElement key classSr step (streamParam + BitVec.ofNat 32 k) index
  setBits (setBits (setBits r 0 16 (stochasticRound u.p1 (draw 0)).toNat) 16 16 (stochasticRound u.m1 (draw 1)).toNat) 32 16
    (stochasticRound u.v1 (draw 2)).toNat

/-- The outcome of an element under R332: the row that decides, and the new record if it is written. -/
structure ElementResult where
  /-- rows 1 to 6, or 7 for a plain update -/
  row : Nat
  /-- the element also failed row 6 after row 5 -/
  unwritten : Bool
  record : BitVec 64
  deriving DecidableEq, Repr

/-- What the elements of a chunk see. -/
structure UpdateEnv where
  stale : Bool
  history : Bool
  amax : BitVec 16
  gscale : BitVec 16
  key : BitVec 128
  step : BitVec 28
  latched : Tbl (BitVec 128)

/-- One element (R332). -/
def UpdateEnv.element (e : UpdateEnv) (index : Nat) (r : BitVec 64) (sum : BitVec 32) : ElementResult :=
  let g := Tbl.get 0 e.latched (rGroup r)
  let nan := decide (bits sum 23 8 = 255 ∧ bits sum 0 23 ≠ 0)
  let infinite := decide (bits sum 23 8 = 255 ∧ bits sum 0 23 = 0)
  if e.stale then ⟨1, true, r⟩
  else if rHold r then ⟨2, true, r⟩
  else if gFrozen g || groupInvalid g then ⟨3, true, r⟩
  else if nan || (infinite && !e.history) then ⟨4, true, r⟩
  else
    let sum := if infinite then setBits (bfToFp (bfFlush e.amax)) 31 1 (bits sum 31 1) else sum
    let u := updateOf e.gscale g r sum
    if u.isFinite then ⟨if infinite then 5 else 7, false, newRecord e.key e.step index r u⟩
    else ⟨if infinite then 5 else 6, true, r⟩

/-- The counters and hits of an element (R332). -/
def Paddock.countElement (x : Paddock) (invalid : Bool) (row : Nat) : Paddock :=
  match row with
  | 1 => { x with cStale := satAdd x.cStale 1 }
  | 2 => { x with cHeld := satAdd x.cHeld 1 }
  | 3 => { x with cFrozen := satAdd x.cFrozen 1, cInvalid := if invalid then satAdd x.cInvalid 1 else x.cInvalid, frozenHit := true }
  | 4 => { x with cNonfinGrad := satAdd x.cNonfinGrad 1, nonfinHit := true }
  | 5 => { x with cNonfinGrad := satAdd x.cNonfinGrad 1, nonfinHit := true }
  | 6 => { x with cNonfinUpd := satAdd x.cNonfinUpd 1, nonfinHit := true }
  | _ => x

/-- The flags and events of an element (R332, R343). -/
def State.noteElement (s : State) (id p index group row : Nat) : State :=
  if row = 1 then s.modColl id fun c => { c with fStale := true }
  else if row = 3 then
    let s := (s.noteDevice (.wteStatus p) (maskOf 0 1)).modColl id fun c => { c with fFrozen := true }
    s.wteEvent id 4 evtWteFrozen [(0, 40, index), (40, 8, group)]
  else if row = 4 ∨ row = 5 ∨ row = 6 then
    let s := (s.noteDevice (.wteStatus p) (maskOf 1 1)).modColl id fun c => { c with fNonfin := true }
    s.wteEvent id 3 evtWteNonfinite [(0, 40, index), (40, 3, row)]
  else s

/-- One element counted and noted. -/
def State.settleElement (s : State) (c : Coll) (index : Nat) (r : BitVec 64) (res : ElementResult) : State :=
  let invalid := groupInvalid (Tbl.get 0 (s.pdk c.paddock).latched (rGroup r))
  let s := s.modPdk c.paddock fun x => x.countElement invalid res.row
  let s := s.noteElement c.id c.paddock index (rGroup r) res.row
  if res.row = 5 then s.modEntry c.gsheaf c.gentry fun e => { e with lowerT := true } else s

/-- Eight records of a unit updated: the elements from index `e0` of the shard (R331 to R333). -/
def State.updateUnit (s : State) (c : Coll) (env : UpdateEnv) (e0 : Nat) (sums : List (BitVec 32)) : State :=
  let a := c.dst.toNat + 8 * e0
  match s.wtePieces c.paddock [(a, 64)] with
  | (s, [some bs]) =>
    let x0 := c.first.toNat + c.rank * c.shard + e0
    let out := (List.range 8).map fun i => (x0 + i, recordWord bs i, env.element (x0 + i) (recordWord bs i) (sums.getD i 0))
    let s := out.foldl (fun s o => s.settleElement c o.1 o.2.1 o.2.2) s
    if out.any fun o => !o.2.2.unwritten then s.wteWrite c.id c.paddock a (out.flatMap fun o => leBytes 8 o.2.2.record.toNat)
    else s
  | (s, _) => s.wteUe c.id a

/-- The lowest incomplete chunk after some are updated. -/
def Coll.lowest (c : Coll) : Nat → Nat → Nat
  | 0, l => l
  | k + 1, l => if (Tbl.get {} c.chunkSlots l).updated then c.lowest k (l + 1) else l

/-- A chunk of an RS_UPDATE is complete and updated: L moves on and is reported (R323, R324).  Once every chunk of the shard has been
written, so is the version word (R335). -/
def State.closeChunk (s : State) (id chunk : Nat) : State :=
  let s := s.modColl id fun c =>
    let c := { c with updatedAny := true, chunkSlots := Tbl.insert c.chunkSlots chunk { updated := true } }
    let low := c.lowest (c.chunkSlots.length) c.low
    { c with low := low, chunkSlots := c.chunkSlots.filter fun x => decide (low ≤ x.1) }
  match s.coll id with
  | some c => ((if c.low = c.chunks then s.writeVersion c false else s).dueReports c).settleColl id
  | none => s

/-- OWNER_UPDATE (R326, R330 to R333): when P − 1 contributions have been added, the owner's own gradient is added last and the
elements pass through the update. -/
def State.ownerUpdate (s : State) (id chunk : Nat) : State :=
  match s.coll id with
  | none => s
  | some c =>
    let x := Tbl.get {} c.chunkSlots chunk
    if !c.started || decide (c.kind ≠ kindReduce) || decide (c.chunks ≤ chunk) || decide (chunk < c.low) ||
        decide (c.low + c.slots ≤ chunk) || x.updated || decide (x.arrived ≠ c.pM1) then s
    else
      let (s, own) := s.gradientWire c (c.rank * c.shard + chunkElems * chunk)
      let sums := (x.settle.addWire own).sums
      let s := s.latchGroups c.paddock c.step
      let env : UpdateEnv :=
        { stale := (s.pdk c.paddock).versionStale, history := decide (s.field (.mtgPolicy c.paddock) 24 1 = 1),
          amax := (s.entry c.gsheaf c.gentry).histMax, gscale := c.gscale, key := c.key, step := c.step, latched := (s.pdk c.paddock).latched }
      let s := (List.range (chunkElems / 8)).foldl (fun s u =>
        s.updateUnit c env (chunkElems * chunk + 8 * u) ((List.range 8).map fun i => Tbl.get 0 sums (8 * u + i))) s
      s.closeChunk id chunk

/-- OWNER_UPDATE. -/
def execOwnerUpdate (id chunk : Nat) (env : Env) (s : State) : Host.Outcome State Fault Refusal :=
  .next (s.whenRunning fun s => (s.takeEnv env).ownerUpdate id chunk)

/-! ### Deadline and abort (R341, R342) -/

/-- COLLECTIVE_DEADLINE (R341). -/
def State.passDeadline (s : State) (id : Nat) : State :=
  match s.coll id with
  | none => s
  | some c =>
    if c.deadline = 0 ∨ c.fLate = true ∨ s.stride < c.admitted + c.deadline then s
    else (s.modColl id fun c => { c with fLate := true }).wteEvent id 2 evtWteLate [(0, 16, c.deadline)]

/-- COLLECTIVE_DEADLINE. -/
def execCollectiveDeadline (id : Nat) (s : State) : Host.Outcome State Fault Refusal :=
  .next (s.whenRunning fun s => s.passDeadline id)

/-- An abort takes effect (R342): what is staged and not accepted is not sent, held and incomplete chunks are discarded, and the
collective ends. -/
def State.abortColl (s : State) (id : Nat) : State :=
  match s.coll id with
  | none => s
  | some c =>
    let s := c.peersOf.foldl (fun s m => s.modTether m.2 fun x => { x with
      staged := x.staged.filter (fun f => decide (f.collTag ≠ c.tag)), tagsDue := Tbl.drop x.tagsDue c.tag.toNat }) s
    (s.modColl id fun c => { c with chunkSlots := [], held := [] }).endColl id true

end Sys2Proof.Machine
end

