-- ==== Sys2Proof/Machine/Act.lean ====
section
/-!
DEFINITION. Machine/Act.lean: position 200 of a stride (R45, R52): the committed configuration comes into force, releases are
carried out (R413), tiles of loads and restarts stop (R242), and the holds are decided (R448).
-/

namespace Sys2Proof.Machine

/-! ### Values in force and what they bring about -/

/-- The physical range of a sheaf's Silage region for some banks (R176, R177): cleared when BANKS or MODE changes. -/
def State.clearSilage (s : State) (m old new : Nat) : State := s.clearBanks m ((16 - max old new) * 0x20000) (16 * 0x20000)

/-- The ENABLE bit of a port has changed: the port trains when it may, or it goes down and its site's life record is to be
written back (R372, R375, R376, R498). -/
def State.enablePort (s : State) (n : Nat) (on : Bool) : State :=
  if on then
    s.modPort n fun p => if p.ended then p else { p with state := if s.mayTrain n then portTraining else portDown }
  else (s.modPort n (Port.off portDown)).portWentOff n

/-- The ENABLE bit of a queue has become 1 (R384). -/
def State.queueEnabled (s : State) (q : Nat) : State :=
  let s := s.modQueue q fun x => { x with head := 0, phase := true }
  { s with host := { s.host with slotsRead := Tbl.drop s.host.slotsRead q } }

/-- The event ring has been enabled (R484); a READ written in this aclk stays (R9). -/
def State.ringStarted (s : State) : State :=
  let written := decide (bits (s.hostBits .ringIdx) 32 32 ≠ 0)
  { s with gleaner := { s.gleaner with read := if written then s.gleaner.read else 0, write := 0 } }

/-- What the new value of a register brings about, `old` being the state before (R37, R177, R208, R350, R384, R484). -/
def State.valueActs (s : State) (old : State) (r : Reg) : State :=
  let v := s.reg r
  let w := old.reg r
  match r with
  | .silageCtl m => if bits v 0 5 = bits w 0 5 then s else s.clearSilage m (bits w 0 4) (bits v 0 4)
  | .timeCtl => s.sourceChanged (bits w 0 2)
  | .qCtl q => if bit v 0 && !bit w 0 then s.queueEnabled q else s
  | .ringCtl => if bit v 63 && !bit w 63 then s.ringStarted else s
  | .cfgEpoch => if bits v 0 32 ≠ 0 then s.setReg .cfgEpoch (v &&& ~~~maskOf 32 1) else s
  | .portCtl n => if bit v 0 = bit w 0 then s else s.enablePort n (bit v 0)
  | .sowerSeed p => s.modPdk p fun x => { x with sowerKey := sowerKeyOf v }
  | _ => s

/-- The committed values come into force, and what they bring about follows (R51, R52). -/
def State.installValues (s : State) (vs : Tbl (BitVec 64)) : State :=
  let rs := vs.filterMap fun v => (Reg.ofOffset v.1).map fun r => (r, v.2)
  let t := rs.foldl (fun t v => t.bringIntoForce v.1 v.2) s
  rs.foldl (fun t v => t.valueActs s v.1) t

/-! ### Epochs (R420 to R423) -/

/-- MEM_EPOCH advances (R420). -/
def State.advanceMemEpoch (s : State) (p : Nat) : State :=
  let old := (s.pdk p).memEpoch
  let s := s.modPdk p fun x => { x with memEpoch := x.memEpoch + 1 }
  if old = 15 then s.raise srcFarrier evtKeyWrap (pack 128 [(0, 4, p)]) else s

/-- The rotations admitted come into force (R421 to R423): each of the link rotations advances LINK_EPOCH by one. -/
def State.rotateKeys (s : State) (p : Nat) : State :=
  let s : State := if (s.pdk p).rotateMem then (s.advanceMemEpoch p).modPdk p fun x => { x with rotateMem := false, sweep := true } else s
  s.modPdk p fun x => { x with rotateLink := 0, linkEpoch := x.linkEpoch + BitVec.ofNat 4 x.rotateLink }

/-! ### Tiles -/

/-- A tile with its sequencer IDLE and every array of R301 that it holds cleared, but for the store and the ranges: counters and the
fault record stay. -/
def Tile.blank (t : Tile) : Tile :=
  { ({} : Tile) with
    store := t.store, ranges := t.ranges, fault := t.fault, budgetMax := t.budgetMax, fresh := t.fresh,
    fwaBusy := t.fwaBusy, fwaProducts := t.fwaProducts, fwaOutliers := t.fwaOutliers,
    bwaBusy := t.bwaBusy, bwaProducts := t.bwaProducts, bwaRepeats := t.bwaRepeats,
    chaffIssues := t.chaffIssues, chaffTerminated := t.chaffTerminated, chaffInvalid := t.chaffInvalid, chaffClipped := t.chaffClipped,
    tsCe := t.tsCe, tsUe := t.tsUe, tsLastUe := t.tsLastUe }

/-- A program range's instructions cleared. -/
def Tile.clearRange (t : Tile) (r : ProgRange) : Tile :=
  { t with store := t.store.filter fun w => !(decide (r.origin.toNat ≤ w.1) && decide (w.1 < r.origin.toNat + r.length.toNat)) }

/-- The ranges of paddock `p` cleared, and what a load or restart of it left (R241). -/
def Tile.dropPaddock (t : Tile) (p : Nat) : Tile :=
  let t := (t.ranges.filter fun r => decide (r.paddock = p)).foldl Tile.clearRange t
  { t with ranges := t.ranges.filter (fun r => decide (r.paddock ≠ p)), fresh := t.fresh.filter fun f => decide (f.1 ≠ p) }

/-- The instruction store cleared outside the ranges that remain (R413 step 4). -/
def Tile.keepRanges (t : Tile) : Tile :=
  { t with store := t.store.filter fun w => t.ranges.any fun r =>
      decide (r.origin.toNat ≤ w.1) && decide (w.1 < r.origin.toNat + r.length.toNat) }

/-- What R242 empties at a stop: banks, slots, tables, the top-k list, and the non-finite state. -/
def Tile.emptied (t : Tile) : Tile :=
  { t with
    fwaBanks := [], bwaBanks := [], chaffBanks := [], chaffNext := [], hand := 0, tables := [], topk := [], topkK := 1,
    nfFlag := false, nfPos := 0, nfStride := none, nfAt := none }

/-- The DPAs of a sheaf's tile stores and banks cleared (R303). -/
def State.clearSheafMemory (s : State) (m : Nat) : State :=
  (tilesOfSheaf m).foldl State.clearStore (s.clearBanks m 0 0x200000)

/-! ### Releases (R413) -/

/-- A released sheaf is cleared when it holds the contents of paddock `p`, or lies in no mask any more; otherwise only what it keeps
for `p` is removed (R413 steps 2 and 4). -/
def State.scrubSheaf (s : State) (p m : Nat) : State :=
  let x := s.sheaf m
  let left := s.holders m
  let s := (tilesOfSheaf m).foldl (fun s n => s.modTile n fun t => t.dropPaddock p) s
  let s := s.modSheaf m fun x => { x with
    savedParts := x.savedParts.filter (fun c => decide (c.1 ≠ p)), savedWindows := x.savedWindows.filter fun c => decide (c.1 ≠ p) }
  if x.ran = some p ∨ left = [] then
    let s := (tilesOfSheaf m).foldl (fun s n => s.modTile n fun t => t.blank.keepRanges) s
    let s := (s.clearSheafMemory m).modSheaf m fun x => { x with entries := [], arrivals := [] }
    if left = [] then s.modSheaf m fun x => { x with ran := none, entriesLoaded := 0 } else s
  else s

/-- The entries of a tether of a released paddock are held back, and the tether is CLOSED (R378, R413). -/
def State.scrubTether (s : State) (p t : Nat) : State :=
  let s := portNumbers.foldl (fun s n =>
    let es := s.entriesOn n t
    if es.isEmpty then s else s.modPort n fun x => { x with scrubHeld := x.scrubHeld ++ es.map fun i => (i, p) }) s
  s.closeTether t

/-- Registers of paddock `p` outside the GLOBAL commit group that are stored by offset. -/
def paddockRegs (p : Nat) : List Reg :=
  [.pdkCtl p, .pdkCtx p, .sowerSeed p, .sowerStep p, .mtgPolicy p, .mtgUcode p, .mtgThresh p, .mtgWatch p] ++
    (List.range 256).flatMap fun g => [.group0 p g, .group1 p g]

/-- A register reset by the device: fields outside RWS that the host has written in this aclk stay (R9). -/
def State.resetFields (s : State) (r : Reg) : State :=
  let keep := s.hostBits r &&& ~~~r.rws
  let s' := s.resetReg r
  if keep = 0 then s' else s'.setReg r (merge64 (s'.reg r) keep (s.reg r))

/-- The registers and state of a released paddock return to their reset values, but for STATE and the epochs, and for what the
host has written in this aclk (R9, R413 step 3). -/
def State.resetPaddock (s : State) (p : Nat) : State :=
  let s := (paddockRegs p).foldl State.resetFields s
  let counted := decide (bits (s.hostBits (.mtgStatus p)) 32 16 ≠ 0)
  s.modPdk p fun x => { paddockReset p with
    state := x.state, memEpoch := x.memEpoch, linkEpoch := x.linkEpoch,
    replayCount := if counted then x.replayCount else (paddockReset p).replayCount }

/-- A whole release ends (R378, R415): `p` is FREE, its former link entries may be assigned again, and the event tells how many
regions were cleared. -/
def State.finishRelease (s : State) (p cleared : Nat) : State :=
  let s := s.modPdk p fun x => { x with state := .free, clearing := 0, releasedRegions := 0 }
  let ports := s.ports.map fun (x : Nat × Port) => (x.1, { x.2 with scrubHeld := x.2.scrubHeld.filter fun e => decide (e.2 ≠ p) })
  { s with ports := ports }.raise srcFarrier evtPdkReleased (pack 128 [(0, 4, p), (4, 10, cleared)])

/-- The whole release of paddock `p` with some regions to clear (R413 step 3, R415). -/
def State.releaseWhole (s : State) (p : Nat) (regions : List Nat) : State :=
  let ts := (s.tethers.filter fun t => decide (t.2.paddock = p) && decide (t.2.state ≠ .closed)).map Prod.fst
  let s := ts.foldl (fun s t => s.scrubTether p t) s
  let cs := (s.colls.filter fun c => decide (c.paddock = p)).map Coll.id
  let s := cs.foldl State.abortColl s
  let s := (s.endSeals p).resetPaddock p
  if regions.isEmpty then s.finishRelease p 0
  else s.modPdk p fun x => { x with clearing := regions.foldl (fun v r => withBit v r true) 0, releasedRegions := regions.length }

/-- A composition change in force, with what it brings about: `old` is the state before any change (R411, R413, R420). -/
def State.actChange (s : State) (c : PdkChange) : State :=
  let p := c.paddock
  let before := s.mask p
  let regions := s.regionsOf p
  let s := s.withChange c
  if c.release then
    let gone := sheavesOf (before &&& ~~~s.mask p)
    let s := gone.foldl (fun s m => s.scrubSheaf p m) s
    if c.whole then s.releaseWhole p regions else s
  else if c.isNew then s.advanceMemEpoch p else s

/-- A sheaf that one paddock holds, and that holds nothing yet, holds that paddock's contents from now on; a list of the sheaves of
some masks. -/
def State.settleResidents (s : State) (ms : List Nat) : State :=
  ms.foldl (fun s m => match s.holders m with
    | [p] => if (s.sheaf m).ran = none then s.modSheaf m fun x => { x with ran := some p } else s
    | _ => s) s

/-! ### Phases (R121, R170, R204) -/

/-- The BWA banks of a sheaf's tiles that are ACTIVE. -/
def State.activeBwaBanks (s : State) (m : Nat) : Nat :=
  (tilesOfSheaf m).foldl (fun n t => n + ((s.tile t).bwaBanks.filter fun b => decide (tagState b.2.tag = 1)).length) 0

/-- A sheaf holding the contents of paddock `p` when the phase of `p` has changed: open windows close under the old phase, the BWA
banks become EMPTY, and on entry to BWD the Chaff banks and lists (R121, R170, R204).  EVT_BWA_DISCARD counts the discarded
ACTIVE banks modulo 256: a sheaf can discard 256, one more than its field holds (DESIGN CHOICE, notes/assumptions/79). -/
def State.changeSheafPhase (s : State) (p : Nat) (old : Phase) (m : Nat) : State :=
  let open_ := (s.sheaf m).entries.filter fun e => e.2.isOpen
  let s := open_.foldl (fun s e => s.closeEntry m e.1 old) s
  let active := s.activeBwaBanks m
  let bwd := decide (s.phase p = .bwd)
  let s := (tilesOfSheaf m).foldl (fun s n => s.modTile n fun t =>
    let t := { t with bwaBanks := [] }
    if bwd then { t with chaffBanks := [], chaffNext := [], topk := [], topkK := 1 } else t) s
  if old = .bwd ∧ active ≠ 0 then s.raise (srcSheaf m) evtBwaDiscard (pack 128 [(0, 8, active), (8, 4, p)]) else s

/-- The effects of a change of phase of paddock `p`, on the sheaves that hold its contents and, in the entries saved at a switch, on
the others (R121). -/
def State.changePhase (s : State) (old : State) (p : Nat) : State :=
  if s.phase p = old.phase p ∨ (s.pdk p).state ≠ .active then s
  else
    (sheavesOf (s.mask p)).foldl (fun s m =>
      if (s.sheaf m).ran = some p then s.changeSheafPhase p (old.phase p) m
      else if s.sharedSheaf m || (s.sheaf m).ran.isSome then
        (List.range 256).foldl (fun s e => s.closeSaved p m (old.phase p) e) s
      else s) s

/-! ### Stops for loads, restarts and debug (R242, R487) -/

/-- The tile's context in place is that of paddock `p`. -/
def State.resident (s : State) (p n : Nat) : Bool := decide ((s.sheaf (n / 64)).ran = some p)

/-- A tile that a load or restart of paddock `p` names stops: HALTED, emptied, and to start at `start` (R242). -/
def State.stopForStart (s : State) (p start n : Nat) : State :=
  let here := s.resident p n
  if !bit (s.mask p) (n / 64) then s
  else s.modTile n fun t =>
    let t := if here then { t.emptied with seqState := .halted, loops := [], landing := [] } else t
    { t with fresh := (t.fresh.filter fun f => decide (f.1 ≠ p)) ++ [(p, some start)] }

/-- A tile stopped by debug (R487): HALTED and emptied; one that is HALTED or IDLE stays as it is. -/
def State.stopForDebug (s : State) (n : Nat) : State :=
  s.modTile n fun t =>
    if t.seqState = .halted ∨ t.seqState = .idle then { t with fresh := t.fresh.map fun f => (f.1, none) }
    else { t.emptied with seqState := .halted, loops := [], landing := [] }

/-- The stops of a program command that was fetched before this stride. -/
def State.stopNamed (s : State) (c : ProgCmd) : State :=
  match c.kind with
  | .halt => c.images.foldl (fun s i => s.stopForDebug i.tile) s
  | _ => c.images.foldl (fun s i => s.stopForStart c.paddock (c.stride + 2) i.tile) s

/-- The program commands whose stops are due at this position 200. -/
def State.stopPrograms (s : State) : State :=
  let due (c : ProgCmd) : Bool := !c.stopped && decide (c.stride < s.stride)
  let t := (s.progs.filter due).foldl State.stopNamed s
  { t with progs := (s.progs.map fun c => if due c then { c with stopped := true } else c).filter fun c =>
      !c.stopped || decide (c.kind = .load) }

/-! ### Position 200 -/

/-- What the commit staged comes into force (R52). -/
def State.installStaged (s : State) : State :=
  match s.staged with
  | none => s
  | some st =>
    let old := s
    let t := { s with staged := none }.installValues st.values
    let t := st.ucodes.foldl (fun t u => t.modPdk u.1 fun x => { x with ucode := u.2 }) t
    let t := paddockNumbers.foldl (fun t p => t.changePhase old p) t
    let t := st.changes.foldl State.actChange t
    let ms := sheavesOf (st.changes.foldl (fun (v : BitVec 400) c => v ||| old.mask c.paddock ||| t.mask c.paddock) 0)
    t.settleResidents ms

/-- Collectives whose abort was accepted end now (R342). -/
def State.endAborted (s : State) : State :=
  ((s.colls.filter fun c => c.aborting).map Coll.id).foldl State.abortColl s

/-- What position 200 of the stride does, once (R45, R52): everything that its row names. -/
def State.actUnits (s : State) : State :=
  if !s.time.actDue then s
  else
    let s := paddockNumbers.foldl State.rotateKeys { s with time := { s.time with actDue := false } }
    ((s.installStaged.endAborted).stopPrograms).decideHolds

/-- Position 200 of the stride, once (R45, R52). -/
def State.unitsAct (s : State) : State := if !s.time.actDue then s else (s.advancePos 200).actUnits

/-- UNITS_ACT. -/
def execUnitsAct (s : State) : Host.Outcome State Fault Refusal := .next (s.whenRunning State.unitsAct)

end Sys2Proof.Machine
end

