-- ==== Sys2Proof/Machine/Manger.lean ====
section
/-!
DEFINITION. Machine/Manger.lean: the rings of the Manger queues (R383 to R386), replies (R393 to R398), and what every command row
shares: it performs the fetched command at the front, and answers it (R387 to R391, R403, R417).
-/

namespace Sys2Proof.Machine

/-! ### Reading and fetching (R384, R385) -/

/-- Bytes of a command record. -/
def slotBytes : Nat := 64

/-- A command record from its bytes (R387). -/
def CmdRec.ofBytes (bs : List Byte) : CmdRec :=
  { w0 := recordWord bs 0, w1 := recordWord bs 1, w2 := recordWord bs 2, w3 := recordWord bs 3, w4 := recordWord bs 4,
    w5 := recordWord bs 5, w6 := recordWord bs 6 }

/-- Slots of queue `q`. -/
def State.queueSize (s : State) (q : Nat) : Nat := 2 ^ s.field (.qCtl q) 8 4

/-- QUOTA slots from HEAD of queue `q`, as the host's memory holds them now. -/
def State.readSlots (s : State) (q : Nat) : List CmdRec :=
  let n := s.queueSize q
  (List.range (s.field (.qCtl q) 32 9)).map fun j =>
    CmdRec.ofBytes (s.readBytes (s.field (.qCtl q) 16 4)
      (s.field (.qBase q) 0 48 + slotBytes * (((s.queue q).head.toNat + j) % n)) slotBytes)

/-- MANGER_READ (R385): once a stride, at position 96,000, from every enabled queue, while the link is trained (R473). -/
def State.mangerRead (s : State) : State :=
  if !s.time.readDue || !s.host.up then s
  else
    let s := { s with time := { s.time with readDue := false } }.advancePos 96000
    let slots := (queueNumbers.filter fun q => decide (s.field (.qCtl q) 0 1 = 1)).map fun q => (q, s.readSlots q)
    { s with host := { s.host with slotsRead := slots } }

/-- MANGER_READ. -/
def execMangerRead (env : Env) (s : State) : Host.Outcome State Fault Refusal :=
  .next (s.whenRunning fun s => (s.takeEnv env).mangerRead)

/-- HEAD moves past a slot; PHASE inverts when it wraps (R384). -/
def QueueHead.next (x : QueueHead) (n : Nat) : QueueHead :=
  if x.head.toNat + 1 = n then { x with head := 0, phase := !x.phase } else { x with head := x.head + 1 }

/-- The slots of queue `q` taken in ring order, up to the first whose PHASE differs from the one expected. -/
def State.takeSlots (s : State) (q n : Nat) : List CmdRec → State
  | [] => s
  | c :: rest =>
    let x := s.queue q
    if bit c.w0 8 ≠ x.phase then s
    else
      let f : Fetched := { queue := q, slot := x.head.toNat, rbase := BitVec.ofNat 48 (s.field (.qRbase q) 0 48),
                           paddock := s.field (.qCtl q) 16 4, stride := s.stride, cmd := c }
      let s := s.modQueue q fun x => x.next n
      { s with host := { s.host with fetched := s.host.fetched ++ [f] } }.takeSlots q n rest

/-- A late read of queue `q` (R385). -/
def State.lateRead (s : State) (q : Nat) : State :=
  (s.modQueue q fun x => { x with lateReads := satAdd x.lateReads 1 }).raise srcHost evtMngReadLate
    (queuePayload q (s.queue q).head.toNat 0)

/-- The slots of queue `q` fetched at the tick. -/
def State.fetchQueue (s : State) (late : List Nat) (q : Nat) : State :=
  match s.host.slotsRead.find? fun x => decide (x.1 = q) with
  | none => s
  | some x =>
    if s.field (.qCtl q) 0 1 = 0 then s
    else if late.contains q then s.lateRead q
    else s.takeSlots q (s.queueSize q) (x.2.take (s.field (.qCtl q) 32 9))

/-- MANGER_FETCH (R385, R391): once a stride, after position 200; `late` lists the queues whose reads did not complete in time. -/
def State.mangerFetch (s : State) (late : List Nat) : State :=
  if !s.time.fetchDue then s
  else
    let s := s.unitsAct
    let s := { s with time := { s.time with fetchDue := false } }
    if !s.host.up then s
    else
      let s := queueNumbers.foldl (fun s q => s.fetchQueue late q) s
      { s with host := { s.host with slotsRead := [] } }

/-- MANGER_FETCH. -/
def execMangerFetch (late : List Nat) (s : State) : Host.Outcome State Fault Refusal :=
  .next (s.whenRunning fun s => s.mangerFetch late)

/-! ### Replies (R393 to R398) -/

/-- The 64 bytes of a reply written now. -/
def State.replyBytes (s : State) (r : Reply) : List Byte :=
  let tenant := decide (r.paddock ≠ 0)
  let w0 := pack 64 [(32, 32, bits r.w0 32 32), (24, 8, r.note.toNat), (16, 8, r.result.toNat), (8, 1, bits r.w0 8 1), (0, 8, bits r.w0 0 8)]
  let counts := if tenant then 0 else pack 64 [(32, 32, s.gleaner.written.toNat), (0, 32, s.gleaner.dropped.toNat)]
  leBytes 8 w0.toNat ++ leBytes 8 (bits (s.replyStatus tenant) 0 32) ++ leBytes 8 (r.actStride % 2 ^ 47) ++ leBytes 8 r.detail.toNat ++
    leBytes 8 counts.toNat ++ leBytes 8 s.now ++ leBytes 16 0

/-- A reply is written now: its command was fetched at an earlier tick, and its outcome is known. -/
def State.replyDue (s : State) (r : Reply) : Bool := r.settled && !r.dropped && decide (r.stride < s.stride)

/-- One reply written. -/
def State.putReply (s : State) (r : Reply) : State :=
  s.masterWrite srcHost r.paddock (r.rbase.toNat + slotBytes * r.slot) (s.replyBytes r)

/-- REPLY_WRITE (R395): the replies due are written in fetch order, if the link allows. -/
def State.writeReplies (s : State) (linkOk : Bool) : State :=
  if !linkOk || !s.host.up || !(s.host.replies.any s.replyDue) then s
  else
    let s := s.advancePos 1200
    let due := s.host.replies.filter s.replyDue
    let s := { s with host := { s.host with replies := s.host.replies.filter fun r => !s.replyDue r } }
    due.foldl State.putReply s

/-- REPLY_WRITE. -/
def execReplyWrite (linkOk : Bool) (s : State) : Host.Outcome State Fault Refusal :=
  .next (s.whenRunning fun s => s.writeReplies linkOk)

/-- A reply is past its bound, and was not reported yet (R56, R58). -/
def State.replyLate (s : State) (r : Reply) : Bool := !r.late && decide (r.stride + 2 ≤ s.stride)

/-- REPLY_BOUND_EXPIRY (R58, R395, R473): a reply dropped by a host reset is gone with its event. -/
def State.expireReplies (s : State) : State :=
  let gone := s.host.replies.filter s.replyLate
  let t := gone.foldl (fun t r => t.raise srcHost evtReplyLate (queuePayload r.queue r.slot (bits r.w0 32 32))) s
  { t with host := { t.host with replies := (t.host.replies.map fun r => if s.replyLate r then { r with late := true } else r).filter fun r =>
      !(r.dropped && r.late) } }

/-- REPLY_BOUND_EXPIRY. -/
def execReplyBoundExpiry (s : State) : Host.Outcome State Fault Refusal := .next (s.whenRunning State.expireReplies)

/-! ### Performing a command (R388 to R391) -/

/-- The answer to a command: RESULT, NOTE and DETAIL, whether its outcome is known, and whether its own rule has it acted on in the
stride after its fetch (R242, R342, R421). -/
structure Answer where
  result : Nat := 0
  note : Nat := 0
  detail : Nat := 0
  settled : Bool := true
  later : Bool := false
  deriving DecidableEq, Repr

/-- OK. -/
def Answer.ok : Answer := {}
/-- OK, acted on in the next stride. -/
def Answer.okLater : Answer := { later := true }
/-- REFUSED with a note. -/
def Answer.refused (note : Nat) (detail : Nat := 0) : Answer := { result := resRefused, note := note, detail := detail }
/-- FAILED with a note. -/
def Answer.failed (note : Nat) (detail : Nat := 0) : Answer := { result := resFailed, note := note, detail := detail }
/-- ILLEGAL: a reserved encoding (R7). -/
def Answer.illegal (detail : Nat := 0) : Answer := { result := resIllegal, note := noteReserved, detail := detail }
/-- OK with note ZERO_LENGTH (R390). -/
def Answer.zeroLength : Answer := { note := noteZeroLength }

/-- The reply to a command, queued; while the link is down it is dropped (R473). -/
def State.answer (s : State) (c : Fetched) (id : Nat) (a : Answer) : State :=
  let r : Reply :=
    { id := id, queue := c.queue, slot := c.slot, rbase := c.rbase, paddock := c.paddock, stride := c.stride, w0 := c.cmd.w0,
      result := BitVec.ofNat 8 a.result, note := BitVec.ofNat 8 a.note, detail := BitVec.ofNat 64 a.detail,
      actStride := if a.later then s.stride + 1 else s.stride, settled := a.settled, dropped := !s.host.up }
  { s with host := { s.host with replies := s.host.replies ++ [r] } }

/-- The fetched command at the front, when it has a given opcode, is admitted and acted on by `f`, which is told the reply's number. -/
def State.perform (s : State) (isOp : Nat → Bool) (f : State → Fetched → Nat → State × Answer) : State :=
  match s.host.fetched with
  | [] => s
  | c :: rest =>
    if !isOp c.cmd.opcode then s
    else
      let id := s.host.nextReply
      let s := ({ s with host := { s.host with fetched := rest, nextReply := id + 1 } }.unitsAct).advancePos 1200
      let (s, a) := f s c id
      s.answer c id a

/-- A paddock that accepts no command: RELEASING, or with its whole release admitted (R403, R417). -/
def State.accepts (s : State) (p : Nat) : Bool := decide ((s.composed.pdk p).state ≠ .releasing)

/-- A command of the table with a given opcode: the checks that come before its own (R389, R390, R403, R417). `operator`: accepted from
queues of paddock 0 only; `count`: a COUNT that has a meaning, and its only value if there is one. -/
def State.command (s : State) (op : Nat) (operator : Bool) (count : Option (Option Nat))
    (f : State → Fetched → Nat → State × Answer) : State :=
  s.perform (fun o => decide (o = op)) fun s c id =>
    if !s.accepts c.paddock || (operator && decide (c.paddock ≠ 0)) then (s, .refused noteOwner)
    else
      match count with
      | none => f s c id
      | some want =>
        if c.cmd.count = 0 then (s, .zeroLength)
        else if (want.map fun n => decide (n ≠ c.cmd.count)).getD false then (s, .illegal)
        else f s c id

/-- The opcodes of R388. -/
def knownOpcodes : List Nat :=
  [0x01, 0x02, 0x03, 0x04, 0x05, 0x10, 0x11, 0x20, 0x21, 0x30, 0x31, 0x32, 0x40, 0x41, 0x42, 0x43, 0x44, 0x50]

/-- MANGER_NOP (R388). -/
def execMangerNop (s : State) : Host.Outcome State Fault Refusal :=
  .next (s.whenRunning fun s => s.command 0x01 false none fun s _ _ => (s, .ok))

/-- RESERVED_COMMAND (R7, R388): a reserved opcode is answered ILLEGAL. -/
def execReservedCommand (s : State) : Host.Outcome State Fault Refusal :=
  .next (s.whenRunning fun s => s.perform (fun o => !knownOpcodes.contains o) fun s _ _ => (s, .illegal))

end Sys2Proof.Machine
end

