-- ==== Sys2Proof/Machine/Commands.lean ====
section
/-!
DEFINITION. Machine/Commands.lean: CONFIG, the copies and seals, the abort of a collective, the close of a tether and the retraining of
lanes (R372, R388 to R392, R399, R400, R342, R363).
-/

namespace Sys2Proof.Machine

/-! ### CONFIG (R391) -/

/-- Pairs of a CONFIG at most (R388). -/
def maxPairs : Nat := 256

/-- The registers of paddock `p` without a commit group that a CONFIG of its queues may name (R391). -/
def State.ownsPlain (s : State) (p : Nat) (r : Reg) : Bool :=
  match r with
  | .mtgStatus q => decide (q = p)
  | .wteStatus q => decide (q = p)
  | .group0 q _ => decide (q = p)
  | .group1 q _ => decide (q = p)
  | .mtgWord m _ w => decide (w ≤ 5) && decide (s.holders m = [p])
  | .seqNf t => decide (s.holders (t / 64) = [p])
  | .seqBudget t => decide (s.holders (t / 64) = [p])
  | _ => false

/-- The register that a pair names, when a queue of paddock `p` may write it (R389, R391). -/
def State.configTarget (s : State) (p offset : Nat) : Option Reg :=
  if offset % 8 ≠ 0 then none
  else
    match Reg.ofOffset offset with
    | none => none
    | some r =>
      let g := s.groupOf r
      if decide (r.rws ≠ 0) && (decide (g = some p) || (decide (p = 0) && decide (g = some groupGlobal))) then some r
      else if s.ownsPlain p r then some r else none

/-- The pairs of a list: BAR0 offset and value. -/
def pairsOf (bs : List Byte) (n : Nat) : List (Nat × BitVec 64) :=
  (List.range n).map fun i => (bits (recordWord bs (2 * i)) 0 27, recordWord bs (2 * i + 1))

/-- The commit groups that a queue of paddock `p` may arm. -/
def armable (p : Nat) : BitVec 64 := maskOf p 1 ||| (if p = 0 then maskOf groupGlobal 1 else 0)

/-- ARM bits set for a command: a host write in the same aclk does not clear them (R9, R391, R410). -/
def State.armGroups (s : State) (arm : BitVec 64) : State := (s.setReg .commit (s.reg .commit ||| arm)).noteDevice .commit arm

/-- A pair of a CONFIG written: a BAR0 write of the same aclk is performed second (R391). -/
def State.configWrite (s : State) (r : Reg) (v : BitVec 64) : State := s.writeReg r (~~~s.barBits r) v

/-- CONFIG: its pairs in list order, as 64-bit host writes, and then its arm mask (R391). -/
def State.config (s : State) (c : Fetched) : State × Answer :=
  let n := c.cmd.count
  let p := c.paddock
  if maxPairs < n then (s, .illegal)
  else
    match s.readOperand p c.cmd.arg (16 * n) with
    | (s, none) => (s, .failed noteOperand)
    | (s, some bs) =>
      let pairs := (pairsOf bs n).map fun x => (s.configTarget p x.1, x.2)
      let arm := c.cmd.param &&& maskOf 0 17
      match pairs.zipIdx.find? fun x => x.1.1.isNone with
      | some x => (s, .refused noteOwner x.2)
      | none =>
        if arm &&& ~~~armable p ≠ 0 then (s, .refused noteOwner)
        else
          let s := pairs.foldl (fun s x => match x.1 with | some r => s.configWrite r x.2 | none => s) s
          (s.armGroups arm, .ok)

/-- CONFIG. -/
def execConfig (env : Env) (s : State) : Host.Outcome State Fault Refusal :=
  .next (s.whenRunning fun s => (s.takeEnv env).command 0x02 false (some none) fun s c _ => s.config c)

/-! ### Copies and seals (R380, R392, R399, R400) -/

/-- A region that another paddock owns or scrubs. -/
def State.foreignRegion (s : State) (p r : Nat) : Bool := decide ((s.region r).state ≠ .none) && decide ((s.region r).owner.toNat ≠ p)

/-- A sheaf that others hold and paddock `p` does not. -/
def State.foreignSheaf (s : State) (p m : Nat) : Bool := !(s.holders m).isEmpty && !(s.holders m).contains p

/-- The sheaf whose SRAM lies at an address. -/
def sheafAt (a : Nat) : Option Nat :=
  if 0x100000000000 ≤ a ∧ a < 0x100000000000 + 25600 * 0x10000 then some ((a - 0x100000000000) / 0x10000 / 64)
  else if 0x200000000000 ≤ a ∧ a < 0x200000000000 + 400 * 0x400000 then some ((a - 0x200000000000) / 0x400000)
  else none

/-- The indices of the blocks of `size` bytes from `base`, `count` of them, that [a, a + n) meets. -/
def blocksMet (base size count a n : Nat) : List Nat :=
  let lo := max a base - base
  let hi := min (a + n) (base + size * count) - base
  span (lo / size) (ceilDiv hi size - lo / size)

/-- Part of [a, a + n) lies in a region or sheaf of another paddock (R319, R392). -/
def State.foreignSpan (s : State) (p a n : Nat) : Bool :=
  n != 0 &&
    ((blocksMet 0 (2 ^ 30) 512 a n).any (s.foreignRegion p) ||
      (blocksMet 0x100000000000 (64 * 0x10000) 400 a n ++ blocksMet 0x200000000000 0x400000 400 a n).any (s.foreignSheaf p))

/-- Bytes that the copy engine moves in a stride at least, at the trained width and rate (R380, R392). -/
def State.copyRate (s : State) : Nat := 80000 * (16 * 2 ^ s.host.rate * s.host.width) / 1024

/-- The stride by whose tick a copy of `n` bytes admitted now writes its completion record (R392). -/
def State.copyBound (s : State) (n : Nat) : Nat :=
  s.stride + 2 + ceilDiv (s.host.copies.foldl (fun b j => b + j.bytes) 0 + n) (max 1 s.copyRate)

/-- A copy or seal is admitted. -/
def State.admitCopy (s : State) (c : Fetched) (kind : CopyKind) (n : Nat) (key : BitVec 256) : State × Answer :=
  let job : CopyJob := { kind := kind, queue := c.queue, slot := c.slot, paddock := c.paddock, cmd := c.cmd, bytes := n,
                         bound := s.copyBound n, key := key }
  ({ s with host := { s.host with copies := s.host.copies ++ [job] } }, .ok)

/-- Admission of COPY (R392). -/
def State.copy (s : State) (c : Fetched) : State × Answer :=
  let x := c.cmd
  let fromHost := decide (hostBase ≤ x.arg)
  if x.count % 64 ≠ 0 ∨ x.arg % 64 ≠ 0 ∨ x.arg2 % 64 ≠ 0 ∨ x.done % 16 ≠ 0 ∨ fromHost = decide (hostBase ≤ x.arg2) then (s, .illegal)
  else if s.foreignSpan c.paddock (if fromHost then x.arg2 else x.arg) x.count then (s, .refused noteOwner)
  else s.admitCopy c .copy x.count 0

/-- COPY. -/
def execCopy (s : State) : Host.Outcome State Fault Refusal :=
  .next (s.whenRunning fun s => s.command 0x03 false (some none) fun s c _ => s.copy c)

/-- Admission of SEAL_IN and SEAL_OUT (R392, R399, R400). -/
def State.sealCopy (s : State) (c : Fetched) (kind : CopyKind) : State × Answer :=
  let x := c.cmd
  if x.arg % 64 ≠ 0 ∨ x.arg2 % 64 ≠ 0 ∨ x.arg3 % 64 ≠ 0 ∨ x.done % 16 ≠ 0 ∨ hostBase ≤ x.arg ∨ x.arg2 < hostBase ∨ x.arg3 < hostBase then
    (s, .illegal)
  else if s.foreignSpan c.paddock x.arg (sealUnit * x.count) then (s, .refused noteOwner)
  else
    match (s.pdk c.paddock).sealingKey with
    | none => (s, .failed noteSealKey)
    | some key => s.admitCopy c kind ((sealUnit + trailerBytes) * x.count) key

/-- SEAL_IN. -/
def execSealIn (s : State) : Host.Outcome State Fault Refusal :=
  .next (s.whenRunning fun s => s.command 0x04 false (some none) fun s c _ => s.sealCopy c .sealIn)

/-- SEAL_OUT. -/
def execSealOut (s : State) : Host.Outcome State Fault Refusal :=
  .next (s.whenRunning fun s => s.command 0x05 false (some none) fun s c _ => s.sealCopy c .sealOut)

/-! ### COLL_ABORT, TETHER_CLOSE and LINK_RETRAIN -/

/-- COLL_ABORT (R342, R389): the collective is marked, and ends at position 200 of the next stride; one of another paddock is
refused. -/
def State.markAbort (s : State) (c : Fetched) : State × Answer :=
  let named := s.colls.filter fun x => decide (x.descDpa.toNat = c.cmd.arg)
  match named.find? fun x => decide (x.paddock = c.paddock) with
  | none => (s, if named.isEmpty then .failed noteNotFound else .refused noteOwner)
  | some x =>
    ({ s with colls := s.colls.map fun y => if y.id = x.id then { y with aborting := true } else y }, .okLater)

/-- COLL_ABORT. -/
def execCollAbort (s : State) : Host.Outcome State Fault Refusal :=
  .next (s.whenRunning fun s => s.command 0x21 false none fun s c _ => s.markAbort c)

/-- TETHER_CLOSE (R363, R389). -/
def State.tetherClose (s : State) (c : Fetched) : State × Answer :=
  let t := bits c.cmd.param 0 12
  if (s.tether t).state = .closed then (s, .failed noteNotFound)
  else if (s.tether t).paddock ≠ c.paddock then (s, .refused noteOwner)
  else (s.closeTether t, .ok)

/-- TETHER_CLOSE. -/
def execTetherClose (s : State) : Host.Outcome State Fault Refusal :=
  .next (s.whenRunning fun s => s.command 0x31 false none fun s c _ => s.tetherClose c)

/-- LINK_RETRAIN (R372, R390): the failed lanes of the mask train again; an empty mask is a no-op. -/
def State.retrain (s : State) (c : Fetched) : State × Answer :=
  let n := bits c.cmd.param 0 5
  let lanes : BitVec 4 := BitVec.ofNat 4 (bits c.cmd.param 8 4)
  if lanes = 0 then (s, .zeroLength)
  else if 24 ≤ n then (s, .illegal)
  else
    let may := s.mayTrain n && decide ((s.port n).state ≠ portTraining)
    (s.modPort n fun p => if may then { p with training := p.training ||| (lanes &&& ~~~p.laneOk) } else p, .ok)

/-- LINK_RETRAIN. -/
def execLinkRetrain (s : State) : Host.Outcome State Fault Refusal :=
  .next (s.whenRunning fun s => s.command 0x32 true none fun s c _ => s.retrain c)

end Sys2Proof.Machine
end

