-- ==== Sys2Proof/Machine/Chaff.lean ====
section
/-!
DEFINITION. Machine/Chaff.lean: the Chaff engine: threshold tables, issues, stream lengths, result banks and drains (R181 to
R205, R212, R286 to R288).
-/

namespace Sys2Proof.Machine

/-! ### Fields -/

/-- W of an issue or build from its two-bit code (R184). -/
def chaffW (c : Nat) : Nat := 32 * 2 ^ c
/-- Groups of an issue (R184). -/
def chaffG (c : Nat) : Nat := 512 / 2 ^ c
/-- Bank of a CISS. -/
def cBank (w : BitVec 64) : Nat := bits w 0 2
/-- W code of a CISS. -/
def cWidth (w : BitVec 64) : Nat := bits w 2 2
/-- MODE of a CISS: true for BIP. -/
def cMode (w : BitVec 64) : Bool := bit w 4
/-- Table of A. -/
def cTableA (w : BitVec 64) : Nat := bits w 6 2
/-- Table of B. -/
def cTableB (w : BitVec 64) : Nat := bits w 8 2
/-- Length record. -/
def cRecord (w : BitVec 64) : Nat := bits w 10 3
/-- Seed domain of A. -/
def cDomainA (w : BitVec 64) : Nat := bits w 13 4
/-- Seed domain of B. -/
def cDomainB (w : BitVec 64) : Nat := bits w 17 4

/-- Table `k` of a tile. -/
def Tile.table (t : Tile) (k : Nat) : ChaffTable := Tbl.get {} t.tables k
/-- Table `k` set. -/
def Tile.setTable (t : Tile) (k : Nat) (x : ChaffTable) : Tile := { t with tables := Tbl.put {} t.tables k x }
/-- Length record `k`. -/
def Tile.record (t : Tile) (k : Nat) : BitVec 32 := Tbl.get 0 t.lengths k
/-- Length record `k` set. -/
def Tile.setRecord (t : Tile) (k : Nat) (v : BitVec 32) : Tile := { t with lengths := Tbl.put 0 t.lengths k v }

/-- The phases that accept a Chaff instruction (R30, R203, R275). -/
def chaffPhase (p : Phase) : Bool := decide (p = .gen) || decide (p = .fwd)

/-- Issues under way. -/
def Tile.issues (t : Tile) : List UnitOp := t.chaff.filter fun o => decide (o.kind = .ciss)

/-! ### Threshold tables (R189, R190) -/

/-- The value of an element code of a table. -/
def chaffElem (int8 : Bool) (c : Nat) : Num := elemNum (if int8 then fTeff8i else fTeff8) c

/-- RNE(|e| / M × 2^k). -/
def densityOf (e m : Num) (k : Int) : Nat :=
  match e, m with
  | .fin _ a x, .fin _ b y =>
    let (n, d) := inUnits a b (x - y + k) 0
    rneDiv n d
  | _, _ => 0

/-- θ of a code that is neither a zero nor a NaN. -/
def thetaOf (mode : Bool) (e m : Num) : Nat :=
  if mode then
    let h := densityOf e m 15
    if e.isNeg then 32768 - h else min 65536 (32768 + h)
  else min 65536 (densityOf e m 16)

/-- The table entry of a code (R189). -/
def tableEntry (int8 mode : Bool) (m : Num) (c : Nat) : BitVec 32 :=
  let e := chaffElem int8 c
  if e = .nan then pack 32 [(19, 1, 1)]
  else if e.isZero then pack 32 [(18, 1, 1), (17, 1, b2n (!mode && e.isNeg))]
  else pack 32 [(17, 1, b2n (!mode && e.isNeg)), (0, 17, thetaOf mode e m)]

/-- The table built with range `m` (R190). -/
def buildTable (int8 mode clips : Bool) (m : BitVec 16) : ChaffTable :=
  { entries := Tbl.ofList 0 0 ((List.range 256).map (tableEntry int8 mode (bf m))), range := m, mode := mode, int8 := int8, built := true,
    clips := clips }

/-- The range of a scan: the largest |e| among the codes, or 1.0 (R190). -/
def scanRange (int8 : Bool) (codes : List Byte) : BitVec 16 :=
  let a := codes.foldl (fun a c =>
    let e := chaffElem int8 c.toNat
    if e.isFinite then Num.magMax a e else a) (Num.zero false)
  if a.isZero then 0x3F80 else toBfKeep a

/-- θ of an entry. -/
def entTheta (e : BitVec 32) : Nat := bits e 0 17
/-- S of an entry. -/
def entSign (e : BitVec 32) : Bool := bit e 17
/-- Z of an entry. -/
def entZero (e : BitVec 32) : Bool := bit e 18
/-- N of an entry. -/
def entNan (e : BitVec 32) : Bool := bit e 19

/-- The entry a table holds for a code (R189). -/
def ChaffTable.entry (x : ChaffTable) (c : Nat) : BitVec 32 := Tbl.get 0 x.entries c

/-- A code beyond the range of an explicit build (R190). -/
def ChaffTable.clipped (x : ChaffTable) (c : Nat) : Bool :=
  x.clips && (let e := chaffElem x.int8 c; e.isFinite && Num.magLt (bf x.range) e)

/-! ### CTAB -/

/-- A build waits while an uncompleted issue names its table (R191, R272). -/
def ctabReady (_ : State) (t : Tile) (w : BitVec 64) : Option Nat :=
  if t.issues.any fun o => decide (cTableA o.word = bits w 0 2) || decide (cTableB o.word = bits w 0 2) then none else some 0

/-- CTAB (R190, R286).  In scan mode the descriptor of A passes the checks of R228 but that of its format, which is R286's
own (notes/assumptions/33). -/
def ctabBody (n : Nat) (s : State) (t : Tile) (w : BitVec 64) : Issued :=
  let a := t.t (fA w)
  let m := BitVec.ofNat 16 (bits (t.s (fB w)) 0 16)
  let want := if bit w 3 then fTeff8i else fTeff8
  let bad := lowestFailing (ownStore n) [(dBase a, chaffW (bits w 5 2))]
  let desc := if bit w 4 then none else s.descFault (n / 64) a (dFormat a) (fun _ => true) false false
  if !chaffPhase (s.tilePhase n) then .fault cPhase 0
  else if desc.isSome then .fault (desc.getD 0) 0
  else if !bit w 4 && decide (dFormat a ≠ want) then .fault cChfFormat 0
  else if bit w 4 && (bfNonFinite m || bit m 15 || decide (m = 0)) then .fault cChfTable 0
  else if !bit w 4 && bad.isSome then .fault cMovAddr (bad.getD 0)
  else .retire (s.modTile n fun t => { t with
      chaff := t.chaff ++ [{ kind := .ctab, pc := t.pc, word := w, a := a, x := BitVec.ofNat 32 m.toNat, issued := s.now }] }) 1 none

/-- CTAB. -/
def execCtab (n : Nat) (s : State) : Host.Outcome State Fault Refusal := .next (s.issueWhen n 0x50 ctabReady (ctabBody n))

/-- TABLE_BUILD_COMPLETE (R190): the oldest build ends 12 aclk after its acceptance. -/
def State.completeBuild (s : State) (n : Nat) : State :=
  match takeFirst (fun o => decide (o.kind = .ctab)) (s.tile n).chaff with
  | none => s
  | some (o, rest) =>
    let s := s.advanceTo (o.issued + 12)
    let s := s.modTile n fun t => { t with chaff := rest }
    let int8 := bit o.word 3
    let mode := bit o.word 2
    let k := bits o.word 0 2
    if bit o.word 4 then s.modTile n fun t => t.setTable k (buildTable int8 mode true (BitVec.ofNat 16 o.x.toNat))
    else
      let len := chaffW (bits o.word 5 2)
      match s.checkRead (dBase o.a) len with
      | (s, some _) => s.opFault n cChfEcc 0 o
      | (s, none) => s.modTile n fun t => t.setTable k (buildTable int8 mode false (scanRange int8 (Memory.bytes s.mem (dBase o.a) len)))

/-- TABLE_BUILD_COMPLETE. -/
def execTableBuildComplete (n : Nat) (env : Env) (s : State) : Host.Outcome State Fault Refusal :=
  .next (s.whenRunning fun s => (s.takeEnv env).completeBuild n)

/-! ### CISS -/

/-- The sequencer issues the next issue when the previous one's streaming has reached its aclk (R186, R272). -/
def cissReady (_ : State) (t : Tile) (_ : BitVec 64) : Option Nat := some t.chaffFree

/-- The bank that an issue into `q` goes to: that of a DRAINING bank is what follows the drain (R198, R272; DEDUCED,
notes/assumptions/31). -/
def Tile.chaffTarget (t : Tile) (q : Nat) : ChaffBank :=
  if tagState (t.chaffBank q).tag = 2 then t.chaffBehind q else t.chaffBank q

/-- The bank that an issue into `q` goes to, set. -/
def Tile.setChaffTarget (t : Tile) (q : Nat) (b : ChaffBank) : Tile :=
  if tagState (t.chaffBank q).tag = 2 then t.setChaffBehind q b else t.setChaffBank q b

/-- Operand bytes of row 0 of A, and of each row of B (R184, R287). -/
def rowSpan (w : BitVec 64) (d : BitVec 256) : Nat := min (chaffW (cWidth w)) (dExt0 d)

/-- Rows of B that an issue reads (R184, R287). -/
def rowsOfB (w : BitVec 64) (b : BitVec 256) : Nat := min (chaffG (cWidth w)) (dExt1 b)

/-- Ranges an issue reads. -/
def chaffRanges (w : BitVec 64) (a b : BitVec 256) : List (Nat × Nat) :=
  (if dExt1 a = 0 then [] else [(dBase a, rowSpan w a)]) ++ [(dScale a, 2)] ++
    ((List.range (rowsOfB w b)).map fun g => (rowAt b g, rowSpan w b)) ++ [(dScale b, 2 * rowsOfB w b)]

/-- An operand of the engine: TEFF8 or TEFF8I under a FWD entry or none (R184). -/
def State.chaffOperandOk (s : State) (m : Nat) (d : BitVec 256) : Bool :=
  let f := s.effective m d
  (decide (f = fTeff8) || decide (f = fTeff8i)) && (!dHasEntry d || decide ((s.entryOf m d).kind = 1))

/-- A length record that an issue cannot run at (R195). -/
def badRecord (r : BitVec 32) : Bool :=
  let ok (x : Nat) : Bool := decide (6 ≤ x) && decide (x ≤ 12)
  !(ok (bits r 8 4) && ok (bits r 4 4) && ok (bits r 0 4) && decide (bits r 0 4 ≤ bits r 4 4))

/-- The bank that an issue makes of an EMPTY one (R198): tag fields and what it compares. -/
def State.freshChaffBank (s : State) (n : Nat) (w : BitVec 64) (a b : BitVec 256) (lLog : Nat) : ChaffBank :=
  let m := n / 64
  let t := s.tile n
  let ex (d : BitVec 256) : BitVec 8 := if dHasEntry d then (s.entryOf m d).tExp else 0
  { tag := pack 64 [(62, 2, 1), (61, 1, b2n (cMode w)), (58, 2, cWidth w), (54, 4, lLog)],
    rangeA := (t.table (cTableA w)).range, rangeB := (t.table (cTableB w)).range, expA := ex a, expB := ex b,
    rowA := BitVec.ofNat 16 (leNat (Memory.bytes s.mem (dScale a) 2)) }

/-- An issue may be added to an ACTIVE bank (R198). -/
def ChaffBank.accepts (x y : ChaffBank) : Bool :=
  decide (bits x.tag 61 1 = bits y.tag 61 1) && decide (bits x.tag 58 2 = bits y.tag 58 2) && decide (x.rangeA = y.rangeA) &&
    decide (x.rangeB = y.rangeB) && decide (x.expA = y.expA) && decide (x.expB = y.expB) && decide (x.rowA = y.rowA)

/-- ISSUES of a Chaff tag. -/
def tagIssues (tag : BitVec 64) : Nat := bits tag 36 10

/-- The checks of CISS once its phase is right (R184, R191, R195, R198, R228, R274, R286). -/
def State.cissFault (s : State) (n : Nat) (w : BitVec 64) (a b : BitVec 256) : Option (Nat × Nat) :=
  let m := n / 64
  let t := s.tile n
  match s.descFault m a (s.effective m a) (fun _ => true) false false, s.descFault m b (s.effective m b) (fun _ => true) false false with
  | some c, _ => some (c, 0)
  | none, some c => some (c, 0)
  | none, none =>
    let ta := t.table (cTableA w)
    let tb := t.table (cTableB w)
    let bank := t.chaffTarget (cBank w)
    if !s.chaffOperandOk m a || !s.chaffOperandOk m b then some (cChfFormat, 0)
    else if badRecord (t.record (cRecord w)) then some (cChfLength, 0)
    else if !ta.built || !tb.built || decide (ta.mode ≠ cMode w) || decide (tb.mode ≠ cMode w) then some (cChfTable, 0)
    else if decide (ta.int8 ≠ decide (s.effective m a = fTeff8i)) || decide (tb.int8 ≠ decide (s.effective m b = fTeff8i)) then
      some (cChfFormat, 0)
    else match lowestFailing (ownStore n) (chaffRanges w a b) with
      | some x => some (cMovAddr, x)
      | none =>
        if tagState bank.tag = 1 then
          if !bank.accepts (s.freshChaffBank n w a b 0) then some (cChfTag, 0)
          else if 1023 ≤ tagIssues bank.tag then some (cChfCount, 0)
          else none
        else none

/-- EVT_CHF_DOMAIN (R192, R193, R479). -/
def domainPayload (cause : Nat) (w : BitVec 64) (pc : BitVec 11) (draw : BitVec 32) : BitVec 128 :=
  pack 128 [(0, 1, cause), (2, 2, cBank w), (4, 4, cDomainA w), (8, 4, cDomainB w), (16, 11, pc.toNat), (32, 32, draw.toNat)]

/-- A bank after an issue is accepted into it: counts, domains, draw number and extent (R193, R198, R287). -/
def ChaffBank.claim (x : ChaffBank) (w : BitVec 64) (b : BitVec 256) (draw : BitVec 32) (invalid : Bool) : ChaffBank :=
  { x with
    tag := setBits (setBits (setBits (setBits (withBit x.tag 60 (bit x.tag 60 || invalid)) 50 4 (cDomainA w)) 46 4 (cDomainB w)) 36 10
      (tagIssues x.tag + 1)) 0 32 draw.toNat,
    extG := max x.extG (rowsOfB w b) }

/-! ### Streams (R181 to R187) -/

/-- The random words of a domain and lane position over an issue's cycles (R182, R183, R212). -/
def streamWords (key : BitVec 128) (domain lane tile draw len : Nat) : List Nat :=
  (List.range (len / 8)).flatMap fun k =>
    let out := sower key (sowerChaff domain lane tile draw (8 * k))
    (List.range 8).map fun j => bits out (16 * j) 16

/-- The count of 1 bits of a lane: AND in UNI, XNOR in BIP (R181, R182). -/
def laneCount (mode : Bool) (ta tb : Nat) (za zb : List Nat) : Nat :=
  ((za.zip zb).filter fun z =>
    let x := decide (z.1 < ta)
    let y := decide (z.2 < tb)
    if mode then x == y else x && y).length

/-- The lane value of an issue (R181, R185): 0 for a lane that terminates. -/
def laneValue (mode : Bool) (len : Nat) (ea eb : BitVec 32) (za zb : List Nat) : Int :=
  if entZero ea || entZero eb then 0
  else
    let c : Int := laneCount mode (entTheta ea) (entTheta eb) za zb
    if mode then 2 * c - len else if entSign ea != entSign eb then -c else c

/-- The codes of row `r` of an operand, W of them: code 0 beyond its extents (R287). -/
def State.chaffCodes (s : State) (w : BitVec 64) (d : BitVec 256) (r : Nat) : List Nat :=
  let k := if r < dExt1 d then rowSpan w d else 0
  (Memory.bytes s.mem (rowAt d r) k).map BitVec.toNat ++ List.replicate (chaffW (cWidth w) - k) 0

/-- What an issue computes: group sums, groups with a NaN lane, terminated lanes, clipped codes. -/
structure IssueResult where
  sums : List Int
  nans : List Bool
  terminated : Nat
  clipped : Nat

/-- The group sums of an issue over its operands as loaded (R184, R185, R191). -/
def State.issueResult (s : State) (n : Nat) (o : UnitOp) : IssueResult :=
  let w := o.word
  let t := s.tile n
  let ta := t.table (cTableA w)
  let tb := t.table (cTableB w)
  let len := 2 ^ o.x.toNat
  let key := (s.pdk (s.tilePaddock n)).sowerKey
  let ca := s.chaffCodes w o.a 0
  let za := (List.range (chaffW (cWidth w))).map fun i => streamWords key (cDomainA w) i n o.z.toNat len
  let zb := (List.range (chaffW (cWidth w))).map fun i => streamWords key (cDomainB w) i n o.z.toNat len
  let rows := (List.range (chaffG (cWidth w))).map fun g => s.chaffCodes w o.b g
  let lanes (row : List Nat) : List (Nat × Nat × List Nat × List Nat) := ca.zip (row.zip (za.zip zb))
  let dead (row : List Nat) : Nat := ((ca.zip row).filter fun c => entZero (ta.entry c.1) || entZero (tb.entry c.2)).length
  { sums := rows.map fun row => ((lanes row).map fun l => laneValue (cMode w) len (ta.entry l.1) (tb.entry l.2.1) l.2.2.1 l.2.2.2).sum,
    nans := rows.map fun row => (ca.zip row).any fun c => entNan (ta.entry c.1) || entNan (tb.entry c.2),
    terminated := (rows.map dead).sum,
    clipped := (ca.filter ta.clipped).length + (rows.map fun row => (row.filter tb.clipped).length).sum }

/-- What an issue brings to the end of its streaming: group sums, a mark of each group with a NaN lane, the row scales of B,
and what it adds to TERMINATED and CLIPPED. -/
def State.issueValues (s : State) (n : Nat) (o : UnitOp) : Tbl (BitVec 32) :=
  let r := s.issueResult n o
  let scales := (List.range (rowsOfB o.word o.b)).map fun g => BitVec.ofNat 32 (leNat (Memory.bytes s.mem (dScale o.b + 2 * g) 2))
  Tbl.ofList 0 0 (r.sums.map (BitVec.ofInt 32)) ++ Tbl.ofList 0 512 (r.nans.map fun b => BitVec.ofNat 32 (b2n b)) ++
    Tbl.ofList 0 1024 scales ++ Tbl.ofList 0 1536 [BitVec.ofNat 32 r.terminated, BitVec.ofNat 32 r.clipped]

/-- CISS (R184 to R198, R203, R287): the tables, the length record and the bank's tag are read at its issue, when the load of
its operands begins (R186, notes/assumptions/31); `tag` keeps the bank's tag as it was, `x` the length, `y` the bank's extent
as it was. -/
def cissBody (n : Nat) (s : State) (t : Tile) (w : BitVec 64) : Issued :=
  let a := t.t (fA w)
  let b := t.t (fB w)
  let draw := t.s (fC w)
  let phase := s.tilePhase n
  if !chaffPhase phase || (bit w 5 && decide (phase ≠ .gen)) then .fault cPhase 0
  else match s.cissFault n w a b with
    | some (c, dpa) => .fault c dpa
    | none =>
      let old := t.chaffTarget (cBank w)
      let active := decide (tagState old.tag = 1)
      let lLog := if active then bits old.tag 54 4 else bits (t.record (cRecord w)) 8 4
      let same := decide (cDomainA w = cDomainB w)
      let again := active && decide (draw.toNat ≤ bits old.tag 0 32)
      let base := if active then old else s.freshChaffBank n w a b lLog
      let o : UnitOp := { kind := .ciss, pc := t.pc, word := w, a := a, b := b, x := BitVec.ofNat 32 lLog, y := BitVec.ofNat 32 old.extG,
                          z := draw, tag := old.tag, waits := active, sampled := same || again, issued := s.now }
      let o := { o with unreadable := (s.readRanges (chaffRanges w a b)).2, values := s.issueValues n o }
      let s := s.modTile n fun t =>
        { t.setChaffTarget (cBank w) (base.claim w b draw (same || again)) with
          chaff := t.chaff ++ [o], chaffFree := s.now + max 64 (2 ^ lLog),
          chaffInvalid := if same || again then satAdd t.chaffInvalid 1 else t.chaffInvalid }
      let s := if same then s.raise n evtChfDomain (domainPayload 0 w t.pc draw) else s
      let s := if again then s.raise n evtChfDomain (domainPayload 1 w t.pc draw) else s
      .retire s 1 none

/-- CISS. -/
def execCiss (n : Nat) (s : State) : Host.Outcome State Fault Refusal := .next (s.issueWhen n 0x51 cissReady (cissBody n))

/-- The bank as it was before an issue that faults was accepted (R205): whole when no later issue names the bank.  One that is
DRAINING stays so: its drain completes (R511). -/
def ChaffBank.unclaim (x : ChaffBank) (o : UnitOp) (later : Bool) : ChaffBank :=
  if tagIssues x.tag ≤ 1 then { tag := setTagState 0 (if tagState x.tag = 2 then 2 else 0) }
  else if later then { x with tag := setBits x.tag 36 10 (tagIssues x.tag - 1) }
  else { x with tag := setTagState o.tag (tagState x.tag), extG := o.y.toNat }

/-- A drain of result bank `q`. -/
def UnitOp.drains (o : UnitOp) (q : Nat) : Bool := decide (o.kind = .cdr) && decide (bits o.word 0 2 = q)

/-- A faulting issue taken back from its bank, which `before` says lies behind a drain or not, and `after` whether a later
issue joined (R205). -/
def Tile.unissue (t : Tile) (o : UnitOp) (before after : List UnitOp) : Tile :=
  let q := cBank o.word
  let later := (after.takeWhile fun x => !x.drains q).any fun x => decide (x.kind = .ciss) && decide (cBank x.word = q)
  if before.any fun x => x.drains q then t.setChaffBehind q ((t.chaffBehind q).unclaim o later)
  else t.setChaffBank q ((t.chaffBank q).unclaim o later)

/-- A draw or mask of the Sower's general port, which an issue with W = 256 that streams from `at_` for `len` aclk holds up
(R188, R217): `started` is when it would have begun had it not been held. -/
def UnitOp.heldBy (at_ len time : Nat) (o : UnitOp) : UnitOp :=
  let st := o.started.getD o.issued
  { o with started := some (if st + time ≤ at_ then st else if st < at_ then st + len else max st (at_ + len)) }

/-- aclk of a draw or mask from its start (R213, R217, R289). -/
def UnitOp.sowerTime (o : UnitOp) : Nat := if o.kind = .sdraw then 13 else 13 + ceilDiv (dExt0 o.a * dExt1 o.a) 64

/-- CHAFF_STREAM_START (R185, R186): 64 aclk after its issue, and once the streaming before it has ended, the oldest issue
not streaming starts; a word of its operands that could not be read faults it. -/
def State.startStream (s : State) (n : Nat) : State :=
  let t := s.tile n
  let waiting (o : UnitOp) : Bool := decide (o.kind = .ciss) && o.started.isNone
  match takeFirst waiting t.chaff with
  | none => s
  | some (o, rest) =>
    let at_ := max (o.issued + 64) t.chaffStreamEnd
    let s := s.advanceTo at_
    let (s, bad) := s.readRanges (chaffRanges o.word o.a o.b)
    if bad || o.unreadable then
      (s.modTile n fun t =>
        { t.unissue o (t.chaff.takeWhile fun x => !waiting x) ((t.chaff.dropWhile fun x => !waiting x).drop 1) with chaff := rest }).opFault n cChfEcc 0 o
    else
      let len := 2 ^ o.x.toNat
      s.modTile n fun t =>
        { t with
          chaff := updateFirst waiting (fun x => { x with started := some at_ }) t.chaff,
          chaffStreamEnd := at_ + len,
          sower := if cWidth o.word = 3 then t.sower.map fun x => x.heldBy at_ len x.sowerTime else t.sower,
          chaffTerminated := (t.chaffTerminated + (Tbl.get 0 o.values 1536).toNat) % (64 * 2 ^ 32),
          chaffClipped := satAdd t.chaffClipped (Tbl.get 0 o.values 1537).toNat }

/-- CHAFF_STREAM_START. -/
def execChaffStreamStart (n : Nat) (env : Env) (s : State) : Host.Outcome State Fault Refusal :=
  .next (s.whenRunning fun s => (s.takeEnv env).startStream n)

/-! ### Completion of an issue (R187, R196) -/

/-- The valid groups' sums of an issue: the rows it read whose lanes hold no NaN (R196). -/
def UnitOp.validSums (o : UnitOp) : List Int :=
  (List.range (rowsOfB o.word o.b)).filterMap fun g =>
    if Tbl.get 0 o.values (512 + g) = 0 then some (Tbl.get 0 o.values g).toInt else none

/-- The largest minus the smallest of a list of sums. -/
def sumSpan : List Int → Nat
  | [] => 0
  | x :: rest => (rest.foldl max x - rest.foldl min x).toNat

/-- The smallest k from MIN to MAX with 2^k × D² ≥ c² × W × 4^TGT, D = d / L; MAX when there is none (R196). -/
def nextLength (mode : Bool) (w tgt d len lo hi : Nat) : Nat :=
  let need := w * 4 ^ tgt * len ^ 2
  let have_ (k : Nat) : Nat := 2 ^ k * d ^ 2 * (if mode then 1 else 4)
  if d = 0 then hi
  else (((List.range (hi + 1 - lo)).map (lo + ·)).find? fun k => decide (need ≤ have_ k)).getD hi

/-- The AUTO length record of a completed issue (R196). No span is stated for an issue without valid groups: it is a free
value (notes/assumptions/9). -/
def State.autoLength (s : State) (n : Nat) (o : UnitOp) : State :=
  let k := cRecord o.word
  let r := (s.tile n).record k
  if !bit r 15 then s
  else
    let len := 2 ^ o.x.toNat
    let sums := if o.sampled then [] else o.validSums
    let (v, s) := if sums.isEmpty then s.draw else (0, s)
    let d := if sums.isEmpty then v.toNat % 2 ^ 21 else sumSpan sums
    let span := toBfKeep (.fin false d (-(o.x.toNat : Int)))
    let r := setBits r 16 16 span.toNat
    let l := if o.sampled then bits r 4 4
      else nextLength (cMode o.word) (chaffW (cWidth o.word)) (bits r 12 3) d len (bits r 0 4) (bits r 4 4)
    s.modTile n fun t => t.setRecord k (if o.waits then r else setBits r 8 4 l)

/-- Group sums added to a bank, with its NaN groups and the row scales of B (R187, R191, R199). -/
def ChaffBank.add (x : ChaffBank) (o : UnitOp) : ChaffBank :=
  let gs := List.range (rowsOfB o.word o.b)
  { x with
    sums := gs.foldl (fun t g => Tbl.modify 0 t g fun v => v + Tbl.get 0 o.values g) x.sums,
    nans := gs.foldl (fun l g => if Tbl.get 0 o.values (512 + g) ≠ 0 ∧ ¬ l.contains g then l ++ [g] else l) x.nans,
    rowB := gs.foldl (fun t g => if (t.any fun c => decide (c.1 = g)) then t
      else Tbl.insert t g (BitVec.ofNat 16 (Tbl.get 0 o.values (1024 + g)).toNat)) x.rowB }

/-- CHAFF_ISSUE_COMPLETE (R186, R187): 8 aclk after its last bit the oldest streaming issue is complete.  A drain of its bank
accepted before it ends first (R198, R272). -/
def State.completeIssue (s : State) (n : Nat) : State :=
  let going (o : UnitOp) : Bool := decide (o.kind = .ciss) && o.started.isSome
  match takeFirst going (s.tile n).chaff with
  | none => s
  | some (o, rest) =>
    let at_ := o.started.getD 0 + 2 ^ o.x.toNat + 8
    let q := cBank o.word
    if ((s.tile n).chaff.takeWhile fun x => !going x).any fun x => x.drains q then s else
    let s := s.advanceTo at_
    let s := s.modTile n fun t =>
      { t.setChaffBank q ((t.chaffBank q).add o) with
        chaff := rest, chaffDone := max t.chaffDone at_, chaffIssues := wrapAdd t.chaffIssues 1 }
    s.autoLength n o

/-- CHAFF_ISSUE_COMPLETE. -/
def execChaffIssueComplete (n : Nat) (s : State) : Host.Outcome State Fault Refusal :=
  .next (s.whenRunning fun s => s.completeIssue n)

/-! ### Drains (R199, R200) -/

/-- An operation that a drain of bank `q` waits for: an issue into the bank, or an earlier drain (R272, R273). -/
def UnitOp.holdsDrain (o : UnitOp) (q : Nat) : Bool := (decide (o.kind = .ciss) && decide (cBank o.word = q)) || decide (o.kind = .cdr)

/-- The drain at the front of those listed still waits to start. -/
def Tile.drainWaits (t : Tile) : Bool :=
  match t.chaff.findIdx? fun o => decide (o.kind = .cdr) with
  | none => false
  | some i => (t.chaff.take i).any (fun x => x.holdsDrain (bits (t.chaff.getD i { kind := .cdr }).word 0 2)) ||
      1 < (t.chaff.filter fun o => decide (o.kind = .cdr)).length

/-- A drain is accepted while no earlier one waits to start (R272). -/
def cdrReady (_ : State) (t : Tile) (_ : BitVec 64) : Option Nat := if t.drainWaits then none else some 0

/-- The checks of CDR once its phase is right (R199, R205, R228, R274, R287). -/
def State.cdrFault (s : State) (n : Nat) (w : BitVec 64) (d : BitVec 256) : Option (Nat × Nat) :=
  let m := n / 64
  let q := bits w 0 2
  let t := s.tile n
  match if bit w 2 then none else s.descFault m d (dFormat d) (fun f => decide (f = fBf16)) false false with
  | some c => some (c, 0)
  | none =>
    let b := t.chaffBank q
    if tagState b.tag = 2 ∨ (tagState b.tag = 0 ∧ ¬ t.issues.any fun o => decide (cBank o.word = q)) then some (cChfDrainEmpty, 0)
    else if bit w 2 then none
    else (lowestFailing (ownStore n) [(dBase d, 2 * b.extG)]).map fun x => (cMovAddr, x)

/-- CDR (R199, R200): the bank becomes DRAINING. -/
def cdrBody (n : Nat) (s : State) (t : Tile) (w : BitVec 64) : Issued :=
  if !chaffPhase (s.tilePhase n) then .fault cPhase 0
  else match s.cdrFault n w (t.t (fD w)) with
    | some (c, dpa) => .fault c dpa
    | none =>
      let q := bits w 0 2
      .retire (s.modTile n fun t =>
        let b := t.chaffBank q
        { t.setChaffBank q { b with tag := setTagState b.tag 2 } with
          chaff := t.chaff ++ [{ kind := .cdr, pc := t.pc, word := w, d := t.t (fD w), y := t.s (fB w), issued := s.now }] }) 1 none

/-- CDR. -/
def execCdr (n : Nat) (s : State) : Host.Outcome State Fault Refusal := .next (s.issueWhen n 0x52 cdrReady (cdrBody n))

/-- The result of group `g` (R199): the elements of a row under a zero or subnormal row scale are all +0, and so is their sum
(R76, notes/assumptions/76). -/
def ChaffBank.result (b : ChaffBank) (g : Nat) : BitVec 16 :=
  if bit b.tag 60 || b.nans.contains g then bfNan
  else
    let s := (numOfInt (Tbl.get 0 b.sums g).toInt).scale (-(bits b.tag 54 4 : Int) + b.expA.toInt + b.expB.toInt)
    toBfKeep (underRowScale (rowScale (Tbl.get 0 b.rowB g).toNat)
      (underRowScale (rowScale b.rowA.toNat) ((s.mul (bf b.rangeA)).mul (bf b.rangeB))))

/-- A key comes before another in the top-k list: larger value, or an equal one with the lower index (R200). -/
def keyBefore (x y : BitVec 32 × BitVec 16) : Bool :=
  if Num.lt (bf y.2) (bf x.2) then true else if Num.lt (bf x.2) (bf y.2) then false else decide (x.1.toNat < y.1.toNat)

/-- A key put into the list in its place. -/
def insertKey (x : BitVec 32 × BitVec 16) : List (BitVec 32 × BitVec 16) → List (BitVec 32 × BitVec 16)
  | [] => [x]
  | y :: rest => if keyBefore x y then x :: y :: rest else y :: insertKey x rest

/-- A bank's results merged into the list, the `k` largest kept (R200). -/
def mergeTopk (k : Nat) (base : BitVec 32) (list : List (BitVec 32 × BitVec 16)) (b : ChaffBank) : List (BitVec 32 × BitVec 16) :=
  if bit b.tag 60 then list
  else ((List.range b.extG).foldl (fun l g =>
    let v := b.result g
    if bfIsNan v then l else insertKey (base + BitVec.ofNat 32 g, v) l) list).take k

/-- CHAFF_DRAIN_COMPLETE (R199, R200): the oldest drain ends ceil(G / 64) + 4 aclk after the issues into its bank and the
drain before it. -/
def State.completeChaffDrain (s : State) (n : Nat) : State :=
  let t := s.tile n
  match takeFirst (fun o => decide (o.kind = .cdr)) t.chaff with
  | none => s
  | some (o, rest) =>
    let q := bits o.word 0 2
    if (t.chaff.takeWhile fun x => decide (x.kind ≠ .cdr)).any fun x => x.holdsDrain q then s
    else
      let b := t.chaffBank q
      let at_ := max o.issued t.chaffDone + ceilDiv (chaffG (bits b.tag 58 2)) 64 + 4
      let s := s.advanceTo at_
      let s := s.modTile n fun t =>
        { (t.setChaffBank q (t.chaffBehind q)).setChaffBehind q {} with
          chaff := rest, chaffDone := at_, topk := if bit o.word 2 then mergeTopk t.topkK o.y t.topk b else t.topk }
      if bit o.word 2 then s
      else
        let ys := (List.range b.extG).map b.result
        let s := s.deliver n o (s.tilePaddock n) (unitPieces [(dBase o.d, ys.flatMap fun v => leBytes 2 v.toNat)])
        s.nonFiniteAt n o (ys.findIdx? bfNonFinite)

/-- CHAFF_DRAIN_COMPLETE. -/
def execChaffDrainComplete (n : Nat) (s : State) : Host.Outcome State Fault Refusal :=
  .next (s.whenRunning fun s => s.completeChaffDrain n)

/-! ### The top-k list and length records (R200, R286, R288) -/

/-- CKCLR and CKRD wait for every earlier TOPK drain. -/
def topkReady (_ : State) (t : Tile) (_ : BitVec 64) : Option Nat :=
  if t.chaff.any fun o => decide (o.kind = .cdr) && bit o.word 2 then none else some 0

/-- CKCLR: K from 1 to 64; other values are reserved encodings (R246). -/
def ckclrBody (n : Nat) (s : State) (_ : Tile) (w : BitVec 64) : Issued :=
  if !chaffPhase (s.tilePhase n) then .fault cPhase 0
  else .retire (s.modTile n fun t => { t with topk := [], topkK := bits w 0 7 }) 1 none

/-- CKCLR. -/
def execCkclr (n : Nat) (s : State) : Host.Outcome State Fault Refusal := .next (s.issueWhen n 0x53 topkReady (ckclrBody n))

/-- The bytes of a list read (R200, R288): the kept keys, then empty entries. -/
def topkBytes (k : Nat) (list : List (BitVec 32 × BitVec 16)) : List Byte :=
  (List.range k).flatMap fun i =>
    let x := list.getD i (0xFFFFFFFF, 0xFF80)
    leBytes 8 (x.1.toNat + x.2.toNat * 2 ^ 32)

/-- CKRD (R288): the list read ends 2 + ceil(K / 16) aclk after its issue. -/
def ckrdBody (n : Nat) (s : State) (t : Tile) (w : BitVec 64) : Issued :=
  let a := (t.a (fA w)).toNat
  if !chaffPhase (s.tilePhase n) then .fault cPhase 0
  else if a % 32 ≠ 0 then .fault cAlign 0
  else match lowestFailing (ownStore n) [(a, 8 * t.topkK)] with
    | some x => .fault cMovAddr x
    | none =>
      let s := s.writePieces (s.tilePaddock n) (unitPieces [(a, topkBytes t.topkK t.topk)])
      .retire (s.modTile n fun t => { t with listDone := max t.listDone (s.now + 2 + ceilDiv t.topkK 16) }) 1 none

/-- CKRD. -/
def execCkrd (n : Nat) (s : State) : Host.Outcome State Fault Refusal := .next (s.issueWhen n 0x54 topkReady (ckrdBody n))

/-- CLEN waits for every issue that names its record (R272). -/
def clenReady (_ : State) (t : Tile) (w : BitVec 64) : Option Nat :=
  if t.issues.any fun o => decide (cRecord o.word = bits w 0 3) then none else some 0

/-- CLEN (R286). -/
def clenBody (n : Nat) (s : State) (t : Tile) (w : BitVec 64) : Issued :=
  if !chaffPhase (s.tilePhase n) then .fault cPhase 0
  else .retire (s.modTile n fun x => x.setRecord (bits w 0 3) (BitVec.ofNat 32 (bits (t.s (fA w)) 0 16))) 1 none

/-- CLEN. -/
def execClen (n : Nat) (s : State) : Host.Outcome State Fault Refusal := .next (s.issueWhen n 0x55 clenReady (clenBody n))

end Sys2Proof.Machine
end

