-- ==== Sys2Proof/Machine/SowerUnit.lean ====
section
/-!
DEFINITION. Machine/SowerUnit.lean: sampling draws, dropout masks (R206, R211 to R214, R217, R289) and the wait for the
completion of a tile's operations (R290).
-/

namespace Sys2Proof.Machine

/-- Class field of SDRAW and SDROP. -/
def swrClass (w : BitVec 64) : Nat := bits w 4 4

/-- Other draws wait while an issue with W = 256 streams (R188, R217): when one accepted at `at_` begins. -/
def Tile.drawStart (t : Tile) (at_ : Nat) : Nat :=
  if t.chaff.any fun o => decide (o.kind = .ciss) && decide (cWidth o.word = 3) &&
      (o.started.any fun k => decide (k ≤ at_) && decide (at_ < k + 2 ^ o.x.toNat)) then
    t.chaffStreamEnd
  else at_

/-- SDRAW (R211, R214, R289): the class is checked before the stream. -/
def sdrawBody (n : Nat) (s : State) (t : Tile) (w : BitVec 64) : Issued :=
  if swrClass w ≠ classSample then .fault cSwrClass 0
  else if bit (t.s (fA w)) 31 then .fault cSwrStream 0
  else .retire (s.modTile n fun t => { t with sower := t.sower ++
    [{ kind := .sdraw, pc := t.pc, word := w, x := t.s (fA w), y := t.s (fB w), z := t.s (fC w), issued := s.now,
       started := some (t.drawStart s.now) }] }) 1 none

/-- SDRAW. -/
def execSdraw (n : Nat) (s : State) : Host.Outcome State Fault Refusal := .next (s.issue n 0x58 (sdrawBody n))

/-- SDROP waits while an earlier SDROP of the tile is incomplete (R272). -/
def sdropReady (_ : State) (t : Tile) (_ : BitVec 64) : Option Nat :=
  if t.sower.any fun o => decide (o.kind = .sdrop) then none else some 0

/-- The checks of SDROP (R214, R228, R274, R289). -/
def State.sdropFault (s : State) (n : Nat) (w : BitVec 64) (a : BitVec 256) (stream : BitVec 32) : Option (Nat × Nat) :=
  match s.descFault (n / 64) a (dFormat a) (fun f => decide (f = fBf16)) false false with
  | some c => some (c, 0)
  | none =>
    if swrClass w ≠ classDropout then some (cSwrClass, 0)
    else if bit stream 31 then some (cSwrStream, 0)
    else (lowestFailing (ownStore n) (elemRanges a fBf16 (dExt0 a) (dExt1 a) false)).map fun x => (cMovAddr, x)

/-- SDROP (R289). -/
def sdropBody (n : Nat) (s : State) (t : Tile) (w : BitVec 64) : Issued :=
  match s.sdropFault n w (t.t (fA w)) (t.s (fB w)) with
  | some (c, dpa) => .fault c dpa
  | none => .retire (s.modTile n fun t => { t with sower := t.sower ++
      [{ kind := .sdrop, pc := t.pc, word := w, a := t.t (fA w), y := t.s (fB w), z := t.s (fC w), issued := s.now,
          started := some (t.drawStart s.now) }] }) 1 none

/-- SDROP. -/
def execSdrop (n : Nat) (s : State) : Host.Outcome State Fault Refusal := .next (s.issueWhen n 0x59 sdropReady (sdropBody n))

/-- STEP in force for paddock `p` (R209). -/
def State.sowerStepOf (s : State) (p : Nat) : BitVec 28 := BitVec.ofNat 28 (s.field (.sowerStep p) 0 28)

/-- The word a sampling draw brings (R211, R213). -/
def State.drawWord (s : State) (p : Nat) (o : UnitOp) : BitVec 32 :=
  word32 (sower (s.pdk p).sowerKey (sowerIndexed classSample (s.sowerStepOf p) o.x (o.z ++ o.y))) (bits o.word 0 2)

/-- An element under a dropout mask with random bits `u` (R289). -/
def dropElement (theta factor : BitVec 16) (u v : BitVec 16) : BitVec 16 :=
  if u.toNat < theta.toNat then 0 else toBfKeep ((bf v).mul (bf factor))

/-- The rows of a masked tensor (R213, R289). -/
def State.dropRows (s : State) (p : Nat) (o : UnitOp) : List (List (BitVec 16)) :=
  let theta := BitVec.ofNat 16 (bits o.z 0 16)
  let factor := BitVec.ofNat 16 (bits o.z 16 16)
  (s.bfRows p o.a).zipIdx.map fun r => r.1.zipIdx.map fun v =>
    dropElement theta factor (sowerElement (s.pdk p).sowerKey classDropout (s.sowerStepOf p) o.y (r.2 * dExt0 o.a + v.2)) v.1

/-- The rows that SDROP writes, with their addresses. -/
def State.dropParts (s : State) (p : Nat) (o : UnitOp) : List (Nat × List Byte) :=
  (s.dropRows p o).zipIdx.map fun r => (rowAt o.a r.2, r.1.flatMap fun v => leBytes 2 v.toNat)

/-- The planes SDROP reads: its own destination. -/
def dropReads (o : UnitOp) : List PlaneRead :=
  (List.range (dExt1 o.a)).map fun r => { addr := rowAt o.a r, len := 2 * dExt0 o.a, dst := fun i => rowAt o.a r + i }

/-- The first non-finite element of a masked tensor, row-major over its extents (R88). -/
def State.dropNonFinite (s : State) (p : Nat) (o : UnitOp) : Option Nat := (s.dropRows p o).flatten.findIdx? bfNonFinite

/-- SOWER_OPERATION_COMPLETE (R213, R217, R289): the oldest draw or mask of the tile completes. -/
def State.completeSower (s : State) (n : Nat) : State :=
  let t := s.tile n
  match t.sower with
  | [] => s
  | o :: rest =>
    let p := s.tilePaddock n
    let s := s.advanceTo (o.started.getD o.issued + o.sowerTime)
    let s := s.modTile n fun t => { t with sower := rest }
    if o.kind = .sdraw then s.modTile n fun t => t.setS (fD o.word) (s.drawWord p o)
    else
      let (s, bad) := s.readPlanes (dropReads o)
      let parts := s.dropParts p o
      let nf := s.dropNonFinite p o
      match bad with
      | some (dst, w) => (s.writePieces p (piecesBefore dst parts)).opFault n cMovAddr w o
      | none => (s.deliver n o p (unitPieces parts)).nonFiniteAt n o nf

/-- SOWER_OPERATION_COMPLETE. -/
def execSowerOperationComplete (n : Nat) (env : Env) (s : State) : Host.Outcome State Fault Refusal :=
  .next (s.whenRunning fun s => (s.takeEnv env).completeSower n)

/-- Operations of the masked units that the tile issued and that are not complete (R290): repeats of the agreement watch are
not counted. -/
def Tile.unitsBusy (t : Tile) (mask : Nat) : Bool :=
  (decide (mask % 2 = 1) && !t.fwa.isEmpty) ||
  (decide (mask / 2 % 2 = 1) && (t.bwa.any fun o => decide (o.kind ≠ .watchProduct))) ||
  (decide (mask / 4 % 2 = 1) && !t.hame.isEmpty) ||
  (decide (mask / 8 % 2 = 1) && !t.chaff.isEmpty) ||
  (decide (mask / 16 % 2 = 1) && !t.sower.isEmpty)

/-- WAITU retires once the masked units have completed what came before it (R290). -/
def waituReady (_ : State) (t : Tile) (w : BitVec 64) : Option Nat :=
  if t.unitsBusy (bits w 0 5) then none else some (if bit w 3 then t.listDone else 0)

/-- WAITU. -/
def execWaitu (n : Nat) (s : State) : Host.Outcome State Fault Refusal :=
  .next (s.issueWhen n 0x60 waituReady fun s _ _ => .retire s 1 none)

end Sys2Proof.Machine
end

