-- ==== Sys2Proof/Machine/Admit.lean ====
section
/-!
DEFINITION. Machine/Admit.lean: the admission of collectives (R317 to R323, R338, R513) and of tether contracts (R361, R362, R368, R406).
-/

namespace Sys2Proof.Machine

/-! ### Device memory of a paddock -/

/-- All of [a, a + n) lies in regions that paddock `p` owns, or in SRAM of sheaves in its mask. -/
def State.ownSpan (s : State) (p a n : Nat) : Bool :=
  if a < 2 ^ 39 then
    decide (a + n ≤ 2 ^ 39) && (span (a / 2 ^ 30) ((a + n - 1) / 2 ^ 30 + 1 - a / 2 ^ 30)).all fun r =>
      decide ((s.region r).state = .owned) && decide ((s.region r).owner.toNat = p)
  else
    match sheafAt a, sheafAt (a + n - 1) with
    | some x, some y => (span x (y + 1 - x)).all fun m => bit (s.mask p) m
    | _, _ => false

/-- Device memory named by [a, a + n) belongs to paddock `p`; what lies in no region and no sheaf is judged access by access (R512). -/
def State.belongs (s : State) (p a n : Nat) : Bool :=
  decide (n = 0) || (decide (2 ^ 39 ≤ a) && (sheafAt a).isNone) || s.ownSpan p a n

/-- An address lies in a sheaf bank outside the Silage window's range (R319). -/
def inSheafBank (a : Nat) : Bool :=
  decide (0x200000000000 ≤ a) && decide (a < 0x200000000000 + 400 * 0x400000) && decide ((a - 0x200000000000) % 0x400000 < 0x200000)

/-- An address lies in SRAM of a sheaf that paddock `p` alone holds. -/
def State.ownUnshared (s : State) (p a : Nat) : Bool :=
  match sheafAt a with
  | some m => decide (s.holders m = [p])
  | none => false

/-! ### The collective descriptor (R318, R319, R338, R513) -/

/-- Bytes of a descriptor. -/
def descriptorBytes : Nat := 128

/-- Collectives admitted and incomplete at most (R317). -/
def maxColls : Nat := 256

/-- A member-table entry: tether and chip ID (R319). -/
def memberOf (bs : List Byte) (i : Nat) : Nat × Nat :=
  let v : BitVec 32 := BitVec.ofNat 32 (leNat ((bs.drop (4 * i)).take 4))
  (bits v 16 12, bits v 0 16)

/-- A permute-table entry (R338). -/
def permOf (bs : List Byte) (i : Nat) : PermEntry :=
  let w (k : Nat) : BitVec 64 := recordWord bs (4 * i + k)
  { destRank := bits (w 0) 48 12, src := BitVec.ofNat 48 (bits (w 0) 0 48), dst := BitVec.ofNat 48 (bits (w 1) 0 48),
    count := bits (w 2) 0 32 }

/-- The collective that a descriptor describes (R318), without its tables. -/
def collOf (id p desc : Nat) (bs : List Byte) : Coll :=
  let w (k : Nat) : BitVec 64 := recordWord bs k
  let a (k : Nat) : BitVec 48 := BitVec.ofNat 48 (bits (w k) 0 48)
  { id := id, paddock := p, descDpa := BitVec.ofNat 48 desc, tag := BitVec.ofNat 16 (bits (w 0) 48 16), kind := bits (w 0) 44 4,
    gmode := bits (w 0) 42 2, pM1 := bits (w 0) 28 12, rank := bits (w 0) 16 12, window := bits (w 0) 0 12, members := [],
    src := a 2, dst := a 3, version := a 4, vtable := a 5, chunks := bits (w 6) 24 20, gentry := bits (w 6) 16 8, gsheaf := bits (w 6) 0 9,
    membersDpa := a 1, gscale := BitVec.ofNat 16 (bits (w 7) 48 16), first := BitVec.ofNat 40 (bits (w 7) 0 40), ready := a 8,
    deadline := bits (w 9) 48 16, done := a 9, readyCount := BitVec.ofNat 32 (bits (w 10) 0 32), perms := [], step := 0, key := 0,
    admitted := 0 }

/-- DPA of the member table. -/
def membersAt (bs : List Byte) : Nat := bits (recordWord bs 1) 0 48

/-- A list has an element twice. -/
def hasTwice (xs : List Nat) : Bool := decide (xs.eraseDups.length < xs.length)

/-- A DPA or record range is not aligned as its field states. -/
def Coll.misaligned (c : Coll) (members : Nat) : Bool :=
  decide (members % 32 ≠ 0) || decide (c.ready.toNat % 4 ≠ 0) || decide (c.done.toNat % 8 ≠ 0) || decide (c.first.toNat % 8 ≠ 0) ||
    (decide (c.kind = kindReduce) && decide (c.dst.toNat % 64 ≠ 0)) || (decide (c.kind = kindGather) && decide (c.src.toNat % 64 ≠ 0)) ||
    c.perms.any fun e => decide (e.src.toNat % 64 ≠ 0) || decide (e.dst.toNat % 64 ≠ 0) || decide (e.count % 8 ≠ 0)

/-- The conditions of R513 that fail, in the order of its table. -/
def State.collFaults (s : State) (c : Coll) (members : Nat) : List Bool :=
  let chips := c.members.map Prod.snd
  let known := decide (c.kind = kindReduce) || decide (c.kind = kindGather) || decide (c.kind = kindPermute)
  [decide (c.rank ≤ c.pM1) && decide ((c.members.getD c.rank (0, 0)).2 ≠ s.chipId),
   hasTwice chips,
   decide (c.pM1 < c.rank),
   c.misaligned members,
   decide (bits c.gscale 7 8 = 255),
   s.colls.any (fun x => decide (x.paddock = c.paddock) && decide (x.tag = c.tag)),
   !inSheafBank c.ready.toNat,
   !known,
   decide (c.gmode = 3) || (decide (c.kind ≠ kindGather) && decide (c.gmode ≠ 0)),
   c.takesSlots && (decide (c.window = 0) || decide (2048 < c.window)),
   decide (399 < c.gsheaf)]

/-- The number of the first condition that fails (R513). -/
def firstFault (xs : List Bool) : Option Nat := (xs.findIdx? id).map fun i => i + 1

/-- A tether that a collective may name: of paddock `p`, not CLOSED, and formed or still free to form; a stale part forms none, and
none is formed with a peer that has shown itself stale (R319, R351). -/
def State.tetherUsable (s : State) (p t : Nat) : Bool :=
  let x := s.tether t
  decide (x.paddock = p) && decide (x.state ≠ .closed) && !(decide (x.state = .opening) && (s.staleBit || x.peerStale))

/-- A tether, sheaf or region of the collective does not belong to its paddock (R319). -/
def State.collForeign (s : State) (c : Coll) (members : Nat) : Bool :=
  let p := c.paddock
  (c.peersOf.any fun m => !s.tetherUsable p m.2) ||
    (((members, 4 * c.count) :: c.reads ++ c.writes).any fun r => !s.belongs p r.1 r.2) ||
    !s.ownUnshared p c.ready.toNat || (decide (c.kind = kindReduce) && !bit (s.mask p) c.gsheaf)

/-- A table that a descriptor names: one in a region or sheaf of another paddock is refused with ADM_OWNER (R319), and one that
cannot be read fails (R388). -/
def State.readTable (s : State) (p a n : Nat) : State × (Answer ⊕ List Byte) :=
  if !s.belongs p a n then (s, .inl (.refused noteOwner))
  else match s.readOperand p a n with
    | (s, none) => (s, .inl (.failed noteOperand))
    | (s, some bs) => (s, .inr bs)

/-- The collective's descriptor and tables, or the answer to one that cannot be read (R317, R319, R388). -/
def State.readColl (s : State) (p desc id : Nat) : State × (Answer ⊕ Coll × Nat) :=
  match s.readOperand p desc descriptorBytes with
  | (s, none) => (s, .inl (.failed noteOperand))
  | (s, some bs) =>
    let c := collOf id p desc bs
    match s.readTable p (membersAt bs) (4 * c.count) with
    | (s, .inl a) => (s, .inl a)
    | (s, .inr ms) =>
      let c := { c with members := (List.range c.count).map (memberOf ms) }
      if c.kind ≠ kindPermute ∨ c.chunks = 0 then (s, .inr (c, membersAt bs))
      else
        match s.readTable p c.src.toNat (32 * c.chunks) with
        | (s, .inl a) => (s, .inl a)
        | (s, .inr ps) => (s, .inr ({ c with perms := (List.range c.chunks).map (permOf ps) }, membersAt bs))

/-- A collective with CHUNKS = 0 completes at admission (R320). -/
def State.finishEmpty (s : State) (c : Coll) : State :=
  let s := { s with colls := s.colls ++ [c] }.wteWrite c.id c.paddock c.done.toNat (leBytes 8 (c.completion false).toNat)
  { s.modPdk c.paddock (fun x => { x with lastTag := c.tag }) with colls := s.colls.filter fun x => decide (x.id ≠ c.id) }

/-- A start report that a peer sent before the collective was admitted here (R324). -/
def State.takeEarly (s : State) (id : Nat) (tag : BitVec 16) (m : Nat × Nat) : State :=
  match (s.tether m.2).early.find? fun e => decide (e.1 = tag.toNat) with
  | none => s
  | some e =>
    (s.modColl id fun c => { c with peers := Tbl.insert c.peers m.1 (0, e.2.toNat) }).modTether m.2 fun x =>
      { x with early := Tbl.drop x.early tag.toNat }

/-- The collective is admitted. -/
def State.admitColl (s : State) (c : Coll) : State :=
  let p := c.paddock
  let c := { c with key := (s.pdk p).sowerKey, step := s.sowerStepOf p, admitted := s.stride, isReady := decide (c.readyCount = 0),
                    sendJ := if c.kind = kindReduce then 1 else 0 }
  let s := { s with colls := s.colls ++ [c] }
  c.peersOf.foldl (fun s m => s.takeEarly c.id c.tag m) s

/-- Admission of COLLECTIVE (R55, R317 to R323). -/
def State.collective (s : State) (f : Fetched) : State × Answer :=
  let id := s.nextColl
  match { s with nextColl := id + 1 }.readColl f.paddock f.cmd.arg id with
  | (s, .inl a) => (s, a)
  | (s, .inr (c, members)) =>
    match firstFault (s.collFaults c members) with
    | some k => (s, .illegal k)
    | none =>
      if c.takesSlots && decide (s.slotShare c.paddock = 0) then (s, .refused noteSlots)
      else if s.collForeign c members then (s, .refused noteOwner)
      else if c.chunks = 0 then (s.finishEmpty c, .zeroLength)
      else if maxColls ≤ s.colls.length then (s, .failed noteCollFull)
      else (s.admitColl c, .ok)

/-- COLLECTIVE. -/
def execCollective (env : Env) (s : State) : Host.Outcome State Fault Refusal :=
  .next (s.whenRunning fun s => (s.takeEnv env).command 0x20 false none fun s c _ => s.collective c)

/-! ### Tether contracts (R361, R362) -/

/-- A valid PORT_j of a contract: port and entry count. -/
def contractPorts (w : BitVec 64) : List (Nat × Nat) :=
  ((List.range 4).filter fun j => bit w (16 * j + 15)).map fun j => (bits w (16 * j + 10) 5, bits w (16 * j) 10)

/-- The tether that a contract describes. -/
def contractOf (p : Nat) (bs : List Byte) : Tether :=
  let w (k : Nat) : BitVec 64 := recordWord bs k
  let a (k : Nat) : BitVec 48 := BitVec.ofNat 48 (bits (w k) 0 48)
  let ring := !bit (w 0) 24
  let base : Tether :=
    { state := .opening, paddock := p, peerChip := BitVec.ofNat 16 (bits (w 0) 48 16), peerTether := BitVec.ofNat 12 (bits (w 0) 32 12),
      boundM1 := BitVec.ofNat 3 (bits (w 0) 28 3), isProtected := bit (w 0) 25, collective := !ring,
      ports := (contractPorts (w 1)).foldl (fun v x => withBit v x.1 true) 0 }
  if ring then
    { base with sendRing := a 2, tail := a 3, recvRing := a 4, recvCount := a 5, consumedAt := a 6,
                ringFrames := BitVec.ofNat 16 (bits (w 6) 48 16) }
  else base

/-- A contract holds a reserved encoding (R361): a port that does not exist, an entry count outside 1 to 1,000, or an empty ring. -/
def contractReserved (x : Tether) (ports : List (Nat × Nat)) : Bool :=
  (ports.any fun q => decide (24 ≤ q.1) || decide (q.2 = 0) || decide (entryCount < q.2)) ||
    (!x.collective && decide (x.ringFrames = 0))

/-- The ranges of a contract's rings and counts. -/
def Tether.ranges (x : Tether) : List (Nat × Nat) :=
  if x.collective then []
  else
    let n := frameBytes * x.ringFrames.toNat
    [(x.sendRing.toNat, n), (x.tail.toNat, 4), (x.recvRing.toNat, n), (x.recvCount.toNat, 4), (x.consumedAt.toNat, 4)]

/-- A DPA of a contract does not belong to the paddock, or TAIL or CONSUMED does not lie in a bank of a sheaf that is its alone (R362). -/
def State.contractForeign (s : State) (x : Tether) : Bool :=
  (x.ranges.any fun r => !s.ownSpan x.paddock r.1 r.2) ||
    (!x.collective && [x.tail.toNat, x.consumedAt.toNat].any fun a => !inSheafBank a || !s.ownUnshared x.paddock a)

/-- Entries that the tethers of paddock `p` hold on port `n` (R406). -/
def State.entriesHeld (s : State) (p n : Nat) : Nat :=
  ((s.port n).gait.filter fun e => gaitValid e.2 && decide ((s.tether (gaitTether e.2)).paddock = p)).length

/-- The ports' counts assigned one after the other; none where entries run short (R362). -/
def State.assignAll (s : State) (t : Nat) (prot : Bool) : List (Nat × Nat) → Option State
  | [] => some s
  | q :: rest =>
    match s.pickEntries q.1 q.2 prot with
    | none => none
    | some es => (s.assignEntries q.1 t prot es).assignAll t prot rest

/-- Entries that the tethers of paddock `p` may hold on a port (R406): LINK_SHARE in force, and as the commands before leave it, which
may come into force at the next commit or not (R410, R417). -/
def State.shareBound (s : State) (p : Nat) : Nat := min (s.share p).toNat (s.composed.share p).toNat

/-- The contract is admitted with its entries, or is refused with ADM_SLOTS (R362, R368, R406).  LATE of the index counts on (R486). -/
def State.placeTether (s : State) (t : Nat) (x : Tether) (ports : List (Nat × Nat)) : Option State :=
  let (v, s') := s.draw
  let (w, s') := s'.draw
  let x := { x with openStride := s.stride, ownNonce := v ++ w, lateCount := (s.tether t).lateCount }
  match (s'.modTether t fun _ => x).assignAll t x.isProtected ports with
  | none => none
  | some s' =>
    let b := s'.boundMin t x.isProtected
    if x.boundM1.toNat + 1 < b then none
    else if portNumbers.any fun n => decide (s'.shareBound x.paddock < s'.entriesHeld x.paddock n) && bit x.ports n then none
    else some (s'.modTether t fun x => { x with bminM1 := BitVec.ofNat 3 (b - 1), slots := (s'.entryCounts t).1 })

/-- Admission of TETHER_OPEN (R55, R361, R362). -/
def State.tetherOpen (s : State) (f : Fetched) : State × Answer :=
  let p := f.paddock
  match s.readOperand p f.cmd.arg 64 with
  | (s, none) => (s, .failed noteOperand)
  | (s, some bs) =>
    let t := bits (recordWord bs 0) 0 12
    let ports := contractPorts (recordWord bs 1)
    let x := contractOf p bs
    if !inField s then (s, .failed noteLifecycle)
    else if contractReserved x ports then (s, .illegal)
    else if (s.tether t).state ≠ .closed then (s, .refused noteOwner)
    else
      match s.placeTether t x ports with
      | none => (s, .refused noteSlots)
      | some s' => if s.contractForeign x then (s, .refused noteOwner) else (s', .ok)

/-- TETHER_OPEN. -/
def execTetherOpen (env : Env) (s : State) : Host.Outcome State Fault Refusal :=
  .next (s.whenRunning fun s => (s.takeEnv env).command 0x30 false none fun s c _ => s.tetherOpen c)

end Sys2Proof.Machine
end

