-- ==== Sys2Proof/Machine/Programs.lean ====
section
/-!
DEFINITION. Machine/Programs.lean: PROGRAM_SET and RESTART from admission to the start of the tiles (R54, R55, R66, R223, R225, R240 to
R242, R444, R445), and the opening of the program window.
-/

namespace Sys2Proof.Machine

/-! ### Program tables (R242, R388) -/

/-- Tiles of the part. -/
def tileCount : Nat := 25600

/-- Bytes of a program-table entry. -/
def tableBytes : Nat := 16

/-- A program table's entries: tile number and image DPA. -/
def tableOf (bs : List Byte) (n : Nat) : List (Nat × BitVec 48) :=
  (List.range n).map fun i => (bits (recordWord bs (2 * i + 1)) 0 15, BitVec.ofNat 48 (bits (recordWord bs (2 * i)) 0 48))

/-- A header holds a reserved encoding (R240): LENGTH or BUDGET 0, or ENTRY not below LENGTH. -/
def ImageHeader.reserved (h : ImageHeader) : Bool := decide (h.length = 0) || decide (h.budget = 0) || decide (h.length ≤ h.entry)

/-- The range of a program with a given header. -/
def ImageHeader.range (h : ImageHeader) (p queue : Nat) : ProgRange :=
  { paddock := p, origin := BitVec.ofNat 11 h.origin, length := BitVec.ofNat 12 h.length, budget := BitVec.ofNat 17 h.budget,
    entry := BitVec.ofNat 11 h.entry, queue := queue }

/-- Part of an image can be read: it lies where images may, host memory being reached while the link is trained, and no unit of it is
uncorrectable (R242, R473). -/
def State.imageReadable (s : State) (p a n : Nat) : State × Bool :=
  if !s.imagePlaced p a n || (decide (hostBase ≤ a + n - 1) && !s.host.up) then (s, false)
  else
    match s.checkSource a n with
    | (s, some _) => (s, false)
    | (s, none) => (s, true)

/-- The images of a PROGRAM_SET, their headers read in table order; or the answer of the first entry that fails: a header that
cannot be read, a reserved one, or an image that does not lie whole where images may (R240, R242). -/
def State.readImages (s : State) (p queue : Nat) : Nat → List (Nat × BitVec 48) → State × (Answer ⊕ List ProgImage)
  | _, [] => (s, .inr [])
  | i, e :: rest =>
    match s.imageReadable p e.2.toNat headerBytes with
    | (s, false) => (s, .inl (.failed noteOperand i))
    | (s, true) =>
      let h := s.imageHeader p e.2.toNat
      if h.reserved then (s, .inl (.illegal i))
      else if !s.imagePlaced p e.2.toNat (headerBytes + 8 * h.length) then (s, .inl (.failed noteOperand i))
      else
        match s.readImages p queue (i + 1) rest with
        | (s, .inl a) => (s, .inl a)
        | (s, .inr is) => (s, .inr ({ tile := e.1, dpa := e.2, range := h.range p queue } :: is))

/-- The program of paddock `p` that tile `n` holds. -/
def State.programOf (s : State) (p n : Nat) : Option ProgRange := (s.tile n).ranges.find? fun r => decide (r.paddock = p)

/-- The programs that a RESTART names; or the answer of the first entry that names a tile without one (R242). -/
def State.findPrograms (s : State) (p : Nat) : Nat → List (Nat × BitVec 48) → Answer ⊕ List ProgImage
  | _, [] => .inr []
  | i, e :: rest =>
    match (if e.1 < tileCount then s.programOf p e.1 else none) with
    | none => .inl (.refused noteOwner i)
    | some r =>
      match s.findPrograms p (i + 1) rest with
      | .inl a => .inl a
      | .inr is => .inr ({ tile := e.1, range := r } :: is)

/-! ### Admission (R55) -/

/-- Ranges claimed on tile `n`: programs loaded, and programs of loads admitted. -/
def State.claims (s : State) (n : Nat) : List ProgRange :=
  (s.tile n).ranges ++ (s.progs.filter fun c => decide (c.kind = .load)).flatMap fun c =>
    (c.images.filter fun i => decide (i.tile = n)).map ProgImage.range

/-- Two ranges meet. -/
def ProgRange.meets (x y : ProgRange) : Bool :=
  decide (x.origin.toNat < y.origin.toNat + y.length.toNat) && decide (y.origin.toNat < x.origin.toNat + x.length.toNat)

/-- The paddock holds a tile's sheaf. -/
def State.holdsTile (s : State) (p n : Nat) : Bool := decide (n < tileCount) && bit (s.mask p) (n / 64)

/-- A sheaf is, or with the changes admitted will be, shared. -/
def State.sharedSoon (s : State) (m : Nat) : Bool := s.sharedSheaf m || s.composed.sharedSheaf m

/-- ADM_SWITCH (R66, R241): the range runs past the instruction store or meets another paddock's, or the program would keep contents on
a shared sheaf. -/
def State.notSwitchable (s : State) (p : Nat) (load : Bool) (i : ProgImage) : Bool :=
  decide (2048 < i.range.origin.toNat + i.range.length.toNat) ||
    (s.claims i.tile).any (fun r => decide (r.paddock ≠ p) && r.meets i.range) ||
    (s.sharedSoon (i.tile / 64) && (if load then s.imageKeeps p i else (s.tile i.tile).rangeKeeps i.range))

/-- Sheaves that would be active: active ones, those queued for release, and those of the named tiles (R445). -/
def State.wouldBeActive (s : State) (named : BitVec 400) : Nat :=
  ((List.range 400).filter fun m => (s.sheaf m).active || bit s.power.releaseQ m || bit named m).length

/-- The sheaves of some tiles. -/
def sheafSet (tiles : List Nat) : BitVec 400 := tiles.foldl (fun v n => withBit v (n / 64) true) 0

/-- The index of the first image that satisfies a condition. -/
def firstImage (is : List ProgImage) (f : ProgImage → Bool) : Option Nat := (is.zipIdx.find? fun x => f x.1).map Prod.snd

/-- The checks of R55 in the order of its table: the first refusal, if any. -/
def State.programRefusal (s : State) (p : Nat) (load : Bool) (is : List ProgImage) : Option Answer :=
  let held := sheafSet ((is.filter fun i => s.holdsTile p i.tile).map ProgImage.tile)
  match firstImage is fun i => decide (98000 < i.range.budget.toNat) with
  | some k => some (.refused noteBudget k)
  | none =>
    if 10 * s.field .pwrCap 0 12 < chargeBase + chargeIdle * s.wouldBeActive held then some (.refused notePower)
    else
      match firstImage is (s.notSwitchable p load) with
      | some k => some (.refused noteSwitch k)
      | none => (firstImage is fun i => !s.holdsTile p i.tile).map fun k => .refused noteOwner k

/-- Sheaves of named tiles queue for release, and leave the queue of returns (R444). -/
def State.queueReleases (s : State) (is : List ProgImage) : State :=
  let named := sheafSet (is.map ProgImage.tile)
  let gated := (setIndices named).foldl (fun (v : BitVec 400) m => if (s.sheaf m).active then v else withBit v m true) 0
  { s with power := { s.power with releaseQ := s.power.releaseQ ||| gated, returnQ := s.power.returnQ &&& ~~~named } }

/-- A program set or restart that passes its checks. -/
def State.admitPrograms (s : State) (c : Fetched) (id : Nat) (kind : ProgKind) (is : List ProgImage) : State × Answer :=
  let load := decide (kind = .load)
  match s.programRefusal c.paddock load is with
  | some a => (s, a)
  | none =>
    let x : ProgCmd := { kind := kind, paddock := c.paddock, queue := c.queue, stride := s.stride, images := is, reply := id }
    ({ s with progs := s.progs ++ [x] }.queueReleases is, { settled := !load, later := true })

/-- PROGRAM_SET (R242). -/
def State.programSet (s : State) (c : Fetched) (id : Nat) : State × Answer :=
  match s.readOperand c.paddock c.cmd.arg (tableBytes * c.cmd.count) with
  | (s, none) => (s, .failed noteOperand)
  | (s, some bs) =>
    match s.readImages c.paddock c.queue 0 (tableOf bs c.cmd.count) with
    | (s, .inl a) => (s, a)
    | (s, .inr is) => s.admitPrograms c id .load is

/-- PROGRAM_SET. -/
def execProgramSet (env : Env) (s : State) : Host.Outcome State Fault Refusal :=
  .next (s.whenRunning fun s => (s.takeEnv env).command 0x10 false (some none) State.programSet)

/-- RESTART (R242). -/
def State.restart (s : State) (c : Fetched) (id : Nat) : State × Answer :=
  match s.readOperand c.paddock c.cmd.arg (tableBytes * c.cmd.count) with
  | (s, none) => (s, .failed noteOperand)
  | (s, some bs) =>
    match s.findPrograms c.paddock 0 (tableOf bs c.cmd.count) with
    | .inl a => (s, a)
    | .inr is => s.admitPrograms c id .restart is

/-- RESTART. -/
def execRestart (env : Env) (s : State) : Host.Outcome State Fault Refusal :=
  .next (s.whenRunning fun s => (s.takeEnv env).command 0x11 false (some none) State.restart)

/-! ### The program window (R223, R225, R242, R444) -/

/-- A load that names tile `n` for paddock `p` has not been written yet. -/
def State.loadPending (s : State) (p n : Nat) : Bool :=
  s.progs.any fun c => decide (c.kind = .load) && decide (c.paddock = p) && c.images.any fun i => decide (i.tile = n)

/-- The tile starts at ENTRY with all registers and length records zero (R242). -/
def Tile.start (t : Tile) (r : ProgRange) (at_ : Nat) : Tile :=
  { t with
    seqState := .running, gtcHi := 0, pc := r.origin + r.entry, sregs := [], aregs := [], preds := 0, tregs := [], loops := [], landing := [],
    lengths := [], program := some r, nextIssue := at_, fresh := t.fresh.filter fun f => decide (f.1 ≠ r.paddock) }

/-- The tile resumes after its stride wait: s16 to s31, a8 to a15, t0 to t15 and GTC_HI read as zero (R225, R257). -/
def Tile.resume (t : Tile) (at_ : Nat) : Tile :=
  { t with
    seqState := .running, nextIssue := at_, landing := [], loads := [], tregs := [], gtcHi := 0,
    sregs := t.sregs.filter (fun r => decide (r.1 < 16)), aregs := t.aregs.filter fun r => decide (r.1 < 8) }

/-- The paddock whose tiles may run on sheaf `m` in this program window (R60, R61, R442, R449, R470). -/
def State.openFor (s : State) (m : Nat) : Option Nat :=
  match s.runs m with
  | none => none
  | some p =>
    if (s.sheaf m).active && !s.isolated m && !s.sheafFailed m && decide ((s.sheaf m).ran = some p) && !s.isHeld p then some p else none

/-- Tile `n` resumes: a back-edge of the stride wait's body end is taken now (R253); a program whose last instruction the wait
was faults with TILE_BRANCH, as at any other instruction (R252). -/
def State.resumeTile (s : State) (n : Nat) : State :=
  match (s.tile n).afterResume with
  | some (pc, loops) => s.modTile n fun t => { t.resume s.now with pc := pc, loops := loops }
  | none => (s.modTile n fun t => { t.resume s.now with pc := t.pc - 1 }).tileFault n cBranch 0

/-- Tile `n` at position 2,000: it starts, resumes, or stays (R223). -/
def State.openTile (s : State) (n : Nat) : State :=
  match s.openFor (n / 64) with
  | none => s
  | some p =>
    let t := s.tile n
    if t.isFresh p then
      if t.startDueBy p s.stride && !s.loadPending p n then
        match s.programOf p n with
        | some r => s.modTile n fun t => t.start r s.now
        | none => s
      else s
    else if t.seqState = .waiting then s.resumeTile n
    else s

/-- Tiles that an admitted program set or restart names. -/
def State.namedTiles (s : State) : List Nat :=
  (s.progs.filter fun c => decide (c.kind ≠ .halt)).flatMap fun c => c.images.map ProgImage.tile

/-- Some tile of sheaf `m` runs or waits, for any paddock on it, or awaits a start (R444). -/
def State.sheafNeeded (s : State) (named : List Nat) (m : Nat) : Bool :=
  (tilesOfSheaf m).any fun n =>
    let t := s.tile n
    t.seqState.busy || (t.fresh.any fun f => f.2.isSome) || named.contains n ||
      (s.sharedSheaf m && (s.holders m).any fun p =>
        decide ((s.sheaf m).ran ≠ some p) && !t.isFresh p && (s.savedState p n).busy)

/-- The queues at position 2,000 (R444): an active sheaf that nothing needs queues for return, and a queued sheaf that meets the other
condition leaves its queue. -/
def State.queueReturns (s : State) : State :=
  let named := s.namedTiles
  let active := s.activeSheaves.filter fun m => !s.underTest m
  let idle := active.filter fun m => !s.sheafNeeded named m
  let keep := (setIndices s.power.releaseQ).filter fun m => s.sheafNeeded named m
  { s with power := { s.power with
      returnQ := idle.foldl (fun v m => withBit v m true) 0, releaseQ := keep.foldl (fun v m => withBit v m true) 0 } }

/-- PROGRAM_WINDOW_OPEN (R45, R223): position 2,000, once a stride. -/
def State.openWindow (s : State) : State :=
  if !s.time.windowDue then s
  else
    let s := s.unitsAct
    let s := { s with time := { s.time with windowDue := false } }.advancePos 2000
    ((s.tiles.map Prod.fst).foldl State.openTile s).queueReturns

/-- PROGRAM_WINDOW_OPEN. -/
def execProgramWindowOpen (s : State) : Host.Outcome State Fault Refusal := .next (s.whenRunning State.openWindow)

/-! ### Images written (R242) -/

/-- The index of the first image whose body cannot be read in full. -/
def State.unreadableBody (s : State) (p : Nat) : Nat → List ProgImage → State × Option Nat
  | _, [] => (s, none)
  | k, i :: rest =>
    match s.imageReadable p i.dpa.toNat (headerBytes + 8 * i.range.length.toNat) with
    | (s, false) => (s, some k)
    | (s, true) => s.unreadableBody p (k + 1) rest

/-- The tile with a program's instructions written into its store; the paddock holds one program on it. -/
def Tile.load (t : Tile) (r : ProgRange) (body : List (BitVec 64)) : Tile :=
  { t with
    store := body.zipIdx.foldl (fun m w => Tbl.put 0 m (r.origin.toNat + w.2) w.1) t.store,
    ranges := (t.ranges.filter fun x => decide (x.paddock ≠ r.paddock)) ++ [r] }

/-- One image written, if the paddock still holds the sheaf. -/
def State.loadImage (s : State) (p : Nat) (i : ProgImage) : State :=
  if s.holdsTile p i.tile then
    let body := s.imageBody p i
    let here := s.resident p i.tile
    s.modTile i.tile fun t => { t.load i.range body with program := if here then some i.range else t.program }
  else s

/-- A tile of a load that failed: it stays HALTED and holds no program; `here`: its context in place is that of the paddock. -/
def Tile.loadFailed (t : Tile) (p : Nat) (here : Bool) : Tile :=
  { t with
    program := if here then none else t.program,
    ranges := t.ranges.filter (fun r => decide (r.paddock ≠ p)),
    fresh := t.fresh.map fun f => if f.1 = p then (f.1, none) else f }

/-- PROGRAM_IMAGE_LOAD (R242): in the program window of the stride after its fetch, the oldest load stopped for is carried out, and its
reply settled. -/
def State.loadImages (s : State) : State :=
  match s.progs.find? fun c => decide (c.kind = .load) && decide (c.stride < s.stride) with
  | none => s
  | some c =>
    let s : State := s.openWindow
    let s : State := { s with progs := s.progs.filter fun (x : ProgCmd) => decide (x.reply ≠ c.reply) || decide (x.kind ≠ ProgKind.load) }
    match s.unreadableBody c.paddock 0 c.images with
    | (s, some k) =>
      let s := c.images.foldl (fun s i => s.modTile i.tile fun t => t.loadFailed c.paddock (s.resident c.paddock i.tile)) s
      s.settleReply c.reply resFailed noteOperand k
    | (s, none) => (c.images.foldl (fun s i => s.loadImage c.paddock i) s).settleReply c.reply 0 0 0

/-- PROGRAM_IMAGE_LOAD. -/
def execProgramImageLoad (env : Env) (s : State) : Host.Outcome State Fault Refusal :=
  .next (s.whenRunning fun s => (s.takeEnv env).loadImages)

end Sys2Proof.Machine
end

