-- ==== Sys2Proof/Machine/Boot.lean ====
section
/-!
DEFINITION. Machine/Boot.lean: releases and returns of sheaves (R442, R443), self-test (R466 to R472), the host link and its reset
(R380, R473), and the power-up reset (R459 to R468, R474).
-/

namespace Sys2Proof.Machine

/-! ### Releases, returns and test starts (R443, R471) -/

/-- Moves of one kind in a span of 1,000 positions. -/
def spanMoves : Nat := 4

/-- Sheaves under test at once. -/
def maxUnderTest : Nat := 8

/-- Spans of a stride. -/
def spanCount : Nat := 98

/-- A sheaf released: active, and charged as one that runs no paddock, since it was gated at position 2,000 (R442, R443, R447,
R454). -/
def State.releaseSheaf (s : State) (m : Nat) : State :=
  (s.modSheaf m fun x => { x with active := true }).chargeSheaf m chargeIdle none

/-- The test of a sheaf starts: it is charged as under test (R471). -/
def State.startTest (s : State) (m : Nat) : State :=
  let s := (s.modSheaf m fun x => { x with active := true }).chargeSheaf m chargeTest none
  { s with boot := { s.boot with jobs := s.boot.jobs.map fun j => if j.sheaf = m then { j with started := some s.now } else j } }

/-- A span of R443, counted from GTC 0. -/
def State.spanNumber (s : State) (i : Nat) : Nat := s.stride * spanCount + i

/-- SHEAF_ACTIVITY_SPAN (R443, R444, R471): the queues of R444 in ascending sheaf number, then test starts. -/
def State.activitySpan (s : State) (i : Nat) : State :=
  let s := s.openWindow
  if spanCount ≤ i ∨ i < s.time.nextSpan then s
  else
    let s := { s with time := { s.time with nextSpan := i + 1 } }.advancePos (2000 + 1000 * i)
    let out := ((setIndices s.power.releaseQ).filter fun m => !(s.sheaf m).active).take spanMoves
    let back := (setIndices s.power.returnQ).take spanMoves
    let under := (s.boot.jobs.filter fun j => j.started.isSome).length
    let tests := ((s.boot.jobs.filter fun j => j.started.isNone).take (min (spanMoves - out.length) (maxUnderTest - under))).map TestJob.sheaf
    let s := out.foldl State.releaseSheaf s
    let s := back.foldl (fun s m => s.modSheaf m fun x => { x with active := false }) s
    let s := { s with power := { s.power with
      returnSpan := s.spanNumber i, returned := back.length,
      releaseQ := out.foldl (fun v m => withBit v m false) s.power.releaseQ,
      returnQ := back.foldl (fun v m => withBit v m false) s.power.returnQ } }
    tests.foldl State.startTest s

/-- SHEAF_ACTIVITY_SPAN. -/
def execSheafActivitySpan (i : Nat) (s : State) : Host.Outcome State Fault Refusal :=
  .next (s.whenRunning fun s => s.activitySpan i)

/-! ### Self-test on command (R469 to R472) -/

/-- A list of sheaves in words 1 to 7 of a record (R409). -/
def sheafList (bs : List Byte) : BitVec 400 :=
  BitVec.ofNat 400 ((List.range 7).foldl (fun n w => n + (recordWord bs (w + 1)).toNat * 2 ^ (64 * w)) 0 % 2 ^ 400)

/-- A sheaf may not be tested (R470): it belongs to a paddock or soon will, is being tested, or is FAILED. -/
def State.untestable (s : State) (m : Nat) : Bool :=
  !(s.holders m).isEmpty || (s.changes.any fun c => !c.release && bit c.sheaves m) || s.isolated m || s.sheafFailed m

/-- An OUTER test may not run (R470): a paddock holds a sheaf, or a tether is not CLOSED. -/
def State.outerBusy (s : State) : Bool :=
  (paddockNumbers.any fun p => decide (s.mask p ≠ 0)) || s.tethers.any fun t => decide (t.2.state ≠ .closed)

/-- SELFTEST (R469, R470). -/
def State.selftest (s : State) (c : Fetched) (id : Nat) : State × Answer :=
  match s.readOperand c.paddock c.cmd.arg 64 with
  | (s, none) => (s, .failed noteOperand)
  | (s, some bs) =>
    let w := recordWord bs 0
    let kind : BitVec 2 := BitVec.ofNat 2 (bits w 0 2)
    let extended := bit w 2
    let outer := bit w 3
    let ms := setIndices (sheafList bs)
    let life := s.sec.fuses.lifecycle
    if kind = 0 then (s, .illegal)
    else if (extended || outer) && decide (life ≠ lifeBlank) && decide (life ≠ lifeReturned) then (s, .failed noteLifecycle)
    else if ms.any s.untestable || (outer && s.outerBusy) then (s, .refused noteOwner)
    else if ms.isEmpty && !outer then (s, .zeroLength)
    else
      let jobs := ms.map fun m => ({ sheaf := m, kind := kind, extended := extended, command := id } : TestJob)
      ({ s with boot := { s.boot with
          jobs := s.boot.jobs ++ jobs, outer := s.boot.outer || outer,
          tallies := if ms.isEmpty then s.boot.tallies else Tbl.put {} s.boot.tallies id { left := ms.length } } }, .ok)

/-- SELFTEST. -/
def execSelftest (env : Env) (s : State) : Host.Outcome State Fault Refusal :=
  .next (s.whenRunning fun s => (s.takeEnv env).command 0x50 true (some (some 1)) State.selftest)

/-- Strides that a test takes (R471). -/
def TestJob.strides (j : TestJob) : Nat :=
  (match j.kind with
   | 1 => 50
   | 2 => 75
   | _ => 125) * (if j.extended then 4 else 1)

/-- EVT_BST_FAIL. -/
def State.raiseTestFail (s : State) (m : Nat) (logic memory boot : Bool) : State :=
  s.raise srcFarrier evtBstFail (pack 128 [(0, 9, m), (9, 1, b2n logic), (10, 1, b2n memory), (11, 1, b2n boot)])

/-- A sheaf re-initialised (R472): every array cleared, every register of its window at its reset value, gated. -/
def State.reinitSheaf (s : State) (m : Nat) : State :=
  let s := (s.clearSheafMemory m).resetReg (.silageCtl m)
  { s with tiles := s.tiles.filter (fun t => decide (t.1 / 64 ≠ m)), sheaves := Tbl.drop s.sheaves m }

/-- The tally of a command after one of its sheaves; with the last one, EVT_BST_DONE (R472). -/
def State.tallyTest (s : State) (command : Nat) (failed : Bool) : State :=
  let x := Tbl.get {} s.boot.tallies command
  let y : TestTally := { passed := x.passed + b2n !failed, failed := x.failed + b2n failed, left := x.left - 1 }
  if y.left = 0 then
    { s with boot := { s.boot with tallies := Tbl.drop s.boot.tallies command } }.raise srcFarrier evtBstDone
      (pack 128 [(0, 9, y.passed), (16, 9, y.failed)])
  else { s with boot := { s.boot with tallies := Tbl.put {} s.boot.tallies command y } }

/-- A sheaf that ends its test is returned in the present span, unless the span has had its returns (R443, R471): the queues of R444
are served first. -/
def State.returnTested (s : State) : Option State :=
  let s := s.activitySpan ((max s.position 2000 - 2000) / 1000)
  let at_ := s.spanNumber ((s.position - 2000) / 1000)
  let n := if s.power.returnSpan = at_ then s.power.returned else 0
  if spanMoves ≤ n then none else some { s with power := { s.power with returnSpan := at_, returned := n + 1 } }

/-- SELFTEST_END (R471, R472): at the end of its fixed time, whatever the test found, in a span that has a return left for it (R443). -/
def State.endTest (s : State) (m : Nat) (logicOk memOk : Bool) : State :=
  match s.boot.jobs.find? fun j => decide (j.sheaf = m) && j.started.isSome with
  | none => s
  | some j =>
    let at_ := j.started.getD 0 + j.strides * strideLen
    match if s.now < at_ ∧ at_ / strideLen ≠ s.stride then none else (s.advanceTo at_).returnTested with
    | none => s
    | some s =>
      let logic := bit j.kind 0 && !logicOk
      let memory := bit j.kind 1 && !memOk
      let failed := logic || memory
      let s := s.reinitSheaf m
      let s := { s with boot := { s.boot with
        jobs := s.boot.jobs.filter fun x => decide (x.sheaf ≠ m),
        passed := satAdd s.boot.passed (b2n !failed), failed := satAdd s.boot.failed (b2n failed),
        failMask := if failed then withBit s.boot.failMask m true else s.boot.failMask } }
      let s := if failed then s.raiseTestFail m logic memory false else s
      s.tallyTest j.command failed

/-- SELFTEST_END. -/
def execSelftestEnd (m : Nat) (logicOk memOk : Bool) (s : State) : Host.Outcome State Fault Refusal :=
  .next (s.whenRunning fun s => s.endTest m logicOk memOk)

/-! ### The host link (R379, R380, R473) -/

/-- Payload of EVT_HOST_LINK. -/
def hostLinkPayload (width rate : Nat) (reset : Bool) : BitVec 128 := pack 128 [(0, 4, width), (4, 3, rate), (7, 1, b2n reset)]

/-- HOST_LINK_TRAIN (R379, R380): at a supported width and rate. -/
def State.trainHost (s : State) (width rate : Nat) : State :=
  if (width ≠ 8 ∧ width ≠ 4) ∨ rate = 0 ∨ 3 < rate then s
  else
    let s := { s with host := { s.host with up := true, width := width, rate := rate } }
    if width = 8 ∧ rate = 3 then s else s.raise srcHost evtHostLink (hostLinkPayload width rate false)

/-- HOST_LINK_TRAIN. -/
def execHostLinkTrain (width rate : Nat) (s : State) : Host.Outcome State Fault Refusal :=
  .next (s.whenRunning fun s => s.trainHost width rate)

/-- HOST_RESET (R473): replies and copies not yet written are dropped, and the queues are off from the next tick. -/
def State.resetHost (s : State) : State :=
  let gone := s.host.replies.map fun (r : Reply) => { r with dropped := true }
  { s with host := { s.host with
      up := false, width := 0, rate := 0, resetPending := true, slotsRead := [], copies := [], data := [], poisoned := false,
      replies := gone } }.raise srcHost evtHostLink (hostLinkPayload 0 0 true)

/-- HOST_RESET. -/
def execHostReset (s : State) : Host.Outcome State Fault Refusal := .next (s.whenRunning State.resetHost)

/-! ### Power-up (R459 to R468, R474) -/

/-- Fuse bits of two lists of words, each blown where it is blown in one of them. -/
def blowWords (f g : List (BitVec 256)) : List (BitVec 256) :=
  (List.range (max f.length g.length)).map fun i => f.getD i 0 ||| g.getD i 0

/-- The fuses of a part with more of them blown: a fuse once blown stays so, and LIFECYCLE and RB_MIN only advance (R418, R426). -/
def blowFuses (f g : Fuses) : Fuses :=
  { lifecycle := max f.lifecycle g.lifecycle, stepping := f.stepping ||| g.stepping, serial := f.serial ||| g.serial,
    fleetId := f.fleetId ||| g.fleetId, attPub := f.attPub ||| g.attPub, rbMin := max f.rbMin g.rbMin,
    mkRoots := blowWords f.mkRoots g.mkRoots, lkRoots := blowWords f.lkRoots g.lkRoots, fk := f.fk ||| g.fk, bk := f.bk ||| g.bk,
    ak := blowWords f.ak g.ak, pkRps := f.pkRps ||| g.pkRps, vh := f.vh ||| g.vh,
    tsCols := f.tsCols ++ g.tsCols, bankCols := f.bankCols ++ g.bankCols }

/-- Bytes of a slot of the flash (R506). -/
def slotLength : Nat := 2 ^ 20

/-- Byte `o` of the tray's flash. -/
def State.flashByte (s : State) (b : Boot) (o : Nat) : Byte :=
  (Tbl.get none s.flash o).getD (((b.flash.find? fun c => decide (c.1 = o)).map Prod.snd).getD 0)

/-- `n` bytes of the tray's flash. -/
def State.flashBytes (s : State) (b : Boot) (o n : Nat) : List Byte := (List.range n).map fun i => s.flashByte b (o + i)

/-- Bytes of an image's header and of its signature (R428). -/
def fwHeader : Nat := 128
/-- Bytes of the signature. -/
def fwSignature : Nat := 2820

/-- The MAGIC of an image (R428). -/
def fwMagic : Nat := 0x57464152

/-- A firmware image in a slot, as the boot ROM reads its header (R428). -/
structure FwImage where
  magic : Nat
  version : BitVec 32
  rb : Nat
  advance : Bool
  length : Nat
  key : List Byte
  deriving DecidableEq, Repr

/-- The header of an image (R428). -/
def FwImage.ofHeader (h : List Byte) : FwImage :=
  let f (at_ n : Nat) : Nat := leNat ((h.drop at_).take n)
  { magic := f 0 4, version := BitVec.ofNat 32 (f 4 4), rb := f 8 1, advance := decide (f 9 1 % 2 = 1), length := f 12 4,
    key := (h.drop 64).take 64 }

/-- Bytes of an image with header, body and signature. -/
def FwImage.bytes (x : FwImage) : Nat := fwHeader + x.length + fwSignature

/-- The boot ROM accepts an image (R428): it is one that fits its slot (R506), its public key has the fused digest, its signature
verifies, and its RB reaches the floor. -/
def bootAccepts (f : Fuses) (x : FwImage) (signed : Bool) : Bool :=
  decide (x.magic = fwMagic) && decide (x.bytes ≤ slotLength) && decide (x.rb ≤ 64) &&
    decide (leNat (shakeDigest x.key) = f.vh.toNat) && signed && decide (f.rbMin ≤ x.rb)

/-- The image of slot `k`, 0 for A and 1 for B. -/
def State.slotImage (s : State) (b : Boot) (k : Nat) : FwImage := .ofHeader (s.flashBytes b (slotLength * k) fwHeader)

/-- What the boot ROM finds (R461 step 1, R462): the fuses as loaded, whether slot A was rejected, and the image that boots with its
code in BST_BOOT.SLOT. -/
structure BootFound where
  fuses : Fuses
  rejectedA : Bool := false
  image : Option (FwImage × BitVec 2) := none
  deriving DecidableEq, Repr

/-- Steps 1 and 2 of the boot: the images are read only once the fuses are loaded and the part is not SCRAPPED. -/
def State.bootFind (s : State) (b : Boot) : BootFound :=
  let f := (b.blown.map (blowFuses s.sec.fuses)).getD s.sec.fuses
  let x := s.slotImage b 0
  let y := s.slotImage b 1
  if !b.fuseOk || decide (f.lifecycle = lifeScrapped) then { fuses := f }
  else if bootAccepts f x b.signedA then { fuses := f, image := some (x, 1) }
  else { fuses := f, rejectedA := true, image := if bootAccepts f y b.signedB then some (y, 2) else none }

/-- Sheaves that may fail at boot (R467). -/
def maxFailedSheaves : Nat := 8

/-- The FAIL_CODE and FAIL_SRC that hold the part, by the first step that fails (R461, R464, R467, R497). -/
def bootFailure (b : Boot) (x : BootFound) : Option (Nat × Nat) :=
  if !b.fuseOk then some (failFuse, 0)
  else if x.fuses.lifecycle = lifeScrapped then some (failScrapped, 0)
  else if x.image.isNone then some (failFirmware, 0)
  else if !b.railOk then some (failRail, 0)
  else
    match b.bistOuter, b.hbmFail with
    | some src, _ => some (failBistOuter, src)
    | none, some src => some (failHbm, src)
    | none, none => if maxFailedSheaves < b.sheaves.length then some (failSheaves, 0) else none

/-- The fuses after a boot: an image with ADVANCE blows RB_MIN bits (R429, R465). -/
def bootFuses (b : Boot) (x : BootFound) : Fuses :=
  match bootFailure b x, x.image with
  | none, some (y, _) => if y.advance then { x.fuses with rbMin := max x.fuses.rbMin y.rb } else x.fuses
  | _, _ => x.fuses

/-- What the boot writes into BST_BOOT and the masks (R461, R462, R467). -/
def bootRecord (b : Boot) (x : BootFound) : BootState :=
  let fail := bootFailure b x
  let tested := match fail with
    | none => true
    | some (code, _) => decide (code = failSheaves)
  { power := if fail.isSome then .held else .running,
    failCode := BitVec.ofNat 8 ((fail.map Prod.fst).getD 0), failSrc := BitVec.ofNat 16 ((fail.map Prod.snd).getD 0),
    failedAtBoot := if tested then BitVec.ofNat 9 b.sheaves.length else 0, rejectA := x.rejectedA,
    slot := (x.image.map Prod.snd).getD 0,
    failMask := if tested then b.sheaves.foldl (fun v x => withBit v x.1 true) 0 else 0 }

/-- The bound of the replay-protected store is read at power-up where PK_RPS is in use (R426, R433). -/
def storeAtPowerUp (lifecycle : Nat) : Option StoreRequest :=
  if lifecycle = lifeProvisioned ∨ lifecycle = lifeField then some .read else none

/-- The part after a power-up reset, before its events: every field at its reset value (R10, R302, R314, R461, R474) but what AON keeps
(R457, R460), the fuses and the running image, and what lies outside the part: its waiting commands, host memory and the flash. -/
def State.poweredUp (s : State) (b : Boot) : State :=
  let x := s.bootFind b
  { State.reset with
    pending := s.pending, draws := s.draws, flash := s.flash, mem := s.mem.filter fun c => decide (hostBase ≤ c.1),
    boot := bootRecord b x,
    sec := { fuses := bootFuses b x, fwVersion := (x.image.map fun i => i.1.version).getD 0,
             image := (x.image.map fun i => s.flashBytes b (slotLength * (i.2.toNat - 1)) i.1.bytes).getD [],
             request := storeAtPowerUp x.fuses.lifecycle },
    power := { inputMv := s.power.inputMv, excursion := s.power.excursion, prevTrip := b.aonKept && s.power.tripRecord },
    ports := b.bistPorts.foldl (fun ps n => Tbl.put {} ps n { bistFailed := true }) [] }

/-- The events of boot, in stride 0 (R462, R468). -/
def State.bootEvents (s : State) (b : Boot) : State :=
  let s := if s.boot.slot = 2 then s.raise srcFarrier evtFwFallback (pack 128 [(0, 32, s.sec.fwVersion.toNat)]) else s
  b.sheaves.foldl (fun s x => s.raiseTestFail x.1 x.2.1 x.2.2 true) s

/-- A power-up reset can come: the part is held or asleep, or the sheaves of an OUTER test have ended (R459, R472). -/
def State.mayPowerUp (s : State) : Bool := !s.isRunning || (s.boot.outer && s.boot.jobs.isEmpty)

/-- POWER_UP_RESET (R461). -/
def State.powerUp (s : State) (b : Boot) : State :=
  if !s.mayPowerUp then s
  else
    let s := s.poweredUp b
    if s.isRunning then s.bootEvents b else s

/-- POWER_UP_RESET. -/
def execPowerUpReset (b : Boot) (s : State) : Host.Outcome State Fault Refusal := .next (s.powerUp b)

end Sys2Proof.Machine
end

