-- ==== Sys2Proof/Machine/Bridle.lean ====
section
/-!
DEFINITION. Machine/Bridle.lean: Bridle modules (R374 to R377, R507): insertion and its check, removal, laser life and its end.
-/

namespace Sys2Proof.Machine

/-- ABSENT (LNK_BRIDLE_STATUS). -/
def siteAbsent : BitVec 3 := 0
/-- DARK. -/
def siteDark : BitVec 3 := 3

/-- KIND optical. -/
def kindOptical : BitVec 2 := 1
/-- KIND copper. -/
def kindCopper : BitVec 2 := 2

/-- WEAR codes. -/
def wearWarn : BitVec 2 := 1
/-- EOL. -/
def wearEol : BitVec 2 := 2

/-- The ports of site `m` (R353). -/
def portsOfSite (m : Nat) : List Nat := span (4 * m) 4

/-- Source of a site's events: its lowest port. -/
def srcSite (m : Nat) : Nat := srcPort (4 * m)

/-! ### The records of a module (R374) -/

/-- The bytes of the identity record. -/
def identityBytes (words : List (BitVec 64)) : List Byte := words.flatMap fun w => leBytes 8 w.toNat

/-- Some bytes of the identity record. -/
def identityPart (words : List (BitVec 64)) (at_ n : Nat) : List Byte := ((identityBytes words).drop at_).take n

/-- A field of the identity record, little-endian. -/
def identityField (words : List (BitVec 64)) (at_ n : Nat) : Nat := leNat (identityPart words at_ n)

/-- The module key Km: KMAC256 of SERIAL under the module authentication key. -/
def kmOf (f : Fuses) (words : List (BitVec 64)) : List Byte := kmac256 (moduleKey f) (identityPart words 4 16) 32 ""

/-- The tag of a life record. -/
def lifeTagOf (f : Fuses) (words : List (BitVec 64)) (seconds writes : BitVec 32) : BitVec 64 :=
  BitVec.ofNat 64 (leNat (kmac256 (kmOf f words) (leBytes 4 seconds.toNat ++ leBytes 4 writes.toNat) 8 ""))

/-- The first check of a module that fails, in the codes of EVT_BRIDLE_AUTH (R375, R478): 1 TAG, 2 FORMAT or KIND, 3 challenge,
4 tag of the life record; 0 when all pass. -/
def moduleFailure (f : Fuses) (found : Module) : Nat :=
  let w := found.identity
  if identityPart w 96 32 ≠ kmac256 (moduleKey f) (identityPart w 0 96) 32 "" then 1
  else if identityField w 0 2 ≠ 1 ∨ (identityField w 2 1 ≠ kindOptical.toNat ∧ identityField w 2 1 ≠ kindCopper.toNat) then 2
  else if !found.challengeOk then 3
  else if found.lifeTag ≠ lifeTagOf f w found.seconds found.writes then 4
  else 0

/-- The site with a module that has passed its check. -/
def moduleSite (found : Module) (nonce : BitVec 128) (now : Nat) : Site :=
  let kind := BitVec.ofNat 2 (identityField found.identity 2 1)
  let seconds := if kind = kindOptical then found.seconds else 0
  { state := siteLive, kind := kind, identity := Tbl.ofList 0 0 found.identity,
    ratedH := BitVec.ofNat 16 (identityField found.identity 24 2), seconds := seconds,
    written := seconds, writes := found.writes, lifeTag := found.lifeTag, nonce := nonce, countedAt := now, clocked := found.refclk }

/-- Port `n` begins its training when it may. -/
def State.trainPort (s : State) (n : Nat) : State := if s.mayTrain n then s.modPort n fun p => { p with state := portTraining } else s

/-- A module inserted and checked with a fresh nonce (R375): it is LIVE and its enabled ports train, or it is held dark. -/
def State.insertModule (s : State) (m : Nat) (found : Module) : State :=
  if (s.site m).state ≠ siteAbsent then s
  else
    let (v, s) := s.draw
    let (w, s) := s.draw
    let failed := moduleFailure s.sec.fuses found
    if failed = 0 then
      (portsOfSite m).foldl State.trainPort (s.modSite m fun _ => moduleSite found (v ++ w) s.now)
    else
      let s := s.modSite m fun _ =>
        { state := siteDark, identity := Tbl.ofList 0 0 found.identity, nonce := v ++ w, clocked := found.refclk }
      (s.raise (srcSite m) evtBridleAuth
        (pack 128 [(0, 3, m), (8, 3, failed), (64, 64, identityField found.identity 4 8)])).setSecurity

/-- BRIDLE_INSERT. -/
def execBridleInsert (m : Nat) (found : Module) (s : State) : Host.Outcome State Fault Refusal :=
  .next (s.whenRunning fun s => s.insertModule m found)

/-- The lanes of a port whose module is gone: each fails, and a port in training is DOWN (R369, R375). -/
def State.losePort (s : State) (n : Nat) : State :=
  let stamp := stampOf s.stride (s.position / groupLen)
  let s := (List.range 4).foldl (fun s j => s.failLane n j stamp) s
  s.modPort n fun p => { p.off portDown with ended := false }

/-- A module removed (R375, R507): every lane of its ports fails. -/
def State.removeModule (s : State) (m : Nat) : State :=
  if (s.site m).state = siteAbsent then s
  else ((portsOfSite m).foldl State.losePort s).modSite m fun _ => {}

/-- BRIDLE_REMOVE. -/
def execBridleRemove (m : Nat) (s : State) : Host.Outcome State Fault Refusal := .next (s.whenRunning fun s => s.removeModule m)

/-- A laser of site `m` is on, or was until a port of it was disabled: a port trains or runs. -/
def State.lasersOn (s : State) (m : Nat) : Bool :=
  (s.site m).portOff || (portsOfSite m).any fun n => decide ((s.port n).state = portTraining) || (s.port n).linkUp

/-- A second, in ns. -/
def secondNs : Nat := 1000000000

/-- SECONDS as counted now: an optical module that is LIVE and has a laser on counts; the count never falls and runs ahead of no
time that has passed (R376). -/
def State.countLaser (s : State) (m : Nat) (seconds : BitVec 32) : State :=
  let x := s.site m
  let more := (seconds.toNat - x.seconds.toNat) * secondNs
  if x.state = siteLive ∧ x.kind = kindOptical ∧ x.seconds.toNat ≤ seconds.toNat ∧ s.lasersOn m = true ∧
      x.countedAt + more ≤ s.now + secondNs then
    s.modSite m fun x => { x with seconds := seconds, countedAt := x.countedAt + more }
  else s

/-- Laser-on time after which the life record is written back (R376). -/
def lifePeriod : Nat := 3600

/-- The life record written back, with its tag (R374, R376). -/
def Site.writeBack (x : Site) (f : Fuses) : Site :=
  let words := (List.range 16).map fun j => Tbl.get 0 x.identity j
  { x with
    written := x.seconds, writes := x.writes + 1, lifeTag := lifeTagOf f words x.seconds (x.writes + 1), portOff := false }

/-- BRIDLE_LIFE_WRITE (R376): after each 3,600 s of laser-on time, and when a port of the site is disabled. -/
def State.writeLife (s : State) (m : Nat) (seconds : BitVec 32) : State :=
  let s := s.countLaser m seconds
  let x := s.site m
  let due := x.portOff || decide (x.written.toNat + lifePeriod ≤ x.seconds.toNat)
  if x.state = siteLive ∧ x.kind = kindOptical ∧ due = true then s.modSite m fun x => x.writeBack s.sec.fuses else s

/-- BRIDLE_LIFE_WRITE. -/
def execBridleLifeWrite (m : Nat) (seconds : BitVec 32) (s : State) : Host.Outcome State Fault Refusal :=
  .next (s.whenRunning fun s => s.writeLife m seconds)

/-- A module has been used for a part of its rated life, in percent (R376, R377). -/
def Site.usedPercent (x : Site) (percent : Nat) : Bool :=
  decide (x.state = siteLive) && decide (x.kind = kindOptical) && decide (36 * percent * x.ratedH.toNat ≤ x.seconds.toNat)

/-- Fields of EVT_BRIDLE_WEAR. -/
def State.wearFields (s : State) (m : Nat) : List (Nat × Nat × Nat) :=
  [(0, 3, m), (32, 32, (s.site m).seconds.toNat), (64, 16, (s.site m).ratedH.toNat)]

/-- BRIDLE_WEAR (R376): at 100 % of RATED_H, once. -/
def State.noteWear (s : State) (m : Nat) (seconds : BitVec 32) : State :=
  let s := s.countLaser m seconds
  if (s.site m).usedPercent 100 ∧ (s.site m).wear = 0 then
    let s := s.modSite m fun x => { x with wear := wearWarn }
    s.raise (srcSite m) evtBridleWear (pack 128 (s.wearFields m))
  else s

/-- BRIDLE_WEAR. -/
def execBridleWear (m : Nat) (seconds : BitVec 32) (s : State) : Host.Outcome State Fault Refusal :=
  .next (s.whenRunning fun s => s.noteWear m seconds)

/-! ### End of life (R377) -/

/-- REACH of port `n`. -/
def State.reachOf (s : State) (n : Nat) : Nat := s.field (.portCtl n) 36 4

/-- The enabled ports of other sites with the REACH of port `n`. -/
def State.sparePorts (s : State) (n : Nat) : List Nat :=
  portNumbers.filter fun k => decide (siteOf k ≠ siteOf n) && s.portEnabled k && !s.siteEnded k && decide (s.reachOf k = s.reachOf n)

/-- Entries for a tether taken from some ports in order, as many as each may give (R362, R406); none when they run short. -/
def State.fillPorts (s : State) (t count : Nat) : List Nat → Option State
  | [] => if count = 0 then some s else none
  | n :: rest =>
    let x := s.tether t
    let room := s.shareBound x.paddock - s.entriesHeld x.paddock n
    let es := (entryOrder.filter fun i => s.entryFree n i x.isProtected).take (min count room)
    let s := s.assignEntries n t x.isProtected es
    let s := if es.isEmpty then s else s.modTether t fun x => { x with ports := withBit x.ports n true }
    s.fillPorts t (count - es.length) rest

/-- The entries that tether `t` has on some ports, assigned again on spare ports. -/
def State.refillPorts (s : State) (t : Nat) : List Nat → Option State
  | [] => some s
  | n :: rest =>
    match s.fillPorts t (s.entriesOn n t).length (s.sparePorts n) with
    | none => none
    | some s => s.refillPorts t rest

/-- Tether `t` moved away from site `m`, if its assignment succeeds with b_min within its bound. -/
def State.moveTether (s : State) (m t : Nat) : Option State :=
  let s' := s.modTether t fun x => { x with movedAt := some s.stride }
  match s'.refillPorts t (portsOfSite m) with
  | none => none
  | some s' =>
    let x := s'.tether t
    let b := s'.boundMin t x.isProtected
    if x.boundM1.toNat + 1 < b then none
    else some (s'.modTether t fun x => { x with bminM1 := BitVec.ofNat 3 (b - 1), slots := (s'.entryCounts t).1 })

/-- One tether of a module at its end of life: it moves, or it enters DEGRADED. Counts of both. -/
def State.leaveModule (m : Nat) (x : State × Nat × Nat) (t : Nat) : State × Nat × Nat :=
  let (s, moved, left) := x
  match s.moveTether m t with
  | some s => (s, moved + 1, left)
  | none =>
    if (s.tether t).state = .formed then
      let s := s.modTether t fun x => { x with state := .degraded }
      (s.raise (s.tetherSource t) evtTetherDegraded (s.tetherPayload t [(0, 12, (s.tether t).slots)]), moved, left + 1)
    else (s, moved, left + 1)

/-- Tethers with entries on a port of site `m`, ascending. -/
def State.tethersOfSite (s : State) (m : Nat) : List Nat :=
  (s.tethers.map Prod.fst).filter fun t => (portsOfSite m).any fun n => !(s.entriesOn n t).isEmpty

/-- BRIDLE_EOL (R377): at the first tick after SECONDS has reached 110 % of RATED_H. -/
def State.endModule (s : State) (m : Nat) (seconds : BitVec 32) : State :=
  let s := s.noteWear m seconds
  if (s.site m).usedPercent 110 = false ∨ (s.site m).wear = wearEol ∨ s.position ≠ 0 then s
  else
    let s := s.modSite m fun x => { x with wear := wearEol }
    let (s, moved, left) := (s.tethersOfSite m).foldl (State.leaveModule m) (s, 0, 0)
    let s := (portsOfSite m).foldl State.darkenPort s
    s.raise (srcSite m) evtBridleEol (pack 128 (s.wearFields m ++ [(80, 16, moved), (96, 16, left)]))

/-- BRIDLE_EOL. -/
def execBridleEol (m : Nat) (seconds : BitVec 32) (s : State) : Host.Outcome State Fault Refusal :=
  .next (s.whenRunning fun s => s.endModule m seconds)

end Sys2Proof.Machine
end

