-- ==== Sys2Proof/Machine/Control.lean ====
section
/-!
DEFINITION. Machine/Control.lean: the control instructions of a tile (R251 to R257), its barriers (R236, R237) and the
reserved opcodes (R246).
-/

namespace Sys2Proof.Machine

/-- A tile retires a stride wait or END: the greatest watchdog count is kept (R234, R452), which a write
that clears it in this aclk does not undo (R9), and sampled repeats that are not
finished are stopped (R128). -/
def State.endRun (s : State) (n : Nat) : State :=
  let s := s.modPdk (s.tilePaddock n) fun x => { x with maxW := some (max (x.maxW.getD 0) s.watchdog) }
  let s := if (s.tile n).budgetMax.toNat < s.watchdog then s.noteDevice (.seqBudget n) (maskOf 32 17) else s
  (s.modTile n fun t => { t with budgetMax := BitVec.ofNat 17 (max t.budgetMax.toNat s.watchdog) }).abandonRepeats n fun _ => true

/-- Peers that wait for tile `n` fault when it can no longer arrive (R237). -/
def State.settlePeers (s : State) (n : Nat) : State := State.peerFaults (n / 64) 64 s

/-- A stride wait or END waits for a list read to end (R235, R288). -/
def quietAt (_ : State) (t : Tile) (_ : BitVec 64) : Option Nat := some t.listDone

/-- END (R235, R251): it retires when everything issued before it is complete; the tile becomes HALTED. -/
def endBody (n : Nat) (s : State) (t : Tile) (_ : BitVec 64) : Issued :=
  if !t.quiet then .wait
  else
    let s := (s.endRun n).modTile n fun t =>
      let t := { t with seqState := .halted, nextIssue := s.now + 1 }
      match t.afterWait with
      | some (pc, loops) => { t with pc := pc, loops := loops }
      | none => t
    .hold s

/-- END. -/
def execEnd (n : Nat) (s : State) : Host.Outcome State Fault Refusal :=
  .next ((s.issueWhen n 0x01 quietAt (endBody n)).settlePeers n)

/-- BR (R251, R252): its target was checked before its guard. -/
def brBody (s : State) (t : Tile) (w : BitVec 64) : Issued := .retire s 2 (some (t.pc.toNat + bits w 0 11))

/-- BR. -/
def execBr (n : Nat) (s : State) : Host.Outcome State Fault Refusal := .next (s.issue n 0x02 brBody)

/-- LOOP (R253). -/
def loopBody (s : State) (t : Tile) (w : BitVec 64) : Issued :=
  let x := t.pc.toNat
  let stop := x + bits w 36 11
  let trip := bits w 0 24
  if t.lastPc < stop then .fault cBranch 0
  else if (match t.loops.getLast? with | some l => decide (l.stop.toNat < stop) | none => false) then .fault cLoop 0
  else if trip = 0 then
    if t.lastPc < stop + 1 then .fault cBranch 0 else .jump s (stop + 1) t.loops
  else if 4 ≤ t.loops.length then .fault cLoop 0
  else .jump s (x + 1) (t.loops ++ [{ remaining := BitVec.ofNat 24 (trip - 1), start := BitVec.ofNat 11 (x + 1),
                                      stop := BitVec.ofNat 11 stop }])

/-- LOOP. -/
def execLoop (n : Nat) (s : State) : Host.Outcome State Fault Refusal := .next (s.issue n 0x03 loopBody)

/-- SWAIT (R223, R235, R253): it retires when everything issued before it is complete; the tile becomes WAITING. -/
def swaitBody (n : Nat) (s : State) (t : Tile) (_ : BitVec 64) : Issued :=
  if !t.quiet then .wait
  else .hold (s.retireWait ((s.endRun n).modTile n fun t => { t with seqState := .waiting }) n)

/-- SWAIT. -/
def execSwait (n : Nat) (s : State) : Host.Outcome State Fault Refusal :=
  .next ((s.issueWhen n 0x04 quietAt (swaitBody n)).settlePeers n)

/-- BAR (R236): the tile arrives, or faults when its own position is absent from its mask. -/
def barBody (n : Nat) (s : State) (t : Tile) (w : BitVec 64) : Issued :=
  let mask : BitVec 64 := t.s (fB w) ++ t.s (fA w)
  if !bit mask (n % 64) then .fault cBarMask 0
  else
    let s := s.modTile n fun t => { t with seqState := .barrier }
    .hold (s.modSheaf (n / 64) fun x =>
      { x with arrivals := x.arrivals ++ [{ pos := n % 64, barrier := bits w 0 2, mask := mask, time := s.now }] })

/-- BAR. -/
def execBar (n : Nat) (s : State) : Host.Outcome State Fault Refusal :=
  .next ((s.issue n 0x05 (barBody n)).settlePeers n)

/-- Every tile of a mask has arrived at barrier `b` with that mask (R236). -/
def barrierFull (arrivals : List Arrival) (b : Nat) (mask : BitVec 64) : Bool :=
  (setIndices mask).all fun p => arrivals.any fun a => decide (a.pos = p) && decide (a.barrier = b) && decide (a.mask = mask)

/-- The mask with which barrier `b` is complete, if it is (R236). -/
def barrierMask (arrivals : List Arrival) (b : Nat) : Option (BitVec 64) :=
  (arrivals.find? fun a => decide (a.barrier = b) && barrierFull arrivals b a.mask).map fun a => a.mask

/-- One tile leaves a barrier: its BAR retires now. -/
def State.leaveBarrier (s : State) (n : Nat) : State :=
  let s := s.modTile n fun t => { t with seqState := .running }
  s.retire s n 0 none

/-- BARRIER_COMPLETE (R236, R255): every waiting participant returns to RUNNING 8 aclk after the last arrival. -/
def State.completeBarrier (s : State) (m b : Nat) : State :=
  let arr := (s.sheaf m).arrivals
  match barrierMask arr b with
  | none => s
  | some mask =>
    let mine := arr.filter fun a => decide (a.barrier = b) && decide (a.mask = mask)
    let last := mine.foldl (fun t a => max t a.time) 0
    let s := s.advanceTo (last + 8)
    let s := s.modSheaf m fun x => { x with arrivals := x.arrivals.filter fun a => !(decide (a.barrier = b) && decide (a.mask = mask)) }
    (setIndices mask).foldl (fun s p => s.leaveBarrier (64 * m + p)) s

/-- BARRIER_COMPLETE. -/
def execBarrierComplete (m b : Nat) (s : State) : Host.Outcome State Fault Refusal :=
  .next (s.whenRunning fun s => s.completeBarrier m b)

/-- FENCE.M (R232): it retires when every move and atomic issued before it is complete. -/
def fenceMBody (s : State) (t : Tile) (_ : BitVec 64) : Issued :=
  if t.moves.isEmpty && t.atomics.isEmpty then .retire s 1 none else .wait

/-- FENCE.M. -/
def execFenceM (n : Nat) (s : State) : Host.Outcome State Fault Refusal := .next (s.issue n 0x06 fenceMBody)

/-- EMIT (R256): EVT_TILE_USER with the user code, PC and three registers. -/
def emitBody (n : Nat) (s : State) (t : Tile) (w : BitVec 64) : Issued :=
  .retire (s.raise n evtTileUser (pack 128 [(0, 16, bits w 0 16), (16, 11, t.pc.toNat), (32, 32, (t.s (fA w)).toNat),
    (64, 32, (t.s (fB w)).toNat), (96, 32, (t.s (fC w)).toNat)])) 1 none

/-- EMIT. -/
def execEmit (n : Nat) (s : State) : Host.Outcome State Fault Refusal := .next (s.issue n 0x07 (emitBody n))

/-- NFCLR (R239, R251). -/
def execNfclr (n : Nat) (s : State) : Host.Outcome State Fault Refusal :=
  .next (s.issue n 0x08 fun s _ _ => .retire (s.clearNonFinite n) 1 none)

/-- The value an RDSYS selector names (R257). -/
def State.sysValue (s : State) (n sel : Nat) : BitVec 32 :=
  match sel with
  | 0 => BitVec.ofNat 32 n
  | 1 => BitVec.ofNat 32 (n % 64)
  | 2 => BitVec.ofNat 32 (n / 64)
  | 3 => BitVec.ofNat 32 s.chipId
  | 4 => BitVec.ofNat 32 (s.tilePaddock n)
  | 5 => BitVec.ofNat 32 (s.field (.pdkCtl (s.tilePaddock n)) 0 2)
  | 6 => BitVec.ofNat 32 s.stride
  | 7 => BitVec.ofNat 32 s.now
  | 8 => (s.tile n).gtcHi
  | _ => BitVec.ofNat 32 s.watchdog

/-- RDSYS (R257): GTC_LO latches the high half. -/
def rdsysBody (n : Nat) (s : State) (_ : Tile) (w : BitVec 64) : Issued :=
  let sel := bits w 0 8
  .retire (s.modTile n fun t =>
    let t := t.setS (fD w) (s.sysValue n sel)
    if sel = 7 then { t with gtcHi := BitVec.ofNat 32 (s.now / 2 ^ 32) } else t) 1 none

/-- RDSYS. -/
def execRdsys (n : Nat) (s : State) : Host.Outcome State Fault Refusal := .next (s.issue n 0x09 (rdsysBody n))

/-- LREM (R251): the remaining count of a loop level, 0 when it is not open. -/
def lremBody (n : Nat) (s : State) (_ : Tile) (w : BitVec 64) : Issued :=
  .retire (s.modTile n fun t => t.setS (fD w) (match t.loops[bits w 0 2]? with
    | some l => BitVec.ofNat 32 l.remaining.toNat
    | none => 0)) 1 none

/-- LREM. -/
def execLrem (n : Nat) (s : State) : Host.Outcome State Fault Refusal := .next (s.issue n 0x0A (lremBody n))

/-- NOP. -/
def execNop (n : Nat) (s : State) : Host.Outcome State Fault Refusal := .next (s.issue n 0x0B fun s _ _ => .retire s 1 none)

/-- The phase rules of R275 for a word by its opcode: true where the phase forbids it.  CISS names its purpose in bit 5: 0
SCREEN, 1 DRAFT. -/
def phaseForbids (ph : Phase) (w : BitVec 64) : Bool :=
  match opOf w with
  | 0x30 | 0x31 => decide (ph = .idle)
  | 0x38 | 0x39 => decide (ph ≠ .bwd)
  | 0x50 | 0x52 | 0x53 | 0x54 | 0x55 => decide (ph = .idle) || decide (ph = .bwd)
  | 0x51 => decide (ph = .idle) || decide (ph = .bwd) || (bit w 5 && decide (ph ≠ .gen))
  | _ => false

/-- RESERVED_OPCODE (R7, R246, R247): a word with a reserved opcode or encoding faults the tile with TILE_ILLEGAL,
whether or not its guard holds; where the guard holds and the phase forbids the instruction, with TILE_PHASE, which is
checked before every other check (R275). -/
def State.faultReserved (s : State) (n : Nat) : State :=
  let t := s.tile n
  let at_ := max t.nextIssue (max s.windowStart s.now)
  if t.seqState = .running ∧ reservedWord t.preds t.fetch ∧ at_ ≤ s.stride * strideLen + 1999 + t.budget then
    (s.advanceTo at_).tileFault n
      (if guardHolds t.preds t.fetch && phaseForbids (s.tilePhase n) t.fetch then cPhase else cIllegal) 0
  else s

/-- RESERVED_OPCODE. -/
def execReservedOpcode (n : Nat) (s : State) : Host.Outcome State Fault Refusal :=
  .next (s.whenRunning fun s => s.faultReserved n)

end Sys2Proof.Machine
end

