-- ==== Sys2Proof/Machine/Budget.lean ====
section
/-!
DEFINITION. Machine/Budget.lean: the budget watchdog and what becomes of a stopped tile's operations (R48, R234, R511).
-/

namespace Sys2Proof.Machine

/-- Pieces of a destination of which each is wholly old or wholly new: a free value decides (R511, notes/assumptions/9). -/
def State.someWritten (s : State) (p : Nat) : List (Nat × List Byte) → State
  | [] => s
  | c :: rest =>
    let (v, s) := s.draw
    (if bit v 0 then s.writeChunk p c.1 c.2 false else s).someWritten p rest

/-- What a started drain to tile store would write (R145, R147). -/
def State.drainParts (s : State) (n : Nat) (o : UnitOp) : List (Nat × List Byte) :=
  let t := s.tile n
  let b := t.fwaBank o.bank
  if bit o.word 2 then []
  else (List.range (min b.extM (dExt1 o.d))).map fun m =>
    (rowAt o.d m, (List.range (min b.extN (dExt0 o.d))).flatMap fun c => leBytes 2 (t.drainResult o.bank m c).toNat)

/-- What a started gradient drain would write (R166). -/
def State.gradParts (s : State) (n : Nat) (o : UnitOp) : List (Nat × List Byte) :=
  let b := (s.tile n).bwaBank o.bank
  let e := gradExtent o.d b.extM b.extN o.x.toNat o.z.toNat
  (List.range e.1).map fun i => (rowAt o.d i, (List.range e.2).flatMap fun j => leBytes 2 (s.gradCode (s.tilePaddock n) o b i j).toNat)

/-- What an abandoned operation may have written of its destination. -/
def State.partsOf (s : State) (n : Nat) (o : UnitOp) : List (Nat × List Byte) :=
  match o.kind with
  | .fdr => if o.a = 0 then s.drainParts n o else (s.convResult n o).parts
  | .bdr => s.gradParts n o
  | .hq | .hx | .hw | .ht => (s.convResult n o).parts
  | .sdrop => s.dropParts (s.tilePaddock n) o
  | _ => []

/-- The tile with one operation abandoned: its bank is EMPTY, its table unbuilt, its list empty (R511). -/
def Tile.abandon (t : Tile) (o : UnitOp) : Tile :=
  match o.kind with
  | .fmm | .fdr => t.setFwaBank o.bank {}
  | .bmm | .bdr | .watchProduct => t.setBwaBank o.bank {}
  | .ciss => (t.setChaffBank (cBank o.word) {}).setChaffBehind (cBank o.word) {}
  | .cdr => { t.setChaffBank (bits o.word 0 2) (t.chaffBehind (bits o.word 0 2)) with topk := if bit o.word 2 then [] else t.topk }
  | .ctab => t.setTable (bits o.word 0 2) {}
  | _ => t

/-- Every array, Hame, Chaff and Sower operation of tile `n` is abandoned (R511): a started one leaves each unit of its
destination old or new. -/
def State.abandonAll (s : State) (n : Nat) : State :=
  let s := s.abandonRepeats n fun _ => true
  let t := s.tile n
  let started := (t.fwa ++ t.bwa ++ t.hame ++ t.sower).filter fun o => o.started.isSome || decide (o.kind = .sdrop)
  let s := started.foldl (fun s o => s.someWritten (s.tilePaddock n) (unitPieces (s.partsOf n o))) s
  s.modTile n fun t =>
    let ops := t.fwa ++ t.bwa ++ t.chaff
    let t := ops.foldl Tile.abandon t
    { t with fwa := [], bwa := [], hame := [], chaff := [], sower := [], loads := [] }

/-- Moves and atomics of a tile stopped by the watchdog (R48): those whose writes the mesh has accepted complete, the rest
are dropped.  `accepted` numbers the moves first, then the atomics. -/
def State.settleMoves (s : State) (n : Nat) (accepted : List Nat) : State :=
  let t := s.tile n
  let moves := (t.moves.zipIdx.filter fun o => accepted.contains o.2).map Prod.fst
  let atomics := (t.atomics.zipIdx.filter fun o => accepted.contains (t.moves.length + o.2)).map Prod.fst
  let s := moves.foldl (fun s o => s.performMove n o) s
  let s := s.modTile n fun t => { t with moves := [], atomics := [] }
  atomics.foldl (fun s o => s.doAtomic n o) s

/-- A tile still RUNNING or at a barrier at the end of its budget, at `at_`, faults; what a FAULTED tile has not completed by
then is abandoned (R234, R511). -/
def State.budgetEnds (s : State) (n at_ : Nat) (accepted : List Nat) : State :=
  let t := s.tile n
  if t.seqState = .running ∨ t.seqState = .barrier then
    let s := s.advanceTo at_
    let s := s.stopTile n { cause := cBudget, dpa := 0, at_ := at_, issued := at_, pc := t.pc, op := opOf t.fetch }
    ((s.abandonAll n).settleMoves n accepted).settlePeers n
  else if t.seqState = .faulted then ((s.advanceTo at_).abandonAll n).settleMoves n accepted
  else s

/-- TILE_BUDGET (R234, R511), at position 1,999 + B of the stride. -/
def State.tileBudget (s : State) (n : Nat) (accepted : List Nat) : State := s.budgetEnds n (s.deadline n) accepted

/-- TILE_BUDGET. -/
def execTileBudget (n : Nat) (accepted : List Nat) (s : State) : Host.Outcome State Fault Refusal :=
  .next (s.whenRunning fun s => s.tileBudget n accepted)

end Sys2Proof.Machine
end

