-- ==== Sys2Proof/Machine/Frames.lean ====
section
/-!
DEFINITION. Machine/Frames.lean: DATA and REPORT frames received (R324, R356, R359, R365).
-/

namespace Sys2Proof.Machine

/-- A received frame belongs to a formed tether and its pair, and its tag verifies under the session key (R359). -/
def State.frameValid (s : State) (f : Frame) : Bool :=
  let x := s.tether f.destTether
  f.tagOk && x.isFormed && decide (f.srcTether = x.peerTether.toNat) && decide (f.srcChip = x.peerChip.toNat)

/-- A frame discarded under R359. -/
def State.discardFrame (s : State) (n : Nat) : State := s.modPort n fun p => { p with tagFail := satAdd p.tagFail 1 }

/-- The report fields of a frame acted on (R324, R365). -/
def State.takeReport (s : State) (t : Nat) (f : Frame) : State :=
  let s := s.modTether t fun x => { x with lastValid := s.stride }
  if !f.report then s
  else if (s.tether t).collective then
    let s := s.takeCollReport t f.reportTag f.consumed f.reportW
    (match s.colls.find? fun c => decide (c.paddock = (s.tether t).paddock) && decide (c.tag = f.reportTag) with
     | some c => s.settleColl c.id
     | none => s)
  else s.modTether t fun x => { x with peerConsumed := f.consumed }

/-- Frames delivered without a gap, and those beyond it, with one more (R365). -/
def deliverSeq (next : BitVec 64) (beyond : List (BitVec 64)) : Nat → BitVec 64 × List (BitVec 64)
  | 0 => (next, beyond)
  | k + 1 => if beyond.contains next then deliverSeq (next + 1) (beyond.filter fun v => decide (v ≠ next)) k else (next, beyond)

/-- A frame of tether `t` noted as delivered. -/
def Tether.deliver (x : Tether) (v : BitVec 64) : Tether :=
  let (next, beyond) := deliverSeq x.delivered (v :: x.beyond) (x.beyond.length + 1)
  { x with delivered := next, beyond := beyond }

/-- A frame was delivered already (R365). -/
def Tether.hasDelivered (x : Tether) (v : BitVec 64) : Bool := decide (v.toNat < x.delivered.toNat) || x.beyond.contains v

/-- A ring frame written at its place, and RECV_COUNT with it (R365). -/
def State.deliverRing (s : State) (n t : Nat) (f : Frame) : State :=
  let x := s.tether t
  let s := s.masterWrite (srcPort n) x.paddock (x.recvRing.toNat + frameBytes * (f.seqNo.toNat % max 1 x.ringFrames.toNat)) f.payloadBytes
  let s := s.modTether t fun x => x.deliver f.seqNo
  s.masterWrite (srcPort n) x.paddock x.recvCount.toNat (leBytes 4 ((s.tether t).delivered.toNat % 2 ^ 32))

/-- DATA_FRAME (R359, R365). -/
def State.takeData (s : State) (n : Nat) (f : Frame) : State :=
  if !(s.port n).linkUp then s
  else if !s.frameValid f then s.discardFrame n
  else
    let t := f.destTether
    let s := s.takeReport t f
    if (s.tether t).hasDelivered f.seqNo then s
    else if (s.tether t).collective then (s.modTether t fun x => x.deliver f.seqNo).takeChunk t f
    else s.deliverRing n t f

/-- DATA_FRAME. -/
def execDataFrame (n : Nat) (f : Frame) (env : Env) (s : State) : Host.Outcome State Fault Refusal :=
  .next (s.whenRunning fun s => (s.takeEnv env).takeData n f)

/-- REPORT_FRAME (R365): only the report fields act. -/
def execReportFrame (n : Nat) (f : Frame) (s : State) : Host.Outcome State Fault Refusal :=
  .next (s.whenRunning fun s =>
    if !(s.port n).linkUp then s else if s.frameValid f then s.takeReport f.destTether f else s.discardFrame n)

end Sys2Proof.Machine
end

