-- ==== Sys2Proof/Machine/Paddocks.lean ====
section
/-!
DEFINITION. Machine/Paddocks.lean: PADDOCK_SET and PADDOCK_RELEASE (R409 to R412, R417), the ends of region clears and key sweeps (R414,
R415, R422), patrol reads (R310), key rotation (R420 to R423), attestation (R430 to R434) and sealing keys (R424, R425).
-/

namespace Sys2Proof.Machine

/-! ### Paddock records (R409) -/

/-- The regions that a paddock record lists: words 8 to 15. -/
def regionList (bs : List Byte) : BitVec 512 := BitVec.ofNat 512 (leNat ((bs.drop 64).take 64))

/-- The change that a paddock record asks for. -/
def changeOf (release : Bool) (bs : List Byte) (reply : Nat) : PdkChange :=
  let w := recordWord bs 0
  { release := release, paddock := bits w 0 4, isNew := bit w 8, whole := release && bit w 9, sheaves := sheafList bs,
    regions := regionList bs, share := BitVec.ofNat 10 (bits w 32 10), reply := reply }

/-- PADDOCK_SET is refused with ADM_OWNER (R410, R468), judged against the state that the commands before it leave. -/
def State.setForeign (s t : State) (c : PdkChange) : Bool :=
  let st := (t.pdk c.paddock).state
  (if c.isNew then decide (st ≠ .free) else decide (st ≠ .active)) ||
    ((regionsIn c.regions).any fun r => decide ((t.region r).state ≠ .none)) ||
    ((sheavesOf c.sheaves).any fun m => s.isolated m || s.sheafFailed m) || (decide (c.paddock ≠ 0) && !inField s)

/-- LINK_SHARE summed over the paddocks with that of one replaced. -/
def State.shareSum (s : State) (p : Nat) (share : BitVec 10) : Nat :=
  paddockNumbers.foldl (fun n q => n + (if q = p then share.toNat else (s.share q).toNat)) 0

/-- PADDOCK_SET is refused with ADM_SLOTS (R410). -/
def State.setCrowded (s t : State) (c : PdkChange) : Bool :=
  (portNumbers.any fun n => decide (c.share.toNat < s.entriesHeld c.paddock n)) || decide (1000 < t.shareSum c.paddock c.share)

/-- Ranges that hold a region of paddock `p` back (R412): of its contracts, its collectives and its microprogram. -/
def State.holdingRanges (s : State) (p : Nat) : List (Nat × Nat) :=
  ((s.tethers.filter fun t => decide (t.2.paddock = p) && decide (t.2.state ≠ .closed)).flatMap fun t => t.2.ranges) ++
    ((s.colls.filter fun c => decide (c.paddock = p)).flatMap fun c => c.reads ++ c.writes ++ [(c.membersDpa.toNat, 4 * c.count)]) ++
    (let n := s.field (.mtgUcode p) 56 8
     if n = 0 then [] else [(s.field (.mtgUcode p) 0 48, 4 * n)])

/-- Paddock `p` would still hold a shared sheaf without some of its sheaves. -/
def State.sharesAfter (t : State) (p : Nat) (gone : BitVec 400) : Bool :=
  (sheavesOf (t.mask p &&& ~~~gone)).any fun m => (t.holders m).any fun q => decide (q ≠ p)

/-- A listed region holds something that keeps it (R412). -/
def State.regionsUsed (s t : State) (c : PdkChange) : Bool :=
  let p := c.paddock
  let ctx := if t.sharesAfter p c.sheaves then [(s.field (.pdkCtx p) 16 32 * 0x10000, contextBytes)] else []
  let ranges := s.holdingRanges p ++ ctx
  (regionsIn c.regions).any fun r => rangesMeet [(r * 2 ^ 30, 2 ^ 30)] ranges

/-- PADDOCK_RELEASE is refused with ADM_OWNER (R412). -/
def State.releaseForeign (s t : State) (c : PdkChange) : Bool :=
  let p := c.paddock
  decide ((t.pdk p).state ≠ .active) || (c.whole && decide (p = 0)) ||
    (!c.whole && (decide (c.sheaves &&& ~~~t.mask p ≠ 0) ||
      ((regionsIn c.regions).any fun r => decide ((t.region r).state ≠ .owned) || decide ((t.region r).owner.toNat ≠ p)) || s.regionsUsed t c))

/-- A change is admitted: it waits among the GLOBAL shadows, and GLOBAL is armed (R410). -/
def State.admitChange (s : State) (c : PdkChange) : State × Answer :=
  ({ s with changes := s.changes ++ [c] }.armGroups (maskOf groupGlobal 1), { settled := false })

/-- PADDOCK_SET (R410). -/
def State.paddockSet (s : State) (f : Fetched) (id : Nat) : State × Answer :=
  match s.readOperand f.paddock f.cmd.arg 128 with
  | (s, none) => (s, .failed noteOperand)
  | (s, some bs) =>
    let c := changeOf false bs id
    if s.setForeign s.composed c then (s, .refused noteOwner)
    else if s.setCrowded s.composed c then (s, .refused noteSlots)
    else s.admitChange c

/-- PADDOCK_SET. -/
def execPaddockSet (env : Env) (s : State) : Host.Outcome State Fault Refusal :=
  .next (s.whenRunning fun s => (s.takeEnv env).command 0x40 true (some (some 1)) State.paddockSet)

/-- PADDOCK_RELEASE (R412). -/
def State.paddockRelease (s : State) (f : Fetched) (id : Nat) : State × Answer :=
  match s.readOperand f.paddock f.cmd.arg 128 with
  | (s, none) => (s, .failed noteOperand)
  | (s, some bs) =>
    let c := changeOf true bs id
    if s.releaseForeign s.composed c then (s, .refused noteOwner) else s.admitChange c

/-- PADDOCK_RELEASE. -/
def execPaddockRelease (env : Env) (s : State) : Host.Outcome State Fault Refusal :=
  .next (s.whenRunning fun s => (s.takeEnv env).command 0x41 true (some (some 1)) State.paddockRelease)

/-! ### Clears, sweeps and patrol (R310, R314, R415, R422) -/

/-- A region's units cleared: zero data symbols, epoch tag 0 and CLEAR = 1 (R314). -/
def State.clearRegion (s : State) (r : Nat) : State :=
  { s with hbm := s.hbm.filter (fun u => decide (u.1 / 2 ^ 24 ≠ r)), eccUnits := s.eccUnits.filter fun u => decide (u.1 / 2 ^ 24 ≠ r) }

/-- REGION_CLEAR_END (R415): the region is NONE, and with the last one of a whole release the paddock is FREE. -/
def State.endClear (s : State) (r : Nat) : State :=
  let x := s.region r
  if x.state ≠ .scrubbing then s
  else
    let p := x.owner.toNat
    let s := (s.clearRegion r).setRegion r {}
    let left := withBit (s.pdk p).clearing r false
    if (s.pdk p).clearing = left then s
    else if left = 0 then s.finishRelease p (s.pdk p).releasedRegions
    else s.modPdk p fun x => { x with clearing := left }

/-- REGION_CLEAR_END. -/
def execRegionClearEnd (r : Nat) (s : State) : Host.Outcome State Fault Refusal := .next (s.whenRunning fun s => s.endClear r)

/-- A unit of paddock `p` that a sweep rewrites: not CLEAR, under another epoch. -/
def State.sweepUnit (s : State) (p u : Nat) : State :=
  let e := (s.pdk p).memEpoch
  let rewrite (s : State) : State :=
    let x := s.unit u
    { s with hbm := Tbl.put {} s.hbm u { stored := .underKey p e.toNat (zeroRoots s.sec.fuses) (s.plainBytes p u x), epoch := e, clear := false } }
  match s.eccUnits.find? fun c => decide (c.1 = u) with
  | some (_, .uncorrectable) => s.failUnit u false
  | some (_, .correctable) => rewrite (s.correctUnit u)
  | none => rewrite s

/-- The units that a sweep of paddock `p` rewrites, in ascending DPA. -/
def State.sweepUnits (s : State) (p : Nat) : List Nat :=
  (s.hbm.filter fun u => decide (s.hbmOwner u.1 = some p) && !u.2.clear && decide (u.2.epoch ≠ (s.pdk p).memEpoch)).map Prod.fst

/-- KEY_SWEEP_END (R422): every unit of the paddock carries the current epoch or CLEAR. -/
def State.endSweep (s : State) (p : Nat) : State :=
  if !(s.pdk p).sweep then s
  else
    let s := (s.sweepUnits p).foldl (fun s u => s.sweepUnit p u) s
    (s.modPdk p fun x => { x with sweep := false }).raise srcFarrier evtKeySweepDone (pack 128 [(0, 4, p), (4, 4, (s.pdk p).memEpoch.toNat)])

/-- KEY_SWEEP_END. -/
def execKeySweepEnd (p : Nat) (s : State) : Host.Outcome State Fault Refusal := .next (s.whenRunning fun s => s.endSweep p)

/-- PATROL_READ (R310): one unit of stack `k`, while PATROL is 1. -/
def State.patrol (s : State) (k u : Nat) : State :=
  if s.field .scrubCtl 0 1 = 0 ∨ stackOf u ≠ k then s
  else
    match s.eccUnits.find? fun c => decide (c.1 = u) with
    | some (_, .uncorrectable) => s.failUnit u true
    | some (_, .correctable) => s.correctUnit u
    | none => s

/-- PATROL_READ. -/
def execPatrolRead (k u : Nat) (env : Env) (s : State) : Host.Outcome State Fault Refusal :=
  .next (s.whenRunning fun s => (s.takeEnv env).patrol k u)

/-! ### Key rotation (R421 to R423) -/

/-- KEY_ROTATE (R421): the new epoch comes into force at position 200 of the next stride. -/
def State.keyRotate (s : State) (f : Fetched) : State × Answer :=
  let p := bits f.cmd.param 8 4
  let x := s.pdk p
  if (s.composed.pdk p).state ≠ .active then (s, .refused noteOwner)
  else if bit f.cmd.param 0 then (s.modPdk p fun x => { x with rotateLink := x.rotateLink + 1 }, .okLater)
  else if x.sweep || x.rotateMem then (s, .failed noteKeyBusy)
  else (s.modPdk p fun x => { x with rotateMem := true }, .okLater)

/-- KEY_ROTATE. -/
def execKeyRotate (s : State) : Host.Outcome State Fault Refusal :=
  .next (s.whenRunning fun s => s.command 0x42 true (some (some 1)) fun s c _ => s.keyRotate c)

/-! ### Attestation (R424, R430 to R434) -/

/-- Length of a report. -/
def reportBytes : Nat := 12064

/-- Fields placed in a string of zeros, each at its offset. -/
def placeFields (n : Nat) (fs : List (Nat × List Byte)) : List Byte :=
  fs.foldl (fun body f => body.take f.1 ++ f.2 ++ body.drop (f.1 + f.2.length)) (List.replicate n 0)

/-- The 1,568 bytes of an encapsulation key (R424). -/
def encapsulationKey (pair : Nat) : List Byte := (List.range 1568).map (Config.encapsulationByte pair)

/-- The LAYOUT entry of paddock `q` (R431). -/
def State.layoutOf (s : State) (q : Nat) : List Byte :=
  let x := s.pdk q
  let shares := (sheavesOf (s.mask q)).any s.sharedSheaf
  [BitVec.ofNat 8 x.state.code, BitVec.ofNat 8 (x.memEpoch.toNat + 16 * x.linkEpoch.toNat)] ++ leBytes 2 (popCount (s.mask q)) ++
    leBytes 2 (s.regionsOf q).length ++ leBytes 2 (b2n x.sealingKey.isSome + 2 * b2n shares + 4 * b2n (bit s.sec.touched q))

/-- The regions that paddock `p` owns, as bits. -/
def State.regionBits (s : State) (p : Nat) : BitVec 512 := (s.regionsOf p).foldl (fun v r => withBit v r true) 0

/-- DIGESTS of a report (R431): of the boot ROM, of the Farrier image, and of the PHY and governor firmware, which are sections of its
body (R462). -/
def Security.digests (x : Security) : List Byte :=
  (List.range 32).map Config.bootRomDigestByte ++ shakeDigest x.image ++
    (List.range 64).map fun i => Config.sectionDigestByte (i / 32) x.image (i % 32)

/-- The 576-byte body of a report (R431). -/
def State.reportBody (s : State) (p leaf : Nat) (nonce key : List Byte) : List Byte :=
  placeFields 576
    [(0, leBytes 2 1), (2, leBytes 1 s.sec.fuses.lifecycle), (3, leBytes 1 p), (4, leBytes 2 s.chipId),
     (8, leBytes 16 s.sec.fuses.serial.toNat), (24, leBytes 4 (if s.sec.fuses.lifecycle < lifeField then 0 else s.sec.fuses.fleetId.toNat)),
     (28, leBytes 4 s.sec.fwVersion.toNat), (32, leBytes 4 s.sec.fuses.rbMin), (40, leBytes 8 s.now), (48, leBytes 8 leaf), (56, nonce),
     (88, s.sec.digests), (216, shakeDigest (openFuseBytes s.sec.fuses)), (248, leBytes 8 s.debugStateReg.toNat),
     (256, paddockNumbers.flatMap s.layoutOf), (384, leBytes 50 (s.mask p).toNat), (448, leBytes 64 (s.regionBits p).toNat),
     (512, shakeDigest key)]

/-- A report: its body, the signature with a leaf, and the encapsulation key (R431). -/
def State.report (s : State) (p leaf pair : Nat) (nonce : List Byte) : List Byte :=
  let key := encapsulationKey pair
  let body := s.reportBody p leaf nonce key
  placeFields reportBytes
    [(0, body), (576, (List.range 9893).map fun i => Config.signatureByte leaf i body), (10496, key)]

/-- A bound to be written to the store: one request at a time (R505). -/
def Security.askStore (x : Security) (r : StoreRequest) : Security :=
  if x.request.isNone then { x with request := some r, requestRead := false } else { x with nextRequest := some r }

/-- Leaves that a bound reserves. -/
def leafBlock : Nat := 2 ^ 20

/-- No bound above this one is written (R434). -/
def leafSpace : Nat := 2 ^ 40

/-- The store is in use: PK_RPS is fused and not withdrawn (R426). -/
def storeUsed (f : Fuses) : Bool := decide (f.lifecycle = lifeProvisioned) || decide (f.lifecycle = lifeField)

/-- A leaf is used: NEXT moves on, and at LIMIT − 2^19 a new bound is written while the store is in use (R426, R433, R434). -/
def Security.useLeaf (x : Security) : Security :=
  let x := { x with attNext := x.attNext + 1 }
  if storeUsed x.fuses = true ∧ x.attNext.toNat + 2 ^ 19 = x.attLimit.toNat ∧ x.attLimit.toNat + leafBlock ≤ leafSpace then
    x.askStore (.write (BitVec.ofNat 41 (x.attLimit.toNat + leafBlock)))
  else x

/-- The paddock's encapsulation key pair, generated from the random source at its first ATTEST (R424). -/
def State.withKeyPair (s : State) (p : Nat) : State × Nat :=
  match (s.pdk p).keyPair with
  | some n => (s, n)
  | none =>
    let (v, s) := s.draw
    (s.modPdk p fun x => { x with keyPair := some v.toNat }, v.toNat)

/-- Reports admitted at one tick at most. -/
def maxReports : Nat := 4

/-- ATTEST signs with the next leaf, if there is one (R430, R433, R434). -/
def State.sign (s : State) (p dest : Nat) (nonce : List Byte) : State × Answer :=
  let s := { s with sec := { s.sec with attThisTick := s.sec.attThisTick + 1 } }
  let (s, pair) := s.withKeyPair p
  let next := s.sec.attNext.toNat
  let limit := s.sec.attLimit.toNat
  if next < limit then
    let s := s.masterWrite srcFarrier p dest (s.report p next pair nonce)
    ({ s with sec := s.sec.useLeaf }, .ok)
  else if leafSpace < limit + leafBlock then (s, .failed noteAttExhausted)
  else (s.raise srcFarrier evtAttIndex (pack 128 [(0, 40, next), (64, 41, limit)]), .failed noteAttIndex)

/-- ATTEST (R430). -/
def State.attest (s : State) (f : Fetched) : State × Answer :=
  let p := f.paddock
  let dest := f.cmd.arg
  if s.sec.fuses.lifecycle = lifeBlank then (s, .failed noteLifecycle)
  else if dest % 64 ≠ 0 then (s, .illegal)
  else if !s.ownSpan p dest reportBytes then (s, .refused noteOwner)
  else if maxReports ≤ s.sec.attThisTick then (s, .failed noteAttBusy)
  else
    match s.readOperand p f.cmd.arg2 32 with
    | (s, none) => (s, .failed noteOperand)
    | (s, some nonce) => s.sign p dest nonce

/-- ATTEST. -/
def execAttest (env : Env) (s : State) : Host.Outcome State Fault Refusal :=
  .next (s.whenRunning fun s => (s.takeEnv env).command 0x43 false (some (some reportBytes)) fun s c _ => s.attest c)

/-! ### Sealing keys (R425) -/

/-- A SEAL_IN or SEAL_OUT of paddock `p` is incomplete. -/
def State.sealsPending (s : State) (p : Nat) : Bool :=
  s.host.copies.any fun j => decide (j.paddock = p) && decide (j.kind ≠ .copy)

/-- SEAL_KEY (R425): the key is in force for copies admitted from the next tick. -/
def State.sealKey (s : State) (f : Fetched) : State × Answer :=
  let p := f.paddock
  match (s.pdk p).keyPair with
  | none => (s, .failed noteNoEk)
  | some n =>
    if s.sealsPending p then (s, .failed noteSealBusy)
    else
      match s.readOperand p f.cmd.arg 1568 with
      | (s, none) => (s, .failed noteOperand)
      | (s, some bs) => (s.modPdk p fun x => { x with sealingNext := some (Config.decapsulate n bs) }, .ok)

/-- SEAL_KEY. -/
def execSealKey (env : Env) (s : State) : Host.Outcome State Fault Refusal :=
  .next (s.whenRunning fun s => (s.takeEnv env).command 0x44 false (some (some 1568)) fun s c _ => s.sealKey c)

end Sys2Proof.Machine
end

