-- ==== Sys2Proof/Machine/Mgmt.lean ====
section
/-!
DEFINITION. Machine/Mgmt.lean: the management port (R502 to R506), which answers even while the part is held or asleep: register reads,
CAP_WRITE, hold, sleep and restart (R459, R460), the lifecycle (R427), the flash and the replay-protected store (R432, R433); and the
pins of R500 to R502.
-/

namespace Sys2Proof.Machine

/-! ### Responses (R502) -/

/-- Status done. -/
def mgtDone : Byte := 0
/-- Status refused. -/
def mgtRefused : Byte := 1

/-- The response to a request: a status byte and data. -/
def State.respond (s : State) (status : Byte) (bs : List Byte) : State := { s with mgt := status :: bs }

/-- Done, without data. -/
def State.done (s : State) : State := s.respond mgtDone []
/-- Refused. -/
def State.refuse (s : State) : State := s.respond mgtRefused []

/-! ### REG_READ and CAP_WRITE (R503, R504) -/

/-- First offset beyond the register space. -/
def regSpace : Nat := 0x4900000

/-- A register that a held or sleeping part gives. -/
def Reg.readWhileHeld (r : Reg) : Bool :=
  match r with
  | .bstBoot => true
  | .lifecycle => true
  | .secFw => true
  | .serial _ => true
  | .pwrTherm => true
  | _ => false

/-- The value of a REG_READ: zero where the offset names no register that may be read now. -/
def State.mgtValue (s : State) (offset : Nat) : BitVec 64 :=
  match (if offset % 8 = 0 then Reg.ofOffset offset else none) with
  | none => 0
  | some r => if s.isRunning || r.readWhileHeld then s.readReg 0 r else 0

/-- REG_READ (R503). -/
def State.mgtRead (s : State) (offset : Nat) : State :=
  if regSpace ≤ offset then s.refuse else s.respond mgtDone (leBytes 8 (s.mgtValue offset).toNat)

/-- REG_READ. -/
def execRegRead (offset : Nat) (s : State) : Host.Outcome State Fault Refusal := .next (s.mgtRead offset)

/-- CAP_WRITE (R503, R504): the PWR_CAP shadow and ARM bit 16. -/
def State.capWrite (s : State) (v : BitVec 16) : State :=
  if !s.isRunning || decide (v.toNat < 1000) || decide (2800 < v.toNat) then s.refuse
  else
    let s := (s.setShadow .pwrCap (setBits (s.shadow .pwrCap) 0 12 v.toNat)).noteDevice .pwrCap (maskOf 0 12)
    (s.armGroups (maskOf groupGlobal 1)).done

/-- CAP_WRITE. -/
def execCapWrite (v : BitVec 16) (s : State) : Host.Outcome State Fault Refusal := .next (s.capWrite v)

/-! ### Hold, sleep and restart (R459, R460) -/

/-- HOLD (R460): done with no change when already held or asleep. -/
def execHold (s : State) : Host.Outcome State Fault Refusal := .next (s.holdPart failRequest).done

/-- The part asleep (R459): FAIL_CODE is NONE. -/
def State.sleepPart (s : State) : State :=
  if s.isRunning then { s with boot := { s.boot with power := .asleep, failCode := 0 } } else s

/-- SLEEP (R460). -/
def execSleep (s : State) : Host.Outcome State Fault Refusal := .next s.sleepPart.done

/-- RESTART (R459, R503): a running part is held first; the power-up reset is the command that follows. -/
def State.mgtRestart (s : State) : State := (s.holdPart failRequest).done

/-- MGT_RESTART. -/
def execMgtRestart (s : State) : Host.Outcome State Fault Refusal := .next s.mgtRestart

/-! ### Lifecycle and flash (R426, R427, R506) -/

/-- A transition token that the Farrier takes: signed, for this part, and an advance (R426, R427). -/
def State.tokenOk (s : State) (k : Token) : Bool :=
  k.verified && decide (k.serial = s.sec.fuses.serial) && decide (s.sec.fuses.lifecycle < k.target) && decide (k.target ≤ lifeScrapped)

/-- LIFECYCLE (R427): the advance, its event and SECURITY; a SCRAPPED part is held, and a RETURNED one uses the store no more (R426). -/
def State.advanceLife (s : State) (k : Token) : State :=
  if !s.tokenOk k then s.refuse
  else
    let old := s.sec.fuses.lifecycle
    let f := { s.sec.fuses with lifecycle := k.target }
    let sec := if storeUsed f then s.sec else { s.sec with request := none, requestRead := false, nextRequest := none }
    let s := { s with sec := { sec with fuses := f } }
    let s := (s.raise srcFarrier evtLifecycle (pack 128 [(0, 3, old), (3, 3, k.target)])).setSecurity
    (if k.target = lifeScrapped then s.holdPart failScrapped else s).done

/-- LIFECYCLE. -/
def execLifecycle (k : Token) (s : State) : Host.Outcome State Fault Refusal := .next (s.advanceLife k)

/-- Bytes written into the flash from an offset on. -/
def writeFlash (m : Tbl (Option Byte)) (offset : Nat) : List Byte → Tbl (Option Byte)
  | [] => m
  | b :: rest => writeFlash (Tbl.put none m offset (some b)) (offset + 1) rest

/-- FLASH_WRITE (R503, R506): while the part is held. -/
def State.flashWrite (s : State) (offset : Nat) (bs : List Byte) : State :=
  if s.boot.power ≠ .held ∨ 256 < bs.length then s.refuse
  else { s with flash := writeFlash s.flash offset bs }.done

/-- FLASH_WRITE. -/
def execFlashWrite (offset : Nat) (bs : List Byte) (s : State) : Host.Outcome State Fault Refusal := .next (s.flashWrite offset bs)

/-! ### The replay-protected store (R432, R433, R505) -/

/-- The number of a request, for its bytes. -/
def StoreRequest.number : StoreRequest → Nat
  | .read => 0
  | .write b => b.toNat + 1

/-- RPS_FETCH (R503, R505): the pending request, up to 64 bytes. -/
def State.rpsFetch (s : State) : State :=
  match (if s.isRunning then s.sec.request else none) with
  | none => s.done
  | some r =>
    { s with sec := { s.sec with requestRead := true } }.respond mgtDone ((List.range 64).map (Config.storeRequestByte r.number))

/-- RPS_FETCH. -/
def execRpsFetch (s : State) : Host.Outcome State Fault Refusal := .next s.rpsFetch

/-- The counter of a response is one more than the last accepted since power-up, if there was one (R432). -/
def Security.counterOk (x : Security) (counter : BitVec 64) : Bool :=
  match x.storeCounter with
  | none => true
  | some c => decide (counter = c + 1)

/-- The request is answered; one that waited takes its place (R505). -/
def Security.answered (x : Security) : Security := { x with request := x.nextRequest, requestRead := false, nextRequest := none }

/-- The bound read at power-up (R433): a new one is written, unless it would lie beyond the leaves (R434). -/
def Security.takeRead (x : Security) (bound : BitVec 41) : Security :=
  let x := x.answered
  if bound.toNat + leafBlock ≤ leafSpace then x.askStore (.write (BitVec.ofNat 41 (bound.toNat + leafBlock)))
  else { x with attNext := bound, attLimit := bound }

/-- A written bound answered (R433): LIMIT is raised, and after power-up NEXT is set. -/
def Security.takeWrite (x : Security) (bound : BitVec 41) : Security :=
  let x := x.answered
  if x.attReady then { x with attLimit := bound }
  else { x with attReady := true, attNext := bound - BitVec.ofNat 41 leafBlock, attLimit := bound }

/-- An accepted response (R432, R433); one that does not carry the written bound leaves the request to be fetched again. -/
def Security.takeAnswer (x : Security) (r : StoreRequest) (a : StoreReply) : Security :=
  let x := { x with storeCounter := some a.counter }
  match r with
  | .read => x.takeRead a.bound
  | .write b => if a.bound = b then x.takeWrite b else { x with requestRead := false }

/-- RPS_REPLY (R432, R503). -/
def State.rpsReply (s : State) (a : StoreReply) : State :=
  match (if s.isRunning && s.sec.requestRead then s.sec.request else none) with
  | none => s.refuse
  | some r =>
    if a.tagOk && s.sec.counterOk a.counter then { s with sec := s.sec.takeAnswer r a }.done
    else
      ((s.raise srcFarrier evtRpsAuth (pack 128 [(0, 1, b2n (!a.tagOk)), (64, 64, a.counter.toNat)])).setSecurity).refuse

/-- RPS_REPLY. -/
def execRpsReply (a : StoreReply) (s : State) : Host.Outcome State Fault Refusal := .next (s.rpsReply a)

/-- MGT_RESERVED_REQUEST (R503): refused. -/
def execMgtReservedRequest (_ : BitVec 8) (s : State) : Host.Outcome State Fault Refusal := .next s.refuse

/-! ### Pins (R500 to R502) -/

/-- How long STRIDE_MARK stays high after a tick, in ns (R500). -/
def markLength : Nat := 1000

/-- STRIDE_MARK is high (R500). -/
def State.strideMarkHigh (s : State) : Bool := s.isRunning && decide (s.now < s.strideMark + markLength)

/-- MGT_ALERT_N is low: an unread request for the store (R502, R505). -/
def State.mgtAlertLow (s : State) : Bool := s.isRunning && s.sec.request.isSome && !s.sec.requestRead

/-- FAULT_N is low: the part is held or asleep (R501). -/
def State.faultLow (s : State) : Bool := !s.isRunning

/-- THERM_ALERT_N is low: THERMAL of the status field is set (R501). -/
def State.thermAlertLow (s : State) : Bool := s.isRunning && s.thermalBit

end Sys2Proof.Machine
end

