-- ==== Sys2Proof/Machine/Scalar.lean ====
section
/-!
DEFINITION. Machine/Scalar.lean: scalar, predicate, address and descriptor instructions and the scalar loads and stores of
a tile (R258 to R264, R230).
-/

namespace Sys2Proof.Machine

/-- An s register written, its value landing after a latency (R249). -/
def State.writeS (s : State) (n r : Nat) (v : BitVec 32) (latency : Nat) : State :=
  s.modTile n fun t =>
    let t := t.setS r v
    if latency ≤ 1 then t else t.landAt (rS r) (s.now + latency)

/-- ALU latency (R249, R258). -/
def aluLatency (f : Nat) : Nat := if f = 2 ∨ f = 3 then 3 else 1

/-- ALU (R258). -/
def aluBody (n : Nat) (s : State) (t : Tile) (w : BitVec 64) : Issued :=
  .retire (s.writeS n (fD w) (aluResult (fF w) (t.s (fA w)) (t.s (fB w)) (t.p (fC w))) (aluLatency (fF w))) 1 none

/-- ALU. -/
def execAlu (n : Nat) (s : State) : Host.Outcome State Fault Refusal := .next (s.issue n 0x10 (aluBody n))

/-- ALUI (R258). -/
def aluiBody (n : Nat) (s : State) (t : Tile) (w : BitVec 64) : Issued :=
  .retire (s.writeS n (fD w) (aluResult (fF10 w) (t.s (fA w)) (imm32 w) false) (aluLatency (fF10 w))) 1 none

/-- ALUI. -/
def execAlui (n : Nat) (s : State) : Host.Outcome State Fault Refusal := .next (s.issue n 0x11 (aluiBody n))

/-- LI (R258). -/
def execLi (n : Nat) (s : State) : Host.Outcome State Fault Refusal :=
  .next (s.issue n 0x12 fun s _ w => .retire (s.writeS n (fD w) (imm32 w) 1) 1 none)

/-- CMP (R259). -/
def execCmp (n : Nat) (s : State) : Host.Outcome State Fault Refusal :=
  .next (s.issue n 0x13 fun s t w =>
    .retire (s.modTile n fun x => x.setP (fD w) (cmpResult (fF w) (t.s (fA w)) (t.s (fB w)))) 1 none)

/-- CMPI (R259). -/
def execCmpi (n : Nat) (s : State) : Host.Outcome State Fault Refusal :=
  .next (s.issue n 0x14 fun s t w =>
    .retire (s.modTile n fun x => x.setP (fD w) (cmpResult (fF10 w) (t.s (fA w)) (imm32 w))) 1 none)

/-- The result of PRED (R260). -/
def predResult (f : Nat) (a b : Bool) (imm : Bool) : Bool :=
  match f with
  | 0 => a && b
  | 1 => a || b
  | 2 => a != b
  | 3 => a && !b
  | 4 => !a
  | _ => imm

/-- PRED (R260). -/
def execPred (n : Nat) (s : State) : Host.Outcome State Fault Refusal :=
  .next (s.issue n 0x15 fun s t w =>
    .retire (s.modTile n fun x => x.setP (fD w) (predResult (fF w) (t.p (fA w)) (t.p (fB w)) (bit w 0))) 1 none)

/-- AOP (R261). -/
def aopBody (n : Nat) (s : State) (t : Tile) (w : BitVec 64) : Issued :=
  let a := t.a (fA w)
  let sb := t.s (fB w)
  let d := fD w
  match fF w with
  | 0 => .retire (s.modTile n fun x => x.setA d (a + sext 48 32 sb.toNat)) 1 none
  | 1 => .retire (s.modTile n fun x => x.setA d (a + BitVec.ofNat 48 sb.toNat)) 1 none
  | 2 => .retire (s.modTile n fun x => (x.setA d (a + BitVec.ofNat 48 (sb.toNat * imm24 w))).landAt (rA d) (s.now + 3)) 1 none
  | 3 => .retire (s.modTile n fun x => x.setA d a) 1 none
  | 4 => .retire (s.modTile n fun x => x.setA d (BitVec.ofNat 48 (sb.toNat % 2 ^ 16 * 2 ^ 32 + (t.s (fA w)).toNat))) 1 none
  | 5 => .retire (s.modTile n fun x => x.setS d (BitVec.ofNat 32 a.toNat)) 1 none
  | _ => .retire (s.modTile n fun x => x.setS d (BitVec.ofNat 32 (a.toNat / 2 ^ 32))) 1 none

/-- AOP. -/
def execAop (n : Nat) (s : State) : Host.Outcome State Fault Refusal := .next (s.issue n 0x18 (aopBody n))

/-- ALI (R261). -/
def execAli (n : Nat) (s : State) : Host.Outcome State Fault Refusal :=
  .next (s.issue n 0x19 fun s _ w => .retire (s.modTile n fun x => x.setA (bits w 48 4) (BitVec.ofNat 48 (bits w 0 48))) 1 none)

/-- AADDI (R261). -/
def execAaddi (n : Nat) (s : State) : Host.Outcome State Fault Refusal :=
  .next (s.issue n 0x1A fun s t w =>
    .retire (s.modTile n fun x => x.setA (fD w) (t.a (fA w) + sext 48 32 (imm32 w).toNat)) 1 none)

/-- The tile-store offset of a scalar access: sA + IMM modulo 2^32, IMM sign-extended (R263). -/
def scalarOffset (t : Tile) (w : BitVec 64) : Nat := (t.s (fA w) + sext 32 24 (imm24 w)).toNat

/-- An offset that is aligned and lies in the tile store (R230). -/
def offsetOk (o size : Nat) : Bool := decide (o % size = 0) && decide (o + size ≤ 0xC000)

/-- A scalar load issued: its word is read in issue order, errors included, and the register is pending until the load returns
(R230, R249). -/
def State.startLoad (s : State) (n : Nat) (t : Tile) (w : BitVec 64) (k : OpKind) (o size : Nat) : State :=
  let (s, bad) := s.checkRead (tileBase n + o) size
  let data := BitVec.ofNat 256 (leNat (Memory.bytes s.mem (tileBase n + o) size))
  let op : UnitOp := { kind := k, pc := t.pc, word := w, d := data, x := BitVec.ofNat 32 o, y := BitVec.ofNat 32 size,
                       unreadable := bad.isSome, issued := s.now, started := some s.now }
  s.modTile n fun t => { t with loads := t.loads ++ [op] }

/-- LD, LDA and TLD (R262, R263). -/
def loadBody (n : Nat) (k : OpKind) (size : BitVec 64 → Nat) (s : State) (t : Tile) (w : BitVec 64) : Issued :=
  let o := scalarOffset t w
  if offsetOk o (size w) then .retire (s.startLoad n t w k o (size w)) 1 none else .fault cAlign 0

/-- Bytes of an LD or ST by F[1:0] (R263). -/
def ldSize (w : BitVec 64) : Nat := 2 ^ bits w 24 2

/-- LD. -/
def execLd (n : Nat) (s : State) : Host.Outcome State Fault Refusal := .next (s.issue n 0x20 (loadBody n .ld ldSize))

/-- Stores (R262 to R264): the bytes are written at issue. -/
def storeBody (n : Nat) (size : Nat) (value : Nat) (s : State) (t : Tile) (w : BitVec 64) : Issued :=
  let o := scalarOffset t w
  if offsetOk o size then
    .retire { s with mem := Memory.setBytes s.mem (tileBase n + o) (leBytes size value),
                     eccWords := clearMarks s.eccWords 8 (tileBase n + o) size } 1 none
  else .fault cAlign 0

/-- ST (R263). -/
def execSt (n : Nat) (s : State) : Host.Outcome State Fault Refusal :=
  .next (s.issue n 0x21 fun s t w => storeBody n (ldSize w) (t.s (fB w)).toNat s t w)

/-- LDA (R263). -/
def execLda (n : Nat) (s : State) : Host.Outcome State Fault Refusal := .next (s.issue n 0x22 (loadBody n .lda fun _ => 8))

/-- STA (R263): 8 bytes, zero-extended. -/
def execSta (n : Nat) (s : State) : Host.Outcome State Fault Refusal :=
  .next (s.issue n 0x23 fun s t w => storeBody n 8 (t.a (fB w)).toNat s t w)

/-- TLD (R262). -/
def execTld (n : Nat) (s : State) : Host.Outcome State Fault Refusal := .next (s.issue n 0x24 (loadBody n .tld fun _ => 32))

/-- TST (R262). -/
def execTst (n : Nat) (s : State) : Host.Outcome State Fault Refusal :=
  .next (s.issue n 0x25 fun s t w => storeBody n 32 (t.t (fB w)).toNat s t w)

/-- One field of a descriptor written (R262). -/
def tsetField (f : Nat) (d : BitVec 256) (a : BitVec 48) (x : BitVec 32) : BitVec 256 :=
  match f with
  | 0 => setBits d 0 48 a.toNat
  | 1 => setBits d 64 48 a.toNat
  | 2 => setBits d 128 21 x.toNat
  | 3 => setBits d 149 21 x.toNat
  | 4 => setBits d 192 32 x.toNat
  | 5 => setBits d 224 32 x.toNat
  | 6 => setBits d 48 16 x.toNat
  | _ => setBits d 112 5 x.toNat

/-- TSET (R262). -/
def execTset (n : Nat) (s : State) : Host.Outcome State Fault Refusal :=
  .next (s.issue n 0x26 fun s t w =>
    .retire (s.modTile n fun x => x.setT (fD w) (tsetField (fF w) (t.t (fD w)) (t.a (fA w)) (t.s (fA w)))) 1 none)

/-- A descriptor with BASE and SCALE_BASE advanced modulo 2^48 (R262). -/
def taddResult (d : BitVec 256) (x y : BitVec 32) : BitVec 256 :=
  setBits (setBits d 0 48 (dBase d + x.toNat)) 64 48 (dScale d + y.toNat)

/-- TADD (R262). -/
def execTadd (n : Nat) (s : State) : Host.Outcome State Fault Refusal :=
  .next (s.issue n 0x27 fun s t w =>
    .retire (s.modTile n fun x => x.setT (fD w) (taddResult (t.t (fD w)) (t.s (fA w)) (t.s (fB w)))) 1 none)

/-- The register value a load returns (R263). -/
def loadValue (w : BitVec 64) (data : BitVec 256) : BitVec 32 :=
  let n := 8 * ldSize w
  let x := bits data 0 n
  if bit w 26 then sext 32 n x else BitVec.ofNat 32 x

/-- A scalar load returns: its register lands (R230, R249). -/
def Tile.landLoad (t : Tile) (o : UnitOp) : Tile :=
  match o.kind with
  | .lda => t.setA (fD o.word) (BitVec.ofNat 48 (bits o.d 0 48))
  | .tld => t.setT (fD o.word) o.d
  | _ => t.setS (fD o.word) (loadValue o.word o.d)

/-- The oldest scalar load of tile `n` returns, 4 aclk after its issue (R230); an uncorrectable word that its read met, at
issue or as an upset of this command, faults the tile with TILE_ECC (R297). -/
def State.returnLoad (s : State) (n : Nat) : State :=
  match (s.tile n).loads with
  | [] => s
  | o :: rest =>
    let s := s.advanceTo (o.issued + 4)
    let s := s.modTile n fun t => { t with loads := rest }
    if o.unreadable then s.opFault n cEcc 0 o
    else
      let (s, bad) := s.checkRead (tileBase n + o.x.toNat) o.y.toNat
      match bad with
      | some _ => s.opFault n cEcc 0 o
      | none => s.modTile n fun t => t.landLoad o

/-- SCALAR_LOAD_RETURN. -/
def execScalarLoadReturn (n : Nat) (env : Env) (s : State) : Host.Outcome State Fault Refusal :=
  .next (s.whenRunning fun s => (s.takeEnv env).returnLoad n)

/-- The loads that a tile issued before its stride wait have returned by the tick (R225, R230): one whose read met an
uncorrectable word lands nothing. -/
def Tile.settleLoads (t : Tile) : Tile :=
  { ((t.loads.filter fun o => !o.unreadable).foldl Tile.landLoad t) with loads := [] }

end Sys2Proof.Machine
end

