-- ==== Sys2Proof/Machine/Switch.lean ====
section
/-!
DEFINITION. Machine/Switch.lean: the switch of a shared sheaf from one paddock to another (R64, R65, R243, R407).
-/

namespace Sys2Proof.Machine

/-! ### Context records (R243) -/

/-- Bytes of a context record. -/
def contextRecord : Nat := 256

/-- DPA of the context record of tile `n` for paddock `p` (R407). -/
def State.contextOf (s : State) (p n : Nat) : Nat := s.contextBase p (n / 64) + contextRecord * (n % 64)

/-- A loop level of a context record. -/
def LoopLevel.word (l : LoopLevel) : BitVec 64 := pack 64 [(0, 24, l.remaining.toNat), (24, 11, l.start.toNat), (35, 11, l.stop.toNat)]

/-- The loop level that a word holds. -/
def LoopLevel.ofWord (w : BitVec 64) : LoopLevel :=
  { remaining := BitVec.ofNat 24 (bits w 0 24), start := BitVec.ofNat 11 (bits w 24 11), stop := BitVec.ofNat 11 (bits w 35 11) }

/-- The word of PC, predicates, open loops, non-finite flag and state. -/
def Tile.stateWord (t : Tile) : BitVec 64 :=
  pack 64 [(0, 11, t.pc.toNat), (16, 8, (withBit t.preds 0 true).toNat), (24, 3, t.loops.length), (48, 1, b2n t.nfFlag),
           (49, 3, t.seqState.code)]

/-- The word of a tile's program. -/
def programWord (r : Option ProgRange) : BitVec 64 :=
  match r with
  | none => 0
  | some r => pack 64 [(0, 11, r.origin.toNat), (12, 12, r.length.toNat), (32, 17, r.budget.toNat), (52, 11, r.entry.toNat)]

/-- The 256 bytes of a tile's context record. -/
def Tile.context (t : Tile) : List Byte :=
  ((List.range 16).flatMap fun i => leBytes 4 (Tbl.get 0 t.sregs i).toNat) ++
    ((List.range 8).flatMap fun i => leBytes 8 (Tbl.get 0 t.aregs i).toNat) ++
    ((List.range 8).flatMap fun i => leBytes 4 (Tbl.get 0 t.lengths i).toNat) ++
    ((List.range 4).flatMap fun i => leBytes 8 (match t.loops[i]? with | some l => l.word.toNat | none => 0)) ++
    leBytes 8 t.stateWord.toNat ++ leBytes 8 t.nfPos.toNat ++ leBytes 8 (programWord t.program).toNat ++ leBytes 40 0

/-- The state that a record restores: WAITING, HALTED or FAULTED, else IDLE. -/
def stateOf (code : Nat) : SeqState :=
  match code with
  | 2 => .waiting
  | 4 => .halted
  | 5 => .faulted
  | _ => .idle

/-- The program that a record names, with the queue of the paddock's range on the tile. -/
def Tile.programAt (t : Tile) (p : Nat) (w : BitVec 64) : Option ProgRange :=
  if bits w 12 12 = 0 then none
  else some
    { paddock := p, origin := BitVec.ofNat 11 (bits w 0 11), length := BitVec.ofNat 12 (bits w 12 12),
      budget := BitVec.ofNat 17 (bits w 32 17), entry := BitVec.ofNat 11 (bits w 52 11),
      queue := match t.ranges.find? fun r => decide (r.paddock = p) with | some r => r.queue | none => 0 }

/-- A table of little-endian numbers of `size` bytes. -/
def tableAt {n : Nat} (bs : List Byte) (lo size count : Nat) : Tbl (BitVec n) :=
  Tbl.ofList 0 0 ((List.range count).map fun i => BitVec.ofNat n (leNat ((bs.drop (lo + size * i)).take size)))

/-- A blank tile with a context record loaded. -/
def Tile.withContext (t : Tile) (p : Nat) (bs : List Byte) : Tile :=
  let w := recordWord bs 24
  { t.blank with
    sregs := tableAt bs 0 4 16, aregs := tableAt bs 0x40 8 8, lengths := tableAt bs 0x80 4 8,
    loops := (List.range (min 4 (bits w 24 3))).map fun i => LoopLevel.ofWord (recordWord bs (20 + i)),
    pc := BitVec.ofNat 11 (bits w 0 11), preds := withBit (BitVec.ofNat 8 (bits w 16 8)) 0 false, nfFlag := bit w 48,
    seqState := stateOf (bits w 49 3), nfPos := BitVec.ofNat 32 (bits (recordWord bs 25) 0 32), program := t.programAt p (recordWord bs 26) }

/-! ### Saved Martingale entries (R65) -/

/-- A PART window whose verdict has not been formed. -/
def MtgEntry.partPending (x : MtgEntry) : Bool := x.inPart && (x.isOpen || x.evaluating.isSome)

/-- Such a window as the switch leaves it: closed, for the verdict of the global Martingale (R65). -/
def MtgEntry.closedPart (x : MtgEntry) (phase : Phase) (now : Nat) : MtgEntry :=
  { x with isOpen := false, evaluating := some (x.evaluating.getD (phase, now)) }

/-- One entry saved for the outgoing paddock. -/
def State.saveEntry (s : State) (q m e : Nat) : State :=
  let x := s.entry m e
  let src := srcSheaf m
  if x.partPending then
    let y := x.closedPart (s.phase q) s.now
    (s.masterWrite src q (s.entryArea q m e) y.bytes).modSheaf m fun z => { z with savedParts := z.savedParts ++ [(q, e, y)] }
  else (s.masterWrite src q (s.entryArea q m e) x.bytes).modSheaf m fun z => z.keepWindow q e x

/-- One entry loaded for the incoming paddock; a window whose verdict is still to come is in place again. -/
def State.loadEntry (s : State) (p m e : Nat) : State :=
  let mine (c : Nat × Nat × MtgEntry) : Bool := decide (c.1 = p) && decide (c.2.1 = e)
  match (s.sheaf m).savedParts.find? mine with
  | some c => s.modSheaf m fun x => { x with
      entries := Tbl.put {} x.entries e c.2.2, savedParts := x.savedParts.filter fun d => !mine d }
  | none =>
    let (s, bs, _) := s.masterRead (srcSheaf m) p (s.entryArea p m e) 128
    let y := MtgEntry.ofWords (recordWord bs)
    let y := match (s.sheaf m).savedWindows.find? mine with
      | some c => y.withHidden c.2.2
      | none => y
    (s.modEntry m e fun _ => y).modSheaf m fun x => { x with savedWindows := x.savedWindows.filter fun d => !mine d }

/-! ### The switch -/

/-- Martingale entries of a sheaf. -/
def entryNumbers : List Nat := List.range 256

/-- Closes whose verdict is being formed end before the switch (R124): 96 aclk are past at position 1,000. -/
def State.settleEntries (s : State) (m : Nat) : State :=
  (((s.sheaf m).entries.filter fun e => e.2.evaluating.isSome && !e.2.inPart).map Prod.fst).foldl (fun s e => s.evaluateClose m e) s

/-- The contexts and entries of the outgoing paddock saved. -/
def State.saveSheaf (s : State) (q m : Nat) : State :=
  let s := (tilesOfSheaf m).foldl (fun s n => s.masterWrite (srcSheaf m) q (s.contextOf q n) (s.tile n).context) s
  entryNumbers.foldl (fun s e => s.saveEntry q m e) s

/-- The context of tile `n` for the incoming paddock: its record, or HALTED with all registers zero after a load or restart. -/
def State.loadTile (s : State) (p m n : Nat) : State :=
  if (s.tile n).isFresh p then s.modTile n fun t => { t.blank with seqState := .halted }
  else
    let (s, bs, _) := s.masterRead (srcSheaf m) p (s.contextOf p n) contextRecord
    s.modTile n fun t => t.withContext p bs

/-- The incoming paddock's contexts and entries loaded. -/
def State.loadSheaf (s : State) (p m : Nat) : State :=
  let s := (tilesOfSheaf m).foldl (fun s n => s.loadTile p m n) s
  entryNumbers.foldl (fun s e => s.loadEntry p m e) s

/-- The paddock that sheaf `m` must switch to in this stride: the one that R60 or R61 selects, whose contents it does
not hold (R60, R64, R294). -/
def State.switchTo (s : State) (m : Nat) : Option Nat :=
  match s.runs m with
  | none => none
  | some p => if decide ((s.sheaf m).ran ≠ some p) && !s.isolated m && !s.sheafFailed m then some p else none

/-- PADDOCK_SWITCH (R64, R65): from position 1,000; entries are loaded by position 4,000. -/
def State.switchSheaf (s : State) (m : Nat) : State :=
  let s := s.unitsAct
  match s.switchTo m with
  | none => s
  | some p =>
    if !s.time.windowDue || decide (400 ≤ m) then s
    else
      let s := (s.advancePos 1000).settleEntries m
      let s := match (s.sheaf m).ran with
        | some q => if bit (s.mask q) m then s.saveSheaf q m else s
        | none => s
      let s := (s.clearSheafMemory m).modSheaf m fun x => { x with entries := [], arrivals := [] }
      (s.loadSheaf p m).modSheaf m fun x => { x with ran := some p, entriesLoaded := s.stride * strideLen + 4000 }

/-- PADDOCK_SWITCH. -/
def execPaddockSwitch (m : Nat) (s : State) : Host.Outcome State Fault Refusal :=
  .next (s.whenRunning fun s => s.switchSheaf m)

end Sys2Proof.Machine
end

