-- ==== Sys2Proof/Machine/Tick.lean ====
section
/-!
DEFINITION. Machine/Tick.lean: the stride tick (R34 to R36, R43, R48, R49): what ends with a stride and what is sampled at position 0
of the next.
-/

namespace Sys2Proof.Machine

/-- The tick that ends the present stride, or the one at which a load of the GTC put it (R35, R41). -/
def State.nextTick (s : State) : Nat := if s.time.tickDue then s.now else (s.stride + 1) * strideLen

/-- Tiles that have something left at the end of a stride: they run, or have faulted. -/
def State.lateTiles (s : State) : List Nat :=
  (s.tiles.filter fun t => decide (t.2.seqState = .running) || decide (t.2.seqState = .barrier) || decide (t.2.seqState = .faulted)).map Prod.fst

/-- The scalar loads of every tile have returned by the tick (R225, R230). -/
def State.settleLoads (s : State) : State :=
  { s with tiles := s.tiles.map fun t => (t.1, if t.2.loads.isEmpty then t.2 else t.2.settleLoads) }

/-- Everything of the ended stride that is still to come happens first: position 200, the watchdogs of tiles that still run, what
FAULTED tiles have not completed, and scalar loads (R45, R48, R230, R234, R511).  After a load of the GTC the stride ends at once,
in the aclk of the load (R36, R41). -/
def State.finishStride (s : State) : State :=
  let loaded := s.time.tickDue
  let s := if loaded then s.actUnits else s.unitsAct
  (s.lateTiles.foldl (fun s n => s.budgetEnds n (if loaded then s.now else s.deadline n) []) s).settleLoads

/-- The accounts of the ended stride (R447, R452 to R454). -/
def State.closeAccounts (s : State) (x : Sensors) : State :=
  let s := s.endSummaries
  let s := (s.countMissed.closeCharge).reportSlack (s.stride % 65536)
  s.attributeEnergy x.energyUJ

/-- After a host reset the queues are off, in force and in shadow (R473). -/
def State.disableQueues (s : State) : State :=
  if !s.host.resetPending then s
  else
    let s := queueNumbers.foldl (fun s q =>
      let r := Reg.qCtl q
      let sh := s.shadow r
      (s.setReg r (s.reg r &&& ~~~maskOf 0 1)).setShadow r (sh &&& ~~~maskOf 0 1)) s
    { s with host := { s.host with resetPending := false } }

/-- Sealing keys installed for copies admitted from this tick (R399, R425). -/
def State.installSealKeys (s : State) : State :=
  paddockNumbers.foldl (fun s p =>
    if (s.pdk p).sealingNext.isSome then s.modPdk p fun x => { x with sealingKey := x.sealingNext, sealingNext := none, sealCtr := 0, sealCtrOld := x.sealCtr } else s) s

/-- What is once a stride may come again: debug events (R439), attestations (R430), and what the stride still holds (R45). -/
def State.renew (s : State) : State :=
  let s := paddockNumbers.foldl (fun s p => s.modPdk p fun x => { x with debugUsed := 0 }) s
  { s with
    sec := { s.sec with attThisTick := 0 }, strideMark := s.now,
    time := { s.time with tickDue := false, actDue := true, fetchDue := true, windowDue := true, readDue := true, nextSpan := 0 } }

/-- Position 0 of the new stride: records of two strides ago leave, the governor samples, the armed groups are evaluated, and the
tethers accept (R43, R49, R364, R372, R436, R456). -/
def State.atTick (s : State) (x : Sensors) : State :=
  let s := (((s.ringWrite 2).sampleEnergy s.stride).readInput x.inputMv).sampleHeat x
  if !s.isRunning then s
  else ((((s.disableQueues.installSealKeys).commitTick).tetherTick).restoreTethers).renew

/-- STRIDE_TICK. -/
def State.strideTick (s : State) (x : Sensors) (env : Env) : State :=
  let at_ := s.nextTick
  let s := (((s.finishStride).closeAccounts x).setNow at_).measurePower x.energyUJ
  (s.takeEnv env).atTick x

/-- STRIDE_TICK. -/
def execStrideTick (x : Sensors) (env : Env) (s : State) : Host.Outcome State Fault Refusal :=
  .next (s.whenRunning fun s => s.strideTick x env)

end Sys2Proof.Machine
end

