-- ==== Sys2Proof/Machine/Dispatch.lean ====
section
/-!
DEFINITION. Machine/Dispatch.lean: one arm per constructor of Instr, each one call of its meaning.
-/

namespace Sys2Proof.Machine

/-- The effect of a command on everything but the queue. -/
def exec (i : Instr) (s : State) : Host.Outcome State Fault Refusal :=
  match i with
  | .strideTick sensors env => Sys2Proof.Machine.execStrideTick sensors env s
  | .unitsAct => Sys2Proof.Machine.execUnitsAct s
  | .mangerRead env => Sys2Proof.Machine.execMangerRead env s
  | .mangerFetch late => Sys2Proof.Machine.execMangerFetch late s
  | .replyWrite linkOk => Sys2Proof.Machine.execReplyWrite linkOk s
  | .replyBoundExpiry => Sys2Proof.Machine.execReplyBoundExpiry s
  | .paddockSwitch sheaf => Sys2Proof.Machine.execPaddockSwitch sheaf s
  | .gtcCorrection => Sys2Proof.Machine.execGtcCorrection s
  | .programWindowOpen => Sys2Proof.Machine.execProgramWindowOpen s
  | .programImageLoad env => Sys2Proof.Machine.execProgramImageLoad env s
  | .sheafActivitySpan span => Sys2Proof.Machine.execSheafActivitySpan span s
  | .selftestEnd sheaf logicOk memOk => Sys2Proof.Machine.execSelftestEnd sheaf logicOk memOk s
  | .strideSyncEdge d withinLimits => Sys2Proof.Machine.execStrideSyncEdge d withinLimits s
  | .holdover => Sys2Proof.Machine.execHoldover s
  | .reacquire => Sys2Proof.Machine.execReacquire s
  | .registerWrite offset size value => Sys2Proof.Machine.execRegisterWrite offset size value s
  | .apertureAccess offset size write env => Sys2Proof.Machine.execApertureAccess offset size write env s
  | .mtgEntryWrite sheaf entry word value => Sys2Proof.Machine.execMtgEntryWrite sheaf entry word value s
  | .evtReadIndexWrite read => Sys2Proof.Machine.execEvtReadIndexWrite read s
  | .debugMem value env => Sys2Proof.Machine.execDebugMem value env s
  | .debugMemDone => Sys2Proof.Machine.execDebugMemDone s
  | .debugHalt value => Sys2Proof.Machine.execDebugHalt value s
  | .debugForce value => Sys2Proof.Machine.execDebugForce value s
  | .end_ tile => Sys2Proof.Machine.execEnd tile s
  | .br tile => Sys2Proof.Machine.execBr tile s
  | .loop tile => Sys2Proof.Machine.execLoop tile s
  | .swait tile => Sys2Proof.Machine.execSwait tile s
  | .bar tile => Sys2Proof.Machine.execBar tile s
  | .barrierComplete sheaf barrier => Sys2Proof.Machine.execBarrierComplete sheaf barrier s
  | .fenceM tile => Sys2Proof.Machine.execFenceM tile s
  | .emit tile => Sys2Proof.Machine.execEmit tile s
  | .nfclr tile => Sys2Proof.Machine.execNfclr tile s
  | .rdsys tile => Sys2Proof.Machine.execRdsys tile s
  | .lrem tile => Sys2Proof.Machine.execLrem tile s
  | .nop tile => Sys2Proof.Machine.execNop tile s
  | .alu tile => Sys2Proof.Machine.execAlu tile s
  | .alui tile => Sys2Proof.Machine.execAlui tile s
  | .li tile => Sys2Proof.Machine.execLi tile s
  | .cmp tile => Sys2Proof.Machine.execCmp tile s
  | .cmpi tile => Sys2Proof.Machine.execCmpi tile s
  | .pred tile => Sys2Proof.Machine.execPred tile s
  | .aop tile => Sys2Proof.Machine.execAop tile s
  | .ali tile => Sys2Proof.Machine.execAli tile s
  | .aaddi tile => Sys2Proof.Machine.execAaddi tile s
  | .ld tile => Sys2Proof.Machine.execLd tile s
  | .st tile => Sys2Proof.Machine.execSt tile s
  | .lda tile => Sys2Proof.Machine.execLda tile s
  | .sta tile => Sys2Proof.Machine.execSta tile s
  | .tld tile => Sys2Proof.Machine.execTld tile s
  | .tst tile => Sys2Proof.Machine.execTst tile s
  | .tset tile => Sys2Proof.Machine.execTset tile s
  | .tadd tile => Sys2Proof.Machine.execTadd tile s
  | .scalarLoadReturn tile env => Sys2Proof.Machine.execScalarLoadReturn tile env s
  | .movb tile => Sys2Proof.Machine.execMovb tile s
  | .movt tile => Sys2Proof.Machine.execMovt tile s
  | .moveComplete tile index env => Sys2Proof.Machine.execMoveComplete tile index env s
  | .atom tile => Sys2Proof.Machine.execAtom tile s
  | .atomicPerform tile env => Sys2Proof.Machine.execAtomicPerform tile env s
  | .fmm tile => Sys2Proof.Machine.execFmm tile s
  | .fwaProductStart tile env => Sys2Proof.Machine.execFwaProductStart tile env s
  | .fwaProductComplete tile => Sys2Proof.Machine.execFwaProductComplete tile s
  | .fdr tile => Sys2Proof.Machine.execFdr tile s
  | .fwaDrainStart tile => Sys2Proof.Machine.execFwaDrainStart tile s
  | .fwaDrainComplete tile => Sys2Proof.Machine.execFwaDrainComplete tile s
  | .ffence tile => Sys2Proof.Machine.execFfence tile s
  | .bmm tile => Sys2Proof.Machine.execBmm tile s
  | .bwaProductStart tile env => Sys2Proof.Machine.execBwaProductStart tile env s
  | .bwaProductComplete tile => Sys2Proof.Machine.execBwaProductComplete tile s
  | .bdr tile => Sys2Proof.Machine.execBdr tile s
  | .bwaDrainStart tile => Sys2Proof.Machine.execBwaDrainStart tile s
  | .bwaDrainComplete tile => Sys2Proof.Machine.execBwaDrainComplete tile s
  | .hq tile => Sys2Proof.Machine.execHq tile s
  | .hx tile => Sys2Proof.Machine.execHx tile s
  | .hw tile => Sys2Proof.Machine.execHw tile s
  | .ht tile => Sys2Proof.Machine.execHt tile s
  | .conversionStart tile => Sys2Proof.Machine.execConversionStart tile s
  | .conversionComplete tile env => Sys2Proof.Machine.execConversionComplete tile env s
  | .mopen tile => Sys2Proof.Machine.execMopen tile s
  | .mclose tile => Sys2Proof.Machine.execMclose tile s
  | .mtgCloseEvaluation sheaf entry => Sys2Proof.Machine.execMtgCloseEvaluation sheaf entry s
  | .partVerdict paddock entry => Sys2Proof.Machine.execPartVerdict paddock entry s
  | .mverd tile => Sys2Proof.Machine.execMverd tile s
  | .agreementRepeat tile => Sys2Proof.Machine.execAgreementRepeat tile s
  | .agreementCompare tile => Sys2Proof.Machine.execAgreementCompare tile s
  | .ctab tile => Sys2Proof.Machine.execCtab tile s
  | .tableBuildComplete tile env => Sys2Proof.Machine.execTableBuildComplete tile env s
  | .ciss tile => Sys2Proof.Machine.execCiss tile s
  | .chaffStreamStart tile env => Sys2Proof.Machine.execChaffStreamStart tile env s
  | .chaffIssueComplete tile => Sys2Proof.Machine.execChaffIssueComplete tile s
  | .cdr tile => Sys2Proof.Machine.execCdr tile s
  | .chaffDrainComplete tile => Sys2Proof.Machine.execChaffDrainComplete tile s
  | .ckclr tile => Sys2Proof.Machine.execCkclr tile s
  | .ckrd tile => Sys2Proof.Machine.execCkrd tile s
  | .clen tile => Sys2Proof.Machine.execClen tile s
  | .sdraw tile => Sys2Proof.Machine.execSdraw tile s
  | .sdrop tile => Sys2Proof.Machine.execSdrop tile s
  | .sowerOperationComplete tile env => Sys2Proof.Machine.execSowerOperationComplete tile env s
  | .waitu tile => Sys2Proof.Machine.execWaitu tile s
  | .reservedOpcode tile => Sys2Proof.Machine.execReservedOpcode tile s
  | .tileBudget tile accepted => Sys2Proof.Machine.execTileBudget tile accepted s
  | .mangerNop => Sys2Proof.Machine.execMangerNop s
  | .config env => Sys2Proof.Machine.execConfig env s
  | .copy => Sys2Proof.Machine.execCopy s
  | .sealIn => Sys2Proof.Machine.execSealIn s
  | .sealOut => Sys2Proof.Machine.execSealOut s
  | .copyEngineTransfer env => Sys2Proof.Machine.execCopyEngineTransfer env s
  | .copyBoundExpiry => Sys2Proof.Machine.execCopyBoundExpiry s
  | .programSet env => Sys2Proof.Machine.execProgramSet env s
  | .restart env => Sys2Proof.Machine.execRestart env s
  | .collective env => Sys2Proof.Machine.execCollective env s
  | .collAbort => Sys2Proof.Machine.execCollAbort s
  | .tetherOpen env => Sys2Proof.Machine.execTetherOpen env s
  | .tetherClose => Sys2Proof.Machine.execTetherClose s
  | .linkRetrain => Sys2Proof.Machine.execLinkRetrain s
  | .paddockSet env => Sys2Proof.Machine.execPaddockSet env s
  | .paddockRelease env => Sys2Proof.Machine.execPaddockRelease env s
  | .keyRotate => Sys2Proof.Machine.execKeyRotate s
  | .attest env => Sys2Proof.Machine.execAttest env s
  | .sealKey env => Sys2Proof.Machine.execSealKey env s
  | .selftest env => Sys2Proof.Machine.execSelftest env s
  | .reservedCommand => Sys2Proof.Machine.execReservedCommand s
  | .readyWordPoll coll => Sys2Proof.Machine.execReadyWordPoll coll s
  | .collectiveStart coll => Sys2Proof.Machine.execCollectiveStart coll s
  | .chunkSend coll env => Sys2Proof.Machine.execChunkSend coll env s
  | .ownerUpdate coll chunk env => Sys2Proof.Machine.execOwnerUpdate coll chunk env s
  | .permuteHoldRelease coll => Sys2Proof.Machine.execPermuteHoldRelease coll s
  | .collectiveDeadline coll => Sys2Proof.Machine.execCollectiveDeadline coll s
  | .laneGroupStart port => Sys2Proof.Machine.execLaneGroupStart port s
  | .entrySend port entry env => Sys2Proof.Machine.execEntrySend port entry env s
  | .linkControlBlock port lcb => Sys2Proof.Machine.execLinkControlBlock port lcb s
  | .laneRemap port => Sys2Proof.Machine.execLaneRemap port s
  | .laneFail port lane stamp => Sys2Proof.Machine.execLaneFail port lane stamp s
  | .helloFrame port hello => Sys2Proof.Machine.execHelloFrame port hello s
  | .dataFrame port frame env => Sys2Proof.Machine.execDataFrame port frame env s
  | .reportFrame port frame => Sys2Proof.Machine.execReportFrame port frame s
  | .idleFrame port => Sys2Proof.Machine.execIdleFrame port s
  | .tetherOpeningTimeout tether => Sys2Proof.Machine.execTetherOpeningTimeout tether s
  | .tetherBroken tether => Sys2Proof.Machine.execTetherBroken tether s
  | .tetherBoundExpiry tether => Sys2Proof.Machine.execTetherBoundExpiry tether s
  | .bridleInsert site found => Sys2Proof.Machine.execBridleInsert site found s
  | .bridleRemove site => Sys2Proof.Machine.execBridleRemove site s
  | .bridleLifeWrite site seconds => Sys2Proof.Machine.execBridleLifeWrite site seconds s
  | .bridleWear site seconds => Sys2Proof.Machine.execBridleWear site seconds s
  | .bridleEol site seconds => Sys2Proof.Machine.execBridleEol site seconds s
  | .patrolRead stack unit env => Sys2Proof.Machine.execPatrolRead stack unit env s
  | .regionClearEnd region => Sys2Proof.Machine.execRegionClearEnd region s
  | .keySweepEnd paddock => Sys2Proof.Machine.execKeySweepEnd paddock s
  | .gleanerRecord => Sys2Proof.Machine.execGleanerRecord s
  | .gleanerRingWrite => Sys2Proof.Machine.execGleanerRingWrite s
  | .hostLinkTrain width rate => Sys2Proof.Machine.execHostLinkTrain width rate s
  | .hostReset => Sys2Proof.Machine.execHostReset s
  | .inputExcursion mv => Sys2Proof.Machine.execInputExcursion mv s
  | .inputFail mv => Sys2Proof.Machine.execInputFail mv s
  | .refclkLoss => Sys2Proof.Machine.execRefclkLoss s
  | .powerUpReset boot => Sys2Proof.Machine.execPowerUpReset boot s
  | .regRead offset => Sys2Proof.Machine.execRegRead offset s
  | .capWrite value => Sys2Proof.Machine.execCapWrite value s
  | .mgtRestart => Sys2Proof.Machine.execMgtRestart s
  | .hold => Sys2Proof.Machine.execHold s
  | .sleep => Sys2Proof.Machine.execSleep s
  | .lifecycle token => Sys2Proof.Machine.execLifecycle token s
  | .flashWrite offset data => Sys2Proof.Machine.execFlashWrite offset data s
  | .rpsFetch => Sys2Proof.Machine.execRpsFetch s
  | .rpsReply reply => Sys2Proof.Machine.execRpsReply reply s
  | .mgtReservedRequest op => Sys2Proof.Machine.execMgtReservedRequest op s
  | .linkTrainingEnd port lanes delayNs => Sys2Proof.Machine.execLinkTrainingEnd port lanes delayNs s
  | .debugScan => Sys2Proof.Machine.execDebugScan s
  | .inputExcursionEnd mv => Sys2Proof.Machine.execInputExcursionEnd mv s
  | .hostRegisterRead offset size => Sys2Proof.Machine.execHostRegisterRead offset size s

end Sys2Proof.Machine
end

