-- ==== Sys2Proof/Safety.lean ====
section
/-!
DEFINITION. Safety.lean: what counts as a safe state and a safe step, and the words the statements are written in: when
a tile issues an instruction, and what a command that goes its normal way leaves.
-/

namespace Sys2Proof.Safety

/-- A step answers a next state. -/
def completes (o : Host.Outcome Machine.State Machine.Fault Machine.Refusal) : Bool :=
  match o with
  | .next _ => true
  | .fault _ => false
  | .refused _ => false

/-- Memory and flash are in canonical form. -/
def memoryOk (s : Machine.State) : Bool := Memory.wf s.mem && Tbl.sorted s.flash

/-- A run of `k` steps neither faults nor refuses. -/
def safeRun : Nat → Machine.State → Bool
  | 0, _ => true
  | k + 1, s =>
    match Machine.step s with
    | .next s' => safeRun k s'
    | .fault _ => false
    | .refused _ => false

/-- Tile `n` runs, the word at its PC is `w` with major opcode `op` and no reserved encoding, its guard holds, and it issues
at GTC `at_`: in the program window, when the registers it names have landed, its unit accepts it at `unit`, and the watchdog has
not passed (R46, R234, R245, R246, R249). -/
structure Issues (s : Machine.State) (n op unit : Nat) (w : BitVec 64) (at_ : Nat) : Prop where
  powered : s.isRunning = true
  state : (s.tile n).seqState = .running
  word : (s.tile n).fetch = w
  opcode : Machine.opOf w = op
  legal : Machine.legalWord w = true
  guard : Machine.guardHolds (s.tile n).preds w = true
  landed : ∃ l, (s.tile n).operandsAt ((s.tile n).usesAt w) = some l ∧
    at_ = max (max (max (s.tile n).nextIssue l) (max unit (s.entriesReady n w))) (max s.windowStart s.now)
  inTime : at_ ≤ s.stride * Machine.strideLen + 1999 + (s.tile n).budget

/-- The tile with its PC, loop stack and next issue time set: what every retirement writes of it (R252, R253). -/
def goOn (t : Machine.Tile) (pc : BitVec 11) (loops : List Machine.LoopLevel) (at_ : Nat) : Machine.Tile :=
  { t with pc := pc, loops := loops, nextIssue := at_ }

/-- Whenever tile `n` issues such a word and its PC can move on, the next state is the present one at the time of issue with
that tile changed by `f` and its PC moved on, after one aclk; nothing else in the whole state changes.  `f` is given the
instruction word and the GTC of the issue. -/
def WritesTile (i : Nat → Instr) (op : Nat) (which : BitVec 64 → Prop)
    (f : BitVec 64 → Nat → Machine.Tile → Machine.Tile) : Prop :=
  ∀ (s : Machine.State) (n : Nat) (w : BitVec 64) (at_ : Nat) (pc : BitVec 11) (loops : List Machine.LoopLevel),
    Issues s n op 0 w at_ → which w → (s.tile n).after none = some (pc, loops) →
    Machine.exec (i n) s = .next ((s.advanceTo at_).setTile n
      (goOn (f w (s.advanceTo at_).now (s.tile n)) pc loops ((s.advanceTo at_).now + 1)))

/-- The state with SRAM and host memory and its error marks replaced. -/
def withMemory (s : Machine.State) (mem : List Host.Cell) (marks : Tbl EccMark) : Machine.State :=
  { s with mem := mem, eccWords := marks }

/-- The functions of ALU and ALUI but SEL (R258). -/
def aluTable : List (Nat × (BitVec 32 → BitVec 32 → BitVec 32)) :=
  [(0x00, fun x y => x + y), (0x01, fun x y => x - y), (0x02, fun x y => x * y),
   (0x03, fun x y => ((x.setWidth 64 * y.setWidth 64) >>> 32).setWidth 32),
   (0x04, fun x y => x &&& y), (0x05, fun x y => x ||| y), (0x06, fun x y => x ^^^ y),
   (0x07, fun x y => x <<< y.extractLsb' 0 5), (0x08, fun x y => x >>> y.extractLsb' 0 5),
   (0x09, fun x y => x.sshiftRight (y.extractLsb' 0 5).toNat),
   (0x0A, fun x y => if x.slt y then x else y), (0x0B, fun x y => if x.slt y then y else x),
   (0x0C, fun x y => if x.ult y then x else y), (0x0D, fun x y => if x.ult y then y else x)]

/-- The conditions of CMP and CMPI (R259). -/
def cmpTable : List (Nat × (BitVec 32 → BitVec 32 → Bool)) :=
  [(0, fun x y => x == y), (1, fun x y => x != y), (2, fun x y => x.slt y), (3, fun x y => x.ult y),
   (4, fun x y => !x.slt y), (5, fun x y => !x.ult y)]

/-- The functions of PRED but PSET (R260). -/
def predTable : List (Nat × (Bool → Bool → Bool)) :=
  [(0, fun a b => a && b), (1, fun a b => a || b), (2, fun a b => xor a b), (3, fun a b => a && !b), (4, fun a _ => !a)]

/-- The functions of AOP that write an address register in one aclk: from aA, sA and sB (R261). -/
def aopTable : List (Nat × (BitVec 48 → BitVec 32 → BitVec 32 → BitVec 48)) :=
  [(0, fun a _ y => a + y.signExtend 48), (1, fun a _ y => a + y.setWidth 48), (3, fun a _ _ => a),
   (4, fun _ x y => y.extractLsb' 0 16 ++ x)]

/-- The instructions of a tile with their major opcodes (R247, R271); LOOP, which carries no guard, is left out. -/
def guardedOpcodes : List ((Nat → Instr) × Nat) :=
  [(.end_, 0x01), (.br, 0x02), (.swait, 0x04), (.bar, 0x05), (.fenceM, 0x06), (.emit, 0x07), (.nfclr, 0x08), (.rdsys, 0x09),
   (.lrem, 0x0A), (.nop, 0x0B), (.alu, 0x10), (.alui, 0x11), (.li, 0x12), (.cmp, 0x13), (.cmpi, 0x14), (.pred, 0x15)] ++
  [(.aop, 0x18), (.ali, 0x19), (.aaddi, 0x1A), (.ld, 0x20), (.st, 0x21), (.lda, 0x22), (.sta, 0x23), (.tld, 0x24),
   (.tst, 0x25), (.tset, 0x26), (.tadd, 0x27), (.movb, 0x28), (.movt, 0x29), (.atom, 0x2C)] ++
  [(.fmm, 0x30), (.fdr, 0x31), (.ffence, 0x32), (.bmm, 0x38), (.bdr, 0x39), (.hq, 0x40), (.hx, 0x41), (.hw, 0x42), (.ht, 0x43),
   (.mopen, 0x48), (.mclose, 0x49), (.mverd, 0x4A)] ++
  [(.ctab, 0x50), (.ciss, 0x51), (.cdr, 0x52), (.ckclr, 0x53), (.ckrd, 0x54), (.clen, 0x55), (.sdraw, 0x58), (.sdrop, 0x59),
   (.waitu, 0x60)]

/-- The causes of R238 with the code of their event in class 3. -/
def causeEvents : List (Nat × Nat) :=
  [(0x01, 1), (0x02, 2), (0x03, 3), (0x04, 1), (0x05, 1), (0x06, 1), (0x07, 1), (0x08, 1), (0x09, 1), (0x0A, 1), (0x0B, 8), (0x0C, 8),
   (0x10, 1), (0x11, 1), (0x12, 1), (0x13, 1), (0x14, 1), (0x20, 4), (0x21, 4), (0x22, 4), (0x23, 4), (0x24, 4), (0x25, 4),
   (0x26, 4), (0x27, 4)] ++
  [(0x30, 5), (0x31, 5), (0x32, 5), (0x33, 5), (0x34, 5), (0x35, 5), (0x36, 5), (0x40, 6), (0x41, 6), (0x42, 6), (0x43, 6), (0x44, 6),
   (0x45, 6), (0x46, 6), (0x50, 7), (0x51, 7), (0x58, 9), (0x59, 10)]

/-- What a fault of tile `n` with a cause leaves, seen from the state `s` in which it arises at GTC `at_` for the instruction
at `pc` with major opcode `op`: the tile is FAULTED with its slots FREE and its record written, its registers are untouched,
FAULT is set and one event of the cause is on its way (R175, R238, R397). -/
structure StoppedWith (s u : Machine.State) (n cause at_ op : Nat) (pc : BitVec 11) : Prop where
  faulted : (u.tile n).seqState = .faulted
  slots : (u.tile n).hand = 0
  record : (u.tile n).fault =
    { position := BitVec.ofNat 17 (at_ % 100000), pc := pc, strideLo := BitVec.ofNat 16 (at_ / 100000), cause := BitVec.ofNat 8 cause }
  sregs : (u.tile n).sregs = (s.tile n).sregs
  aregs : (u.tile n).aregs = (s.tile n).aregs
  preds : (u.tile n).preds = (s.tile n).preds
  tregs : (u.tile n).tregs = (s.tile n).tregs
  flag : u.host.fault = true
  event : ∀ code, (cause, code) ∈ causeEvents → ∃ e ∈ u.gleaner.arriving, e.gtc = BitVec.ofNat 64 at_ ∧ e.source = s.source n ∧
    e.cls = 3 ∧ e.code = BitVec.ofNat 16 code ∧ Machine.bits e.payload 0 8 = cause ∧ Machine.bits e.payload 16 11 = pc.toNat ∧
    Machine.bits e.payload 32 17 = at_ % 100000 ∧ Machine.bits e.payload 56 8 = op % 256

/-- Whenever tile `n` issues such an instruction under the conditions `ok`, seen at the state `u` of the time of issue, and
its PC can move on, the next state is `f u n w` with only the tile's PC, loop stack and next issue time set besides, after
`aclk` cycles.  `ready` gives the time from which the unit accepts it. -/
def Does (i : Nat → Instr) (op aclk : Nat) (ready : Machine.State → Nat → BitVec 64 → Nat → Prop) (ok : Machine.State → Nat → BitVec 64 → Prop)
    (f : Machine.State → Nat → BitVec 64 → Machine.State) : Prop :=
  ∀ (s : Machine.State) (n unit : Nat) (w : BitVec 64) (at_ : Nat) (pc : BitVec 11) (loops : List Machine.LoopLevel),
    ready s n w unit → Issues s n op unit w at_ → ok (s.advanceTo at_) n w → (s.tile n).after none = some (pc, loops) →
    Machine.exec (i n) s = .next (let v := f (s.advanceTo at_) n w
      v.setTile n (goOn (v.tile n) pc loops (v.now + aclk)))

/-- Whenever tile `n` issues such an instruction and `fault`, seen at the time of issue, names a cause and a DPA, the tile
faults with it and nothing of the instruction takes effect. -/
def FaultsWith (i : Nat → Instr) (op : Nat) (ready : Machine.State → Nat → BitVec 64 → Nat → Prop)
    (fault : Machine.State → Nat → BitVec 64 → Option (Nat × Nat)) : Prop :=
  ∀ (s : Machine.State) (n unit : Nat) (w : BitVec 64) (at_ cause dpa : Nat),
    ready s n w unit → Issues s n op unit w at_ → fault (s.advanceTo at_) n w = some (cause, dpa) →
    Machine.exec (i n) s = .next ((s.advanceTo at_).tileFault n cause dpa)

/-- Whenever tile `n` could issue such an instruction but for the condition `busy`, it stalls: the state is as it was. -/
def StallsOn (i : Nat → Instr) (op : Nat) (busy : Machine.State → Nat → BitVec 64 → Prop) : Prop :=
  ∀ (s : Machine.State) (n : Nat) (w : BitVec 64) (at_ : Nat), Issues s n op 0 w at_ → busy (s.advanceTo at_) n w →
    Machine.exec (i n) s = .next s

/-- A unit that accepts at any time. -/
def anyTime (_ : Machine.State) (_ : Nat) (_ : BitVec 64) (unit : Nat) : Prop := unit = 0

/-- No word of SRAM and no unit of HBM holds an error, and the reads of the command meet none. -/
def noErrors (s : Machine.State) (env : Env) : Prop :=
  s.eccWords = [] ∧ s.eccUnits = [] ∧ ∀ u ∈ env.upsets, Machine.hostBase ≤ u.1

/-- The new value of an atomic, from the old value and sB, by F[1:0] (R268). -/
def atomTable : List (Nat × (Nat → Nat → Nat)) :=
  [(0, fun old x => (old + x) % 2 ^ 32), (1, fun old x => (Machine.bfAdd (BitVec.ofNat 16 old) (BitVec.ofNat 16 x)).toNat),
   (2, fun _ x => x), (3, fun _ x => x % 2 ^ 16)]

/-- The state in which the Manger acts on the command at the front of the fetched ones: it has left the queue and has its number,
position 200 is past, and the position is at least 1,200 (R391). -/
def acting (s : Machine.State) : Machine.State :=
  ({ s with host := { s.host with fetched := s.host.fetched.drop 1, nextReply := s.host.nextReply + 1 } }.unitsAct).advancePos 1200

/-- Whenever a command of opcode `op` is at the front of the fetched ones, its paddock accepts commands and `ok` holds as it is acted
on, the next state is what `f` makes of that state, with its answer queued for the reply ring.  `before` is what the outside did
to memory first. -/
def Answers (i : Instr) (before : Machine.State → Machine.State) (op : Nat) (ok : Machine.State → Machine.Fetched → Prop)
    (f : Machine.State → Machine.Fetched → Nat → Machine.State × Machine.Answer) : Prop :=
  ∀ (s : Machine.State) (c : Machine.Fetched) (rest : List Machine.Fetched), s.isRunning = true → s.host.fetched = c :: rest →
    c.cmd.opcode = op →
    let u := acting (before s)
    (u.composed.pdk c.paddock).state ≠ .releasing → ok u c →
    Machine.exec i s = .next (let r := f u c s.host.nextReply
      r.1.answer c s.host.nextReply r.2)

/-- The commands of R388: what the outside did first, opcode, whether only paddock 0 may send it, and its COUNT: without a
meaning, of any value but zero, or of one value. -/
def mangerTable (env : Env) : List (Instr × (Machine.State → Machine.State) × Nat × Bool × Option (Option Nat)) :=
  let e (s : Machine.State) : Machine.State := s.takeEnv env
  [(.mangerNop, id, 0x01, false, none), (.config env, e, 0x02, false, some none), (.copy, id, 0x03, false, some none),
   (.sealIn, id, 0x04, false, some none), (.sealOut, id, 0x05, false, some none), (.programSet env, e, 0x10, false, some none),
   (.restart env, e, 0x11, false, some none), (.collective env, e, 0x20, false, none), (.collAbort, id, 0x21, false, none),
   (.tetherOpen env, e, 0x30, false, none), (.tetherClose, id, 0x31, false, none), (.linkRetrain, id, 0x32, true, none),
   (.paddockSet env, e, 0x40, true, some (some 1)), (.paddockRelease env, e, 0x41, true, some (some 1)),
   (.keyRotate, id, 0x42, true, some (some 1)), (.attest env, e, 0x43, false, some (some 12064)),
   (.sealKey env, e, 0x44, false, some (some 1568)), (.selftest env, e, 0x50, true, some (some 1))]

end Sys2Proof.Safety
end

