-- ==== Sys2Proof/Certificates/Slice0/Obligations.lean ====
section
/-!
DEFINITION. Certificates/Slice0/Obligations.lean: the statements for the provers.
-/

open Sys2Proof Sys2Proof.Machine Sys2Proof.Safety

/-- A step with command `c` in front runs `c` on the state with the queue's rest. Where the rules leave it open it follows
notes/assumptions/1. -/
def Obligations.StepRunsFront : Prop :=
  ∀ (c : Instr) (rest : List Instr) (s : State), step { s with pending := c :: rest } = exec c { s with pending := rest }

/-- ALU, ALUI and LI complete with their result in sD, for every function of R258; MUL, MULHU land after 3 aclk (R249); the other
function values are reserved. Nothing but the tile's sD and its PC, loop stack and next issue time changes. -/
def Obligations.AluWritesItsResult : Prop :=
  (∀ p ∈ aluTable, WritesTile .alu 0x10 (fun w => fF w = p.1) fun w now t =>
      let x := t.setS (fD w) (p.2 (t.s (fA w)) (t.s (fB w)))
      if p.1 = 2 ∨ p.1 = 3 then x.landAt (fD w) (now + 3) else x) ∧
  (WritesTile .alu 0x10 (fun w => fF w = 0x0E) fun w _ t =>
      t.setS (fD w) (if t.p (fC w) then t.s (fA w) else t.s (fB w))) ∧
  (∀ p ∈ aluTable, WritesTile .alui 0x11 (fun w => fF10 w = p.1) fun w now t =>
      let x := t.setS (fD w) (p.2 (t.s (fA w)) (w.extractLsb' 0 32))
      if p.1 = 2 ∨ p.1 = 3 then x.landAt (fD w) (now + 3) else x) ∧
  (WritesTile .li 0x12 (fun _ => True) fun w _ t => t.setS (fD w) (w.extractLsb' 0 32)) ∧
  (∀ w : BitVec 64, opOf w = 0x10 → 0x0F ≤ fF w → legalWord w = false) ∧
  (∀ w : BitVec 64, opOf w = 0x11 → 0x0E ≤ fF10 w → legalWord w = false)

/-- CMP and CMPI complete with pD holding the comparison, for every condition of R259; the others are reserved, and a write to p0
is ignored (R224). Nothing else changes but the tile's PC, loop stack and next issue time. PRED completes with pD holding its
function of pA and pB, or IMM[0], for every function of R260. -/
def Obligations.PredicateWrites : Prop :=
  (
    (∀ p ∈ cmpTable, WritesTile .cmp 0x13 (fun w => fF w = p.1) fun w _ t =>
        if fD w = 0 then t else { t with preds := withBit t.preds (fD w) (p.2 (t.s (fA w)) (t.s (fB w))) }) ∧
    (∀ p ∈ cmpTable, WritesTile .cmpi 0x14 (fun w => fF10 w = p.1) fun w _ t =>
        if fD w = 0 then t else { t with preds := withBit t.preds (fD w) (p.2 (t.s (fA w)) (w.extractLsb' 0 32)) }) ∧
    (∀ w : BitVec 64, opOf w = 0x13 → 5 < fF w → legalWord w = false) ∧
    (∀ w : BitVec 64, opOf w = 0x14 → 5 < fF10 w → legalWord w = false)
  ) ∧
  (
    (∀ p ∈ predTable, WritesTile .pred 0x15 (fun w => fF w = p.1) fun w _ t =>
        if fD w = 0 then t else { t with preds := withBit t.preds (fD w) (p.2 (t.p (fA w)) (t.p (fB w))) }) ∧
    (WritesTile .pred 0x15 (fun w => fF w = 5) fun w _ t =>
        if fD w = 0 then t else { t with preds := withBit t.preds (fD w) (w.getLsbD 0) }) ∧
    (∀ w : BitVec 64, opOf w = 0x15 → 5 < fF w → legalWord w = false)
  )

/-- AOP, ALI and AADDI complete with their address or scalar result, for every function of R261; AIDX lands after 3 aclk. TSET and
TADD complete with the descriptor of tD changed in the one field TSET names, or with both bases advanced (R262). -/
def Obligations.AddressAndDescriptorWrites : Prop :=
  (
    (∀ p ∈ aopTable, WritesTile .aop 0x18 (fun w => fF w = p.1) fun w _ t =>
        t.setA (fD w) (p.2 (t.a (fA w)) (t.s (fA w)) (t.s (fB w)))) ∧
    (WritesTile .aop 0x18 (fun w => fF w = 2) fun w now t =>
        (t.setA (fD w) (t.a (fA w) + (t.s (fB w)).setWidth 48 * (w.extractLsb' 0 24).setWidth 48)).landAt (32 + fD w) (now + 3)) ∧
    (WritesTile .aop 0x18 (fun w => fF w = 5) fun w _ t => t.setS (fD w) ((t.a (fA w)).extractLsb' 0 32)) ∧
    (WritesTile .aop 0x18 (fun w => fF w = 6) fun w _ t => t.setS (fD w) (((t.a (fA w)).extractLsb' 32 16).setWidth 32)) ∧
    (WritesTile .ali 0x19 (fun _ => True) fun w _ t => t.setA (bits w 48 4) (w.extractLsb' 0 48)) ∧
    (WritesTile .aaddi 0x1A (fun _ => True) fun w _ t => t.setA (fD w) (t.a (fA w) + (w.extractLsb' 0 32).signExtend 48)) ∧
    (∀ w : BitVec 64, opOf w = 0x18 → 6 < fF w → legalWord w = false)
  ) ∧
  (
    (WritesTile .tset 0x26 (fun _ => True) fun w _ t =>
      let d := t.t (fD w)
      let a := (t.a (fA w)).toNat
      let x := (t.s (fA w)).toNat
      t.setT (fD w) (match fF w with
        | 0 => setBits d 0 48 a
        | 1 => setBits d 64 48 a
        | 2 => setBits d 128 21 x
        | 3 => setBits d 149 21 x
        | 4 => setBits d 192 32 x
        | 5 => setBits d 224 32 x
        | 6 => setBits d 48 16 x
        | _ => setBits d 112 5 x)) ∧
    (WritesTile .tadd 0x27 (fun _ => True) fun w _ t =>
      let d := t.t (fD w)
      t.setT (fD w) (setBits (setBits d 0 48 (bits d 0 48 + (t.s (fA w)).toNat)) 64 48 (bits d 64 48 + (t.s (fB w)).toNat))) ∧
    (∀ w : BitVec 64, opOf w = 0x26 → 7 < fF w → legalWord w = false)
  )

/-- ST, STA and TST complete when their offset sA + IMM (modulo 2^32, IMM sign-extended) is aligned and in the tile store: the low
1, 2 or 4 bytes of sB, the 8 bytes of aB or the 32 bytes of tB lie there little-endian, every other byte of every address
reads as before, and of the rest only the tile's PC, loop stack and next issue time and the error marks of the words written
whole change. A misaligned or out-of-range offset faults with TILE_ALIGN and stores nothing (R230, R262, R263). -/
def Obligations.ScalarStores : Prop :=
  ∀ q ∈ [(Instr.st, 0x21), (Instr.sta, 0x23), (Instr.tst, 0x25)],
  ∀ (s : State) (n : Nat) (w : BitVec 64) (at_ : Nat) (pc : BitVec 11) (loops : List LoopLevel),
    Issues s n q.2 0 w at_ → (s.tile n).after none = some (pc, loops) → n < 25600 → Memory.wf s.mem = true →
    let t := s.tile n
    let o := (t.s (fA w) + (w.extractLsb' 0 24).signExtend 32).toNat
    let size := if q.2 = 0x21 then 2 ^ bits w 24 2 else if q.2 = 0x23 then 8 else 32
    let value := if q.2 = 0x21 then (t.s (fB w)).toNat else if q.2 = 0x23 then (t.a (fB w)).toNat else (t.t (fB w)).toNat
    let u := s.advanceTo at_
    (o % size = 0 ∧ o + size ≤ 49152 →
      ∃ mem marks, exec (q.1 n) s = .next ((withMemory u mem marks).setTile n (goOn t pc loops (u.now + 1))) ∧
        (∀ i, i < size → Memory.byte mem (tileBase n + o + i) = BitVec.ofNat 8 (value / 256 ^ i)) ∧
        (∀ (p a : Nat), (a < tileBase n + o ∨ tileBase n + o + size ≤ a) →
          ((withMemory u mem marks).setTile n (goOn t pc loops (u.now + 1))).readByte p a = u.readByte p a) ∧
        (∀ c, c ∈ marks ↔ c ∈ u.eccWords ∧ ¬ (tileBase n + o ≤ c.1 * 8 ∧ c.1 * 8 + 8 ≤ tileBase n + o + size))) ∧
    (¬ (o % size = 0 ∧ o + size ≤ 49152) → exec (q.1 n) s = .next (u.tileFault n 0x06 0))

/-- LD, LDA and TLD complete when their offset is aligned and in the tile store: the load is outstanding with the bytes that lay
there at its issue, and nothing else changes but the tile's PC, loop stack and next issue time; otherwise the tile faults with
TILE_ALIGN (R230, R249, R262, R263). The words read hold no error. SCALAR_LOAD_RETURN completes 4 aclk after the oldest load
of the tile issued: the load is no longer outstanding, and sD holds its 1, 2 or 4 bytes zero- or sign-extended by F[2], aD
bits [47:0] of its 8 bytes, or tD its 32 bytes; nothing else changes (R230, R262, R263). A load whose read met an
uncorrectable word stops the tile with TILE_ECC (R297); in the other case the words hold no error. Where the rules leave it
open it follows notes/assumptions/16. -/
def Obligations.ScalarLoads : Prop :=
  (
    ∀ q ∈ [(Instr.ld, 0x20), (Instr.lda, 0x22), (Instr.tld, 0x24)],
    ∀ (s : State) (n : Nat) (w : BitVec 64) (at_ : Nat) (pc : BitVec 11) (loops : List LoopLevel),
      Issues s n q.2 0 w at_ → (s.tile n).after none = some (pc, loops) →
      let t := s.tile n
      let o := (t.s (fA w) + (w.extractLsb' 0 24).signExtend 32).toNat
      let size := if q.2 = 0x20 then 2 ^ bits w 24 2 else if q.2 = 0x22 then 8 else 32
      let u := s.advanceTo at_
      (o % size = 0 ∧ o + size ≤ 49152 →
        (∀ c ∈ s.eccWords, c.1 < (tileBase n + o) / 8 ∨ (tileBase n + o + size - 1) / 8 < c.1) →
        ∃ op : UnitOp, exec (q.1 n) s = .next (u.setTile n (goOn { t with loads := t.loads ++ [op] } pc loops (u.now + 1))) ∧
          op.unreadable = false ∧ op.word = w ∧ op.pc = t.pc ∧ op.issued = u.now ∧ op.x.toNat = o ∧ op.y.toNat = size ∧
          op.kind = (if q.2 = 0x20 then OpKind.ld else if q.2 = 0x22 then OpKind.lda else OpKind.tld) ∧
          op.d.toNat = leNat (Memory.bytes s.mem (tileBase n + o) size)) ∧
      (¬ (o % size = 0 ∧ o + size ≤ 49152) → exec (q.1 n) s = .next (u.tileFault n 0x06 0))
  ) ∧
  (
    ∀ (s : State) (n : Nat) (env : Env) (o : UnitOp) (rest : List UnitOp),
      s.isRunning = true → (s.tile n).seqState = .running → (s.tile n).loads = o :: rest →
      o.kind ∈ [OpKind.ld, OpKind.lda, OpKind.tld] →
      (o.unreadable = true → StoppedWith s ((((s.takeEnv env).advanceTo (o.issued + 4)).setTile n { s.tile n with loads := rest }).opFault n 0x07 0 o)
          n 0x07 ((s.takeEnv env).advanceTo (o.issued + 4)).now (opOf o.word) o.pc ∧
        exec (.scalarLoadReturn n env) s =
          .next ((((s.takeEnv env).advanceTo (o.issued + 4)).setTile n { s.tile n with loads := rest }).opFault n 0x07 0 o)) ∧
      (o.unreadable = false → (∀ c ∈ (s.takeEnv env).eccWords, c.1 < (tileBase n + o.x.toNat) / 8 ∨ (tileBase n + o.x.toNat + o.y.toNat - 1) / 8 < c.1) →
      exec (.scalarLoadReturn n env) s = .next (((s.takeEnv env).advanceTo (o.issued + 4)).setTile n (
        let t := { s.tile n with loads := rest }
        let size := 8 * 2 ^ bits o.word 24 2
        match o.kind with
        | .lda => t.setA (fD o.word) (o.d.extractLsb' 0 48)
        | .tld => t.setT (fD o.word) o.d
        | _ => t.setS (fD o.word)
            (if o.word.getLsbD 26 then (o.d.extractLsb' 0 size).signExtend 32 else (o.d.extractLsb' 0 size).setWidth 32))))
  )

/-- An instruction whose guard does not hold retires in one aclk, has no effect and reaches no unit: only the tile's PC, loop
stack and next issue time change, whatever the instruction (R245). -/
def Obligations.GuardedOffDoesNothing : Prop :=
  ∀ q ∈ guardedOpcodes, ∀ (s : State) (n : Nat) (pc : BitVec 11) (loops : List LoopLevel),
    let t := s.tile n
    let at_ := max t.nextIssue (max s.windowStart s.now)
    opOf t.fetch = q.2 → s.isRunning = true → t.seqState = .running → reservedWord t.preds t.fetch = false →
    guardHolds t.preds t.fetch = false → t.badBranch t.fetch = false →
    at_ ≤ s.stride * strideLen + 1999 + t.budget → t.after none = some (pc, loops) →
    (s.sheaf (n / 64)).arrivals = [] →
    exec (q.1 n) s = .next ((s.advanceTo at_).setTile n (goOn t pc loops ((s.advanceTo at_).now + 1)))

/-- BR whose guard holds completes with PC + OFF when the target lies after it and not beyond the last instruction, in 2 aclk, and
closes the loops whose body end the target lies beyond; a target of 0 or beyond the last instruction faults the tile with
TILE_BRANCH, and does so where the guard does not hold too (R233, R246, R251, R252). LOOP at index x with TRIP n and BODY b
completes: for n = 0 the PC becomes x + b + 1 and the loop stack stays, or the tile faults with TILE_BRANCH where that lies
beyond the last instruction; for n > 0 it opens a level with remaining count n - 1, body start x + 1 and body end x + b. A
body end beyond the last instruction faults with TILE_BRANCH; a fifth level, or a body end beyond that of the innermost open
level, with TILE_LOOP (R253). Where the rules leave it open it follows notes/assumptions/17. -/
def Obligations.BranchesAndLoops : Prop :=
  (
    (∀ (s : State) (n : Nat) (w : BitVec 64) (at_ : Nat), Issues s n 0x02 0 w at_ →
      let t := s.tile n
      let off := bits w 0 11
      let u := s.advanceTo at_
      (off ≠ 0 ∧ t.pc.toNat + off ≤ t.lastPc ∧ t.pc.toNat + off < 2 ^ 11 →
        ∃ loops, exec (.br n) s = .next (u.setTile n (goOn t (t.pc + BitVec.ofNat 11 off) loops (u.now + 2))) ∧
          (∃ closed, t.loops = loops ++ closed ∧ ∀ l ∈ closed, l.stop.toNat < t.pc.toNat + off) ∧
          (∀ l, loops.getLast? = some l → t.pc.toNat + off ≤ l.stop.toNat)) ∧
      (off = 0 ∨ t.lastPc < t.pc.toNat + off → exec (.br n) s = .next (u.tileFault n 0x04 0))) ∧
    (∀ (s : State) (n : Nat),
      let t := s.tile n
      let at_ := max t.nextIssue (max s.windowStart s.now)
      opOf t.fetch = 0x02 → s.isRunning = true → t.seqState = .running → legalWord t.fetch = true → guardHolds t.preds t.fetch = false →
      at_ ≤ s.stride * strideLen + 1999 + t.budget → bits t.fetch 0 11 = 0 ∨ t.lastPc < t.pc.toNat + bits t.fetch 0 11 →
      exec (.br n) s = .next ((s.advanceTo at_).tileFault n 0x04 0))
  ) ∧
  (
    ∀ (s : State) (n : Nat) (w : BitVec 64) (at_ : Nat), Issues s n 0x03 0 w at_ →
      let t := s.tile n
      let trip := bits w 0 24
      let stop := t.pc.toNat + bits w 36 11
      let u := s.advanceTo at_
      let fits := stop ≤ t.lastPc ∧ ∀ l, t.loops.getLast? = some l → stop ≤ l.stop.toNat
      (fits → trip = 0 → stop + 1 ≤ t.lastPc →
        exec (.loop n) s = .next (u.setTile n (goOn t (BitVec.ofNat 11 (stop + 1)) t.loops (u.now + 1)))) ∧
      (fits → trip = 0 → t.lastPc < stop + 1 → exec (.loop n) s = .next (u.tileFault n 0x04 0)) ∧
      (fits → 0 < trip → t.loops.length < 4 →
        exec (.loop n) s = .next (u.setTile n (goOn t (t.pc + 1)
          (t.loops ++ [{ remaining := BitVec.ofNat 24 (trip - 1), start := t.pc + 1, stop := BitVec.ofNat 11 stop }]) (u.now + 1)))) ∧
      (fits → 0 < trip → 4 ≤ t.loops.length → exec (.loop n) s = .next (u.tileFault n 0x05 0)) ∧
      (t.lastPc < stop → exec (.loop n) s = .next (u.tileFault n 0x04 0)) ∧
      (stop ≤ t.lastPc → (∃ l, t.loops.getLast? = some l ∧ l.stop.toNat < stop) → exec (.loop n) s = .next (u.tileFault n 0x05 0))
  )

/-- NOP completes with nothing changed but the tile's PC, loop stack and next issue time; NFCLR also clears the non-finite flag
and its position, unless an element set it in the same aclk; LREM writes sD with the remaining count of a level, or 0; FENCE.M
completes when no move and no atomic of the tile is outstanding, and stalls otherwise (R9, R232, R239, R251). RDSYS completes
with sD holding the value its selector names, GTC_LO also latching the high half; the other selectors are reserved (R257).
EMIT completes with one EVT_TILE_USER on its way to the Gleaner, with the tile's source number, the user code, the PC of the
EMIT and the values of sA, sB and sC; nothing else changes but the tile's PC, loop stack and next issue time (R256). -/
def Obligations.ControlInstructions : Prop :=
  (
    (WritesTile .nop 0x0B (fun _ => True) fun _ _ t => t) ∧
    (WritesTile .nfclr 0x08 (fun _ => True) fun _ now t =>
      if t.nfAt = some now then t else { t with nfFlag := false, nfPos := 0 }) ∧
    (WritesTile .lrem 0x0A (fun _ => True) fun w _ t =>
      t.setS (fD w) (match t.loops[bits w 0 2]? with | some l => l.remaining.setWidth 32 | none => 0)) ∧
    (∀ (s : State) (n : Nat) (w : BitVec 64) (at_ : Nat) (pc : BitVec 11) (loops : List LoopLevel),
      Issues s n 0x06 0 w at_ → (s.tile n).after none = some (pc, loops) →
      let t := s.tile n
      let u := s.advanceTo at_
      (t.moves = [] → t.atomics = [] → exec (.fenceM n) s = .next (u.setTile n (goOn t pc loops (u.now + 1)))) ∧
      (t.moves ≠ [] ∨ t.atomics ≠ [] → exec (.fenceM n) s = .next s))
  ) ∧
  (
    (∀ (s : State) (n : Nat) (w : BitVec 64) (at_ : Nat) (pc : BitVec 11) (loops : List LoopLevel),
      Issues s n 0x09 0 w at_ → (s.tile n).after none = some (pc, loops) →
      let t := s.tile n
      let u := s.advanceTo at_
      let p := u.tilePaddock n
      let sel := bits w 0 8
      let value : BitVec 32 := match sel with
        | 0 => BitVec.ofNat 32 n
        | 1 => BitVec.ofNat 32 (n % 64)
        | 2 => BitVec.ofNat 32 (n / 64)
        | 3 => BitVec.ofNat 32 (u.field .glbChip 0 16)
        | 4 => BitVec.ofNat 32 p
        | 5 => BitVec.ofNat 32 (u.field (.pdkCtl p) 0 2)
        | 6 => BitVec.ofNat 32 (u.time.gtc.toNat / 100000)
        | 7 => u.time.gtc.extractLsb' 0 32
        | 8 => t.gtcHi
        | _ => BitVec.ofNat 32 (u.time.gtc.toNat % 100000 - 2000)
      exec (.rdsys n) s = .next (u.setTile n (goOn
        { t.setS (fD w) value with gtcHi := if sel = 7 then u.time.gtc.extractLsb' 32 32 else t.gtcHi } pc loops (u.now + 1)))) ∧
    (∀ w : BitVec 64, opOf w = 0x09 → 9 < bits w 0 8 → legalWord w = false)
  ) ∧
  (
    ∀ (s : State) (n : Nat) (w : BitVec 64) (at_ : Nat) (pc : BitVec 11) (loops : List LoopLevel),
      Issues s n 0x07 0 w at_ → (s.tile n).after none = some (pc, loops) →
      let t := s.tile n
      let u := s.advanceTo at_
      let e : Event :=
        { gtc := BitVec.ofNat 64 u.now, epoch := u.time.loads, source := pack 32 [(16, 16, s.chipId), (0, 16, n)], cls := 11, code := 1,
          payload := pack 128 [(0, 16, bits w 0 16), (16, 11, t.pc.toNat), (32, 32, (t.s (fA w)).toNat),
            (64, 32, (t.s (fB w)).toNat), (96, 32, (t.s (fC w)).toNat)] }
      exec (.emit n) s = .next ({ u with gleaner := { u.gleaner with arriving := u.gleaner.arriving ++ [e] } }.setTile n
        (goOn t pc loops (u.now + 1)))
  )

/-- SWAIT and END complete when everything the tile issued before them is complete: the tile becomes WAITING, or HALTED; its PC
moves on, and its registers stay as they are; no other tile and no byte of memory changes. While something is outstanding they
stall. No tile of the sheaf waits at a barrier here. WAITU completes when no operation of a masked unit that the tile issued
is outstanding (repeats of the agreement watch are not counted), and stalls while one is; a mask of zero completes at once
(R290). FFENCE completes when no FWA product and no drain of any unit of the tile is outstanding, and stalls otherwise (R149).
Where the rules leave it open it follows notes/assumptions/16 and 17. -/
def Obligations.TileWaits : Prop :=
  (
    ∀ q ∈ [(Instr.end_, 0x01, SeqState.halted), (Instr.swait, 0x04, SeqState.waiting)],
    ∀ (s : State) (n : Nat) (w : BitVec 64) (at_ : Nat) (pc : BitVec 11) (loops : List LoopLevel),
      Issues s n q.2.1 (s.tile n).listDone w at_ → (s.tile n).afterWait = some (pc, loops) →
      (s.sheaf (n / 64)).arrivals = [] →
      ((s.tile n).quiet = true → ∃ u, exec (q.1 n) s = .next u ∧ (u.tile n).seqState = q.2.2 ∧
        (u.tile n).pc = pc ∧ (u.tile n).loops = loops ∧
        (u.tile n).sregs = (s.tile n).sregs ∧ (u.tile n).aregs = (s.tile n).aregs ∧ (u.tile n).preds = (s.tile n).preds ∧
        (u.tile n).tregs = (s.tile n).tregs ∧
        (u.tile n).budgetMax = BitVec.ofNat 17 (max (s.tile n).budgetMax.toNat ((s.advanceTo at_).position - 2000)) ∧
        u.mem = s.mem ∧ u.hbm = s.hbm ∧ u.regs = s.regs ∧ u.gleaner = s.gleaner ∧ (∀ k, k ≠ n → u.tile k = s.tile k)) ∧
      ((s.tile n).quiet = false → exec (q.1 n) s = .next s)
  ) ∧
  (
    let busy (t : Tile) (w : BitVec 64) : Prop := (w.getLsbD 0 = true ∧ t.fwa ≠ []) ∨
      (w.getLsbD 1 = true ∧ ∃ o ∈ t.bwa, o.kind ≠ .watchProduct) ∨ (w.getLsbD 2 = true ∧ t.hame ≠ []) ∨
      (w.getLsbD 3 = true ∧ t.chaff ≠ []) ∨ (w.getLsbD 4 = true ∧ t.sower ≠ [])
    (Does .waitu 0x60 1 (fun s n w unit => ¬ busy (s.tile n) w ∧ unit = if w.getLsbD 3 then (s.tile n).listDone else 0)
      (fun _ _ _ => True) fun u _ _ => u) ∧
    (StallsOn .waitu 0x60 fun u n w => busy (u.tile n) w)
  ) ∧
  (
    let clear (t : Tile) : Prop := t.fwa = [] ∧ (∀ o ∈ t.bwa, o.kind ≠ .bdr) ∧ ∀ o ∈ t.chaff, o.kind ≠ .cdr
    (Does .ffence 0x32 1 anyTime (fun u n _ => clear (u.tile n)) fun u _ _ => u) ∧
    (StallsOn .ffence 0x32 fun u n _ => ¬ clear (u.tile n))
  )

/-- A fault of a tile that is RUNNING or at a barrier stops it: FAULTED, every slot FREE, the record written, one event of the
cause's class and code raised, FAULT set, its registers and every byte of memory as they were (R175, R238, R397). Where the
rules leave it open it follows notes/assumptions/66. -/
def Obligations.FaultStopsTile : Prop :=
  ∀ (s : State) (n cause dpa : Nat), cause < 256 → (s.tile n).seqState = .running ∨ (s.tile n).seqState = .barrier →
    StoppedWith s (s.tileFault n cause dpa) n cause s.now (opOf (s.tile n).fetch) (s.tile n).pc ∧
    (s.tileFault n cause dpa).mem = s.mem ∧ (s.tileFault n cause dpa).hbm = s.hbm ∧ (s.tileFault n cause dpa).regs = s.regs

/-- RESERVED_OPCODE completes by its own effect: a running tile whose word is a reserved encoding, guard or no guard, faults with
TILE_ILLEGAL when it would issue, and with TILE_PHASE where the guard holds and the phase forbids the instruction, which is
checked first (R7, R246, R275). Every reserved major opcode of R247 is one, and so a word of all zeros. TILE_BUDGET completes
by stopping a tile that still runs or waits at a barrier at position 1,999 + B: it is FAULTED with every slot FREE, and
nothing it issued is left under way; when no word and no unit holds an error, its record and its one event have the cause
TILE_BUDGET, that position and its PC, and FAULT is set (R48, R234, R238, R511). Where the rules leave it open it follows
notes/assumptions/7, 15 and 81. -/
def Obligations.ReservedWordsAndWatchdog : Prop :=
  (
    (∀ (s : State) (n : Nat), s.isRunning = true → (s.tile n).seqState = .running →
      reservedWord (s.tile n).preds (s.tile n).fetch = true →
      let at_ := max (s.tile n).nextIssue (max s.windowStart s.now)
      let forbidden := guardHolds (s.tile n).preds (s.tile n).fetch && phaseForbids (s.tilePhase n) (s.tile n).fetch
      at_ ≤ s.stride * strideLen + 1999 + (s.tile n).budget →
      ∃ u, exec (.reservedOpcode n) s = .next u ∧
        StoppedWith s u n (if forbidden then 0x03 else 0x01) (s.advanceTo at_).now (opOf (s.tile n).fetch) (s.tile n).pc ∧ u.mem = s.mem ∧ u.hbm = s.hbm) ∧
    (∀ w : BitVec 64, opOf w ∈ [0x00, 0x0C, 0x0D, 0x0E, 0x0F, 0x16, 0x17, 0x1B, 0x1F, 0x2A, 0x2B, 0x2D, 0x2F, 0x70, 0xFF] →
      legalWord w = false) ∧
    legalWord 0 = false ∧ ∀ (preds : BitVec 8) (w : BitVec 64), legalWord w = false → reservedWord preds w = true
  ) ∧
  (
    ∀ (s : State) (n : Nat) (accepted : List Nat), s.isRunning = true →
      (s.tile n).seqState = .running ∨ (s.tile n).seqState = .barrier →
      let end_ := s.stride * strideLen + 1999 + (s.tile n).budget
      ∃ u, exec (.tileBudget n accepted) s = .next u ∧ (u.tile n).seqState = .faulted ∧ (u.tile n).hand = 0 ∧
        (s.eccWords = [] → s.eccUnits = [] →
          (u.tile n).fault = { position := BitVec.ofNat 17 (end_ % 100000), pc := (s.tile n).pc,
                               strideLo := BitVec.ofNat 16 (end_ / 100000), cause := 0x02 } ∧
          u.host.fault = true ∧ ∃ e ∈ u.gleaner.arriving, e.gtc = BitVec.ofNat 64 end_ ∧ e.source = s.source n ∧ e.cls = 3 ∧
            e.code = 2 ∧ bits e.payload 0 8 = 0x02 ∧ bits e.payload 16 11 = (s.tile n).pc.toNat ∧ bits e.payload 32 17 = end_ % 100000) ∧
        (u.tile n).fwa = [] ∧ (u.tile n).bwa = [] ∧ (u.tile n).hame = [] ∧ (u.tile n).chaff = [] ∧ (u.tile n).sower = [] ∧
        (u.tile n).loads = [] ∧ (u.tile n).moves = [] ∧ (u.tile n).atomics = []
  )

/-- BAR completes by an arrival: the tile waits in state BARRIER, and its arrival with its mask stands in the sheaf, when its own
position is in the mask and no tile of the mask of an arrival can fail to arrive; a mask without its own position faults with
BAR_MASK (R236). BARRIER_COMPLETE completes 8 aclk after the last arrival, once every tile of the mask of the oldest complete
arrival has arrived at the barrier with that mask: each of them is RUNNING again behind its BAR, and its arrival is gone
(R236, R255). Each tile named can move on. A tile waiting at a barrier with a participant that can no longer arrive faults
with BAR_PEER 1 aclk on (R237). Where the rules leave it open it follows notes/assumptions/17. -/
def Obligations.Barriers : Prop :=
  (
    ∀ (s : State) (n : Nat) (w : BitVec 64) (at_ : Nat), Issues s n 0x05 0 w at_ →
      let t := s.tile n
      let u := s.advanceTo at_
      let mask : BitVec 64 := t.s (fB w) ++ t.s (fA w)
      let a : Arrival := { pos := n % 64, barrier := bits w 0 2, mask := mask, time := u.now }
      (mask.getLsbD (n % 64) = true →
        (∀ b ∈ (s.sheaf (n / 64)).arrivals ++ [a], ∀ p, b.mask.getLsbD p = true → (s.tile (64 * (n / 64) + p)).seqState.gone = false) →
        exec (.bar n) s = .next ((u.setTile n { t with seqState := .barrier }).setSheaf (n / 64)
          { s.sheaf (n / 64) with arrivals := (s.sheaf (n / 64)).arrivals ++ [a] })) ∧
      (mask.getLsbD (n % 64) = false → exec (.bar n) s = .next ((u.tileFault n 0x09 0).settlePeers n))
  ) ∧
  (
    ∀ (s : State) (m b : Nat) (mask : BitVec 64), s.isRunning = true → barrierMask (s.sheaf m).arrivals b = some mask →
      Tbl.sorted s.sheaves = true → (∀ p, mask.getLsbD p = true → ((s.tile (64 * m + p)).after none).isSome = true) →
      ∃ u, exec (.barrierComplete m b) s = .next u ∧
        (∀ p, mask.getLsbD p = true → (u.tile (64 * m + p)).seqState = .running ∧
          some ((u.tile (64 * m + p)).pc, (u.tile (64 * m + p)).loops) = (s.tile (64 * m + p)).after none) ∧
        (∀ a ∈ (u.sheaf m).arrivals, ¬ (a.barrier = b ∧ a.mask = mask)) ∧
        (∀ a ∈ (s.sheaf m).arrivals, a.barrier = b → a.mask = mask →
          u.now = (s.advanceTo (((s.sheaf m).arrivals.filter fun c => decide (c.barrier = b ∧ c.mask = mask)).foldl
            (fun k c => max k c.time) 0 + 8)).now) ∧
        u.mem = s.mem ∧ u.hbm = s.hbm ∧ u.regs = s.regs
  ) ∧
  (
    ∀ (s : State) (m : Nat) (a : Arrival), (s.sheaf m).arrivals = [a] → (s.tile (64 * m + a.pos)).seqState = .barrier →
      s.now < s.deadline (64 * m + a.pos) → a.pos < 64 →
      (∃ p, a.mask.getLsbD p = true ∧ (s.tile (64 * m + p)).seqState ∈ [.faulted, .halted, .idle, .waiting]) →
      StoppedWith s (s.settlePeers (64 * m)) (64 * m + a.pos) 0x08 (s.now + 1) (opOf (s.tile (64 * m + a.pos)).fetch)
        (s.tile (64 * m + a.pos)).pc
  )

/-- MOVB and MOVT complete when fewer than 16 moves and atomics are outstanding, their addresses and length are multiples of 32,
or their descriptors pass, and their bytes neither overlap nor lie where the move cannot go: the move is outstanding, and
nothing is read or written yet; a length or extent of 0 does nothing. A MOVB whose addresses or length are misaligned, or
whose bytes overlap, faults, and a seventeenth operation stalls (R250, R265 to R267). ATOM completes when fewer than 16
operations are outstanding and its address is aligned and in an owned sheaf bank outside Silage: the atomic is outstanding. A
misaligned address, a Silage address and any other address fault; a seventeenth operation stalls (R250, R268, R269). Where the
rules leave it open it follows notes/assumptions/22. -/
def Obligations.MovesAndAtomicsBegin : Prop :=
  (
    let room (t : Tile) : Prop := t.moves.length + t.atomics.length < 16
    let movb (u : State) (n : Nat) (w : BitVec 64) : UnitOp :=
      { kind := .movb, pc := (u.tile n).pc, word := w, d := (((u.tile n).a (fD w)).setWidth 256), a := (((u.tile n).a (fA w)).setWidth 256),
        y := (u.tile n).s (fB w), issued := u.now, started := some u.now }
    let movt (u : State) (n : Nat) (w : BitVec 64) : UnitOp :=
      { kind := .movt, pc := (u.tile n).pc, word := w, d := (u.tile n).t (fD w), a := (u.tile n).t (fA w), issued := u.now, started := some u.now }
    let aligned (t : Tile) (w : BitVec 64) : Prop :=
      (t.a (fD w)).toNat % 32 = 0 ∧ (t.a (fA w)).toNat % 32 = 0 ∧ (t.s (fB w)).toNat % 32 = 0
    let free (u : State) (n : Nat) (o : UnitOp) : Prop :=
      moveOverlap o.segments = none ∧ u.reachFault (u.tilePaddock n) (sources o.segments) (targets o.segments) = none
    let begun (u : State) (n : Nat) (o : UnitOp) : State := u.setTile n { u.tile n with moves := (u.tile n).moves ++ [o] }
    (Does .movb 0x28 1 anyTime (fun u n w => room (u.tile n) ∧ aligned (u.tile n) w ∧ (u.tile n).s (fB w) ≠ 0 ∧ free u n (movb u n w))
      fun u n w => begun u n (movb u n w)) ∧
    (Does .movb 0x28 1 anyTime (fun u n w => room (u.tile n) ∧ aligned (u.tile n) w ∧ (u.tile n).s (fB w) = 0) fun u _ _ => u) ∧
    (Does .movt 0x29 1 anyTime (fun u n w => room (u.tile n) ∧ u.movtFault (n / 64) w ((u.tile n).t (fD w)) ((u.tile n).t (fA w)) = none ∧
        dExt0 ((u.tile n).t (fA w)) ≠ 0 ∧ dExt1 ((u.tile n).t (fA w)) ≠ 0 ∧ free u n (movt u n w))
      fun u n w => begun u n (movt u n w)) ∧
    (Does .movt 0x29 1 anyTime (fun u n w => room (u.tile n) ∧ u.movtFault (n / 64) w ((u.tile n).t (fD w)) ((u.tile n).t (fA w)) = none ∧
        (dExt0 ((u.tile n).t (fA w)) = 0 ∨ dExt1 ((u.tile n).t (fA w)) = 0)) fun u _ _ => u) ∧
    (∀ (s : State) (n : Nat) (w : BitVec 64) (at_ : Nat), Issues s n 0x28 0 w at_ → room (s.tile n) →
      (¬ aligned (s.tile n) w → exec (.movb n) s = .next ((s.advanceTo at_).tileFault n 0x06 0)) ∧
      (∀ a, aligned (s.tile n) w → (s.tile n).s (fB w) ≠ 0 → moveOverlap (movb (s.advanceTo at_) n w).segments = some a →
        exec (.movb n) s = .next ((s.advanceTo at_).tileFault n 0x0A a))) ∧
    (StallsOn .movb 0x28 fun u n _ => ¬ room (u.tile n)) ∧ (StallsOn .movt 0x29 fun u n _ => ¬ room (u.tile n))
  ) ∧
  (
    let room (t : Tile) : Prop := t.moves.length + t.atomics.length < 16
    let size (w : BitVec 64) : Nat := if w.getLsbD 24 then 2 else 4
    let owned (u : State) (n a : Nat) : Prop := ∃ m off, u.place a = .bank m off ∧ u.sramOwner m = some (u.tilePaddock n)
    (Does .atom 0x2C 1 anyTime
      (fun u n w => room (u.tile n) ∧ ((u.tile n).a (fA w)).toNat % size w = 0 ∧ owned u n ((u.tile n).a (fA w)).toNat)
      fun u n w => u.setTile n { u.tile n with atomics := (u.tile n).atomics ++
        [{ kind := .atom, pc := (u.tile n).pc, word := w, a := ((u.tile n).a (fA w)).setWidth 256, y := (u.tile n).s (fB w),
           issued := u.now, started := some u.now }] }) ∧
    (∀ (s : State) (n : Nat) (w : BitVec 64) (at_ : Nat), Issues s n 0x2C 0 w at_ → room (s.tile n) →
      let u := s.advanceTo at_
      let a := ((s.tile n).a (fA w)).toNat
      (a % size w ≠ 0 → exec (.atom n) s = .next (u.tileFault n 0x06 0)) ∧
      (a % size w = 0 → (∃ m, u.place a = .silageRefused m) ∨ (∃ m k, u.place a = .silageRaw m k) ∨ (∃ m g i, u.place a = .silageGroup m g i) →
        exec (.atom n) s = .next (u.tileFault n 0x58 a)) ∧
      (a % size w = 0 → (∃ m k, u.place a = .bank m k ∧ u.sramOwner m ≠ some (u.tilePaddock n)) ∨ (∃ k j, u.place a = .store k j) ∨
          (∃ k, u.place a = .hbm k) ∨ (∃ k, u.place a = .reg k) ∨ u.place a = .host ∨ u.place a = .none →
        exec (.atom n) s = .next (u.tileFault n 0x0A a))) ∧
    (StallsOn .atom 0x2C fun u n _ => ¬ room (u.tile n))
  )

/-- MOVE_COMPLETE of a MOVB that nothing earlier holds up completes: every destination byte reads what its source byte read
before, every other byte reads as before, and the move is no longer outstanding. The source is no register, the destination is
reached and lies in no SLG12 group, and no word or unit holds an error (R24, R265, R267). MOVE_COMPLETE of any move completes
when no move and no atomic that the tile issued before it between the same ports is outstanding: its bytes are written in
64-byte units, in its own order, and it is no longer outstanding; while an earlier one is, it does not complete; one to or
from host memory fails with MOV_ADDR while the host link is down (R24, R231, R266, R267, R473). ATOMIC_PERFORM completes when
no operation that the tile issued earlier between the same ports is outstanding: the bank word holds the new value of the
operation F[1:0] names, every other byte of memory is as it was, the atomic is no longer outstanding, and with RET sD holds
the old value zero-extended (R268 to R270). While one is, or when a tile of a higher number has already changed that address
in this aclk, it does not yet take place (R24, R270). Where the rules leave it open it follows notes/assumptions/22, 45, 67
and 88. -/
def Obligations.MovesAndAtomicsPerform : Prop :=
  (
    ∀ (s : State) (n : Nat) (env : Env) (o : UnitOp) (rest : List UnitOp),
      s.isRunning = true → (s.tile n).seqState ≠ .idle → (s.tile n).moves = o :: rest → o.kind = .movb → noErrors s env →
      Memory.wf s.mem = true →
      let e := s.takeEnv env
      let p := s.tilePaddock n
      let src := o.a.toNat
      let dst := o.d.toNat
      let len := o.y.toNat
      (src + len ≤ dst ∨ dst + len ≤ src) → (∀ k x, k < len → e.place (src + k) ≠ .reg x) →
      (∀ k, k < len → e.reach p (dst + k) true false = .ok ∧ ∀ m g i, e.place (dst + k) ≠ .silageGroup m g i) →
      e.mustWait n o = false →
      ∃ u, exec (.moveComplete n 0 env) s = .next u ∧ (u.tile n).moves = rest ∧
        (∀ k, k < len → u.readByte p (dst + k) = e.readByte p (src + k)) ∧
        (∀ a, (a < dst ∨ dst + len ≤ a) → u.readByte p a = e.readByte p a) ∧
        u.regs = s.regs ∧ u.sheaves = s.sheaves ∧ u.gleaner = s.gleaner
  ) ∧
  (
    ∀ (s : State) (n i : Nat) (env : Env) (o : UnitOp), s.isRunning = true → (s.tile n).moves[i]? = some o →
      let e := s.takeEnv env
      let t := { s.tile n with moves := (s.tile n).moves.eraseIdx i }
      (noErrors s env → e.mustWait n o = false → (s.host.up = true ∨ ∀ g ∈ o.segments, g.src < 0x800000000000 ∧ g.dst < 0x800000000000) →
        exec (.moveComplete n i env) s =
          .next ((unitPieces (o.segments.map fun g => (g.dst, (e.setTile n t).readBytesAll (e.tilePaddock n) g.src g.len))).foldl
            (fun u c => u.writeChunk (e.tilePaddock n) c.1 c.2 false) (e.setTile n t))) ∧
      (e.mustWait n o = false → s.host.up = false → ∀ a : Nat, 0x800000000000 ≤ a → (∃ g ∈ o.segments, a = g.src ∨ a = g.dst) →
        (∀ g ∈ o.segments, ∀ b : Nat, b = g.src ∨ b = g.dst → 0x800000000000 ≤ b → a ≤ b) →
        exec (.moveComplete n i env) s = .next ((e.setTile n t).opFault n 0x0A a o)) ∧
      ((∃ x ∈ (s.tile n).moves ++ (s.tile n).atomics, x.issued < o.issued ∧ ∃ g, g ∈ e.opPorts n x ∧ g ∈ e.opPorts n o) →
        exec (.moveComplete n i env) s = .next e)
  ) ∧
  (
    ∀ q ∈ atomTable, ∀ (s : State) (n : Nat) (env : Env) (o : UnitOp) (m off : Nat),
      s.isRunning = true → (s.tile n).seqState ≠ .idle → (s.tile n).atomics[env.arrival]? = some o → bits o.word 24 2 = q.1 →
      noErrors s env → s.place o.a.toNat = .bank m off → s.sramOwner m = some (s.tilePaddock n) →
      let e := s.takeEnv env
      let a := o.a.toNat
      let size := if q.1 = 0 ∨ q.1 = 2 then 4 else 2
      let old := leNat (Memory.bytes e.mem a size)
      let late : Prop := ∃ x ∈ s.atomicsDone, x.at_ = s.now ∧ x.addr = a ∧ n < x.tile
      let waits : Prop := ∃ x ∈ (s.tile n).moves ++ (s.tile n).atomics, x.issued < o.issued ∧ ∃ g, g ∈ e.opPorts n x ∧ g ∈ e.opPorts n o
      let written : State := withMemory e (Memory.setBytes e.mem a (leBytes size (q.2 old o.y.toNat))) []
      let done : State := { written with
        atomicsDone := (s.atomicsDone.filter fun (x : AtomicDone) => decide (x.at_ = s.now)) ++ [{ at_ := s.now, addr := a, tile := n }] }
      (¬ late → ¬ waits → exec (.atomicPerform n env) s =
        .next (done.setTile n
          (let t := { s.tile n with atomics := (s.tile n).atomics.eraseIdx env.arrival }
           if o.word.getLsbD 26 then t.setS (fD o.word) (BitVec.ofNat 32 old) else t))) ∧
      (late ∨ waits → exec (.atomicPerform n env) s = .next e)
  )

/-- FMM completes in phases GEN, FWD and BWD when its operands pass every check, and BMM in phase BWD: the operation waits in the
unit, and a bank that is not DRAINING takes the product's tag, is ACTIVE and covers its extents; a product into a DRAINING
bank, or with a zero extent or length, leaves its bank alone. A forward product is counted for the agreement watch (R140 to
R142, R152, R154, R161 to R163, R272, R275, R277, R279). FMM and BMM fault in a phase that does not accept them before any
other check; a product that passes its checks but consumes a FREE slot without a producer faults with HND_EMPTY; while an
earlier product still waits for the array input, they stall (R174, R272, R275). Where the rules leave it open it follows
notes/assumptions/18, 21, 74 and 75. -/
def Obligations.ArrayProductsIssue : Prop :=
  (
    let free (k : OpKind) (ops : List UnitOp) : Prop := ∀ o ∈ ops, o.kind = k → o.started.isSome = true
    let fReady (s : State) (n : Nat) (_ : BitVec 64) (unit : Nat) : Prop := free .fmm (s.tile n).fwa ∧ unit = (s.tile n).fwaFree
    let bReady (s : State) (n : Nat) (_ : BitVec 64) (unit : Nat) : Prop := free .bmm (s.tile n).bwa ∧ unit = (s.tile n).bwaFree
    let op (k : OpKind) (u : State) (n : Nat) (w : BitVec 64) (tag : BitVec 64) (waits : Bool) : UnitOp :=
      { kind := k, pc := (u.tile n).pc, word := w, a := (u.tile n).t (fA w), b := (u.tile n).t (fB w), tag := tag, waits := waits, issued := u.now }
    let zero (u : State) (n : Nat) (w : BitVec 64) : Prop :=
      dExt0 ((u.tile n).t (fA w)) = 0 ∨ dExt1 ((u.tile n).t (fA w)) = 0 ∨ dExt0 ((u.tile n).t (fB w)) = 0 ∨ dExt1 ((u.tile n).t (fB w)) = 0
    let fOk (u : State) (n : Nat) (w : BitVec 64) : Prop := u.tilePhase n ≠ .idle ∧
      u.fmmFault n w ((u.tile n).t (fA w)) ((u.tile n).t (fB w)) = none ∧ (u.tile n).handEmpty w = false
    let bOk (u : State) (n : Nat) (w : BitVec 64) : Prop := u.tilePhase n = .bwd ∧
      u.bmmFault n w ((u.tile n).t (fA w)) ((u.tile n).t (fB w)) = none ∧ (u.tile n).handEmpty w = false
    let claimed (b : Bank) (tag : BitVec 64) (t : Tile) (w : BitVec 64) : Bank :=
      { b with tag := setBits tag 62 2 1, extM := max b.extM (dExt1 (t.t (fA w))), extN := max b.extN (dExt1 (t.t (fB w))), products := b.products + 1 }
    let fTag (u : State) (n : Nat) (w : BitVec 64) := u.fwaTagOf (n / 64) w ((u.tile n).t (fA w)) ((u.tile n).t (fB w))
    let bTag (u : State) (n : Nat) (w : BitVec 64) := u.bwaTagOf (n / 64) (bits w 2 2) false ((u.tile n).t (fA w)) ((u.tile n).t (fB w))
    let fState (u : State) (n : Nat) (w : BitVec 64) : Nat := bits ((u.tile n).fwaBank (bits w 0 2)).tag 62 2
    let bState (u : State) (n : Nat) (w : BitVec 64) : Nat := bits ((u.tile n).bwaBank (bits w 0 2)).tag 62 2
    (Does .fmm 0x30 1 fReady (fun u n w => fOk u n w ∧ ¬ zero u n w ∧ fState u n w ≠ 2) fun u n w =>
      let o := op .fmm u n w (fTag u n w) false
      (u.setTile n ({ u.tile n with fwa := (u.tile n).fwa ++ [o] }.setFwaBank (bits w 0 2)
        (claimed ((u.tile n).fwaBank (bits w 0 2)) (fTag u n w) (u.tile n) w))).sampleProduct n o) ∧
    (Does .fmm 0x30 1 fReady (fun u n w => fOk u n w ∧ ¬ zero u n w ∧ fState u n w = 2) fun u n w =>
      let o := op .fmm u n w (fTag u n w) true
      (u.setTile n { u.tile n with fwa := (u.tile n).fwa ++ [o] }).sampleProduct n o) ∧
    (Does .fmm 0x30 1 fReady (fun u n w => fOk u n w ∧ zero u n w) fun u n w =>
      u.setTile n { u.tile n with fwa := (u.tile n).fwa ++ [op .fmm u n w 0 false] }) ∧
    (Does .bmm 0x38 1 bReady (fun u n w => bOk u n w ∧ ¬ zero u n w ∧ bState u n w ≠ 2) fun u n w =>
      u.setTile n ({ u.tile n with bwa := (u.tile n).bwa ++ [op .bmm u n w (bTag u n w) false] }.setBwaBank (bits w 0 2)
        (claimed ((u.tile n).bwaBank (bits w 0 2)) (bTag u n w) (u.tile n) w))) ∧
    (Does .bmm 0x38 1 bReady (fun u n w => bOk u n w ∧ ¬ zero u n w ∧ bState u n w = 2) fun u n w =>
      u.setTile n { u.tile n with bwa := (u.tile n).bwa ++ [op .bmm u n w (bTag u n w) true] }) ∧
    (Does .bmm 0x38 1 bReady (fun u n w => bOk u n w ∧ zero u n w) fun u n w =>
      u.setTile n { u.tile n with bwa := (u.tile n).bwa ++ [op .bmm u n w 0 false] })
  ) ∧
  (
    (FaultsWith .fmm 0x30 (fun s n _ unit => (∀ o ∈ (s.tile n).fwa, o.kind = .fmm → o.started.isSome = true) ∧ unit = (s.tile n).fwaFree)
      fun u n w =>
        if u.tilePhase n = .idle then some (0x03, 0)
        else match u.fmmFault n w ((u.tile n).t (fA w)) ((u.tile n).t (fB w)) with
          | some f => some f
          | none => if (u.tile n).handEmpty w then some (0x36, 0) else none) ∧
    (FaultsWith .bmm 0x38 (fun s n _ unit => (∀ o ∈ (s.tile n).bwa, o.kind = .bmm → o.started.isSome = true) ∧ unit = (s.tile n).bwaFree)
      fun u n w =>
        if u.tilePhase n ≠ .bwd then some (0x03, 0)
        else match u.bmmFault n w ((u.tile n).t (fA w)) ((u.tile n).t (fB w)) with
          | some f => some f
          | none => if (u.tile n).handEmpty w then some (0x36, 0) else none) ∧
    (StallsOn .fmm 0x30 fun u n _ => ∃ o ∈ (u.tile n).fwa, o.kind = .fmm ∧ o.started = none) ∧
    (StallsOn .bmm 0x38 fun u n _ => ∃ o ∈ (u.tile n).bwa, o.kind = .bmm ∧ o.started = none)
  )

/-- FWA_PRODUCT_START and FWA_PRODUCT_COMPLETE of the oldest product complete: it starts when its slot is ready and its bank is
not DRAINING any more (a product that waits for a drain does not start), holds the array input for K aclk, and the first into
a bank captures the row scales; K + 12 aclk after its start its group terms stand in the bank's elements, the counts have gone
up and a released slot is FREE. A product with a zero extent or length takes 1 aclk and leaves its bank alone. No word holds
an error (R134, R136, R138, R152, R172). BWA_PRODUCT_START and BWA_PRODUCT_COMPLETE of the oldest product complete: the array
input is held for ceil(4K / 3) aclk, and 16 aclk after that each element of the bank has received its products in ascending k;
a zero extent or length takes 1 aclk and leaves the bank alone. No word holds an error (R158, R159, R163, R172). Where the
rules leave it open it follows notes/assumptions/18 and 78. -/
def Obligations.ArrayProductsRun : Prop :=
  (
    ∀ (s : State) (n : Nat) (env : Env) (o : UnitOp) (rest : List UnitOp), s.isRunning = true →
      let e := s.takeEnv env
      let t := s.tile n
      let q := bits o.word 0 2
      let zero : Prop := dExt0 o.a = 0 ∨ dExt0 o.b = 0 ∨ dExt1 o.a = 0 ∨ dExt1 o.b = 0
      let waiting (x : UnitOp) : Bool := decide (x.kind = .fmm) && x.started.isNone
      let going (x : UnitOp) : Bool := decide (x.kind = .fmm) && x.started.isSome
      let start := if o.kind.hasHand && o.word.getLsbD 12 then max e.now t.fwaFree else max (max o.issued o.freed) t.fwaFree
      (takeFirst waiting t.fwa = some (o, rest) → t.mayStart o = false ∨ o.waits = true → exec (.fwaProductStart n env) s = .next e) ∧
      (noErrors s env → takeFirst waiting t.fwa = some (o, rest) → t.mayStart o = true → o.waits = false →
        let u := e.advanceTo start
        let b := t.fwaBank q
        let bank : Bank := { b with doneM := max b.doneM (dExt1 o.a), doneN := max b.doneN (dExt1 o.b) }
        (zero → exec (.fwaProductStart n env) s = .next (u.setTile n { t.slotStart o with
          fwaFree := start + 1, fwa := updateFirst waiting (fun x => { x with started := some start }) t.fwa })) ∧
        (¬ zero → exec (.fwaProductStart n env) s = .next (u.setTile n { (t.slotStart o).setFwaBank q (if b.products = 1 then
            { bank with rowA := u.captureScales o.a (bits o.tag 20 4) (32 / 2 ^ bits o.word 2 2),
                        rowB := u.captureScales o.b (bits o.tag 16 4) (32 * 2 ^ bits o.word 2 2) } else bank) with
          fwaFree := start + dExt0 o.a,
          fwa := updateFirst waiting (fun x => { x with started := some start }) t.fwa }))) ∧
      (∀ k, takeFirst going t.fwa = some (o, rest) → o.started = some k →
        (zero → exec (.fwaProductComplete n) s = .next ((s.advanceTo (k + 1)).setTile n { t.slotEnd o with
          fwa := rest, fwaDone := max t.fwaDone (k + 1) })) ∧
        (¬ zero → exec (.fwaProductComplete n) s = .next ((s.advanceTo (k + dExt0 o.a + 12)).setTile n
          { (t.slotEnd o).setFwaBank q ((s.advanceTo (k + dExt0 o.a + 12)).fwaBankAfter o (t.fwaBank q)) with
            fwa := rest, fwaDone := max t.fwaDone (k + dExt0 o.a + 12), fwaBusy := t.fwaBusy + BitVec.ofNat _ (dExt0 o.a),
            fwaProducts := t.fwaProducts + 1, fwaOutliers := t.fwaOutliers + BitVec.ofNat _
              ((s.advanceTo (k + dExt0 o.a + 12)).outlierCount o.a (bits o.tag 20 4) + (s.advanceTo (k + dExt0 o.a + 12)).outlierCount o.b (bits o.tag 16 4)) })))
  ) ∧
  (
    ∀ (s : State) (n : Nat) (env : Env) (o : UnitOp) (rest : List UnitOp), s.isRunning = true →
      let e := s.takeEnv env
      let t := s.tile n
      let q := bits o.word 0 2
      let zero : Prop := dExt0 o.a = 0 ∨ dExt0 o.b = 0 ∨ dExt1 o.a = 0 ∨ dExt1 o.b = 0
      let waiting (x : UnitOp) : Bool := decide (x.kind = .bmm) && x.started.isNone
      let going (x : UnitOp) : Bool := decide (x.kind ≠ .bdr) && x.started.isSome
      let start := if o.kind.hasHand && o.word.getLsbD 12 then max e.now t.bwaFree else max (max o.issued o.freed) t.bwaFree
      let span := (4 * dExt0 o.a + 2) / 3
      (takeFirst waiting t.bwa = some (o, rest) → t.mayStart o = false ∨ o.waits = true → exec (.bwaProductStart n env) s = .next e) ∧
      (noErrors s env → takeFirst waiting t.bwa = some (o, rest) → t.mayStart o = true → o.waits = false →
        let u := e.advanceTo start
        let b := t.bwaBank q
        let bank : Bank := { b with doneM := max b.doneM (dExt1 o.a), doneN := max b.doneN (dExt1 o.b) }
        (zero → exec (.bwaProductStart n env) s = .next (u.setTile n { t.slotStart o with
          bwaFree := start + 1, bwa := updateFirst waiting (fun x => { x with started := some start }) t.bwa })) ∧
        (¬ zero → exec (.bwaProductStart n env) s = .next (u.setTile n { (t.slotStart o).setBwaBank q bank with
          bwaFree := start + span,
          bwa := updateFirst waiting (fun x => { x with started := some start }) t.bwa }))) ∧
      (∀ k, takeFirst going t.bwa = some (o, rest) → o.kind = .bmm → o.started = some k →
        (zero → exec (.bwaProductComplete n) s = .next ((s.advanceTo (k + 1)).setTile n { t.slotEnd o with
          bwa := rest, bwaDone := max t.bwaDone (k + 1) })) ∧
        (¬ zero → exec (.bwaProductComplete n) s = .next ((s.advanceTo (k + span + 16)).setTile n
          { (t.slotEnd o).setBwaBank q ((s.advanceTo (k + span + 16)).bwaBankAfter (bits o.word 2 2) o.a o.b (t.bwaBank q)) with
            bwa := rest, bwaDone := max t.bwaDone (k + span + 16), bwaBusy := t.bwaBusy + BitVec.ofNat _ span,
            bwaProducts := t.bwaProducts + 1 })))
  )

/-- FDR completes in phases GEN, FWD and BWD, and BDR in phase BWD, when no earlier drain of the unit waits to start and the drain
passes its checks: the drain waits in its unit and its bank is DRAINING from now on, its contents unchanged. In another phase
they fault with TILE_PHASE, with a failed check by its cause; an earlier waiting drain stalls them (R140, R161, R272, R275,
R278, R280). BWA_DRAIN_START and BWA_DRAIN_COMPLETE complete: the drain starts when the products into its bank are complete
and the drain before it has left the Sower, with the T in force then; it reads 8 elements per aclk and ends 8 aclk after that,
with element (i, j) of the drained extent that lies in the whole tensor flushed, stochastically rounded with the Sower bits of
its linear index and written at BASE + 32 × STRIDE1 × i + 2j, the entry's window updated, and the bank EMPTY, or a waiting
product's (R80, R81, R162, R166 to R168, R280). Where the rules leave it open it follows notes/assumptions/26 and 74. -/
def Obligations.DrainsIssue : Prop :=
  (
    let fReady (s : State) (n : Nat) (_ : BitVec 64) (unit : Nat) : Prop := (∀ o ∈ (s.tile n).fwa, o.kind = .fdr → o.started.isSome = true) ∧ unit = 0
    let bReady (s : State) (n : Nat) (_ : BitVec 64) (unit : Nat) : Prop := (∀ o ∈ (s.tile n).bwa, o.kind = .bdr → o.started.isSome = true) ∧ unit = 0
    (Does .fdr 0x31 1 fReady (fun u n w => u.tilePhase n ≠ .idle ∧ u.fdrFault n w ((u.tile n).t (fD w)) = none) fun u n w =>
      let t := u.tile n
      let b := t.fwaBank (bits w 0 2)
      let f := BitVec.ofNat 32 (if w.getLsbD 2 then u.effective (n / 64) (t.t (fD w)) else 0)
      u.setTile n { t.setFwaBank (bits w 0 2) { b with tag := setBits b.tag 62 2 2 } with
        fwa := t.fwa ++ [{ kind := .fdr, pc := t.pc, word := w, d := t.t (fD w), x := f, issued := u.now }] }) ∧
    (Does .bdr 0x39 1 bReady (fun u n w => u.tilePhase n = .bwd ∧
        u.bdrFault n w ((u.tile n).t (fD w)) ((u.tile n).s (fB w)).toNat ((u.tile n).s (fC w)).toNat = none) fun u n w =>
      let t := u.tile n
      let b := t.bwaBank (bits w 0 2)
      u.setTile n { t.setBwaBank (bits w 0 2) { b with tag := setBits b.tag 62 2 2 } with
        bwa := t.bwa ++ [{ kind := .bdr, pc := t.pc, word := w, d := t.t (fD w), x := t.s (fB w), z := t.s (fC w), issued := u.now }] }) ∧
    (FaultsWith .fdr 0x31 fReady fun u n w =>
      if u.tilePhase n = .idle then some (0x03, 0) else u.fdrFault n w ((u.tile n).t (fD w))) ∧
    (FaultsWith .bdr 0x39 bReady fun u n w =>
      if u.tilePhase n ≠ .bwd then some (0x03, 0)
      else u.bdrFault n w ((u.tile n).t (fD w)) ((u.tile n).s (fB w)).toNat ((u.tile n).s (fC w)).toNat) ∧
    (StallsOn .fdr 0x31 fun u n _ => ∃ o ∈ (u.tile n).fwa, o.kind = .fdr ∧ o.started = none) ∧
    (StallsOn .bdr 0x39 fun u n _ => ∃ o ∈ (u.tile n).bwa, o.kind = .bdr ∧ o.started = none)
  ) ∧
  (
    ∀ (s : State) (n : Nat) (o : UnitOp) (rest : List UnitOp), s.isRunning = true →
      let t := s.tile n
      let q := bits o.word 0 2
      let waiting (x : UnitOp) : Bool := decide (x.kind = .bdr) && x.started.isNone
      let going (x : UnitOp) : Bool := decide (x.kind = .bdr) && x.started.isSome
      (takeFirst waiting t.bwa = some (o, rest) →
        (∀ x ∈ t.bwa.takeWhile (fun x => !waiting x), ¬ (x.kind = .bmm ∧ bits x.word 0 2 = q)) →
        let start := max (max o.issued t.bwaDone) t.gradDone
        let cells := min (t.bwaBank q).extM (dExt1 o.d - o.x.toNat) * min (t.bwaBank q).extN (dExt0 o.d - o.z.toNat)
        let td := BitVec.ofInt 32 (if dHasEntry o.d then ((s.entry (n / 64) (dEntry o.d)).tExp.toInt) else 0)
        exec (.bwaDrainStart n) s = .next ((s.advanceTo start).setTile n { t with
          gradDone := start + (cells + 7) / 8,
          bwa := updateFirst waiting (fun x => { x with started := some start, y := td }) t.bwa })) ∧
      (∀ k, takeFirst going t.bwa = some (o, rest) → o.started = some k →
        let b := t.bwaBank q
        let rows := min b.extM (dExt1 o.d - o.x.toNat)
        let cols := min b.extN (dExt0 o.d - o.z.toNat)
        let u := s.advanceTo (k + ((rows * cols + 7) / 8 + 8))
        let p := u.tilePaddock n
        let y (i j : Nat) : BitVec 32 := toFp ((fp (Tbl.get 0 b.elems (i * (32 * 2 ^ bits b.tag 60 2) + j))).scale
          (tagT b.tag 48 + tagT b.tag 40 - o.y.toInt)).flushed
        let code (i j : Nat) : BitVec 16 := stochasticRound (y i j) (sowerElement (u.pdk p).sowerKey classSr
          (BitVec.ofNat 28 (u.field (.sowerStep p) 0 28)) (dStream o.d) ((o.x.toNat + i) * dExt0 o.d + (o.z.toNat + j)))
        let tile := (List.range rows).map fun i => (List.range cols).map fun j => code i j
        let v := (u.setTile n { (t.setBwaBank q {}).slotEnd o with bwa := rest }).writePieces p
          (unitPieces (tile.zipIdx.map fun r => (dBase o.d + 32 * dStride1 o.d * r.2, r.1.flatMap fun v => leBytes 2 v.toNat)))
        let v := if dHasEntry o.d then v.account (n / 64) (dEntry o.d) (gradCounts o.y.toInt tile) false else v
        let held (x : UnitOp) : Bool := decide (x.kind = .bmm) && x.waits && decide (bits x.word 0 2 = q)
        let v := match takeFirst held (v.tile n).bwa with
          | none => v
          | some (x, _) =>
            let tag := v.bwaTagOf (n / 64) (bits x.word 2 2) false x.a x.b
            v.setTile n { (v.tile n).setBwaBank q { tag := setBits tag 62 2 1, extM := dExt1 x.a, extN := dExt1 x.b, products := 1 } with
              bwa := updateFirst held (fun x => { x with waits := false, tag := tag, freed := v.now }) (v.tile n).bwa }
        exec (.bwaDrainComplete n) s = .next (v.nonFiniteAt n o
          ((((List.range b.extM).flatMap fun i => (List.range b.extN).map fun j => (i, j)).find? fun c => !(fp (y c.1 c.2)).isFinite).map
            fun c => c.1 * (32 * 2 ^ bits b.tag 60 2) + c.2)))
  )

/-- FWA_DRAIN_START and FWA_DRAIN_COMPLETE of a drain to TILE complete: it starts when the products into its bank are complete,
and 24 aclk after its start the element (m, c) of the drained extent that lies in tD's extents stands rounded to BF16 at BASE
+ 32 × STRIDE1 × m + 2c, the bank is EMPTY, the slot it produces is READY, and the non-finite flag holds the first non-finite
element's position r × N_s + c; a product that waits for the drain takes its tag and the bank as it ends (R142). No repeat of
the bank is open (R145 to R147, R172, R278, R88). FWA_DRAIN_START and FWA_DRAIN_COMPLETE of a drain to HAME complete: the
start hands the Hame one request step with the drained FP32 values, under tD with the drained extents and no outlier plane,
and the drain ends when the Hame has taken that step; its bank is EMPTY then, when no product waits for it (R146, R147, R278).
Where the rules leave it open it follows notes/assumptions/24, 26 and 76. -/
def Obligations.ForwardDrains : Prop :=
  (
    ∀ (s : State) (n : Nat) (o : UnitOp) (rest : List UnitOp), s.isRunning = true → o.word.getLsbD 2 = false →
      let t := s.tile n
      let q := bits o.word 0 2
      let waiting (x : UnitOp) : Bool := decide (x.kind = .fdr) && x.started.isNone
      let going (x : UnitOp) : Bool := decide (x.kind = .fdr) && x.started.isSome
      let start := if o.kind.hasHand && o.word.getLsbD 15 then s.now else max o.issued t.fwaDone
      (takeFirst waiting t.fwa = some (o, rest) → t.mayStart o = true →
        (∀ x ∈ t.fwa.takeWhile (fun x => !waiting x), ¬ (x.kind = .fmm ∧ bits x.word 0 2 = q)) →
        exec (.fwaDrainStart n) s = .next ((s.advanceTo start).setTile n { t.slotStart o with
          fwa := updateFirst waiting (fun x => { x with started := some start }) t.fwa })) ∧
      (∀ k, takeFirst going t.fwa = some (o, rest) → o.started = some k → t.openRepeats q = false →
        ((t.bwaBank q).products = 0 ∨ (t.bwaBank q).tag.getLsbD 59 = false) →
        (t.repeated q = false) →
        let u := s.advanceTo (k + 24)
        let b := t.fwaBank q
        let code (m c : Nat) : BitVec 16 := toBf (b.fwaValue m c)
        let rows := (List.range b.extM).map fun m => (List.range b.extN).map fun c => code m c
        let held (x : UnitOp) : Bool := decide (x.kind = .fmm) && x.waits && decide (bits x.word 0 2 = q)
        let v := (u.setTile n ({ (t.setFwaBank q {}).slotEnd o with fwa := rest })).writePieces (u.tilePaddock n)
            (unitPieces ((rows.zipIdx.filter fun r => decide (r.2 < dExt1 o.d)).map fun r =>
              (dBase o.d + 32 * dStride1 o.d * r.2, (r.1.take (dExt0 o.d)).flatMap fun v => leBytes 2 v.toNat)))
        let v := match takeFirst held (v.tile n).fwa with
          | none => v
          | some (x, _) =>
            let tag := v.fwaTagOf (n / 64) x.word x.a x.b
            v.setTile n { (v.tile n).setFwaBank q { tag := setBits tag 62 2 1, extM := dExt1 x.a, extN := dExt1 x.b, products := 1 } with
              fwa := updateFirst held (fun x => { x with waits := false, tag := tag, freed := v.now }) (v.tile n).fwa }
        exec (.fwaDrainComplete n) s = .next
          (v.nonFiniteAt n o
            (rows.zipIdx.findSome? fun r => (r.1.findIdx? bfNonFinite).map fun c => r.2 * (32 * 2 ^ bits b.tag 60 2) + c)))
  ) ∧
  (
    ∀ (s : State) (n : Nat) (o : UnitOp) (rest : List UnitOp), s.isRunning = true → o.word.getLsbD 2 = true →
      let t := s.tile n
      let q := bits o.word 0 2
      let b := t.fwaBank q
      let waiting (x : UnitOp) : Bool := decide (x.kind = .fdr) && x.started.isNone
      let going (x : UnitOp) : Bool := decide (x.kind = .fdr) && x.started.isSome
      let start := if o.kind.hasHand && o.word.getLsbD 15 then s.now else max o.issued t.fwaDone
      (takeFirst waiting t.fwa = some (o, rest) → t.mayStart o = true → bits b.tag 58 2 ≠ 2 →
        (∀ x ∈ t.fwa.takeWhile (fun x => !waiting x), ¬ (x.kind = .fmm ∧ bits x.word 0 2 = q)) →
        let d := setBits (setBits o.d 128 42 (b.extM * 2 ^ 21 + b.extN)) 54 1 0
        let values : Tbl (BitVec 32) := Tbl.ofList 0 0 ((List.range b.extM).flatMap fun i => (List.range b.extN).map fun j => toFp (b.fwaValue i j))
        let h : UnitOp :=
          { kind := .fdr, pc := o.pc, word := o.word &&& 0xFFFFFFFFFFFF00FF, d := d, a := d, x := o.x, values := values, issued := start }
        exec (.fwaDrainStart n) s = .next ((s.advanceTo start).setTile n { t.slotStart o with
          fwa := updateFirst waiting (fun x => { x with started := some start }) t.fwa, hame := t.hame ++ [h] })) ∧
      (∀ k h x, takeFirst going t.fwa = some (o, rest) → o.started = some k →
        t.hame.find? (fun x => decide (x.kind = .fdr) && decide (x.issued = k) && decide (x.pc = o.pc)) = some x → x.started = some h →
        ∃ u, exec (.fwaDrainComplete n) s = .next u ∧ u.now = (s.advanceTo (h + 17)).now ∧ u.mem = s.mem ∧ u.hbm = s.hbm ∧
          ((s.tile n).seqState ≠ .idle → Tbl.sorted t.fwaBanks = true →
            (∀ x ∈ rest, x.kind = .fmm → bits x.word 0 2 = q → x.waits = false) →
            (u.tile n).fwa = rest ∧ (u.tile n).fwaBank q = {} ∧ ∀ j, j ≠ q → (u.tile n).fwaBank j = t.fwaBank j))
  )

/-- HQ, HX, HW and HT complete in every phase when fewer than 4 conversions of the tile are incomplete and their descriptors and
planes pass every check: the conversion waits in the Hame with the format it works in, and nothing is written yet. A failed
check faults with its cause; a fifth conversion stalls; a consumer of a FREE slot without a producer faults with HND_EMPTY
(R174, R272, R275, R281). Where the rules leave it open it follows notes/assumptions/21 and 25. -/
def Obligations.ConversionsIssue : Prop :=
  let ready (s : State) (n : Nat) (_ : BitVec 64) (unit : Nat) : Prop := (s.tile n).hame.length < 4 ∧ unit = 0
  let checks : List ((Nat → Instr) × Nat × OpKind × (State → Nat → BitVec 256 → BitVec 256 → Option (Nat × Nat)) ×
      (State → Nat → BitVec 256 → BitVec 256 → Nat)) :=
    [(.hq, 0x40, .hq, fun u n d a => u.hqFault n d a, fun u n d _ => u.effective (n / 64) d),
     (.hx, 0x41, .hx, fun u n d a => u.hxFault n d a, fun u n _ a => u.effective (n / 64) a),
     (.hw, 0x42, .hw, fun u n d a => u.hwFault n d a, fun u n _ a => u.effective (n / 64) a),
     (.ht, 0x43, .ht, fun u n d a => u.htFault n d a, fun _ _ _ _ => 0)]
  ∀ q ∈ checks,
    (Does q.1 q.2.1 1 ready (fun u n w => q.2.2.2.1 u n ((u.tile n).t (fD w)) ((u.tile n).t (fA w)) = none ∧ (u.tile n).handEmpty w = false)
      fun u n w =>
        let t := u.tile n
        let f := BitVec.ofNat 32 (q.2.2.2.2 u n (t.t (fD w)) (t.t (fA w)))
        u.setTile n { t with hame := t.hame ++
          [{ kind := q.2.2.1, pc := t.pc, word := w, d := t.t (fD w), a := t.t (fA w), x := f, issued := u.now }] }) ∧
    (FaultsWith q.1 q.2.1 ready fun u n w =>
      match q.2.2.2.1 u n ((u.tile n).t (fD w)) ((u.tile n).t (fA w)) with
      | some f => some f
      | none => if (u.tile n).handEmpty w then some (0x36, 0) else none) ∧
    (StallsOn q.1 q.2.1 fun u n _ => 4 ≤ (u.tile n).hame.length)

/-- CONVERSION_START and CONVERSION_COMPLETE complete: the tile's oldest conversion starts when its slots allow, with the T of its
entry then, and ends after 1 aclk with a zero extent, or 24 aclk and its request steps later, when its parts are written in
64-byte units, its counts enter the window of its entry (HT counts nothing), the non-finite flag takes its first non-finite
position and its slots move on. No word or unit holds an error (R88, R110, R165, R172, R283). Where the rules leave it open it
follows notes/assumptions/24 and 25. -/
def Obligations.ConversionsRun : Prop :=
  ∀ (s : State) (n : Nat) (env : Env) (o : UnitOp) (rest : List UnitOp), s.isRunning = true → (s.tile n).hame = o :: rest →
    (s.tile n).seqState ≠ .idle →
    let t := s.tile n
    let hand := o.kind.hasHand && (o.word.getLsbD 15 || o.word.getLsbD 12)
    let start := if hand then s.now else max o.issued t.hameDone
    let entry := if o.kind = .hq ∨ o.kind = .fdr then o.d else o.a
    let zero : Prop := dExt0 o.a = 0 ∨ dExt1 o.a = 0
    (o.started = none → t.mayStart o = true →
      let td := BitVec.ofInt 32 (if dHasEntry entry then (s.entry (n / 64) (dEntry entry)).tExp.toInt else 0)
      let begun := if hand then (s.advanceTo start).now else start
      exec (.conversionStart n) s = .next ((s.advanceTo start).setTile n { t.slotStart o with
        hame := { o with started := some begun, y := td } :: rest })) ∧
    (∀ k, o.started = some k → noErrors s env →
      let e := s.takeEnv env
      let time := if dExt0 o.a = 0 ∨ dExt1 o.a = 0 then 1 else 24 + (o.convQuarters + 3) / 4
      let u := (e.advanceTo (k + time)).setTile n { t with hame := rest, hameDone := max t.hameDone (k + time) }
      let r := u.convResult n o
      let p := u.tilePaddock n
      let v := (unitPieces r.parts).foldl (fun x c => x.writeChunk p c.1 c.2 false) u
      let v := if o.kind = .ht then v else v.account (n / 64) (dEntry entry) r.counts r.trouble
      let v := v.nonFiniteAt n o (if o.kind = .fdr then none else r.nonFinite)
      (zero → exec (.conversionComplete n env) s = .next (u.setTile n ((u.tile n).slotEnd o))) ∧
      (¬ zero → exec (.conversionComplete n env) s = .next (v.setTile n ((v.tile n).slotEnd o))))

/-- The request steps of a conversion and their time d, in quarters of an aclk (R283). The E2M1 codes of R77 expand to their E4M3
codes, with the sign kept; an INT4 code expands to the INT8 code of its value. Where the rules leave it open it follows
notes/assumptions/72. -/
def Obligations.ConversionRules : Prop :=
  (
    ∀ o : UnitOp,
      let e := dExt0 o.a * dExt1 o.a
      let steps := (e + 1023) / 1024
      (o.kind = .hq → (o.x = 1 ∨ o.x = 2) → o.convQuarters = 4 * steps) ∧
      (o.kind = .hq → (o.x = 3 ∨ o.x = 4 ∨ o.x = 5) → o.convQuarters = 4 * (2 * dExt1 o.a * ((dExt0 o.a + 1023) / 1024))) ∧
      (o.kind = .hx → o.convQuarters = steps) ∧ (o.kind = .hw → o.convQuarters = 4 * steps) ∧
      (o.kind = .ht → o.convQuarters = 4 * (2 * (dExt0 o.a / 32 * (dExt1 o.a / 32)))) ∧
      (o.kind = .fdr → o.convQuarters = 4)
  ) ∧
  (
    (∀ p ∈ [(0, 0x00), (1, 0x30), (2, 0x38), (3, 0x3C), (4, 0x40), (5, 0x44), (6, 0x48), (7, 0x4C)],
      expandE2m1 p.1 = p.2 ∧ expandE2m1 (8 + p.1) = 128 + p.2) ∧
    (∀ c : BitVec 4, BitVec.ofNat 8 (expandInt4 c.toNat) = c.signExtend 8) ∧
    (∀ c : BitVec 4, ∃ (neg : Bool) (m : Nat) (e : Int) (k : Nat), fmtE2m1.decode c.toNat = .fin neg m e ∧
      fmtE4m3.decode (expandE2m1 c.toNat) = .fin neg (m * 2 ^ k) (e - k))
  )

/-- MOPEN completes when the tile's drain fence holds and no close of the entry is being evaluated: a closed entry opens with
NEXT_T and NEXT_RUNG in force (a FWD or KEPT entry takes them in GEN and FWD alone, a FWD one within RUNG_MIN and RUNG_MAX),
its counts and measures clear and its products counted from 0, while what the host writes of it in the same aclk stays (R9);
an open one is joined. MOPEN of an entry of kind NONE or a malformed one faults with DESC_ENTRY (R99, R110, R120, R149, R284).
MCLOSE completes when no conversion and no drain that feeds the entry is outstanding in the sheaf: the entry is closed and its
close is being evaluated under the phase of the tile; sampled repeats under it that are not complete are discarded and
counted. An MCLOSE of a closed entry does nothing; one of an entry that something feeds stalls (R110, R128, R284). MVERD
completes with sD holding OPEN, NEXT_T, NEXT_RUNG and VERDICT of the entry, and stalls while its close is being evaluated
(R285). -/
def Obligations.MartingaleInstructions : Prop :=
  (
    let fenced (t : Tile) : Prop := t.fwa = [] ∧ (∀ o ∈ t.bwa, o.kind ≠ .bdr) ∧ ∀ o ∈ t.chaff, o.kind ≠ .cdr
    let ready (s : State) (n : Nat) (w : BitVec 64) (unit : Nat) : Prop :=
      fenced (s.tile n) ∧ (s.entry (n / 64) (bits w 0 8)).evaluating = none ∧ unit = 0
    let good (x : MtgEntry) : Prop := bits x.ctl 18 2 ≠ 0 ∧ x.malformed = false
    (Does .mopen 0x48 4 ready (fun u n w => good (u.entry (n / 64) (bits w 0 8)) ∧ (u.entry (n / 64) (bits w 0 8)).isOpen = true) fun u _ _ => u) ∧
    (Does .mopen 0x48 4 ready (fun u n w => good (u.entry (n / 64) (bits w 0 8)) ∧ (u.entry (n / 64) (bits w 0 8)).isOpen = false)
      fun u n w =>
        let m := n / 64
        let e := bits w 0 8
        let installs (x : MtgEntry) : Bool := decide (bits x.ctl 18 2 = 3) || decide (u.tilePhase n = .gen) || decide (u.tilePhase n = .fwd)
        let rung (x : MtgEntry) : BitVec 2 := if bits x.ctl 18 2 = 1 then
          BitVec.ofNat 2 (max (bits x.ctl 26 2) (min (bits x.ctl 24 2) x.nextRung.toNat)) else x.nextRung
        let u := u.modEntry m e fun x => u.keepWritten m e x
          { x with
            tExp := if installs x then x.nextT else x.tExp, rung := if installs x then rung x else x.rung, isOpen := true,
            sat := 0, zero := 0, ovfl := 0, zrange := 0, satb := 0, zerob := 0, nonfin := 0, lastAmax := 0, lastMinblk := 0,
            samples := 0, elems := 0, exceed := 0, maxrel := 0, abandoned := 0, intra := 0, zeroed := 0, converted := false,
            wroteTrouble := false, inPart := bit x.ctl 20 && decide (bits x.ctl 18 2 ≠ 0) }
        (tilesOfSheaf m).foldl (fun u k => u.setTile k { u.tile k with sampleIdx := Tbl.put 0 (u.tile k).sampleIdx e 0 }) u) ∧
    (FaultsWith .mopen 0x48 ready fun u n w =>
      if bits (u.entry (n / 64) (bits w 0 8)).ctl 18 2 = 0 ∨ (u.entry (n / 64) (bits w 0 8)).malformed = true then some (0x14, 0) else none) ∧
    (StallsOn .mopen 0x48 fun u n w => ¬ fenced (u.tile n) ∨ (u.entry (n / 64) (bits w 0 8)).evaluating.isSome = true)
  ) ∧
  (
    (∀ (s : State) (n : Nat) (w : BitVec 64) (at_ : Nat) (pc : BitVec 11) (loops : List LoopLevel),
      Issues s n 0x49 0 w at_ → (s.tile n).after none = some (pc, loops) →
      let m := n / 64
      let e := bits w 0 8
      let u := s.advanceTo at_
      let busy := ∃ k ∈ tilesOfSheaf m, ((s.tile k).hame.any (fun o => o.feeds e (s.tile n).nextIssue) ||
        (s.tile k).fwa.any (fun o => o.feeds e (s.tile n).nextIssue) || (s.tile k).bwa.any (fun o => o.feedsGrad e (s.tile n).nextIssue)) = true
      ((s.entry m e).isOpen = false → exec (.mclose n) s = .next (u.setTile n (goOn (s.tile n) pc loops (u.now + 1)))) ∧
      ((s.entry m e).isOpen = true → ¬ busy →
        let v := ((tilesOfSheaf m).foldl (fun v k => v.abandonRepeats k fun x => decide (x = e)) u).modEntry m e fun x =>
          { x with isOpen := false, evaluating := some (u.tilePhase n, u.now) }
        exec (.mclose n) s = .next (v.setTile n (goOn (v.tile n) pc loops (u.now + 1)))) ∧
      ((s.entry m e).isOpen = true → busy → exec (.mclose n) s = .next s))
  ) ∧
  (
    (Does .mverd 0x4A 1 (fun s n w unit => (s.entry (n / 64) (bits w 0 8)).evaluating = none ∧ unit = 0) (fun _ _ _ => True) fun u n w =>
      let x := u.entry (n / 64) (bits w 0 8)
      u.setTile n ((u.tile n).setS (fD w)
        (pack 32 [(16, 1, if x.isOpen then 1 else 0), (8, 8, x.nextT.toNat), (4, 2, x.nextRung.toNat), (0, 3, x.verdict.toNat)]))) ∧
    (StallsOn .mverd 0x4A fun u n w => (u.entry (n / 64) (bits w 0 8)).evaluating.isSome = true)
  )

/-- MTG_CLOSE_EVALUATION completes for an entry judged by its sheaf: the entry and the effects of the judgement are those of
`judge` under the phase of the close and the paddock whose entries the sheaf holds, and what the host has written of the entry
in this aclk stays (R9); a FWD or KEPT close in IDLE or BWD forms verdict 0 and changes nothing else but that a wish to lower
T ends; an entry that no close is being evaluated for, and one of a PART window, stays as it is (R65, R115, R116, R120, R123).
PART_VERDICT completes once every participant of a PART entry has closed: one verdict is formed from the joined windows, and
every participant takes it; while a participant is open, nothing happens (R65, R123). The verdict of a FWD or KEPT window
closed in GEN or FWD: HEAD moves on when it converted an element; overflow with a permitted repeat gives REPEAT alone and
EVT_NUM_WIDEN; overflow without one gives FLAG and EVT_NUM_FLAG; very-low-precision trouble with REPLAY_COUNT below REPLAY_MAX
gives REPLAY, EVT_NUM_REPLAY and HIST all LAST_AMAX; without either the verdict is 0 and REPEATS is cleared, whatever the
policy microprogram does (R115). Where the rules leave it open it follows notes/assumptions/28, 29 and 80. -/
def Obligations.MartingaleVerdicts : Prop :=
  (
    ∀ (s : State) (m e : Nat), s.isRunning = true →
      let x := s.entry m e
      let p := ((match (s.sheaf m).ran with | some p => some p | none => s.runs m)).getD 0
      (x.evaluating = none ∨ x.inPart = true → exec (.mtgCloseEvaluation m e) s = .next s) ∧
      (∀ phase k, x.evaluating = some (phase, k) → x.inPart = false →
        (bits x.ctl 18 2 ≠ 3 → phase ≠ .gen → phase ≠ .fwd → exec (.mtgCloseEvaluation m e) s =
          .next (s.modEntry m e fun _ => s.keepWritten m e x { x with evaluating := none, verdict := 0, lowerT := false })) ∧
        (let j := s.judge p phase { x with evaluating := none }
         exec (.mtgCloseEvaluation m e) s = .next ((s.modEntry m e fun _ => s.keepWritten m e x j.entry).applyJudged m e p j)))
  ) ∧
  (
    ∀ (s : State) (p e : Nat) (c : Nat × Bool × MtgEntry) (rest : List (Nat × Bool × MtgEntry)), s.isRunning = true →
      s.partners p e = c :: rest →
      ((∀ d ∈ c :: rest, d.2.2.isOpen = false) →
        let lead := rest.foldl (fun x d => x.joinWindow d.2.2) c.2.2
        let phase := match lead.evaluating with | some v => v.1 | none => .idle
        let j := s.judge p phase { lead with evaluating := none }
        exec (.partVerdict p e) s = .next (((c :: rest).foldl (fun u d => u.deliverVerdict p e j.entry d) s).applyJudged c.1 e p j)) ∧
      ((∃ d ∈ c :: rest, d.2.2.isOpen = true) → exec (.partVerdict p e) s = .next s)
  ) ∧
  (
    ∀ (s : State) (p : Nat) (phase : Phase) (e : MtgEntry), phase = .gen ∨ phase = .fwd → (bits e.ctl 18 2 = 1 ∨ bits e.ctl 18 2 = 2) →
      let j := s.judge p phase e
      let zerobLim := s.field (.mtgThresh p) 8 16
      let satbLim := s.field (.mtgThresh p) 24 16
      let exceeded := e.overflow zerobLim = true
      let vlp := satbLim ≤ e.satb.toNat ∨ zerobLim ≤ min e.zeroed 0xFFFF
      let permitted := bit e.ctl 21 = true ∧ e.rung.toNat < bits e.ctl 24 2 ∧ e.repeats.toNat < 2
      let room := (s.pdk p).replayCount.toNat < s.field (.mtgPolicy p) 37 4
      (j.entry.head = if e.converted then e.head + 1 else e.head) ∧
      (exceeded → permitted → j.entry.verdict = 1 ∧ j.entry.repeats = e.repeats + 1 ∧ evtNumWiden ∈ j.events ∧ evtNumReplay ∉ j.events ∧
        j.replayed = false) ∧
      (exceeded → ¬ permitted → j.entry.verdict.getLsbD 1 = true ∧ evtNumFlag ∈ j.events ∧ j.widened = false) ∧
      (vlp → room → ¬ (exceeded ∧ permitted) → j.entry.verdict.getLsbD 2 = true ∧ evtNumReplay ∈ j.events ∧ j.replayed = true ∧
        ∀ i, i < 16 → Tbl.get 0 j.entry.hist i = e.lastAmax) ∧
      (¬ exceeded → ¬ vlp → j.entry.verdict = 0 ∧ j.entry.repeats = 0 ∧ j.widened = false ∧ j.replayed = false ∧
        evtNumFlag ∉ j.events ∧ evtNumWiden ∉ j.events ∧ evtNumReplay ∉ j.events)
  )

/-- AGREEMENT_REPEAT and AGREEMENT_COMPARE complete: in GEN and FWD the next sampled product starts again on the idle BWA into the
bank of its number, under a tag with WATCH; a bank whose repeats and whose drain are complete is compared with the drained
results, its statistics enter the activation entry's open window, and the bank is EMPTY. No word holds an error (R127 to R130,
R169). Where the rules leave it open it follows notes/assumptions/27 and 73. -/
def Obligations.AgreementWatch : Prop :=
  ∀ (s : State) (n : Nat), s.isRunning = true → (s.tile n).seqState ≠ .idle →
    let t := s.tile n
    let m := n / 64
    (∀ o, s.tilePhase n = .gen ∨ s.tilePhase n = .fwd → t.nextRepeat = some o → s.eccWords = [] → s.eccUnits = [] →
      let q := bits o.word 0 2
      let tag := s.bwaTagOf m (bits o.word 2 2) true o.srcA o.srcB
      let b := t.bwaBank q
      (bits b.tag 62 2 ≠ 1 ∨ setBits b.tag 62 2 0 = tag) →
      exec (.agreementRepeat n) s = .next (s.setTile n { t.setBwaBank q
        { b with tag := setBits tag 62 2 1, activation := bits o.tag 32 8, always := decide (bits o.tag 58 2 = 2) } with
        bwa := updateFirst (fun x => decide (x = o)) (fun x => { x with started := some (max s.now t.bwaFree) }) t.bwa })) ∧
    (s.tilePhase n ≠ .gen → s.tilePhase n ≠ .fwd → exec (.agreementRepeat n) s = .next s) ∧
    (∀ q, (List.range 4).find? t.comparable = some q → (t.bwaBank q).products ≠ 0 →
      let b := t.bwaBank q
      let u := (s.setTile n (t.setBwaBank q {})).advanceTo (t.bwaDone + 24)
      let pairs := (List.range b.extM).flatMap fun i => (List.range b.extN).map fun j => (Tbl.get 0 b.watch (i * b.extN + j), b.repeatBf16 i j)
      let r := u.errorsOf pairs
      ((r.1.entry m b.activation).isOpen = true → exec (.agreementCompare n) s = .next (r.1.modEntry m b.activation fun e =>
        { e with
          samples := satAdd e.samples b.products, elems := satAdd e.elems r.2.length,
          exceed := satAdd e.exceed (r.2.filter fun x => aboveLimit x (r.1.field (.mtgWatch (r.1.tilePaddock n)) 16 8)).length,
          maxrel := BitVec.ofNat 16 (r.2.foldl (fun a x => max a x.toNat) e.maxrel.toNat) })) ∧
      ((r.1.entry m b.activation).isOpen = false → exec (.agreementCompare n) s = .next r.1))

/-- CTAB, CISS, CDR, CKCLR, CKRD and CLEN complete in phases GEN and FWD (a DRAFT issue in GEN alone) when their checks pass: a
build waits for its time; an issue reads its tables and its operands and takes its place in its bank, or in what follows the
drain of a DRAINING one, with its draw number, one issue more and the extent of its rows; a drain makes its bank DRAINING;
CKCLR empties the list and sets K; CKRD writes the K entries, the kept keys first; CLEN sets its record (R186, R190, R193,
R198 to R200, R203, R228, R272, R275, R286 to R288). Where the rules leave it open it follows notes/assumptions/31 and 33. -/
def Obligations.ChaffInstructions : Prop :=
  let phaseOk (u : State) (n : Nat) : Prop := u.tilePhase n = .gen ∨ u.tilePhase n = .fwd
  let domain (w : BitVec 64) : Nat × Nat := (bits w 13 4, bits w 17 4)
  let target (t : Tile) (w : BitVec 64) : ChaffBank :=
    if bits (t.chaffBank (bits w 0 2)).tag 62 2 = 2 then t.chaffBehind (bits w 0 2) else t.chaffBank (bits w 0 2)
  let setTarget (t : Tile) (w : BitVec 64) (b : ChaffBank) : Tile :=
    if bits (t.chaffBank (bits w 0 2)).tag 62 2 = 2 then t.setChaffBehind (bits w 0 2) b else t.setChaffBank (bits w 0 2) b
  let noTopk (s : State) (n : Nat) (_ : BitVec 64) (unit : Nat) : Prop :=
    (∀ o ∈ (s.tile n).chaff, ¬ (o.kind = .cdr ∧ o.word.getLsbD 2 = true)) ∧ unit = 0
  (Does .ctab 0x50 1 (fun s n w unit => (∀ o ∈ (s.tile n).chaff, o.kind = .ciss → bits o.word 6 2 ≠ bits w 0 2 ∧ bits o.word 8 2 ≠ bits w 0 2) ∧
      unit = 0)
    (fun u n w => phaseOk u n ∧
      if w.getLsbD 4 then
        let m := ((u.tile n).s (fB w)).extractLsb' 0 16
        bfNonFinite m = false ∧ m.getLsbD 15 = false ∧ m ≠ 0
      else u.descFault (n / 64) ((u.tile n).t (fA w)) (dFormat ((u.tile n).t (fA w))) (fun _ => true) false false = none ∧
        dFormat ((u.tile n).t (fA w)) = (if w.getLsbD 3 then 4 else 3) ∧
        lowestFailing (ownStore n) [(dBase ((u.tile n).t (fA w)), 32 * 2 ^ bits w 5 2)] = none)
    fun u n w =>
      let t := u.tile n
      u.setTile n { t with chaff := t.chaff ++ [{ kind := .ctab, pc := t.pc, word := w, a := t.t (fA w), x := ((t.s (fB w)).extractLsb' 0 16).setWidth 32, issued := u.now }] }) ∧
  (Does .ciss 0x51 1 (fun s n _ unit => unit = (s.tile n).chaffFree)
    (fun u n w => phaseOk u n ∧ (w.getLsbD 5 = true → u.tilePhase n = .gen) ∧
      u.cissFault n w ((u.tile n).t (fA w)) ((u.tile n).t (fB w)) = none ∧ (domain w).1 ≠ (domain w).2 ∧
      (bits (target (u.tile n) w).tag 62 2 = 1 → bits (target (u.tile n) w).tag 0 32 < ((u.tile n).s (fC w)).toNat))
    fun u n w =>
      let t := u.tile n
      let a := t.t (fA w)
      let b := t.t (fB w)
      let old := target t w
      let active := decide (bits old.tag 62 2 = 1)
      let log := if active then bits old.tag 54 4 else bits (t.record (bits w 10 3)) 8 4
      let bank := if active then old else u.freshChaffBank n w a b log
      let o : UnitOp := { kind := .ciss, pc := t.pc, word := w, a := a, b := b, x := BitVec.ofNat 32 log, y := BitVec.ofNat 32 old.extG, z := t.s (fC w), tag := old.tag, waits := active, issued := u.now }
      let r := u.issueResult n o
      let scales := (List.range (min (512 / 2 ^ bits w 2 2) (dExt1 b))).map fun g => BitVec.ofNat 32 (leNat (Memory.bytes u.mem (dScale b + 2 * g) 2))
      let values : Tbl (BitVec 32) := Tbl.ofList 0 0 (r.sums.map (BitVec.ofInt 32)) ++ Tbl.ofList 0 512 (r.nans.map fun b => if b then 1 else 0) ++
        Tbl.ofList 0 1024 scales ++ Tbl.ofList 0 1536 [BitVec.ofNat 32 r.terminated, BitVec.ofNat 32 r.clipped]
      u.setTile n { setTarget t w (bank.claim w b (t.s (fC w)) false) with
        chaff := t.chaff ++ [{ o with unreadable := (u.readRanges (chaffRanges w a b)).2, values := values }],
        chaffFree := u.now + max 64 (2 ^ log) }) ∧
  (Does .cdr 0x52 1 (fun s n _ unit => (s.tile n).drainWaits = false ∧ unit = 0)
    (fun u n w => phaseOk u n ∧ u.cdrFault n w ((u.tile n).t (fD w)) = none) fun u n w =>
      let t := u.tile n
      let b := t.chaffBank (bits w 0 2)
      u.setTile n { t.setChaffBank (bits w 0 2) { b with tag := setBits b.tag 62 2 2 } with
        chaff := t.chaff ++ [{ kind := .cdr, pc := t.pc, word := w, d := t.t (fD w), y := t.s (fB w), issued := u.now }] }) ∧
  (Does .ckclr 0x53 1 noTopk (fun u n _ => phaseOk u n) fun u n w => u.setTile n { u.tile n with topk := [], topkK := bits w 0 7 }) ∧
  (Does .ckrd 0x54 1 noTopk (fun u n w => phaseOk u n ∧ ((u.tile n).a (fA w)).toNat % 32 = 0 ∧
      lowestFailing (ownStore n) [(((u.tile n).a (fA w)).toNat, 8 * (u.tile n).topkK)] = none) fun u n w =>
      let t := u.tile n
      let entry (i : Nat) : BitVec 32 × BitVec 16 := t.topk.getD i (0xFFFFFFFF, 0xFF80)
      let v := (unitPieces [((t.a (fA w)).toNat, (List.range t.topkK).flatMap fun i =>
        leBytes 8 ((entry i).1.toNat + (entry i).2.toNat * 2 ^ 32))]).foldl (fun v c => v.writeChunk (u.tilePaddock n) c.1 c.2 false) u
      v.setTile n { v.tile n with listDone := max (v.tile n).listDone (v.now + 2 + (t.topkK + 15) / 16) }) ∧
  (Does .clen 0x55 1 (fun s n w unit => (∀ o ∈ (s.tile n).chaff, o.kind = .ciss → bits o.word 10 3 ≠ bits w 0 3) ∧ unit = 0)
    (fun u n _ => phaseOk u n)
    fun u n w => u.setTile n ((u.tile n).setRecord (bits w 0 3) (((u.tile n).s (fA w)).extractLsb' 0 16 |>.setWidth 32))) ∧
  (∀ q ∈ [(Instr.ckclr, 0x53), (Instr.ckrd, 0x54)], FaultsWith q.1 q.2 noTopk fun u n _ =>
    if u.tilePhase n = .gen ∨ u.tilePhase n = .fwd then none else some (0x03, 0))

/-- TABLE_BUILD_COMPLETE, CHAFF_STREAM_START, CHAFF_ISSUE_COMPLETE and CHAFF_DRAIN_COMPLETE complete: a build ends 12 aclk after
its acceptance with the 256 entries for its range M; an issue whose operands could be read streams from 64 aclk after its
issue, L aclk long, with W = 256 holding up the draws and masks of the Sower, and 8 aclk after its last bit its group sums,
NaN groups and row scales are in the bank; a drain ends ceil(G / 64) + 4 aclk after what it waits for, with the results
written, or merged into the list, and the bank as the issues accepted behind it leave it, EMPTY without one. No word holds an
error (R186, R188, R190, R198 to R200). Where the rules leave it open it follows notes/assumptions/31, 33 and 76. -/
def Obligations.ChaffRuns : Prop :=
  ∀ (s : State) (n : Nat) (env : Env) (o : UnitOp) (rest : List UnitOp), s.isRunning = true → (s.tile n).seqState ≠ .idle →
    let t := s.tile n
    let e := s.takeEnv env
    let waiting (x : UnitOp) : Bool := decide (x.kind = .ciss) && x.started.isNone
    let going (x : UnitOp) : Bool := decide (x.kind = .ciss) && x.started.isSome
    (takeFirst (fun x => decide (x.kind = .ctab)) t.chaff = some (o, rest) → noErrors s env →
      let u := e.advanceTo (o.issued + 12)
      let int8 := o.word.getLsbD 3
      let m := if o.word.getLsbD 4 then o.x.extractLsb' 0 16 else scanRange int8 (Memory.bytes e.mem (dBase o.a) (32 * 2 ^ bits o.word 5 2))
      exec (.tableBuildComplete n env) s = .next (u.setTile n ({ t with chaff := rest }.setTable (bits o.word 0 2)
        { entries := Tbl.ofList 0 0 ((List.range 256).map (tableEntry int8 (o.word.getLsbD 2) (bf m))), range := m, mode := o.word.getLsbD 2,
          int8 := int8, built := true, clips := o.word.getLsbD 4 }))) ∧
    (takeFirst waiting t.chaff = some (o, rest) → noErrors s env → o.unreadable = false →
      let start := max (o.issued + 64) t.chaffStreamEnd
      let len := 2 ^ o.x.toNat
      let u := e.advanceTo start
      let held (x : UnitOp) : UnitOp :=
        let from_ := x.started.getD x.issued
        let time := if x.kind = .sdraw then 13 else 13 + (dExt0 x.a * dExt1 x.a + 63) / 64
        { x with started := some (if from_ + time ≤ start then from_ else if from_ < start then from_ + len else max from_ (start + len)) }
      exec (.chaffStreamStart n env) s = .next (u.setTile n { t with
        chaff := updateFirst waiting (fun x => { x with started := some start }) t.chaff, chaffStreamEnd := start + len,
        sower := if bits o.word 2 2 = 3 then t.sower.map held else t.sower,
        chaffTerminated := (t.chaffTerminated + (Tbl.get 0 o.values 1536).toNat) % (64 * 2 ^ 32),
        chaffClipped := satAdd t.chaffClipped (Tbl.get 0 o.values 1537).toNat })) ∧
    (∀ k, takeFirst going t.chaff = some (o, rest) → o.started = some k → bit (t.record (bits o.word 10 3)) 15 = false →
      (∀ x ∈ t.chaff.takeWhile (fun x => !going x), ¬ (x.kind = .cdr ∧ bits x.word 0 2 = bits o.word 0 2)) →
      let end_ := k + 2 ^ o.x.toNat + 8
      let q := bits o.word 0 2
      exec (.chaffIssueComplete n) s = .next ((s.advanceTo end_).setTile n { t.setChaffBank q ((t.chaffBank q).add o) with
        chaff := rest, chaffDone := max t.chaffDone end_, chaffIssues := t.chaffIssues + 1 })) ∧
    (takeFirst (fun x => decide (x.kind = .cdr)) t.chaff = some (o, rest) →
      (∀ x ∈ t.chaff.takeWhile (fun x => decide (x.kind ≠ .cdr)), ¬ (x.kind = .ciss ∧ bits x.word 0 2 = bits o.word 0 2)) →
      let q := bits o.word 0 2
      let b := t.chaffBank q
      let end_ := max o.issued t.chaffDone + (512 / 2 ^ bits b.tag 58 2 + 63) / 64 + 4
      let u := s.advanceTo end_
      let ys := (List.range b.extG).map b.result
      (o.word.getLsbD 2 = true → exec (.chaffDrainComplete n) s = .next (u.setTile n { (t.setChaffBank q (t.chaffBehind q)).setChaffBehind q {} with
        chaff := rest, chaffDone := end_, topk := mergeTopk t.topkK o.y t.topk b })) ∧
      (o.word.getLsbD 2 = false → s.eccUnits = [] → exec (.chaffDrainComplete n) s = .next
        (((u.setTile n { (t.setChaffBank q (t.chaffBehind q)).setChaffBehind q {} with chaff := rest, chaffDone := end_ }).writePieces (u.tilePaddock n)
          (unitPieces [(dBase o.d, ys.flatMap fun v => leBytes 2 v.toNat)])).nonFiniteAt n o (ys.findIdx? bfNonFinite))))

/-- SDRAW, SDROP and SOWER_OPERATION_COMPLETE complete: the draw or mask waits in the Sower, and starts as it is accepted, or as
the streaming of an issue with W = 256 that is under way then ends; a draw ends 13 aclk after its start with word IMM[1:0] of
the output for STEP, its stream and its position in sD; a mask ends 13 + ceil(j / 64) aclk after its start with every row of
the tensor masked, and the non-finite flag takes its first non-finite position. A class other than the instruction's own
faults with SWR_CLASS before the stream is looked at, a stream from 0x8000_0000 on with SWR_STREAM; no word holds an error
(R88, R188, R211, R213, R214, R217, R289). Where the rules leave it open it follows notes/assumptions/34. -/
def Obligations.SowerInstructions : Prop :=
  let begins (t : Tile) (k : Nat) : Nat :=
    if t.chaff.any fun o => decide (o.kind = .ciss) && decide (bits o.word 2 2 = 3) &&
        o.started.any (fun j => decide (j ≤ k) && decide (k < j + 2 ^ o.x.toNat)) then
      t.chaffStreamEnd else k
  let draw (u : State) (n : Nat) (w : BitVec 64) : UnitOp := { kind := .sdraw, pc := (u.tile n).pc, word := w, x := (u.tile n).s (fA w), y := (u.tile n).s (fB w), z := (u.tile n).s (fC w), issued := u.now, started := some (begins (u.tile n) u.now) }
  let drop (u : State) (n : Nat) (w : BitVec 64) : UnitOp := { kind := .sdrop, pc := (u.tile n).pc, word := w, a := (u.tile n).t (fA w), y := (u.tile n).s (fB w), z := (u.tile n).s (fC w), issued := u.now, started := some (begins (u.tile n) u.now) }
  (Does .sdraw 0x58 1 anyTime (fun u n w => bits w 4 4 = 3 ∧ ((u.tile n).s (fA w)).getLsbD 31 = false)
    fun u n w => u.setTile n { u.tile n with sower := (u.tile n).sower ++ [draw u n w] }) ∧
  (FaultsWith .sdraw 0x58 anyTime fun u n w =>
    if bits w 4 4 ≠ 3 then some (0x0C, 0) else if ((u.tile n).s (fA w)).getLsbD 31 then some (0x0B, 0) else none) ∧
  (Does .sdrop 0x59 1 (fun s n _ unit => (∀ o ∈ (s.tile n).sower, o.kind ≠ .sdrop) ∧ unit = 0)
    (fun u n w => u.sdropFault n w ((u.tile n).t (fA w)) ((u.tile n).s (fB w)) = none)
    fun u n w => u.setTile n { u.tile n with sower := (u.tile n).sower ++ [drop u n w] }) ∧
  (∀ (s : State) (n : Nat) (env : Env) (o : UnitOp) (rest : List UnitOp), s.isRunning = true → (s.tile n).seqState ≠ .idle →
    (s.tile n).sower = o :: rest →
    let t := s.tile n
    let e := s.takeEnv env
    let p := s.tilePaddock n
    let key := (s.pdk p).sowerKey
    let step : BitVec 28 := BitVec.ofNat 28 (s.field (.sowerStep p) 0 28)
    (o.kind = .sdraw →
      exec (.sowerOperationComplete n env) s = .next ((e.advanceTo (o.started.getD o.issued + 13)).setTile n ({ t with sower := rest }.setS (fD o.word)
        (word32 (sower key (sowerIndexed 3 step o.x (o.z ++ o.y))) (bits o.word 0 2))))) ∧
    (o.kind = .sdrop → noErrors s env →
      let u := (e.advanceTo (o.started.getD o.issued + (13 + (dExt0 o.a * dExt1 o.a + 63) / 64))).setTile n { t with sower := rest }
      exec (.sowerOperationComplete n env) s =
        .next ((u.writePieces p (unitPieces (u.dropParts p o))).nonFiniteAt n o ((u.dropRows p o).flatten.findIdx? bfNonFinite))))

/-- Under one key, distinct counters give distinct Sower outputs (R215, R216). -/
def Obligations.SowerNeverRepeats : Prop :=
  ∀ (key c d : BitVec 128), sower key c = sower key d → c = d

/-- STRIDE_SYNC_EDGE, HOLDOVER, GTC_CORRECTION, REACQUIRE and REFCLK_LOSS complete. With SRC = SYNC an edge within the limits is
usable up to 100 ns in LOCKED and up to 1,000 ns in HOLDOVER, which it ends; a larger one in LOCKED is counted and raises
EVT_SYNC_JUMP; in ACQUIRE it loads STR_GTC_LOAD, or the last time mark rounded down plus 100,000, and the state is LOCKED.
After 16 strides without a usable edge HOLDOVER is entered with EVT_SYNC_LOST. A correction takes at most 4 counts of what
remains (with SRC = FREE nothing is corrected). REACQUIRE is refused while a phase is not IDLE. The loss of REFCLK holds the
part with RAIL (R34, R37, R39, R41, R42, R497; an edge outside the limits changes nothing, and REACQUIRE with SRC = FREE
leaves LOCKED, by choice of the model, notes/assumptions/12). Where the rules leave it open it follows notes/assumptions/11,
13 and 87. -/
def Obligations.TimeAlignment : Prop :=
  ∀ (s : State) (d : Int), s.isRunning = true →
    let src := s.field .timeCtl 0 2
    let edge := exec (.strideSyncEdge d true) s
    let offset : BitVec 16 := satInt 16 d
    (exec (.strideSyncEdge d false) s = .next s ∧ (src ≠ 1 → edge = .next s)) ∧
    (src = 1 → s.time.state = .locked →
      (d.natAbs ≤ 100 → edge = .next { s with time := { s.time with offset := offset, residual := d, edgeUsed := true } }) ∧
      (100 < d.natAbs → edge = .next ({ s with time := { s.time with offset := offset, ignored := satAdd s.time.ignored 1 } }.raise
        srcFarrier (1, 1) (offset.setWidth 128)))) ∧
    (src = 1 → s.time.state = .holdover →
      edge = .next { s with time := (if d.natAbs ≤ 1000 then { s.time with offset := offset, state := .locked, residual := d, edgeUsed := true }
        else { s.time with offset := offset }) }) ∧
    (src = 1 → s.time.state = .acquire →
      let v := (s.reg .gtcLoad).toNat
      let armed := decide (s.field .timeCtl 16 1 = 1) && decide (v % 100000 = 0)
      (armed = true → ∃ t, edge = .next t ∧ t.now = v ∧ t.time.state = .locked ∧ t.time.loads = s.time.loads + 1 ∧ t.field .timeCtl 0 2 = 1 ∧
        (s.hostBits .timeCtl &&& maskOf 16 1 = 0 → Tbl.sorted s.regs = true → t.field .timeCtl 16 1 = 0)) ∧
      (∀ m, armed = false → s.time.mark = some m → ∃ t, edge = .next t ∧ t.now = (m.toNat / 100000 + 1) * 100000 % 2 ^ 64 ∧
        t.time.state = .locked ∧ t.time.loads = s.time.loads + 1) ∧
      (armed = false → s.time.mark = none → edge = .next s)) ∧
    (exec .holdover s = .next (if src ≠ 0 ∧ s.time.state = .locked ∧ 16 ≤ s.time.missed then
      { s with time := { s.time with state := .holdover } }.raise srcFarrier (1, 2) 0 else s)) ∧
    (exec .gtcCorrection s = .next (if 1999 ≤ s.position then s else
      let u := s.advancePos 1999
      let r := s.time.residual
      if src = 0 then u else { u with time := { u.time with residual := if r.natAbs ≤ 4 then 0 else if r < 0 then r + 4 else r - 4 } })) ∧
    (exec .reacquire s = .next (if (List.range 16).all (fun p => decide (s.phase p = .idle)) = true then
      (if src = 0 then s else { s with time := { s.time with state := .acquire } }) else s.raise srcFarrier (1, 4) 0)) ∧
    (exec .refclkLoss s = .next { s with boot := { s.boot with power := .held, failCode := 0x04 } })

/-- UNITS_ACT and STRIDE_TICK complete. UNITS_ACT acts once a stride, at position 200 or, when that has passed, at once, and
leaves nothing of a commit staged (R45, R52). A tick ends the stride in the aclk in which the GTC reaches the next multiple of
100,000, or, when a load of the GTC has put it there, in the aclk of the load; if the part still runs then, STRIDE_MARK rises
and what comes once a stride may come again: the acting of the units, the Manger fetch, the program window, the spans and 4
attestations (R35, R36, R41, R45, R430, R500). With no command waiting, one aclk passes: the GTC advances by one and nothing
else changes, except that the step to the next tick is left to STRIDE_TICK (R34, R35; the model's choice,
notes/assumptions/3). Where the rules leave it open it follows notes/assumptions/14, 38 and 86. -/
def Obligations.StrideTick : Prop :=
  (
    ∀ (s : State), s.isRunning = true →
      (s.time.actDue = false → exec .unitsAct s = .next s) ∧
      (s.time.actDue = true → ∃ t, exec .unitsAct s = .next t ∧ t.time.actDue = false ∧ t.staged = none ∧
        t.now = max s.now (s.stride * 100000 + 200)) ∧
      (∀ (x : Sensors) (env : Env), (s.stride + 1) * 100000 < 2 ^ 64 →
        ∃ t, exec (.strideTick x env) s = .next t ∧ t.now = (if s.time.tickDue then s.now else (s.stride + 1) * 100000) ∧
          (s.time.tickDue = false → t.position = 0) ∧
          (t.isRunning = true → t.strideMark = t.now ∧ t.time.tickDue = false ∧ t.time.actDue = true ∧ t.time.fetchDue = true ∧
            t.time.windowDue = true ∧ t.time.readDue = true ∧ t.time.nextSpan = 0 ∧ t.sec.attThisTick = 0))
  ) ∧
  (
    ∀ (s : State), s.pending = [] → step s = .next (if (s.now + 1) % 100000 = 0 then s else { s with time := { s.time with gtc := s.time.gtc + 1 } })
  )

/-- MANGER_READ and MANGER_FETCH complete. Once a stride, at position 96,000, QUOTA slots from HEAD of every enabled queue are
read; after position 200 of the next stride the queues take, in ascending order and ring order, the slots up to the first
whose PHASE differs from the one expected, and HEAD moves past them. A late queue counts and raises EVT_MNG_READ_LATE (R384,
R385). REPLY_WRITE and REPLY_BOUND_EXPIRY complete: from position 1,200 on the replies to the commands fetched at an earlier
tick whose outcome is known are written in fetch order, each of 64 bytes in the layout of R393 with the counts left out for a
tenant, and leave the list; a reply not written by the tick of stride k + 2 raises EVT_REPLY_LATE once (R56, R58, R393, R395).
Where the rules leave it open it follows notes/assumptions/35. -/
def Obligations.MangerRings : Prop :=
  (
    (∀ (s : State) (env : Env), s.isRunning = true → s.time.readDue = true → s.host.up = true →
      let e := s.takeEnv env
      let u := { e with time := { e.time with readDue := false } }.advancePos 96000
      exec (.mangerRead env) s = .next { u with host := { u.host with
        slotsRead := ((List.range 16).filter fun q => decide (u.field (.qCtl q) 0 1 = 1)).map fun q => (q, u.readSlots q) } }) ∧
    (∀ (s : State) (late : List Nat), s.isRunning = true → s.time.fetchDue = true → s.host.up = true →
      let u := { s.unitsAct with time := { s.unitsAct.time with fetchDue := false } }
      u.host.up = true →
      exec (.mangerFetch late) s = .next (let v := (List.range 16).foldl (fun v q => v.fetchQueue late q) u
        { v with host := { v.host with slotsRead := [] } })) ∧
    (∀ (s : State) (late : List Nat) (q : Nat) (cs : List CmdRec), s.field (.qCtl q) 0 1 = 1 →
      s.host.slotsRead.find? (fun x => decide (x.1 = q)) = some (q, cs) →
      (q ∈ late → s.fetchQueue late q = (s.modQueue q fun x => { x with lateReads := satAdd x.lateReads 1 }).raise srcHost (7, 4)
        (pack 128 [(0, 4, q), (4, 16, (s.queue q).head.toNat), (32, 32, 0)])) ∧
      (q ∉ late → Tbl.sorted s.host.heads = true → ∀ k, let n := s.queueSize q
        let h := (s.queue q).head.toNat
        let x := cs.take (s.field (.qCtl q) 32 9)
        let expected (j : Nat) : Bool := if h + j < n then (s.queue q).phase else !(s.queue q).phase
        h < n → x.length ≤ n → k ≤ x.length → (∀ j < k, bit ((x.getD j {}).w0) 8 = expected j) →
        (k < x.length → bit ((x.getD k {}).w0) 8 ≠ expected k) →
        (s.fetchQueue late q).host.fetched = s.host.fetched ++ (List.range k).map (fun j =>
          { queue := q, slot := (h + j) % n, rbase := BitVec.ofNat 48 (s.field (.qRbase q) 0 48), paddock := s.field (.qCtl q) 16 4,
            stride := s.stride, cmd := x.getD j {} }) ∧
        ((s.fetchQueue late q).queue q).head.toNat = (h + k) % n ∧
        ((s.fetchQueue late q).queue q).phase = expected k))
  ) ∧
  (
    (∀ (s : State), s.isRunning = true → s.host.up = true →
      let due (v : State) (r : Reply) : Bool := r.settled && !r.dropped && decide (r.stride < v.stride)
      let u := s.advancePos 1200
      (∃ r ∈ s.host.replies, due s r = true) →
      exec (.replyWrite true) s = .next ((u.host.replies.filter (due u)).foldl
        (fun v r => v.masterWrite srcHost r.paddock (r.rbase.toNat + 64 * r.slot) (v.replyBytes r))
        { u with host := { u.host with replies := u.host.replies.filter fun r => !due u r } })) ∧
    (∀ (s : State) (r : Reply), s.isRunning = true →
      exec (.replyWrite false) s = .next s ∧
      recordWord (s.replyBytes r) 0 = pack 64 [(32, 32, bits r.w0 32 32), (24, 8, r.note.toNat), (16, 8, r.result.toNat), (8, 1, bits r.w0 8 1),
        (0, 8, bits r.w0 0 8)] ∧
      recordWord (s.replyBytes r) 3 = r.detail ∧ recordWord (s.replyBytes r) 5 = s.time.gtc ∧ (s.replyBytes r).length = 64 ∧
      (r.paddock ≠ 0 → recordWord (s.replyBytes r) 4 = 0)) ∧
    (∀ (s : State), s.isRunning = true →
      let late (r : Reply) : Bool := !r.late && decide (r.stride + 2 ≤ s.stride)
      let u := (s.host.replies.filter late).foldl (fun v r => v.raise srcHost (7, 5)
        (pack 128 [(0, 4, r.queue), (4, 16, r.slot), (32, 32, bits r.w0 32 32)])) s
      exec .replyBoundExpiry s = .next { u with host := { u.host with
        replies := (u.host.replies.map fun r => { r with late := r.late || late r }).filter fun r => !(r.dropped && r.late) } })
  )

/-- What every Manger command meets before its own checks: from a RELEASING paddock, and an operator's command from another
paddock than 0, it is refused with ADM_OWNER and changes nothing else; a COUNT of zero that has a meaning is answered OK with
ZERO_LENGTH, and a COUNT other than its only value ILLEGAL. Where another opcode is in front, the row changes nothing (R389,
R390, R403, R417; R424, R470). NOP and a reserved opcode complete: NOP is answered OK and a reserved opcode ILLEGAL, and
nothing else happens (R7, R388). Where the rules leave it open it follows notes/assumptions/6. -/
def Obligations.CommandAdmission : Prop :=
  (
    ∀ (s : State) (env : Env) (c : Fetched) (rest : List Fetched), s.isRunning = true → s.host.fetched = c :: rest →
      ∀ q ∈ mangerTable env,
      let u := acting (q.2.1 s)
      let answered (result note : Nat) : Prop :=
        exec q.1 s = .next (u.answer c s.host.nextReply { result := result, note := note, detail := 0, settled := true })
      (c.cmd.opcode = q.2.2.1 →
        ((u.composed.pdk c.paddock).state = .releasing → answered 1 0x14) ∧
        (q.2.2.2.1 = true → c.paddock ≠ 0 → answered 1 0x14) ∧
        ((u.composed.pdk c.paddock).state ≠ .releasing → (q.2.2.2.1 = true → c.paddock = 0) → ∀ want, q.2.2.2.2 = some want →
          (c.cmd.count = 0 → answered 0 0x01) ∧
          (∀ k, want = some k → c.cmd.count ≠ 0 → c.cmd.count ≠ k → answered 3 0x20))) ∧
      (c.cmd.opcode ≠ q.2.2.1 → exec q.1 s = .next (q.2.1 s))
  ) ∧
  (
    (Answers .mangerNop id 0x01 (fun _ _ => True) fun u _ _ => (u, {})) ∧
    (∀ (s : State) (c : Fetched) (rest : List Fetched), s.isRunning = true → s.host.fetched = c :: rest →
      c.cmd.opcode ∉ [0x01, 0x02, 0x03, 0x04, 0x05, 0x10, 0x11, 0x20, 0x21, 0x30, 0x31, 0x32, 0x40, 0x41, 0x42, 0x43, 0x44, 0x50] →
      exec .reservedCommand s = .next ((acting s).answer c s.host.nextReply { result := 3, note := 0x20 }))
  )

/-- CONFIG completes: with its pair list readable, its pairs are performed in list order as 64-bit writes of the registers they
name, what a BAR0 write of the same aclk has brought staying, and then its arm mask joins STR_COMMIT.ARM. A pair that names no
register its queue may write refuses the whole command with ADM_OWNER and the index of that pair, and an arm bit of a group
that the queue may not write refuses it with ADM_OWNER; a list that cannot be read fails with OPERAND, and more than 256 pairs
are ILLEGAL (R319, R388, R389, R391). Where the rules leave it open it follows notes/assumptions/6, 40 and 63. -/
def Obligations.ConfigWrites : Prop :=
  ∀ env : Env,
  let before (s : State) : State := s.takeEnv env
  let arm (c : Fetched) : BitVec 64 := c.cmd.w5 &&& maskOf 0 17
  let may (c : Fetched) : Prop := ∀ g, bit (arm c) g = true → g = c.paddock ∨ (c.paddock = 0 ∧ g = 16)
  let named (v : State) (c : Fetched) (bs : List Byte) : List (Option Reg) := (pairsOf bs c.cmd.count).map fun x => v.configTarget c.paddock x.1
  (∀ bs, Answers (.config env) before 0x02
    (fun u c => c.cmd.count ≠ 0 ∧ c.cmd.count ≤ 256 ∧ (u.readOperand c.paddock c.cmd.arg (16 * c.cmd.count)).2 = some bs ∧
      (∀ x ∈ named (u.readOperand c.paddock c.cmd.arg (16 * c.cmd.count)).1 c bs, x ≠ none) ∧ may c ∧ c.paddock < 16)
    fun u c _ =>
      let v := (u.readOperand c.paddock c.cmd.arg (16 * c.cmd.count)).1
      let w := ((named v c bs).zip ((pairsOf bs c.cmd.count).map Prod.snd)).foldl
        (fun w x => match x.1 with | some r => w.writeReg r (~~~w.barBits r) x.2 | none => w) v
      ((w.setReg .commit (w.reg .commit ||| arm c)).noteDevice .commit (arm c), {})) ∧
  (∀ bs k, Answers (.config env) before 0x02
    (fun u c => c.cmd.count ≠ 0 ∧ c.cmd.count ≤ 256 ∧ (u.readOperand c.paddock c.cmd.arg (16 * c.cmd.count)).2 = some bs ∧
      let xs := named (u.readOperand c.paddock c.cmd.arg (16 * c.cmd.count)).1 c bs
      xs[k]? = some none ∧ ∀ j < k, xs[j]? ≠ some none)
    fun u c _ => ((u.readOperand c.paddock c.cmd.arg (16 * c.cmd.count)).1, { result := 1, note := 0x14, detail := k })) ∧
  (∀ bs, Answers (.config env) before 0x02
    (fun u c => c.cmd.count ≠ 0 ∧ c.cmd.count ≤ 256 ∧ (u.readOperand c.paddock c.cmd.arg (16 * c.cmd.count)).2 = some bs ∧
      (∀ x ∈ named (u.readOperand c.paddock c.cmd.arg (16 * c.cmd.count)).1 c bs, x ≠ none) ∧ ¬ may c ∧ c.paddock < 16)
    fun u c _ => ((u.readOperand c.paddock c.cmd.arg (16 * c.cmd.count)).1, { result := 1, note := 0x14 })) ∧
  (Answers (.config env) before 0x02
    (fun u c => c.cmd.count ≠ 0 ∧ c.cmd.count ≤ 256 ∧ (u.readOperand c.paddock c.cmd.arg (16 * c.cmd.count)).2 = none)
    fun u c _ => ((u.readOperand c.paddock c.cmd.arg (16 * c.cmd.count)).1, { result := 2, note := 0x21 })) ∧
  (Answers (.config env) before 0x02 (fun _ c => 256 < c.cmd.count) fun u _ _ => (u, { result := 3, note := 0x20 }))

/-- COPY, SEAL_IN and SEAL_OUT are admitted: each joins the engine's queue with its bound, the stride of the tick k + 2 + ceil((B
+ N) / rate), and a seal with the key in force. A wrong alignment or two ends on one side are ILLEGAL, a device end in a
region or sheaf of another paddock is refused with ADM_OWNER, and a seal without a key fails with SEAL_KEY (R392, R399, R400,
R425; the rate is that of the trained link, notes/assumptions/53). -/
def Obligations.CopiesAdmitted : Prop :=
  let aligned (c : Fetched) : Prop := c.cmd.arg % 64 = 0 ∧ c.cmd.arg2 % 64 = 0 ∧ c.cmd.done % 16 = 0
  let host (a : Nat) : Prop := 0x800000000000 ≤ a
  let device (c : Fetched) : Nat := if 0x800000000000 ≤ c.cmd.arg then c.cmd.arg2 else c.cmd.arg
  let take (u : State) (c : Fetched) (kind : CopyKind) (n : Nat) (key : BitVec 256) : State :=
    let bound := u.stride + 2 + ceilDiv (u.host.copies.foldl (fun b j => b + j.bytes) 0 + n) (max 1 u.copyRate)
    let job : CopyJob := { kind := kind, queue := c.queue, slot := c.slot, paddock := c.paddock, cmd := c.cmd, bytes := n, bound := bound, key := key }
    { u with host := { u.host with copies := u.host.copies ++ [job] } }
  let sealed (c : Fetched) : Prop := aligned c ∧ c.cmd.arg3 % 64 = 0 ∧ ¬ host c.cmd.arg ∧ host c.cmd.arg2 ∧ host c.cmd.arg3
  (Answers .copy id 0x03 (fun u c => c.cmd.count ≠ 0 ∧ c.cmd.count % 64 = 0 ∧ aligned c ∧ ¬ (host c.cmd.arg ↔ host c.cmd.arg2) ∧
      u.foreignSpan c.paddock (device c) c.cmd.count = false)
    fun u c _ => (take u c .copy c.cmd.count 0, {})) ∧
  (Answers .copy id 0x03 (fun _ c => c.cmd.count ≠ 0 ∧ (c.cmd.count % 64 ≠ 0 ∨ ¬ aligned c ∨ (host c.cmd.arg ↔ host c.cmd.arg2)))
    fun u _ _ => (u, { result := 3, note := 0x20 })) ∧
  (Answers .copy id 0x03 (fun u c => c.cmd.count ≠ 0 ∧ c.cmd.count % 64 = 0 ∧ aligned c ∧ ¬ (host c.cmd.arg ↔ host c.cmd.arg2) ∧
      u.foreignSpan c.paddock (device c) c.cmd.count = true)
    fun u _ _ => (u, { result := 1, note := 0x14 })) ∧
  (∀ q ∈ [(Instr.sealIn, 0x04, CopyKind.sealIn), (Instr.sealOut, 0x05, CopyKind.sealOut)],
    (∀ key, Answers q.1 id q.2.1 (fun u c => c.cmd.count ≠ 0 ∧ sealed c ∧ u.foreignSpan c.paddock c.cmd.arg (4096 * c.cmd.count) = false ∧
        (u.pdk c.paddock).sealingKey = some key)
      fun u c _ => (take u c q.2.2 (4128 * c.cmd.count) key, {})) ∧
    (Answers q.1 id q.2.1 (fun u c => c.cmd.count ≠ 0 ∧ sealed c ∧ u.foreignSpan c.paddock c.cmd.arg (4096 * c.cmd.count) = false ∧
        (u.pdk c.paddock).sealingKey = none)
      fun u _ _ => (u, { result := 2, note := 0x29 })))

/-- COPY_ENGINE_TRANSFER and COPY_BOUND_EXPIRY complete. The oldest copy is performed and leaves the queue: a COPY moves its
64-byte units in ascending order and stops before the first that is not reached or readable, then its completion record is
written with DONE and LATE, RESULT and NOTE; while the link is down it ends with nothing written. A copy past its bound raises
EVT_COPY_LATE once and is marked LATE (R392, R473). SEAL_IN and SEAL_OUT, unit by unit: what is sealed opens again to the same
bytes, and a unit whose tag does not verify ends the seal with SEAL_TAG and the unit's index, nothing of it being written
(R400 to R402). Where the rules leave it open it follows notes/assumptions/10, 45 and 53. -/
def Obligations.CopyEngine : Prop :=
  (
    (∀ (s : State) (env : Env) (job : CopyJob) (rest : List CopyJob), s.isRunning = true → s.host.copies = job :: rest →
      let e := s.takeEnv env
      let u := { e with host := { e.host with copies := rest } }
      (s.host.up = false → exec (.copyEngineTransfer env) s = .next u) ∧
      (s.host.up = true → ∀ v x, u.performCopy job = (v, x) → x.note ≠ 0x28 →
        exec (.copyEngineTransfer env) s = .next (v.masterWrite srcHost job.paddock job.cmd.done
          (leBytes 8 (pack 64 [(32, 32, bits job.cmd.w0 32 32), (24, 8, x.note), (16, 8, x.result), (1, 1, b2n job.late), (0, 1, 1)]).toNat ++
            leBytes 8 x.detail)))) ∧
    (∀ (s : State) (p src dst k off : Nat), s.copyUnits p src dst 0 off = (s, {}) ∧
      (∀ v, s.copyRead p (src + off) = (v, none) → s.copyUnits p src dst (k + 1) off = (v, { result := 2, note := 0x22, detail := off })) ∧
      (∀ v bs w, s.copyRead p (src + off) = (v, some bs) → v.copyWrite p (dst + off) bs = (w, true) →
        s.copyUnits p src dst (k + 1) off = w.copyUnits p src dst k (off + 64))) ∧
    (∀ (s : State), s.isRunning = true →
      let late (j : CopyJob) : Bool := !j.late && decide (j.bound ≤ s.stride)
      let u := (s.host.copies.filter late).foldl (fun v j => v.raise srcHost (7, 6)
        (pack 128 [(0, 4, j.queue), (4, 16, j.slot), (32, 32, bits j.cmd.w0 32 32)])) s
      exec .copyBoundExpiry s = .next { u with host := { u.host with copies := u.host.copies.map fun j => { j with late := j.late || late j } } })
  ) ∧
  (
    (∀ (key : BitVec 256) (nonce : BitVec 96) (bs : List Byte), sealCrypt key nonce (sealCrypt key nonce bs) = bs) ∧
    (∀ (s : State) (p u k : Nat) (key : BitVec 256) (c : CmdRec),
      let cipher := s.readBytes p (c.arg2 + 4096 * u) 4096
      let trailer := s.readBytes p (c.arg3 + 32 * u) 32
      let nonce := BitVec.ofNat 96 (leNat (trailer.take 12))
      sealTag key nonce (sealData c.w5 u c.count) cipher ≠ trailer.drop 16 →
      s.sealInUnits p key c (k + 1) u = (s, { result := 2, note := 0x28, detail := u })) ∧
    (∀ (ctr ctr' : BitVec 64), sealNonce ctr = sealNonce ctr' → ctr = ctr')
  )

/-- PROGRAM_SET and RESTART complete: with the table readable and every check of R55 passed, the command waits for its stops and
starts, its tiles' gated sheaves queue for release, and a load's answer is left open until its images are read. The first
failing check answers: a BUDGET above 98,000 with ADM_BUDGET, BASE plus 1.0 W for each sheaf then active above CAP_W with
ADM_POWER, a range or contents that do not suit the sheaf with ADM_SWITCH, a tile that is not the paddock's with ADM_OWNER,
each but ADM_POWER with the index of its entry (R54, R55, R241, R242, R444, R445). Where the rules leave it open it follows
notes/assumptions/6 and 36. -/
def Obligations.ProgramsAdmitted : Prop :=
  ∀ env : Env,
  let before (s : State) : State := s.takeEnv env
  let table (u : State) (c : Fetched) : State × Option (List Byte) := u.readOperand c.paddock c.cmd.arg (16 * c.cmd.count)
  let held (v : State) (c : Fetched) (is : List ProgImage) : BitVec 400 := sheafSet ((is.filter fun i => v.holdsTile c.paddock i.tile).map ProgImage.tile)
  let fits (v : State) (c : Fetched) (is : List ProgImage) : Prop := 8000 + 10 * v.wouldBeActive (held v c is) ≤ 10 * v.field .pwrCap 0 12
  let lawful (i : ProgImage) : Prop := i.range.budget.toNat ≤ 98000
  let admitted (v : State) (c : Fetched) (id : Nat) (kind : ProgKind) (is : List ProgImage) : State :=
    let x : ProgCmd := { kind := kind, paddock := c.paddock, queue := c.queue, stride := v.stride, images := is, reply := id }
    { v with progs := v.progs ++ [x] }.queueReleases is
  let first (is : List ProgImage) (k : Nat) (bad : ProgImage → Prop) : Prop := ∃ i, is[k]? = some i ∧ bad i ∧ ∀ j < k, ∀ y, is[j]? = some y → ¬ bad y
  (∀ q ∈ [(Instr.programSet env, 0x10, true), (Instr.restart env, 0x11, false)],
    let kind : ProgKind := if q.2.2 then .load else .restart
    let images (u : State) (c : Fetched) (bs : List Byte) : State × (Answer ⊕ List ProgImage) :=
      if q.2.2 then (table u c).1.readImages c.paddock c.queue 0 (tableOf bs c.cmd.count)
      else ((table u c).1, (table u c).1.findPrograms c.paddock 0 (tableOf bs c.cmd.count))
    ∀ (bs : List Byte) (is : List ProgImage) (k : Nat),
    let read (u : State) (c : Fetched) : Prop := c.cmd.count ≠ 0 ∧ (table u c).2 = some bs ∧ (images u c bs).2 = .inr is
    (Answers q.1 before q.2.1 (fun u c => read u c ∧
        let v := (images u c bs).1
        (∀ i ∈ is, lawful i) ∧ fits v c is ∧ (∀ i ∈ is, v.notSwitchable c.paddock q.2.2 i = false) ∧ ∀ i ∈ is, v.holdsTile c.paddock i.tile = true)
      fun u c id => (admitted (images u c bs).1 c id kind is, { settled := !q.2.2, later := true })) ∧
    (Answers q.1 before q.2.1 (fun u c => read u c ∧ first is k (fun i => ¬ lawful i))
      fun u c _ => ((images u c bs).1, { result := 1, note := 0x10, detail := k })) ∧
    (Answers q.1 before q.2.1 (fun u c => read u c ∧ (∀ i ∈ is, lawful i) ∧ ¬ fits (images u c bs).1 c is)
      fun u c _ => ((images u c bs).1, { result := 1, note := 0x11 })) ∧
    (Answers q.1 before q.2.1 (fun u c => read u c ∧ (∀ i ∈ is, lawful i) ∧ fits (images u c bs).1 c is ∧
        first is k (fun i => (images u c bs).1.notSwitchable c.paddock q.2.2 i = true))
      fun u c _ => ((images u c bs).1, { result := 1, note := 0x13, detail := k })) ∧
    (Answers q.1 before q.2.1 (fun u c => read u c ∧
        let v := (images u c bs).1
        (∀ i ∈ is, lawful i) ∧ fits v c is ∧ (∀ i ∈ is, v.notSwitchable c.paddock q.2.2 i = false) ∧
        first is k (fun i => v.holdsTile c.paddock i.tile = false))
      fun u c _ => ((images u c bs).1, { result := 1, note := 0x14, detail := k }))) ∧
  (∀ (s : State) (is : List ProgImage) (m : Nat), m < 400 → (∀ i ∈ is, i.tile < 25600) →
    let named := ∃ i ∈ is, i.tile / 64 = m
    (bit (s.queueReleases is).power.releaseQ m = true ↔ bit s.power.releaseQ m = true ∨ (named ∧ (s.sheaf m).active = false)) ∧
    (bit (s.queueReleases is).power.returnQ m = true ↔ bit s.power.returnQ m = true ∧ ¬ named))

/-- PROGRAM_WINDOW_OPEN and PROGRAM_IMAGE_LOAD complete. At position 2,000 of a stride, once, every tile whose sheaf is active and
runs a paddock that is not held starts or returns from its stride wait: a start that is due runs from ENTRY with all registers
zero, and a WAITING tile resumes with s16 to s31, a8 to a15, t0 to t15 and GTC_HI zero, at its PC or, where its stride wait
ended the body of a loop with rounds left, at the body's start. In the window of stride k + 1 the images of a load are written
into the stores and its reply is settled OK; with a body that cannot be read no tile of it holds a program and the reply is
FAILED with OPERAND and the entry's index (R223, R225, R242, R253, R257). Where the rules leave it open it follows
notes/assumptions/36. -/
def Obligations.ProgramWindow : Prop :=
  (∀ (s : State), s.isRunning = true →
    (s.time.windowDue = false → exec .programWindowOpen s = .next s) ∧
    (s.time.windowDue = true → s.time.actDue = false →
      let u := { s with time := { s.time with windowDue := false } }.advancePos 2000
      exec .programWindowOpen s = .next ((u.tiles.map Prod.fst).foldl State.openTile u).queueReturns)) ∧
  (∀ (s : State) (n p : Nat), s.openFor (n / 64) = some p → (s.tile n).seqState = .waiting ∨ (s.tile n).seqState = .halted →
    let t := s.tile n
    let u := s.openTile n
    (∀ pc loops, (∀ f ∈ t.fresh, f.1 ≠ p) → t.seqState = .waiting → Tbl.sorted t.sregs = true → Tbl.sorted t.aregs = true →
      t.afterResume = some (pc, loops) →
      (u.tile n).seqState = .running ∧ (u.tile n).pc = pc ∧ (u.tile n).preds = t.preds ∧ (u.tile n).loops = loops ∧
      ((∀ l, t.loops.getLast? = some l → l.stop ≠ t.pc - 1) → pc = t.pc ∧ loops = t.loops) ∧
      (∀ l, t.loops.getLast? = some l → l.stop = t.pc - 1 → l.remaining ≠ 0 →
        pc = l.start ∧ loops = t.loops.dropLast ++ [{ l with remaining := l.remaining - 1 }]) ∧
      (u.tile n).gtcHi = 0 ∧ (u.tile n).lengths = t.lengths ∧ (u.tile n).nextIssue = s.now ∧ (∀ i, (u.tile n).t i = 0) ∧
      (∀ i, (u.tile n).s i = if i < 16 then t.s i else 0) ∧ (∀ i, (u.tile n).a i = if i < 8 then t.a i else 0)) ∧
    (∀ k r, (p, some k) ∈ t.fresh → k ≤ s.stride → s.loadPending p n = false → s.programOf p n = some r →
      (u.tile n).seqState = .running ∧ (u.tile n).pc = r.origin + r.entry ∧ (u.tile n).program = some r ∧ (u.tile n).nextIssue = s.now ∧
      (u.tile n).preds = 0 ∧ (u.tile n).loops = [] ∧ (u.tile n).gtcHi = 0 ∧ ∀ i, (u.tile n).s i = 0 ∧ (u.tile n).a i = 0 ∧ (u.tile n).t i = 0 ∧ (u.tile n).record i = 0)) ∧
  (∀ (s : State) (m p : Nat), s.openFor m = some p ↔ s.runs m = some p ∧ (s.sheaf m).active = true ∧ s.isolated m = false ∧
    s.sheafFailed m = false ∧ (s.sheaf m).ran = some p ∧ bit s.power.held p = false) ∧
  (∀ (s : State) (env : Env) (c : ProgCmd), s.isRunning = true → s.time.windowDue = false →
    let e := s.takeEnv env
    s.progs.find? (fun c => decide (c.kind = .load) && decide (c.stride < s.stride)) = some c →
    let u := { e with progs := e.progs.filter fun (x : ProgCmd) => decide (x.reply ≠ c.reply) || decide (x.kind ≠ ProgKind.load) }
    (∀ v, u.unreadableBody c.paddock 0 c.images = (v, none) →
      exec (.programImageLoad env) s = .next ((c.images.foldl (fun (v : State) i => v.loadImage c.paddock i) v).settleReply c.reply 0 0 0)) ∧
    (∀ v k, u.unreadableBody c.paddock 0 c.images = (v, some k) →
      exec (.programImageLoad env) s = .next ((c.images.foldl (fun (v : State) i =>
        v.modTile i.tile fun t => t.loadFailed c.paddock (v.resident c.paddock i.tile)) v).settleReply c.reply 2 0x21 k))) ∧
  (∀ (t : Tile) (r : ProgRange) (body : List (BitVec 64)) (i : Nat), Tbl.sorted t.store = true →
    Tbl.get 0 (t.load r body).store i =
      if r.origin.toNat ≤ i ∧ i < r.origin.toNat + body.length then body.getD (i - r.origin.toNat) 0 else Tbl.get 0 t.store i)

/-- SHEAF_ACTIVITY_SPAN completes once for each span of 1,000 positions from 2,000 on: in ascending sheaf number at most 4 queued
gated sheaves become active, at most 4 queued ones are gated, and after them tests start, at most 8 running at once and 4
starts in all; an earlier span or one beyond 97 changes nothing (R443, R444, R471). SELFTEST and SELFTEST_END complete: the
listed sheaves queue in ascending number; a test of LOGIC takes 50 strides, of MEMORY 75 and of BOTH 125, four times as long
with EXTENDED, and at its end, in a span that has one of its 4 returns left, the sheaf is as after reset, FAILED if its test
failed, with EVT_BST_FAIL and the totals counted; in a span that has had them it does not end, and not before its time.
EXTENDED or OUTER outside BLANK and RETURNED fails with LIFECYCLE, a sheaf that may not be tested is refused with ADM_OWNER,
an empty list is answered ZERO_LENGTH and KIND 0 ILLEGAL (R443, R469 to R472). Where the rules leave it open it follows
notes/assumptions/54, 70 and 86. -/
def Obligations.SheafActivity : Prop :=
  (
    ∀ (s : State) (i : Nat), s.isRunning = true → s.time.windowDue = false →
      ((98 ≤ i ∨ i < s.time.nextSpan) → exec (.sheafActivitySpan i) s = .next s) ∧
      (i < 98 → s.time.nextSpan ≤ i →
        let u := { s with time := { s.time with nextSpan := i + 1 } }.advancePos (2000 + 1000 * i)
        let out := ((setIndices s.power.releaseQ).filter fun m => !(s.sheaf m).active).take 4
        let back := (setIndices s.power.returnQ).take 4
        let under := (s.boot.jobs.filter fun j => j.started.isSome).length
        let tests := ((s.boot.jobs.filter fun j => j.started.isNone).take (min (4 - out.length) (8 - under))).map TestJob.sheaf
        let v := back.foldl (fun v m => v.modSheaf m fun x => { x with active := false }) (out.foldl State.releaseSheaf u)
        let releaseQ := out.foldl (fun q m => withBit q m false) s.power.releaseQ
        let returnQ := back.foldl (fun q m => withBit q m false) s.power.returnQ
        exec (.sheafActivitySpan i) s = .next (tests.foldl State.startTest
          { v with power := { v.power with returnSpan := s.stride * 98 + i, returned := back.length, releaseQ := releaseQ, returnQ := returnQ } }))
  ) ∧
  (
    (∀ (env : Env) (bs : List Byte),
      let before (s : State) : State := s.takeEnv env
      let v (u : State) (c : Fetched) : State := (u.readOperand c.paddock c.cmd.arg 64).1
      let w := recordWord bs 0
      let ms := setIndices (sheafList bs)
      let read (u : State) (c : Fetched) : Prop := c.paddock = 0 ∧ c.cmd.count = 1 ∧ (u.readOperand c.paddock c.cmd.arg 64).2 = some bs
      let state (u : State) (c : Fetched) : Nat := (v u c).sec.fuses.lifecycle
      let allowed (u : State) (c : Fetched) : Prop := (bit w 2 = true ∨ bit w 3 = true) → state u c = 0 ∨ state u c = 3
      let free (u : State) (c : Fetched) : Prop := (∀ m ∈ ms, (v u c).untestable m = false) ∧ (bit w 3 = true → (v u c).outerBusy = false)
      (Answers (.selftest env) before 0x50 (fun u c => read u c ∧ bits w 0 2 ≠ 0 ∧ allowed u c ∧ free u c ∧ ms ≠ [])
        fun u c id =>
          let x := v u c
          let jobs := ms.map fun m => ({ sheaf := m, kind := BitVec.ofNat 2 (bits w 0 2), extended := bit w 2, command := id } : TestJob)
          let tallies := Tbl.put {} x.boot.tallies id { left := ms.length }
          ({ x with boot := { x.boot with jobs := x.boot.jobs ++ jobs, outer := x.boot.outer || bit w 3, tallies := tallies } }, {})) ∧
      (Answers (.selftest env) before 0x50 (fun u c => read u c ∧ bits w 0 2 = 0) fun u c _ => (v u c, { result := 3, note := 0x20 })) ∧
      (Answers (.selftest env) before 0x50 (fun u c => read u c ∧ bits w 0 2 ≠ 0 ∧ ¬ allowed u c) fun u c _ => (v u c, { result := 2, note := 0x37 })) ∧
      (Answers (.selftest env) before 0x50 (fun u c => read u c ∧ bits w 0 2 ≠ 0 ∧ allowed u c ∧ ¬ free u c)
        fun u c _ => (v u c, { result := 1, note := 0x14 })) ∧
      (Answers (.selftest env) before 0x50 (fun u c => read u c ∧ bits w 0 2 ≠ 0 ∧ allowed u c ∧ free u c ∧ ms = [] ∧ bit w 3 = false)
        fun u c _ => (v u c, { note := 0x01 }))) ∧
    (∀ (s : State) (m k : Nat) (j : TestJob) (logicOk memOk : Bool), s.isRunning = true →
      s.boot.jobs.find? (fun j => decide (j.sheaf = m) && j.started.isSome) = some j → j.started = some k →
      let strides := (if j.kind = 1 then 50 else if j.kind = 2 then 75 else 125) * (if j.extended then 4 else 1)
      let failed := (j.kind.getLsbD 0 && !logicOk) || (j.kind.getLsbD 1 && !memOk)
      let end_ := k + strides * 100000
      let u := s.advanceTo end_
      let v := u.activitySpan ((max u.position 2000 - 2000) / 1000)
      let span := v.stride * 98 + (v.position - 2000) / 1000
      let had := if v.power.returnSpan = span then v.power.returned else 0
      (s.now < end_ → end_ / 100000 ≠ s.stride → exec (.selftestEnd m logicOk memOk) s = .next s) ∧
      (end_ / 100000 = s.stride → 4 ≤ had → exec (.selftestEnd m logicOk memOk) s = .next s) ∧
      (end_ / 100000 = s.stride → had < 4 →
      ∃ t, exec (.selftestEnd m logicOk memOk) s = .next t ∧ t.boot.jobs = v.boot.jobs.filter (fun x => decide (x.sheaf ≠ m)) ∧
        t.power.returnSpan = span ∧ t.power.returned = had + 1 ∧
        (∀ n, n / 64 = m → t.tile n = {}) ∧ (Tbl.sorted v.tiles = true → ∀ n, n / 64 ≠ m → t.tile n = v.tile n) ∧
        (Tbl.sorted v.sheaves = true → t.sheaf m = {}) ∧ t.boot.passed = satAdd v.boot.passed (if failed then 0 else 1) ∧
        t.boot.failed = satAdd v.boot.failed (if failed then 1 else 0) ∧
        (m < 400 → (bit t.boot.failMask m = true ↔ bit v.boot.failMask m = true ∨ failed = true)) ∧
        (failed = true → ∃ e ∈ t.gleaner.arriving, e.cls = 10 ∧ e.code = 2 ∧ bits e.payload 0 9 = m % 512))) ∧
    (∀ (s : State) (m : Nat) (logicOk memOk : Bool), s.isRunning = true → (∀ j ∈ s.boot.jobs, j.sheaf = m → j.started = none) →
      exec (.selftestEnd m logicOk memOk) s = .next s)
  )

/-- PADDOCK_SWITCH completes for a shared sheaf that now runs another paddock than the one whose contents it holds: from position
1,000 the contexts and entries of the outgoing paddock are written to its context area, the tile stores, sheaf banks and
accumulator banks are cleared, and those of the incoming paddock are loaded, the entries by position 4,000; a sheaf that need
not switch stays. The context record and the saved entry bring back what they keep (R60, R64, R65, R243, R407). Where the
rules leave it open it follows notes/assumptions/30, 42 and 69. -/
def Obligations.PaddockSwitches : Prop :=
  (∀ (s : State) (m : Nat), s.isRunning = true → s.time.actDue = false →
    (s.switchTo m = none → exec (.paddockSwitch m) s = .next s) ∧
    (∀ p q, s.switchTo m = some p → s.time.windowDue = true → m < 400 → (s.sheaf m).ran = some q →
      let u := (s.advancePos 1000).settleEntries m
      (u.sheaf m).ran = some q → bit (u.mask q) m = true →
      let v := ((u.saveSheaf q m).clearSheafMemory m).modSheaf m fun x => { x with entries := [], arrivals := [] }
      exec (.paddockSwitch m) s = .next ((v.loadSheaf p m).modSheaf m fun x => { x with ran := some p, entriesLoaded := v.stride * 100000 + 4000 }))) ∧
  (∀ (t x : Tile) (p : Nat), t.loops.length ≤ 4 →
    let u := x.withContext p t.context
    (∀ i < 16, u.s i = t.s i) ∧ (∀ i < 8, u.a i = t.a i) ∧ (∀ i < 8, u.record i = t.record i) ∧ u.loops = t.loops ∧ u.pc = t.pc ∧
    (∀ i, 1 ≤ i → i < 8 → bit u.preds i = bit t.preds i) ∧ u.nfFlag = t.nfFlag ∧ u.nfPos = t.nfPos ∧
    (t.seqState = .waiting ∨ t.seqState = .halted ∨ t.seqState = .faulted → u.seqState = t.seqState) ∧ t.context.length = 256) ∧
  (∀ x : MtgEntry,
    let y := MtgEntry.ofWords (recordWord x.bytes)
    x.bytes.length = 128 ∧ y.tExp = x.tExp ∧ y.nextT = x.nextT ∧ y.rung = x.rung ∧ y.nextRung = x.nextRung ∧ y.head = x.head ∧
    y.isOpen = x.isOpen ∧ y.verdict = x.verdict ∧ y.repeats = x.repeats ∧ y.cleanRun = x.cleanRun ∧ y.sat = x.sat ∧ y.zero = x.zero ∧
    y.ovfl = x.ovfl ∧ y.zrange = x.zrange ∧ y.satb = x.satb ∧ y.zerob = x.zerob ∧ y.nonfin = x.nonfin ∧ y.lastAmax = x.lastAmax ∧
    y.lastMinblk = x.lastMinblk ∧ y.samples = x.samples ∧ y.elems = x.elems ∧ y.exceed = x.exceed ∧ y.maxrel = x.maxrel ∧
    y.abandoned = x.abandoned ∧ (∀ i < 16, Tbl.get 0 y.hist i = Tbl.get 0 x.hist i) ∧ (∀ i, 88 ≤ i → i < 128 → x.bytes[i]? = some 0))

/-- PADDOCK_SET and PADDOCK_RELEASE complete: a change that passes its checks waits among the GLOBAL shadows, arms GLOBAL, and is
answered with the outcome of that commit; one that does not is refused with ADM_OWNER or ADM_SLOTS and changes nothing. In
force, a set adds its sheaves to the mask and owns its regions, and a release takes them away, the regions being SCRUBBING
(R404, R409, R410, R412, R417). Where the rules leave it open it follows notes/assumptions/57 and 60. -/
def Obligations.PaddockChanges : Prop :=
  (∀ (env : Env) (bs : List Byte),
    let before (s : State) : State := s.takeEnv env
    let v (u : State) (c : Fetched) : State := (u.readOperand c.paddock c.cmd.arg 128).1
    let read (u : State) (c : Fetched) : Prop := c.paddock = 0 ∧ c.cmd.count = 1 ∧ (u.readOperand c.paddock c.cmd.arg 128).2 = some bs
    let set : PdkChange := changeOf false bs 0
    let gone : PdkChange := changeOf true bs 0
    let lawful (u : State) (c : Fetched) : Prop :=
      let x := v u c
      let t := x.composed
      (t.pdk set.paddock).state = (if set.isNew then .free else .active) ∧ (∀ r ∈ setIndices set.regions, (t.region r).state = .none) ∧
      (∀ m ∈ setIndices set.sheaves, x.isolated m = false ∧ x.sheafFailed m = false) ∧ (set.paddock = 0 ∨ x.sec.fuses.lifecycle = 2)
    let take (x : State) (p : PdkChange) : State × Answer :=
      let y := { x with changes := x.changes ++ [p] }
      ((y.setReg .commit (y.reg .commit ||| maskOf 16 1)).noteDevice .commit (maskOf 16 1), { settled := false })
    (Answers (.paddockSet env) before 0x40 (fun u c => read u c ∧ lawful u c ∧ (v u c).setCrowded (v u c).composed set = false)
      fun u c id => take (v u c) (changeOf false bs id)) ∧
    (Answers (.paddockSet env) before 0x40 (fun u c => read u c ∧ ¬ lawful u c) fun u c _ => (v u c, { result := 1, note := 0x14 })) ∧
    (Answers (.paddockSet env) before 0x40 (fun u c => read u c ∧ lawful u c ∧ (v u c).setCrowded (v u c).composed set = true)
      fun u c _ => (v u c, { result := 1, note := 0x12 })) ∧
    (Answers (.paddockRelease env) before 0x41 (fun u c => read u c ∧ (v u c).releaseForeign (v u c).composed gone = false)
      fun u c id => take (v u c) (changeOf true bs id)) ∧
    (Answers (.paddockRelease env) before 0x41 (fun u c => read u c ∧
        (((v u c).composed.pdk gone.paddock).state ≠ .active ∨ (gone.whole = true ∧ gone.paddock = 0)))
      fun u c _ => (v u c, { result := 1, note := 0x14 }))) ∧
  (∀ (s : State) (c : PdkChange) (r : Nat), Tbl.sorted s.masks = true → Tbl.sorted s.regions = true → c.paddock < 16 →
    let t := s.withChange c
    let listed := bit c.regions r = true
    (∀ q, q ≠ c.paddock → t.mask q = s.mask q) ∧
    (c.release = false → t.mask c.paddock = s.mask c.paddock ||| c.sheaves ∧
      (listed → t.region r = { state := .owned, owner := BitVec.ofNat 4 c.paddock }) ∧ (¬ listed → t.region r = s.region r)) ∧
    (c.release = true → c.whole = false → t.mask c.paddock = s.mask c.paddock &&& ~~~c.sheaves ∧
      (listed → t.region r = { state := .scrubbing, owner := BitVec.ofNat 4 c.paddock }) ∧ (¬ listed → t.region r = s.region r)) ∧
    (c.release = true → c.whole = true → t.mask c.paddock = 0 ∧ (t.pdk c.paddock).state = .releasing ∧
      ((s.region r).state = .owned → (s.region r).owner.toNat = c.paddock → r < 512 → (t.region r).state = .scrubbing)))

/-- REGION_CLEAR_END, KEY_SWEEP_END and PATROL_READ complete. A cleared region is NONE and its units are cleared, and with the
last one of the regions of a whole release the paddock is FREE with EVT_PDK_RELEASED; at the end of a sweep every unit of the
paddock that is not CLEAR and reads without error carries the current epoch, SWEEP is 0 and EVT_KEY_SWEEP_DONE is raised; a
patrol read corrects or reports what it finds while PATROL is 1 (R310, R314, R415, R422). Where the rules leave it open it
follows notes/assumptions/57 and 61. -/
def Obligations.ClearsAndSweeps : Prop :=
  (∀ (s : State) (r : Nat), s.isRunning = true →
    let p := (s.region r).owner.toNat
    ((s.region r).state ≠ .scrubbing → exec (.regionClearEnd r) s = .next s) ∧
    ((s.region r).state = .scrubbing → Tbl.sorted s.regions = true → ∃ t, exec (.regionClearEnd r) s = .next t ∧ t.region r = {} ∧
      (∀ q, q ≠ r → t.region q = s.region q) ∧ (∀ u, u / 2 ^ 24 = r → t.unit u = {}) ∧
      (Tbl.sorted s.hbm = true → ∀ u, u / 2 ^ 24 ≠ r → t.unit u = s.unit u) ∧ t.mem = s.mem ∧ t.regs = s.regs ∧
      (bit (s.pdk p).clearing r = false → t.paddocks = s.paddocks) ∧
      ((∀ q < 512, bit (s.pdk p).clearing q = true ↔ q = r) → r < 512 → Tbl.sorted s.paddocks = true → (t.pdk p).state = .free ∧
        ∃ e ∈ t.gleaner.arriving, e.cls = 8 ∧ e.code = 1 ∧ bits e.payload 0 4 = p ∧ bits e.payload 4 10 = (s.pdk p).releasedRegions % 1024))) ∧
  (∀ (s : State) (p : Nat), s.isRunning = true →
    ((s.pdk p).sweep = false → exec (.keySweepEnd p) s = .next s) ∧
    ((s.pdk p).sweep = true → Tbl.sorted s.paddocks = true → Tbl.sorted s.hbm = true → ∃ t, exec (.keySweepEnd p) s = .next t ∧
      (t.pdk p).sweep = false ∧
      (∀ u, s.hbmOwner u = some p → (s.unit u).clear = false → (∀ c ∈ s.eccUnits, c.1 ≠ u) → (t.unit u).epoch = (s.pdk p).memEpoch ∧
        (t.unit u).clear = false) ∧
      (∀ u, s.hbmOwner u ≠ some p → t.unit u = s.unit u) ∧
      ∃ e ∈ t.gleaner.arriving, e.cls = 8 ∧ e.code = 3 ∧ bits e.payload 0 4 = p % 16)) ∧
  (∀ (s : State) (k u : Nat) (env : Env), s.isRunning = true →
    let e := s.takeEnv env
    let mark := (e.eccUnits.find? fun c => decide (c.1 = u)).map Prod.snd
    ((s.field .scrubCtl 0 1 = 0 ∨ stackOf u ≠ k ∨ mark = none) → exec (.patrolRead k u env) s = .next e) ∧
    (s.field .scrubCtl 0 1 = 1 → stackOf u = k → mark = some .correctable → exec (.patrolRead k u env) s = .next (e.correctUnit u)) ∧
    (s.field .scrubCtl 0 1 = 1 → stackOf u = k → mark = some .uncorrectable → exec (.patrolRead k u env) s = .next (e.failUnit u true)))

/-- KEY_ROTATE and SEAL_KEY complete: a rotation is left waiting for the next tick, each LINK rotation counted; a memory rotation
while a sweep runs or one waits fails with KEY_BUSY, and a paddock that is not ACTIVE is refused. A sealing key comes from the
paddock's own key pair and the ciphertext at ARG, which the next tick brings in; without a key pair NO_EK, with seals
outstanding SEAL_BUSY, with an unreadable ciphertext OPERAND (R421 to R425; a rotation waiting counts as busy,
notes/assumptions/68). ATTEST completes: with a bound in hand it signs with the next leaf, writes the 12,064-byte report at
ARG and counts the leaf, asking the store, while it is in use, for a new bound when 2^19 leaves are left; with the leaves of
its bound used up it fails with ATT_INDEX and an event, and with no further bound possible with ATT_EXHAUSTED. In BLANK it
fails with LIFECYCLE, a fifth one of a tick with ATT_BUSY, and a report that would not lie in the paddock's memory is refused
(R424, R426, R430, R433, R434). Where the rules leave it open it follows notes/assumptions/10, 61 and 84. -/
def Obligations.SecurityCommands : Prop :=
  (
    let target (c : Fetched) : Nat := bits c.cmd.w5 8 4
    let lawful (u : State) (c : Fetched) : Prop := c.paddock = 0 ∧ c.cmd.count = 1 ∧ (u.composed.pdk (target c)).state = .active
    (Answers .keyRotate id 0x42 (fun u c => lawful u c ∧ bit c.cmd.w5 0 = true)
      fun u c _ => (u.modPdk (target c) fun x => { x with rotateLink := x.rotateLink + 1 }, { later := true })) ∧
    (Answers .keyRotate id 0x42 (fun u c => lawful u c ∧ bit c.cmd.w5 0 = false ∧ (u.pdk (target c)).sweep = false ∧
        (u.pdk (target c)).rotateMem = false)
      fun u c _ => (u.modPdk (target c) fun x => { x with rotateMem := true }, { later := true })) ∧
    (Answers .keyRotate id 0x42 (fun u c => lawful u c ∧ bit c.cmd.w5 0 = false ∧ ((u.pdk (target c)).sweep = true ∨
        (u.pdk (target c)).rotateMem = true))
      fun u _ _ => (u, { result := 2, note := 0x31 })) ∧
    (Answers .keyRotate id 0x42 (fun u c => c.paddock = 0 ∧ c.cmd.count = 1 ∧ (u.composed.pdk (target c)).state ≠ .active)
      fun u _ _ => (u, { result := 1, note := 0x14 })) ∧
    (∀ env : Env,
      let before (s : State) : State := s.takeEnv env
      let pending (u : State) (c : Fetched) : Prop := ∃ j ∈ u.host.copies, j.paddock = c.paddock ∧ j.kind ≠ .copy
      let text (u : State) (c : Fetched) : State × Option (List Byte) := u.readOperand c.paddock c.cmd.arg 1568
      (∀ n bs, Answers (.sealKey env) before 0x44 (fun u c => c.cmd.count = 1568 ∧ (u.pdk c.paddock).keyPair = some n ∧ ¬ pending u c ∧
          (text u c).2 = some bs)
        fun u c _ => ((text u c).1.modPdk c.paddock fun x => { x with sealingNext := some (Config.decapsulate n bs) }, {})) ∧
      (Answers (.sealKey env) before 0x44 (fun u c => c.cmd.count = 1568 ∧ (u.pdk c.paddock).keyPair ≠ none ∧ ¬ pending u c ∧ (text u c).2 = none)
        fun u c _ => ((text u c).1, { result := 2, note := 0x21 })) ∧
      (Answers (.sealKey env) before 0x44 (fun u c => c.cmd.count = 1568 ∧ (u.pdk c.paddock).keyPair = none)
        fun u _ _ => (u, { result := 2, note := 0x36 })) ∧
      (Answers (.sealKey env) before 0x44 (fun u c => c.cmd.count = 1568 ∧ (u.pdk c.paddock).keyPair ≠ none ∧ pending u c)
        fun u _ _ => (u, { result := 2, note := 0x35 })))
  ) ∧
  (
    (∀ (env : Env) (nonce : List Byte),
      let before (s : State) : State := s.takeEnv env
      let placed (u : State) (c : Fetched) : Prop := c.cmd.count = 12064 ∧ u.sec.fuses.lifecycle ≠ 0 ∧ c.cmd.arg % 64 = 0 ∧
        u.ownSpan c.paddock c.cmd.arg 12064 = true
      let ready (u : State) (c : Fetched) : Prop := placed u c ∧ u.sec.attThisTick < 4 ∧
        (u.readOperand c.paddock c.cmd.arg2 32).2 = some nonce
      let v (u : State) (c : Fetched) : State × Nat :=
        let x := (u.readOperand c.paddock c.cmd.arg2 32).1
        { x with sec := { x.sec with attThisTick := x.sec.attThisTick + 1 } }.withKeyPair c.paddock
      let next (u : State) (c : Fetched) : Nat := (v u c).1.sec.attNext.toNat
      let limit (u : State) (c : Fetched) : Nat := (v u c).1.sec.attLimit.toNat
      (Answers (.attest env) before 0x43 (fun u c => ready u c ∧ next u c < limit u c)
        fun u c _ =>
          let w := (v u c).1.masterWrite srcFarrier c.paddock c.cmd.arg ((v u c).1.report c.paddock (next u c) (v u c).2 nonce)
          ({ w with sec := w.sec.useLeaf }, {})) ∧
      (Answers (.attest env) before 0x43 (fun u c => ready u c ∧ limit u c ≤ next u c ∧ 2 ^ 40 < limit u c + 2 ^ 20)
        fun u c _ => ((v u c).1, { result := 2, note := 0x33 })) ∧
      (Answers (.attest env) before 0x43 (fun u c => ready u c ∧ limit u c ≤ next u c ∧ limit u c + 2 ^ 20 ≤ 2 ^ 40)
        fun u c _ => ((v u c).1.raise srcFarrier (8, 6) (pack 128 [(0, 40, next u c), (64, 41, limit u c)]), { result := 2, note := 0x32 })) ∧
      (Answers (.attest env) before 0x43 (fun u c => placed u c ∧ 4 ≤ u.sec.attThisTick) fun u _ _ => (u, { result := 2, note := 0x34 })) ∧
      (Answers (.attest env) before 0x43 (fun u c => c.cmd.count = 12064 ∧ u.sec.fuses.lifecycle = 0) fun u _ _ => (u, { result := 2, note := 0x37 })) ∧
      (Answers (.attest env) before 0x43 (fun u c => c.cmd.count = 12064 ∧ u.sec.fuses.lifecycle ≠ 0 ∧ c.cmd.arg % 64 = 0 ∧
          u.ownSpan c.paddock c.cmd.arg 12064 = false)
        fun u _ _ => (u, { result := 1, note := 0x14 }))) ∧
    (∀ x : Security, x.useLeaf.attNext = x.attNext + 1 ∧ x.useLeaf.attLimit = x.attLimit ∧
      (x.fuses.lifecycle = 1 ∨ x.fuses.lifecycle = 2 → (x.attNext + 1).toNat + 2 ^ 19 = x.attLimit.toNat → x.attLimit.toNat + 2 ^ 20 ≤ 2 ^ 40 → x.request = none →
        x.useLeaf.request = some (.write (BitVec.ofNat 41 (x.attLimit.toNat + 2 ^ 20)))) ∧
      ((x.fuses.lifecycle ≠ 1 ∧ x.fuses.lifecycle ≠ 2) ∨ (x.attNext + 1).toNat + 2 ^ 19 ≠ x.attLimit.toNat → x.useLeaf.request = x.request ∧ x.useLeaf.nextRequest = x.nextRequest)) ∧
    (∀ (s : State) (p leaf pair : Nat) (nonce : List Byte), nonce.length = 32 → (s.report p leaf pair nonce).length = 12064)
  )

/-- TETHER_OPEN, TETHER_CLOSE and LINK_RETRAIN complete. A contract that passes its checks takes its entries and the tether is
OPENING; a reserved field is ILLEGAL, a tether in use or DPAs that are not the paddock's are refused with ADM_OWNER, and too
few entries or too tight a bound with ADM_SLOTS; outside FIELD it fails with LIFECYCLE. A close frees the entries. A retrain
names the failed lanes of an enabled port of a LIVE module whose reference clock runs; of another port it changes nothing, an
empty mask is answered OK with ZERO_LENGTH, and a port that does not exist is ILLEGAL (R361 to R363, R368, R372, R389, R390,
R426, R498). Where the rules leave it open it follows notes/assumptions/59 and 60. -/
def Obligations.TethersManaged : Prop :=
  (∀ (env : Env) (bs : List Byte),
    let before (s : State) : State := s.takeEnv env
    let v (u : State) (c : Fetched) : State := (u.readOperand c.paddock c.cmd.arg 64).1
    let read (u : State) (c : Fetched) : Prop := (u.readOperand c.paddock c.cmd.arg 64).2 = some bs
    let n := bits (recordWord bs 0) 0 12
    let ports := contractPorts (recordWord bs 1)
    let x (c : Fetched) : Tether := contractOf c.paddock bs
    let field (u : State) (c : Fetched) : Prop := (v u c).sec.fuses.lifecycle = 2
    let whole (c : Fetched) : Prop := (∀ q ∈ ports, q.1 < 24 ∧ 1 ≤ q.2 ∧ q.2 ≤ 1000) ∧ ((x c).collective = true ∨ (x c).ringFrames ≠ 0)
    let closed (u : State) (c : Fetched) : Prop := ((v u c).tether n).state = .closed
    (∀ t : State, Answers (.tetherOpen env) before 0x30 (fun u c => read u c ∧ field u c ∧ whole c ∧ closed u c ∧
        (v u c).placeTether n (x c) ports = some t ∧ (v u c).contractForeign (x c) = false)
      fun _ _ _ => (t, {})) ∧
    (∀ t : State, Answers (.tetherOpen env) before 0x30 (fun u c => read u c ∧ field u c ∧ whole c ∧ closed u c ∧
        (v u c).placeTether n (x c) ports = some t ∧ (v u c).contractForeign (x c) = true)
      fun u c _ => (v u c, { result := 1, note := 0x14 })) ∧
    (Answers (.tetherOpen env) before 0x30 (fun u c => read u c ∧ ¬ field u c) fun u c _ => (v u c, { result := 2, note := 0x37 })) ∧
    (Answers (.tetherOpen env) before 0x30 (fun u c => read u c ∧ field u c ∧ ¬ whole c) fun u c _ => (v u c, { result := 3, note := 0x20 })) ∧
    (Answers (.tetherOpen env) before 0x30 (fun u c => read u c ∧ field u c ∧ whole c ∧ ¬ closed u c)
      fun u c _ => (v u c, { result := 1, note := 0x14 })) ∧
    (Answers (.tetherOpen env) before 0x30 (fun u c => read u c ∧ field u c ∧ whole c ∧ closed u c ∧ (v u c).placeTether n (x c) ports = none)
      fun u c _ => (v u c, { result := 1, note := 0x12 }))) ∧
  (let n (c : Fetched) : Nat := bits c.cmd.w5 0 12
   (Answers .tetherClose id 0x31 (fun u c => (u.tether (n c)).state ≠ .closed ∧ (u.tether (n c)).paddock = c.paddock)
     fun u c _ => ((u.clearEntries (n c) (List.range 24)).modTether (n c) fun x => { x with
       state := .closed, slots := 0, pend := [], lateSent := [], staged := [], reportDue := false, tagsDue := [], movedAt := none,
       peerStale := false, sessionKey := 0 }, {})) ∧
   (Answers .tetherClose id 0x31 (fun u c => (u.tether (n c)).state = .closed) fun u _ _ => (u, { result := 2, note := 0x19 })) ∧
   (Answers .tetherClose id 0x31 (fun u c => (u.tether (n c)).state ≠ .closed ∧ (u.tether (n c)).paddock ≠ c.paddock)
     fun u _ _ => (u, { result := 1, note := 0x14 }))) ∧
  (let n (c : Fetched) : Nat := bits c.cmd.w5 0 5
   let lanes (c : Fetched) : BitVec 4 := BitVec.ofNat 4 (bits c.cmd.w5 8 4)
   let may (u : State) (c : Fetched) : Prop :=
     u.portEnabled (n c) = true ∧ (u.site (n c / 4)).state = 2 ∧ (u.site (n c / 4)).clocked = true ∧ (u.port (n c)).state ≠ 1
   (Answers .linkRetrain id 0x32 (fun u c => c.paddock = 0 ∧ lanes c ≠ 0 ∧ n c < 24 ∧ may u c)
     fun u c _ => (u.modPort (n c) fun p => { p with training := p.training ||| (lanes c &&& ~~~p.laneOk) }, {})) ∧
   (Answers .linkRetrain id 0x32 (fun u c => c.paddock = 0 ∧ lanes c ≠ 0 ∧ n c < 24 ∧ ¬ may u c) fun u c _ => (u.modPort (n c) id, {})) ∧
   (Answers .linkRetrain id 0x32 (fun _ c => c.paddock = 0 ∧ lanes c ≠ 0 ∧ 24 ≤ n c) fun u _ _ => (u, { result := 3, note := 0x20 })) ∧
   (Answers .linkRetrain id 0x32 (fun _ c => c.paddock = 0 ∧ lanes c = 0) fun u _ _ => (u, { note := 0x01 })))

/-- The entries of a contract: of each port its count of free entries in the order 20 to 999 and then 0 to 19, on protected lanes
for a PROTECTED tether, and they read as the tether's (R361, R362, R371). ENTRY_SEND completes: an entry that no tether holds
carries IDLE, that of an OPENING tether HELLO, and that of a formed one its next unsent frame, or a REPORT, or IDLE where
nothing is due; DATA and REPORT frames go out sealed under the tether's session key. An entry of a dead lane, one whose lane
group has ended, and one that carried its frame already change nothing. LANE_GROUP_START completes: an UP port sends one link
control block a lane group with its CRC-32, the time mark in group 0, and the oldest report or request that it holds (R355 to
R359, R363, R365, R369, R370). Where the rules leave it open it follows notes/assumptions/47, 48, 82 and 85. -/
def Obligations.LinkEntries : Prop :=
  (
    ∀ (s : State) (n count t : Nat) (prot : Bool) (es : List Nat), s.pickEntries n count prot = some es → count ≠ 0 → t < 4096 →
      es.length = count ∧ es.Nodup ∧ (∀ i ∈ es, i < 1000 ∧ s.entryFree n i prot = true) ∧
      (∀ i < 1000, i ∉ es → s.entryFree n i prot = true → ∀ j ∈ es, (20 ≤ j ∧ (i < 20 ∨ j < i)) ∨ (j < 20 ∧ i < 20 ∧ j < i)) ∧
      (∀ i ∈ es, let g := ((s.assignEntries n t prot es).port n).gaitAt i
        gaitValid g = true ∧ gaitTether g = t ∧ (bit g 14 = true ↔ prot = true)) ∧
      (∀ i, i ∉ es → ((s.assignEntries n t prot es).port n).gaitAt i = (s.port n).gaitAt i)
  ) ∧
  (
    (∀ (s : State) (n i : Nat) (env : Env), s.isRunning = true →
      let e := s.takeEnv env
      let u := e.advancePos (400 * (i / 4))
      let g := (s.port n).gaitAt i
      let t := gaitTether g
      let x := s.tether t
      let group := s.stride * 250 + i / 4
      let sentNow (p : Port) : List Nat := if p.sentGroup = group then p.sentEntries else []
      let out (v : State) (key : BitVec 256) (f : OutFrame) : State := v.modPort n fun p => { p with
        lastEntry := some (i, f), wire := f.wire v.sec.fuses key, sentGroup := group, sentEntries := sentNow p ++ [i] }
      let sends (v : State) (f : OutFrame) : Prop := exec (.entrySend n i env) s = .next (out v 0 f)
      ((s.port n).entryLive i = false ∨ 1000 ≤ i ∨ 400 * (i / 4) + 400 ≤ s.position ∨ i ∈ sentNow (s.port n) →
        exec (.entrySend n i env) s = .next e) ∧
      ((s.port n).entryLive i = true → i < 1000 → s.position < 400 * (i / 4) + 400 → i ∉ sentNow (s.port n) →
        (gaitValid g = false → sends u (.idle u.chipId n (u.stride % 65536) i)) ∧
        (gaitValid g = true → x.state = .opening → s.sec.fuses.lifecycle = 2 → sends u (.hello x.peerChip.toNat (u.helloOf t))) ∧
        (gaitValid g = true → x.state = .closed ∨ (x.state = .opening ∧ s.sec.fuses.lifecycle ≠ 2) → sends u (.idle u.chipId n (u.stride % 65536) i)) ∧
        (gaitValid g = true → x.state ≠ .opening → x.state ≠ .closed →
          (∀ f rest, (u.tether t).nextFrame (u.oldEntries n t) (u.entriesAhead n i t) = some (f, rest) → exec (.entrySend n i env) s = .next (u.sendData n i t f rest)) ∧
          ((u.tether t).nextFrame (u.oldEntries n t) (u.entriesAhead n i t) = none →
            ((u.tether t).takeReport.1 = none → sends u (.idle u.chipId n (u.stride % 65536) i)) ∧
            (∀ r, (u.tether t).takeReport.1 = some r → ∃ v f, exec (.entrySend n i env) s = .next v ∧
              (v.port n).lastEntry = some (i, .report f) ∧ (v.port n).wire = f.wire 4 x.sessionKey ∧ f.destChip = x.peerChip.toNat ∧ f.report = true ∧ f.consumed = r.1 ∧ f.reportTag = r.2.1 ∧
              f.reportW = r.2.2 ∧ f.destTether = x.peerTether.toNat ∧ f.srcTether = t ∧ f.seqNo = BitVec.ofNat 64 (2 ^ 63) + x.reportSeq))))) ∧
    (∀ (s : State) (n i t : Nat) (f : Pend) (rest : List Pend), (s.tether t).collective = false → f.resend = false →
      ∀ k, f.what = .ring k → (s.tether t).ringFrames ≠ 0 →
      ∃ d, ((s.sendData n i t f rest).port n).lastEntry = some (i, .data d) ∧
        ((s.sendData n i t f rest).port n).wire = d.wire 1 (s.tether t).sessionKey ∧ d.seqNo = f.seqNo ∧ d.srcTether = t ∧
        d.destChip = (s.tether t).peerChip.toNat ∧ d.paddock = (s.tether t).paddock ∧ d.destTether = (s.tether t).peerTether.toNat ∧
        (d.payload = ((s.masterRead (srcPort n) (s.tether t).paddock
          ((s.tether t).sendRing.toNat + 8192 * (f.seqNo.toNat % (s.tether t).ringFrames.toNat)) 8192).2.1))) ∧
    (∀ (s : State) (n : Nat), s.isRunning = true →
      let p := s.port n
      let g := s.nextGroup n
      ((p.linkUp = false ∨ p.live = 0 ∨ 250 ≤ g) → exec (.laneGroupStart n) s = .next s) ∧
      (p.linkUp = true → p.live ≠ 0 → g < 250 →
        let u := s.advancePos (g * 400 + 398)
        let l := u.lcbOf n
        let r : LcbReport := p.out.headD {}
        (l.mark = true ↔ u.position / 400 = 0) ∧ l.err = r.err.isSome ∧ l.req = r.req.isSome ∧ l.gtc = u.time.gtc ∧ l.crcOk = true ∧
        (∀ stamp lane, r.err = some (stamp, lane) → l.errGroup = stamp ∧ l.errLane = lane) ∧
        (∀ m k, r.req = some (m, k) → l.reqMap = m ∧
          l.reqGroup = stampOf ((((u.now / 400 + 1) * 400 + p.delayNs.toNat) / 400 + 1) / 250)
            ((((u.now / 400 + 1) * 400 + p.delayNs.toNat) / 400 + 1) % 250)) ∧
        exec (.laneGroupStart n) s = .next (u.modPort n fun p => { p with
          sentLcb := some l, out := p.out.drop 1,
          remaps := match r.req with | some (m, k) => p.remaps ++ [(l.reqGroup, m, k)] | none => p.remaps })))
  )

/-- LANE_FAIL, LANE_REMAP, LINK_CONTROL_BLOCK and LINK_TRAINING_END complete. A lane that fails makes the port DEGRADED, is
reported in a link control block with the map that puts it last among the live lanes, and raises EVT_LNK_LANE_FAIL; with no
lane left the port is DOWN. At the stamped lane group the map applies with its count of live lanes. The FEC's codewords are
counted, and loss on a lane is reported. A block that passes its CRC-32 is acted on once: a loss sends the frames of that lane
again, a request is kept for its stamp, and a mark is compared with the own GTC. A port that trains comes up on the lanes that
trained, and lanes that are retrained rejoin through requests; a port that is not enabled, or whose site has no LIVE module or
no clock, stays as it is (R40, R354, R357, R369, R370, R372, R498). Where the rules leave it open it follows
notes/assumptions/47. -/
def Obligations.LanesChange : Prop :=
  (∀ (s : State) (n lane : Nat) (stamp : BitVec 16), s.isRunning = true →
    let p := s.port n
    let l := logicalOf p.laneMap lane
    (p.linkUp = false ∨ 4 ≤ lane → exec (.laneFail n lane stamp) s = .next s) ∧
    (p.linkUp = true → lane < 4 → p.out = [] → p.remaps = [] → p.live ≤ l → exec (.laneFail n lane stamp) s = .next s) ∧
    (p.linkUp = true → lane < 4 → p.out = [] → p.remaps = [] → l < p.live →
      let m := if l + 1 = p.live then p.laneMap else swapLanes p.laneMap l (p.live - 1)
      let u := (s.modPort n fun p => { p with
        state := 3, laneOk := withBit p.laneOk lane false, out := [{ err := some (stamp, lane), req := some (m, p.live - 1) }] }).raise (srcPort n) (6, 1)
        (pack 128 [(0, 2, lane), (2, 1, 1), (8, 8, m.toNat), (16, 16, stamp.toNat)])
      (2 ≤ p.live → exec (.laneFail n lane stamp) s = .next u) ∧
      (p.live = 1 → exec (.laneFail n lane stamp) s = .next ((u.modPort n fun p => { p with
        laneMap := m, live := 0, state := 0, out := [], remaps := [] }).refreshPort n)))) ∧
  (∀ (s : State) (n : Nat), s.isRunning = true →
    ((s.port n).remaps = [] → exec (.laneRemap n) s = .next s) ∧
    (∀ stamp m live rest, (s.port n).remaps = (stamp, m, live) :: rest →
      let ahead := (bits stamp 8 8 + 256 - s.stride % 256) % 256
      (0 < ahead ∧ ahead < 128 → exec (.laneRemap n) s = .next s) ∧
      (ahead = 0 → exec (.laneRemap n) s = .next (((s.advancePos (bits stamp 0 8 * 400)).modPort n fun p => { p with
        laneMap := m, live := live, remaps := rest, state := if live = 0 then 0 else if live < 4 then 3 else 2 }).refreshPort n)) ∧
      (128 ≤ ahead → exec (.laneRemap n) s = .next ((s.modPort n fun p => { p with
        laneMap := m, live := live, remaps := rest, state := if live = 0 then 0 else if live < 4 then 3 else 2 }).refreshPort n)))) ∧
  (∀ (s : State) (n : Nat) (b : Lcb), s.isRunning = true → (s.port n).linkUp = false → exec (.linkControlBlock n b) s = .next s) ∧
  (∀ (s : State) (n : Nat) (b : Lcb), s.isRunning = true → (s.port n).linkUp = true → b.crcOk = false →
    let p := s.port n
    ∃ v, exec (.linkControlBlock n b) s = .next v ∧ (v.port n).fecCorr = p.fecCorr + BitVec.ofNat 32 b.fecCorrected ∧
      (v.port n).fecUncorr = satAdd p.fecUncorr (((b.fecLost.map Prod.snd).filter (0 < ·)).foldl (· + ·) 0) ∧
      (∀ j k, b.fecLost = [(j, k)] → 0 < k → bit p.laneOk j = true → p.out = [] →
        let g := (s.now - p.delayNs.toNat) / 400
        (v.port n).out = [{ err := some (stampOf (g / 250) (g % 250), j) }]) ∧
      (b.fecLost = [] → v = s.modPort n fun p => { p with fecCorr := p.fecCorr + BitVec.ofNat 32 b.fecCorrected })) ∧
  (∀ (s : State) (n : Nat) (b : Lcb), s.isRunning = true → b.fecCorrected = 0 → b.fecLost = [] →
    let p := s.port n
    (p.linkUp = true → b.crcOk = true → p.lastLcb = some b → ∃ v, exec (.linkControlBlock n b) s = .next v ∧ v.port n = p) ∧
    (p.linkUp = true → b.crcOk = true → p.lastLcb ≠ some b →
      let u := (s.modPort n id).modPort n fun p => { p with lastLcb := some b }
      (b.err = false → b.req = false → b.mark = false → exec (.linkControlBlock n b) s = .next u) ∧
      (b.err = true → b.req = false → b.mark = false → exec (.linkControlBlock n b) s = .next (u.resendLost n b.errLane b.errGroup)) ∧
      (b.err = false → b.req = true → b.mark = false → p.remaps = [] → p.out = [] → exec (.linkControlBlock n b) s = .next
        (u.modPort n fun p => { p with
          remaps := [(b.reqGroup, b.reqMap, min 4 (p.live + 1))],
          laneOk := withBit p.laneOk (mapLane b.reqMap (min 4 (p.live + 1) - 1)) true })) ∧
      (b.err = false → b.req = false → b.mark = true → s.field .timeCtl 0 2 ≠ 2 →
        let offset : Int := (s.now : Int) - p.delayNs.toNat - b.gtc.toNat
        (offset.natAbs ≤ 20 → exec (.linkControlBlock n b) s = .next { u with time := { u.time with mark := some b.gtc } }) ∧
        (20 < offset.natAbs → p.offsetStride = none → ∃ v, exec (.linkControlBlock n b) s = .next v ∧ v.time.mark = some b.gtc ∧
          ∃ e ∈ v.gleaner.arriving, e.cls = 1 ∧ e.code = 3 ∧ bits e.payload 0 16 = (satInt 16 offset).toNat)))) ∧
  (∀ (s : State) (n : Nat) (lanes : BitVec 4) (delay : BitVec 16), s.isRunning = true →
    let may : Prop := s.portEnabled n = true ∧ (s.site (n / 4)).state = 2 ∧ (s.site (n / 4)).clocked = true
    let map : BitVec 8 := if lanes = 15 then 0xE4 else orderedMap lanes
    let p := s.port n
    let state (k : Nat) : BitVec 3 := if k = 0 then 0 else if k < 4 then 3 else 2
    let back := (List.range 4).filter fun j => bit lanes j && bit p.training j && !bit p.laneOk j
    (¬ may → exec (.linkTrainingEnd n lanes delay) s = .next s) ∧
    (may → p.state = 1 → exec (.linkTrainingEnd n lanes delay) s = .next ((s.modPort n fun p => { p with
      laneMap := map, live := popCount lanes, out := [], remaps := [], state := state (popCount lanes),
      laneOk := lanes, delayNs := delay, training := 0 }).refreshPort n)) ∧
    (may → p.state ≠ 1 → back = [] → exec (.linkTrainingEnd n lanes delay) s = .next (s.modPort n fun p => { p with training := 0 })) ∧
    (may → p.state ≠ 1 → p.live ≠ 0 → p.out = [] → p.remaps = [] → ∀ j, back = [j] →
      exec (.linkTrainingEnd n lanes delay) s = .next (s.modPort n fun p => { p with
        training := 0, laneOk := withBit p.laneOk j true,
        out := [{ req := some (swapLanes p.laneMap (logicalOf p.laneMap j) p.live, p.live + 1) }] })))

/-- HELLO, DATA, REPORT and IDLE frames are taken as received. A HELLO of another fleet or with a wrong tag raises EVT_LNK_FLEET
and sets SECURITY, one of another configuration epoch or with a part stale raises EVT_CFG_STALE and is noted for the tether
that it names, and one that matches an OPENING tether's contract and the link epoch in force forms it, with its session key;
outside FIELD none acts. On a port whose link is down no frame changes anything. A DATA frame whose tag fails, or of a tether
that is not formed or not its pair, is counted and discarded; a valid one of a ring tether is written once at its place in the
ring with RECV_COUNT, one of a collective tether is taken as a chunk, and its report fields act: CONSUMED of a ring tether,
and for a collective L and W of the peer, kept on the tether where the collective is not admitted yet. A REPORT acts through
its fields alone, and IDLE changes nothing (R324, R351, R358, R359, R360, R363, R365). Where the rules leave it open it
follows notes/assumptions/10, 48, 49 and 85. -/
def Obligations.FramesReceived : Prop :=
  (∀ (s : State) (n : Nat), s.isRunning = true → exec (.idleFrame n) s = .next s ∧
    ((s.port n).linkUp = false → ∀ (h : Hello) (f : Frame) (env : Env), exec (.helloFrame n h) s = .next s ∧
      exec (.dataFrame n f env) s = .next (s.takeEnv env) ∧ exec (.reportFrame n f) s = .next s) ∧
    (s.sec.fuses.lifecycle ≠ 2 → ∀ h : Hello, exec (.helloFrame n h) s = .next s)) ∧
  ∀ (s : State) (n : Nat), s.isRunning = true → (s.port n).linkUp = true →
    (s.sec.fuses.lifecycle = 2 → ∀ h : Hello,
      let x := s.tether h.destTether
      let known := h.tagOk = true ∧ h.fleet = s.sec.fuses.fleetId
      let fresh := h.epoch.toNat = s.field .cfgEpoch 0 32 ∧ h.stale = false ∧ s.staleBit = false
      let mine := x.state = .opening ∧ h.srcChip = x.peerChip.toNat ∧ h.srcTether = x.peerTether.toNat
      let epoch := (s.pdk x.paddock).linkEpoch
      let paired := h.srcChip = x.peerChip.toNat ∧ h.srcTether = x.peerTether.toNat ∧ h.paddock = x.paddock ∧ h.collective = x.collective ∧
        h.linkEpoch = epoch
      let key := sessionKey (linkKey s.sec.fuses x.paddock epoch.toNat)
        { chip := BitVec.ofNat 16 s.chipId, index := BitVec.ofNat 12 h.destTether, nonce := x.ownNonce }
        { chip := x.peerChip, index := x.peerTether, nonce := h.nonce }
      (¬ known → exec (.helloFrame n h) s = .next ((s.raise (srcPort n) (6, 2)
        (pack 128 [(0, 32, h.fleet.toNat), (32, 16, h.srcChip), (48, 1, if h.tagOk then 0 else 1)])).setSecurity)) ∧
      (known → ¬ fresh → ∃ t, exec (.helloFrame n h) s = .next t ∧
        t.tethers = (s.modTether h.destTether fun x => if mine then { x with peerStale := true } else x).tethers ∧
        ∃ e ∈ t.gleaner.arriving, e.cls = 6 ∧ e.code = 3 ∧ bits e.payload 64 32 = h.epoch.toNat) ∧
      (known → fresh → (x.state ≠ .opening ∨ ¬ paired) → exec (.helloFrame n h) s = .next (s.modTether h.destTether fun x =>
        if mine then { x with peerStale := false } else x)) ∧
      (known → fresh → x.state = .opening → paired → exec (.helloFrame n h) s = .next ((s.modTether h.destTether fun x => { x with
        state := .formed, peerNonce := h.nonce, lastValid := s.stride, nextSeq := 0, reportSeq := 0, delivered := 0, beyond := [],
        peerConsumed := 0, pend := [], lateSent := [], staged := [], peerStale := false, linkEpoch := epoch, sessionKey := key }).refreshTether
          h.destTether))) ∧
    (∀ f : Frame, ∀ env : Env,
      let x := s.tether f.destTether
      let e := s.takeEnv env
      let counted (v : State) : State := v.modPort n fun p => { p with tagFail := satAdd p.tagFail 1 }
      let valid := f.tagOk = true ∧ (x.state = .formed ∨ x.state = .degraded ∨ x.state = .broken) ∧ f.srcTether = x.peerTether.toNat ∧
        f.srcChip = x.peerChip.toNat
      (¬ valid → exec (.dataFrame n f env) s = .next (counted e) ∧ exec (.reportFrame n f) s = .next (counted s)) ∧
      let heard (v : State) : State := v.modTether f.destTether fun x => { x with lastValid := v.stride }
      let reported (v : State) : State :=
        if f.report = false then heard v
        else if x.collective = false then v.modTether f.destTether fun x => { x with lastValid := v.stride, peerConsumed := f.consumed }
        else match s.colls.find? fun c => decide (c.paddock = x.paddock) && decide (c.tag = f.reportTag) with
          | none => if f.consumed = 0 then (heard v).modTether f.destTether fun x => { x with early := Tbl.insert x.early f.reportTag.toNat f.reportW }
            else heard v
          | some c => (match c.peersOf.find? fun (m : Nat × Nat) => decide (m.2 = f.destTether) with
            | some m => (heard v).modColl c.id fun c => { c with peers := Tbl.insert c.peers m.1 (f.consumed.toNat, f.reportW.toNat) }
            | none => heard v).settleColl c.id
      (valid → exec (.reportFrame n f) s = .next (reported s)) ∧
      (valid →
        let u := reported e
        (x.hasDelivered f.seqNo = true → exec (.dataFrame n f env) s = .next u) ∧
        (x.hasDelivered f.seqNo = false → x.collective = true →
          exec (.dataFrame n f env) s = .next ((u.modTether f.destTether fun x => x.deliver f.seqNo).takeChunk f.destTether f)) ∧
        (x.hasDelivered f.seqNo = false → x.collective = false →
          let v := (u.masterWrite (srcPort n) x.paddock (x.recvRing.toNat + 8192 * (f.seqNo.toNat % max 1 x.ringFrames.toNat)) f.payloadBytes).modTether
            f.destTether fun x => x.deliver f.seqNo
          exec (.dataFrame n f env) s = .next (v.masterWrite (srcPort n) x.paddock x.recvCount.toNat
            (leBytes 4 ((v.tether f.destTether).delivered.toNat % 2 ^ 32))))))

/-- The count of frames delivered without a gap: a frame is delivered once, and the count is the lowest SEQ not delivered yet
(R365). TETHER_OPENING_TIMEOUT, TETHER_BROKEN and TETHER_BOUND_EXPIRY complete: 64 strides without HELLO close an OPENING
tether, and 8 strides without a valid frame, or no live entry left, break a formed one, each with EVT_TETHER_DOWN; every frame
past its bound, unsent or sent too late to arrive within it, raises EVT_TETHER_LATE once and is counted (R57, R58, R363,
R371). Where the rules leave it open it follows notes/assumptions/48. -/
def Obligations.TetherLife : Prop :=
  (
    ∀ (x : Tether) (v w : BitVec 64), x.beyond.Nodup → (∀ b ∈ x.beyond, x.delivered.toNat < b.toNat) → x.hasDelivered v = false →
      x.delivered.toNat + x.beyond.length + 1 < 2 ^ 64 →
      let y := x.deliver v
      (y.hasDelivered w = true ↔ x.hasDelivered w = true ∨ w = v) ∧ y.hasDelivered y.delivered = false ∧ y.beyond.Nodup ∧
      ∀ b ∈ y.beyond, y.delivered.toNat < b.toNat
  ) ∧
  (
    ∀ (s : State) (t : Nat), s.isRunning = true →
      let x := s.tether t
      let down (v : State) (cause : Nat) : State := v.raise (v.tetherSource t) (6, 6)
        (pack 128 [(64, 12, t), (76, 16, x.peerChip.toNat), (92, 4, x.paddock), (0, 1, cause)])
      (x.state = .opening → x.openStride + 64 ≤ s.stride → exec (.tetherOpeningTimeout t) s = .next ((down s 0).closeTether t)) ∧
      (x.state ≠ .opening ∨ s.stride < x.openStride + 64 → exec (.tetherOpeningTimeout t) s = .next s) ∧
      (x.state = .formed ∨ x.state = .degraded → x.lastValid + 8 ≤ s.stride ∨ (s.entryCounts t).1 = 0 →
        exec (.tetherBroken t) s = .next (down (s.modTether t fun x => { x with state := .broken }) 1)) ∧
      (x.lastValid + 8 > s.stride → (s.entryCounts t).1 ≠ 0 → exec (.tetherBroken t) s = .next s) ∧
      (let late (f : Pend) : Bool := !f.late && decide (f.stride + x.boundM1.toNat + 1 ≤ s.stride)
       let due (f : BitVec 64 × Nat) : Bool := decide (f.2 + x.boundM1.toNat + 1 ≤ s.stride)
       let gone := (x.lateSent.filter due).map Prod.fst ++ (x.pend.filter late).map Pend.seqNo
       let u := gone.foldl (fun v f => v.raise (v.tetherSource t) (6, 4)
         (pack 128 [(64, 12, t), (76, 16, x.peerChip.toNat), (92, 4, x.paddock), (0, 64, f.toNat)])) s
       exec (.tetherBoundExpiry t) s = .next (u.modTether t fun y => { y with
         lateCount := satAdd y.lateCount gone.length, lateSent := y.lateSent.filter fun f => !due f, pend := y.pend.map fun f => { f with late := f.late || late f } }))
  )

/-- COLLECTIVE and COLL_ABORT complete. A descriptor that meets the eleven conditions, with slots, tethers, sheaves and regions of
the paddock's own, is admitted; the first condition that fails answers ILLEGAL with its number, a collective without chunks
writes its completion word and is answered ZERO_LENGTH, the 257th fails with COLL_FULL, tables that cannot be read fail with
OPERAND, and one of another paddock is refused with ADM_OWNER. A tether of a stale part, or to a stale one, does not do while
it is OPENING. An abort marks the collective it names, to end in the next stride; one of another paddock is refused with
ADM_OWNER, and with no such collective it fails with NOT_FOUND (R317 to R323, R342, R351, R389, R393, R512, R513). Where the
rules leave it open it follows notes/assumptions/58. -/
def Obligations.CollectivesAdmitted : Prop :=
  (∀ (env : Env) (c : Coll) (members : Nat),
    let before (s : State) : State := s.takeEnv env
    let read (u : State) (q : Fetched) : State × (Answer ⊕ Coll × Nat) := { u with nextColl := u.nextColl + 1 }.readColl q.paddock q.cmd.arg u.nextColl
    let v (u : State) (q : Fetched) : State := (read u q).1
    let sound (u : State) (q : Fetched) : Prop := (read u q).2 = .inr (c, members) ∧ ∀ x ∈ (v u q).collFaults c members, x = false
    let slots (u : State) (q : Fetched) : Prop := c.kind ≠ 1 ∧ c.kind ≠ 3 ∨ (v u q).field (.wteBuf c.paddock) 0 12 ≠ 0
    let own (u : State) (q : Fetched) : Prop := (v u q).collForeign c members = false
    (Answers (.collective env) before 0x20 (fun u q => sound u q ∧ slots u q ∧ own u q ∧ c.chunks ≠ 0 ∧ (v u q).colls.length < 256)
      fun u q _ => ((v u q).admitColl c, {})) ∧
    (∀ k, Answers (.collective env) before 0x20 (fun u q => (read u q).2 = .inr (c, members) ∧ ((v u q).collFaults c members)[k]? = some true ∧
        ∀ j < k, ((v u q).collFaults c members)[j]? = some false)
      fun u q _ => (v u q, { result := 3, note := 0x20, detail := k + 1 })) ∧
    (Answers (.collective env) before 0x20 (fun u q => sound u q ∧ ¬ slots u q) fun u q _ => (v u q, { result := 1, note := 0x12 })) ∧
    (Answers (.collective env) before 0x20 (fun u q => sound u q ∧ slots u q ∧ ¬ own u q) fun u q _ => (v u q, { result := 1, note := 0x14 })) ∧
    (Answers (.collective env) before 0x20 (fun u q => sound u q ∧ slots u q ∧ own u q ∧ c.chunks = 0)
      fun u q _ => ((v u q).finishEmpty c, { note := 0x01 })) ∧
    (Answers (.collective env) before 0x20 (fun u q => sound u q ∧ slots u q ∧ own u q ∧ c.chunks ≠ 0 ∧ 256 ≤ (v u q).colls.length)
      fun u q _ => (v u q, { result := 2, note := 0x18 })) ∧
    (∀ a, Answers (.collective env) before 0x20 (fun u q => (read u q).2 = .inl a) fun u q _ => (v u q, a))) ∧
  (∀ (s : State) (p desc id : Nat),
    ((s.readOperand p desc 128).2 = none → (s.readColl p desc id).2 = .inl { result := 2, note := 0x21 }) ∧
    (∀ bs v, s.readOperand p desc 128 = (v, some bs) →
      let members := bits (recordWord bs 1) 0 48
      let bytes := 4 * (bits (recordWord bs 0) 28 12 + 1)
      (v.belongs p members bytes = false → (s.readColl p desc id).2 = .inl { result := 1, note := 0x14 }))) ∧
  (∀ (s : State) (p t : Nat), s.tetherUsable p t = true ↔
    (s.tether t).paddock = p ∧ (s.tether t).state ≠ .closed ∧
      ((s.tether t).state = .opening → s.staleBit = false ∧ (s.tether t).peerStale = false)) ∧
  (let named (u : State) (q : Fetched) : Option Coll := u.colls.find? fun x => decide (x.paddock = q.paddock) && decide (x.descDpa.toNat = q.cmd.arg)
   (∀ c, Answers .collAbort id 0x21 (fun u q => named u q = some c)
     fun u _ _ => ({ u with colls := u.colls.map fun y => { y with aborting := y.aborting || decide (y.id = c.id) } }, { later := true })) ∧
   (Answers .collAbort id 0x21 (fun u q => named u q = none ∧ ∃ x ∈ u.colls, x.descDpa.toNat = q.cmd.arg)
     fun u _ _ => (u, { result := 1, note := 0x14 })) ∧
   (Answers .collAbort id 0x21 (fun u q => ∀ x ∈ u.colls, x.descDpa.toNat ≠ q.cmd.arg) fun u _ _ => (u, { result := 2, note := 0x19 })))

/-- READY_WORD_POLL, COLLECTIVE_START and COLLECTIVE_DEADLINE complete: a ready word at or above READY_COUNT makes the collective
ready; a ready one with no earlier overlapping one incomplete takes w = min(WINDOW, SLOTS) slots in admission order, and an
RS_UPDATE reports L and w on the tether of each peer; one not complete by the tick of stride a + DEADLINE raises EVT_WTE_LATE
once and sets LATE (R321, R323, R324, R340, R341). CHUNK_SEND and PERMUTE_HOLD_RELEASE complete. A started RS_UPDATE sends its
next chunk as FP32 to the next rank once that rank has reported and the chunk lies in its window; an ALL_GATHER writes its own
copy first and then sends to the others, with the version word in chunk 0; what may not be sent waits. A permute that has
nothing left to do ends; a held chunk of it is written once its destination is free (R322 to R325, R336, R338, R339). Where
the rules leave it open it follows notes/assumptions/49 and 50. -/
def Obligations.CollectivesRun : Prop :=
  (
    ∀ (s : State) (id : Nat) (c : Coll), s.isRunning = true → s.coll id = some c →
      let share := s.field (.wteBuf c.paddock) 0 12
      let w := min c.window share
      let takes := c.kind = 1 ∨ c.kind = 3
      let free := ¬ takes ∨ (s.slotQueueAhead c = false ∧ s.slotsTaken c.paddock + w ≤ share)
      (c.isReady = true → exec (.readyWordPoll id) s = .next s) ∧
      (c.isReady = false → ∀ v x, s.wteNat c.paddock c.ready.toNat 4 = (v, some x) →
        (c.readyCount.toNat ≤ x → exec (.readyWordPoll id) s = .next (v.modColl id fun c => { c with isReady := true })) ∧
        (x < c.readyCount.toNat → exec (.readyWordPoll id) s = .next v)) ∧
      ((c.isReady = false ∨ c.started = true ∨ s.collBlocked c = true ∨ ¬ free) → exec (.collectiveStart id) s = .next s) ∧
      (c.isReady = true → c.started = false → s.collBlocked c = false → free →
        ∃ t, exec (.collectiveStart id) s = .next t ∧ t.coll id = some { c with started := true, slots := if c.kind = 1 ∨ c.kind = 3 then w else 0 } ∧
          t.mem = s.mem ∧ t.hbm = s.hbm ∧ (c.kind = 1 → ∀ m ∈ c.peersOf,
            (c.tag.toNat, (BitVec.ofNat 32 c.low, BitVec.ofNat 16 w)) ∈ (t.tether m.2).tagsDue)) ∧
      ((c.deadline = 0 ∨ c.fLate = true ∨ s.stride < c.admitted + c.deadline) → exec (.collectiveDeadline id) s = .next s) ∧
      (c.deadline ≠ 0 → c.fLate = false → c.admitted + c.deadline ≤ s.stride →
        ∃ t, exec (.collectiveDeadline id) s = .next t ∧ (∃ d, t.coll id = some d ∧ d.fLate = true) ∧
          (bit c.raised 2 = false → ∃ e ∈ t.gleaner.arriving, e.cls = 5 ∧ e.code = 3 ∧ bits e.payload 0 16 = c.deadline % 2 ^ 16))
  ) ∧
  (
    (∀ (s : State) (id : Nat) (env : Env) (c : Coll), s.isRunning = true → s.coll id = some c →
      let e := s.takeEnv env
      let r := (c.rank + c.sendJ) % c.count
      let next (first : Nat) (c : Coll) : Coll := if c.sendJ + 1 < c.count then { c with sendJ := c.sendJ + 1 } else { c with sendC := c.sendC + 1, sendJ := first }
      let may := ∃ m ∈ c.peers, m.1 = r ∧ c.sendC < m.2.1 + m.2.2
      (c.started = false → exec (.chunkSend id env) s = .next e) ∧
      (c.started = true → c.kind = 1 → c.sendC < c.chunks → 2 ≤ c.count →
        (may → let q := e.gradientWire c (r * c.shard + 2048 * c.sendC)
          exec (.chunkSend id env) s = .next (((q.1.stageChunk (c.tetherTo r)
            { collTag := c.tag, chunk := c.sendC, payload := fpBytes q.2 }).modColl c.id (next 1)).settleColl id)) ∧
        (¬ may → exec (.chunkSend id env) s = .next (e.settleColl id))) ∧
      (c.started = true → c.kind = 2 → c.sendC < c.chunks →
        let q := e.gatherCodes c c.sendC
        let v := if c.sendC = 0 then q.1.readVersion c else (q.1, 0)
        (c.sendJ = 0 → exec (.chunkSend id env) s = .next (((v.1.takeGather c c.rank c.sendC v.2 (q.2.map bfToFp)).modColl c.id (next 0)).settleColl id)) ∧
        (c.sendJ ≠ 0 → may → exec (.chunkSend id env) s = .next (((v.1.stageChunk (c.tetherTo r)
          { collTag := c.tag, chunk := c.sendC, version := v.2, payload := fpBytes (q.2.map bfToFp) }).modColl c.id (next 0)).settleColl id)) ∧
        (c.sendJ ≠ 0 → ¬ may → exec (.chunkSend id env) s = .next (e.settleColl id))) ∧
      (c.started = true → c.kind = 3 → exec (.chunkSend id env) s =
        .next ((if c.isComplete then e.endColl id false else e.sendPermute c).settleColl id))) ∧
    (∀ (s : State) (id i : Nat) (c : Coll) (h : HeldChunk), s.isRunning = true → s.coll id = some c →
      let free (h : HeldChunk) : Bool := !rangesMeet [(h.dest.toNat, h.bytes.length)] c.unread
      c.held[i]? = some h → free h = true → (∀ j < i, ∀ x, c.held[j]? = some x → free x = false) →
      exec (.permuteHoldRelease id) s = .next ((s.modColl id fun c => { c with held := c.held.eraseIdx i }).writePermute c h)) ∧
    (∀ (t : Int) (x : BitVec 16), wireValue t x = if bits x 7 8 = 255 ∧ bits x 0 7 ≠ 0 then 0x7FC00000 else toFp ((bf (bfFlush x)).scale t))
  )

/-- OWNER_UPDATE completes on a chunk of a started RS_UPDATE to which P - 1 contributions have been added: the own gradient is
added last, each element meets the tests of R332 in order, and the chunk is complete. The first contribution is written and
each later one added with one rounding, those of one aclk in ascending rank; a record keeps its GROUP and FLAGS; the CRC of
R335 over the nine digits is 0x29B1 (R326, R327, R331 to R333, R335). -/
def Obligations.OwnerUpdates : Prop :=
  (∀ (s : State) (id chunk : Nat) (env : Env) (c : Coll), s.isRunning = true → s.coll id = some c → c.started = true → c.kind = 1 →
    c.low ≤ chunk → chunk < c.chunks → chunk < c.low + c.slots →
    let x := Tbl.get {} c.chunkSlots chunk
    x.updated = false → x.arrived = c.pM1 →
    let q := (s.takeEnv env).gradientWire c (c.rank * c.shard + 2048 * chunk)
    let u := q.1.latchGroups c.paddock c.step
    let en : UpdateEnv := { stale := (u.pdk c.paddock).versionStale, history := decide (u.field (.mtgPolicy c.paddock) 24 1 = 1), amax := (u.entry c.gsheaf c.gentry).histMax, gscale := c.gscale, key := c.key, step := c.step, latched := (u.pdk c.paddock).latched }
    let sums := (x.settle.addWire q.2).sums
    exec (.ownerUpdate id chunk env) s = .next (((List.range 256).foldl (fun v k =>
      v.updateUnit c en (2048 * chunk + 8 * k) ((List.range 8).map fun i => Tbl.get 0 sums (8 * k + i))) u).closeChunk id chunk)) ∧
  (∀ (x : ChunkSlot) (xs : List (BitVec 32)) (i : Nat), i < xs.length →
    (x.addWire xs).arrived = x.arrived + 1 ∧
    Tbl.get 0 (x.addWire xs).sums i = if x.arrived = 0 then xs.getD i 0 else fpAdd (Tbl.get 0 x.sums i) (xs.getD i 0)) ∧
  (∀ (x : ChunkSlot) (now r q : Nat) (xs ys : List (BitVec 32)), x.at_ ≠ now → x.waiting = [] → r < q →
    let both := ((x.arrive now q ys).arrive now r xs).settle
    both.arrived = x.arrived + 2 ∧ both.sums = ((x.addWire xs).addWire ys).sums ∧
    ((x.arrive now r xs).arrive now q ys).settle.sums = both.sums) ∧
  (∀ (e : UpdateEnv) (i : Nat) (r : BitVec 64) (v : BitVec 32),
    let g := Tbl.get 0 e.latched (bits r 48 8)
    let nan := bits v 23 8 = 255 ∧ bits v 0 23 ≠ 0
    let infinite := bits v 23 8 = 255 ∧ bits v 0 23 = 0
    let dropped (k : Nat) : Prop := e.element i r v = ⟨k, true, r⟩
    let live := e.stale = false ∧ bit r 57 = false ∧ bit g 80 = false ∧ groupInvalid g = false
    (e.stale = true → dropped 1) ∧
    (e.stale = false → bit r 57 = true → dropped 2) ∧
    (e.stale = false → bit r 57 = false → (bit g 80 = true ∨ groupInvalid g = true) → dropped 3) ∧
    (live → (nan ∨ (infinite ∧ e.history = false)) → dropped 4) ∧
    (live → ¬ nan → ¬ infinite → (updateOf e.gscale g r v).isFinite = false → dropped 6) ∧
    (live → ¬ nan → ¬ infinite → (updateOf e.gscale g r v).isFinite = true →
      e.element i r v = ⟨7, false, newRecord e.key e.step i r (updateOf e.gscale g r v)⟩) ∧
    (live → infinite → e.history = true →
      let a := setBits (bfToFp (bfFlush e.amax)) 31 1 (bits v 31 1)
      e.element i r v = if (updateOf e.gscale g r a).isFinite then ⟨5, false, newRecord e.key e.step i r (updateOf e.gscale g r a)⟩ else ⟨5, true, r⟩)) ∧
  (∀ (key : BitVec 128) (step : BitVec 28) (i : Nat) (r : BitVec 64) (u : Updated), bits (newRecord key step i r u) 48 16 = bits r 48 16) ∧
  crc16 [0x31, 0x32, 0x33, 0x34, 0x35, 0x36, 0x37, 0x38, 0x39] = 0x29B1

/-- BRIDLE_INSERT, BRIDLE_REMOVE, BRIDLE_LIFE_WRITE, BRIDLE_WEAR and BRIDLE_EOL complete. A module that passes its four checks is
LIVE and its enabled ports train where the site's reference clock runs, any other is DARK with EVT_BRIDLE_AUTH and SECURITY; a
removed one leaves its ports DOWN. An optical module's count rises only with its lasers on and the time that passes, never
falls, and is written back with its tag after 3,600 s or when a port has been disabled; at 100 % of RATED_H EVT_BRIDLE_WEAR
comes once, and at the first tick from 110 % EVT_BRIDLE_EOL with its seconds (R374 to R377, R498, R507). Where the rules leave
it open it follows notes/assumptions/10 and 56. -/
def Obligations.BridleModules : Prop :=
  (∀ (f : Fuses) (found : Module),
    let w := found.identity
    moduleFailure f found = 0 ↔ identityPart w 96 32 = kmac256 (moduleKey f) (identityPart w 0 96) 32 "" ∧ identityField w 0 2 = 1 ∧
      (identityField w 2 1 = 1 ∨ identityField w 2 1 = 2) ∧ found.challengeOk = true ∧
      found.lifeTag = lifeTagOf f w found.seconds found.writes) ∧
  ∀ (s : State) (m : Nat) (seconds : BitVec 32), s.isRunning = true → m < 6 →
    let x := s.site m
    let lit : Prop := x.portOff = true ∨ ∃ n, n / 4 = m ∧ (1 ≤ (s.port n).state ∧ (s.port n).state ≤ 3)
    let more := (seconds.toNat - x.seconds.toNat) * 1000000000
    let counts : Prop := x.state = 2 ∧ x.kind = 1 ∧ x.seconds.toNat ≤ seconds.toNat ∧ lit ∧ x.countedAt + more ≤ s.now + 1000000000
    ∀ u : State, (counts ∧ u = s.modSite m fun x => { x with seconds := seconds, countedAt := x.countedAt + more }) ∨ (¬ counts ∧ u = s) →
    let y := u.site m
    let live := y.state = 2 ∧ y.kind = 1
    let used (percent : Nat) : Prop := live ∧ 36 * percent * y.ratedH.toNat ≤ y.seconds.toNat
    let failed (found : Module) : Nat := moduleFailure s.sec.fuses found
    (∀ found : Module, x.state ≠ 0 → exec (.bridleInsert m found) s = .next s) ∧
    (∀ found : Module, x.state = 0 → failed found = 0 → ∃ t, exec (.bridleInsert m found) s = .next t ∧ (t.site m).state = 2 ∧
      (t.site m).kind.toNat = identityField found.identity 2 1 ∧ (t.site m).ratedH.toNat = identityField found.identity 24 2 ∧
      (t.site m).wear = 0 ∧ (t.site m).seconds = (if identityField found.identity 2 1 = 1 then found.seconds else 0) ∧
      (t.site m).clocked = found.refclk ∧ t.gleaner = s.gleaner ∧
      (∀ n, n / 4 = m → s.portEnabled n = true → found.refclk = true → (t.port n).state = 1) ∧
      (∀ n, n / 4 ≠ m ∨ found.refclk = false → t.port n = s.port n)) ∧
    (∀ found : Module, x.state = 0 → failed found ≠ 0 → ∃ t, exec (.bridleInsert m found) s = .next t ∧ (t.site m).state = 3 ∧ t.ports = s.ports ∧
      t.host.security = true ∧ ∃ e ∈ t.gleaner.arriving, e.cls = 6 ∧ e.code = 7 ∧ bits e.payload 0 3 = m ∧
        bits e.payload 8 3 = failed found ∧ bits e.payload 64 64 = identityField found.identity 4 8) ∧
    (x.state = 0 → exec (.bridleRemove m) s = .next s) ∧
    (x.state ≠ 0 → Tbl.sorted s.ports = true → Tbl.sorted s.sites = true → ∃ t, exec (.bridleRemove m) s = .next t ∧ t.site m = {} ∧
      ∀ n, n / 4 = m → (t.port n).state = 0 ∧ (t.port n).laneOk = 0) ∧
    (live → (y.portOff = true ∨ y.written.toNat + 3600 ≤ y.seconds.toNat) →
      exec (.bridleLifeWrite m seconds) s = .next (u.modSite m fun y => { y with
        written := y.seconds, writes := y.writes + 1, portOff := false,
        lifeTag := lifeTagOf s.sec.fuses ((List.range 16).map fun j => Tbl.get 0 y.identity j) y.seconds (y.writes + 1) })) ∧
    (¬ live ∨ (y.portOff = false ∧ y.seconds.toNat < y.written.toNat + 3600) → exec (.bridleLifeWrite m seconds) s = .next u) ∧
    (used 100 → y.wear = 0 → exec (.bridleWear m seconds) s = .next ((u.modSite m fun y => { y with wear := 1 }).raise (srcPort (4 * m)) (6, 8)
      (pack 128 [(0, 3, m), (32, 32, y.seconds.toNat), (64, 16, y.ratedH.toNat)]))) ∧
    ((y.wear ≠ 0 ∨ ¬ used 100) → exec (.bridleWear m seconds) s = .next u) ∧
    ((y.wear = 2 ∨ ¬ used 100) → exec (.bridleEol m seconds) s = .next u) ∧
    (y.wear = 1 → (s.position ≠ 0 ∨ ¬ used 110) → exec (.bridleEol m seconds) s = .next u) ∧
    (used 110 → y.wear = 1 → s.position = 0 → ∃ t, exec (.bridleEol m seconds) s = .next t ∧
      ∃ e ∈ t.gleaner.arriving, e.cls = 6 ∧ e.code = 9 ∧ bits e.payload 0 3 = m ∧ bits e.payload 32 32 = y.seconds.toNat)

/-- GLEANER_RECORD, GLEANER_RING_WRITE and EVT_READ_INDEX_WRITE complete. A record is kept whole up to RATE of its class in its
stride, and then coalesced into the summary of its class and source. The records of earlier strides leave in the order of R43:
they stand sorted by it, and records of equal time and source keep theirs. A record is written at WRITE, or dropped with
LOG_DROP when the ring is full; READ takes a value within the ring's fill (R43, R44, R475, R481 to R485). Where the rules
leave it open it follows notes/assumptions/46. -/
def Obligations.EventRecords : Prop :=
  (∀ (s : State) (e : Event) (rest : List Event), s.isRunning = true → s.gleaner.arriving = e :: rest →
    let g := { s.gleaner with arriving := rest }
    let kept := (s.gleaner.kept.filter fun x => decide (x.cls = e.cls) && decide (x.code ≠ 0xFFFF) && x.sameStride e).length
    let mine (x : Summary) : Bool := decide (x.cls = e.cls) && decide (x.classWide = false) && decide (x.source = e.source)
    (kept < s.field (.evtRate e.cls.toNat) 0 12 → exec .gleanerRecord s = .next { s with gleaner := { g with kept := g.kept ++ [e] } }) ∧
    (s.field (.evtRate e.cls.toNat) 0 12 ≤ kept → s.gleaner.summaries.any mine = true → exec .gleanerRecord s = .next { s with gleaner := { g with
      summaries := g.summaries.map fun x => if mine x then { x with last := e.gtc, count := satAdd x.count 1 } else x } }) ∧
    (s.field (.evtRate e.cls.toNat) 0 12 ≤ kept → s.gleaner.summaries.any mine = false →
      (s.gleaner.summaries.filter fun x => !x.classWide).length < 1024 → exec .gleanerRecord s = .next { s with gleaner := { g with
        summaries := g.summaries ++ [{ cls := e.cls, source := e.source, classWide := false, epoch := e.epoch, first := e.gtc, last := e.gtc, count := 1, code := e.code }] } })) ∧
  (∀ (s : State), s.isRunning = true →
    let old (e : Event) : Bool := decide (e.epoch < s.time.loads) || decide (e.gtc.toNat / 100000 + 1 ≤ s.stride)
    let out := sortEvents (s.gleaner.kept.filter old)
    let left := s.gleaner.kept.filter fun e => !old e
    (s.field .ringCtl 63 1 = 1 → exec .gleanerRingWrite s = .next ((s.gleaner.early ++ out).foldl State.ringPut
      { s with gleaner := { s.gleaner with kept := left, early := [] } })) ∧
    (s.field .ringCtl 63 1 ≠ 1 → s.gleaner.early.length + out.length ≤ 256 →
      exec .gleanerRingWrite s = .next { s with gleaner := { s.gleaner with kept := left, early := s.gleaner.early ++ out } })) ∧
  (∀ (xs : List Event), (sortEvents xs).Perm xs ∧ (sortEvents xs).Pairwise (fun x y => y.before x = false) ∧
    ∀ (src : BitVec 32) (t : BitVec 64) (k : Nat),
      let same (e : Event) : Bool := decide (e.source = src) && decide (e.gtc = t) && decide (e.epoch = k)
      (sortEvents xs).filter same = xs.filter same) ∧
  (∀ (s : State) (e : Event),
    let n := 2 ^ s.field .ringCtl 56 5
    let fill := (s.gleaner.write - s.gleaner.read).toNat
    (fill = n → ∃ t, s.ringPut e = t ∧ t.gleaner = { s.gleaner with dropped := s.gleaner.dropped + 1 } ∧ t.host.logDrop = true ∧
      t.mem = s.mem ∧ t.hbm = s.hbm) ∧
    (fill ≠ n → (s.ringPut e).gleaner.write = s.gleaner.write + 1 ∧ (s.ringPut e).gleaner.written = s.gleaner.written + 1)) ∧
  (∀ (s : State) (v : BitVec 32), s.isRunning = true →
    let n := 2 ^ s.field .ringCtl 56 5
    ∃ t, exec (.evtReadIndexWrite v) s = .next t ∧ t.regs = s.regs ∧ t.shadows = s.shadows ∧ t.mem = s.mem ∧
      t.gleaner = { s.gleaner with read := if (s.gleaner.write - v).toNat ≤ n then v else s.gleaner.read })

/-- REGISTER_WRITE, HOST_REGISTER_READ, APERTURE_ACCESS and MTG_ENTRY_WRITE complete. An access of BAR0 that names no register or
has another size than 4 or 8 raises EVT_REG_ACCESS and reads zero; a write of RWS fields lands in the shadow, its halves
combine, and the value in force stays; a page that is not mapped reads zero, drops writes and raises EVT_APT_UNMAPPED, and one
without WRITE drops writes; a Martingale entry takes writes only while it is closed (R8, R11, R12, R97, R99, R381, R382,
R489). Where the rules leave it open it follows notes/assumptions/39, 40 and 64. -/
def Obligations.HostAccesses : Prop :=
  (∀ (s : State) (offset size : Nat) (v : BitVec 64), s.isRunning = true → s.host.up = true → offset < 0x4000000 →
    let sized := (size = 4 ∨ size = 8) ∧ offset % size = 0
    let told (write : Nat) : State := s.raise srcHost (7, 1) (pack 128 [(0, 27, offset), (27, 1, write), (32, 4, size)])
    let answered (t : State) (bs : List Byte) : State := { t with host := { t.host with data := bs, poisoned := false } }
    (¬ sized ∨ Reg.ofOffset (offset / 8 * 8) = none →
      exec (.registerWrite offset size v) s = .next (told 1) ∧
      exec (.hostRegisterRead offset size) s = .next (answered (told 0) (List.replicate size 0))) ∧
    (∀ r, Reg.ofOffset (offset / 8 * 8) = some r →
      (offset % 8 = 0 → size = 8 → exec (.hostRegisterRead offset size) s = .next (answered s (leBytes 8 (s.readReg 0 r).toNat))) ∧
      (offset % 4 = 0 → size = 4 →
        exec (.hostRegisterRead offset size) s = .next (answered s (leBytes 4 (bits (s.readReg 0 r) (8 * (offset % 8)) 32)))) ∧
      (offset % 8 = 0 → size = 8 → exec (.registerWrite offset size v) s = .next ((s.noteBar r (BitVec.allOnes 64)).writeReg r (BitVec.allOnes 64) v)) ∧
      (offset % 4 = 0 → size = 4 →
        let mask := maskOf (8 * (offset % 8)) 32
        exec (.registerWrite offset size v) s = .next ((s.noteBar r mask).writeReg r mask (BitVec.ofNat 64 (v.toNat <<< (8 * (offset % 8)))))))) ∧
  (∀ (s : State) (r : Reg) (mask v : BitVec 64), Tbl.sorted s.shadows = true →
    let m := mask &&& ~~~s.deviceBits r
    let t := s.writeShadow r mask v
    t.shadow r = (if r.rws &&& m = 0 then s.shadow r else ((s.shadow r &&& ~~~m) ||| (v &&& m)) &&& r.rws) ∧ t.regs = s.regs ∧
    ∀ q, q.offset ≠ r.offset → t.shadow q = s.shadow q) ∧
  (∀ (s : State) (offset n : Nat) (data : Option (List Byte)) (env : Env), s.isRunning = true → s.host.up = true →
    n ≤ 0x200000 - offset % 0x200000 →
    let e := s.takeEnv env
    let page := offset / 0x200000
    let r := s.reg (.apt page)
    let a := bits r 21 27 * 0x200000 + offset % 0x200000
    (bit r 63 = false → ∃ t, exec (.apertureAccess offset n data env) s = .next t ∧ t.mem = e.mem ∧ t.hbm = e.hbm ∧ t.regs = e.regs ∧
      (data = none → t.host.data = List.replicate n 0) ∧
      ∃ x ∈ t.gleaner.arriving, x.cls = 7 ∧ x.code = 2 ∧ bits x.payload 0 13 = page % 8192) ∧
    (bit r 63 = true → bit r 62 = false → data ≠ none → exec (.apertureAccess offset n data env) s = .next e) ∧
    (∀ bs, bit r 63 = true → bit r 62 = true → data = some bs → bs.length = n →
      exec (.apertureAccess offset n data env) s = .next (e.pageWrite (bits r 56 4) a bs)) ∧
    (bit r 63 = true → data = none → ∃ u bad bs v, e.pagePoisoned offset n = (u, bad) ∧ u.pageRead (bits r 56 4) a n = (v, bs) ∧
      exec (.apertureAccess offset n none env) s = .next { v with host := { v.host with data := bs, poisoned := bad } })) ∧
  (∀ (s : State) (m i w : Nat) (v : BitVec 64), s.isRunning = true → s.sheafFailed m = false → s.isolated m = false →
    Tbl.sorted s.sheaves = true → Tbl.sorted (s.sheaf m).entries = true →
    let x := s.entry m i
    ∃ t, exec (.mtgEntryWrite m i w v) s = .next t ∧ t.mem = s.mem ∧ t.regs = s.regs ∧ t.tiles = s.tiles ∧
      (x.isOpen = true → t.entry m i = x) ∧
      (x.isOpen = false → w = 5 → bits v 56 8 ≠ 0x80 → t.entry m i = { x with tExp := BitVec.ofNat 8 (bits v 56 8) }) ∧
      (x.isOpen = false → w = 5 → bits v 56 8 = 0x80 → t.entry m i = x) ∧
      (x.isOpen = false → w = 4 → t.entry m i = { x with ctl := v &&& fieldMask [(40, 8), (18, 14)] }) ∧
      (∀ j, j ≠ i → t.entry m j = s.entry m j))

/-- The debug paths complete: a GO of DBG_MEM_CTL begins an access while no other is under way, and DEBUG_MEM_DONE ends it; a GO
of DBG_HALT asks for the stop of a tile; a GO of DBG_FORCE_ADDR puts VALUE into the register at OFFSET; SCAN works only with
PORT_EN. Each sets TOUCHED of the paddocks it reaches (R439, R487, R488). Where the rules leave it open it follows
notes/assumptions/37. -/
def Obligations.DebugPaths : Prop :=
  ∀ (s : State), s.isRunning = true →
    let touched (t : State) (ps : List Nat) : Prop := ∀ p ∈ ps, p < 16 → bit t.sec.touched p = true
    (exec .debugMemDone s = .next { s with debugMem := none }) ∧
    (∀ (v : BitVec 64) (env : Env),
      let u := ((s.takeEnv env).noteBar .dbgMemCtl (BitVec.allOnes 64)).writePlain .dbgMemCtl (BitVec.allOnes 64) v
      (bit v 63 = false → exec (.debugMem v env) s = .next u) ∧
      (bit v 63 = true → s.debugMem ≠ none → exec (.debugMem v env) s = .next u) ∧
      (bit v 63 = true → s.debugMem = none → ∃ t, exec (.debugMem v env) s = .next t ∧ t.debugMem = some (u.reg .dbgMemCtl) ∧
        touched t (u.debugReaches (bits (u.reg .dbgMemCtl) 6 42 * 64)))) ∧
    (∀ (v : BitVec 64), Tbl.sorted s.regs = true →
      let n := bits v 0 15
      let u := (s.noteBar .dbgHalt (BitVec.allOnes 64)).writePlain .dbgHalt (BitVec.allOnes 64) v
      (bit v 63 = false → exec (.debugHalt v) s = .next u) ∧
      (bit v 63 = true → n < 25600 → ∃ t, exec (.debugHalt v) s = .next t ∧ t.sec.halt = true ∧ touched t (s.sheafPaddocks (n / 64)) ∧
        t.progs = s.progs ++ [{ kind := .halt, paddock := s.tilePaddock n, queue := 0, stride := s.stride, images := [{ tile := n }], reply := 0 }]) ∧
      (bit v 63 = true → 25600 ≤ n → ∃ t, exec (.debugHalt v) s = .next t ∧ t.sec.halt = true ∧ touched t [0] ∧ t.progs = s.progs)) ∧
    (∀ (v : BitVec 64), Tbl.sorted s.regs = true →
      let u := (s.noteBar .dbgForceAddr (BitVec.allOnes 64)).writePlain .dbgForceAddr (BitVec.allOnes 64) v
      let x := { u with sec := { u.sec with force := true } }
      (bit v 63 = false → exec (.debugForce v) s = .next u) ∧
      (∀ r, bit v 63 = true → Reg.ofOffset (bits v 0 27) = some r →
        exec (.debugForce v) s = .next ((x.debugUse 2 (x.regPaddocks r)).forceReg r (s.reg .dbgForceValue))) ∧
      (bit v 63 = true → Reg.ofOffset (bits v 0 27) = none → exec (.debugForce v) s = .next (x.debugUse 2 [0]))) ∧
    (s.portEn = false → exec .debugScan s = .next s) ∧
    (s.portEn = true → ∃ t, exec .debugScan s = .next t ∧ t.sec.scan = true ∧ touched t (List.range 16) ∧ t.tiles = s.tiles ∧ t.mem = s.mem)

/-- INPUT_EXCURSION, INPUT_EXCURSION_END, INPUT_FAIL, HOST_LINK_TRAIN and HOST_RESET complete. An input outside 40 V to 50 V
raises EVT_PWR_INPUT once until it is back; below 38 V or above 53 V the part is held with INPUT. The monitor goes on while
the part is held or asleep, without an event. A link trained below x8 at the highest rate raises EVT_HOST_LINK; a host reset
drops replies and copies and leaves the queues to be disabled at the next tick (R379, R380, R440, R458, R460, R473; both
limits of an excursion, notes/assumptions/20). Where the rules leave it open it follows notes/assumptions/20 and 52. -/
def Obligations.InputAndHostLink : Prop :=
  (∀ (s : State) (mv : Nat), s.isRunning = false →
    let seen (out : Bool) : State := { s with power := { s.power with inputMv := BitVec.ofNat 16 mv, excursion := out } }
    (mv < 40000 ∨ 50000 < mv → exec (.inputExcursion mv) s = .next (seen true) ∧ exec (.inputExcursionEnd mv) s = .next s) ∧
    (40000 ≤ mv → mv ≤ 50000 → exec (.inputExcursion mv) s = .next s ∧ exec (.inputExcursionEnd mv) s = .next (seen false)) ∧
    (mv < 38000 ∨ 53000 < mv → exec (.inputFail mv) s = .next (seen true)) ∧
    (38000 ≤ mv → mv ≤ 53000 → exec (.inputFail mv) s = .next s)) ∧
  ∀ (s : State) (mv width rate : Nat), s.isRunning = true →
    let seen := { s with power := { s.power with inputMv := BitVec.ofNat 16 mv } }
    let outside := mv < 40000 ∨ 50000 < mv
    let told := { s with power := { s.power with inputMv := BitVec.ofNat 16 mv, excursion := true } }.raise srcPower (9, 1) (pack 128 [(0, 16, mv)])
    (¬ outside → exec (.inputExcursion mv) s = .next s) ∧
    (outside → s.power.excursion = false → exec (.inputExcursion mv) s = .next told) ∧
    (outside → s.power.excursion = true → exec (.inputExcursion mv) s = .next seen) ∧
    (¬ outside → exec (.inputExcursionEnd mv) s = .next { s with power := { s.power with inputMv := BitVec.ofNat 16 mv, excursion := false } }) ∧
    (outside → exec (.inputExcursionEnd mv) s = .next s) ∧
    (mv < 38000 ∨ 53000 < mv → ∀ u, (s.power.excursion = true ∧ u = seen) ∨ (s.power.excursion = false ∧ u = told) →
      exec (.inputFail mv) s = .next { u with boot := { s.boot with power := .held, failCode := 0x08 } }) ∧
    (38000 ≤ mv → mv ≤ 53000 → exec (.inputFail mv) s = .next s) ∧
    (let trained := { s with host := { s.host with up := true, width := width, rate := rate } }
     (width = 8 → rate = 3 → exec (.hostLinkTrain width rate) s = .next trained) ∧
     ((width = 8 ∨ width = 4) → 1 ≤ rate → rate ≤ 3 → ¬ (width = 8 ∧ rate = 3) → exec (.hostLinkTrain width rate) s = .next
       (trained.raise srcHost (7, 3) (pack 128 [(0, 4, width), (4, 3, rate), (7, 1, 0)])))) ∧
    (∃ t, exec .hostReset s = .next t ∧ t.host.up = false ∧ t.host.copies = [] ∧ t.host.slotsRead = [] ∧ t.host.resetPending = true ∧
      t.host.fetched = s.host.fetched ∧ (∀ r ∈ t.host.replies, r.dropped = true) ∧ t.host.replies.length = s.host.replies.length ∧
      t.host.fault = true ∧ t.mem = s.mem ∧ t.regs = s.regs ∧ ∃ e ∈ t.gleaner.arriving, e.cls = 7 ∧ e.code = 3)

/-- The management port answers in every state of power (R503): REG_READ gives eight bytes, of a held or sleeping part those of
the registers it still gives; CAP_WRITE sets the shadow of CAP_W and arms GLOBAL; HOLD, SLEEP and RESTART stop the part; a
signed token for this part advances the lifecycle; FLASH_WRITE writes while the part is held; the store's request is fetched
and answered; any other opcode is refused. While the part is held or asleep no other command but the power-up reset and the
readings of the input changes anything (R426, R427, R432, R433, R459, R460, R502 to R506). Where the rules leave it open it
follows notes/assumptions/62. -/
def Obligations.ManagementPort : Prop :=
  (∀ (s : State) (c : Instr), s.isRunning = false →
    (match c with
     | .powerUpReset _ | .regRead _ | .capWrite _ | .mgtRestart | .hold | .sleep | .lifecycle _ | .flashWrite _ _ | .rpsFetch | .rpsReply _
     | .mgtReservedRequest _ | .inputExcursion _ | .inputExcursionEnd _ | .inputFail _ => False
     | _ => True) → exec c s = .next s) ∧
  (∀ (s : State),
    let done (t : State) (bs : List Byte) : Host.Outcome State Fault Refusal := .next { t with mgt := 0 :: bs }
    let refused : Host.Outcome State Fault Refusal := .next { s with mgt := [1] }
    let held (code : BitVec 8) (t : State) : State := if s.isRunning then { t with boot := { t.boot with power := .held, failCode := code } } else t
    let asked := if s.isRunning then s.sec.request else none
    (∀ o, exec (.regRead o) s = if 0x4900000 ≤ o then refused else done s (leBytes 8
      (match (if o % 8 = 0 then Reg.ofOffset o else none) with
       | some r => if s.isRunning || r.readWhileHeld then s.readReg 0 r else 0
       | none => 0).toNat)) ∧
    (∀ v : BitVec 16, ¬ (s.isRunning = true ∧ 1000 ≤ v.toNat ∧ v.toNat ≤ 2800) → exec (.capWrite v) s = refused) ∧
    (∀ v : BitVec 16, s.isRunning = true → 1000 ≤ v.toNat → v.toNat ≤ 2800 → Tbl.sorted s.shadows = true → Tbl.sorted s.regs = true →
      ∃ t, exec (.capWrite v) s = .next t ∧ t.mgt = [0] ∧ bits (t.shadow .pwrCap) 0 12 = v.toNat ∧ t.reg .pwrCap = s.reg .pwrCap ∧
        t.reg .commit = s.reg .commit ||| maskOf 16 1) ∧
    (exec .hold s = done (held 0x0A s) [] ∧ exec .mgtRestart s = done (held 0x0A s) []) ∧
    (exec .sleep s = done (if s.isRunning then { s with boot := { s.boot with power := .asleep, failCode := 0 } } else s) []) ∧
    (∀ k : Token,
      let lawful := k.verified = true ∧ k.serial = s.sec.fuses.serial ∧ s.sec.fuses.lifecycle < k.target ∧ k.target ≤ 4
      (¬ lawful → exec (.lifecycle k) s = refused) ∧
      (lawful → ∃ t, exec (.lifecycle k) s = .next t ∧ t.mgt = [0] ∧ t.sec.fuses = { s.sec.fuses with lifecycle := k.target } ∧
        t.host.security = true ∧ (k.target = 4 → t.isRunning = false) ∧ (k.target ≠ 4 → t.boot = s.boot) ∧
        ∃ e ∈ t.gleaner.arriving, e.cls = 8 ∧ e.code = 4 ∧ bits e.payload 0 3 = s.sec.fuses.lifecycle % 8 ∧ bits e.payload 3 3 = k.target)) ∧
    (∀ o bs, exec (.flashWrite o bs) s = if s.boot.power ≠ .held ∨ 256 < bs.length then refused
      else done { s with flash := bs.zipIdx.foldl (fun m b => Tbl.put none m (o + b.2) (some b.1)) s.flash } []) ∧
    (asked = none → exec .rpsFetch s = done s []) ∧
    (∀ r, asked = some r → exec .rpsFetch s = done { s with sec := { s.sec with requestRead := true } }
      ((List.range 64).map (Config.storeRequestByte r.number))) ∧
    (∀ a : StoreReply, (asked = none ∨ s.sec.requestRead = false) → exec (.rpsReply a) s = refused) ∧
    (∀ (a : StoreReply) (r : StoreRequest), asked = some r → s.sec.requestRead = true →
      let lawful := a.tagOk = true ∧ (s.sec.storeCounter = none ∨ ∃ c, s.sec.storeCounter = some c ∧ a.counter = c + 1)
      (¬ lawful → ∃ t, exec (.rpsReply a) s = .next t ∧ t.mgt = [1] ∧ t.sec = s.sec ∧ t.host.security = true ∧
        ∃ e ∈ t.gleaner.arriving, e.cls = 8 ∧ e.code = 5) ∧
      (lawful → ∃ t, exec (.rpsReply a) s = .next t ∧ t.mgt = [0] ∧ t.sec.storeCounter = some a.counter ∧
        (∀ b, r = .write b → a.bound = b → t.sec.attLimit = b ∧ t.sec.request = s.sec.nextRequest ∧
          (s.sec.attReady = false → t.sec.attReady = true ∧ t.sec.attNext = b - BitVec.ofNat 41 (2 ^ 20)) ∧
          (s.sec.attReady = true → t.sec.attNext = s.sec.attNext)))) ∧
    (∀ op, exec (.mgtReservedRequest op) s = refused))

/-- Reset and POWER_UP_RESET: right after reset the GTC is 0, every tile is IDLE, paddock 0 is ACTIVE and owns regions 0 to 7,
every other paddock is FREE, every sheaf is gated and memory is zero; a power-up reset leaves that state but for what outlasts
it, and holds the part with the code of the first step that fails. It loads the fuses with those blown since, boots the image
of slot A that the boot ROM accepts, or else that of slot B, and an image with ADVANCE raises RB_MIN. A part that runs, with
no OUTER test ended, is not reset (R10, R34, R302, R314, R404, R405, R418, R428, R429, R444, R457, R459 to R462, R464, R467,
R474). Where the rules leave it open it follows notes/assumptions/2, 5, 55, 83 and 84. -/
def Obligations.ResetState : Prop :=
  (State.reset.now = 0 ∧ State.reset.isRunning = true ∧ State.reset.pending = [] ∧ memoryOk State.reset = true ∧
    (∀ n, (State.reset.tile n).seqState = .idle ∧ (State.reset.tile n).pc = 0 ∧ ∀ i, (State.reset.tile n).s i = 0) ∧
    (State.reset.pdk 0).state = .active ∧ (∀ p, p ≠ 0 → (State.reset.pdk p).state = .free) ∧
    (∀ r < 512, State.reset.region r = if r ≤ 7 then { state := .owned, owner := 0 } else {}) ∧ (∀ m, (State.reset.sheaf m).active = false) ∧
    (∀ a, Memory.byte State.reset.mem a = 0) ∧ (∀ u, (State.reset.unit u).clear = true) ∧ (∀ r, State.reset.reg r = r.reset) ∧
    State.reset.gleaner = {} ∧ State.reset.colls = [] ∧ ∀ t, (State.reset.tether t).state = .closed) ∧
  (∀ (s : State) (b : Boot),
    (s.isRunning = true → s.boot.outer = false → exec (.powerUpReset b) s = .next s) ∧
    (s.isRunning = false → ∃ t, exec (.powerUpReset b) s = .next t ∧ t.now = 0 ∧ t.pending = s.pending ∧ t.flash = s.flash ∧
      t.tiles = [] ∧ t.sheaves = [] ∧ t.regs = [] ∧ t.shadows = [] ∧ t.masks = [] ∧ t.paddocks = [] ∧ t.regions = [] ∧ t.hbm = [] ∧ t.tethers = [] ∧
      t.colls = [] ∧ t.mem = s.mem.filter (fun c => decide (0x800000000000 ≤ c.1)) ∧
      t.power.inputMv = s.power.inputMv ∧ t.power.excursion = s.power.excursion ∧
      (let f := match b.blown with | none => s.sec.fuses | some g => blowFuses s.sec.fuses g
       let image (k : Nat) : FwImage := s.slotImage b k
       let accepted (k : Nat) (signed : Bool) : Prop := (image k).magic = 0x57464152 ∧ 2948 + (image k).length ≤ 2 ^ 20 ∧ (image k).rb ≤ 64 ∧
         leNat (shakeDigest (image k).key) = f.vh.toNat ∧ signed = true ∧ f.rbMin ≤ (image k).rb
       let A := accepted 0 b.signedA
       let B := accepted 1 b.signedB
       let heldBy (code : BitVec 8) : Prop := t.boot.power = .held ∧ t.boot.failCode = code
       (b.fuseOk = false → heldBy 0x02) ∧
       (b.fuseOk = true → f.lifecycle = 4 → heldBy 0x01) ∧
       (b.fuseOk = true → f.lifecycle ≠ 4 →
         (¬ A → ¬ B → heldBy 0x03) ∧
         (A ∨ B →
           (b.railOk = false → heldBy 0x04) ∧
           (b.railOk = true → b.bistOuter ≠ none → heldBy 0x05) ∧
           (b.railOk = true → b.bistOuter = none → b.hbmFail ≠ none → heldBy 0x06) ∧
           (b.railOk = true → b.bistOuter = none → b.hbmFail = none →
             (8 < b.sheaves.length → heldBy 0x07) ∧
             (b.sheaves.length ≤ 8 → t.boot.power = .running ∧ t.boot.failCode = 0 ∧
               (∀ k, (A ∧ k = 0) ∨ (¬ A ∧ k = 1) → t.boot.slot.toNat = k + 1 ∧ t.sec.fwVersion = (image k).version ∧
                 t.sec.fuses = if (image k).advance then { f with rbMin := max f.rbMin (image k).rb } else f) ∧
               (¬ A → ∃ e ∈ t.gleaner.arriving, e.cls = 10 ∧ e.code = 1))))))))

/-- The register map (R489): every register has an offset of its own in the map, at which it is found, and what an offset names
lies at it. Where the rules leave it open it follows notes/assumptions/64. -/
def Obligations.RegisterMap : Prop :=
  (∀ r : Reg, r.exists_ = true → r.offset % 8 = 0 ∧ r.offset < 0x4900000 ∧ Reg.ofOffset r.offset = some r) ∧
  (∀ (o : Nat) (r : Reg), Reg.ofOffset o = some r → r.offset = o ∧ r.exists_ = true) ∧
  (∀ r q : Reg, r.exists_ = true → q.exists_ = true → r.offset = q.offset → r = q)

/-- Every step keeps memory and flash in canonical form. Where the rules leave it open it follows notes/assumptions/2. -/
def Obligations.MemoryStaysCanonical : Prop :=
  ∀ (s t : State), memoryOk s = true → step s = .next t → memoryOk t = true
end

