-- ==== Sys2Proof/Laws/Table.lean ====
section
/-!
SUPPORT. Laws/Table.lean: what the sparse tables and the bytes of memory do: a read after a write, and the canonical
form that every write keeps.
-/

namespace Sys2Proof

variable {α : Type}

/-! ### Keys that rise -/

/-- Every key of the table is at least `k`. -/
abbrev Tbl.above (m : Tbl α) (k : Nat) : Prop := ∀ c ∈ m, k ≤ c.1

theorem Tbl.sorted_cons (j : Nat) (v : α) (m : Tbl α) :
    Tbl.sorted ((j, v) :: m) = true ↔ Tbl.above m (j + 1) ∧ Tbl.sorted m = true := by
  induction m generalizing j v with
  | nil => simp [Tbl.sorted, Tbl.above]
  | cons c rest ih =>
    obtain ⟨k, w⟩ := c
    simp only [Tbl.sorted, Bool.and_eq_true, decide_eq_true_eq]
    constructor
    · rintro ⟨h, hs⟩
      refine ⟨?_, hs⟩
      have h2 := ((ih k w).1 hs).1
      intro c hc
      rcases List.mem_cons.1 hc with rfl | hc
      · exact h
      · have := h2 c hc; omega
    · rintro ⟨h, hs⟩
      exact ⟨h (k, w) (by simp), hs⟩

theorem Tbl.get_above (d : α) (m : Tbl α) (k : Nat) (h : Tbl.above m (k + 1)) : Tbl.get d m k = d := by
  cases m with
  | nil => rfl
  | cons c rest =>
    obtain ⟨j, v⟩ := c
    have := h (j, v) (by simp)
    simp only at this
    simp [Tbl.get, show j ≠ k by omega, show k < j by omega]

/-! ### Reading after writing -/

@[simp] theorem Tbl.get_insert_same (d : α) (m : Tbl α) (k : Nat) (v : α) : Tbl.get d (Tbl.insert m k v) k = v := by
  induction m with
  | nil => simp [Tbl.insert, Tbl.get]
  | cons c rest ih =>
    obtain ⟨j, w⟩ := c
    unfold Tbl.insert
    split
    · simp [Tbl.get]
    · split
      · simp [Tbl.get]
      · simp_all [Tbl.get]

theorem Tbl.get_insert_other (d : α) (m : Tbl α) (k j : Nat) (v : α) (h : j ≠ k) :
    Tbl.get d (Tbl.insert m k v) j = Tbl.get d m j := by
  induction m with
  | nil => simp [Tbl.insert, Tbl.get, Ne.symm h]
  | cons c rest ih =>
    obtain ⟨i, w⟩ := c
    unfold Tbl.insert
    split
    · subst_vars; simp [Tbl.get, Ne.symm h]
    · split
      · simp only [Tbl.get, if_neg (Ne.symm h)]
        split
        · split
          · omega
          · simp [show j < i by omega]
        · rfl
      · simp only [Tbl.get, ih]

theorem Tbl.get_drop_same (d : α) (m : Tbl α) (k : Nat) (h : Tbl.sorted m = true) : Tbl.get d (Tbl.drop m k) k = d := by
  induction m with
  | nil => rfl
  | cons c rest ih =>
    obtain ⟨j, w⟩ := c
    have hs := (Tbl.sorted_cons j w rest).1 h
    unfold Tbl.drop
    split
    · subst_vars; exact Tbl.get_above d rest _ hs.1
    · split
      · simp_all [Tbl.get]
      · simp_all [Tbl.get]

theorem Tbl.get_drop_other (d : α) (m : Tbl α) (k j : Nat) (h : Tbl.sorted m = true) (hj : j ≠ k) :
    Tbl.get d (Tbl.drop m k) j = Tbl.get d m j := by
  induction m with
  | nil => rfl
  | cons c rest ih =>
    obtain ⟨i, w⟩ := c
    have hs := (Tbl.sorted_cons i w rest).1 h
    unfold Tbl.drop
    split
    · subst_vars
      simp only [Tbl.get, if_neg (Ne.symm hj)]
      split
      · exact Tbl.get_above d rest _ (fun c hc => by have := hs.1 c hc; omega)
      · rfl
    · split
      · rfl
      · simp only [Tbl.get, ih hs.2]

variable [DecidableEq α]

/-- A table reads back what was put into it. -/
theorem Tbl.get_put_same (d : α) (m : Tbl α) (k : Nat) (v : α) (h : Tbl.sorted m = true) :
    Tbl.get d (Tbl.put d m k v) k = v := by
  unfold Tbl.put
  split
  · subst_vars; exact Tbl.get_drop_same _ _ _ h
  · exact Tbl.get_insert_same _ _ _ _

/-- A value that is not the default is read back whatever the table. -/
theorem Tbl.get_put_nondefault (d : α) (m : Tbl α) (k : Nat) (v : α) (h : v ≠ d) : Tbl.get d (Tbl.put d m k v) k = v := by
  simp [Tbl.put, h]

/-- Other keys read as before. -/
theorem Tbl.get_put_other (d : α) (m : Tbl α) (k j : Nat) (v : α) (h : Tbl.sorted m = true) (hj : j ≠ k) :
    Tbl.get d (Tbl.put d m k v) j = Tbl.get d m j := by
  unfold Tbl.put
  split
  · exact Tbl.get_drop_other _ _ _ _ h hj
  · exact Tbl.get_insert_other _ _ _ _ _ hj

omit [DecidableEq α] in
theorem Tbl.insert_insert (m : Tbl α) (k : Nat) (v w : α) : Tbl.insert (Tbl.insert m k v) k w = Tbl.insert m k w := by
  induction m with
  | nil => simp [Tbl.insert]
  | cons c rest ih =>
    obtain ⟨j, x⟩ := c
    by_cases h : j = k
    · simp [Tbl.insert, h]
    · by_cases h2 : k < j
      · simp [Tbl.insert, h, h2]
      · simp [Tbl.insert, h, h2, ih]

omit [DecidableEq α] in
theorem Tbl.drop_insert (m : Tbl α) (k : Nat) (v : α) (h : Tbl.sorted m = true) : Tbl.drop (Tbl.insert m k v) k = Tbl.drop m k := by
  induction m with
  | nil => simp [Tbl.insert, Tbl.drop]
  | cons c rest ih =>
    obtain ⟨j, x⟩ := c
    have hs := (Tbl.sorted_cons j x rest).1 h
    by_cases h1 : j = k
    · simp [Tbl.insert, Tbl.drop, h1]
    · by_cases h2 : k < j
      · simp [Tbl.insert, Tbl.drop, h1, h2]
      · simp [Tbl.insert, Tbl.drop, h1, h2, ih hs.2]

/-- A second write of the same key replaces the first. -/
theorem Tbl.put_put_nondefault (d : α) (m : Tbl α) (k : Nat) (v w : α) (hv : v ≠ d) (hw : w ≠ d) :
    Tbl.put d (Tbl.put d m k v) k w = Tbl.put d m k w := by
  simp [Tbl.put, hv, hw, Tbl.insert_insert]

/-! ### The canonical form is kept -/

omit [DecidableEq α] in
theorem Tbl.above_insert (m : Tbl α) (k : Nat) (v : α) (j : Nat) (h : Tbl.above m j) (hk : j ≤ k) :
    Tbl.above (Tbl.insert m k v) j := by
  induction m with
  | nil => simpa [Tbl.insert, Tbl.above] using hk
  | cons c rest ih =>
    obtain ⟨i, w⟩ := c
    unfold Tbl.insert
    split
    · intro c hc; rcases List.mem_cons.1 hc with rfl | hc
      · exact hk
      · exact h c (by simp [hc])
    · split
      · intro c hc; rcases List.mem_cons.1 hc with rfl | hc
        · exact hk
        · exact h c hc
      · intro c hc; rcases List.mem_cons.1 hc with rfl | hc
        · exact h _ (by simp)
        · exact ih (fun c hc => h c (by simp [hc])) c hc

omit [DecidableEq α] in
theorem Tbl.sorted_insert (m : Tbl α) (k : Nat) (v : α) (h : Tbl.sorted m = true) : Tbl.sorted (Tbl.insert m k v) = true := by
  induction m with
  | nil => rfl
  | cons c rest ih =>
    obtain ⟨i, w⟩ := c
    have hs := (Tbl.sorted_cons i w rest).1 h
    unfold Tbl.insert
    split
    · subst_vars; exact (Tbl.sorted_cons _ _ _).2 hs
    · split
      · refine (Tbl.sorted_cons _ _ _).2 ⟨?_, h⟩
        intro c hc; rcases List.mem_cons.1 hc with rfl | hc
        · simp only; omega
        · have := hs.1 c hc; omega
      · exact (Tbl.sorted_cons _ _ _).2 ⟨Tbl.above_insert _ _ _ _ hs.1 (by omega), ih hs.2⟩

omit [DecidableEq α] in
theorem Tbl.mem_drop (m : Tbl α) (k : Nat) (c : Nat × α) (h : c ∈ Tbl.drop m k) : c ∈ m := by
  induction m with
  | nil => simp [Tbl.drop] at h
  | cons x rest ih =>
    obtain ⟨i, w⟩ := x
    unfold Tbl.drop at h
    split at h
    · simp [h]
    · split at h
      · exact h
      · rcases List.mem_cons.1 h with rfl | h
        · simp
        · simp [ih h]

omit [DecidableEq α] in
theorem Tbl.sorted_drop (m : Tbl α) (k : Nat) (h : Tbl.sorted m = true) : Tbl.sorted (Tbl.drop m k) = true := by
  induction m with
  | nil => rfl
  | cons x rest ih =>
    obtain ⟨i, w⟩ := x
    have hs := (Tbl.sorted_cons i w rest).1 h
    unfold Tbl.drop
    split
    · exact hs.2
    · split
      · exact h
      · exact (Tbl.sorted_cons _ _ _).2 ⟨fun c hc => hs.1 c (Tbl.mem_drop _ _ _ hc), ih hs.2⟩

theorem Tbl.sorted_put (d : α) (m : Tbl α) (k : Nat) (v : α) (h : Tbl.sorted m = true) : Tbl.sorted (Tbl.put d m k v) = true := by
  unfold Tbl.put
  split
  · exact Tbl.sorted_drop _ _ h
  · exact Tbl.sorted_insert _ _ _ h

omit [DecidableEq α] in
theorem Tbl.mem_insert (m : Tbl α) (k : Nat) (v : α) (c : Nat × α) (h : c ∈ Tbl.insert m k v) : c = (k, v) ∨ c ∈ m := by
  induction m with
  | nil => simpa [Tbl.insert] using h
  | cons x rest ih =>
    obtain ⟨i, w⟩ := x
    unfold Tbl.insert at h
    split at h
    · rcases List.mem_cons.1 h with rfl | h <;> simp [*]
    · split at h
      · rcases List.mem_cons.1 h with rfl | h <;> simp [*]
      · rcases List.mem_cons.1 h with rfl | h
        · simp
        · rcases ih h with rfl | h <;> simp [*]

omit [DecidableEq α] in
theorem Tbl.sorted_filter (m : Tbl α) (p : Nat × α → Bool) (h : Tbl.sorted m = true) : Tbl.sorted (m.filter p) = true := by
  induction m with
  | nil => rfl
  | cons x rest ih =>
    obtain ⟨i, w⟩ := x
    have hs := (Tbl.sorted_cons i w rest).1 h
    rw [List.filter_cons]
    split
    · exact (Tbl.sorted_cons _ _ _).2 ⟨fun c hc => hs.1 c (List.mem_of_mem_filter hc), ih hs.2⟩
    · exact ih hs.2

/-! ### Memory -/

theorem Memory.wf_iff (m : List Host.Cell) : Memory.wf m = true ↔ Tbl.sorted m = true ∧ ∀ c ∈ m, c.2 ≠ 0 := by
  simp [Memory.wf]

theorem Memory.wf_nil : Memory.wf [] = true := rfl

/-- A write of one byte keeps the canonical form. -/
theorem Memory.wf_setByte (m : List Host.Cell) (a : Nat) (b : Byte) (h : Memory.wf m = true) :
    Memory.wf (Memory.setByte m a b) = true := by
  rw [Memory.wf_iff] at *
  refine ⟨Tbl.sorted_put _ _ _ _ h.1, ?_⟩
  intro c hc
  unfold Memory.setByte Tbl.put at hc
  split at hc
  · exact h.2 c (Tbl.mem_drop _ _ _ hc)
  · rcases Tbl.mem_insert _ _ _ _ hc with rfl | hc
    · assumption
    · exact h.2 c hc

/-- A write of bytes keeps the canonical form. -/
theorem Memory.wf_setBytes (m : List Host.Cell) (a : Nat) (bs : List Byte) (h : Memory.wf m = true) :
    Memory.wf (Memory.setBytes m a bs) = true := by
  induction bs generalizing m a with
  | nil => exact h
  | cons b rest ih => exact ih _ _ (Memory.wf_setByte _ _ _ h)

/-- Taking entries out keeps the canonical form. -/
theorem Memory.wf_filter (m : List Host.Cell) (p : Host.Cell → Bool) (h : Memory.wf m = true) :
    Memory.wf (m.filter p) = true := by
  rw [Memory.wf_iff] at *
  exact ⟨Tbl.sorted_filter _ _ h.1, fun c hc => h.2 c (List.mem_of_mem_filter hc)⟩

/-- A bulk clear keeps the canonical form. -/
theorem Memory.wf_clear (m : List Host.Cell) (lo hi : Nat) (h : Memory.wf m = true) : Memory.wf (Memory.clear m lo hi) = true :=
  Memory.wf_filter _ _ h

/-- A byte written reads back, and every other address reads as before. -/
theorem Memory.byte_setByte (m : List Host.Cell) (a x : Nat) (b : Byte) (h : Tbl.sorted m = true) :
    Memory.byte (Memory.setByte m a b) x = if x = a then b else Memory.byte m x := by
  unfold Memory.byte Memory.setByte
  split
  · subst_vars; exact Tbl.get_put_same _ _ _ _ h
  · rename_i hx; exact Tbl.get_put_other _ _ _ _ _ h hx

theorem Memory.sorted_setBytes (m : List Host.Cell) (a : Nat) (bs : List Byte) (h : Tbl.sorted m = true) :
    Tbl.sorted (Memory.setBytes m a bs) = true := by
  induction bs generalizing m a with
  | nil => exact h
  | cons b rest ih => exact ih _ _ (Tbl.sorted_put _ _ _ _ h)

/-- Bytes outside a write read as before. -/
theorem Memory.byte_setBytes_outside (m : List Host.Cell) (a x : Nat) (bs : List Byte) (h : Tbl.sorted m = true)
    (hx : x < a ∨ a + bs.length ≤ x) : Memory.byte (Memory.setBytes m a bs) x = Memory.byte m x := by
  induction bs generalizing m a with
  | nil => rfl
  | cons b rest ih =>
    simp only [List.length_cons] at hx
    have hk : Tbl.sorted (Memory.setByte m a b) = true := Tbl.sorted_put _ _ _ _ h
    rw [Memory.setBytes, ih _ _ hk (by omega), Memory.byte_setByte _ _ _ _ h, if_neg (by omega)]

/-- Byte `i` of a write reads back. -/
theorem Memory.byte_setBytes_inside (m : List Host.Cell) (a i : Nat) (bs : List Byte) (h : Tbl.sorted m = true)
    (hi : i < bs.length) : Memory.byte (Memory.setBytes m a bs) (a + i) = bs[i] := by
  induction bs generalizing m a i with
  | nil => simp at hi
  | cons b rest ih =>
    have hk : Tbl.sorted (Memory.setByte m a b) = true := Tbl.sorted_put _ _ _ _ h
    cases i with
    | zero => rw [Memory.setBytes, Memory.byte_setBytes_outside _ _ _ _ hk (by omega), Memory.byte_setByte _ _ _ _ h]; simp
    | succ j =>
      have := ih (Memory.setByte m a b) (a + 1) j hk (by simpa using hi)
      rw [show a + (j + 1) = a + 1 + j by omega, Memory.setBytes, this]; simp

/-- A cleared range reads zero, the rest as before. -/
theorem Memory.byte_clear (m : List Host.Cell) (lo hi x : Nat) (h : Tbl.sorted m = true) :
    Memory.byte (Memory.clear m lo hi) x = if lo ≤ x ∧ x < hi then 0 else Memory.byte m x := by
  induction m with
  | nil => simp [Memory.clear, Memory.byte, Tbl.get]
  | cons c rest ih =>
    obtain ⟨j, w⟩ := c
    have hs := (Tbl.sorted_cons j w rest).1 h
    have hih := ih hs.2
    unfold Memory.clear Memory.byte at *
    have hr : Tbl.sorted (List.filter (fun c : Host.Cell => decide (c.1 < lo ∨ hi ≤ c.1)) rest) = true := Tbl.sorted_filter _ _ hs.2
    have hab : Tbl.above (List.filter (fun c : Host.Cell => decide (c.1 < lo ∨ hi ≤ c.1)) rest) (j + 1) :=
      fun c hc => hs.1 c (List.mem_of_mem_filter hc)
    rw [List.filter_cons]
    split
    · rename_i hj
      simp only [decide_eq_true_eq] at hj
      simp only [Tbl.get]
      split
      · subst_vars; rw [if_neg (by omega)]
      · split
        · split <;> rfl
        · exact hih
    · rename_i hj
      simp only [decide_eq_true_eq] at hj
      by_cases hx : lo ≤ x ∧ x < hi
      · rw [if_pos hx]; rw [if_pos hx] at hih; exact hih
      · rw [if_neg hx]; rw [if_neg hx] at hih
        rw [hih]
        simp only [Tbl.get]
        split
        · omega
        · split
          · exact Tbl.get_above _ _ _ (fun c hc => by have := hs.1 c hc; omega)
          · rfl

end Sys2Proof
end

