-- ==== Sys2Proof/Laws/State.lean ====
section
/-!
SUPPORT. Laws/State.lean: what each update of the state leaves as it was, one lemma per field, and what it changes.
-/

namespace Sys2Proof.Machine

/-! ### setTile -/

@[simp] theorem State.setTile_pending (s : State) (n : Nat) (x : Tile) : (s.setTile n x).pending = s.pending := rfl
@[simp] theorem State.setTile_time (s : State) (n : Nat) (x : Tile) : (s.setTile n x).time = s.time := rfl
@[simp] theorem State.setTile_regs (s : State) (n : Nat) (x : Tile) : (s.setTile n x).regs = s.regs := rfl
@[simp] theorem State.setTile_shadows (s : State) (n : Nat) (x : Tile) : (s.setTile n x).shadows = s.shadows := rfl
@[simp] theorem State.setTile_devSet (s : State) (n : Nat) (x : Tile) : (s.setTile n x).devSet = s.devSet := rfl
@[simp] theorem State.setTile_hostSet (s : State) (n : Nat) (x : Tile) : (s.setTile n x).hostSet = s.hostSet := rfl
@[simp] theorem State.setTile_barSet (s : State) (n : Nat) (x : Tile) : (s.setTile n x).barSet = s.barSet := rfl
@[simp] theorem State.setTile_staged (s : State) (n : Nat) (x : Tile) : (s.setTile n x).staged = s.staged := rfl
@[simp] theorem State.setTile_changes (s : State) (n : Nat) (x : Tile) : (s.setTile n x).changes = s.changes := rfl
@[simp] theorem State.setTile_masks (s : State) (n : Nat) (x : Tile) : (s.setTile n x).masks = s.masks := rfl
@[simp] theorem State.setTile_shares (s : State) (n : Nat) (x : Tile) : (s.setTile n x).shares = s.shares := rfl
@[simp] theorem State.setTile_regions (s : State) (n : Nat) (x : Tile) : (s.setTile n x).regions = s.regions := rfl
@[simp] theorem State.setTile_paddocks (s : State) (n : Nat) (x : Tile) : (s.setTile n x).paddocks = s.paddocks := rfl
@[simp] theorem State.setTile_sheaves (s : State) (n : Nat) (x : Tile) : (s.setTile n x).sheaves = s.sheaves := rfl
@[simp] theorem State.setTile_mem (s : State) (n : Nat) (x : Tile) : (s.setTile n x).mem = s.mem := rfl
@[simp] theorem State.setTile_hbm (s : State) (n : Nat) (x : Tile) : (s.setTile n x).hbm = s.hbm := rfl
@[simp] theorem State.setTile_eccWords (s : State) (n : Nat) (x : Tile) : (s.setTile n x).eccWords = s.eccWords := rfl
@[simp] theorem State.setTile_eccUnits (s : State) (n : Nat) (x : Tile) : (s.setTile n x).eccUnits = s.eccUnits := rfl
@[simp] theorem State.setTile_hbmCe (s : State) (n : Nat) (x : Tile) : (s.setTile n x).hbmCe = s.hbmCe := rfl
@[simp] theorem State.setTile_hbmUe (s : State) (n : Nat) (x : Tile) : (s.setTile n x).hbmUe = s.hbmUe := rfl
@[simp] theorem State.setTile_hbmErr (s : State) (n : Nat) (x : Tile) : (s.setTile n x).hbmErr = s.hbmErr := rfl
@[simp] theorem State.setTile_host (s : State) (n : Nat) (x : Tile) : (s.setTile n x).host = s.host := rfl
@[simp] theorem State.setTile_gleaner (s : State) (n : Nat) (x : Tile) : (s.setTile n x).gleaner = s.gleaner := rfl
@[simp] theorem State.setTile_progs (s : State) (n : Nat) (x : Tile) : (s.setTile n x).progs = s.progs := rfl
@[simp] theorem State.setTile_debugMem (s : State) (n : Nat) (x : Tile) : (s.setTile n x).debugMem = s.debugMem := rfl
@[simp] theorem State.setTile_ports (s : State) (n : Nat) (x : Tile) : (s.setTile n x).ports = s.ports := rfl
@[simp] theorem State.setTile_tethers (s : State) (n : Nat) (x : Tile) : (s.setTile n x).tethers = s.tethers := rfl
@[simp] theorem State.setTile_sites (s : State) (n : Nat) (x : Tile) : (s.setTile n x).sites = s.sites := rfl
@[simp] theorem State.setTile_colls (s : State) (n : Nat) (x : Tile) : (s.setTile n x).colls = s.colls := rfl
@[simp] theorem State.setTile_atomicsDone (s : State) (n : Nat) (x : Tile) : (s.setTile n x).atomicsDone = s.atomicsDone := rfl
@[simp] theorem State.setTile_nextColl (s : State) (n : Nat) (x : Tile) : (s.setTile n x).nextColl = s.nextColl := rfl
@[simp] theorem State.setTile_power (s : State) (n : Nat) (x : Tile) : (s.setTile n x).power = s.power := rfl
@[simp] theorem State.setTile_boot (s : State) (n : Nat) (x : Tile) : (s.setTile n x).boot = s.boot := rfl
@[simp] theorem State.setTile_sec (s : State) (n : Nat) (x : Tile) : (s.setTile n x).sec = s.sec := rfl
@[simp] theorem State.setTile_flash (s : State) (n : Nat) (x : Tile) : (s.setTile n x).flash = s.flash := rfl
@[simp] theorem State.setTile_mgt (s : State) (n : Nat) (x : Tile) : (s.setTile n x).mgt = s.mgt := rfl
@[simp] theorem State.setTile_thermTripLow (s : State) (n : Nat) (x : Tile) : (s.setTile n x).thermTripLow = s.thermTripLow := rfl
@[simp] theorem State.setTile_strideMark (s : State) (n : Nat) (x : Tile) : (s.setTile n x).strideMark = s.strideMark := rfl
@[simp] theorem State.setTile_draws (s : State) (n : Nat) (x : Tile) : (s.setTile n x).draws = s.draws := rfl

/-! ### modTile -/

@[simp] theorem State.modTile_pending (s : State) (n : Nat) (f : Tile → Tile) : (s.modTile n f).pending = s.pending := rfl
@[simp] theorem State.modTile_time (s : State) (n : Nat) (f : Tile → Tile) : (s.modTile n f).time = s.time := rfl
@[simp] theorem State.modTile_regs (s : State) (n : Nat) (f : Tile → Tile) : (s.modTile n f).regs = s.regs := rfl
@[simp] theorem State.modTile_shadows (s : State) (n : Nat) (f : Tile → Tile) : (s.modTile n f).shadows = s.shadows := rfl
@[simp] theorem State.modTile_devSet (s : State) (n : Nat) (f : Tile → Tile) : (s.modTile n f).devSet = s.devSet := rfl
@[simp] theorem State.modTile_hostSet (s : State) (n : Nat) (f : Tile → Tile) : (s.modTile n f).hostSet = s.hostSet := rfl
@[simp] theorem State.modTile_barSet (s : State) (n : Nat) (f : Tile → Tile) : (s.modTile n f).barSet = s.barSet := rfl
@[simp] theorem State.modTile_staged (s : State) (n : Nat) (f : Tile → Tile) : (s.modTile n f).staged = s.staged := rfl
@[simp] theorem State.modTile_changes (s : State) (n : Nat) (f : Tile → Tile) : (s.modTile n f).changes = s.changes := rfl
@[simp] theorem State.modTile_masks (s : State) (n : Nat) (f : Tile → Tile) : (s.modTile n f).masks = s.masks := rfl
@[simp] theorem State.modTile_shares (s : State) (n : Nat) (f : Tile → Tile) : (s.modTile n f).shares = s.shares := rfl
@[simp] theorem State.modTile_regions (s : State) (n : Nat) (f : Tile → Tile) : (s.modTile n f).regions = s.regions := rfl
@[simp] theorem State.modTile_paddocks (s : State) (n : Nat) (f : Tile → Tile) : (s.modTile n f).paddocks = s.paddocks := rfl
@[simp] theorem State.modTile_sheaves (s : State) (n : Nat) (f : Tile → Tile) : (s.modTile n f).sheaves = s.sheaves := rfl
@[simp] theorem State.modTile_mem (s : State) (n : Nat) (f : Tile → Tile) : (s.modTile n f).mem = s.mem := rfl
@[simp] theorem State.modTile_hbm (s : State) (n : Nat) (f : Tile → Tile) : (s.modTile n f).hbm = s.hbm := rfl
@[simp] theorem State.modTile_eccWords (s : State) (n : Nat) (f : Tile → Tile) : (s.modTile n f).eccWords = s.eccWords := rfl
@[simp] theorem State.modTile_eccUnits (s : State) (n : Nat) (f : Tile → Tile) : (s.modTile n f).eccUnits = s.eccUnits := rfl
@[simp] theorem State.modTile_hbmCe (s : State) (n : Nat) (f : Tile → Tile) : (s.modTile n f).hbmCe = s.hbmCe := rfl
@[simp] theorem State.modTile_hbmUe (s : State) (n : Nat) (f : Tile → Tile) : (s.modTile n f).hbmUe = s.hbmUe := rfl
@[simp] theorem State.modTile_hbmErr (s : State) (n : Nat) (f : Tile → Tile) : (s.modTile n f).hbmErr = s.hbmErr := rfl
@[simp] theorem State.modTile_host (s : State) (n : Nat) (f : Tile → Tile) : (s.modTile n f).host = s.host := rfl
@[simp] theorem State.modTile_gleaner (s : State) (n : Nat) (f : Tile → Tile) : (s.modTile n f).gleaner = s.gleaner := rfl
@[simp] theorem State.modTile_progs (s : State) (n : Nat) (f : Tile → Tile) : (s.modTile n f).progs = s.progs := rfl
@[simp] theorem State.modTile_debugMem (s : State) (n : Nat) (f : Tile → Tile) : (s.modTile n f).debugMem = s.debugMem := rfl
@[simp] theorem State.modTile_ports (s : State) (n : Nat) (f : Tile → Tile) : (s.modTile n f).ports = s.ports := rfl
@[simp] theorem State.modTile_tethers (s : State) (n : Nat) (f : Tile → Tile) : (s.modTile n f).tethers = s.tethers := rfl
@[simp] theorem State.modTile_sites (s : State) (n : Nat) (f : Tile → Tile) : (s.modTile n f).sites = s.sites := rfl
@[simp] theorem State.modTile_colls (s : State) (n : Nat) (f : Tile → Tile) : (s.modTile n f).colls = s.colls := rfl
@[simp] theorem State.modTile_atomicsDone (s : State) (n : Nat) (f : Tile → Tile) : (s.modTile n f).atomicsDone = s.atomicsDone := rfl
@[simp] theorem State.modTile_nextColl (s : State) (n : Nat) (f : Tile → Tile) : (s.modTile n f).nextColl = s.nextColl := rfl
@[simp] theorem State.modTile_power (s : State) (n : Nat) (f : Tile → Tile) : (s.modTile n f).power = s.power := rfl
@[simp] theorem State.modTile_boot (s : State) (n : Nat) (f : Tile → Tile) : (s.modTile n f).boot = s.boot := rfl
@[simp] theorem State.modTile_sec (s : State) (n : Nat) (f : Tile → Tile) : (s.modTile n f).sec = s.sec := rfl
@[simp] theorem State.modTile_flash (s : State) (n : Nat) (f : Tile → Tile) : (s.modTile n f).flash = s.flash := rfl
@[simp] theorem State.modTile_mgt (s : State) (n : Nat) (f : Tile → Tile) : (s.modTile n f).mgt = s.mgt := rfl
@[simp] theorem State.modTile_thermTripLow (s : State) (n : Nat) (f : Tile → Tile) : (s.modTile n f).thermTripLow = s.thermTripLow := rfl
@[simp] theorem State.modTile_strideMark (s : State) (n : Nat) (f : Tile → Tile) : (s.modTile n f).strideMark = s.strideMark := rfl
@[simp] theorem State.modTile_draws (s : State) (n : Nat) (f : Tile → Tile) : (s.modTile n f).draws = s.draws := rfl

/-! ### setSheaf -/

@[simp] theorem State.setSheaf_pending (s : State) (m : Nat) (x : Sheaf) : (s.setSheaf m x).pending = s.pending := rfl
@[simp] theorem State.setSheaf_time (s : State) (m : Nat) (x : Sheaf) : (s.setSheaf m x).time = s.time := rfl
@[simp] theorem State.setSheaf_regs (s : State) (m : Nat) (x : Sheaf) : (s.setSheaf m x).regs = s.regs := rfl
@[simp] theorem State.setSheaf_shadows (s : State) (m : Nat) (x : Sheaf) : (s.setSheaf m x).shadows = s.shadows := rfl
@[simp] theorem State.setSheaf_devSet (s : State) (m : Nat) (x : Sheaf) : (s.setSheaf m x).devSet = s.devSet := rfl
@[simp] theorem State.setSheaf_hostSet (s : State) (m : Nat) (x : Sheaf) : (s.setSheaf m x).hostSet = s.hostSet := rfl
@[simp] theorem State.setSheaf_barSet (s : State) (m : Nat) (x : Sheaf) : (s.setSheaf m x).barSet = s.barSet := rfl
@[simp] theorem State.setSheaf_staged (s : State) (m : Nat) (x : Sheaf) : (s.setSheaf m x).staged = s.staged := rfl
@[simp] theorem State.setSheaf_changes (s : State) (m : Nat) (x : Sheaf) : (s.setSheaf m x).changes = s.changes := rfl
@[simp] theorem State.setSheaf_masks (s : State) (m : Nat) (x : Sheaf) : (s.setSheaf m x).masks = s.masks := rfl
@[simp] theorem State.setSheaf_shares (s : State) (m : Nat) (x : Sheaf) : (s.setSheaf m x).shares = s.shares := rfl
@[simp] theorem State.setSheaf_regions (s : State) (m : Nat) (x : Sheaf) : (s.setSheaf m x).regions = s.regions := rfl
@[simp] theorem State.setSheaf_paddocks (s : State) (m : Nat) (x : Sheaf) : (s.setSheaf m x).paddocks = s.paddocks := rfl
@[simp] theorem State.setSheaf_tiles (s : State) (m : Nat) (x : Sheaf) : (s.setSheaf m x).tiles = s.tiles := rfl
@[simp] theorem State.setSheaf_mem (s : State) (m : Nat) (x : Sheaf) : (s.setSheaf m x).mem = s.mem := rfl
@[simp] theorem State.setSheaf_hbm (s : State) (m : Nat) (x : Sheaf) : (s.setSheaf m x).hbm = s.hbm := rfl
@[simp] theorem State.setSheaf_eccWords (s : State) (m : Nat) (x : Sheaf) : (s.setSheaf m x).eccWords = s.eccWords := rfl
@[simp] theorem State.setSheaf_eccUnits (s : State) (m : Nat) (x : Sheaf) : (s.setSheaf m x).eccUnits = s.eccUnits := rfl
@[simp] theorem State.setSheaf_hbmCe (s : State) (m : Nat) (x : Sheaf) : (s.setSheaf m x).hbmCe = s.hbmCe := rfl
@[simp] theorem State.setSheaf_hbmUe (s : State) (m : Nat) (x : Sheaf) : (s.setSheaf m x).hbmUe = s.hbmUe := rfl
@[simp] theorem State.setSheaf_hbmErr (s : State) (m : Nat) (x : Sheaf) : (s.setSheaf m x).hbmErr = s.hbmErr := rfl
@[simp] theorem State.setSheaf_host (s : State) (m : Nat) (x : Sheaf) : (s.setSheaf m x).host = s.host := rfl
@[simp] theorem State.setSheaf_gleaner (s : State) (m : Nat) (x : Sheaf) : (s.setSheaf m x).gleaner = s.gleaner := rfl
@[simp] theorem State.setSheaf_progs (s : State) (m : Nat) (x : Sheaf) : (s.setSheaf m x).progs = s.progs := rfl
@[simp] theorem State.setSheaf_debugMem (s : State) (m : Nat) (x : Sheaf) : (s.setSheaf m x).debugMem = s.debugMem := rfl
@[simp] theorem State.setSheaf_ports (s : State) (m : Nat) (x : Sheaf) : (s.setSheaf m x).ports = s.ports := rfl
@[simp] theorem State.setSheaf_tethers (s : State) (m : Nat) (x : Sheaf) : (s.setSheaf m x).tethers = s.tethers := rfl
@[simp] theorem State.setSheaf_sites (s : State) (m : Nat) (x : Sheaf) : (s.setSheaf m x).sites = s.sites := rfl
@[simp] theorem State.setSheaf_colls (s : State) (m : Nat) (x : Sheaf) : (s.setSheaf m x).colls = s.colls := rfl
@[simp] theorem State.setSheaf_atomicsDone (s : State) (m : Nat) (x : Sheaf) : (s.setSheaf m x).atomicsDone = s.atomicsDone := rfl
@[simp] theorem State.setSheaf_nextColl (s : State) (m : Nat) (x : Sheaf) : (s.setSheaf m x).nextColl = s.nextColl := rfl
@[simp] theorem State.setSheaf_power (s : State) (m : Nat) (x : Sheaf) : (s.setSheaf m x).power = s.power := rfl
@[simp] theorem State.setSheaf_boot (s : State) (m : Nat) (x : Sheaf) : (s.setSheaf m x).boot = s.boot := rfl
@[simp] theorem State.setSheaf_sec (s : State) (m : Nat) (x : Sheaf) : (s.setSheaf m x).sec = s.sec := rfl
@[simp] theorem State.setSheaf_flash (s : State) (m : Nat) (x : Sheaf) : (s.setSheaf m x).flash = s.flash := rfl
@[simp] theorem State.setSheaf_mgt (s : State) (m : Nat) (x : Sheaf) : (s.setSheaf m x).mgt = s.mgt := rfl
@[simp] theorem State.setSheaf_thermTripLow (s : State) (m : Nat) (x : Sheaf) : (s.setSheaf m x).thermTripLow = s.thermTripLow := rfl
@[simp] theorem State.setSheaf_strideMark (s : State) (m : Nat) (x : Sheaf) : (s.setSheaf m x).strideMark = s.strideMark := rfl
@[simp] theorem State.setSheaf_draws (s : State) (m : Nat) (x : Sheaf) : (s.setSheaf m x).draws = s.draws := rfl

/-! ### modSheaf -/

@[simp] theorem State.modSheaf_pending (s : State) (m : Nat) (f : Sheaf → Sheaf) : (s.modSheaf m f).pending = s.pending := rfl
@[simp] theorem State.modSheaf_time (s : State) (m : Nat) (f : Sheaf → Sheaf) : (s.modSheaf m f).time = s.time := rfl
@[simp] theorem State.modSheaf_regs (s : State) (m : Nat) (f : Sheaf → Sheaf) : (s.modSheaf m f).regs = s.regs := rfl
@[simp] theorem State.modSheaf_shadows (s : State) (m : Nat) (f : Sheaf → Sheaf) : (s.modSheaf m f).shadows = s.shadows := rfl
@[simp] theorem State.modSheaf_devSet (s : State) (m : Nat) (f : Sheaf → Sheaf) : (s.modSheaf m f).devSet = s.devSet := rfl
@[simp] theorem State.modSheaf_hostSet (s : State) (m : Nat) (f : Sheaf → Sheaf) : (s.modSheaf m f).hostSet = s.hostSet := rfl
@[simp] theorem State.modSheaf_barSet (s : State) (m : Nat) (f : Sheaf → Sheaf) : (s.modSheaf m f).barSet = s.barSet := rfl
@[simp] theorem State.modSheaf_staged (s : State) (m : Nat) (f : Sheaf → Sheaf) : (s.modSheaf m f).staged = s.staged := rfl
@[simp] theorem State.modSheaf_changes (s : State) (m : Nat) (f : Sheaf → Sheaf) : (s.modSheaf m f).changes = s.changes := rfl
@[simp] theorem State.modSheaf_masks (s : State) (m : Nat) (f : Sheaf → Sheaf) : (s.modSheaf m f).masks = s.masks := rfl
@[simp] theorem State.modSheaf_shares (s : State) (m : Nat) (f : Sheaf → Sheaf) : (s.modSheaf m f).shares = s.shares := rfl
@[simp] theorem State.modSheaf_regions (s : State) (m : Nat) (f : Sheaf → Sheaf) : (s.modSheaf m f).regions = s.regions := rfl
@[simp] theorem State.modSheaf_paddocks (s : State) (m : Nat) (f : Sheaf → Sheaf) : (s.modSheaf m f).paddocks = s.paddocks := rfl
@[simp] theorem State.modSheaf_tiles (s : State) (m : Nat) (f : Sheaf → Sheaf) : (s.modSheaf m f).tiles = s.tiles := rfl
@[simp] theorem State.modSheaf_mem (s : State) (m : Nat) (f : Sheaf → Sheaf) : (s.modSheaf m f).mem = s.mem := rfl
@[simp] theorem State.modSheaf_hbm (s : State) (m : Nat) (f : Sheaf → Sheaf) : (s.modSheaf m f).hbm = s.hbm := rfl
@[simp] theorem State.modSheaf_eccWords (s : State) (m : Nat) (f : Sheaf → Sheaf) : (s.modSheaf m f).eccWords = s.eccWords := rfl
@[simp] theorem State.modSheaf_eccUnits (s : State) (m : Nat) (f : Sheaf → Sheaf) : (s.modSheaf m f).eccUnits = s.eccUnits := rfl
@[simp] theorem State.modSheaf_hbmCe (s : State) (m : Nat) (f : Sheaf → Sheaf) : (s.modSheaf m f).hbmCe = s.hbmCe := rfl
@[simp] theorem State.modSheaf_hbmUe (s : State) (m : Nat) (f : Sheaf → Sheaf) : (s.modSheaf m f).hbmUe = s.hbmUe := rfl
@[simp] theorem State.modSheaf_hbmErr (s : State) (m : Nat) (f : Sheaf → Sheaf) : (s.modSheaf m f).hbmErr = s.hbmErr := rfl
@[simp] theorem State.modSheaf_host (s : State) (m : Nat) (f : Sheaf → Sheaf) : (s.modSheaf m f).host = s.host := rfl
@[simp] theorem State.modSheaf_gleaner (s : State) (m : Nat) (f : Sheaf → Sheaf) : (s.modSheaf m f).gleaner = s.gleaner := rfl
@[simp] theorem State.modSheaf_progs (s : State) (m : Nat) (f : Sheaf → Sheaf) : (s.modSheaf m f).progs = s.progs := rfl
@[simp] theorem State.modSheaf_debugMem (s : State) (m : Nat) (f : Sheaf → Sheaf) : (s.modSheaf m f).debugMem = s.debugMem := rfl
@[simp] theorem State.modSheaf_ports (s : State) (m : Nat) (f : Sheaf → Sheaf) : (s.modSheaf m f).ports = s.ports := rfl
@[simp] theorem State.modSheaf_tethers (s : State) (m : Nat) (f : Sheaf → Sheaf) : (s.modSheaf m f).tethers = s.tethers := rfl
@[simp] theorem State.modSheaf_sites (s : State) (m : Nat) (f : Sheaf → Sheaf) : (s.modSheaf m f).sites = s.sites := rfl
@[simp] theorem State.modSheaf_colls (s : State) (m : Nat) (f : Sheaf → Sheaf) : (s.modSheaf m f).colls = s.colls := rfl
@[simp] theorem State.modSheaf_atomicsDone (s : State) (m : Nat) (f : Sheaf → Sheaf) : (s.modSheaf m f).atomicsDone = s.atomicsDone := rfl
@[simp] theorem State.modSheaf_nextColl (s : State) (m : Nat) (f : Sheaf → Sheaf) : (s.modSheaf m f).nextColl = s.nextColl := rfl
@[simp] theorem State.modSheaf_power (s : State) (m : Nat) (f : Sheaf → Sheaf) : (s.modSheaf m f).power = s.power := rfl
@[simp] theorem State.modSheaf_boot (s : State) (m : Nat) (f : Sheaf → Sheaf) : (s.modSheaf m f).boot = s.boot := rfl
@[simp] theorem State.modSheaf_sec (s : State) (m : Nat) (f : Sheaf → Sheaf) : (s.modSheaf m f).sec = s.sec := rfl
@[simp] theorem State.modSheaf_flash (s : State) (m : Nat) (f : Sheaf → Sheaf) : (s.modSheaf m f).flash = s.flash := rfl
@[simp] theorem State.modSheaf_mgt (s : State) (m : Nat) (f : Sheaf → Sheaf) : (s.modSheaf m f).mgt = s.mgt := rfl
@[simp] theorem State.modSheaf_thermTripLow (s : State) (m : Nat) (f : Sheaf → Sheaf) : (s.modSheaf m f).thermTripLow = s.thermTripLow := rfl
@[simp] theorem State.modSheaf_strideMark (s : State) (m : Nat) (f : Sheaf → Sheaf) : (s.modSheaf m f).strideMark = s.strideMark := rfl
@[simp] theorem State.modSheaf_draws (s : State) (m : Nat) (f : Sheaf → Sheaf) : (s.modSheaf m f).draws = s.draws := rfl

/-! ### modEntry -/

@[simp] theorem State.modEntry_pending (s : State) (m e : Nat) (f : MtgEntry → MtgEntry) : (s.modEntry m e f).pending = s.pending := rfl
@[simp] theorem State.modEntry_time (s : State) (m e : Nat) (f : MtgEntry → MtgEntry) : (s.modEntry m e f).time = s.time := rfl
@[simp] theorem State.modEntry_regs (s : State) (m e : Nat) (f : MtgEntry → MtgEntry) : (s.modEntry m e f).regs = s.regs := rfl
@[simp] theorem State.modEntry_shadows (s : State) (m e : Nat) (f : MtgEntry → MtgEntry) : (s.modEntry m e f).shadows = s.shadows := rfl
@[simp] theorem State.modEntry_devSet (s : State) (m e : Nat) (f : MtgEntry → MtgEntry) : (s.modEntry m e f).devSet = s.devSet := rfl
@[simp] theorem State.modEntry_hostSet (s : State) (m e : Nat) (f : MtgEntry → MtgEntry) : (s.modEntry m e f).hostSet = s.hostSet := rfl
@[simp] theorem State.modEntry_barSet (s : State) (m e : Nat) (f : MtgEntry → MtgEntry) : (s.modEntry m e f).barSet = s.barSet := rfl
@[simp] theorem State.modEntry_staged (s : State) (m e : Nat) (f : MtgEntry → MtgEntry) : (s.modEntry m e f).staged = s.staged := rfl
@[simp] theorem State.modEntry_changes (s : State) (m e : Nat) (f : MtgEntry → MtgEntry) : (s.modEntry m e f).changes = s.changes := rfl
@[simp] theorem State.modEntry_masks (s : State) (m e : Nat) (f : MtgEntry → MtgEntry) : (s.modEntry m e f).masks = s.masks := rfl
@[simp] theorem State.modEntry_shares (s : State) (m e : Nat) (f : MtgEntry → MtgEntry) : (s.modEntry m e f).shares = s.shares := rfl
@[simp] theorem State.modEntry_regions (s : State) (m e : Nat) (f : MtgEntry → MtgEntry) : (s.modEntry m e f).regions = s.regions := rfl
@[simp] theorem State.modEntry_paddocks (s : State) (m e : Nat) (f : MtgEntry → MtgEntry) : (s.modEntry m e f).paddocks = s.paddocks := rfl
@[simp] theorem State.modEntry_tiles (s : State) (m e : Nat) (f : MtgEntry → MtgEntry) : (s.modEntry m e f).tiles = s.tiles := rfl
@[simp] theorem State.modEntry_mem (s : State) (m e : Nat) (f : MtgEntry → MtgEntry) : (s.modEntry m e f).mem = s.mem := rfl
@[simp] theorem State.modEntry_hbm (s : State) (m e : Nat) (f : MtgEntry → MtgEntry) : (s.modEntry m e f).hbm = s.hbm := rfl
@[simp] theorem State.modEntry_eccWords (s : State) (m e : Nat) (f : MtgEntry → MtgEntry) : (s.modEntry m e f).eccWords = s.eccWords := rfl
@[simp] theorem State.modEntry_eccUnits (s : State) (m e : Nat) (f : MtgEntry → MtgEntry) : (s.modEntry m e f).eccUnits = s.eccUnits := rfl
@[simp] theorem State.modEntry_hbmCe (s : State) (m e : Nat) (f : MtgEntry → MtgEntry) : (s.modEntry m e f).hbmCe = s.hbmCe := rfl
@[simp] theorem State.modEntry_hbmUe (s : State) (m e : Nat) (f : MtgEntry → MtgEntry) : (s.modEntry m e f).hbmUe = s.hbmUe := rfl
@[simp] theorem State.modEntry_hbmErr (s : State) (m e : Nat) (f : MtgEntry → MtgEntry) : (s.modEntry m e f).hbmErr = s.hbmErr := rfl
@[simp] theorem State.modEntry_host (s : State) (m e : Nat) (f : MtgEntry → MtgEntry) : (s.modEntry m e f).host = s.host := rfl
@[simp] theorem State.modEntry_gleaner (s : State) (m e : Nat) (f : MtgEntry → MtgEntry) : (s.modEntry m e f).gleaner = s.gleaner := rfl
@[simp] theorem State.modEntry_progs (s : State) (m e : Nat) (f : MtgEntry → MtgEntry) : (s.modEntry m e f).progs = s.progs := rfl
@[simp] theorem State.modEntry_debugMem (s : State) (m e : Nat) (f : MtgEntry → MtgEntry) : (s.modEntry m e f).debugMem = s.debugMem := rfl
@[simp] theorem State.modEntry_ports (s : State) (m e : Nat) (f : MtgEntry → MtgEntry) : (s.modEntry m e f).ports = s.ports := rfl
@[simp] theorem State.modEntry_tethers (s : State) (m e : Nat) (f : MtgEntry → MtgEntry) : (s.modEntry m e f).tethers = s.tethers := rfl
@[simp] theorem State.modEntry_sites (s : State) (m e : Nat) (f : MtgEntry → MtgEntry) : (s.modEntry m e f).sites = s.sites := rfl
@[simp] theorem State.modEntry_colls (s : State) (m e : Nat) (f : MtgEntry → MtgEntry) : (s.modEntry m e f).colls = s.colls := rfl
@[simp] theorem State.modEntry_atomicsDone (s : State) (m e : Nat) (f : MtgEntry → MtgEntry) : (s.modEntry m e f).atomicsDone = s.atomicsDone := rfl
@[simp] theorem State.modEntry_nextColl (s : State) (m e : Nat) (f : MtgEntry → MtgEntry) : (s.modEntry m e f).nextColl = s.nextColl := rfl
@[simp] theorem State.modEntry_power (s : State) (m e : Nat) (f : MtgEntry → MtgEntry) : (s.modEntry m e f).power = s.power := rfl
@[simp] theorem State.modEntry_boot (s : State) (m e : Nat) (f : MtgEntry → MtgEntry) : (s.modEntry m e f).boot = s.boot := rfl
@[simp] theorem State.modEntry_sec (s : State) (m e : Nat) (f : MtgEntry → MtgEntry) : (s.modEntry m e f).sec = s.sec := rfl
@[simp] theorem State.modEntry_flash (s : State) (m e : Nat) (f : MtgEntry → MtgEntry) : (s.modEntry m e f).flash = s.flash := rfl
@[simp] theorem State.modEntry_mgt (s : State) (m e : Nat) (f : MtgEntry → MtgEntry) : (s.modEntry m e f).mgt = s.mgt := rfl
@[simp] theorem State.modEntry_thermTripLow (s : State) (m e : Nat) (f : MtgEntry → MtgEntry) : (s.modEntry m e f).thermTripLow = s.thermTripLow := rfl
@[simp] theorem State.modEntry_strideMark (s : State) (m e : Nat) (f : MtgEntry → MtgEntry) : (s.modEntry m e f).strideMark = s.strideMark := rfl
@[simp] theorem State.modEntry_draws (s : State) (m e : Nat) (f : MtgEntry → MtgEntry) : (s.modEntry m e f).draws = s.draws := rfl

/-! ### modPdk -/

@[simp] theorem State.modPdk_pending (s : State) (p : Nat) (f : Paddock → Paddock) : (s.modPdk p f).pending = s.pending := rfl
@[simp] theorem State.modPdk_time (s : State) (p : Nat) (f : Paddock → Paddock) : (s.modPdk p f).time = s.time := rfl
@[simp] theorem State.modPdk_regs (s : State) (p : Nat) (f : Paddock → Paddock) : (s.modPdk p f).regs = s.regs := rfl
@[simp] theorem State.modPdk_shadows (s : State) (p : Nat) (f : Paddock → Paddock) : (s.modPdk p f).shadows = s.shadows := rfl
@[simp] theorem State.modPdk_devSet (s : State) (p : Nat) (f : Paddock → Paddock) : (s.modPdk p f).devSet = s.devSet := rfl
@[simp] theorem State.modPdk_hostSet (s : State) (p : Nat) (f : Paddock → Paddock) : (s.modPdk p f).hostSet = s.hostSet := rfl
@[simp] theorem State.modPdk_barSet (s : State) (p : Nat) (f : Paddock → Paddock) : (s.modPdk p f).barSet = s.barSet := rfl
@[simp] theorem State.modPdk_staged (s : State) (p : Nat) (f : Paddock → Paddock) : (s.modPdk p f).staged = s.staged := rfl
@[simp] theorem State.modPdk_changes (s : State) (p : Nat) (f : Paddock → Paddock) : (s.modPdk p f).changes = s.changes := rfl
@[simp] theorem State.modPdk_masks (s : State) (p : Nat) (f : Paddock → Paddock) : (s.modPdk p f).masks = s.masks := rfl
@[simp] theorem State.modPdk_shares (s : State) (p : Nat) (f : Paddock → Paddock) : (s.modPdk p f).shares = s.shares := rfl
@[simp] theorem State.modPdk_regions (s : State) (p : Nat) (f : Paddock → Paddock) : (s.modPdk p f).regions = s.regions := rfl
@[simp] theorem State.modPdk_sheaves (s : State) (p : Nat) (f : Paddock → Paddock) : (s.modPdk p f).sheaves = s.sheaves := rfl
@[simp] theorem State.modPdk_tiles (s : State) (p : Nat) (f : Paddock → Paddock) : (s.modPdk p f).tiles = s.tiles := rfl
@[simp] theorem State.modPdk_mem (s : State) (p : Nat) (f : Paddock → Paddock) : (s.modPdk p f).mem = s.mem := rfl
@[simp] theorem State.modPdk_hbm (s : State) (p : Nat) (f : Paddock → Paddock) : (s.modPdk p f).hbm = s.hbm := rfl
@[simp] theorem State.modPdk_eccWords (s : State) (p : Nat) (f : Paddock → Paddock) : (s.modPdk p f).eccWords = s.eccWords := rfl
@[simp] theorem State.modPdk_eccUnits (s : State) (p : Nat) (f : Paddock → Paddock) : (s.modPdk p f).eccUnits = s.eccUnits := rfl
@[simp] theorem State.modPdk_hbmCe (s : State) (p : Nat) (f : Paddock → Paddock) : (s.modPdk p f).hbmCe = s.hbmCe := rfl
@[simp] theorem State.modPdk_hbmUe (s : State) (p : Nat) (f : Paddock → Paddock) : (s.modPdk p f).hbmUe = s.hbmUe := rfl
@[simp] theorem State.modPdk_hbmErr (s : State) (p : Nat) (f : Paddock → Paddock) : (s.modPdk p f).hbmErr = s.hbmErr := rfl
@[simp] theorem State.modPdk_host (s : State) (p : Nat) (f : Paddock → Paddock) : (s.modPdk p f).host = s.host := rfl
@[simp] theorem State.modPdk_gleaner (s : State) (p : Nat) (f : Paddock → Paddock) : (s.modPdk p f).gleaner = s.gleaner := rfl
@[simp] theorem State.modPdk_progs (s : State) (p : Nat) (f : Paddock → Paddock) : (s.modPdk p f).progs = s.progs := rfl
@[simp] theorem State.modPdk_debugMem (s : State) (p : Nat) (f : Paddock → Paddock) : (s.modPdk p f).debugMem = s.debugMem := rfl
@[simp] theorem State.modPdk_ports (s : State) (p : Nat) (f : Paddock → Paddock) : (s.modPdk p f).ports = s.ports := rfl
@[simp] theorem State.modPdk_tethers (s : State) (p : Nat) (f : Paddock → Paddock) : (s.modPdk p f).tethers = s.tethers := rfl
@[simp] theorem State.modPdk_sites (s : State) (p : Nat) (f : Paddock → Paddock) : (s.modPdk p f).sites = s.sites := rfl
@[simp] theorem State.modPdk_colls (s : State) (p : Nat) (f : Paddock → Paddock) : (s.modPdk p f).colls = s.colls := rfl
@[simp] theorem State.modPdk_atomicsDone (s : State) (p : Nat) (f : Paddock → Paddock) : (s.modPdk p f).atomicsDone = s.atomicsDone := rfl
@[simp] theorem State.modPdk_nextColl (s : State) (p : Nat) (f : Paddock → Paddock) : (s.modPdk p f).nextColl = s.nextColl := rfl
@[simp] theorem State.modPdk_power (s : State) (p : Nat) (f : Paddock → Paddock) : (s.modPdk p f).power = s.power := rfl
@[simp] theorem State.modPdk_boot (s : State) (p : Nat) (f : Paddock → Paddock) : (s.modPdk p f).boot = s.boot := rfl
@[simp] theorem State.modPdk_sec (s : State) (p : Nat) (f : Paddock → Paddock) : (s.modPdk p f).sec = s.sec := rfl
@[simp] theorem State.modPdk_flash (s : State) (p : Nat) (f : Paddock → Paddock) : (s.modPdk p f).flash = s.flash := rfl
@[simp] theorem State.modPdk_mgt (s : State) (p : Nat) (f : Paddock → Paddock) : (s.modPdk p f).mgt = s.mgt := rfl
@[simp] theorem State.modPdk_thermTripLow (s : State) (p : Nat) (f : Paddock → Paddock) : (s.modPdk p f).thermTripLow = s.thermTripLow := rfl
@[simp] theorem State.modPdk_strideMark (s : State) (p : Nat) (f : Paddock → Paddock) : (s.modPdk p f).strideMark = s.strideMark := rfl
@[simp] theorem State.modPdk_draws (s : State) (p : Nat) (f : Paddock → Paddock) : (s.modPdk p f).draws = s.draws := rfl

/-! ### setRegion -/

@[simp] theorem State.setRegion_pending (s : State) (r : Nat) (x : Region) : (s.setRegion r x).pending = s.pending := rfl
@[simp] theorem State.setRegion_time (s : State) (r : Nat) (x : Region) : (s.setRegion r x).time = s.time := rfl
@[simp] theorem State.setRegion_regs (s : State) (r : Nat) (x : Region) : (s.setRegion r x).regs = s.regs := rfl
@[simp] theorem State.setRegion_shadows (s : State) (r : Nat) (x : Region) : (s.setRegion r x).shadows = s.shadows := rfl
@[simp] theorem State.setRegion_devSet (s : State) (r : Nat) (x : Region) : (s.setRegion r x).devSet = s.devSet := rfl
@[simp] theorem State.setRegion_hostSet (s : State) (r : Nat) (x : Region) : (s.setRegion r x).hostSet = s.hostSet := rfl
@[simp] theorem State.setRegion_barSet (s : State) (r : Nat) (x : Region) : (s.setRegion r x).barSet = s.barSet := rfl
@[simp] theorem State.setRegion_staged (s : State) (r : Nat) (x : Region) : (s.setRegion r x).staged = s.staged := rfl
@[simp] theorem State.setRegion_changes (s : State) (r : Nat) (x : Region) : (s.setRegion r x).changes = s.changes := rfl
@[simp] theorem State.setRegion_masks (s : State) (r : Nat) (x : Region) : (s.setRegion r x).masks = s.masks := rfl
@[simp] theorem State.setRegion_shares (s : State) (r : Nat) (x : Region) : (s.setRegion r x).shares = s.shares := rfl
@[simp] theorem State.setRegion_paddocks (s : State) (r : Nat) (x : Region) : (s.setRegion r x).paddocks = s.paddocks := rfl
@[simp] theorem State.setRegion_sheaves (s : State) (r : Nat) (x : Region) : (s.setRegion r x).sheaves = s.sheaves := rfl
@[simp] theorem State.setRegion_tiles (s : State) (r : Nat) (x : Region) : (s.setRegion r x).tiles = s.tiles := rfl
@[simp] theorem State.setRegion_mem (s : State) (r : Nat) (x : Region) : (s.setRegion r x).mem = s.mem := rfl
@[simp] theorem State.setRegion_hbm (s : State) (r : Nat) (x : Region) : (s.setRegion r x).hbm = s.hbm := rfl
@[simp] theorem State.setRegion_eccWords (s : State) (r : Nat) (x : Region) : (s.setRegion r x).eccWords = s.eccWords := rfl
@[simp] theorem State.setRegion_eccUnits (s : State) (r : Nat) (x : Region) : (s.setRegion r x).eccUnits = s.eccUnits := rfl
@[simp] theorem State.setRegion_hbmCe (s : State) (r : Nat) (x : Region) : (s.setRegion r x).hbmCe = s.hbmCe := rfl
@[simp] theorem State.setRegion_hbmUe (s : State) (r : Nat) (x : Region) : (s.setRegion r x).hbmUe = s.hbmUe := rfl
@[simp] theorem State.setRegion_hbmErr (s : State) (r : Nat) (x : Region) : (s.setRegion r x).hbmErr = s.hbmErr := rfl
@[simp] theorem State.setRegion_host (s : State) (r : Nat) (x : Region) : (s.setRegion r x).host = s.host := rfl
@[simp] theorem State.setRegion_gleaner (s : State) (r : Nat) (x : Region) : (s.setRegion r x).gleaner = s.gleaner := rfl
@[simp] theorem State.setRegion_progs (s : State) (r : Nat) (x : Region) : (s.setRegion r x).progs = s.progs := rfl
@[simp] theorem State.setRegion_debugMem (s : State) (r : Nat) (x : Region) : (s.setRegion r x).debugMem = s.debugMem := rfl
@[simp] theorem State.setRegion_ports (s : State) (r : Nat) (x : Region) : (s.setRegion r x).ports = s.ports := rfl
@[simp] theorem State.setRegion_tethers (s : State) (r : Nat) (x : Region) : (s.setRegion r x).tethers = s.tethers := rfl
@[simp] theorem State.setRegion_sites (s : State) (r : Nat) (x : Region) : (s.setRegion r x).sites = s.sites := rfl
@[simp] theorem State.setRegion_colls (s : State) (r : Nat) (x : Region) : (s.setRegion r x).colls = s.colls := rfl
@[simp] theorem State.setRegion_atomicsDone (s : State) (r : Nat) (x : Region) : (s.setRegion r x).atomicsDone = s.atomicsDone := rfl
@[simp] theorem State.setRegion_nextColl (s : State) (r : Nat) (x : Region) : (s.setRegion r x).nextColl = s.nextColl := rfl
@[simp] theorem State.setRegion_power (s : State) (r : Nat) (x : Region) : (s.setRegion r x).power = s.power := rfl
@[simp] theorem State.setRegion_boot (s : State) (r : Nat) (x : Region) : (s.setRegion r x).boot = s.boot := rfl
@[simp] theorem State.setRegion_sec (s : State) (r : Nat) (x : Region) : (s.setRegion r x).sec = s.sec := rfl
@[simp] theorem State.setRegion_flash (s : State) (r : Nat) (x : Region) : (s.setRegion r x).flash = s.flash := rfl
@[simp] theorem State.setRegion_mgt (s : State) (r : Nat) (x : Region) : (s.setRegion r x).mgt = s.mgt := rfl
@[simp] theorem State.setRegion_thermTripLow (s : State) (r : Nat) (x : Region) : (s.setRegion r x).thermTripLow = s.thermTripLow := rfl
@[simp] theorem State.setRegion_strideMark (s : State) (r : Nat) (x : Region) : (s.setRegion r x).strideMark = s.strideMark := rfl
@[simp] theorem State.setRegion_draws (s : State) (r : Nat) (x : Region) : (s.setRegion r x).draws = s.draws := rfl

/-! ### modPort -/

@[simp] theorem State.modPort_pending (s : State) (n : Nat) (f : Port → Port) : (s.modPort n f).pending = s.pending := rfl
@[simp] theorem State.modPort_time (s : State) (n : Nat) (f : Port → Port) : (s.modPort n f).time = s.time := rfl
@[simp] theorem State.modPort_regs (s : State) (n : Nat) (f : Port → Port) : (s.modPort n f).regs = s.regs := rfl
@[simp] theorem State.modPort_shadows (s : State) (n : Nat) (f : Port → Port) : (s.modPort n f).shadows = s.shadows := rfl
@[simp] theorem State.modPort_devSet (s : State) (n : Nat) (f : Port → Port) : (s.modPort n f).devSet = s.devSet := rfl
@[simp] theorem State.modPort_hostSet (s : State) (n : Nat) (f : Port → Port) : (s.modPort n f).hostSet = s.hostSet := rfl
@[simp] theorem State.modPort_barSet (s : State) (n : Nat) (f : Port → Port) : (s.modPort n f).barSet = s.barSet := rfl
@[simp] theorem State.modPort_staged (s : State) (n : Nat) (f : Port → Port) : (s.modPort n f).staged = s.staged := rfl
@[simp] theorem State.modPort_changes (s : State) (n : Nat) (f : Port → Port) : (s.modPort n f).changes = s.changes := rfl
@[simp] theorem State.modPort_masks (s : State) (n : Nat) (f : Port → Port) : (s.modPort n f).masks = s.masks := rfl
@[simp] theorem State.modPort_shares (s : State) (n : Nat) (f : Port → Port) : (s.modPort n f).shares = s.shares := rfl
@[simp] theorem State.modPort_regions (s : State) (n : Nat) (f : Port → Port) : (s.modPort n f).regions = s.regions := rfl
@[simp] theorem State.modPort_paddocks (s : State) (n : Nat) (f : Port → Port) : (s.modPort n f).paddocks = s.paddocks := rfl
@[simp] theorem State.modPort_sheaves (s : State) (n : Nat) (f : Port → Port) : (s.modPort n f).sheaves = s.sheaves := rfl
@[simp] theorem State.modPort_tiles (s : State) (n : Nat) (f : Port → Port) : (s.modPort n f).tiles = s.tiles := rfl
@[simp] theorem State.modPort_mem (s : State) (n : Nat) (f : Port → Port) : (s.modPort n f).mem = s.mem := rfl
@[simp] theorem State.modPort_hbm (s : State) (n : Nat) (f : Port → Port) : (s.modPort n f).hbm = s.hbm := rfl
@[simp] theorem State.modPort_eccWords (s : State) (n : Nat) (f : Port → Port) : (s.modPort n f).eccWords = s.eccWords := rfl
@[simp] theorem State.modPort_eccUnits (s : State) (n : Nat) (f : Port → Port) : (s.modPort n f).eccUnits = s.eccUnits := rfl
@[simp] theorem State.modPort_hbmCe (s : State) (n : Nat) (f : Port → Port) : (s.modPort n f).hbmCe = s.hbmCe := rfl
@[simp] theorem State.modPort_hbmUe (s : State) (n : Nat) (f : Port → Port) : (s.modPort n f).hbmUe = s.hbmUe := rfl
@[simp] theorem State.modPort_hbmErr (s : State) (n : Nat) (f : Port → Port) : (s.modPort n f).hbmErr = s.hbmErr := rfl
@[simp] theorem State.modPort_host (s : State) (n : Nat) (f : Port → Port) : (s.modPort n f).host = s.host := rfl
@[simp] theorem State.modPort_gleaner (s : State) (n : Nat) (f : Port → Port) : (s.modPort n f).gleaner = s.gleaner := rfl
@[simp] theorem State.modPort_progs (s : State) (n : Nat) (f : Port → Port) : (s.modPort n f).progs = s.progs := rfl
@[simp] theorem State.modPort_debugMem (s : State) (n : Nat) (f : Port → Port) : (s.modPort n f).debugMem = s.debugMem := rfl
@[simp] theorem State.modPort_tethers (s : State) (n : Nat) (f : Port → Port) : (s.modPort n f).tethers = s.tethers := rfl
@[simp] theorem State.modPort_sites (s : State) (n : Nat) (f : Port → Port) : (s.modPort n f).sites = s.sites := rfl
@[simp] theorem State.modPort_colls (s : State) (n : Nat) (f : Port → Port) : (s.modPort n f).colls = s.colls := rfl
@[simp] theorem State.modPort_atomicsDone (s : State) (n : Nat) (f : Port → Port) : (s.modPort n f).atomicsDone = s.atomicsDone := rfl
@[simp] theorem State.modPort_nextColl (s : State) (n : Nat) (f : Port → Port) : (s.modPort n f).nextColl = s.nextColl := rfl
@[simp] theorem State.modPort_power (s : State) (n : Nat) (f : Port → Port) : (s.modPort n f).power = s.power := rfl
@[simp] theorem State.modPort_boot (s : State) (n : Nat) (f : Port → Port) : (s.modPort n f).boot = s.boot := rfl
@[simp] theorem State.modPort_sec (s : State) (n : Nat) (f : Port → Port) : (s.modPort n f).sec = s.sec := rfl
@[simp] theorem State.modPort_flash (s : State) (n : Nat) (f : Port → Port) : (s.modPort n f).flash = s.flash := rfl
@[simp] theorem State.modPort_mgt (s : State) (n : Nat) (f : Port → Port) : (s.modPort n f).mgt = s.mgt := rfl
@[simp] theorem State.modPort_thermTripLow (s : State) (n : Nat) (f : Port → Port) : (s.modPort n f).thermTripLow = s.thermTripLow := rfl
@[simp] theorem State.modPort_strideMark (s : State) (n : Nat) (f : Port → Port) : (s.modPort n f).strideMark = s.strideMark := rfl
@[simp] theorem State.modPort_draws (s : State) (n : Nat) (f : Port → Port) : (s.modPort n f).draws = s.draws := rfl

/-! ### modTether -/

@[simp] theorem State.modTether_pending (s : State) (t : Nat) (f : Tether → Tether) : (s.modTether t f).pending = s.pending := rfl
@[simp] theorem State.modTether_time (s : State) (t : Nat) (f : Tether → Tether) : (s.modTether t f).time = s.time := rfl
@[simp] theorem State.modTether_regs (s : State) (t : Nat) (f : Tether → Tether) : (s.modTether t f).regs = s.regs := rfl
@[simp] theorem State.modTether_shadows (s : State) (t : Nat) (f : Tether → Tether) : (s.modTether t f).shadows = s.shadows := rfl
@[simp] theorem State.modTether_devSet (s : State) (t : Nat) (f : Tether → Tether) : (s.modTether t f).devSet = s.devSet := rfl
@[simp] theorem State.modTether_hostSet (s : State) (t : Nat) (f : Tether → Tether) : (s.modTether t f).hostSet = s.hostSet := rfl
@[simp] theorem State.modTether_barSet (s : State) (t : Nat) (f : Tether → Tether) : (s.modTether t f).barSet = s.barSet := rfl
@[simp] theorem State.modTether_staged (s : State) (t : Nat) (f : Tether → Tether) : (s.modTether t f).staged = s.staged := rfl
@[simp] theorem State.modTether_changes (s : State) (t : Nat) (f : Tether → Tether) : (s.modTether t f).changes = s.changes := rfl
@[simp] theorem State.modTether_masks (s : State) (t : Nat) (f : Tether → Tether) : (s.modTether t f).masks = s.masks := rfl
@[simp] theorem State.modTether_shares (s : State) (t : Nat) (f : Tether → Tether) : (s.modTether t f).shares = s.shares := rfl
@[simp] theorem State.modTether_regions (s : State) (t : Nat) (f : Tether → Tether) : (s.modTether t f).regions = s.regions := rfl
@[simp] theorem State.modTether_paddocks (s : State) (t : Nat) (f : Tether → Tether) : (s.modTether t f).paddocks = s.paddocks := rfl
@[simp] theorem State.modTether_sheaves (s : State) (t : Nat) (f : Tether → Tether) : (s.modTether t f).sheaves = s.sheaves := rfl
@[simp] theorem State.modTether_tiles (s : State) (t : Nat) (f : Tether → Tether) : (s.modTether t f).tiles = s.tiles := rfl
@[simp] theorem State.modTether_mem (s : State) (t : Nat) (f : Tether → Tether) : (s.modTether t f).mem = s.mem := rfl
@[simp] theorem State.modTether_hbm (s : State) (t : Nat) (f : Tether → Tether) : (s.modTether t f).hbm = s.hbm := rfl
@[simp] theorem State.modTether_eccWords (s : State) (t : Nat) (f : Tether → Tether) : (s.modTether t f).eccWords = s.eccWords := rfl
@[simp] theorem State.modTether_eccUnits (s : State) (t : Nat) (f : Tether → Tether) : (s.modTether t f).eccUnits = s.eccUnits := rfl
@[simp] theorem State.modTether_hbmCe (s : State) (t : Nat) (f : Tether → Tether) : (s.modTether t f).hbmCe = s.hbmCe := rfl
@[simp] theorem State.modTether_hbmUe (s : State) (t : Nat) (f : Tether → Tether) : (s.modTether t f).hbmUe = s.hbmUe := rfl
@[simp] theorem State.modTether_hbmErr (s : State) (t : Nat) (f : Tether → Tether) : (s.modTether t f).hbmErr = s.hbmErr := rfl
@[simp] theorem State.modTether_host (s : State) (t : Nat) (f : Tether → Tether) : (s.modTether t f).host = s.host := rfl
@[simp] theorem State.modTether_gleaner (s : State) (t : Nat) (f : Tether → Tether) : (s.modTether t f).gleaner = s.gleaner := rfl
@[simp] theorem State.modTether_progs (s : State) (t : Nat) (f : Tether → Tether) : (s.modTether t f).progs = s.progs := rfl
@[simp] theorem State.modTether_debugMem (s : State) (t : Nat) (f : Tether → Tether) : (s.modTether t f).debugMem = s.debugMem := rfl
@[simp] theorem State.modTether_ports (s : State) (t : Nat) (f : Tether → Tether) : (s.modTether t f).ports = s.ports := rfl
@[simp] theorem State.modTether_sites (s : State) (t : Nat) (f : Tether → Tether) : (s.modTether t f).sites = s.sites := rfl
@[simp] theorem State.modTether_colls (s : State) (t : Nat) (f : Tether → Tether) : (s.modTether t f).colls = s.colls := rfl
@[simp] theorem State.modTether_atomicsDone (s : State) (t : Nat) (f : Tether → Tether) : (s.modTether t f).atomicsDone = s.atomicsDone := rfl
@[simp] theorem State.modTether_nextColl (s : State) (t : Nat) (f : Tether → Tether) : (s.modTether t f).nextColl = s.nextColl := rfl
@[simp] theorem State.modTether_power (s : State) (t : Nat) (f : Tether → Tether) : (s.modTether t f).power = s.power := rfl
@[simp] theorem State.modTether_boot (s : State) (t : Nat) (f : Tether → Tether) : (s.modTether t f).boot = s.boot := rfl
@[simp] theorem State.modTether_sec (s : State) (t : Nat) (f : Tether → Tether) : (s.modTether t f).sec = s.sec := rfl
@[simp] theorem State.modTether_flash (s : State) (t : Nat) (f : Tether → Tether) : (s.modTether t f).flash = s.flash := rfl
@[simp] theorem State.modTether_mgt (s : State) (t : Nat) (f : Tether → Tether) : (s.modTether t f).mgt = s.mgt := rfl
@[simp] theorem State.modTether_thermTripLow (s : State) (t : Nat) (f : Tether → Tether) : (s.modTether t f).thermTripLow = s.thermTripLow := rfl
@[simp] theorem State.modTether_strideMark (s : State) (t : Nat) (f : Tether → Tether) : (s.modTether t f).strideMark = s.strideMark := rfl
@[simp] theorem State.modTether_draws (s : State) (t : Nat) (f : Tether → Tether) : (s.modTether t f).draws = s.draws := rfl

/-! ### modSite -/

@[simp] theorem State.modSite_pending (s : State) (m : Nat) (f : Site → Site) : (s.modSite m f).pending = s.pending := rfl
@[simp] theorem State.modSite_time (s : State) (m : Nat) (f : Site → Site) : (s.modSite m f).time = s.time := rfl
@[simp] theorem State.modSite_regs (s : State) (m : Nat) (f : Site → Site) : (s.modSite m f).regs = s.regs := rfl
@[simp] theorem State.modSite_shadows (s : State) (m : Nat) (f : Site → Site) : (s.modSite m f).shadows = s.shadows := rfl
@[simp] theorem State.modSite_devSet (s : State) (m : Nat) (f : Site → Site) : (s.modSite m f).devSet = s.devSet := rfl
@[simp] theorem State.modSite_hostSet (s : State) (m : Nat) (f : Site → Site) : (s.modSite m f).hostSet = s.hostSet := rfl
@[simp] theorem State.modSite_barSet (s : State) (m : Nat) (f : Site → Site) : (s.modSite m f).barSet = s.barSet := rfl
@[simp] theorem State.modSite_staged (s : State) (m : Nat) (f : Site → Site) : (s.modSite m f).staged = s.staged := rfl
@[simp] theorem State.modSite_changes (s : State) (m : Nat) (f : Site → Site) : (s.modSite m f).changes = s.changes := rfl
@[simp] theorem State.modSite_masks (s : State) (m : Nat) (f : Site → Site) : (s.modSite m f).masks = s.masks := rfl
@[simp] theorem State.modSite_shares (s : State) (m : Nat) (f : Site → Site) : (s.modSite m f).shares = s.shares := rfl
@[simp] theorem State.modSite_regions (s : State) (m : Nat) (f : Site → Site) : (s.modSite m f).regions = s.regions := rfl
@[simp] theorem State.modSite_paddocks (s : State) (m : Nat) (f : Site → Site) : (s.modSite m f).paddocks = s.paddocks := rfl
@[simp] theorem State.modSite_sheaves (s : State) (m : Nat) (f : Site → Site) : (s.modSite m f).sheaves = s.sheaves := rfl
@[simp] theorem State.modSite_tiles (s : State) (m : Nat) (f : Site → Site) : (s.modSite m f).tiles = s.tiles := rfl
@[simp] theorem State.modSite_mem (s : State) (m : Nat) (f : Site → Site) : (s.modSite m f).mem = s.mem := rfl
@[simp] theorem State.modSite_hbm (s : State) (m : Nat) (f : Site → Site) : (s.modSite m f).hbm = s.hbm := rfl
@[simp] theorem State.modSite_eccWords (s : State) (m : Nat) (f : Site → Site) : (s.modSite m f).eccWords = s.eccWords := rfl
@[simp] theorem State.modSite_eccUnits (s : State) (m : Nat) (f : Site → Site) : (s.modSite m f).eccUnits = s.eccUnits := rfl
@[simp] theorem State.modSite_hbmCe (s : State) (m : Nat) (f : Site → Site) : (s.modSite m f).hbmCe = s.hbmCe := rfl
@[simp] theorem State.modSite_hbmUe (s : State) (m : Nat) (f : Site → Site) : (s.modSite m f).hbmUe = s.hbmUe := rfl
@[simp] theorem State.modSite_hbmErr (s : State) (m : Nat) (f : Site → Site) : (s.modSite m f).hbmErr = s.hbmErr := rfl
@[simp] theorem State.modSite_host (s : State) (m : Nat) (f : Site → Site) : (s.modSite m f).host = s.host := rfl
@[simp] theorem State.modSite_gleaner (s : State) (m : Nat) (f : Site → Site) : (s.modSite m f).gleaner = s.gleaner := rfl
@[simp] theorem State.modSite_progs (s : State) (m : Nat) (f : Site → Site) : (s.modSite m f).progs = s.progs := rfl
@[simp] theorem State.modSite_debugMem (s : State) (m : Nat) (f : Site → Site) : (s.modSite m f).debugMem = s.debugMem := rfl
@[simp] theorem State.modSite_ports (s : State) (m : Nat) (f : Site → Site) : (s.modSite m f).ports = s.ports := rfl
@[simp] theorem State.modSite_tethers (s : State) (m : Nat) (f : Site → Site) : (s.modSite m f).tethers = s.tethers := rfl
@[simp] theorem State.modSite_colls (s : State) (m : Nat) (f : Site → Site) : (s.modSite m f).colls = s.colls := rfl
@[simp] theorem State.modSite_atomicsDone (s : State) (m : Nat) (f : Site → Site) : (s.modSite m f).atomicsDone = s.atomicsDone := rfl
@[simp] theorem State.modSite_nextColl (s : State) (m : Nat) (f : Site → Site) : (s.modSite m f).nextColl = s.nextColl := rfl
@[simp] theorem State.modSite_power (s : State) (m : Nat) (f : Site → Site) : (s.modSite m f).power = s.power := rfl
@[simp] theorem State.modSite_boot (s : State) (m : Nat) (f : Site → Site) : (s.modSite m f).boot = s.boot := rfl
@[simp] theorem State.modSite_sec (s : State) (m : Nat) (f : Site → Site) : (s.modSite m f).sec = s.sec := rfl
@[simp] theorem State.modSite_flash (s : State) (m : Nat) (f : Site → Site) : (s.modSite m f).flash = s.flash := rfl
@[simp] theorem State.modSite_mgt (s : State) (m : Nat) (f : Site → Site) : (s.modSite m f).mgt = s.mgt := rfl
@[simp] theorem State.modSite_thermTripLow (s : State) (m : Nat) (f : Site → Site) : (s.modSite m f).thermTripLow = s.thermTripLow := rfl
@[simp] theorem State.modSite_strideMark (s : State) (m : Nat) (f : Site → Site) : (s.modSite m f).strideMark = s.strideMark := rfl
@[simp] theorem State.modSite_draws (s : State) (m : Nat) (f : Site → Site) : (s.modSite m f).draws = s.draws := rfl

/-! ### modQueue -/

@[simp] theorem State.modQueue_pending (s : State) (q : Nat) (f : QueueHead → QueueHead) : (s.modQueue q f).pending = s.pending := rfl
@[simp] theorem State.modQueue_time (s : State) (q : Nat) (f : QueueHead → QueueHead) : (s.modQueue q f).time = s.time := rfl
@[simp] theorem State.modQueue_regs (s : State) (q : Nat) (f : QueueHead → QueueHead) : (s.modQueue q f).regs = s.regs := rfl
@[simp] theorem State.modQueue_shadows (s : State) (q : Nat) (f : QueueHead → QueueHead) : (s.modQueue q f).shadows = s.shadows := rfl
@[simp] theorem State.modQueue_devSet (s : State) (q : Nat) (f : QueueHead → QueueHead) : (s.modQueue q f).devSet = s.devSet := rfl
@[simp] theorem State.modQueue_hostSet (s : State) (q : Nat) (f : QueueHead → QueueHead) : (s.modQueue q f).hostSet = s.hostSet := rfl
@[simp] theorem State.modQueue_barSet (s : State) (q : Nat) (f : QueueHead → QueueHead) : (s.modQueue q f).barSet = s.barSet := rfl
@[simp] theorem State.modQueue_staged (s : State) (q : Nat) (f : QueueHead → QueueHead) : (s.modQueue q f).staged = s.staged := rfl
@[simp] theorem State.modQueue_changes (s : State) (q : Nat) (f : QueueHead → QueueHead) : (s.modQueue q f).changes = s.changes := rfl
@[simp] theorem State.modQueue_masks (s : State) (q : Nat) (f : QueueHead → QueueHead) : (s.modQueue q f).masks = s.masks := rfl
@[simp] theorem State.modQueue_shares (s : State) (q : Nat) (f : QueueHead → QueueHead) : (s.modQueue q f).shares = s.shares := rfl
@[simp] theorem State.modQueue_regions (s : State) (q : Nat) (f : QueueHead → QueueHead) : (s.modQueue q f).regions = s.regions := rfl
@[simp] theorem State.modQueue_paddocks (s : State) (q : Nat) (f : QueueHead → QueueHead) : (s.modQueue q f).paddocks = s.paddocks := rfl
@[simp] theorem State.modQueue_sheaves (s : State) (q : Nat) (f : QueueHead → QueueHead) : (s.modQueue q f).sheaves = s.sheaves := rfl
@[simp] theorem State.modQueue_tiles (s : State) (q : Nat) (f : QueueHead → QueueHead) : (s.modQueue q f).tiles = s.tiles := rfl
@[simp] theorem State.modQueue_mem (s : State) (q : Nat) (f : QueueHead → QueueHead) : (s.modQueue q f).mem = s.mem := rfl
@[simp] theorem State.modQueue_hbm (s : State) (q : Nat) (f : QueueHead → QueueHead) : (s.modQueue q f).hbm = s.hbm := rfl
@[simp] theorem State.modQueue_eccWords (s : State) (q : Nat) (f : QueueHead → QueueHead) : (s.modQueue q f).eccWords = s.eccWords := rfl
@[simp] theorem State.modQueue_eccUnits (s : State) (q : Nat) (f : QueueHead → QueueHead) : (s.modQueue q f).eccUnits = s.eccUnits := rfl
@[simp] theorem State.modQueue_hbmCe (s : State) (q : Nat) (f : QueueHead → QueueHead) : (s.modQueue q f).hbmCe = s.hbmCe := rfl
@[simp] theorem State.modQueue_hbmUe (s : State) (q : Nat) (f : QueueHead → QueueHead) : (s.modQueue q f).hbmUe = s.hbmUe := rfl
@[simp] theorem State.modQueue_hbmErr (s : State) (q : Nat) (f : QueueHead → QueueHead) : (s.modQueue q f).hbmErr = s.hbmErr := rfl
@[simp] theorem State.modQueue_gleaner (s : State) (q : Nat) (f : QueueHead → QueueHead) : (s.modQueue q f).gleaner = s.gleaner := rfl
@[simp] theorem State.modQueue_progs (s : State) (q : Nat) (f : QueueHead → QueueHead) : (s.modQueue q f).progs = s.progs := rfl
@[simp] theorem State.modQueue_debugMem (s : State) (q : Nat) (f : QueueHead → QueueHead) : (s.modQueue q f).debugMem = s.debugMem := rfl
@[simp] theorem State.modQueue_ports (s : State) (q : Nat) (f : QueueHead → QueueHead) : (s.modQueue q f).ports = s.ports := rfl
@[simp] theorem State.modQueue_tethers (s : State) (q : Nat) (f : QueueHead → QueueHead) : (s.modQueue q f).tethers = s.tethers := rfl
@[simp] theorem State.modQueue_sites (s : State) (q : Nat) (f : QueueHead → QueueHead) : (s.modQueue q f).sites = s.sites := rfl
@[simp] theorem State.modQueue_colls (s : State) (q : Nat) (f : QueueHead → QueueHead) : (s.modQueue q f).colls = s.colls := rfl
@[simp] theorem State.modQueue_atomicsDone (s : State) (q : Nat) (f : QueueHead → QueueHead) : (s.modQueue q f).atomicsDone = s.atomicsDone := rfl
@[simp] theorem State.modQueue_nextColl (s : State) (q : Nat) (f : QueueHead → QueueHead) : (s.modQueue q f).nextColl = s.nextColl := rfl
@[simp] theorem State.modQueue_power (s : State) (q : Nat) (f : QueueHead → QueueHead) : (s.modQueue q f).power = s.power := rfl
@[simp] theorem State.modQueue_boot (s : State) (q : Nat) (f : QueueHead → QueueHead) : (s.modQueue q f).boot = s.boot := rfl
@[simp] theorem State.modQueue_sec (s : State) (q : Nat) (f : QueueHead → QueueHead) : (s.modQueue q f).sec = s.sec := rfl
@[simp] theorem State.modQueue_flash (s : State) (q : Nat) (f : QueueHead → QueueHead) : (s.modQueue q f).flash = s.flash := rfl
@[simp] theorem State.modQueue_mgt (s : State) (q : Nat) (f : QueueHead → QueueHead) : (s.modQueue q f).mgt = s.mgt := rfl
@[simp] theorem State.modQueue_thermTripLow (s : State) (q : Nat) (f : QueueHead → QueueHead) : (s.modQueue q f).thermTripLow = s.thermTripLow := rfl
@[simp] theorem State.modQueue_strideMark (s : State) (q : Nat) (f : QueueHead → QueueHead) : (s.modQueue q f).strideMark = s.strideMark := rfl
@[simp] theorem State.modQueue_draws (s : State) (q : Nat) (f : QueueHead → QueueHead) : (s.modQueue q f).draws = s.draws := rfl

/-! ### setMask -/

@[simp] theorem State.setMask_pending (s : State) (p : Nat) (v : BitVec 400) : (s.setMask p v).pending = s.pending := rfl
@[simp] theorem State.setMask_time (s : State) (p : Nat) (v : BitVec 400) : (s.setMask p v).time = s.time := rfl
@[simp] theorem State.setMask_regs (s : State) (p : Nat) (v : BitVec 400) : (s.setMask p v).regs = s.regs := rfl
@[simp] theorem State.setMask_shadows (s : State) (p : Nat) (v : BitVec 400) : (s.setMask p v).shadows = s.shadows := rfl
@[simp] theorem State.setMask_devSet (s : State) (p : Nat) (v : BitVec 400) : (s.setMask p v).devSet = s.devSet := rfl
@[simp] theorem State.setMask_hostSet (s : State) (p : Nat) (v : BitVec 400) : (s.setMask p v).hostSet = s.hostSet := rfl
@[simp] theorem State.setMask_barSet (s : State) (p : Nat) (v : BitVec 400) : (s.setMask p v).barSet = s.barSet := rfl
@[simp] theorem State.setMask_staged (s : State) (p : Nat) (v : BitVec 400) : (s.setMask p v).staged = s.staged := rfl
@[simp] theorem State.setMask_changes (s : State) (p : Nat) (v : BitVec 400) : (s.setMask p v).changes = s.changes := rfl
@[simp] theorem State.setMask_shares (s : State) (p : Nat) (v : BitVec 400) : (s.setMask p v).shares = s.shares := rfl
@[simp] theorem State.setMask_regions (s : State) (p : Nat) (v : BitVec 400) : (s.setMask p v).regions = s.regions := rfl
@[simp] theorem State.setMask_paddocks (s : State) (p : Nat) (v : BitVec 400) : (s.setMask p v).paddocks = s.paddocks := rfl
@[simp] theorem State.setMask_sheaves (s : State) (p : Nat) (v : BitVec 400) : (s.setMask p v).sheaves = s.sheaves := rfl
@[simp] theorem State.setMask_tiles (s : State) (p : Nat) (v : BitVec 400) : (s.setMask p v).tiles = s.tiles := rfl
@[simp] theorem State.setMask_mem (s : State) (p : Nat) (v : BitVec 400) : (s.setMask p v).mem = s.mem := rfl
@[simp] theorem State.setMask_hbm (s : State) (p : Nat) (v : BitVec 400) : (s.setMask p v).hbm = s.hbm := rfl
@[simp] theorem State.setMask_eccWords (s : State) (p : Nat) (v : BitVec 400) : (s.setMask p v).eccWords = s.eccWords := rfl
@[simp] theorem State.setMask_eccUnits (s : State) (p : Nat) (v : BitVec 400) : (s.setMask p v).eccUnits = s.eccUnits := rfl
@[simp] theorem State.setMask_hbmCe (s : State) (p : Nat) (v : BitVec 400) : (s.setMask p v).hbmCe = s.hbmCe := rfl
@[simp] theorem State.setMask_hbmUe (s : State) (p : Nat) (v : BitVec 400) : (s.setMask p v).hbmUe = s.hbmUe := rfl
@[simp] theorem State.setMask_hbmErr (s : State) (p : Nat) (v : BitVec 400) : (s.setMask p v).hbmErr = s.hbmErr := rfl
@[simp] theorem State.setMask_host (s : State) (p : Nat) (v : BitVec 400) : (s.setMask p v).host = s.host := rfl
@[simp] theorem State.setMask_gleaner (s : State) (p : Nat) (v : BitVec 400) : (s.setMask p v).gleaner = s.gleaner := rfl
@[simp] theorem State.setMask_progs (s : State) (p : Nat) (v : BitVec 400) : (s.setMask p v).progs = s.progs := rfl
@[simp] theorem State.setMask_debugMem (s : State) (p : Nat) (v : BitVec 400) : (s.setMask p v).debugMem = s.debugMem := rfl
@[simp] theorem State.setMask_ports (s : State) (p : Nat) (v : BitVec 400) : (s.setMask p v).ports = s.ports := rfl
@[simp] theorem State.setMask_tethers (s : State) (p : Nat) (v : BitVec 400) : (s.setMask p v).tethers = s.tethers := rfl
@[simp] theorem State.setMask_sites (s : State) (p : Nat) (v : BitVec 400) : (s.setMask p v).sites = s.sites := rfl
@[simp] theorem State.setMask_colls (s : State) (p : Nat) (v : BitVec 400) : (s.setMask p v).colls = s.colls := rfl
@[simp] theorem State.setMask_atomicsDone (s : State) (p : Nat) (v : BitVec 400) : (s.setMask p v).atomicsDone = s.atomicsDone := rfl
@[simp] theorem State.setMask_nextColl (s : State) (p : Nat) (v : BitVec 400) : (s.setMask p v).nextColl = s.nextColl := rfl
@[simp] theorem State.setMask_power (s : State) (p : Nat) (v : BitVec 400) : (s.setMask p v).power = s.power := rfl
@[simp] theorem State.setMask_boot (s : State) (p : Nat) (v : BitVec 400) : (s.setMask p v).boot = s.boot := rfl
@[simp] theorem State.setMask_sec (s : State) (p : Nat) (v : BitVec 400) : (s.setMask p v).sec = s.sec := rfl
@[simp] theorem State.setMask_flash (s : State) (p : Nat) (v : BitVec 400) : (s.setMask p v).flash = s.flash := rfl
@[simp] theorem State.setMask_mgt (s : State) (p : Nat) (v : BitVec 400) : (s.setMask p v).mgt = s.mgt := rfl
@[simp] theorem State.setMask_thermTripLow (s : State) (p : Nat) (v : BitVec 400) : (s.setMask p v).thermTripLow = s.thermTripLow := rfl
@[simp] theorem State.setMask_strideMark (s : State) (p : Nat) (v : BitVec 400) : (s.setMask p v).strideMark = s.strideMark := rfl
@[simp] theorem State.setMask_draws (s : State) (p : Nat) (v : BitVec 400) : (s.setMask p v).draws = s.draws := rfl

/-! ### setReg -/

@[simp] theorem State.setReg_pending (s : State) (r : Reg) (v : BitVec 64) : (s.setReg r v).pending = s.pending := rfl
@[simp] theorem State.setReg_time (s : State) (r : Reg) (v : BitVec 64) : (s.setReg r v).time = s.time := rfl
@[simp] theorem State.setReg_shadows (s : State) (r : Reg) (v : BitVec 64) : (s.setReg r v).shadows = s.shadows := rfl
@[simp] theorem State.setReg_devSet (s : State) (r : Reg) (v : BitVec 64) : (s.setReg r v).devSet = s.devSet := rfl
@[simp] theorem State.setReg_hostSet (s : State) (r : Reg) (v : BitVec 64) : (s.setReg r v).hostSet = s.hostSet := rfl
@[simp] theorem State.setReg_barSet (s : State) (r : Reg) (v : BitVec 64) : (s.setReg r v).barSet = s.barSet := rfl
@[simp] theorem State.setReg_staged (s : State) (r : Reg) (v : BitVec 64) : (s.setReg r v).staged = s.staged := rfl
@[simp] theorem State.setReg_changes (s : State) (r : Reg) (v : BitVec 64) : (s.setReg r v).changes = s.changes := rfl
@[simp] theorem State.setReg_masks (s : State) (r : Reg) (v : BitVec 64) : (s.setReg r v).masks = s.masks := rfl
@[simp] theorem State.setReg_shares (s : State) (r : Reg) (v : BitVec 64) : (s.setReg r v).shares = s.shares := rfl
@[simp] theorem State.setReg_regions (s : State) (r : Reg) (v : BitVec 64) : (s.setReg r v).regions = s.regions := rfl
@[simp] theorem State.setReg_paddocks (s : State) (r : Reg) (v : BitVec 64) : (s.setReg r v).paddocks = s.paddocks := rfl
@[simp] theorem State.setReg_sheaves (s : State) (r : Reg) (v : BitVec 64) : (s.setReg r v).sheaves = s.sheaves := rfl
@[simp] theorem State.setReg_tiles (s : State) (r : Reg) (v : BitVec 64) : (s.setReg r v).tiles = s.tiles := rfl
@[simp] theorem State.setReg_mem (s : State) (r : Reg) (v : BitVec 64) : (s.setReg r v).mem = s.mem := rfl
@[simp] theorem State.setReg_hbm (s : State) (r : Reg) (v : BitVec 64) : (s.setReg r v).hbm = s.hbm := rfl
@[simp] theorem State.setReg_eccWords (s : State) (r : Reg) (v : BitVec 64) : (s.setReg r v).eccWords = s.eccWords := rfl
@[simp] theorem State.setReg_eccUnits (s : State) (r : Reg) (v : BitVec 64) : (s.setReg r v).eccUnits = s.eccUnits := rfl
@[simp] theorem State.setReg_hbmCe (s : State) (r : Reg) (v : BitVec 64) : (s.setReg r v).hbmCe = s.hbmCe := rfl
@[simp] theorem State.setReg_hbmUe (s : State) (r : Reg) (v : BitVec 64) : (s.setReg r v).hbmUe = s.hbmUe := rfl
@[simp] theorem State.setReg_hbmErr (s : State) (r : Reg) (v : BitVec 64) : (s.setReg r v).hbmErr = s.hbmErr := rfl
@[simp] theorem State.setReg_host (s : State) (r : Reg) (v : BitVec 64) : (s.setReg r v).host = s.host := rfl
@[simp] theorem State.setReg_gleaner (s : State) (r : Reg) (v : BitVec 64) : (s.setReg r v).gleaner = s.gleaner := rfl
@[simp] theorem State.setReg_progs (s : State) (r : Reg) (v : BitVec 64) : (s.setReg r v).progs = s.progs := rfl
@[simp] theorem State.setReg_debugMem (s : State) (r : Reg) (v : BitVec 64) : (s.setReg r v).debugMem = s.debugMem := rfl
@[simp] theorem State.setReg_ports (s : State) (r : Reg) (v : BitVec 64) : (s.setReg r v).ports = s.ports := rfl
@[simp] theorem State.setReg_tethers (s : State) (r : Reg) (v : BitVec 64) : (s.setReg r v).tethers = s.tethers := rfl
@[simp] theorem State.setReg_sites (s : State) (r : Reg) (v : BitVec 64) : (s.setReg r v).sites = s.sites := rfl
@[simp] theorem State.setReg_colls (s : State) (r : Reg) (v : BitVec 64) : (s.setReg r v).colls = s.colls := rfl
@[simp] theorem State.setReg_atomicsDone (s : State) (r : Reg) (v : BitVec 64) : (s.setReg r v).atomicsDone = s.atomicsDone := rfl
@[simp] theorem State.setReg_nextColl (s : State) (r : Reg) (v : BitVec 64) : (s.setReg r v).nextColl = s.nextColl := rfl
@[simp] theorem State.setReg_power (s : State) (r : Reg) (v : BitVec 64) : (s.setReg r v).power = s.power := rfl
@[simp] theorem State.setReg_boot (s : State) (r : Reg) (v : BitVec 64) : (s.setReg r v).boot = s.boot := rfl
@[simp] theorem State.setReg_sec (s : State) (r : Reg) (v : BitVec 64) : (s.setReg r v).sec = s.sec := rfl
@[simp] theorem State.setReg_flash (s : State) (r : Reg) (v : BitVec 64) : (s.setReg r v).flash = s.flash := rfl
@[simp] theorem State.setReg_mgt (s : State) (r : Reg) (v : BitVec 64) : (s.setReg r v).mgt = s.mgt := rfl
@[simp] theorem State.setReg_thermTripLow (s : State) (r : Reg) (v : BitVec 64) : (s.setReg r v).thermTripLow = s.thermTripLow := rfl
@[simp] theorem State.setReg_strideMark (s : State) (r : Reg) (v : BitVec 64) : (s.setReg r v).strideMark = s.strideMark := rfl
@[simp] theorem State.setReg_draws (s : State) (r : Reg) (v : BitVec 64) : (s.setReg r v).draws = s.draws := rfl

/-! ### setShadow -/

@[simp] theorem State.setShadow_pending (s : State) (r : Reg) (v : BitVec 64) : (s.setShadow r v).pending = s.pending := rfl
@[simp] theorem State.setShadow_time (s : State) (r : Reg) (v : BitVec 64) : (s.setShadow r v).time = s.time := rfl
@[simp] theorem State.setShadow_regs (s : State) (r : Reg) (v : BitVec 64) : (s.setShadow r v).regs = s.regs := rfl
@[simp] theorem State.setShadow_devSet (s : State) (r : Reg) (v : BitVec 64) : (s.setShadow r v).devSet = s.devSet := rfl
@[simp] theorem State.setShadow_hostSet (s : State) (r : Reg) (v : BitVec 64) : (s.setShadow r v).hostSet = s.hostSet := rfl
@[simp] theorem State.setShadow_barSet (s : State) (r : Reg) (v : BitVec 64) : (s.setShadow r v).barSet = s.barSet := rfl
@[simp] theorem State.setShadow_staged (s : State) (r : Reg) (v : BitVec 64) : (s.setShadow r v).staged = s.staged := rfl
@[simp] theorem State.setShadow_changes (s : State) (r : Reg) (v : BitVec 64) : (s.setShadow r v).changes = s.changes := rfl
@[simp] theorem State.setShadow_masks (s : State) (r : Reg) (v : BitVec 64) : (s.setShadow r v).masks = s.masks := rfl
@[simp] theorem State.setShadow_shares (s : State) (r : Reg) (v : BitVec 64) : (s.setShadow r v).shares = s.shares := rfl
@[simp] theorem State.setShadow_regions (s : State) (r : Reg) (v : BitVec 64) : (s.setShadow r v).regions = s.regions := rfl
@[simp] theorem State.setShadow_paddocks (s : State) (r : Reg) (v : BitVec 64) : (s.setShadow r v).paddocks = s.paddocks := rfl
@[simp] theorem State.setShadow_sheaves (s : State) (r : Reg) (v : BitVec 64) : (s.setShadow r v).sheaves = s.sheaves := rfl
@[simp] theorem State.setShadow_tiles (s : State) (r : Reg) (v : BitVec 64) : (s.setShadow r v).tiles = s.tiles := rfl
@[simp] theorem State.setShadow_mem (s : State) (r : Reg) (v : BitVec 64) : (s.setShadow r v).mem = s.mem := rfl
@[simp] theorem State.setShadow_hbm (s : State) (r : Reg) (v : BitVec 64) : (s.setShadow r v).hbm = s.hbm := rfl
@[simp] theorem State.setShadow_eccWords (s : State) (r : Reg) (v : BitVec 64) : (s.setShadow r v).eccWords = s.eccWords := rfl
@[simp] theorem State.setShadow_eccUnits (s : State) (r : Reg) (v : BitVec 64) : (s.setShadow r v).eccUnits = s.eccUnits := rfl
@[simp] theorem State.setShadow_hbmCe (s : State) (r : Reg) (v : BitVec 64) : (s.setShadow r v).hbmCe = s.hbmCe := rfl
@[simp] theorem State.setShadow_hbmUe (s : State) (r : Reg) (v : BitVec 64) : (s.setShadow r v).hbmUe = s.hbmUe := rfl
@[simp] theorem State.setShadow_hbmErr (s : State) (r : Reg) (v : BitVec 64) : (s.setShadow r v).hbmErr = s.hbmErr := rfl
@[simp] theorem State.setShadow_host (s : State) (r : Reg) (v : BitVec 64) : (s.setShadow r v).host = s.host := rfl
@[simp] theorem State.setShadow_gleaner (s : State) (r : Reg) (v : BitVec 64) : (s.setShadow r v).gleaner = s.gleaner := rfl
@[simp] theorem State.setShadow_progs (s : State) (r : Reg) (v : BitVec 64) : (s.setShadow r v).progs = s.progs := rfl
@[simp] theorem State.setShadow_debugMem (s : State) (r : Reg) (v : BitVec 64) : (s.setShadow r v).debugMem = s.debugMem := rfl
@[simp] theorem State.setShadow_ports (s : State) (r : Reg) (v : BitVec 64) : (s.setShadow r v).ports = s.ports := rfl
@[simp] theorem State.setShadow_tethers (s : State) (r : Reg) (v : BitVec 64) : (s.setShadow r v).tethers = s.tethers := rfl
@[simp] theorem State.setShadow_sites (s : State) (r : Reg) (v : BitVec 64) : (s.setShadow r v).sites = s.sites := rfl
@[simp] theorem State.setShadow_colls (s : State) (r : Reg) (v : BitVec 64) : (s.setShadow r v).colls = s.colls := rfl
@[simp] theorem State.setShadow_atomicsDone (s : State) (r : Reg) (v : BitVec 64) : (s.setShadow r v).atomicsDone = s.atomicsDone := rfl
@[simp] theorem State.setShadow_nextColl (s : State) (r : Reg) (v : BitVec 64) : (s.setShadow r v).nextColl = s.nextColl := rfl
@[simp] theorem State.setShadow_power (s : State) (r : Reg) (v : BitVec 64) : (s.setShadow r v).power = s.power := rfl
@[simp] theorem State.setShadow_boot (s : State) (r : Reg) (v : BitVec 64) : (s.setShadow r v).boot = s.boot := rfl
@[simp] theorem State.setShadow_sec (s : State) (r : Reg) (v : BitVec 64) : (s.setShadow r v).sec = s.sec := rfl
@[simp] theorem State.setShadow_flash (s : State) (r : Reg) (v : BitVec 64) : (s.setShadow r v).flash = s.flash := rfl
@[simp] theorem State.setShadow_mgt (s : State) (r : Reg) (v : BitVec 64) : (s.setShadow r v).mgt = s.mgt := rfl
@[simp] theorem State.setShadow_thermTripLow (s : State) (r : Reg) (v : BitVec 64) : (s.setShadow r v).thermTripLow = s.thermTripLow := rfl
@[simp] theorem State.setShadow_strideMark (s : State) (r : Reg) (v : BitVec 64) : (s.setShadow r v).strideMark = s.strideMark := rfl
@[simp] theorem State.setShadow_draws (s : State) (r : Reg) (v : BitVec 64) : (s.setShadow r v).draws = s.draws := rfl

/-! ### resetReg -/

@[simp] theorem State.resetReg_pending (s : State) (r : Reg) : (s.resetReg r).pending = s.pending := rfl
@[simp] theorem State.resetReg_time (s : State) (r : Reg) : (s.resetReg r).time = s.time := rfl
@[simp] theorem State.resetReg_devSet (s : State) (r : Reg) : (s.resetReg r).devSet = s.devSet := rfl
@[simp] theorem State.resetReg_hostSet (s : State) (r : Reg) : (s.resetReg r).hostSet = s.hostSet := rfl
@[simp] theorem State.resetReg_barSet (s : State) (r : Reg) : (s.resetReg r).barSet = s.barSet := rfl
@[simp] theorem State.resetReg_staged (s : State) (r : Reg) : (s.resetReg r).staged = s.staged := rfl
@[simp] theorem State.resetReg_changes (s : State) (r : Reg) : (s.resetReg r).changes = s.changes := rfl
@[simp] theorem State.resetReg_masks (s : State) (r : Reg) : (s.resetReg r).masks = s.masks := rfl
@[simp] theorem State.resetReg_shares (s : State) (r : Reg) : (s.resetReg r).shares = s.shares := rfl
@[simp] theorem State.resetReg_regions (s : State) (r : Reg) : (s.resetReg r).regions = s.regions := rfl
@[simp] theorem State.resetReg_paddocks (s : State) (r : Reg) : (s.resetReg r).paddocks = s.paddocks := rfl
@[simp] theorem State.resetReg_sheaves (s : State) (r : Reg) : (s.resetReg r).sheaves = s.sheaves := rfl
@[simp] theorem State.resetReg_tiles (s : State) (r : Reg) : (s.resetReg r).tiles = s.tiles := rfl
@[simp] theorem State.resetReg_mem (s : State) (r : Reg) : (s.resetReg r).mem = s.mem := rfl
@[simp] theorem State.resetReg_hbm (s : State) (r : Reg) : (s.resetReg r).hbm = s.hbm := rfl
@[simp] theorem State.resetReg_eccWords (s : State) (r : Reg) : (s.resetReg r).eccWords = s.eccWords := rfl
@[simp] theorem State.resetReg_eccUnits (s : State) (r : Reg) : (s.resetReg r).eccUnits = s.eccUnits := rfl
@[simp] theorem State.resetReg_hbmCe (s : State) (r : Reg) : (s.resetReg r).hbmCe = s.hbmCe := rfl
@[simp] theorem State.resetReg_hbmUe (s : State) (r : Reg) : (s.resetReg r).hbmUe = s.hbmUe := rfl
@[simp] theorem State.resetReg_hbmErr (s : State) (r : Reg) : (s.resetReg r).hbmErr = s.hbmErr := rfl
@[simp] theorem State.resetReg_host (s : State) (r : Reg) : (s.resetReg r).host = s.host := rfl
@[simp] theorem State.resetReg_gleaner (s : State) (r : Reg) : (s.resetReg r).gleaner = s.gleaner := rfl
@[simp] theorem State.resetReg_progs (s : State) (r : Reg) : (s.resetReg r).progs = s.progs := rfl
@[simp] theorem State.resetReg_debugMem (s : State) (r : Reg) : (s.resetReg r).debugMem = s.debugMem := rfl
@[simp] theorem State.resetReg_ports (s : State) (r : Reg) : (s.resetReg r).ports = s.ports := rfl
@[simp] theorem State.resetReg_tethers (s : State) (r : Reg) : (s.resetReg r).tethers = s.tethers := rfl
@[simp] theorem State.resetReg_sites (s : State) (r : Reg) : (s.resetReg r).sites = s.sites := rfl
@[simp] theorem State.resetReg_colls (s : State) (r : Reg) : (s.resetReg r).colls = s.colls := rfl
@[simp] theorem State.resetReg_atomicsDone (s : State) (r : Reg) : (s.resetReg r).atomicsDone = s.atomicsDone := rfl
@[simp] theorem State.resetReg_nextColl (s : State) (r : Reg) : (s.resetReg r).nextColl = s.nextColl := rfl
@[simp] theorem State.resetReg_power (s : State) (r : Reg) : (s.resetReg r).power = s.power := rfl
@[simp] theorem State.resetReg_boot (s : State) (r : Reg) : (s.resetReg r).boot = s.boot := rfl
@[simp] theorem State.resetReg_sec (s : State) (r : Reg) : (s.resetReg r).sec = s.sec := rfl
@[simp] theorem State.resetReg_flash (s : State) (r : Reg) : (s.resetReg r).flash = s.flash := rfl
@[simp] theorem State.resetReg_mgt (s : State) (r : Reg) : (s.resetReg r).mgt = s.mgt := rfl
@[simp] theorem State.resetReg_thermTripLow (s : State) (r : Reg) : (s.resetReg r).thermTripLow = s.thermTripLow := rfl
@[simp] theorem State.resetReg_strideMark (s : State) (r : Reg) : (s.resetReg r).strideMark = s.strideMark := rfl
@[simp] theorem State.resetReg_draws (s : State) (r : Reg) : (s.resetReg r).draws = s.draws := rfl

/-! ### setNow -/

@[simp] theorem State.setNow_pending (s : State) (t : Nat) : (s.setNow t).pending = s.pending := rfl
@[simp] theorem State.setNow_regs (s : State) (t : Nat) : (s.setNow t).regs = s.regs := rfl
@[simp] theorem State.setNow_shadows (s : State) (t : Nat) : (s.setNow t).shadows = s.shadows := rfl
@[simp] theorem State.setNow_devSet (s : State) (t : Nat) : (s.setNow t).devSet = s.devSet := rfl
@[simp] theorem State.setNow_hostSet (s : State) (t : Nat) : (s.setNow t).hostSet = s.hostSet := rfl
@[simp] theorem State.setNow_barSet (s : State) (t : Nat) : (s.setNow t).barSet = s.barSet := rfl
@[simp] theorem State.setNow_staged (s : State) (t : Nat) : (s.setNow t).staged = s.staged := rfl
@[simp] theorem State.setNow_changes (s : State) (t : Nat) : (s.setNow t).changes = s.changes := rfl
@[simp] theorem State.setNow_masks (s : State) (t : Nat) : (s.setNow t).masks = s.masks := rfl
@[simp] theorem State.setNow_shares (s : State) (t : Nat) : (s.setNow t).shares = s.shares := rfl
@[simp] theorem State.setNow_regions (s : State) (t : Nat) : (s.setNow t).regions = s.regions := rfl
@[simp] theorem State.setNow_paddocks (s : State) (t : Nat) : (s.setNow t).paddocks = s.paddocks := rfl
@[simp] theorem State.setNow_sheaves (s : State) (t : Nat) : (s.setNow t).sheaves = s.sheaves := rfl
@[simp] theorem State.setNow_tiles (s : State) (t : Nat) : (s.setNow t).tiles = s.tiles := rfl
@[simp] theorem State.setNow_mem (s : State) (t : Nat) : (s.setNow t).mem = s.mem := rfl
@[simp] theorem State.setNow_hbm (s : State) (t : Nat) : (s.setNow t).hbm = s.hbm := rfl
@[simp] theorem State.setNow_eccWords (s : State) (t : Nat) : (s.setNow t).eccWords = s.eccWords := rfl
@[simp] theorem State.setNow_eccUnits (s : State) (t : Nat) : (s.setNow t).eccUnits = s.eccUnits := rfl
@[simp] theorem State.setNow_hbmCe (s : State) (t : Nat) : (s.setNow t).hbmCe = s.hbmCe := rfl
@[simp] theorem State.setNow_hbmUe (s : State) (t : Nat) : (s.setNow t).hbmUe = s.hbmUe := rfl
@[simp] theorem State.setNow_hbmErr (s : State) (t : Nat) : (s.setNow t).hbmErr = s.hbmErr := rfl
@[simp] theorem State.setNow_host (s : State) (t : Nat) : (s.setNow t).host = s.host := rfl
@[simp] theorem State.setNow_gleaner (s : State) (t : Nat) : (s.setNow t).gleaner = s.gleaner := rfl
@[simp] theorem State.setNow_progs (s : State) (t : Nat) : (s.setNow t).progs = s.progs := rfl
@[simp] theorem State.setNow_debugMem (s : State) (t : Nat) : (s.setNow t).debugMem = s.debugMem := rfl
@[simp] theorem State.setNow_ports (s : State) (t : Nat) : (s.setNow t).ports = s.ports := rfl
@[simp] theorem State.setNow_tethers (s : State) (t : Nat) : (s.setNow t).tethers = s.tethers := rfl
@[simp] theorem State.setNow_sites (s : State) (t : Nat) : (s.setNow t).sites = s.sites := rfl
@[simp] theorem State.setNow_colls (s : State) (t : Nat) : (s.setNow t).colls = s.colls := rfl
@[simp] theorem State.setNow_atomicsDone (s : State) (t : Nat) : (s.setNow t).atomicsDone = s.atomicsDone := rfl
@[simp] theorem State.setNow_nextColl (s : State) (t : Nat) : (s.setNow t).nextColl = s.nextColl := rfl
@[simp] theorem State.setNow_power (s : State) (t : Nat) : (s.setNow t).power = s.power := rfl
@[simp] theorem State.setNow_boot (s : State) (t : Nat) : (s.setNow t).boot = s.boot := rfl
@[simp] theorem State.setNow_sec (s : State) (t : Nat) : (s.setNow t).sec = s.sec := rfl
@[simp] theorem State.setNow_flash (s : State) (t : Nat) : (s.setNow t).flash = s.flash := rfl
@[simp] theorem State.setNow_mgt (s : State) (t : Nat) : (s.setNow t).mgt = s.mgt := rfl
@[simp] theorem State.setNow_thermTripLow (s : State) (t : Nat) : (s.setNow t).thermTripLow = s.thermTripLow := rfl
@[simp] theorem State.setNow_strideMark (s : State) (t : Nat) : (s.setNow t).strideMark = s.strideMark := rfl
@[simp] theorem State.setNow_draws (s : State) (t : Nat) : (s.setNow t).draws = s.draws := rfl

/-! ### noteDevice -/

@[simp] theorem State.noteDevice_pending (s : State) (r : Reg) (m : BitVec 64) : (s.noteDevice r m).pending = s.pending := rfl
@[simp] theorem State.noteDevice_time (s : State) (r : Reg) (m : BitVec 64) : (s.noteDevice r m).time = s.time := rfl
@[simp] theorem State.noteDevice_regs (s : State) (r : Reg) (m : BitVec 64) : (s.noteDevice r m).regs = s.regs := rfl
@[simp] theorem State.noteDevice_shadows (s : State) (r : Reg) (m : BitVec 64) : (s.noteDevice r m).shadows = s.shadows := rfl
@[simp] theorem State.noteDevice_hostSet (s : State) (r : Reg) (m : BitVec 64) : (s.noteDevice r m).hostSet = s.hostSet := rfl
@[simp] theorem State.noteDevice_barSet (s : State) (r : Reg) (m : BitVec 64) : (s.noteDevice r m).barSet = s.barSet := rfl
@[simp] theorem State.noteDevice_staged (s : State) (r : Reg) (m : BitVec 64) : (s.noteDevice r m).staged = s.staged := rfl
@[simp] theorem State.noteDevice_changes (s : State) (r : Reg) (m : BitVec 64) : (s.noteDevice r m).changes = s.changes := rfl
@[simp] theorem State.noteDevice_masks (s : State) (r : Reg) (m : BitVec 64) : (s.noteDevice r m).masks = s.masks := rfl
@[simp] theorem State.noteDevice_shares (s : State) (r : Reg) (m : BitVec 64) : (s.noteDevice r m).shares = s.shares := rfl
@[simp] theorem State.noteDevice_regions (s : State) (r : Reg) (m : BitVec 64) : (s.noteDevice r m).regions = s.regions := rfl
@[simp] theorem State.noteDevice_paddocks (s : State) (r : Reg) (m : BitVec 64) : (s.noteDevice r m).paddocks = s.paddocks := rfl
@[simp] theorem State.noteDevice_sheaves (s : State) (r : Reg) (m : BitVec 64) : (s.noteDevice r m).sheaves = s.sheaves := rfl
@[simp] theorem State.noteDevice_tiles (s : State) (r : Reg) (m : BitVec 64) : (s.noteDevice r m).tiles = s.tiles := rfl
@[simp] theorem State.noteDevice_mem (s : State) (r : Reg) (m : BitVec 64) : (s.noteDevice r m).mem = s.mem := rfl
@[simp] theorem State.noteDevice_hbm (s : State) (r : Reg) (m : BitVec 64) : (s.noteDevice r m).hbm = s.hbm := rfl
@[simp] theorem State.noteDevice_eccWords (s : State) (r : Reg) (m : BitVec 64) : (s.noteDevice r m).eccWords = s.eccWords := rfl
@[simp] theorem State.noteDevice_eccUnits (s : State) (r : Reg) (m : BitVec 64) : (s.noteDevice r m).eccUnits = s.eccUnits := rfl
@[simp] theorem State.noteDevice_hbmCe (s : State) (r : Reg) (m : BitVec 64) : (s.noteDevice r m).hbmCe = s.hbmCe := rfl
@[simp] theorem State.noteDevice_hbmUe (s : State) (r : Reg) (m : BitVec 64) : (s.noteDevice r m).hbmUe = s.hbmUe := rfl
@[simp] theorem State.noteDevice_hbmErr (s : State) (r : Reg) (m : BitVec 64) : (s.noteDevice r m).hbmErr = s.hbmErr := rfl
@[simp] theorem State.noteDevice_host (s : State) (r : Reg) (m : BitVec 64) : (s.noteDevice r m).host = s.host := rfl
@[simp] theorem State.noteDevice_gleaner (s : State) (r : Reg) (m : BitVec 64) : (s.noteDevice r m).gleaner = s.gleaner := rfl
@[simp] theorem State.noteDevice_progs (s : State) (r : Reg) (m : BitVec 64) : (s.noteDevice r m).progs = s.progs := rfl
@[simp] theorem State.noteDevice_debugMem (s : State) (r : Reg) (m : BitVec 64) : (s.noteDevice r m).debugMem = s.debugMem := rfl
@[simp] theorem State.noteDevice_ports (s : State) (r : Reg) (m : BitVec 64) : (s.noteDevice r m).ports = s.ports := rfl
@[simp] theorem State.noteDevice_tethers (s : State) (r : Reg) (m : BitVec 64) : (s.noteDevice r m).tethers = s.tethers := rfl
@[simp] theorem State.noteDevice_sites (s : State) (r : Reg) (m : BitVec 64) : (s.noteDevice r m).sites = s.sites := rfl
@[simp] theorem State.noteDevice_colls (s : State) (r : Reg) (m : BitVec 64) : (s.noteDevice r m).colls = s.colls := rfl
@[simp] theorem State.noteDevice_atomicsDone (s : State) (r : Reg) (m : BitVec 64) : (s.noteDevice r m).atomicsDone = s.atomicsDone := rfl
@[simp] theorem State.noteDevice_nextColl (s : State) (r : Reg) (m : BitVec 64) : (s.noteDevice r m).nextColl = s.nextColl := rfl
@[simp] theorem State.noteDevice_power (s : State) (r : Reg) (m : BitVec 64) : (s.noteDevice r m).power = s.power := rfl
@[simp] theorem State.noteDevice_boot (s : State) (r : Reg) (m : BitVec 64) : (s.noteDevice r m).boot = s.boot := rfl
@[simp] theorem State.noteDevice_sec (s : State) (r : Reg) (m : BitVec 64) : (s.noteDevice r m).sec = s.sec := rfl
@[simp] theorem State.noteDevice_flash (s : State) (r : Reg) (m : BitVec 64) : (s.noteDevice r m).flash = s.flash := rfl
@[simp] theorem State.noteDevice_mgt (s : State) (r : Reg) (m : BitVec 64) : (s.noteDevice r m).mgt = s.mgt := rfl
@[simp] theorem State.noteDevice_thermTripLow (s : State) (r : Reg) (m : BitVec 64) : (s.noteDevice r m).thermTripLow = s.thermTripLow := rfl
@[simp] theorem State.noteDevice_strideMark (s : State) (r : Reg) (m : BitVec 64) : (s.noteDevice r m).strideMark = s.strideMark := rfl
@[simp] theorem State.noteDevice_draws (s : State) (r : Reg) (m : BitVec 64) : (s.noteDevice r m).draws = s.draws := rfl

/-! ### noteHost -/

@[simp] theorem State.noteHost_pending (s : State) (r : Reg) (m : BitVec 64) : (s.noteHost r m).pending = s.pending := rfl
@[simp] theorem State.noteHost_time (s : State) (r : Reg) (m : BitVec 64) : (s.noteHost r m).time = s.time := rfl
@[simp] theorem State.noteHost_regs (s : State) (r : Reg) (m : BitVec 64) : (s.noteHost r m).regs = s.regs := rfl
@[simp] theorem State.noteHost_shadows (s : State) (r : Reg) (m : BitVec 64) : (s.noteHost r m).shadows = s.shadows := rfl
@[simp] theorem State.noteHost_devSet (s : State) (r : Reg) (m : BitVec 64) : (s.noteHost r m).devSet = s.devSet := rfl
@[simp] theorem State.noteHost_barSet (s : State) (r : Reg) (m : BitVec 64) : (s.noteHost r m).barSet = s.barSet := rfl
@[simp] theorem State.noteHost_staged (s : State) (r : Reg) (m : BitVec 64) : (s.noteHost r m).staged = s.staged := rfl
@[simp] theorem State.noteHost_changes (s : State) (r : Reg) (m : BitVec 64) : (s.noteHost r m).changes = s.changes := rfl
@[simp] theorem State.noteHost_masks (s : State) (r : Reg) (m : BitVec 64) : (s.noteHost r m).masks = s.masks := rfl
@[simp] theorem State.noteHost_shares (s : State) (r : Reg) (m : BitVec 64) : (s.noteHost r m).shares = s.shares := rfl
@[simp] theorem State.noteHost_regions (s : State) (r : Reg) (m : BitVec 64) : (s.noteHost r m).regions = s.regions := rfl
@[simp] theorem State.noteHost_paddocks (s : State) (r : Reg) (m : BitVec 64) : (s.noteHost r m).paddocks = s.paddocks := rfl
@[simp] theorem State.noteHost_sheaves (s : State) (r : Reg) (m : BitVec 64) : (s.noteHost r m).sheaves = s.sheaves := rfl
@[simp] theorem State.noteHost_tiles (s : State) (r : Reg) (m : BitVec 64) : (s.noteHost r m).tiles = s.tiles := rfl
@[simp] theorem State.noteHost_mem (s : State) (r : Reg) (m : BitVec 64) : (s.noteHost r m).mem = s.mem := rfl
@[simp] theorem State.noteHost_hbm (s : State) (r : Reg) (m : BitVec 64) : (s.noteHost r m).hbm = s.hbm := rfl
@[simp] theorem State.noteHost_eccWords (s : State) (r : Reg) (m : BitVec 64) : (s.noteHost r m).eccWords = s.eccWords := rfl
@[simp] theorem State.noteHost_eccUnits (s : State) (r : Reg) (m : BitVec 64) : (s.noteHost r m).eccUnits = s.eccUnits := rfl
@[simp] theorem State.noteHost_hbmCe (s : State) (r : Reg) (m : BitVec 64) : (s.noteHost r m).hbmCe = s.hbmCe := rfl
@[simp] theorem State.noteHost_hbmUe (s : State) (r : Reg) (m : BitVec 64) : (s.noteHost r m).hbmUe = s.hbmUe := rfl
@[simp] theorem State.noteHost_hbmErr (s : State) (r : Reg) (m : BitVec 64) : (s.noteHost r m).hbmErr = s.hbmErr := rfl
@[simp] theorem State.noteHost_host (s : State) (r : Reg) (m : BitVec 64) : (s.noteHost r m).host = s.host := rfl
@[simp] theorem State.noteHost_gleaner (s : State) (r : Reg) (m : BitVec 64) : (s.noteHost r m).gleaner = s.gleaner := rfl
@[simp] theorem State.noteHost_progs (s : State) (r : Reg) (m : BitVec 64) : (s.noteHost r m).progs = s.progs := rfl
@[simp] theorem State.noteHost_debugMem (s : State) (r : Reg) (m : BitVec 64) : (s.noteHost r m).debugMem = s.debugMem := rfl
@[simp] theorem State.noteHost_ports (s : State) (r : Reg) (m : BitVec 64) : (s.noteHost r m).ports = s.ports := rfl
@[simp] theorem State.noteHost_tethers (s : State) (r : Reg) (m : BitVec 64) : (s.noteHost r m).tethers = s.tethers := rfl
@[simp] theorem State.noteHost_sites (s : State) (r : Reg) (m : BitVec 64) : (s.noteHost r m).sites = s.sites := rfl
@[simp] theorem State.noteHost_colls (s : State) (r : Reg) (m : BitVec 64) : (s.noteHost r m).colls = s.colls := rfl
@[simp] theorem State.noteHost_atomicsDone (s : State) (r : Reg) (m : BitVec 64) : (s.noteHost r m).atomicsDone = s.atomicsDone := rfl
@[simp] theorem State.noteHost_nextColl (s : State) (r : Reg) (m : BitVec 64) : (s.noteHost r m).nextColl = s.nextColl := rfl
@[simp] theorem State.noteHost_power (s : State) (r : Reg) (m : BitVec 64) : (s.noteHost r m).power = s.power := rfl
@[simp] theorem State.noteHost_boot (s : State) (r : Reg) (m : BitVec 64) : (s.noteHost r m).boot = s.boot := rfl
@[simp] theorem State.noteHost_sec (s : State) (r : Reg) (m : BitVec 64) : (s.noteHost r m).sec = s.sec := rfl
@[simp] theorem State.noteHost_flash (s : State) (r : Reg) (m : BitVec 64) : (s.noteHost r m).flash = s.flash := rfl
@[simp] theorem State.noteHost_mgt (s : State) (r : Reg) (m : BitVec 64) : (s.noteHost r m).mgt = s.mgt := rfl
@[simp] theorem State.noteHost_thermTripLow (s : State) (r : Reg) (m : BitVec 64) : (s.noteHost r m).thermTripLow = s.thermTripLow := rfl
@[simp] theorem State.noteHost_strideMark (s : State) (r : Reg) (m : BitVec 64) : (s.noteHost r m).strideMark = s.strideMark := rfl
@[simp] theorem State.noteHost_draws (s : State) (r : Reg) (m : BitVec 64) : (s.noteHost r m).draws = s.draws := rfl

/-! ### noteBar -/

@[simp] theorem State.noteBar_pending (s : State) (r : Reg) (m : BitVec 64) : (s.noteBar r m).pending = s.pending := rfl
@[simp] theorem State.noteBar_time (s : State) (r : Reg) (m : BitVec 64) : (s.noteBar r m).time = s.time := rfl
@[simp] theorem State.noteBar_regs (s : State) (r : Reg) (m : BitVec 64) : (s.noteBar r m).regs = s.regs := rfl
@[simp] theorem State.noteBar_shadows (s : State) (r : Reg) (m : BitVec 64) : (s.noteBar r m).shadows = s.shadows := rfl
@[simp] theorem State.noteBar_devSet (s : State) (r : Reg) (m : BitVec 64) : (s.noteBar r m).devSet = s.devSet := rfl
@[simp] theorem State.noteBar_hostSet (s : State) (r : Reg) (m : BitVec 64) : (s.noteBar r m).hostSet = s.hostSet := rfl
@[simp] theorem State.noteBar_staged (s : State) (r : Reg) (m : BitVec 64) : (s.noteBar r m).staged = s.staged := rfl
@[simp] theorem State.noteBar_changes (s : State) (r : Reg) (m : BitVec 64) : (s.noteBar r m).changes = s.changes := rfl
@[simp] theorem State.noteBar_masks (s : State) (r : Reg) (m : BitVec 64) : (s.noteBar r m).masks = s.masks := rfl
@[simp] theorem State.noteBar_shares (s : State) (r : Reg) (m : BitVec 64) : (s.noteBar r m).shares = s.shares := rfl
@[simp] theorem State.noteBar_regions (s : State) (r : Reg) (m : BitVec 64) : (s.noteBar r m).regions = s.regions := rfl
@[simp] theorem State.noteBar_paddocks (s : State) (r : Reg) (m : BitVec 64) : (s.noteBar r m).paddocks = s.paddocks := rfl
@[simp] theorem State.noteBar_sheaves (s : State) (r : Reg) (m : BitVec 64) : (s.noteBar r m).sheaves = s.sheaves := rfl
@[simp] theorem State.noteBar_tiles (s : State) (r : Reg) (m : BitVec 64) : (s.noteBar r m).tiles = s.tiles := rfl
@[simp] theorem State.noteBar_mem (s : State) (r : Reg) (m : BitVec 64) : (s.noteBar r m).mem = s.mem := rfl
@[simp] theorem State.noteBar_hbm (s : State) (r : Reg) (m : BitVec 64) : (s.noteBar r m).hbm = s.hbm := rfl
@[simp] theorem State.noteBar_eccWords (s : State) (r : Reg) (m : BitVec 64) : (s.noteBar r m).eccWords = s.eccWords := rfl
@[simp] theorem State.noteBar_eccUnits (s : State) (r : Reg) (m : BitVec 64) : (s.noteBar r m).eccUnits = s.eccUnits := rfl
@[simp] theorem State.noteBar_hbmCe (s : State) (r : Reg) (m : BitVec 64) : (s.noteBar r m).hbmCe = s.hbmCe := rfl
@[simp] theorem State.noteBar_hbmUe (s : State) (r : Reg) (m : BitVec 64) : (s.noteBar r m).hbmUe = s.hbmUe := rfl
@[simp] theorem State.noteBar_hbmErr (s : State) (r : Reg) (m : BitVec 64) : (s.noteBar r m).hbmErr = s.hbmErr := rfl
@[simp] theorem State.noteBar_host (s : State) (r : Reg) (m : BitVec 64) : (s.noteBar r m).host = s.host := rfl
@[simp] theorem State.noteBar_gleaner (s : State) (r : Reg) (m : BitVec 64) : (s.noteBar r m).gleaner = s.gleaner := rfl
@[simp] theorem State.noteBar_progs (s : State) (r : Reg) (m : BitVec 64) : (s.noteBar r m).progs = s.progs := rfl
@[simp] theorem State.noteBar_debugMem (s : State) (r : Reg) (m : BitVec 64) : (s.noteBar r m).debugMem = s.debugMem := rfl
@[simp] theorem State.noteBar_ports (s : State) (r : Reg) (m : BitVec 64) : (s.noteBar r m).ports = s.ports := rfl
@[simp] theorem State.noteBar_tethers (s : State) (r : Reg) (m : BitVec 64) : (s.noteBar r m).tethers = s.tethers := rfl
@[simp] theorem State.noteBar_sites (s : State) (r : Reg) (m : BitVec 64) : (s.noteBar r m).sites = s.sites := rfl
@[simp] theorem State.noteBar_colls (s : State) (r : Reg) (m : BitVec 64) : (s.noteBar r m).colls = s.colls := rfl
@[simp] theorem State.noteBar_atomicsDone (s : State) (r : Reg) (m : BitVec 64) : (s.noteBar r m).atomicsDone = s.atomicsDone := rfl
@[simp] theorem State.noteBar_nextColl (s : State) (r : Reg) (m : BitVec 64) : (s.noteBar r m).nextColl = s.nextColl := rfl
@[simp] theorem State.noteBar_power (s : State) (r : Reg) (m : BitVec 64) : (s.noteBar r m).power = s.power := rfl
@[simp] theorem State.noteBar_boot (s : State) (r : Reg) (m : BitVec 64) : (s.noteBar r m).boot = s.boot := rfl
@[simp] theorem State.noteBar_sec (s : State) (r : Reg) (m : BitVec 64) : (s.noteBar r m).sec = s.sec := rfl
@[simp] theorem State.noteBar_flash (s : State) (r : Reg) (m : BitVec 64) : (s.noteBar r m).flash = s.flash := rfl
@[simp] theorem State.noteBar_mgt (s : State) (r : Reg) (m : BitVec 64) : (s.noteBar r m).mgt = s.mgt := rfl
@[simp] theorem State.noteBar_thermTripLow (s : State) (r : Reg) (m : BitVec 64) : (s.noteBar r m).thermTripLow = s.thermTripLow := rfl
@[simp] theorem State.noteBar_strideMark (s : State) (r : Reg) (m : BitVec 64) : (s.noteBar r m).strideMark = s.strideMark := rfl
@[simp] theorem State.noteBar_draws (s : State) (r : Reg) (m : BitVec 64) : (s.noteBar r m).draws = s.draws := rfl

/-! ### setFault -/

@[simp] theorem State.setFault_pending (s : State) : (s.setFault).pending = s.pending := rfl
@[simp] theorem State.setFault_time (s : State) : (s.setFault).time = s.time := rfl
@[simp] theorem State.setFault_regs (s : State) : (s.setFault).regs = s.regs := rfl
@[simp] theorem State.setFault_shadows (s : State) : (s.setFault).shadows = s.shadows := rfl
@[simp] theorem State.setFault_hostSet (s : State) : (s.setFault).hostSet = s.hostSet := rfl
@[simp] theorem State.setFault_barSet (s : State) : (s.setFault).barSet = s.barSet := rfl
@[simp] theorem State.setFault_staged (s : State) : (s.setFault).staged = s.staged := rfl
@[simp] theorem State.setFault_changes (s : State) : (s.setFault).changes = s.changes := rfl
@[simp] theorem State.setFault_masks (s : State) : (s.setFault).masks = s.masks := rfl
@[simp] theorem State.setFault_shares (s : State) : (s.setFault).shares = s.shares := rfl
@[simp] theorem State.setFault_regions (s : State) : (s.setFault).regions = s.regions := rfl
@[simp] theorem State.setFault_paddocks (s : State) : (s.setFault).paddocks = s.paddocks := rfl
@[simp] theorem State.setFault_sheaves (s : State) : (s.setFault).sheaves = s.sheaves := rfl
@[simp] theorem State.setFault_tiles (s : State) : (s.setFault).tiles = s.tiles := rfl
@[simp] theorem State.setFault_mem (s : State) : (s.setFault).mem = s.mem := rfl
@[simp] theorem State.setFault_hbm (s : State) : (s.setFault).hbm = s.hbm := rfl
@[simp] theorem State.setFault_eccWords (s : State) : (s.setFault).eccWords = s.eccWords := rfl
@[simp] theorem State.setFault_eccUnits (s : State) : (s.setFault).eccUnits = s.eccUnits := rfl
@[simp] theorem State.setFault_hbmCe (s : State) : (s.setFault).hbmCe = s.hbmCe := rfl
@[simp] theorem State.setFault_hbmUe (s : State) : (s.setFault).hbmUe = s.hbmUe := rfl
@[simp] theorem State.setFault_hbmErr (s : State) : (s.setFault).hbmErr = s.hbmErr := rfl
@[simp] theorem State.setFault_gleaner (s : State) : (s.setFault).gleaner = s.gleaner := rfl
@[simp] theorem State.setFault_progs (s : State) : (s.setFault).progs = s.progs := rfl
@[simp] theorem State.setFault_debugMem (s : State) : (s.setFault).debugMem = s.debugMem := rfl
@[simp] theorem State.setFault_ports (s : State) : (s.setFault).ports = s.ports := rfl
@[simp] theorem State.setFault_tethers (s : State) : (s.setFault).tethers = s.tethers := rfl
@[simp] theorem State.setFault_sites (s : State) : (s.setFault).sites = s.sites := rfl
@[simp] theorem State.setFault_colls (s : State) : (s.setFault).colls = s.colls := rfl
@[simp] theorem State.setFault_atomicsDone (s : State) : (s.setFault).atomicsDone = s.atomicsDone := rfl
@[simp] theorem State.setFault_nextColl (s : State) : (s.setFault).nextColl = s.nextColl := rfl
@[simp] theorem State.setFault_power (s : State) : (s.setFault).power = s.power := rfl
@[simp] theorem State.setFault_boot (s : State) : (s.setFault).boot = s.boot := rfl
@[simp] theorem State.setFault_sec (s : State) : (s.setFault).sec = s.sec := rfl
@[simp] theorem State.setFault_flash (s : State) : (s.setFault).flash = s.flash := rfl
@[simp] theorem State.setFault_mgt (s : State) : (s.setFault).mgt = s.mgt := rfl
@[simp] theorem State.setFault_thermTripLow (s : State) : (s.setFault).thermTripLow = s.thermTripLow := rfl
@[simp] theorem State.setFault_strideMark (s : State) : (s.setFault).strideMark = s.strideMark := rfl
@[simp] theorem State.setFault_draws (s : State) : (s.setFault).draws = s.draws := rfl

/-! ### setSecurity -/

@[simp] theorem State.setSecurity_pending (s : State) : (s.setSecurity).pending = s.pending := rfl
@[simp] theorem State.setSecurity_time (s : State) : (s.setSecurity).time = s.time := rfl
@[simp] theorem State.setSecurity_regs (s : State) : (s.setSecurity).regs = s.regs := rfl
@[simp] theorem State.setSecurity_shadows (s : State) : (s.setSecurity).shadows = s.shadows := rfl
@[simp] theorem State.setSecurity_hostSet (s : State) : (s.setSecurity).hostSet = s.hostSet := rfl
@[simp] theorem State.setSecurity_barSet (s : State) : (s.setSecurity).barSet = s.barSet := rfl
@[simp] theorem State.setSecurity_staged (s : State) : (s.setSecurity).staged = s.staged := rfl
@[simp] theorem State.setSecurity_changes (s : State) : (s.setSecurity).changes = s.changes := rfl
@[simp] theorem State.setSecurity_masks (s : State) : (s.setSecurity).masks = s.masks := rfl
@[simp] theorem State.setSecurity_shares (s : State) : (s.setSecurity).shares = s.shares := rfl
@[simp] theorem State.setSecurity_regions (s : State) : (s.setSecurity).regions = s.regions := rfl
@[simp] theorem State.setSecurity_paddocks (s : State) : (s.setSecurity).paddocks = s.paddocks := rfl
@[simp] theorem State.setSecurity_sheaves (s : State) : (s.setSecurity).sheaves = s.sheaves := rfl
@[simp] theorem State.setSecurity_tiles (s : State) : (s.setSecurity).tiles = s.tiles := rfl
@[simp] theorem State.setSecurity_mem (s : State) : (s.setSecurity).mem = s.mem := rfl
@[simp] theorem State.setSecurity_hbm (s : State) : (s.setSecurity).hbm = s.hbm := rfl
@[simp] theorem State.setSecurity_eccWords (s : State) : (s.setSecurity).eccWords = s.eccWords := rfl
@[simp] theorem State.setSecurity_eccUnits (s : State) : (s.setSecurity).eccUnits = s.eccUnits := rfl
@[simp] theorem State.setSecurity_hbmCe (s : State) : (s.setSecurity).hbmCe = s.hbmCe := rfl
@[simp] theorem State.setSecurity_hbmUe (s : State) : (s.setSecurity).hbmUe = s.hbmUe := rfl
@[simp] theorem State.setSecurity_hbmErr (s : State) : (s.setSecurity).hbmErr = s.hbmErr := rfl
@[simp] theorem State.setSecurity_gleaner (s : State) : (s.setSecurity).gleaner = s.gleaner := rfl
@[simp] theorem State.setSecurity_progs (s : State) : (s.setSecurity).progs = s.progs := rfl
@[simp] theorem State.setSecurity_debugMem (s : State) : (s.setSecurity).debugMem = s.debugMem := rfl
@[simp] theorem State.setSecurity_ports (s : State) : (s.setSecurity).ports = s.ports := rfl
@[simp] theorem State.setSecurity_tethers (s : State) : (s.setSecurity).tethers = s.tethers := rfl
@[simp] theorem State.setSecurity_sites (s : State) : (s.setSecurity).sites = s.sites := rfl
@[simp] theorem State.setSecurity_colls (s : State) : (s.setSecurity).colls = s.colls := rfl
@[simp] theorem State.setSecurity_atomicsDone (s : State) : (s.setSecurity).atomicsDone = s.atomicsDone := rfl
@[simp] theorem State.setSecurity_nextColl (s : State) : (s.setSecurity).nextColl = s.nextColl := rfl
@[simp] theorem State.setSecurity_power (s : State) : (s.setSecurity).power = s.power := rfl
@[simp] theorem State.setSecurity_boot (s : State) : (s.setSecurity).boot = s.boot := rfl
@[simp] theorem State.setSecurity_sec (s : State) : (s.setSecurity).sec = s.sec := rfl
@[simp] theorem State.setSecurity_flash (s : State) : (s.setSecurity).flash = s.flash := rfl
@[simp] theorem State.setSecurity_mgt (s : State) : (s.setSecurity).mgt = s.mgt := rfl
@[simp] theorem State.setSecurity_thermTripLow (s : State) : (s.setSecurity).thermTripLow = s.thermTripLow := rfl
@[simp] theorem State.setSecurity_strideMark (s : State) : (s.setSecurity).strideMark = s.strideMark := rfl
@[simp] theorem State.setSecurity_draws (s : State) : (s.setSecurity).draws = s.draws := rfl

/-! ### setLogDrop -/

@[simp] theorem State.setLogDrop_pending (s : State) : (s.setLogDrop).pending = s.pending := rfl
@[simp] theorem State.setLogDrop_time (s : State) : (s.setLogDrop).time = s.time := rfl
@[simp] theorem State.setLogDrop_regs (s : State) : (s.setLogDrop).regs = s.regs := rfl
@[simp] theorem State.setLogDrop_shadows (s : State) : (s.setLogDrop).shadows = s.shadows := rfl
@[simp] theorem State.setLogDrop_hostSet (s : State) : (s.setLogDrop).hostSet = s.hostSet := rfl
@[simp] theorem State.setLogDrop_barSet (s : State) : (s.setLogDrop).barSet = s.barSet := rfl
@[simp] theorem State.setLogDrop_staged (s : State) : (s.setLogDrop).staged = s.staged := rfl
@[simp] theorem State.setLogDrop_changes (s : State) : (s.setLogDrop).changes = s.changes := rfl
@[simp] theorem State.setLogDrop_masks (s : State) : (s.setLogDrop).masks = s.masks := rfl
@[simp] theorem State.setLogDrop_shares (s : State) : (s.setLogDrop).shares = s.shares := rfl
@[simp] theorem State.setLogDrop_regions (s : State) : (s.setLogDrop).regions = s.regions := rfl
@[simp] theorem State.setLogDrop_paddocks (s : State) : (s.setLogDrop).paddocks = s.paddocks := rfl
@[simp] theorem State.setLogDrop_sheaves (s : State) : (s.setLogDrop).sheaves = s.sheaves := rfl
@[simp] theorem State.setLogDrop_tiles (s : State) : (s.setLogDrop).tiles = s.tiles := rfl
@[simp] theorem State.setLogDrop_mem (s : State) : (s.setLogDrop).mem = s.mem := rfl
@[simp] theorem State.setLogDrop_hbm (s : State) : (s.setLogDrop).hbm = s.hbm := rfl
@[simp] theorem State.setLogDrop_eccWords (s : State) : (s.setLogDrop).eccWords = s.eccWords := rfl
@[simp] theorem State.setLogDrop_eccUnits (s : State) : (s.setLogDrop).eccUnits = s.eccUnits := rfl
@[simp] theorem State.setLogDrop_hbmCe (s : State) : (s.setLogDrop).hbmCe = s.hbmCe := rfl
@[simp] theorem State.setLogDrop_hbmUe (s : State) : (s.setLogDrop).hbmUe = s.hbmUe := rfl
@[simp] theorem State.setLogDrop_hbmErr (s : State) : (s.setLogDrop).hbmErr = s.hbmErr := rfl
@[simp] theorem State.setLogDrop_gleaner (s : State) : (s.setLogDrop).gleaner = s.gleaner := rfl
@[simp] theorem State.setLogDrop_progs (s : State) : (s.setLogDrop).progs = s.progs := rfl
@[simp] theorem State.setLogDrop_debugMem (s : State) : (s.setLogDrop).debugMem = s.debugMem := rfl
@[simp] theorem State.setLogDrop_ports (s : State) : (s.setLogDrop).ports = s.ports := rfl
@[simp] theorem State.setLogDrop_tethers (s : State) : (s.setLogDrop).tethers = s.tethers := rfl
@[simp] theorem State.setLogDrop_sites (s : State) : (s.setLogDrop).sites = s.sites := rfl
@[simp] theorem State.setLogDrop_colls (s : State) : (s.setLogDrop).colls = s.colls := rfl
@[simp] theorem State.setLogDrop_atomicsDone (s : State) : (s.setLogDrop).atomicsDone = s.atomicsDone := rfl
@[simp] theorem State.setLogDrop_nextColl (s : State) : (s.setLogDrop).nextColl = s.nextColl := rfl
@[simp] theorem State.setLogDrop_power (s : State) : (s.setLogDrop).power = s.power := rfl
@[simp] theorem State.setLogDrop_boot (s : State) : (s.setLogDrop).boot = s.boot := rfl
@[simp] theorem State.setLogDrop_sec (s : State) : (s.setLogDrop).sec = s.sec := rfl
@[simp] theorem State.setLogDrop_flash (s : State) : (s.setLogDrop).flash = s.flash := rfl
@[simp] theorem State.setLogDrop_mgt (s : State) : (s.setLogDrop).mgt = s.mgt := rfl
@[simp] theorem State.setLogDrop_thermTripLow (s : State) : (s.setLogDrop).thermTripLow = s.thermTripLow := rfl
@[simp] theorem State.setLogDrop_strideMark (s : State) : (s.setLogDrop).strideMark = s.strideMark := rfl
@[simp] theorem State.setLogDrop_draws (s : State) : (s.setLogDrop).draws = s.draws := rfl

/-! ### What the updates change -/

@[simp] theorem State.setTile_tiles (s : State) (n : Nat) (x : Tile) : (s.setTile n x).tiles = Tbl.put {} s.tiles n x := rfl
@[simp] theorem State.setSheaf_sheaves (s : State) (m : Nat) (x : Sheaf) : (s.setSheaf m x).sheaves = Tbl.put {} s.sheaves m x := rfl
@[simp] theorem State.setRegion_regions (s : State) (r : Nat) (x : Region) :
    (s.setRegion r x).regions = Tbl.put (regionReset r) s.regions r x := rfl
@[simp] theorem State.setNow_gtc (s : State) (t : Nat) : (s.setNow t).time.gtc = BitVec.ofNat 64 t := rfl
@[simp] theorem State.setFault_fault (s : State) : s.setFault.host.fault = true := rfl
@[simp] theorem State.setSecurity_security (s : State) : s.setSecurity.host.security = true := rfl
@[simp] theorem State.setLogDrop_logDrop (s : State) : s.setLogDrop.host.logDrop = true := rfl

/-! ### raiseAt, advanceTo: one lemma per field -/

@[simp] theorem State.raiseAt_pending (s : State) (a src : Nat) (e : EventCode) (p : BitVec 128) : (s.raiseAt a src e p).pending = s.pending := by
  simp only [State.raiseAt]; split <;> rfl
@[simp] theorem State.raiseAt_time (s : State) (a src : Nat) (e : EventCode) (p : BitVec 128) : (s.raiseAt a src e p).time = s.time := by
  simp only [State.raiseAt]; split <;> rfl
@[simp] theorem State.raiseAt_regs (s : State) (a src : Nat) (e : EventCode) (p : BitVec 128) : (s.raiseAt a src e p).regs = s.regs := by
  simp only [State.raiseAt]; split <;> rfl
@[simp] theorem State.raiseAt_shadows (s : State) (a src : Nat) (e : EventCode) (p : BitVec 128) : (s.raiseAt a src e p).shadows = s.shadows := by
  simp only [State.raiseAt]; split <;> rfl
@[simp] theorem State.raiseAt_hostSet (s : State) (a src : Nat) (e : EventCode) (p : BitVec 128) : (s.raiseAt a src e p).hostSet = s.hostSet := by
  simp only [State.raiseAt]; split <;> rfl
@[simp] theorem State.raiseAt_barSet (s : State) (a src : Nat) (e : EventCode) (p : BitVec 128) : (s.raiseAt a src e p).barSet = s.barSet := by
  simp only [State.raiseAt]; split <;> rfl
@[simp] theorem State.raiseAt_staged (s : State) (a src : Nat) (e : EventCode) (p : BitVec 128) : (s.raiseAt a src e p).staged = s.staged := by
  simp only [State.raiseAt]; split <;> rfl
@[simp] theorem State.raiseAt_changes (s : State) (a src : Nat) (e : EventCode) (p : BitVec 128) : (s.raiseAt a src e p).changes = s.changes := by
  simp only [State.raiseAt]; split <;> rfl
@[simp] theorem State.raiseAt_masks (s : State) (a src : Nat) (e : EventCode) (p : BitVec 128) : (s.raiseAt a src e p).masks = s.masks := by
  simp only [State.raiseAt]; split <;> rfl
@[simp] theorem State.raiseAt_shares (s : State) (a src : Nat) (e : EventCode) (p : BitVec 128) : (s.raiseAt a src e p).shares = s.shares := by
  simp only [State.raiseAt]; split <;> rfl
@[simp] theorem State.raiseAt_regions (s : State) (a src : Nat) (e : EventCode) (p : BitVec 128) : (s.raiseAt a src e p).regions = s.regions := by
  simp only [State.raiseAt]; split <;> rfl
@[simp] theorem State.raiseAt_paddocks (s : State) (a src : Nat) (e : EventCode) (p : BitVec 128) : (s.raiseAt a src e p).paddocks = s.paddocks := by
  simp only [State.raiseAt]; split <;> rfl
@[simp] theorem State.raiseAt_sheaves (s : State) (a src : Nat) (e : EventCode) (p : BitVec 128) : (s.raiseAt a src e p).sheaves = s.sheaves := by
  simp only [State.raiseAt]; split <;> rfl
@[simp] theorem State.raiseAt_tiles (s : State) (a src : Nat) (e : EventCode) (p : BitVec 128) : (s.raiseAt a src e p).tiles = s.tiles := by
  simp only [State.raiseAt]; split <;> rfl
@[simp] theorem State.raiseAt_mem (s : State) (a src : Nat) (e : EventCode) (p : BitVec 128) : (s.raiseAt a src e p).mem = s.mem := by
  simp only [State.raiseAt]; split <;> rfl
@[simp] theorem State.raiseAt_hbm (s : State) (a src : Nat) (e : EventCode) (p : BitVec 128) : (s.raiseAt a src e p).hbm = s.hbm := by
  simp only [State.raiseAt]; split <;> rfl
@[simp] theorem State.raiseAt_eccWords (s : State) (a src : Nat) (e : EventCode) (p : BitVec 128) : (s.raiseAt a src e p).eccWords = s.eccWords := by
  simp only [State.raiseAt]; split <;> rfl
@[simp] theorem State.raiseAt_eccUnits (s : State) (a src : Nat) (e : EventCode) (p : BitVec 128) : (s.raiseAt a src e p).eccUnits = s.eccUnits := by
  simp only [State.raiseAt]; split <;> rfl
@[simp] theorem State.raiseAt_hbmCe (s : State) (a src : Nat) (e : EventCode) (p : BitVec 128) : (s.raiseAt a src e p).hbmCe = s.hbmCe := by
  simp only [State.raiseAt]; split <;> rfl
@[simp] theorem State.raiseAt_hbmUe (s : State) (a src : Nat) (e : EventCode) (p : BitVec 128) : (s.raiseAt a src e p).hbmUe = s.hbmUe := by
  simp only [State.raiseAt]; split <;> rfl
@[simp] theorem State.raiseAt_hbmErr (s : State) (a src : Nat) (e : EventCode) (p : BitVec 128) : (s.raiseAt a src e p).hbmErr = s.hbmErr := by
  simp only [State.raiseAt]; split <;> rfl
@[simp] theorem State.raiseAt_progs (s : State) (a src : Nat) (e : EventCode) (p : BitVec 128) : (s.raiseAt a src e p).progs = s.progs := by
  simp only [State.raiseAt]; split <;> rfl
@[simp] theorem State.raiseAt_debugMem (s : State) (a src : Nat) (e : EventCode) (p : BitVec 128) : (s.raiseAt a src e p).debugMem = s.debugMem := by
  simp only [State.raiseAt]; split <;> rfl
@[simp] theorem State.raiseAt_ports (s : State) (a src : Nat) (e : EventCode) (p : BitVec 128) : (s.raiseAt a src e p).ports = s.ports := by
  simp only [State.raiseAt]; split <;> rfl
@[simp] theorem State.raiseAt_tethers (s : State) (a src : Nat) (e : EventCode) (p : BitVec 128) : (s.raiseAt a src e p).tethers = s.tethers := by
  simp only [State.raiseAt]; split <;> rfl
@[simp] theorem State.raiseAt_sites (s : State) (a src : Nat) (e : EventCode) (p : BitVec 128) : (s.raiseAt a src e p).sites = s.sites := by
  simp only [State.raiseAt]; split <;> rfl
@[simp] theorem State.raiseAt_colls (s : State) (a src : Nat) (e : EventCode) (p : BitVec 128) : (s.raiseAt a src e p).colls = s.colls := by
  simp only [State.raiseAt]; split <;> rfl
@[simp] theorem State.raiseAt_atomicsDone (s : State) (a src : Nat) (e : EventCode) (p : BitVec 128) : (s.raiseAt a src e p).atomicsDone = s.atomicsDone := by
  simp only [State.raiseAt]; split <;> rfl
@[simp] theorem State.raiseAt_nextColl (s : State) (a src : Nat) (e : EventCode) (p : BitVec 128) : (s.raiseAt a src e p).nextColl = s.nextColl := by
  simp only [State.raiseAt]; split <;> rfl
@[simp] theorem State.raiseAt_power (s : State) (a src : Nat) (e : EventCode) (p : BitVec 128) : (s.raiseAt a src e p).power = s.power := by
  simp only [State.raiseAt]; split <;> rfl
@[simp] theorem State.raiseAt_boot (s : State) (a src : Nat) (e : EventCode) (p : BitVec 128) : (s.raiseAt a src e p).boot = s.boot := by
  simp only [State.raiseAt]; split <;> rfl
@[simp] theorem State.raiseAt_sec (s : State) (a src : Nat) (e : EventCode) (p : BitVec 128) : (s.raiseAt a src e p).sec = s.sec := by
  simp only [State.raiseAt]; split <;> rfl
@[simp] theorem State.raiseAt_flash (s : State) (a src : Nat) (e : EventCode) (p : BitVec 128) : (s.raiseAt a src e p).flash = s.flash := by
  simp only [State.raiseAt]; split <;> rfl
@[simp] theorem State.raiseAt_mgt (s : State) (a src : Nat) (e : EventCode) (p : BitVec 128) : (s.raiseAt a src e p).mgt = s.mgt := by
  simp only [State.raiseAt]; split <;> rfl
@[simp] theorem State.raiseAt_thermTripLow (s : State) (a src : Nat) (e : EventCode) (p : BitVec 128) : (s.raiseAt a src e p).thermTripLow = s.thermTripLow := by
  simp only [State.raiseAt]; split <;> rfl
@[simp] theorem State.raiseAt_strideMark (s : State) (a src : Nat) (e : EventCode) (p : BitVec 128) : (s.raiseAt a src e p).strideMark = s.strideMark := by
  simp only [State.raiseAt]; split <;> rfl
@[simp] theorem State.raiseAt_draws (s : State) (a src : Nat) (e : EventCode) (p : BitVec 128) : (s.raiseAt a src e p).draws = s.draws := by
  simp only [State.raiseAt]; split <;> rfl
@[simp] theorem State.raise_pending (s : State) (src : Nat) (e : EventCode) (p : BitVec 128) : (s.raise src e p).pending = s.pending :=
  State.raiseAt_pending _ _ _ _ _
@[simp] theorem State.raise_time (s : State) (src : Nat) (e : EventCode) (p : BitVec 128) : (s.raise src e p).time = s.time :=
  State.raiseAt_time _ _ _ _ _
@[simp] theorem State.raise_regs (s : State) (src : Nat) (e : EventCode) (p : BitVec 128) : (s.raise src e p).regs = s.regs :=
  State.raiseAt_regs _ _ _ _ _
@[simp] theorem State.raise_shadows (s : State) (src : Nat) (e : EventCode) (p : BitVec 128) : (s.raise src e p).shadows = s.shadows :=
  State.raiseAt_shadows _ _ _ _ _
@[simp] theorem State.raise_hostSet (s : State) (src : Nat) (e : EventCode) (p : BitVec 128) : (s.raise src e p).hostSet = s.hostSet :=
  State.raiseAt_hostSet _ _ _ _ _
@[simp] theorem State.raise_barSet (s : State) (src : Nat) (e : EventCode) (p : BitVec 128) : (s.raise src e p).barSet = s.barSet :=
  State.raiseAt_barSet _ _ _ _ _
@[simp] theorem State.raise_staged (s : State) (src : Nat) (e : EventCode) (p : BitVec 128) : (s.raise src e p).staged = s.staged :=
  State.raiseAt_staged _ _ _ _ _
@[simp] theorem State.raise_changes (s : State) (src : Nat) (e : EventCode) (p : BitVec 128) : (s.raise src e p).changes = s.changes :=
  State.raiseAt_changes _ _ _ _ _
@[simp] theorem State.raise_masks (s : State) (src : Nat) (e : EventCode) (p : BitVec 128) : (s.raise src e p).masks = s.masks :=
  State.raiseAt_masks _ _ _ _ _
@[simp] theorem State.raise_shares (s : State) (src : Nat) (e : EventCode) (p : BitVec 128) : (s.raise src e p).shares = s.shares :=
  State.raiseAt_shares _ _ _ _ _
@[simp] theorem State.raise_regions (s : State) (src : Nat) (e : EventCode) (p : BitVec 128) : (s.raise src e p).regions = s.regions :=
  State.raiseAt_regions _ _ _ _ _
@[simp] theorem State.raise_paddocks (s : State) (src : Nat) (e : EventCode) (p : BitVec 128) : (s.raise src e p).paddocks = s.paddocks :=
  State.raiseAt_paddocks _ _ _ _ _
@[simp] theorem State.raise_sheaves (s : State) (src : Nat) (e : EventCode) (p : BitVec 128) : (s.raise src e p).sheaves = s.sheaves :=
  State.raiseAt_sheaves _ _ _ _ _
@[simp] theorem State.raise_tiles (s : State) (src : Nat) (e : EventCode) (p : BitVec 128) : (s.raise src e p).tiles = s.tiles :=
  State.raiseAt_tiles _ _ _ _ _
@[simp] theorem State.raise_mem (s : State) (src : Nat) (e : EventCode) (p : BitVec 128) : (s.raise src e p).mem = s.mem :=
  State.raiseAt_mem _ _ _ _ _
@[simp] theorem State.raise_hbm (s : State) (src : Nat) (e : EventCode) (p : BitVec 128) : (s.raise src e p).hbm = s.hbm :=
  State.raiseAt_hbm _ _ _ _ _
@[simp] theorem State.raise_eccWords (s : State) (src : Nat) (e : EventCode) (p : BitVec 128) : (s.raise src e p).eccWords = s.eccWords :=
  State.raiseAt_eccWords _ _ _ _ _
@[simp] theorem State.raise_eccUnits (s : State) (src : Nat) (e : EventCode) (p : BitVec 128) : (s.raise src e p).eccUnits = s.eccUnits :=
  State.raiseAt_eccUnits _ _ _ _ _
@[simp] theorem State.raise_hbmCe (s : State) (src : Nat) (e : EventCode) (p : BitVec 128) : (s.raise src e p).hbmCe = s.hbmCe :=
  State.raiseAt_hbmCe _ _ _ _ _
@[simp] theorem State.raise_hbmUe (s : State) (src : Nat) (e : EventCode) (p : BitVec 128) : (s.raise src e p).hbmUe = s.hbmUe :=
  State.raiseAt_hbmUe _ _ _ _ _
@[simp] theorem State.raise_hbmErr (s : State) (src : Nat) (e : EventCode) (p : BitVec 128) : (s.raise src e p).hbmErr = s.hbmErr :=
  State.raiseAt_hbmErr _ _ _ _ _
@[simp] theorem State.raise_progs (s : State) (src : Nat) (e : EventCode) (p : BitVec 128) : (s.raise src e p).progs = s.progs :=
  State.raiseAt_progs _ _ _ _ _
@[simp] theorem State.raise_debugMem (s : State) (src : Nat) (e : EventCode) (p : BitVec 128) : (s.raise src e p).debugMem = s.debugMem :=
  State.raiseAt_debugMem _ _ _ _ _
@[simp] theorem State.raise_ports (s : State) (src : Nat) (e : EventCode) (p : BitVec 128) : (s.raise src e p).ports = s.ports :=
  State.raiseAt_ports _ _ _ _ _
@[simp] theorem State.raise_tethers (s : State) (src : Nat) (e : EventCode) (p : BitVec 128) : (s.raise src e p).tethers = s.tethers :=
  State.raiseAt_tethers _ _ _ _ _
@[simp] theorem State.raise_sites (s : State) (src : Nat) (e : EventCode) (p : BitVec 128) : (s.raise src e p).sites = s.sites :=
  State.raiseAt_sites _ _ _ _ _
@[simp] theorem State.raise_colls (s : State) (src : Nat) (e : EventCode) (p : BitVec 128) : (s.raise src e p).colls = s.colls :=
  State.raiseAt_colls _ _ _ _ _
@[simp] theorem State.raise_atomicsDone (s : State) (src : Nat) (e : EventCode) (p : BitVec 128) : (s.raise src e p).atomicsDone = s.atomicsDone :=
  State.raiseAt_atomicsDone _ _ _ _ _
@[simp] theorem State.raise_nextColl (s : State) (src : Nat) (e : EventCode) (p : BitVec 128) : (s.raise src e p).nextColl = s.nextColl :=
  State.raiseAt_nextColl _ _ _ _ _
@[simp] theorem State.raise_power (s : State) (src : Nat) (e : EventCode) (p : BitVec 128) : (s.raise src e p).power = s.power :=
  State.raiseAt_power _ _ _ _ _
@[simp] theorem State.raise_boot (s : State) (src : Nat) (e : EventCode) (p : BitVec 128) : (s.raise src e p).boot = s.boot :=
  State.raiseAt_boot _ _ _ _ _
@[simp] theorem State.raise_sec (s : State) (src : Nat) (e : EventCode) (p : BitVec 128) : (s.raise src e p).sec = s.sec :=
  State.raiseAt_sec _ _ _ _ _
@[simp] theorem State.raise_flash (s : State) (src : Nat) (e : EventCode) (p : BitVec 128) : (s.raise src e p).flash = s.flash :=
  State.raiseAt_flash _ _ _ _ _
@[simp] theorem State.raise_mgt (s : State) (src : Nat) (e : EventCode) (p : BitVec 128) : (s.raise src e p).mgt = s.mgt :=
  State.raiseAt_mgt _ _ _ _ _
@[simp] theorem State.raise_thermTripLow (s : State) (src : Nat) (e : EventCode) (p : BitVec 128) : (s.raise src e p).thermTripLow = s.thermTripLow :=
  State.raiseAt_thermTripLow _ _ _ _ _
@[simp] theorem State.raise_strideMark (s : State) (src : Nat) (e : EventCode) (p : BitVec 128) : (s.raise src e p).strideMark = s.strideMark :=
  State.raiseAt_strideMark _ _ _ _ _
@[simp] theorem State.raise_draws (s : State) (src : Nat) (e : EventCode) (p : BitVec 128) : (s.raise src e p).draws = s.draws :=
  State.raiseAt_draws _ _ _ _ _
@[simp] theorem State.advanceTo_pending (s : State) (t : Nat) : (s.advanceTo t).pending = s.pending := by
  simp only [State.advanceTo]; split <;> rfl
@[simp] theorem State.advanceTo_regs (s : State) (t : Nat) : (s.advanceTo t).regs = s.regs := by
  simp only [State.advanceTo]; split <;> rfl
@[simp] theorem State.advanceTo_shadows (s : State) (t : Nat) : (s.advanceTo t).shadows = s.shadows := by
  simp only [State.advanceTo]; split <;> rfl
@[simp] theorem State.advanceTo_devSet (s : State) (t : Nat) : (s.advanceTo t).devSet = s.devSet := by
  simp only [State.advanceTo]; split <;> rfl
@[simp] theorem State.advanceTo_hostSet (s : State) (t : Nat) : (s.advanceTo t).hostSet = s.hostSet := by
  simp only [State.advanceTo]; split <;> rfl
@[simp] theorem State.advanceTo_barSet (s : State) (t : Nat) : (s.advanceTo t).barSet = s.barSet := by
  simp only [State.advanceTo]; split <;> rfl
@[simp] theorem State.advanceTo_staged (s : State) (t : Nat) : (s.advanceTo t).staged = s.staged := by
  simp only [State.advanceTo]; split <;> rfl
@[simp] theorem State.advanceTo_changes (s : State) (t : Nat) : (s.advanceTo t).changes = s.changes := by
  simp only [State.advanceTo]; split <;> rfl
@[simp] theorem State.advanceTo_masks (s : State) (t : Nat) : (s.advanceTo t).masks = s.masks := by
  simp only [State.advanceTo]; split <;> rfl
@[simp] theorem State.advanceTo_shares (s : State) (t : Nat) : (s.advanceTo t).shares = s.shares := by
  simp only [State.advanceTo]; split <;> rfl
@[simp] theorem State.advanceTo_regions (s : State) (t : Nat) : (s.advanceTo t).regions = s.regions := by
  simp only [State.advanceTo]; split <;> rfl
@[simp] theorem State.advanceTo_paddocks (s : State) (t : Nat) : (s.advanceTo t).paddocks = s.paddocks := by
  simp only [State.advanceTo]; split <;> rfl
@[simp] theorem State.advanceTo_sheaves (s : State) (t : Nat) : (s.advanceTo t).sheaves = s.sheaves := by
  simp only [State.advanceTo]; split <;> rfl
@[simp] theorem State.advanceTo_tiles (s : State) (t : Nat) : (s.advanceTo t).tiles = s.tiles := by
  simp only [State.advanceTo]; split <;> rfl
@[simp] theorem State.advanceTo_mem (s : State) (t : Nat) : (s.advanceTo t).mem = s.mem := by
  simp only [State.advanceTo]; split <;> rfl
@[simp] theorem State.advanceTo_hbm (s : State) (t : Nat) : (s.advanceTo t).hbm = s.hbm := by
  simp only [State.advanceTo]; split <;> rfl
@[simp] theorem State.advanceTo_eccWords (s : State) (t : Nat) : (s.advanceTo t).eccWords = s.eccWords := by
  simp only [State.advanceTo]; split <;> rfl
@[simp] theorem State.advanceTo_eccUnits (s : State) (t : Nat) : (s.advanceTo t).eccUnits = s.eccUnits := by
  simp only [State.advanceTo]; split <;> rfl
@[simp] theorem State.advanceTo_hbmCe (s : State) (t : Nat) : (s.advanceTo t).hbmCe = s.hbmCe := by
  simp only [State.advanceTo]; split <;> rfl
@[simp] theorem State.advanceTo_hbmUe (s : State) (t : Nat) : (s.advanceTo t).hbmUe = s.hbmUe := by
  simp only [State.advanceTo]; split <;> rfl
@[simp] theorem State.advanceTo_hbmErr (s : State) (t : Nat) : (s.advanceTo t).hbmErr = s.hbmErr := by
  simp only [State.advanceTo]; split <;> rfl
@[simp] theorem State.advanceTo_host (s : State) (t : Nat) : (s.advanceTo t).host = s.host := by
  simp only [State.advanceTo]; split <;> rfl
@[simp] theorem State.advanceTo_gleaner (s : State) (t : Nat) : (s.advanceTo t).gleaner = s.gleaner := by
  simp only [State.advanceTo]; split <;> rfl
@[simp] theorem State.advanceTo_progs (s : State) (t : Nat) : (s.advanceTo t).progs = s.progs := by
  simp only [State.advanceTo]; split <;> rfl
@[simp] theorem State.advanceTo_debugMem (s : State) (t : Nat) : (s.advanceTo t).debugMem = s.debugMem := by
  simp only [State.advanceTo]; split <;> rfl
@[simp] theorem State.advanceTo_ports (s : State) (t : Nat) : (s.advanceTo t).ports = s.ports := by
  simp only [State.advanceTo]; split <;> rfl
@[simp] theorem State.advanceTo_tethers (s : State) (t : Nat) : (s.advanceTo t).tethers = s.tethers := by
  simp only [State.advanceTo]; split <;> rfl
@[simp] theorem State.advanceTo_sites (s : State) (t : Nat) : (s.advanceTo t).sites = s.sites := by
  simp only [State.advanceTo]; split <;> rfl
@[simp] theorem State.advanceTo_colls (s : State) (t : Nat) : (s.advanceTo t).colls = s.colls := by
  simp only [State.advanceTo]; split <;> rfl
@[simp] theorem State.advanceTo_atomicsDone (s : State) (t : Nat) : (s.advanceTo t).atomicsDone = s.atomicsDone := by
  simp only [State.advanceTo]; split <;> rfl
@[simp] theorem State.advanceTo_nextColl (s : State) (t : Nat) : (s.advanceTo t).nextColl = s.nextColl := by
  simp only [State.advanceTo]; split <;> rfl
@[simp] theorem State.advanceTo_power (s : State) (t : Nat) : (s.advanceTo t).power = s.power := by
  simp only [State.advanceTo]; split <;> rfl
@[simp] theorem State.advanceTo_boot (s : State) (t : Nat) : (s.advanceTo t).boot = s.boot := by
  simp only [State.advanceTo]; split <;> rfl
@[simp] theorem State.advanceTo_sec (s : State) (t : Nat) : (s.advanceTo t).sec = s.sec := by
  simp only [State.advanceTo]; split <;> rfl
@[simp] theorem State.advanceTo_flash (s : State) (t : Nat) : (s.advanceTo t).flash = s.flash := by
  simp only [State.advanceTo]; split <;> rfl
@[simp] theorem State.advanceTo_mgt (s : State) (t : Nat) : (s.advanceTo t).mgt = s.mgt := by
  simp only [State.advanceTo]; split <;> rfl
@[simp] theorem State.advanceTo_thermTripLow (s : State) (t : Nat) : (s.advanceTo t).thermTripLow = s.thermTripLow := by
  simp only [State.advanceTo]; split <;> rfl
@[simp] theorem State.advanceTo_strideMark (s : State) (t : Nat) : (s.advanceTo t).strideMark = s.strideMark := by
  simp only [State.advanceTo]; split <;> rfl
@[simp] theorem State.advanceTo_draws (s : State) (t : Nat) : (s.advanceTo t).draws = s.draws := by
  simp only [State.advanceTo]; split <;> rfl
@[simp] theorem State.advancePos_pending (s : State) (t : Nat) : (s.advancePos t).pending = s.pending :=
  State.advanceTo_pending _ _
@[simp] theorem State.advancePos_regs (s : State) (t : Nat) : (s.advancePos t).regs = s.regs :=
  State.advanceTo_regs _ _
@[simp] theorem State.advancePos_shadows (s : State) (t : Nat) : (s.advancePos t).shadows = s.shadows :=
  State.advanceTo_shadows _ _
@[simp] theorem State.advancePos_devSet (s : State) (t : Nat) : (s.advancePos t).devSet = s.devSet :=
  State.advanceTo_devSet _ _
@[simp] theorem State.advancePos_hostSet (s : State) (t : Nat) : (s.advancePos t).hostSet = s.hostSet :=
  State.advanceTo_hostSet _ _
@[simp] theorem State.advancePos_barSet (s : State) (t : Nat) : (s.advancePos t).barSet = s.barSet :=
  State.advanceTo_barSet _ _
@[simp] theorem State.advancePos_staged (s : State) (t : Nat) : (s.advancePos t).staged = s.staged :=
  State.advanceTo_staged _ _
@[simp] theorem State.advancePos_changes (s : State) (t : Nat) : (s.advancePos t).changes = s.changes :=
  State.advanceTo_changes _ _
@[simp] theorem State.advancePos_masks (s : State) (t : Nat) : (s.advancePos t).masks = s.masks :=
  State.advanceTo_masks _ _
@[simp] theorem State.advancePos_shares (s : State) (t : Nat) : (s.advancePos t).shares = s.shares :=
  State.advanceTo_shares _ _
@[simp] theorem State.advancePos_regions (s : State) (t : Nat) : (s.advancePos t).regions = s.regions :=
  State.advanceTo_regions _ _
@[simp] theorem State.advancePos_paddocks (s : State) (t : Nat) : (s.advancePos t).paddocks = s.paddocks :=
  State.advanceTo_paddocks _ _
@[simp] theorem State.advancePos_sheaves (s : State) (t : Nat) : (s.advancePos t).sheaves = s.sheaves :=
  State.advanceTo_sheaves _ _
@[simp] theorem State.advancePos_tiles (s : State) (t : Nat) : (s.advancePos t).tiles = s.tiles :=
  State.advanceTo_tiles _ _
@[simp] theorem State.advancePos_mem (s : State) (t : Nat) : (s.advancePos t).mem = s.mem :=
  State.advanceTo_mem _ _
@[simp] theorem State.advancePos_hbm (s : State) (t : Nat) : (s.advancePos t).hbm = s.hbm :=
  State.advanceTo_hbm _ _
@[simp] theorem State.advancePos_eccWords (s : State) (t : Nat) : (s.advancePos t).eccWords = s.eccWords :=
  State.advanceTo_eccWords _ _
@[simp] theorem State.advancePos_eccUnits (s : State) (t : Nat) : (s.advancePos t).eccUnits = s.eccUnits :=
  State.advanceTo_eccUnits _ _
@[simp] theorem State.advancePos_hbmCe (s : State) (t : Nat) : (s.advancePos t).hbmCe = s.hbmCe :=
  State.advanceTo_hbmCe _ _
@[simp] theorem State.advancePos_hbmUe (s : State) (t : Nat) : (s.advancePos t).hbmUe = s.hbmUe :=
  State.advanceTo_hbmUe _ _
@[simp] theorem State.advancePos_hbmErr (s : State) (t : Nat) : (s.advancePos t).hbmErr = s.hbmErr :=
  State.advanceTo_hbmErr _ _
@[simp] theorem State.advancePos_host (s : State) (t : Nat) : (s.advancePos t).host = s.host :=
  State.advanceTo_host _ _
@[simp] theorem State.advancePos_gleaner (s : State) (t : Nat) : (s.advancePos t).gleaner = s.gleaner :=
  State.advanceTo_gleaner _ _
@[simp] theorem State.advancePos_progs (s : State) (t : Nat) : (s.advancePos t).progs = s.progs :=
  State.advanceTo_progs _ _
@[simp] theorem State.advancePos_debugMem (s : State) (t : Nat) : (s.advancePos t).debugMem = s.debugMem :=
  State.advanceTo_debugMem _ _
@[simp] theorem State.advancePos_ports (s : State) (t : Nat) : (s.advancePos t).ports = s.ports :=
  State.advanceTo_ports _ _
@[simp] theorem State.advancePos_tethers (s : State) (t : Nat) : (s.advancePos t).tethers = s.tethers :=
  State.advanceTo_tethers _ _
@[simp] theorem State.advancePos_sites (s : State) (t : Nat) : (s.advancePos t).sites = s.sites :=
  State.advanceTo_sites _ _
@[simp] theorem State.advancePos_colls (s : State) (t : Nat) : (s.advancePos t).colls = s.colls :=
  State.advanceTo_colls _ _
@[simp] theorem State.advancePos_atomicsDone (s : State) (t : Nat) : (s.advancePos t).atomicsDone = s.atomicsDone :=
  State.advanceTo_atomicsDone _ _
@[simp] theorem State.advancePos_nextColl (s : State) (t : Nat) : (s.advancePos t).nextColl = s.nextColl :=
  State.advanceTo_nextColl _ _
@[simp] theorem State.advancePos_power (s : State) (t : Nat) : (s.advancePos t).power = s.power :=
  State.advanceTo_power _ _
@[simp] theorem State.advancePos_boot (s : State) (t : Nat) : (s.advancePos t).boot = s.boot :=
  State.advanceTo_boot _ _
@[simp] theorem State.advancePos_sec (s : State) (t : Nat) : (s.advancePos t).sec = s.sec :=
  State.advanceTo_sec _ _
@[simp] theorem State.advancePos_flash (s : State) (t : Nat) : (s.advancePos t).flash = s.flash :=
  State.advanceTo_flash _ _
@[simp] theorem State.advancePos_mgt (s : State) (t : Nat) : (s.advancePos t).mgt = s.mgt :=
  State.advanceTo_mgt _ _
@[simp] theorem State.advancePos_thermTripLow (s : State) (t : Nat) : (s.advancePos t).thermTripLow = s.thermTripLow :=
  State.advanceTo_thermTripLow _ _
@[simp] theorem State.advancePos_strideMark (s : State) (t : Nat) : (s.advancePos t).strideMark = s.strideMark :=
  State.advanceTo_strideMark _ _
@[simp] theorem State.advancePos_draws (s : State) (t : Nat) : (s.advancePos t).draws = s.draws :=
  State.advanceTo_draws _ _

/-! ### raiseAt: what it adds -/

/-- Raising an event adds one record on its way to the Gleaner and, of the host port, may set FAULT (R397, R475). -/
theorem State.raiseAt_arriving (s : State) (a src : Nat) (e : EventCode) (p : BitVec 128) :
    (s.raiseAt a src e p).gleaner.arriving = s.gleaner.arriving ++
      [{ gtc := BitVec.ofNat 64 a, epoch := s.time.loads, source := s.source src, cls := BitVec.ofNat 16 e.1,
         code := BitVec.ofNat 16 e.2, payload := p }] := by
  simp only [State.raiseAt]; split <;> rfl

/-- Time never passes the end of the stride, and never goes back. -/
theorem State.advanceTo_cases (s : State) (t : Nat) :
    s.advanceTo t = s ∨ (s.now < t ∧ s.advanceTo t = s.setNow (min t (s.stride * strideLen + (strideLen - 1)))) := by
  simp only [State.advanceTo]
  split
  · rename_i h; exact .inr ⟨by omega, rfl⟩
  · exact .inl rfl

/-! ### A tile read back -/

/-- A tile that is set reads back when it differs from a tile at reset. -/
theorem State.tile_setTile (s : State) (n : Nat) (x : Tile) (h : x ≠ {}) : (s.setTile n x).tile n = x :=
  Tbl.get_put_nondefault _ _ _ _ h

/-- Setting a tile twice sets it once. -/
theorem State.setTile_setTile (s : State) (n : Nat) (x y : Tile) (hx : x ≠ {}) (hy : y ≠ {}) :
    (s.setTile n x).setTile n y = s.setTile n y := by
  unfold State.setTile
  simp only [Tbl.put_put_nondefault _ _ _ _ _ hx hy]

/-- Changing a tile of which the contents are known. -/
theorem State.modTile_of {s : State} {n : Nat} {x : Tile} (h : s.tile n = x) (f : Tile → Tile) :
    s.modTile n f = s.setTile n (f x) := by rw [← h]; rfl

/-- Changing a tile just set. -/
theorem State.modTile_setTile (s : State) (n : Nat) (x : Tile) (f : Tile → Tile) (hx : x ≠ {}) (hf : f x ≠ {}) :
    (s.setTile n x).modTile n f = s.setTile n (f x) := by
  rw [State.modTile_of (State.tile_setTile _ _ _ hx), State.setTile_setTile _ _ _ _ hx hf]

/-- Another tile is untouched when a tile that differs from one at reset is set. -/
theorem State.tile_setTile_other (s : State) (n k : Nat) (x : Tile) (h : x ≠ {}) (hk : k ≠ n) : (s.setTile n x).tile k = s.tile k := by
  unfold State.tile State.setTile
  simp only [Tbl.put, if_neg h]
  exact Tbl.get_insert_other _ _ _ _ _ hk

@[simp] theorem State.tile_advanceTo (s : State) (t n : Nat) : (s.advanceTo t).tile n = s.tile n := by
  simp [State.tile]

@[simp] theorem State.sheaf_advanceTo (s : State) (t m : Nat) : (s.advanceTo t).sheaf m = s.sheaf m := by
  simp [State.sheaf]

end Sys2Proof.Machine
end

