-- ==== Sys2Proof/Laws/Memory.lean ====
section
/-!
SUPPORT. Laws/Memory.lean: what an address and a byte of memory depend on (R176, R291 to R295, R311), and what little-endian
bytes are (R5).
-/

namespace Sys2Proof.Machine

/-! ### Bit fields -/

theorem ofNat_bits {n : Nat} (v : BitVec n) (lo len : Nat) : BitVec.ofNat len (bits v lo len) = v.extractLsb' lo len := by
  apply BitVec.eq_of_toNat_eq; simp [bits]

theorem sext_bits {n : Nat} (m : Nat) (v : BitVec n) (lo len : Nat) :
    sext m len (bits v lo len) = (v.extractLsb' lo len).signExtend m := by
  unfold sext BitVec.signExtend; rw [ofNat_bits]

theorem sext_toNat (n k : Nat) (v : BitVec k) : sext n k v.toNat = v.signExtend n := by
  simp [sext, BitVec.signExtend]

theorem imm32_eq (w : BitVec 64) : BitVec.ofNat 32 (bits w 0 32) = w.extractLsb' 0 32 := ofNat_bits w 0 32

@[simp] theorem leBytes_length (n x : Nat) : (leBytes n x).length = n := by
  induction n generalizing x with
  | zero => rfl
  | succ n ih => simp [leBytes, ih]

/-- Byte `i` of a little-endian number. -/
theorem leBytes_get (n x i : Nat) (h : i < (leBytes n x).length) : (leBytes n x)[i] = BitVec.ofNat 8 (x / 256 ^ i) := by
  induction n generalizing x i with
  | zero => simp [leBytes] at h
  | succ n ih =>
    cases i with
    | zero => apply BitVec.eq_of_toNat_eq; simp [leBytes]
    | succ j => simp only [leBytes, List.getElem_cons_succ, ih]; rw [Nat.pow_succ', Nat.div_div_eq_div_mul]

/-! ### What a place, its reach and a byte depend on -/

/-- A place depends on the registers alone (the Silage controls). -/
theorem State.place_congr {s t : State} (h : t.regs = s.regs) (a : Nat) : t.place a = s.place a := by
  have hf : ∀ r lo len, t.field r lo len = s.field r lo len := by intro r lo len; simp only [State.field, State.reg, h]
  have h1 : ∀ m, t.silageBanks m = s.silageBanks m := fun m => hf _ _ _
  have h2 : ∀ m, t.silageRawMode m = s.silageRawMode m := by intro m; simp only [State.silageRawMode, hf]
  simp only [State.place, h1, h2]

/-- Who runs a sheaf depends on the masks, the registers and the time. -/
theorem State.runs_congr {s t : State} (hr : t.regs = s.regs) (hm : t.masks = s.masks) (ht : t.time.gtc = s.time.gtc) (m : Nat) :
    t.runs m = s.runs m := by
  have hk : t.mask = s.mask := by funext p; simp only [State.mask, hm]
  simp only [State.runs, State.selects, State.holders, hk, State.gaitEntry, State.field, State.reg, State.stride, State.now, hr, ht]
  rfl

/-- Who owns a sheaf's SRAM depends on these and on the tests and failed sheaves. -/
theorem State.sramOwner_congr {s t : State} (hr : t.regs = s.regs) (hm : t.masks = s.masks) (ht : t.time.gtc = s.time.gtc)
    (hb : t.boot = s.boot) (m : Nat) : t.sramOwner m = s.sramOwner m := by
  unfold State.sramOwner State.sheafFailed State.isolated
  rw [State.runs_congr hr hm ht, hb]

/-- The reach of an address depends on these and on the regions. -/
theorem State.reach_congr {s t : State} (hr : t.regs = s.regs) (hm : t.masks = s.masks) (ht : t.time.gtc = s.time.gtc)
    (hb : t.boot = s.boot) (hg : t.regions = s.regions) (p a : Nat) (w f : Bool) : t.reach p a w f = s.reach p a w f := by
  have ho : ∀ u, t.hbmOwner u = s.hbmOwner u := by intro u; simp only [State.hbmOwner, State.region, hg]
  unfold State.reach
  rw [State.place_congr hr]
  cases s.place a <;> simp only [State.sramOwner_congr hr hm ht hb, ho]

/-- The bytes of an HBM unit depend on the fuses. -/
theorem State.storedBytes_congr {s t : State} (hk : t.sec.fuses = s.sec.fuses) (u : Nat) (x : HbmUnit) :
    t.storedBytes u x = s.storedBytes u x := by
  unfold State.storedBytes; rw [hk]

/-- The plaintext of an HBM unit depends on the fuses. -/
theorem State.plainBytes_congr {s t : State} (hk : t.sec.fuses = s.sec.fuses) (p u : Nat) (x : HbmUnit) :
    t.plainBytes p u x = s.plainBytes p u x := by
  unfold State.plainBytes; rw [hk, State.storedBytes_congr hk]

/-- An HBM unit as read depends on the regions, the units and the fuses. -/
theorem State.readUnit_congr {s t : State} (hg : t.regions = s.regions) (hu : t.hbm = s.hbm) (hk : t.sec.fuses = s.sec.fuses)
    (p u : Nat) : t.readUnit p u = s.readUnit p u := by
  simp only [State.readUnit, State.hbmOwner, State.region, State.unit, hg, hu, State.storedBytes_congr hk, State.plainBytes_congr hk]

/-- Bytes of two memories that agree from an address on. -/
theorem Memory.bytes_congr {m k : List Host.Cell} (lo : Nat) (h : ∀ y, lo ≤ y → Memory.byte m y = Memory.byte k y) (a n : Nat)
    (ha : lo ≤ a) : Memory.bytes m a n = Memory.bytes k a n := by
  induction n generalizing a with
  | zero => rfl
  | succ n ih => simp only [Memory.bytes]; rw [h a ha, ih _ (by omega)]

/-- A byte as read is unchanged by any update that leaves the registers, masks, time, tests, regions, HBM units and fuses, and the
bytes of SRAM outside a range of the tile stores. -/
theorem State.readByte_congr {s t : State} (lo hi : Nat) (hr : t.regs = s.regs) (hm : t.masks = s.masks)
    (ht : t.time.gtc = s.time.gtc) (hb : t.boot = s.boot) (hg : t.regions = s.regions) (hu : t.hbm = s.hbm)
    (hk : t.sec.fuses = s.sec.fuses) (hbytes : ∀ y, y < lo ∨ hi ≤ y → Memory.byte t.mem y = Memory.byte s.mem y) (hhi : hi ≤ 0x200000000000)
    (p a : Nat) (ha : a < lo ∨ hi ≤ a) : t.readByte p a = s.readByte p a := by
  have hfar : ∀ y, 0x200000000000 ≤ y → Memory.byte t.mem y = Memory.byte s.mem y := fun y hy => hbytes y (by omega)
  unfold State.readByte
  rw [State.reach_congr hr hm ht hb hg, State.place_congr hr]
  split
  · cases s.place a with
    | hbm u => simp only [State.readUnit_congr hg hu hk]
    | store k o => exact hbytes a ha
    | bank m o => exact hbytes a ha
    | silageRefused m => rfl
    | silageRaw m o => exact hfar _ (by unfold sheafBase; omega)
    | silageGroup m g i =>
      have hs : t.slgAt m g = s.slgAt m g := by simp only [State.slgAt, State.silageBanks, State.field, State.reg, hr]
      have h1 : 0x200000000000 ≤ (s.slgAt m g).1 := by simp only [State.slgAt, sheafBase]; omega
      have h2 : 0x200000000000 ≤ (s.slgAt m g).2 := by simp only [State.slgAt, sheafBase]; omega
      have hgp : t.readGroup m g = s.readGroup m g := by
        unfold State.readGroup
        rw [hs]
        simp only
        rw [hfar _ h2, Memory.bytes_congr 0x200000000000 hfar _ _ h1]
      simp only [hgp]
    | reg o => rfl
    | host => exact hbytes a ha
    | none => rfl
  · rfl

end Sys2Proof.Machine
end

