-- ==== Sys2Proof/Laws/Issue.lean ====
section
/-!
SUPPORT. Laws/Issue.lean: what issuing an instruction of a tile does (R234, R245 to R253).
-/

namespace Sys2Proof.Laws

open Sys2Proof.Machine Sys2Proof.Safety

/-- What an issued body makes of the state `s`, whose time of issue is that of `s1`. -/
def issuedState (s s1 : State) (n : Nat) : Issued → State
  | .wait => s
  | .fault cause dpa => s1.tileFault n cause dpa
  | .retire s2 aclk target => s1.retire s2 n aclk target
  | .jump s2 pc loops => s2.modTile n fun t => { t with pc := BitVec.ofNat 11 pc, loops := loops, nextIssue := s2.now + 1 }
  | .hold s2 => s2

/-- An instruction that meets every condition of issue does what its body says. -/
theorem issueWhen_of_issues {s : State} {n op unit at_ : Nat} {w : BitVec 64}
    (ready : State → Tile → BitVec 64 → Option Nat) (body : State → Tile → BitVec 64 → Issued)
    (h : Issues s n op unit w at_) (hu : ready s (s.tile n) w = some unit) (hb : (s.tile n).badBranch w = false) :
    s.issueWhen n op ready body = issuedState s (s.advanceTo at_) n (body (s.advanceTo at_) (s.tile n) w) := by
  obtain ⟨l, hl, hat⟩ := h.landed
  simp only [State.issueWhen, reservedWord, h.word, h.powered, h.state, h.opcode, h.legal, h.guard, hl, hu, if_true]
  simp only [Bool.not_true, Bool.and_false, Bool.or_false, ne_eq, not_true_eq_false, decide_false, Bool.false_eq_true, if_false, hb, ← hat]
  rw [if_neg (Nat.not_lt.2 h.inTime)]
  cases body (s.advanceTo at_) (s.tile n) w <;> rfl

/-- Only a branch can have a bad target. -/
theorem badBranch_false {t : Tile} {w : BitVec 64} (h : opOf w ≠ 2) : t.badBranch w = false := by
  simp [Tile.badBranch, h]

/-- As `issueWhen_of_issues`, for an instruction that needs no unit. -/
theorem issue_of_issues {s : State} {n op at_ : Nat} {w : BitVec 64} (body : State → Tile → BitVec 64 → Issued)
    (h : Issues s n op 0 w at_) (hb : (s.tile n).badBranch w = false) :
    s.issue n op body = issuedState s (s.advanceTo at_) n (body (s.advanceTo at_) (s.tile n) w) :=
  issueWhen_of_issues _ _ h rfl hb

/-- A running tile is not a tile at reset. -/
theorem running_ne_default {t : Tile} (h : t.seqState = .running) : t ≠ {} := by
  rintro rfl; exact absurd h (by decide)

/-- A retirement that can move on changes the tile's PC, loop stack and next issue time only. -/
theorem retire_of_after {before s : State} {n aclk : Nat} {target : Option Nat} {pc : BitVec 11} {loops : List LoopLevel}
    (h : (before.tile n).after target = some (pc, loops)) :
    before.retire s n aclk target = s.setTile n (goOn (s.tile n) pc loops (s.now + aclk)) := by
  simp only [State.retire, h, State.modTile, goOn]

/-- An instruction whose body retires leaves the body's state, with its tile's PC, loop stack and next issue time set. -/
theorem issueWhen_retires {s s2 : State} {n op unit at_ aclk : Nat} {w : BitVec 64} {target : Option Nat} {pc : BitVec 11}
    {loops : List LoopLevel} (ready : State → Tile → BitVec 64 → Option Nat) (body : State → Tile → BitVec 64 → Issued)
    (h : Issues s n op unit w at_) (hu : ready s (s.tile n) w = some unit) (hb : (s.tile n).badBranch w = false)
    (ha : (s.tile n).after target = some (pc, loops))
    (hbody : body (s.advanceTo at_) (s.tile n) w = .retire s2 aclk target) :
    s.issueWhen n op ready body = s2.setTile n (goOn (s2.tile n) pc loops (s2.now + aclk)) := by
  rw [issueWhen_of_issues ready body h hu hb, hbody]
  exact retire_of_after (by simpa using ha)

/-- As `issueWhen_retires`, for an instruction that needs no unit and is no branch. -/
theorem issue_retires {s s2 : State} {n op at_ aclk : Nat} {w : BitVec 64} {pc : BitVec 11}
    {loops : List LoopLevel} (body : State → Tile → BitVec 64 → Issued)
    (h : Issues s n op 0 w at_) (hop : op ≠ 2) (ha : (s.tile n).after none = some (pc, loops))
    (hbody : body (s.advanceTo at_) (s.tile n) w = .retire s2 aclk none) :
    s.issue n op body = s2.setTile n (goOn (s2.tile n) pc loops (s2.now + aclk)) :=
  issueWhen_retires _ body h rfl (badBranch_false (by rw [h.opcode]; exact hop)) ha hbody

/-- An instruction whose body faults stops its tile, with nothing of it in effect. -/
theorem issue_faults {s : State} {n op at_ cause dpa : Nat} {w : BitVec 64} (body : State → Tile → BitVec 64 → Issued)
    (h : Issues s n op 0 w at_) (hop : op ≠ 2) (hbody : body (s.advanceTo at_) (s.tile n) w = .fault cause dpa) :
    s.issue n op body = (s.advanceTo at_).tileFault n cause dpa := by
  rw [issue_of_issues body h (badBranch_false (by rw [h.opcode]; exact hop)), hbody]; rfl

/-- An instruction whose body retires with its tile changed by `f` writes its tile and nothing else. -/
theorem writesTile_of {i : Nat → Instr} {op : Nat} {which : BitVec 64 → Prop} {f : BitVec 64 → Nat → Tile → Tile}
    (body : Nat → State → Tile → BitVec 64 → Issued)
    (hx : ∀ n s, exec (i n) s = .next (s.issue n op (body n))) (hop : op ≠ 2)
    (hf : ∀ w k t, t.seqState = .running → (f w k t).seqState = .running)
    (hb : ∀ n s w, which w → legalWord w = true → opOf w = op →
      body n s (s.tile n) w = .retire (s.setTile n (f w s.now (s.tile n))) 1 none) :
    WritesTile i op which f := by
  intro s n w at_ pc loops h hw ha
  rw [hx, issue_of_issues _ h (badBranch_false (by rw [h.opcode]; exact hop))]
  have hr := h.state
  have hbody := hb n (s.advanceTo at_) w hw h.legal h.opcode
  rw [State.tile_advanceTo] at hbody
  rw [hbody]
  simp only [issuedState]
  rw [retire_of_after (by simpa using ha)]
  have h1 := running_ne_default (hf w (s.advanceTo at_).now _ hr)
  simp only [State.tile_setTile _ _ _ h1]
  rw [State.setTile_setTile _ _ _ _ h1 (by intro hh; have := congrArg Tile.seqState hh; simp [goOn, hf w _ _ hr] at this)]
  rfl

/-- An instruction whose guard does not hold only moves its tile's PC on (R245). -/
theorem issueWhen_off {s : State} {n op : Nat} {pc : BitVec 11} {loops : List LoopLevel}
    (ready : State → Tile → BitVec 64 → Option Nat) (body : State → Tile → BitVec 64 → Issued)
    (h1 : opOf (s.tile n).fetch = op) (h2 : s.isRunning = true) (h3 : (s.tile n).seqState = .running)
    (h4 : reservedWord (s.tile n).preds (s.tile n).fetch = false) (h5 : guardHolds (s.tile n).preds (s.tile n).fetch = false)
    (h6 : (s.tile n).badBranch (s.tile n).fetch = false)
    (h7 : max (s.tile n).nextIssue (max s.windowStart s.now) ≤ s.stride * strideLen + 1999 + (s.tile n).budget)
    (h8 : (s.tile n).after none = some (pc, loops)) :
    s.issueWhen n op ready body = (s.advanceTo (max (s.tile n).nextIssue (max s.windowStart s.now))).setTile n
      (goOn (s.tile n) pc loops ((s.advanceTo (max (s.tile n).nextIssue (max s.windowStart s.now))).now + 1)) := by
  have h0 : (s.tile n).operandsAt [] = some 0 := by
    have : ∀ l : List (Nat × Nat), l.foldl (fun (k : Nat) (x : Nat × Nat) => if ([] : List Nat).contains x.1 then max k x.2 else k) 0 = 0 := by
      intro l
      induction l with
      | nil => rfl
      | cons x r ih => simp
    simp only [Tile.operandsAt, List.any_nil, Bool.false_eq_true, if_false, this]
  simp only [State.issueWhen, h1, h2, h3, h4, h5, h6, h0, Bool.false_eq_true, if_false, Bool.not_true, Bool.or_false, ne_eq,
    not_true_eq_false, decide_false, Bool.not_false, if_true, Nat.max_zero]
  rw [if_neg (Nat.not_lt.2 h7), retire_of_after (by simpa using h8)]
  simp

/-- With no tile at a barrier of the sheaf, no peer faults. -/
theorem settlePeers_none {s : State} {n : Nat} (h : (s.sheaf (n / 64)).arrivals = []) : s.settlePeers n = s := by
  unfold State.settlePeers
  simp [State.peerFaults, h]

end Sys2Proof.Laws
end

