-- ==== Sys2Proof/Laws/Forms.lean ====
section
/-!
SUPPORT. Laws/Forms.lean: the forms `Does`, `FaultsWith` and `StallsOn` of Safety from one fact about an instruction's body each.
-/

namespace Sys2Proof.Laws

open Sys2Proof.Machine Sys2Proof.Safety

/-- `Does` from one fact about the body: on a running tile under its conditions, the body retires with `f`. -/
theorem does_of {i op aclk ready ok f} (rd : State → Tile → BitVec 64 → Option Nat) (body : Nat → State → Tile → BitVec 64 → Issued)
    (hx : ∀ n s, exec (i n) s = .next (s.issueWhen n op rd (body n))) (hop : op ≠ 2)
    (hr : ∀ s n u w, ready s n w u → rd s (s.tile n) w = some u)
    (hb : ∀ u n w, (u.tile n).seqState = .running → opOf w = op → legalWord w = true → ok u n w →
      body n u (u.tile n) w = .retire (f u n w) aclk none) :
    Does i op aclk ready ok f := by
  intro s n unit w at_ pc loops h1 h2 h3 h4
  rw [hx, issueWhen_retires rd (body n) h2 (hr _ _ _ _ h1) (badBranch_false (by rw [h2.opcode]; exact hop)) h4]
  have := hb (s.advanceTo at_) n w (by simpa using h2.state) h2.opcode h2.legal h3
  simpa using this

/-- `FaultsWith` from one fact about the body: where `fault` names a cause, the body faults with it. -/
theorem faults_of {i op ready fault} (rd : State → Tile → BitVec 64 → Option Nat) (body : Nat → State → Tile → BitVec 64 → Issued)
    (hx : ∀ n s, exec (i n) s = .next (s.issueWhen n op rd (body n))) (hop : op ≠ 2)
    (hr : ∀ s n u w, ready s n w u → rd s (s.tile n) w = some u)
    (hb : ∀ u n w c d, (u.tile n).seqState = .running → opOf w = op → legalWord w = true → fault u n w = some (c, d) →
      body n u (u.tile n) w = .fault c d) :
    FaultsWith i op ready fault := by
  intro s n unit w at_ c d h1 h2 h3
  rw [hx, issueWhen_of_issues rd (body n) h2 (hr _ _ _ _ h1) (badBranch_false (by rw [h2.opcode]; exact hop))]
  have := hb (s.advanceTo at_) n w c d (by simpa using h2.state) h2.opcode h2.legal h3
  rw [State.tile_advanceTo] at this
  rw [this]; rfl

/-- `StallsOn` from one fact about the body: while busy, it waits. -/
theorem stalls_of {i op busy} (body : Nat → State → Tile → BitVec 64 → Issued)
    (hx : ∀ n s, exec (i n) s = .next (s.issue n op (body n))) (hop : op ≠ 2)
    (hb : ∀ u n w, (u.tile n).seqState = .running → busy u n w → body n u (u.tile n) w = .wait) : StallsOn i op busy := by
  intro s n w at_ h1 h2
  rw [hx, issue_of_issues (body n) h1 (badBranch_false (by rw [h1.opcode]; exact hop))]
  have := hb (s.advanceTo at_) n w (by simpa using h1.state) h2
  rw [State.tile_advanceTo] at this
  rw [this]; rfl

end Sys2Proof.Laws
end

