-- ==== Sys2Proof/Tests/Slice0.lean ====
section
/-!
SUPPORT. Tests/Slice0.lean: the ill-formed terms that WellFormed refuses, small tests of one command each, and for the
statements of Certificates/Slice0/Obligations.lean that have hypotheses a state that meets them.
-/

open Sys2Proof Sys2Proof.Machine Sys2Proof.Safety

namespace Sys2Proof.Tests

set_option Elab.async false

/-! ### WellFormed refuses -/

/-- One ill-formed term or more for each check. -/
def illFormed : List Instr :=
  [.loop 25600, .paddockSwitch 400, .laneGroupStart 24, .tetherBroken 4096, .bridleRemove 6, .keySweepEnd 16, .regionClearEnd 512] ++
  [.mangerFetch [16], .sheafActivitySpan 98, .apertureAccess (8192 * 0x200000) 1 none {}, .mtgEntryWrite 400 0 0 0, .mtgEntryWrite 0 256 0 0,
   .mtgEntryWrite 0 0 6 0, .barrierComplete 0 4, .moveComplete 0 16 {}, .tileBudget 0 [16], .mtgCloseEvaluation 0 256,
   .partVerdict 16 0, .entrySend 0 1000 {}, .laneFail 0 4 0, .bridleInsert 0 {}, .strideTick { hotSource := 26008 } {},
   .atomicPerform 0 { arrival := 16 }, .linkControlBlock 0 { fecLost := [(4, 1)] }] ++
  [.patrolRead 8 0 {}, .patrolRead 0 (2 ^ 33) {}, .hostLinkTrain 5 1, .hostLinkTrain 8 4, .inputExcursion 65536,
   .inputFail 65536, .powerUpReset { blown := some { lifecycle := 5 } }, .powerUpReset { blown := some { rbMin := 65 } },
   .powerUpReset { bistOuter := some 3 }, .powerUpReset { hbmFail := some 26008 }, .powerUpReset { bistPorts := [24] },
   .powerUpReset { sheaves := [(1, true, true), (1, true, true)] }, .flashWrite 0 (List.replicate 257 0), .mgtReservedRequest 9]

/-- Terms at the last value each check accepts. -/
def wellFormed : List Instr :=
  [.nop 25599, .paddockSwitch 399, .laneGroupStart 23, .tetherBroken 4095, .bridleRemove 5, .keySweepEnd 15, .regionClearEnd 511,
   .mgtReservedRequest 0, .mgtReservedRequest 10, .patrolRead 7 (2 ^ 33 - 1) {}, .strideTick { hotSource := 26112 } {}, .atomicPerform 0 { arrival := 15 },
   .linkControlBlock 0 { fecLost := [(3, 1)] }, .powerUpReset { blown := some { lifecycle := 4, rbMin := 64 } },
   .powerUpReset { bistOuter := some 25600, hbmFail := some 26007, bistPorts := [23], sheaves := [(399, true, false)] }]

theorem test_wellformed_refuses :
    (illFormed.all fun i => !i.WellFormed) = true ∧ (guardedOpcodes.all fun q => !(q.1 25600).WellFormed) = true := by decide +kernel

theorem test_wellformed_accepts : wellFormed.all Instr.WellFormed = true := by decide +kernel

/-! ### A tile that runs one word -/

/-- Format R of R244 with guard 0. -/
def wordR (op d a b c f imm : Nat) : BitVec 64 :=
  BitVec.ofNat 64 (op * 2 ^ 56 + d * 2 ^ 47 + a * 2 ^ 42 + b * 2 ^ 37 + c * 2 ^ 32 + f * 2 ^ 24 + imm)

/-- Format I of R244 with guard 0. -/
def wordI (op d a f imm : Nat) : BitVec 64 := BitVec.ofNat 64 (op * 2 ^ 56 + d * 2 ^ 47 + a * 2 ^ 42 + f * 2 ^ 32 + imm)

/-- A program of four words with budget 90,000. -/
def fourWords : ProgRange := { length := 4, budget := 90000 }

/-- A running tile of that program, at its first word. -/
def tileWith (w : BitVec 64) : Tile := { seqState := .running, store := Tbl.put 0 [] 0 w, program := some fourWords, ranges := [fourWords] }

/-- Position 2,000 of stride 0, tile 0 as given, sheaf 0 active and paddock 0's, paddock 0 in phase `ph`. -/
def withTile (t : Tile) (ph : BitVec 64 := 0) : State :=
  { State.reset with time := { gtc := 2000, actDue := false, fetchDue := false, windowDue := false }, tiles := [(0, t)], masks := [(0, 1)],
                     sheaves := [(0, { active := true })], regs := Tbl.put 0 [] (Reg.offset (.pdkCtl 0)) ph }

/-- Whether tile `n` issues the word at its PC at GTC `at_`, and its PC can move on. -/
def canIssue (s : State) (n op unit at_ : Nat) (moves : Bool := true) : Bool :=
  let t := s.tile n
  let w := t.fetch
  s.isRunning && decide (t.seqState = .running) && decide (opOf w = op) && legalWord w && guardHolds t.preds w &&
    (match t.operandsAt (t.usesAt w) with
     | some l => decide (at_ = max (max (max t.nextIssue l) (max unit (s.entriesReady n w))) (max s.windowStart s.now))
     | none => false) &&
    decide (at_ ≤ s.stride * strideLen + 1999 + t.budget) && (!moves || (t.after none).isSome)

theorem issues_of_canIssue {s : State} {n op unit at_ : Nat} {moves : Bool} (h : canIssue s n op unit at_ moves = true) :
    Issues s n op unit (s.tile n).fetch at_ ∧ (moves = true → ∃ pc loops, (s.tile n).after none = some (pc, loops)) := by
  simp only [canIssue, Bool.and_eq_true, decide_eq_true_eq, Bool.or_eq_true, Bool.not_eq_true'] at h
  obtain ⟨⟨⟨⟨⟨⟨⟨h1, h2⟩, h3⟩, h4⟩, h5⟩, h6⟩, h7⟩, h8⟩ := h
  refine ⟨⟨h1, h2, rfl, h3, h4, h5, ?_, h7⟩, ?_⟩
  · split at h6
    · next l hl => exact ⟨l, hl, by simpa using h6⟩
    · cases h6
  · intro hm
    rcases h8 with h8 | h8
    · simp [hm] at h8
    · obtain ⟨⟨pc, loops⟩, h⟩ := Option.isSome_iff_exists.mp h8
      exact ⟨pc, loops, h⟩

/-- The state after, when there is one. -/
def after (i : Instr) (s : State) : State :=
  match exec i s with
  | .next u => u
  | .fault _ => s
  | .refused _ => s

/-- The tile with s1 = `x`, s2 = 5, a1 = `a`, a2 = 0x2000_0000_0100, t1 = `d`, t2 = `e`. -/
def regs (x : BitVec 32) (a : BitVec 48) (d e : BitVec 256) (t : Tile) : Tile :=
  (((((t.setS 1 x).setS 2 5).setA 1 a).setA 2 0x200000000100).setT 1 d).setT 2 e

/-- A state whose tile 0 is at `w` with registers as `regs` says. -/
def at_ (w : BitVec 64) (x : BitVec 32 := 8) (a : BitVec 48 := 0) (d e : BitVec 256 := 0) (ph : BitVec 64 := 0) : State :=
  withTile (regs x a d e (tileWith w)) ph

/-! ### Scalar and control instructions -/

/-- Words of one instruction each, with their major opcodes, that a running tile issues at once: each clause of the ALU, comparison,
predicate, address and descriptor statements. -/
def plainWords : List (Nat × BitVec 64) :=
  [(0x10, wordR 0x10 3 1 2 0 0 0), (0x10, wordR 0x10 3 1 2 0 13 0), (0x10, wordR 0x10 3 1 2 1 14 0), (0x11, wordI 0x11 3 1 13 7), (0x12, wordI 0x12 3 0 0 7),
   (0x13, wordR 0x13 1 1 2 0 5 0), (0x13, wordR 0x13 0 1 2 0 5 0), (0x14, wordI 0x14 1 1 5 7), (0x15, wordR 0x15 1 2 3 0 4 0), (0x15, wordR 0x15 1 0 0 0 5 1)] ++
  [(0x18, wordR 0x18 3 1 2 0 0 0), (0x18, wordR 0x18 3 1 2 0 2 9), (0x18, wordR 0x18 3 1 2 0 5 0), (0x18, wordR 0x18 3 1 2 0 6 0), (0x19, wordI 0x19 3 1 0 0),
   (0x1A, wordI 0x1A 3 1 0 7), (0x26, wordR 0x26 1 1 0 0 0 0), (0x26, wordR 0x26 1 1 0 0 7 0), (0x27, wordR 0x27 1 1 2 0 0 0)] ++
  [(0x0B, wordR 0x0B 0 0 0 0 0 0), (0x08, wordR 0x08 0 0 0 0 0 0), (0x0A, wordR 0x0A 3 0 0 0 0 0), (0x06, wordR 0x06 0 0 0 0 0 0), (0x09, wordR 0x09 3 0 0 0 0 9),
   (0x09, wordR 0x09 3 0 0 0 0 0), (0x07, wordR 0x07 0 1 2 3 0 5), (0x04, wordR 0x04 0 0 0 0 0 0), (0x01, wordR 0x01 0 0 0 0 0 0), (0x60, wordR 0x60 0 0 0 0 0 31),
   (0x32, wordR 0x32 0 0 0 0 0 0)]

/-- Premises of AluWritesItsResult, PredicateWrites, AddressAndDescriptorWrites, ControlInstructions and of the first clauses of
TileWaits. -/
theorem test_plain_words_issue : (plainWords.all fun q => canIssue (at_ q.2) 0 q.1 0 2000) = true := by decide +kernel

/-- R258: SUB wraps, SRA keeps the sign, SEL takes sB when p1 is 0. -/
theorem test_alu : ((after (.alu 0) (at_ (wordR 0x10 3 2 1 0 1 0))).tile 0).s 3 = 0xFFFFFFFD ∧
    ((after (.alu 0) (at_ (wordR 0x10 3 1 2 0 9 0) 0x80000000)).tile 0).s 3 = 0xFC000000 ∧
    ((after (.alu 0) (at_ (wordR 0x10 3 1 2 1 14 0))).tile 0).s 3 = 5 := by decide +kernel

/-- R259: LT is signed and LTU is not; p0 stays. -/
theorem test_cmp : (((after (.cmp 0) (at_ (wordR 0x13 1 1 2 0 2 0) 0xFFFFFFFF)).tile 0).p 1,
    ((after (.cmp 0) (at_ (wordR 0x13 1 1 2 0 3 0) 0xFFFFFFFF)).tile 0).p 1, ((after (.cmp 0) (at_ (wordR 0x13 0 1 2 0 0 0))).tile 0).preds) =
    (true, false, 0) := by decide +kernel

/-- Offsets of ScalarStores and ScalarLoads: the last slot of the tile store is in it, the next one is not, and a misaligned one
faults (R263). -/
theorem test_scalar_offsets :
    ([(0x21, 2, 4), (0x23, 0, 8), (0x25, 0, 32), (0x20, 2, 4), (0x22, 0, 8), (0x24, 0, 32)].all fun q =>
      let w := wordR q.1 2 1 2 0 q.2.1 0
      canIssue (at_ w (BitVec.ofNat 32 (49152 - q.2.2))) 0 q.1 0 2000 && canIssue (at_ w 49152) 0 q.1 0 2000 && canIssue (at_ w 3) 0 q.1 0 2000 &&
        Memory.wf (at_ w).mem && decide ((49152 - q.2.2) % q.2.2 = 0)) = true := by decide +kernel

/-- R263: ST writes the low byte of sB little-endian at the tile store's offset, and a misaligned STA faults with TILE_ALIGN. -/
theorem test_store : Memory.byte (after (.st 0) (at_ (wordR 0x21 0 1 2 0 2 0))).mem (tileBase 0 + 8) = 5 ∧
    ((after (.sta 0) (at_ (wordR 0x23 0 1 1 0 0 0) 4)).tile 0).fault.cause = 6 := by decide +kernel

/-- A load that has its bytes returns 4 aclk after its issue (R263): sign-extended with F[2]. -/
def loading : State :=
  withTile { tileWith (wordR 0x0B 0 0 0 0 0 0) with
    loads := [{ kind := .ld, word := wordR 0x20 3 1 0 0 4 0, x := 8, y := 1, d := 0x80, issued := 1999 }] }

theorem test_load_return : (loading.tile 0).loads ≠ [] ∧ (loading.takeEnv {}).eccWords = [] ∧
    ((after (.scalarLoadReturn 0 {}) loading).tile 0).s 3 = 0xFFFFFF80 ∧ (after (.scalarLoadReturn 0 {}) loading).now = 2003 := by decide +kernel

/-- A load that read an uncorrectable word stops the tile with TILE_ECC (R230, R297). -/
def badLoad : State :=
  withTile { tileWith (wordR 0x0B 0 0 0 0 0 0) with
    loads := [{ kind := .ld, word := wordR 0x20 3 1 0 0 4 0, x := 8, y := 1, issued := 1999, unreadable := true }] }

theorem test_load_unreadable : (badLoad.tile 0).loads.length = 1 ∧ ((after (.scalarLoadReturn 0 {}) badLoad).tile 0).fault.cause = 7 := by decide +kernel

/-- Premises of GuardedOffDoesNothing: the guard is p1, which is 0. -/
theorem test_guarded_off :
    (guardedOpcodes.all fun q =>
      let w := (BitVec.ofNat 64 (q.2 * 2 ^ 56 + 2 ^ 52 + (if q.2 = 0x53 ∨ q.2 = 0x02 then 1 else 0)))
      let s := at_ w
      decide (opOf w = q.2) && legalWord w && !guardHolds (s.tile 0).preds w && !(s.tile 0).badBranch w && ((s.tile 0).after none).isSome &&
        (s.sheaf 0).arrivals.isEmpty) = true := by decide +kernel

/-- Premises of BranchesAndLoops: a branch within the program, one of offset 0 and one beyond its last instruction; loops of no and of
some passes whose body end is the last instruction, with no level and with four open, and bodies that end too late (R252, R253). -/
def loopsOpen (k : Nat) (stop : BitVec 11) (w : BitVec 64) : State :=
  withTile { tileWith w with loops := List.replicate k { remaining := 1, start := 0, stop := stop } }

/-- A BR of offset 0 whose guard p1 does not hold. -/
def offBranch : BitVec 64 := BitVec.ofNat 64 (2 * 2 ^ 56 + 2 ^ 52)

theorem test_branches_and_loops :
    ([wordR 0x02 0 0 0 0 0 3, wordR 0x02 0 0 0 0 0 0, wordR 0x02 0 0 0 0 0 4].all fun w => canIssue (at_ w) 0 0x02 0 2000 false) = true ∧
    ([(0, 2, 0), (0, 3, 0), (0, 2, 7), (4, 2, 7), (0, 3, 7), (1, 2, 7), (0, 4, 1)].all fun q =>
      canIssue (loopsOpen q.1 1 (BitVec.ofNat 64 (3 * 2 ^ 56 + q.2.1 * 2 ^ 36 + q.2.2))) 0 0x03 0 2000 false) = true ∧
    (loopsOpen 4 3 (BitVec.ofNat 64 (3 * 2 ^ 56 + 2 * 2 ^ 36 + 7))).now = 2000 ∧
    ((at_ offBranch).tile 0).fetch = offBranch ∧ opOf offBranch = 0x02 ∧ legalWord offBranch = true ∧ guardHolds ((at_ offBranch).tile 0).preds offBranch = false ∧
    bits offBranch 0 11 = 0 := by decide +kernel

/-- R251: a BR of offset 0 faults with its guard off too; R253: TRIP 0 with the body at the program's end faults with TILE_BRANCH. -/
theorem test_bad_branches :
    ((after (.br 0) (at_ offBranch)).tile 0).fault.cause = 4 ∧
    ((after (.loop 0) (loopsOpen 0 3 (BitVec.ofNat 64 (3 * 2 ^ 56 + 3 * 2 ^ 36)))).tile 0).fault.cause = 4 := by decide +kernel

/-- R253: a loop of 7 passes opens with 6 remaining; with TRIP 0 the body is jumped over; a fifth level faults with TILE_LOOP. -/
theorem test_loop :
    (((after (.loop 0) (loopsOpen 0 3 (BitVec.ofNat 64 (3 * 2 ^ 56 + 2 * 2 ^ 36 + 7)))).tile 0).loops, ((after (.loop 0) (loopsOpen 0 3 (BitVec.ofNat 64 (3 * 2 ^ 56 + 2 * 2 ^ 36)))).tile 0).pc,
      ((after (.loop 0) (loopsOpen 4 3 (BitVec.ofNat 64 (3 * 2 ^ 56 + 2 * 2 ^ 36 + 7)))).tile 0).fault.cause) =
    ([{ remaining := 6, start := 1, stop := 2 }], 3, 5) := by decide +kernel

/-- FENCE.M, WAITU, FFENCE, SWAIT and END stall while something is outstanding: premises of those clauses. -/
def busyTile (w : BitVec 64) : State :=
  withTile { tileWith w with moves := [{ kind := .movb }], fwa := [{ kind := .fmm }], hame := [{ kind := .hq }], chaff := [{ kind := .ciss }],
                             sower := [{ kind := .sdrop }], bwa := [{ kind := .bmm }] }

theorem test_stalls :
    ([(0x06, 0), (0x04, 0), (0x01, 0), (0x32, 0), (0x60, 1), (0x60, 16)].all fun q => canIssue (busyTile (wordR q.1 0 0 0 0 0 q.2)) 0 q.1 0 2000) = true ∧
    after (.fenceM 0) (busyTile (wordR 0x06 0 0 0 0 0 0)) = busyTile (wordR 0x06 0 0 0 0 0 0) ∧
    after (.waitu 0) (busyTile (wordR 0x60 0 0 0 0 0 16)) = busyTile (wordR 0x60 0 0 0 0 0 16) := by decide +kernel

/-- R223: SWAIT makes the tile WAITING with its PC behind it. -/
theorem test_swait : (((after (.swait 0) (at_ (wordR 0x04 0 0 0 0 0 0))).tile 0).seqState, ((after (.swait 0) (at_ (wordR 0x04 0 0 0 0 0 0))).tile 0).pc) =
    (.waiting, 1) := by decide +kernel

/-- Premises of FaultStopsTile and ReservedWordsAndWatchdog: a running tile at a word of zeros, and one at a CKCLR with K = 0 in a
phase that forbids it. -/
theorem test_reserved_word : legalWord ((at_ 0).tile 0).fetch = false ∧ reservedWord ((at_ 0).tile 0).preds ((at_ 0).tile 0).fetch = true ∧
    (let s := at_ (wordR 0x53 0 0 0 0 0 0) 8 0 0 0 3
     reservedWord (s.tile 0).preds (s.tile 0).fetch = true ∧ phaseForbids (s.tilePhase 0) (s.tile 0).fetch = true ∧
       ((after (.reservedOpcode 0) s).tile 0).fault.cause = 3) ∧ ((at_ 0).tile 0).seqState = .running ∧
    2000 ≤ (at_ 0).stride * strideLen + 1999 + ((at_ 0).tile 0).budget ∧
    ((after (.reservedOpcode 0) (at_ 0)).tile 0).fault = { position := 2000, cause := 1 } ∧
    ((after (.tileBudget 0 []) (at_ (wordR 0x0B 0 0 0 0 0 0))).tile 0).fault.cause = 2 := by decide +kernel

/-- Tiles 0 and 1 at a barrier, whose masks name both. -/
def atBarrier (other : SeqState) : State :=
  let w := wordR 0x05 0 1 3 0 0 0
  { withTile { regs 3 0 0 0 (tileWith w) with seqState := .barrier } with
    tiles := [(0, { regs 3 0 0 0 (tileWith w) with seqState := .barrier }), (1, { regs 3 0 0 0 (tileWith w) with seqState := other })],
    sheaves := [(0, { active := true, arrivals := { pos := 0, barrier := 0, mask := 3, time := 1990 } ::
      (if other = .barrier then [{ pos := 1, barrier := 0, mask := 3, time := 1995 }] else []) })] }

/-- Premises of Barriers: an arrival whose mask holds its own position, one whose mask does not, a complete barrier, and one with a
participant that is FAULTED. -/
theorem test_barrier_premises :
    canIssue (at_ (wordR 0x05 0 1 3 0 0 0) 1) 0 0x05 0 2000 = true ∧ canIssue (at_ (wordR 0x05 0 1 3 0 0 0) 2) 0 0x05 0 2000 = true ∧
    barrierMask ((atBarrier .barrier).sheaf 0).arrivals 0 = some 3 ∧ Tbl.sorted (atBarrier .barrier).sheaves = true ∧
    (((atBarrier .barrier).tile 1).after none).isSome = true ∧ ((atBarrier .faulted).sheaf 0).arrivals.length = 1 ∧
    (atBarrier .faulted).now < (atBarrier .faulted).deadline 0 := by decide +kernel

/-- R236, R255: both go on 8 aclk after the last arrival; the tile whose participant has faulted faults with BAR_PEER (R237). -/
theorem test_barrier :
    (((after (.barrierComplete 0 0) (atBarrier .barrier)).tile 1).seqState, (after (.barrierComplete 0 0) (atBarrier .barrier)).now,
      (((atBarrier .faulted).settlePeers 0).tile 0).fault.cause) = (.running, 2003, 8) := by decide +kernel

/-! ### Moves and atomics -/

/-- A descriptor (R226): base, format, entry, scale base, extents, stride, flags in [55:52]. -/
def desc (base fmt entry scale ext0 ext1 stride flags : Nat) : BitVec 256 :=
  BitVec.ofNat 256 (base + fmt * 2 ^ 48 + flags * 2 ^ 52 + entry * 2 ^ 56 + scale * 2 ^ 64 + ext0 * 2 ^ 128 + ext1 * 2 ^ 149 + stride * 2 ^ 192)

/-- Tile 0's store. -/
def store0 : Nat := 0x100000000000

/-- A BF16 tensor without an entry. -/
def bf (off ext0 ext1 : Nat) : BitVec 256 := desc (store0 + off) 0 0 0 ext0 ext1 ((2 * ext0 + 31) / 32) 1

/-- MOVB of s1 bytes from a2 to a1. -/
def movbAt (len : BitVec 32) (dst : BitVec 48) : State := at_ (wordR 0x28 1 2 1 0 0 0) len dst

/-- MOVT from t2 to t1. -/
def movtAt (d a : BitVec 256) : State := at_ (wordR 0x29 1 2 0 0 0 0) 64 0 d a

/-- ATOM at a1 with s1. -/
def atomAt (a : BitVec 48) (f : Nat) : State := at_ (wordR 0x2C 3 1 1 0 f 0) 7 a

/-- The same with Silage banks, in sheaf 0. -/
def silaged (raw : Nat) (s : State) : State := { s with regs := Tbl.put 0 s.regs (Reg.offset (.silageCtl 0)) (BitVec.ofNat 64 (1 + 16 * raw)) }

/-- Premises of MovesAndAtomicsBegin for moves. -/
theorem test_moves_begin_premises :
    ([movbAt 64 0x100000000000, movbAt 0 0x100000000000, movbAt 64 0x100000000001, movbAt 64 0x200000000120].all fun s => canIssue s 0 0x28 0 2000) = true ∧
    ([movtAt (bf 0 16 2) (bf 256 16 2), movtAt (bf 0 16 0) (bf 256 16 0)].all fun s => canIssue s 0 0x29 0 2000 &&
      (s.movtFault 0 (s.tile 0).fetch ((s.tile 0).t 1) ((s.tile 0).t 2)).isNone) = true ∧
    ((after (.movb 0) (movbAt 64 0x100000000000)).tile 0).moves.length = 1 ∧ ((after (.movb 0) (movbAt 0 0x100000000000)).tile 0).moves = [] ∧
    ((after (.movb 0) (movbAt 64 0x200000000120)).tile 0).fault.cause = 0x0A ∧ ((after (.movt 0) (movtAt (bf 0 16 2) (bf 256 16 2))).tile 0).moves.length = 1 := by decide +kernel

/-- Premises of MovesAndAtomicsBegin for atomics: an owned bank, a misaligned address, the three kinds of Silage address and the other
places. -/
theorem test_atomics_begin_premises :
    ([atomAt 0x200000000004 0, atomAt 0x200000000002 1, atomAt 0x200000000002 0, atomAt 0x100000000000 0, atomAt 0 0, atomAt 0x300000000000 0,
      atomAt 0x800000000000 0, atomAt 0x7FFFFFFFFFFC 0, atomAt 0x200000400000 0].all fun s => canIssue s 0 0x2C 0 2000) = true ∧
    ((silaged 0 (atomAt 0 0)).place 0x2000001E0000, (silaged 1 (atomAt 0 0)).place 0x200000200000, (silaged 0 (atomAt 0 0)).place 0x200000200040) =
      (.silageRefused 0, .silageRaw 0 0x1E0000, .silageGroup 0 1 0) ∧
    ((atomAt 0 0).place 0x200000400000, (atomAt 0 0).sramOwner 1, (atomAt 0 0).sramOwner 0, (atomAt 0 0).place 0x7FFFFFFFFFFC) =
      (.bank 1 0, none, some 0, .none) := by decide +kernel

/-- R269: an atomic outside the sheaf banks faults with MOV_ADDR, one in Silage with SLG_ACCESS; R268: one in an owned bank is begun. -/
theorem test_atom : ((after (.atom 0) (atomAt 0x100000000000 0)).tile 0).fault.cause = 0x0A ∧
    ((after (.atom 0) (silaged 0 (atomAt 0x2000001E0000 0))).tile 0).fault.cause = 0x58 ∧
    ((after (.atom 0) (atomAt 0x200000000004 4)).tile 0).atomics.length = 1 := by decide +kernel

/-- Sixteen operations outstanding: premises of the stalls of R250. -/
theorem test_moves_stall :
    ([(0x28, 0), (0x29, 0), (0x2C, 0)].all fun q =>
      let t := { tileWith (wordR q.1 1 2 1 0 0 0) with moves := List.replicate 15 { kind := .movb }, atomics := [{ kind := .atom, word := wordR 0x2C 0 0 0 0 0 0 }] }
      canIssue (withTile t) 0 q.1 0 2000) = true := by decide +kernel

/-- A MOVB of 32 bytes from the sheaf bank to the tile store and an ADD.I32 with RET under way. -/
def moving : State :=
  { withTile { tileWith 0 with moves := [{ kind := .movb, d := 0x100000000020, a := 0x200000000000, y := 32 }],
                               atomics := [{ kind := .atom, word := wordR 0x2C 3 1 1 0 4 0, a := 0x200000000000, y := 3 }] } with
    mem := Memory.setBytes [] 0x200000000000 [0xFF, 0xFF, 0xFF, 0xFF, 7] }

/-- A MOVT under way behind another with the same ends. -/
def movingTensor (ahead : Bool) : State :=
  let o : UnitOp := { kind := .movt, d := bf 0 16 2, a := bf 256 16 2 }
  withTile { tileWith 0 with moves := if ahead then [o, { o with issued := 1 }] else [o] }

/-- Premises of MovesAndAtomicsPerform. -/
theorem test_moves_perform_premises :
    Memory.wf moving.mem = true ∧ moving.eccWords = [] ∧ moving.eccUnits = [] ∧ moving.place 0x200000000000 = .bank 0 0 ∧
    moving.sramOwner 0 = some (moving.tilePaddock 0) ∧ moving.reach 0 0x10000000003F true false = .ok ∧
    (movingTensor true).mustWait 0 { kind := .movt, d := bf 0 16 2, a := bf 256 16 2, issued := 1 } = true ∧ moving.mustWait 0 { kind := .movb } = false ∧
    after (.moveComplete 0 1 {}) (movingTensor true) = movingTensor true ∧
    ((after (.moveComplete 0 0 {}) (movingTensor false)).tile 0).moves = [] := by decide +kernel

/-- R265: the bytes arrive; R268: ADD.I32 wraps, and RET gives the old value. -/
theorem test_move_and_atomic : Memory.bytes (after (.moveComplete 0 0 {}) moving).mem 0x100000000020 5 = [0xFF, 0xFF, 0xFF, 0xFF, 7] ∧
    Memory.bytes (after (.atomicPerform 0 {}) moving).mem 0x200000000000 5 = [2, 0, 0, 0, 7] ∧
    ((after (.atomicPerform 0 {}) moving).tile 0).s 3 = 0xFFFFFFFF := by decide +kernel

/-- A MOVB of 32 bytes from the sheaf bank to host memory under way, with the host link up or down. -/
def movingToHost (up : Bool) : State :=
  { withTile { tileWith 0 with moves := [{ kind := .movb, d := 0x800000000000, a := 0x200000000000, y := 32 }] } with
    host := { up := up }, mem := moving.mem }

/-- R473: it faults with MOV_ADDR while the link is down, and writes nothing. -/
theorem test_move_host :
    (let t := after (.moveComplete 0 0 {}) (movingToHost false); ((t.tile 0).fault.cause, Memory.byte t.mem 0x800000000000)) = (0x0A, 0) ∧
    Memory.byte (after (.moveComplete 0 0 {}) (movingToHost true)).mem 0x800000000000 = 0xFF ∧
    (movingToHost false).mustWait 0 { kind := .movb, d := 0x800000000000, a := 0x200000000000, y := 32 } = false := by decide +kernel

/-- An atomic behind another of its tile at one word, and one that comes after the same word changed for a tile of a higher number. -/
def atomicsBehind (late : Bool) : State :=
  let o : UnitOp := { kind := .atom, word := wordR 0x2C 3 1 1 0 4 0, a := 0x200000000000, y := 3 }
  let t : Tile := { tileWith 0 with atomics := if late then [o] else [o, { o with issued := 1 }] }
  { withTile t with atomicsDone := if late then [{ at_ := 2000, addr := 0x200000000000, tile := 7 }] else [] }

/-- R24, R270: both wait. -/
theorem test_atomics_wait : after (.atomicPerform 0 { arrival := 1 }) (atomicsBehind false) = atomicsBehind false ∧
    after (.atomicPerform 0 {}) (atomicsBehind true) = atomicsBehind true ∧
    ((after (.atomicPerform 0 {}) (atomicsBehind false)).tile 0).atomics.length = 1 := by decide +kernel

/-! ### The arrays -/

/-- An entry of kind `k` (1 FWD with SCAP 0x40 and rungs 0 to 1, 2 KEPT, 3 GRAD), open, at rung `r`. -/
def entryOf (k : Nat) (r : BitVec 2 := 0) : MtgEntry := { ctl := BitVec.ofNat 64 (k * 2 ^ 18 + 2 ^ 24 + 0x40 * 2 ^ 40), isOpen := true, rung := r }

/-- The state with entries 1 and 2 FWD, 3 GRAD and 4 KEPT in sheaf 0. -/
def withEntries (s : State) : State :=
  { s with sheaves := [(0, { active := true, entries := [(1, entryOf 1), (2, entryOf 1), (3, entryOf 3), (4, entryOf 2)] })] }

/-- OAT4 operands of 32 by 1 under entries 1 and 2, expanded. -/
def oatA : BitVec 256 := desc store0 1 1 (store0 + 0x100) 32 1 1 3
def oatB : BitVec 256 := desc (store0 + 0x200) 1 2 (store0 + 0x300) 32 1 1 3

/-- FMM of t1 and t2, or BMM, into bank 0 in a phase, with hand-off field `h`. -/
def productAt (op h : Nat) (d e : BitVec 256) (ph : BitVec 64) : State := withEntries (at_ (wordR op 0 1 2 0 0 h) 0 0 d e ph)

/-- The same with bank 0 of both arrays in a state of R140, or with an operation under way. -/
def banked (st : Nat) (ops : List UnitOp) (s : State) : State :=
  let b : Bank := { tag := BitVec.ofNat 64 (st * 2 ^ 62), extM := 1, extN := 1, products := 1, elems := [(0, 0x3F800000)] }
  s.setTile 0 { s.tile 0 with fwaBanks := [(0, b)], bwaBanks := [(0, b)], fwa := ops.filter fun o => o.kind = .fmm || o.kind = .fdr,
                              bwa := ops.filter fun o => o.kind = .bmm || o.kind = .bdr || o.kind = .watchProduct, hame := ops.filter fun o => o.kind = .hq }

/-- Whether FMM or BMM passes the checks its clauses name, with the state of its bank. -/
def productOk (op : Nat) (s : State) : Bool :=
  let t := s.tile 0
  canIssue s 0 op 0 2000 && !t.handEmpty t.fetch &&
    (if op = 0x30 then (s.fmmFault 0 t.fetch (t.t 1) (t.t 2)).isNone else (s.bmmFault 0 t.fetch (t.t 1) (t.t 2)).isNone)

/-- Premises of ArrayProductsIssue: each phase that accepts, a bank EMPTY and one DRAINING, a zero extent. -/
theorem test_products_issue_premises :
    ([1, 2, 3].all fun ph => productOk 0x30 (productAt 0x30 0 oatA oatB ph) && productOk 0x30 (banked 2 [] (productAt 0x30 0 oatA oatB ph)) &&
      productOk 0x30 (productAt 0x30 0 oatA (desc store0 1 2 (store0 + 0x100) 32 0 1 3) ph)) = true ∧
    (productOk 0x38 (productAt 0x38 0 (bf 0 8 1) (bf 64 8 1) 3) && productOk 0x38 (banked 2 [] (productAt 0x38 0 (bf 0 8 1) (bf 64 8 1) 3)) &&
      productOk 0x38 (productAt 0x38 0 (bf 0 8 1) (bf 64 8 0) 3)) = true := by decide +kernel

/-- Premises of the faults and stalls of ArrayProductsIssue: a phase that does not accept, a failed check, a FREE slot, a product that
waits. -/
theorem test_products_fault_premises :
    ([productAt 0x30 0 oatA oatB 0, productAt 0x30 0 0 oatB 1, productAt 0x30 0x1000 oatA oatB 1, banked 0 [{ kind := .fmm }] (productAt 0x30 0 oatA oatB 1)].all
      fun s => canIssue s 0 0x30 0 2000) = true ∧
    ([productAt 0x38 0 (bf 0 8 1) (bf 64 8 1) 2, productAt 0x38 0 0 (bf 64 8 1) 3, productAt 0x38 0x1000 (bf 0 8 1) (bf 64 8 1) 3,
      banked 0 [{ kind := .bmm }] (productAt 0x38 0 (bf 0 8 1) (bf 64 8 1) 3)].all fun s => canIssue s 0 0x38 0 2000) = true ∧
    (((after (.fmm 0) (productAt 0x30 0 oatA oatB 0)).tile 0).fault.cause, ((after (.fmm 0) (productAt 0x30 0 0 oatB 1)).tile 0).fault.cause,
      ((after (.bmm 0) (productAt 0x38 0x1000 (bf 0 8 1) (bf 64 8 1) 3)).tile 0).fault.cause) = (3, 0x10, 0x36) := by decide +kernel

/-- A product accepted: R140, the bank is ACTIVE. -/
theorem test_fmm : (((after (.fmm 0) (productAt 0x30 0 oatA oatB 1)).tile 0).fwa.length, bits (((after (.fmm 0) (productAt 0x30 0 oatA oatB 1)).tile 0).fwaBank 0).tag 62 2) =
    (1, 1) := by decide +kernel

/-- Products that wait for their start, and that have started at 1,990. -/
def product (k : OpKind) (st : Option Nat) (waits : Bool) (a b : BitVec 256) : UnitOp :=
  { kind := k, word := wordR 0x30 0 1 2 0 0 0, a := a, b := b, issued := 1980, started := st, waits := waits }

/-- Premises of ArrayProductsRun, for FWA and BWA, with a zero extent and without. -/
theorem test_products_run_premises :
    ([(OpKind.fmm, oatA, oatB), (OpKind.fmm, oatA, desc store0 1 2 0 32 0 1 3), (OpKind.bmm, bf 0 8 1, bf 64 8 1), (OpKind.bmm, bf 0 8 1, bf 64 8 0)].all fun q =>
      [false, true].all fun waits =>
        let s := banked 1 [product q.1 none waits q.2.1 q.2.2] (productAt 0x30 0 0 0 3)
        let t := s.tile 0
        decide (t.fwa.length + t.bwa.length = 1) && (t.fwa ++ t.bwa).all t.mayStart && s.isRunning && s.eccWords.isEmpty && s.eccUnits.isEmpty &&
          decide (bits (t.fwaBank 0).tag 62 2 ≠ 2)) = true := by decide +kernel

/-- R138: a product of K = 32 started at 1,990 holds the input for 32 aclk and completes at 2,034; 1.0 is in element 0 of its bank
before, and stays with operands of zeros. -/
theorem test_product_runs :
    let s := banked 1 [product .fmm none false oatA oatB] (productAt 0x30 0 0 0 1)
    let u := banked 1 [product .fmm (some 1990) false oatA oatB] (productAt 0x30 0 0 0 1)
    (((after (.fwaProductStart 0 {}) s).tile 0).fwaFree, (after (.fwaProductComplete 0) u).now, Tbl.get 0 (((after (.fwaProductComplete 0) u).tile 0).fwaBank 0).elems 0,
      ((after (.fwaProductComplete 0) u).tile 0).fwaBusy) = (2012, 2034, 0x3F800000, 32) := by decide +kernel

/-- R159: a backward product of K = 8 holds the input for 11 aclk. -/
theorem test_bwa_product_runs :
    let s := banked 1 [product .bmm (some 1990) false (bf 0 8 1) (bf 64 8 1)] (productAt 0x30 0 0 0 3)
    ((after (.bwaProductComplete 0) s).now, ((after (.bwaProductComplete 0) s).tile 0).bwaBusy) = (2017, 11) := by decide +kernel

/-- FDR of bank 0 into t1 (bit 2: into the Hame), and BDR of bank 0 into t1 at row s3, column s3. -/
def drainAt (op imm : Nat) (d : BitVec 256) (ph : BitVec 64) (st : Nat := 1) (ops : List UnitOp := []) : State :=
  banked st ops (withEntries (at_ (wordR op 1 0 3 3 0 imm) 0 0 d 0 ph))

/-- A gradient tensor under entry 3 and without an entry. -/
def gradD : BitVec 256 := desc store0 0 3 0 8 2 1 3

/-- Premises of DrainsIssue: every phase that accepts, one that does not, a failed check, a drain that waits. -/
theorem test_drains_issue_premises :
    ([1, 2, 3].all fun ph => canIssue (drainAt 0x31 0 (bf 0 8 2) ph) 0 0x31 0 2000 &&
      ((drainAt 0x31 0 (bf 0 8 2) ph).fdrFault 0 (wordR 0x31 1 0 3 3 0 0) (bf 0 8 2)).isNone) = true ∧
    canIssue (drainAt 0x39 0 gradD 3) 0 0x39 0 2000 = true ∧ (drainAt 0x39 0 gradD 3).bdrFault 0 (wordR 0x39 1 0 3 3 0 0) gradD 0 0 = none ∧
    ([drainAt 0x31 0 (bf 0 8 2) 0, drainAt 0x31 0 0 1, drainAt 0x31 0 (bf 0 8 2) 1 1 [{ kind := .fdr }]].all fun s => canIssue s 0 0x31 0 2000) = true ∧
    ([drainAt 0x39 0 gradD 2, drainAt 0x39 0 gradD 3 0, drainAt 0x39 0 gradD 3 1 [{ kind := .bdr }]].all fun s => canIssue s 0 0x39 0 2000) = true := by decide +kernel

/-- R140, R278: the bank is DRAINING; R171: an EMPTY bank faults with BWA_DRAIN_EMPTY. -/
theorem test_drain_issue : bits (((after (.fdr 0) (drainAt 0x31 0 (bf 0 8 2) 1)).tile 0).fwaBank 0).tag 62 2 = 2 ∧
    ((after (.bdr 0) (drainAt 0x39 0 gradD 3 0)).tile 0).fault.cause = 0x34 := by decide +kernel

/-- A drain under way: issued at 1,980, or started at 1,990. -/
def drain (k : OpKind) (st : Option Nat) (imm : Nat) (d : BitVec 256) : UnitOp :=
  { kind := k, word := wordR 0x31 1 0 3 3 0 imm, d := d, x := if imm = 4 then 1 else 0, issued := 1980, started := st }

/-- A drain into the Hame that the Hame has started at 1,991. -/
def toHame : State :=
  let s := drainAt 0x31 4 oatA 1 2 [drain .fdr (some 1990) 4 oatA]
  s.setTile 0 { s.tile 0 with hame := [{ drain .fdr (some 1991) 4 oatA with issued := 1990 }] }

/-- Premises of DrainsIssue's second part and of ForwardDrains. -/
theorem test_drains_run_premises :
    ([drainAt 0x31 0 0 1 2 [drain .fdr none 0 (bf 0 8 2)], drainAt 0x31 4 0 1 2 [drain .fdr none 4 oatA]].all fun s =>
      (s.tile 0).fwa.all fun o => (s.tile 0).mayStart o && o.started.isNone) = true ∧
    ((drainAt 0x31 0 0 1 2 [drain .fdr (some 1990) 0 (bf 0 8 2)]).tile 0).openRepeats 0 = false ∧
    (let t := (drainAt 0x31 0 0 1 2 [drain .fdr (some 1990) 0 (bf 0 8 2)]).tile 0; t.repeated 0 = false ∧ (t.bwaBank 0).tag.getLsbD 59 = false) ∧
    (toHame.tile 0).hame.length = 1 ∧ Tbl.sorted (toHame.tile 0).fwaBanks = true := by decide +kernel

/-- R145, R278: 1.0 is drained as 0x3F80 24 aclk after the start; R167: a GRAD drain of one element takes 9 aclk and rounds 1.0 to itself. -/
theorem test_drain_runs :
    let s := drainAt 0x31 0 0 1 2 [drain .fdr (some 1990) 0 (bf 0 8 2)]
    let g := drainAt 0x39 0 0 3 2 [drain .bdr (some 1995) 0 gradD]
    (Memory.bytes (after (.fwaDrainComplete 0) s).mem store0 2, (after (.fwaDrainComplete 0) s).now) = ([0x80, 0x3F], 2014) ∧
    (Memory.bytes (after (.bwaDrainComplete 0) g).mem store0 2, (after (.bwaDrainComplete 0) g).now) = ([0x80, 0x3F], 2004) := by decide +kernel

/-! ### Conversions -/

/-- HQ, HX, HW or HT from t2 into t1. -/
def convAt (op h : Nat) (d a : BitVec 256) (ops : List UnitOp := []) : State :=
  let s := withEntries (at_ (wordR op 1 2 0 0 0 h) 0 0 d a 1)
  s.setTile 0 { s.tile 0 with hame := ops }

/-- BF16 32 by 1 and 32 by 32. -/
def bf1 : BitVec 256 := bf 0x1000 32 1
def bf32 : BitVec 256 := bf 0x1000 32 32

/-- The four conversions with operands that pass every check. -/
def conversions : List (Nat × BitVec 256 × BitVec 256) :=
  [(0x40, oatA, bf1), (0x41, oatA, desc (store0 + 0x400) 1 1 (store0 + 0x500) 32 1 1 3), (0x42, bf1, oatA), (0x43, bf 0x2000 32 32, bf32)]

/-- Premises of ConversionsIssue: the checks pass, one fails, a FREE slot is consumed, four are incomplete. -/
theorem test_conversions_issue_premises :
    (conversions.all fun q => canIssue (convAt q.1 0 q.2.1 q.2.2) 0 q.1 0 2000 && canIssue (convAt q.1 0 0 0) 0 q.1 0 2000 &&
      canIssue (convAt q.1 0x1000 q.2.1 q.2.2) 0 q.1 0 2000 && canIssue (convAt q.1 0 q.2.1 q.2.2 (List.replicate 4 { kind := .hq })) 0 q.1 0 2000) = true ∧
    (conversions.map fun q =>
      let s := convAt q.1 0 q.2.1 q.2.2
      match q.1 with
      | 0x40 => s.hqFault 0 q.2.1 q.2.2
      | 0x41 => s.hxFault 0 q.2.1 q.2.2
      | 0x42 => s.hwFault 0 q.2.1 q.2.2
      | _ => s.htFault 0 q.2.1 q.2.2) = [none, none, none, none] := by decide +kernel

/-- A conversion that waits, and one that started at 1,990; the source holds 1.0 in its first element. -/
def converting (k : OpKind) (op : Nat) (d a : BitVec 256) (x : BitVec 32) (st : Option Nat) : State :=
  let s := convAt op 0 d a [{ kind := k, word := wordR op 1 2 0 0 0 0, d := d, a := a, x := x, issued := 1985, started := st }]
  { s with mem := Memory.setBytes [] (store0 + 0x1000) [0x80, 0x3F] }

/-- Premises of ConversionsRun, with an extent and with none. -/
theorem test_conversions_run_premises :
    ([converting .hq 0x40 oatA bf1 1 none, converting .hq 0x40 oatA bf1 1 (some 1990), converting .hq 0x40 oatA (bf 0x1000 32 0) 1 (some 1990)].all fun s =>
      s.isRunning && s.eccWords.isEmpty && decide ((s.tile 0).seqState ≠ .idle) && (s.tile 0).hame.all (s.tile 0).mayStart) = true := by decide +kernel

/-- R283: 24 aclk and one request step; R104: 1.0 under T = 0 becomes an E2M1 code under its block's scale; HT moves the element. -/
theorem test_conversion_runs :
    (after (.conversionComplete 0 {}) (converting .hq 0x40 oatA bf1 1 (some 1990))).now = 2015 ∧
    Memory.byte (after (.conversionComplete 0 {}) (converting .hq 0x40 oatA bf1 1 (some 1990))).mem store0 ≠ 0 := by decide +kernel

/-! ### The Martingale -/

/-- MOPEN, MCLOSE or MVERD of entry `e` where entry 1 is as given, in a phase. -/
def entryAt (op e : Nat) (x : MtgEntry) (ph : BitVec 64 := 1) (ops : List UnitOp := []) : State :=
  { banked 0 ops (at_ (wordR op 3 0 0 0 0 e) 0 0 0 0 ph) with sheaves := [(0, { active := true, entries := if x = {} then [] else [(1, x)] })] }

/-- A closed entry whose NEXT_T is 5, and one whose close is being evaluated. -/
def closedEntry (k : Nat) : MtgEntry := { entryOf k with isOpen := false, nextT := 5, sat := 9 }
def evaluatingEntry (k : Nat) (ph : Phase) : MtgEntry := { closedEntry k with evaluating := some (ph, 1990) }

/-- A conversion that feeds entry 1. -/
def feeding : UnitOp := { kind := .hq, d := oatA, a := bf1, issued := 1900 }

/-- Premises of MartingaleInstructions. -/
theorem test_martingale_premises :
    ([entryAt 0x48 1 (entryOf 1), entryAt 0x48 1 (closedEntry 1), entryAt 0x48 1 (closedEntry 3) 3, entryAt 0x48 1 {}, entryAt 0x48 1 (closedEntry 1) 1 [{ kind := .fmm }],
      entryAt 0x48 1 (evaluatingEntry 1 .gen)].all fun s => canIssue s 0 0x48 0 2000) = true ∧
    ([entryAt 0x49 1 (closedEntry 1), entryAt 0x49 1 (entryOf 1), entryAt 0x49 1 (entryOf 1) 1 [feeding]].all fun s => canIssue s 0 0x49 0 2000) = true ∧
    ([entryAt 0x4A 1 (closedEntry 1), entryAt 0x4A 1 (evaluatingEntry 1 .gen)].all fun s => canIssue s 0 0x4A 0 2000) = true ∧
    (entryOf 1).malformed = false ∧ ({ entryOf 1 with ctl := 0x40000 } : MtgEntry).malformed = true ∧ feeding.feeds 1 0 = false ∧ feeding.feeds 1 2000 = true := by
  decide +kernel

/-- R110: a closed entry opens with NEXT_T; R284: one of kind NONE faults with DESC_ENTRY; R285: MVERD reads NEXT_T. -/
theorem test_martingale :
    (((after (.mopen 0) (entryAt 0x48 1 (closedEntry 1))).entry 0 1).tExp, ((after (.mopen 0) (entryAt 0x48 1 {})).tile 0).fault.cause,
      ((after (.mverd 0) (entryAt 0x4A 1 (closedEntry 1))).tile 0).s 3) = (5, 0x14, 0x500) := by decide +kernel

/-- A PART entry whose window is closed in sheaf 0 and, in sheaf 1, closed or still open. -/
def parts (open_ : Bool) : State :=
  let x : MtgEntry := { evaluatingEntry 1 .gen with ctl := (entryOf 1).ctl ||| 0x100000, inPart := true }
  { entryAt 0x4A 1 {} with masks := [(0, 3)],
                           sheaves := [(0, { active := true, entries := [(1, x)] }), (1, { active := true, entries := [(1, { x with isOpen := open_ })] })] }

/-- Premises of MartingaleVerdicts: an entry that is not evaluated, one closed in IDLE, in GEN and as PART; overflow with and without a
permitted repeat, trouble with room for a replay and without, and neither. -/
theorem test_verdict_premises :
    (closedEntry 1).evaluating = none ∧ (evaluatingEntry 1 .idle).inPart = false ∧ ((parts false).partners 0 1).length = 2 ∧
    (((parts true).partners 0 1).any fun d => d.2.2.isOpen) = true ∧
    (let lim := (entryAt 0x4A 1 {}).field (.mtgThresh 0) 8 16
     ({ closedEntry 1 with ovfl := 1 } : MtgEntry).overflow lim = true ∧
       bit (closedEntry 1).ctl 21 = false) := by decide +kernel

/-- R115: overflow without a permitted repeat gives FLAG. -/
theorem test_verdict :
    ((after (.mtgCloseEvaluation 0 1) (entryAt 0x4A 1 { evaluatingEntry 1 .gen with ovfl := 1 })).entry 0 1).verdict.getLsbD 1 = true ∧
    ((after (.mtgCloseEvaluation 0 1) (entryAt 0x4A 1 { evaluatingEntry 1 .idle with ovfl := 1 })).entry 0 1).verdict = 0 := by decide +kernel

/-- A sampled product to be repeated, and a bank of repeats that is to be compared. -/
def watching : State :=
  banked 0 [{ kind := .watchProduct, word := wordR 0x30 0 1 2 0 0 0, srcA := bf 0 8 1, srcB := bf 64 8 1, issued := 1980 }] (productAt 0x30 0 0 0 1)

def comparing (open_ : Bool) : State :=
  let s := entryAt 0x4A 1 { entryOf 1 with isOpen := open_ }
  s.setTile 0 { s.tile 0 with bwaBanks := [(0, { tag := BitVec.ofNat 64 (2 ^ 62 + 2 ^ 59), extM := 1, extN := 1, products := 1, activation := 1,
                                                 watched := true, watch := [(0, 0x3F80)], elems := [(0, 0x3F800000)] })] }

/-- Premises of AgreementWatch. -/
theorem test_watch_premises :
    (watching.tile 0).nextRepeat.isSome = true ∧ watching.tilePhase 0 = .gen ∧ watching.eccWords = [] ∧ (entryAt 0x4A 1 {} 3).tilePhase 0 = .bwd ∧
    (List.range 4).find? ((comparing true).tile 0).comparable = some 0 ∧ (((comparing true).tile 0).bwaBank 0).products = 1 ∧
    ((comparing false).entry 0 1).isOpen = false := by decide +kernel

/-- R130: one sample, one element, no error. -/
theorem test_compare :
    (let x := (after (.agreementCompare 0) (comparing true)).entry 0 1; (x.samples, x.elems, x.exceed, x.maxrel)) = (1, 1, 0, 0) := by decide +kernel

/-! ### The Chaff engine and the Sower -/

/-- TEFF8 tensors of 32 by 1. -/
def teff (off : Nat) : BitVec 256 := desc (store0 + off) 3 0 (store0 + off + 0x40) 32 1 1 1

/-- A Chaff instruction with t1 = `d`, t2 = `teff 0x100`, s1 = `x`; tables 0 and 1 are built for E4M3 and UNI, record 0 is L_LOG 6. -/
def chaffAt (op imm : Nat) (ph : BitVec 64 := 1) (ops : List UnitOp := []) (d : BitVec 256 := teff 0) (x : BitVec 32 := 0x3F80) (bank : ChaffBank := {}) : State :=
  let s := at_ (wordR op 1 1 (if op = 0x51 then 2 else 1) 2 0 imm) x 0x100000000000 d (teff 0x100) ph
  let table : ChaffTable := { range := 0x3F80, built := true, entries := [(1, 0x8000)] }
  s.setTile 0 { s.tile 0 with tables := [(0, table), (1, table)], lengths := [(0, 0x666)], chaff := ops, chaffBanks := if bank = {} then [] else [(0, bank)] }

/-- CISS of bank 0 at record 0 with tables 0 and 1 and domains 1 and 2. -/
def cissImm : Nat := 2 * 2 ^ 17 + 1 * 2 ^ 13 + 1 * 2 ^ 8

/-- An ACTIVE result bank of one group, issued into once. -/
def oneGroup : ChaffBank :=
  { tag := pack 64 [(62, 2, 1), (54, 4, 6), (36, 10, 1), (0, 32, 3)], sums := [(0, 64)], rangeA := 0x3F80, rangeB := 0x3F80, extG := 1 }

/-- Premises of ChaffInstructions: each command with its checks passed, in a phase that accepts and in one that does not. -/
theorem test_chaff_premises :
    ([(0x50, 16), (0x50, 0), (0x51, cissImm), (0x53, 64), (0x53, 1), (0x54, 0), (0x55, 0)].all fun q => canIssue (chaffAt q.1 q.2) 0 q.1 0 2000) = true ∧
    canIssue (chaffAt 0x51 cissImm 1 [] (teff 0) 7 oneGroup) 0 0x51 0 2000 = true ∧ canIssue (chaffAt 0x52 0 1 [] (bf 0x800 8 1) 0 oneGroup) 0 0x52 0 2000 = true ∧
    canIssue (chaffAt 0x52 4 1 [] 0 0 oneGroup) 0 0x52 0 2000 = true ∧ canIssue (chaffAt 0x53 64 3) 0 0x53 0 2000 = true ∧ canIssue (chaffAt 0x54 0 0) 0 0x54 0 2000 = true ∧
    (chaffAt 0x51 cissImm).cissFault 0 ((chaffAt 0x51 cissImm).tile 0).fetch (teff 0) (teff 0x100) = none ∧
    (chaffAt 0x52 0 1 [] (bf 0x800 8 1) 0 oneGroup).cdrFault 0 (wordR 0x52 1 1 1 2 0 0) (bf 0x800 8 1) = none := by decide +kernel

/-- R199: a TOPK list read; R195: CLEN. -/
theorem test_chaff_lists :
    Memory.bytes (after (.ckrd 0) (chaffAt 0x54 0)).mem store0 8 = [0xFF, 0xFF, 0xFF, 0xFF, 0x80, 0xFF, 0, 0] ∧
    ((after (.ckclr 0) (chaffAt 0x53 64)).tile 0).topkK = 64 ∧ ((after (.clen 0) (chaffAt 0x55 3)).tile 0).record 3 = 0x3F80 := by decide +kernel

/-- A build, an issue that waits and one that streams, and drains under way. -/
def building : State := chaffAt 0x50 16 1 [{ kind := .ctab, word := wordR 0x50 0 0 1 0 0 16, x := 0x3F80, issued := 1990 }]
def streaming (st : Option Nat) : State :=
  chaffAt 0x51 cissImm 1 [{ kind := .ciss, word := wordR 0x51 1 1 2 2 0 cissImm, a := teff 0, b := teff 0x100, x := 6, z := 3, issued := 1990, started := st }] (teff 0) 0 oneGroup
def drainingChaff (imm : Nat) : State :=
  chaffAt 0x52 imm 1 [{ kind := .cdr, word := wordR 0x52 1 1 1 2 0 imm, d := bf 0x800 8 1, y := 5, issued := 1990 }] 0 0 oneGroup

/-- Premises of ChaffRuns. -/
theorem test_chaff_run_premises :
    ([building, streaming none, streaming (some 1995), drainingChaff 0, drainingChaff 4].all fun s =>
      s.isRunning && s.eccWords.isEmpty && s.eccUnits.isEmpty && decide ((s.tile 0).chaff.length = 1) && !bit ((s.tile 0).record 0) 15) = true := by decide +kernel

/-- R190: 12 aclk after its acceptance; R186: 64 aclk of bits and 8 after; R199: ceil(512 / 64) + 4 aclk. -/
theorem test_chaff_times :
    ((after (.tableBuildComplete 0 {}) building).now, (after (.chaffIssueComplete 0) (streaming (some 1995))).now, (after (.chaffDrainComplete 0) (drainingChaff 4)).now) =
      (2002, 2067, 2002) ∧
    ((after (.chaffDrainComplete 0) (drainingChaff 4)).tile 0).topk.length = 1 := by decide +kernel

/-- SDRAW of class `c`, and SDROP on t1. -/
def sowerAt (op imm : Nat) (x : BitVec 32 := 0) (ops : List UnitOp := []) : State :=
  let s := at_ (wordR op 3 1 2 4 0 imm) x 0 (bf 0 8 1)
  s.setTile 0 { s.tile 0 with sower := ops }

/-- Premises of SowerInstructions: the right class and a wrong one, a stream that is too large, operations under way. -/
theorem test_sower_premises :
    ([sowerAt 0x58 0x30, sowerAt 0x58 0x20, sowerAt 0x58 0x30 0x80000000].all fun s => canIssue s 0 0x58 0 2000) = true ∧
    canIssue (sowerAt 0x59 0x40) 0 0x59 0 2000 = true ∧
    (sowerAt 0x59 0x40).sdropFault 0 (wordR 0x59 3 1 2 4 0 0x40) (bf 0 8 1) 5 = none := by decide +kernel

/-- R214: SWR_CLASS before SWR_STREAM. -/
theorem test_sower_faults :
    (((after (.sdraw 0) (sowerAt 0x58 0x20 0x80000000)).tile 0).fault.cause, ((after (.sdraw 0) (sowerAt 0x58 0x30 0x80000000)).tile 0).fault.cause) = (0x0C, 0x0B) := by
  decide +kernel

/-- R217: the first vector, key 0 and counter 0, through an SDRAW issued at 1,990. -/
theorem test_sdraw_completes :
    (after (.sowerOperationComplete 0 {}) (sowerAt 0x58 0x30 0 [{ kind := .sdraw, word := wordR 0x58 3 1 2 4 0 0x30, issued := 1990 }])).now = 2003 := by decide +kernel

/-! ### Time, the tick and the command queues -/

/-- A part with a time source, in a time state, at a GTC. -/
def timed (src : BitVec 64) (st : TimeState) (at_ : BitVec 64 := 2000) : State :=
  { State.reset with regs := Tbl.put 0 [] (Reg.offset .timeCtl) src, time := { gtc := at_, state := st, actDue := false } }

/-- Premises of TimeAlignment and StrideTick: every source and state, LOAD_ARM with STR_GTC_LOAD = 0, no mark and a mark, both ticks. -/
theorem test_time_premises :
    ([timed 0 .locked, timed 1 .locked, timed 1 .holdover, timed 0x10001 .acquire, timed 1 .acquire, { timed 1 .acquire with time := { state := .acquire, mark := some 5 } }].all
      fun s => s.isRunning && !s.time.tickDue && s.pending.isEmpty) = true ∧
    (timed 0x10001 .acquire).field .timeCtl 0 2 = 1 ∧ (timed 0x10001 .acquire).field .timeCtl 16 1 = 1 ∧ Tbl.sorted (timed 0x10001 .acquire).regs = true ∧
    State.reset.time.actDue = true ∧ (timed 0 .locked).time.actDue = false ∧ ((timed 0 .locked).stride + 1) * 100000 < 2 ^ 64 := by decide +kernel

/-- R39: 100 ns is usable in LOCKED and 101 ns is not; R41: a mark at GTC 5 loads 100,000; R46: a correction leaves d − 4. -/
theorem test_edges :
    ((after (.strideSyncEdge (-100) true) (timed 1 .locked)).time.ignored, (after (.strideSyncEdge 101 true) (timed 1 .locked)).time.ignored,
      (after (.strideSyncEdge 7 true) { timed 1 .acquire with time := { state := .acquire, mark := some 5 } }).now,
      (after .gtcCorrection { timed 1 .locked with time := { gtc := 1900, residual := -7, actDue := false } }).time.residual) = (0, 1, 100000, -3) := by decide +kernel

/-- R35: the tick ends the stride at 100,000. -/
theorem test_tick : (after (.strideTick {} {}) State.reset).now = 100000 := by decide +kernel

/-- A Manger command (R387). -/
def cmd (op arg count : Nat) (arg2 arg3 done param : Nat := 0) : CmdRec :=
  { w0 := BitVec.ofNat 64 (op + 7 * 2 ^ 32), w1 := BitVec.ofNat 64 arg, w2 := BitVec.ofNat 64 arg2, w3 := BitVec.ofNat 64 count, w4 := BitVec.ofNat 64 done,
    w5 := BitVec.ofNat 64 param, w6 := BitVec.ofNat 64 arg3 }

/-- Position 1,500 of stride 1 with a command of paddock `p` in front and bytes in sheaf 0's bank, which paddock 0 owns. -/
def manger (c : CmdRec) (bs : List Byte := []) (p : Nat := 0) : State :=
  { State.reset with time := { gtc := 101500, actDue := false, fetchDue := false, windowDue := false }, masks := [(0, 1)], sheaves := [(0, { active := true })],
                     mem := Memory.setBytes [] 0x200000000000 bs,
                     host := { fetched := [{ queue := 0, slot := 3, rbase := 0x800000001000, paddock := p, stride := 1, cmd := c }] } }

/-- The command `op` is in front, its paddock accepts commands, and the operand it names can be read. -/
def inFront (s : State) (op : Nat) (operand : Nat := 0) : Bool :=
  s.isRunning && (match s.host.fetched with
    | c :: _ => decide (c.cmd.opcode = op) && decide (((acting s).composed.pdk c.paddock).state ≠ .releasing) &&
        (operand == 0 || ((acting s).readOperand c.paddock c.cmd.arg operand).2.isSome)
    | [] => false)

/-- RESULT and NOTE of the reply queued last. -/
def answerOf (s : State) : Option (BitVec 8 × BitVec 8) := s.host.replies.getLast?.map fun r => (r.result, r.note)

/-- A paddock that is RELEASING. -/
def releasing (s : State) (p : Nat) : State := { s with paddocks := [(p, { paddockReset p with state := .releasing })] }

/-- Premises of MangerRings: enabled queue 0 with two slots read, of which the second has the other PHASE; replies due and late. -/
def ringed : State :=
  { State.reset with
    time := { gtc := 200300, actDue := false }, regs := Tbl.put 0 [] (Reg.offset (.qCtl 0)) (BitVec.ofNat 64 (1 + 4 * 2 ^ 8 + 8 * 2 ^ 32)),
    host := { slotsRead := [(0, [{ w0 := 0x101 }, { w0 := 0x001 }])],
              replies := [{ id := 0, queue := 0, slot := 0, rbase := 0x800000001000, paddock := 0, stride := 0, w0 := 0x700000101, actStride := 1 }] } }

theorem test_rings_premises :
    ringed.isRunning = true ∧ ringed.time.readDue = true ∧ ringed.time.fetchDue = true ∧ ringed.host.up = true ∧ ringed.field (.qCtl 0) 0 1 = 1 ∧
    ringed.field (.qCtl 0) 32 9 = 8 ∧ ringed.queueSize 0 = 16 ∧ Tbl.sorted ringed.host.heads = true ∧ (ringed.queue 0).phase = true ∧
    ringed.host.replies.any ringed.replyDue = true ∧ ringed.host.replies.any ringed.replyLate = true ∧ ringed.unitsAct.host.up = true := by decide +kernel

/-- R385: one command is fetched, as the second slot's PHASE differs; R58: a late reply is reported once. -/
theorem test_rings :
    ((after (.mangerFetch []) ringed).host.fetched.length, ((after (.mangerFetch []) ringed).queue 0).head, ((after (.mangerFetch [0]) ringed).queue 0).lateReads,
      (after .replyBoundExpiry ringed).gleaner.arriving.length, (after (.replyWrite true) ringed).host.replies) = (1, 1, 1, 1, []) := by decide +kernel

/-- Premises of CommandAdmission: a RELEASING paddock, an operator's command of paddock 1, COUNT 0 and COUNT 2 where 1 is meant. -/
theorem test_admission_premises :
    ((acting (releasing (manger (cmd 2 0 1)) 0)).composed.pdk 0).state = .releasing ∧
    inFront (manger (cmd 0x42 0 1) [] 1) 0x42 = true ∧ inFront (manger (cmd 0x02 0 0)) 2 = true ∧ inFront (manger (cmd 0x42 0 2)) 0x42 = true ∧
    inFront (manger (cmd 1 0 0)) 1 = true ∧ inFront (manger (cmd 6 0 0)) 6 = true := by decide +kernel

/-- R389, R390: the four answers. -/
theorem test_admission :
    (answerOf (after (.config {}) (releasing (manger (cmd 2 0 1)) 0)), answerOf (after .keyRotate (manger (cmd 0x42 0 1) [] 1)),
      answerOf (after (.config {}) (manger (cmd 2 0 0))), answerOf (after .keyRotate (manger (cmd 0x42 0 2))), answerOf (after .reservedCommand (manger (cmd 6 0 0)))) =
    (some (1, 0x14), some (1, 0x14), some (0, 1), some (3, 0x20), some (3, 0x20)) := by decide +kernel

/-- Pairs: PDK_SOWER_SEED_0 := 0x186A0, and one that names no register. -/
def pairs : List Byte := leBytes 8 (Reg.offset (.sowerSeed 0)) ++ leBytes 8 0x186A0 ++ leBytes 8 4 ++ leBytes 8 0

/-- Premises of ConfigWrites: one good pair with arm bits 0 and 16 and with arm bit 1, a bad second pair, a list that cannot be read,
257 pairs. -/
theorem test_config_premises :
    inFront (manger (cmd 2 0x200000000000 1 0 0 0 2) pairs) 2 16 = true ∧ inFront (manger (cmd 2 0x200000400000 1) pairs) 2 = true ∧
    ((acting (manger (cmd 2 0x200000400000 1) pairs)).readOperand 0 0x200000400000 16).2 = none ∧
    inFront (manger (cmd 2 0x200000000000 1 0 0 0 0x10001) pairs) 2 16 = true ∧ inFront (manger (cmd 2 0x200000000000 2) pairs) 2 32 = true ∧
    inFront (manger (cmd 2 0x200000000000 257)) 2 = true ∧ (manger (cmd 2 0 0)).configTarget 0 (Reg.offset (.sowerSeed 0)) = some (.sowerSeed 0) ∧
    (manger (cmd 2 0 0)).configTarget 0 (Reg.offset .gtcLoad) = none ∧
    (manger (cmd 2 0 0)).configTarget 0 4 = none := by decide +kernel

/-- R391: the shadow is written and GLOBAL and paddock 0 are armed; the bad pair refuses the whole command. -/
theorem test_config :
    (let u := after (.config {}) (manger (cmd 2 0x200000000000 1 0 0 0 0x10001) pairs); (u.shadow (.sowerSeed 0), u.reg .commit, answerOf u)) = (0x186A0, 0x10001, some (0, 0)) ∧
    (let u := after (.config {}) (manger (cmd 2 0x200000000000 2) pairs); (u.shadow (.sowerSeed 0), answerOf u)) = (0, some (1, 0x14)) ∧
    ([manger (cmd 2 0x200000000000 1 0 0 0 2) pairs, manger (cmd 2 0x200000400000 1) pairs].map fun s => answerOf (after (.config {}) s)) =
      [some (1, 0x14), some (2, 0x21)] := by decide +kernel

/-- A COPY of 64 bytes from the sheaf bank to host memory, and a seal of one unit. -/
def copyCmd : CmdRec := cmd 3 0x200000000000 64 0x800000002000 0 0x800000003000
def sealCmd (op : Nat) : CmdRec := cmd op 0x200000000000 1 0x800000002000 0x800000004000 0x800000003000

/-- A part whose paddock 0 has a sealing key. -/
def keyed (s : State) : State := { s with paddocks := [(0, { paddockReset 0 with sealingKey := some 9 })] }

/-- Premises of CopiesAdmitted. -/
theorem test_copies_premises :
    ([manger copyCmd, manger (cmd 3 0x200000000000 63 0x800000002000), manger (cmd 3 0x200000000000 64 0x200000002000), manger (cmd 3 0x200000400000 64 0x800000002000) [] 1].all
      fun s => inFront s 3) = true ∧
    (acting (manger copyCmd)).foreignSpan 0 0x200000000000 64 = false ∧ (acting (manger copyCmd [] 1)).foreignSpan 1 0x200000000000 64 = true ∧
    ([4, 5].all fun op => inFront (keyed (manger (sealCmd op))) op && inFront (manger (sealCmd op)) op &&
      decide (((acting (keyed (manger (sealCmd op)))).pdk 0).sealingKey = some 9) && decide (((acting (manger (sealCmd op))).pdk 0).sealingKey = none)) = true := by
  decide +kernel

/-- A copy under way, within its bound or past it. -/
def copying (bound : Nat) (up : Bool) : State :=
  let s := manger copyCmd [1, 2, 3]
  { s with host := { s.host with up := up, fetched := [], copies := [{ kind := .copy, queue := 0, slot := 3, paddock := 0, cmd := copyCmd, bytes := 64, bound := bound }] } }

/-- Premises of CopyEngine: the link up and down, a bound that is past and one that is not. -/
theorem test_copy_premises : (copying 1 true).isRunning = true ∧ (copying 1 true).stride = 1 ∧ ((copying 1 true).performCopy { kind := .copy, queue := 0, slot := 3, paddock := 0, cmd := copyCmd, bytes := 64, bound := 1 }).2.note = 0 := by
  decide +kernel

/-- R392: the bytes and the completion record arrive; past its bound the copy is reported once. -/
theorem test_copy :
    (let u := after (.copyEngineTransfer {}) (copying 9 true); (Memory.bytes u.mem 0x800000002000 3, Memory.bytes u.mem 0x800000003000 8, u.host.copies)) =
      ([1, 2, 3], [1, 0, 0, 0, 7, 0, 0, 0], []) ∧
    (after .copyBoundExpiry (copying 1 true)).gleaner.arriving.length = 1 ∧ (after .copyBoundExpiry (copying 2 true)).gleaner.arriving = [] := by decide +kernel

/-! ### Programs and the program window -/

/-- PROGRAM_SET or RESTART of one tile, whose image lies behind the table. -/
def progAt (op tile budget length origin : Nat) : State :=
  let s := manger (cmd op 0x200000000000 1) (leBytes 8 0x200000000040 ++ leBytes 8 tile ++ leBytes 48 0 ++
    leBytes 8 (budget + length * 2 ^ 20) ++ leBytes 8 origin ++ leBytes 16 0 ++ leBytes 8 0x0B00000000000000)
  { s with tiles := [(tile / 64 * 64, { ranges := [{ origin := BitVec.ofNat 11 origin, length := BitVec.ofNat 12 length, budget := BitVec.ofNat 17 budget }] })] }

/-- The same with PWR_CAP at 800 W. -/
def capped (s : State) : State := { s with regs := Tbl.put 0 s.regs (Reg.offset .pwrCap) 800 }

/-- Premises of ProgramsAdmitted: each command admitted and refused at each check; a sheaf that is gated and one that waits. -/
theorem test_programs_premises :
    ([0x10, 0x11].all fun op => [progAt op 0 98000 4 0, progAt op 0 98001 4 0, capped (progAt op 0 98000 4 0), progAt op 0 98000 2 2047].all fun s =>
      inFront s op 16) = true ∧
    inFront (progAt 0x10 64 98000 4 0) 0x10 16 = true ∧ (acting (progAt 0x10 64 98000 4 0)).holdsTile 0 64 = false := by decide +kernel

/-- R55: the four refusals in their order; R242: RESTART of a tile without a program. -/
theorem test_programs :
    ([progAt 0x10 0 98000 4 0, progAt 0x10 0 98001 4 0, capped (progAt 0x10 0 98000 4 0), progAt 0x10 0 98000 2 2047, progAt 0x10 64 98000 4 0].map fun s =>
      answerOf (after (.programSet {}) s)) = [some (0, 0), some (1, 0x10), some (1, 0x11), some (1, 0x13), some (1, 0x14)] ∧
    answerOf (after (.restart {}) (progAt 0x11 1 98000 4 0)) = some (1, 0x14) ∧
    (after (.programSet {}) (progAt 0x10 0 98000 4 0)).progs.length = 1 ∧ (after (.programSet {}) (progAt 0x10 0 98000 4 0)).power.releaseQ = 0 := by decide +kernel

/-- Tile 0 before position 2,000 of stride 1, with a start due or WAITING. -/
def opening (due : Bool) : State :=
  let t : Tile := { seqState := if due then .halted else .waiting, pc := 3, preds := 2, program := some fourWords, ranges := [fourWords], store := [(3, 7)],
                    sregs := [(1, 5), (16, 6)], aregs := [(7, 1), (8, 2)], tregs := [(0, 9)], fresh := if due then [(0, some 1)] else [] }
  { withTile t with time := { gtc := 101500, actDue := false, fetchDue := false }, sheaves := [(0, { active := true, ran := some 0 })] }

/-- A tile whose stride wait ended the body of a loop with rounds left. -/
def openingLoop : State := (opening false).setTile 0 { (opening false).tile 0 with loops := [{ remaining := 5, start := 1, stop := 2 }], gtcHi := 9 }

/-- R253, R257: it resumes at the body's start with one round less. -/
theorem test_resume_loop : ((openingLoop.tile 0).afterResume.isSome, ((openingLoop.tile 0).loops.getLast?.map fun l => l.stop) == some ((openingLoop.tile 0).pc - 1)) = (true, true) ∧
    (let t := (after .programWindowOpen openingLoop).tile 0; (t.pc, t.loops.map LoopLevel.remaining, t.gtcHi)) = (1, [4], 0) := by decide +kernel

/-- Premises of ProgramWindow. -/
theorem test_window_premises :
    (opening true).isRunning = true ∧ (opening true).time.windowDue = true ∧ (opening true).openFor 0 = some 0 ∧ (opening true).loadPending 0 0 = false ∧
    (opening true).programOf 0 0 = some fourWords ∧ Tbl.sorted ((opening false).tile 0).sregs = true ∧ Tbl.sorted ((opening false).tile 0).aregs = true ∧
    (opening false).openFor 0 = some 0 ∧ Tbl.sorted ((opening false).tile 0).store = true := by decide +kernel

/-- R225: s1 stays and s16 reads zero; R242: a start begins at ENTRY with all registers zero. -/
theorem test_window :
    (let t := (after .programWindowOpen (opening false)).tile 0; (t.seqState, t.pc, t.s 1, t.s 16)) = (.running, 3, 5, 0) ∧
    (let t := (after .programWindowOpen (opening false)).tile 0; (t.a 7, t.a 8, t.t 0)) = (1, 0, 0) ∧
    (let t := (after .programWindowOpen (opening true)).tile 0; (t.seqState, t.pc, t.s 1, t.fresh.length)) = (.running, 0, 0, 0) := by decide +kernel

/-- A load of tile 0 admitted in stride 0, seen at position 2,500 of stride 1; its image lies at the sheaf bank or where nothing is. -/
def loading1 (dpa : BitVec 48) : State :=
  let i : ProgImage := { tile := 0, dpa := dpa, range := { length := 1, budget := 1000 } }
  let s := manger (cmd 1 0 0) (leBytes 32 0 ++ leBytes 8 0x0B00000000000000)
  let u := { s with
    time := { gtc := 102500, actDue := false, fetchDue := false, windowDue := false }, tiles := [(0, { seqState := .halted, fresh := [(0, some 2)] })],
    progs := [{ kind := .load, paddock := 0, queue := 0, stride := 0, images := [i], reply := 4 }] }
  { u with host := { replies := [{ id := 4, queue := 0, slot := 0, rbase := 0, paddock := 0, stride := 0, w0 := 0, actStride := 0, settled := false }] } }

theorem test_load_premises :
    (loading1 0x200000000000).progs.length = 1 ∧ ((loading1 0x200000000000).unreadableBody 0 0 ((loading1 0x200000000000).progs.flatMap ProgCmd.images)).2 = none ∧
    ((loading1 0x200000400000).unreadableBody 0 0 ((loading1 0x200000400000).progs.flatMap ProgCmd.images)).2 = some 0 := by decide +kernel

/-- R242: the instruction is in the store and the reply is settled; a body that cannot be read leaves the tile without a program. -/
theorem test_load :
    (let u := after (.programImageLoad {}) (loading1 0x200000000000); (Tbl.get 0 (u.tile 0).store 0, (u.tile 0).ranges.length, answerOf u, u.progs.length)) =
      (0x0B00000000000000, 1, some (0, 0), 0) ∧
    (let u := after (.programImageLoad {}) (loading1 0x200000400000); ((u.tile 0).ranges.length, answerOf u)) = (0, some (2, 0x21)) := by decide +kernel

/-! ### Sheaf activity, self-test and switches -/

/-- Position 2,500 of stride 1: sheaves 1 to 5 are queued for release, of which 2 is active, sheaf 0 is queued for return, and a test of
sheaf 9 is queued. -/
def queued : State :=
  let s := manger (cmd 1 0 0)
  { s with sheaves := [(0, { active := true }), (2, { active := true })], power := { releaseQ := 0x3E, returnQ := 1 },
           boot := { jobs := [{ sheaf := 9, kind := 3, extended := false, command := 4 }] } }

/-- SELFTEST with word 0 `w` and a list of sheaves, in a lifecycle state. -/
def testing (w sheafBits life : Nat) : State :=
  { manger (cmd 0x50 0x200000000000 1) (leBytes 8 w ++ leBytes 56 sheafBits) with sec := { fuses := { lifecycle := life } } }

/-- A test of sheaf 1 that began in stride 0, seen in stride 50. -/
def tested : State :=
  { State.reset with time := { gtc := 5003000, actDue := false }, boot := { jobs := [{ sheaf := 1, kind := 1, extended := false, command := 4, started := some 5000 }] },
                     tiles := [(0, { pc := 1 }), (64, { pc := 1 })], sheaves := [(0, { active := true }), (1, { active := true })] }

/-- The same in a span that has had its four returns, and before the test's time. -/
def spanFull : State :=
  { tested with time := { gtc := 5003000, actDue := false, nextSpan := 4 }, power := { returnSpan := tested.stride * 98 + 3, returned := 4 } }

/-- Premises of SheafActivity. -/
theorem test_activity_premises :
    queued.isRunning = true ∧ queued.time.windowDue = false ∧ queued.time.nextSpan ≤ 0 ∧
    ([testing 1 2 2, testing 0 2 2, testing 5 2 2, testing 5 2 0, testing 1 1 2, testing 9 2 3, testing 1 0 2].all fun s => inFront s 0x50 64) = true ∧
    (tested.boot.jobs.find? fun j => decide (j.sheaf = 1) && j.started.isSome).isSome = true ∧ tested.stride = 50 ∧ Tbl.sorted tested.tiles = true ∧
    Tbl.sorted tested.sheaves = true ∧ tested.boot.jobs.all (fun j => decide (j.sheaf ≠ 2)) = true := by decide +kernel

/-- R443: four of the five releases, of which sheaf 2 is none. -/
theorem test_activity :
    (setIndices (after (.sheafActivitySpan 0) queued).power.releaseQ, ((after (.sheafActivitySpan 0) queued).sheaf 0).active, ((after (.sheafActivitySpan 0) queued).sheaf 5).active,
      ((after (.sheafActivitySpan 0) queued).sheaf 9).active) = ([2], false, true, false) := by decide +kernel

/-- R469 to R472. -/
theorem test_selftest :
    ([testing 1 2 2, testing 0 2 2, testing 5 2 2, testing 5 2 0, testing 1 1 2, testing 1 0 2].map fun s => answerOf (after (.selftest {}) s)) =
      [some (0, 0), some (3, 0x20), some (2, 0x37), some (0, 0), some (1, 0x14), some (0, 1)] ∧
    (after (.selftestEnd 1 false true) tested).boot.failMask = 2 ∧ ((after (.selftestEnd 1 false true) tested).tile 64).pc = 0 ∧
    ((after (.selftestEnd 1 false true) tested).tile 0).pc = 1 ∧
    (after (.selftestEnd 1 false true) spanFull).boot.jobs.length = 1 ∧
    (after (.selftestEnd 1 false true) { tested with time := { gtc := 103000, actDue := false } }).boot.jobs.length = 1 := by decide +kernel

/-- Sheaf 0 shared by paddocks 0 and 1 before position 1,000 of stride 1; it holds the contents of `q`. -/
def switching (q : Nat) : State :=
  { State.reset with regs := Tbl.put 0 (Tbl.put 0 [] (Reg.offset (.gaitSched 0)) 2) (Reg.offset .gaitCtl) 0x100,
                     time := { gtc := 100300, actDue := false, fetchDue := false }, masks := [(0, 1), (1, 1)], paddocks := [(1, { paddockReset 1 with state := .active })],
                     sheaves := [(0, { active := true, ran := some q, entries := [(1, entryOf 1)] })],
                     tiles := [(0, { seqState := .waiting, pc := 3, preds := 2, loops := [{ remaining := 5, start := 1, stop := 9 }], sregs := [(1, 5)], program := some fourWords })] }

/-- Premises of PaddockSwitches. -/
theorem test_switch_premises :
    (switching 0).isRunning = true ∧ (switching 0).switchTo 0 = some 1 ∧ (switching 1).switchTo 0 = none ∧ (switching 0).time.windowDue = true ∧
    (((switching 0).advancePos 1000).settleEntries 0).mask 0 = 1 := by decide +kernel

/-- R64, R243: the record brings back the tile. -/
theorem test_context :
    (let t := (switching 0).tile 0
     let u := ({} : Tile).withContext 0 t.context
     (u.seqState, u.pc, u.preds, u.loops, u.s 1, u.program) = (t.seqState, t.pc, t.preds, t.loops, t.s 1, t.program)) ∧
    (MtgEntry.ofWords (recordWord (entryOf 1).bytes)).isOpen = true := by decide +kernel

/-! ### Paddocks, clears, sweeps and keys -/

/-- PADDOCK_SET or PADDOCK_RELEASE with a record of R409, in the FIELD. -/
def pdkAt (op w sheafBits regions : Nat) : State :=
  { manger (cmd op 0x200000000000 1) (leBytes 8 w ++ leBytes 56 sheafBits ++ leBytes 64 regions) with sec := { fuses := { lifecycle := 2 } } }

/-- Premises of PaddockChanges: a new paddock 3, one that is not FREE, a share beyond 1,000, a partial release and one of paddock 0. -/
theorem test_paddock_premises :
    ([pdkAt 0x40 0x103 4 0x100, pdkAt 0x40 0x100 4 0x100, pdkAt 0x40 (0x103 + 1001 * 2 ^ 32) 4 0x100].all fun s => inFront s 0x40 128) = true ∧
    ([pdkAt 0x41 0 1 1, pdkAt 0x41 0x200 0 0].all fun s => inFront s 0x41 128) = true ∧ Tbl.sorted (pdkAt 0x40 0 0 0).masks = true := by decide +kernel

/-- R410, R412: the five answers; R404: in force, sheaf 2 and region 8 are paddock 3's. -/
theorem test_paddocks :
    (answerOf (after (.paddockSet {}) (pdkAt 0x40 0x103 4 0x100)), answerOf (after (.paddockSet {}) (pdkAt 0x40 0x100 4 0x100)),
      answerOf (after (.paddockSet {}) (pdkAt 0x40 (0x103 + 1001 * 2 ^ 32) 4 0x100)), answerOf (after (.paddockRelease {}) (pdkAt 0x41 0x200 0 0))) =
      (some (0, 0), some (1, 0x14), some (1, 0x12), some (1, 0x14)) ∧
    (let t := State.reset.withChange { release := false, paddock := 3, isNew := true, whole := false, sheaves := 4, regions := 0x100, share := 7, reply := 0 }
     (t.mask 3, (t.region 8).owner, (t.region 8).state) = (4, 3, .owned)) := by decide +kernel

/-- Region 8 being cleared for paddock 3, which is RELEASING; its units hold data, and unit 3 of region 0 an error. -/
def clearing (mark : EccMark) : State :=
  { State.reset with time := { gtc := 2000, actDue := false }, regions := [(8, { state := .scrubbing, owner := 3 })],
                     paddocks := [(0, { paddockReset 0 with sweep := true, memEpoch := 2 }), (3, { paddockReset 3 with state := .releasing, releasedRegions := 1, clearing := 0x100 })],
                     hbm := [(3, { stored := .raw 1, clear := false }), (8 * 2 ^ 24, { stored := .raw 1, clear := false })],
                     eccUnits := [(5, mark)] }

/-- Premises of ClearsAndSweeps. -/
theorem test_clear_premises :
    (clearing .correctable).isRunning = true ∧ ((clearing .correctable).region 8).state = .scrubbing ∧ ((clearing .correctable).pdk 3).state = .releasing ∧
    Tbl.sorted (clearing .correctable).regions = true ∧ Tbl.sorted (clearing .correctable).paddocks = true ∧ Tbl.sorted (clearing .correctable).hbm = true ∧
    ((clearing .correctable).pdk 0).sweep = true ∧ (clearing .correctable).hbmOwner 3 = some 0 ∧ (clearing .correctable).eccUnits.length = 1 := by decide +kernel

/-- R415: the unit is clear and paddock 3 FREE; R422: the unit carries epoch 2. -/
theorem test_clears :
    (((after (.regionClearEnd 8) (clearing .correctable)).unit (8 * 2 ^ 24)).clear, ((after (.regionClearEnd 8) (clearing .correctable)).pdk 3).state,
      ((after (.keySweepEnd 0) (clearing .correctable)).unit 3).epoch, ((after (.keySweepEnd 0) (clearing .correctable)).pdk 0).sweep) = (true, .free, 2, false) := by decide +kernel

/-- KEY_ROTATE of paddock 0's memory or link key. -/
def rotating (link : Nat) (x : Paddock := paddockReset 0) : State := { manger (cmd 0x42 0 1 0 0 0 link) with paddocks := [(0, x)] }

/-- SEAL_KEY with a ciphertext in the bank. -/
def sealKeyAt (x : Paddock) (copies : List CopyJob) : State :=
  let s := manger (cmd 0x44 0x200000000000 1568)
  { s with paddocks := [(0, x)], host := { s.host with copies := copies } }

/-- A seal that is outstanding. -/
def sealJob : CopyJob := { kind := .sealIn, queue := 0, slot := 1, paddock := 0, cmd := sealCmd 4, bytes := 64, bound := 9 }

/-- ATTEST to the sheaf bank, with a nonce at 0x2000_0000_0000, in a lifecycle state with leaves. -/
def attesting (dest life n : Nat) (next limit : BitVec 41) : State :=
  { manger (cmd 0x43 dest 12064 0x200000000000) with sec := { fuses := { lifecycle := life }, attReady := true, attNext := next, attLimit := limit, attThisTick := n } }

/-- Premises of SecurityCommands. -/
theorem test_security_premises :
    ([rotating 0, rotating 1, rotating 0 { paddockReset 0 with sweep := true }, { rotating 0 with paddocks := [] }].all fun s => inFront s 0x42) = true ∧
    ([sealKeyAt { paddockReset 0 with keyPair := some 2 } [], sealKeyAt (paddockReset 0) [], sealKeyAt { paddockReset 0 with keyPair := some 2 } [sealJob]].all fun s =>
      inFront s 0x44 1568) = true ∧
    ([attesting 0x200000000100 2 0 5 9, attesting 0x200000000100 2 0 9 9, attesting 0x200000000100 2 0 0x10000000000 0x10000000000, attesting 0x200000000100 2 4 5 9,
      attesting 0x200000000100 0 0 5 9, attesting 0x800000000100 2 0 5 9].all fun s => inFront s 0x43) = true ∧
    (acting (attesting 0x200000000100 2 0 5 9)).ownSpan 0 0x200000000100 12064 = true ∧ (acting (attesting 0x200000000100 2 0 5 9)).ownSpan 0 0x800000000100 12064 = false ∧
    ((acting (attesting 0x200000000100 2 0 5 9)).readOperand 0 0x200000000000 32).2.isSome = true := by decide +kernel

/-- R421, R425, R434: the answers of the clauses. -/
theorem test_security :
    ([rotating 0, rotating 0 { paddockReset 0 with sweep := true }].map fun s => answerOf (after .keyRotate s)) = [some (0, 0), some (2, 0x31)] ∧
    ([sealKeyAt (paddockReset 0) [], sealKeyAt { paddockReset 0 with keyPair := some 2 } [sealJob]].map fun s => answerOf (after (.sealKey {}) s)) =
      [some (2, 0x36), some (2, 0x35)] ∧
    ([attesting 0x200000000100 2 0 9 9, attesting 0x200000000100 2 0 0x10000000000 0x10000000000, attesting 0x200000000100 2 4 5 9, attesting 0x200000000100 0 0 5 9,
      attesting 0x800000000100 2 0 5 9].map fun s => answerOf (after (.attest {}) s)) = [some (2, 0x32), some (2, 0x33), some (2, 0x34), some (2, 0x37), some (1, 0x14)] := by
  decide +kernel

/-- R433: with 2^19 leaves left a new bound is asked for. -/
theorem test_leaf :
    ({ attNext := 0x7FFFF, attLimit := 0x100000 } : Security).useLeaf.request = some (.write 0x200000) ∧
    ({ attNext := 0x7FFFE, attLimit := 0x100000 } : Security).useLeaf.request = none := by decide +kernel

/-! ### Tethers and links -/

/-- Port 0 UP on four lanes, tether 5 of paddock 0 in state `st` with entries 20 and 21 of it, position 300 of stride 3. -/
def linked (st : TetherState) (x : Tether := {}) (p : Port := {}) (live : Nat := 4) : State :=
  { State.reset with
    time := { gtc := 300300, actDue := false, fetchDue := false }, regs := Tbl.put 0 [] (Reg.offset .cfgEpoch) 7,
    ports := [(0, { p with state := 2, live := live, laneOk := 15, gait := [(20, gaitValue 5 false), (21, gaitValue 5 false)] })],
    tethers := [(5, { x with state := st, peerChip := 9, peerTether := 6, ports := 1, slots := 2, lastValid := 3 })] }

/-- TETHER_OPEN of tether 5 with a contract: word 0, PORT_0 and a ring of `n` frames in sheaf 0's bank, in the FIELD. -/
def contractAt (w0 port n : Nat) (send : Nat := 0x200000010000) (share : BitVec 10 := 8) : State :=
  { manger (cmd 0x30 0x200000000000 1) (leBytes 8 w0 ++ leBytes 8 port ++ leBytes 8 send ++ leBytes 8 0x200000001000 ++
      leBytes 8 0x200000020000 ++ leBytes 8 0x200000001010 ++ leBytes 8 (0x200000001020 + n * 2 ^ 48)) with
    sec := { fuses := { lifecycle := 2 } }, shares := [(0, share)] }

/-- PORT_0 of a contract: valid, port 0, `n` entries. -/
def portOf (n : Nat) : Nat := 0x8000 + n

/-- Premises of TethersManaged. -/
theorem test_tether_premises :
    ([contractAt 0x10000005 (portOf 2) 1, contractAt 0x10000005 (portOf 0) 1, contractAt 5 (portOf 2) 1 0x200000010000 1, contractAt 0x10000005 (portOf 2) 1 0x800000000000].all fun s =>
      inFront s 0x30 64) = true ∧
    ([(0x31, 5), (0x32, 0x100), (0x32, 0), (0x32, 0x118)].all fun q => inFront { linked .opening with host := (manger (cmd q.1 0 0 0 0 0 q.2)).host } q.1) = true := by decide +kernel

/-- R361 to R363, R426: the answers of the clauses. -/
theorem test_tether_open :
    ([contractAt 0x10000005 (portOf 2) 1, contractAt 0x10000005 (portOf 0) 1, contractAt 5 (portOf 2) 1 0x200000010000 1, contractAt 0x10000005 (portOf 2) 1 0x800000000000,
      { contractAt 0x10000005 (portOf 2) 1 with sec := { fuses := { lifecycle := 1 } } }].map fun s => answerOf (after (.tetherOpen {}) s)) =
      [some (0, 0), some (3, 0x20), some (1, 0x12), some (1, 0x14), some (2, 0x37)] ∧
    ((after (.tetherOpen {}) (contractAt 0x10000005 (portOf 2) 1)).port 0).gait = [(20, 0x8005), (21, 0x8005)] ∧
    (let u := after .tetherClose { linked .opening with host := (manger (cmd 0x31 0 0 0 0 0 5)).host }; ((u.tether 5).state, (u.port 0).gait, answerOf u)) =
      (.closed, [], some (0, 0)) := by decide +kernel

/-- R362: entries 20 up before 0 to 19, and none twice. -/
theorem test_pick : (linked .opening).pickEntries 0 3 false = some [22, 23, 24] ∧ entryOrder.getLast? = some 19 ∧
    (linked .opening).entryFree 0 20 false = false := by decide +kernel

/-- An unsent frame of a ring tether, and a chunk. -/
def unsent (what : Transfer) : Pend := { seqNo := 3, stride := 2, what := what }

/-- Premises of LinkEntries: entries that no tether holds, of an OPENING, a CLOSED and a formed tether, with a frame, a report and nothing due. -/
theorem test_entry_premises :
    ((linked .opening).port 0).entryLive 20 = true ∧ ((linked .opening).port 1).entryLive 20 = false ∧ (linked .opening).position < 400 * (20 / 4) + 400 ∧
    gaitValid (((linked .opening).port 0).gaitAt 22) = false ∧ gaitTether (((linked .opening).port 0).gaitAt 20) = 5 ∧
    (((linked .formed { pend := [unsent (.ring 0)], ringFrames := 4 }).tether 5).nextFrame false 0).isSome = true ∧
    (linked .formed { pend := [unsent (.ring 0)], ringFrames := 4 }).entriesAhead 0 20 5 = 0 ∧ (linked .formed).entriesAhead 0 21 5 = 1 ∧
    (linked .opening).entriesGone 0 20 = [] ∧ (after (.entrySend 0 20 {}) (linked .opening)).entriesGone 0 21 = [20] ∧
    ((linked .formed { reportDue := true, ownConsumed := 7 }).tether 5).takeReport.1.isSome = true ∧ ((linked .formed).tether 5).takeReport.1 = none ∧
    (linked .opening).nextGroup 0 = 0 ∧ (linked .opening).nextGroup 1 = 0 := by decide +kernel

/-- R358, R365: an IDLE frame, a HELLO, a REPORT and a data frame. -/
theorem test_entry_send :
    ((after (.entrySend 0 22 {}) (linked .opening)).port 0).lastEntry = some (22, .idle (linked .opening).chipId 0 ((linked .opening).stride % 65536) 22) ∧
    (match ((after (.entrySend 0 20 {}) (linked .opening)).port 0).lastEntry with | some (20, .hello 9 h) => h.destTether | _ => 0) = 6 ∧
    (match ((after (.entrySend 0 21 {}) (linked .formed { reportDue := true, ownConsumed := 7 })).port 0).lastEntry with
      | some (21, .report f) => (f.consumed, f.destTether) | _ => (0, 0)) = (7, 6) ∧
    (match ((after (.entrySend 0 20 {}) (linked .formed { pend := [unsent (.chunk { chunk := 8 })], collective := true })).port 0).lastEntry with
      | some (20, .data f) => (f.seqNo, f.chunk) | _ => (0, 0)) = (3, 8) ∧
    ((after (.entrySend 0 20 {}) (after (.entrySend 0 20 {}) (linked .opening))).port 0).sentEntries = [20] := by decide +kernel

/-- R357: the block of group 0 carries the mark. -/
theorem test_lcb_sent : ((after (.laneGroupStart 0) (linked .opening)).port 0).sentLcb.map Lcb.mark = some true := by decide +kernel

/-- Port 0 enabled at a site with a LIVE module and a clock, its lane 1 failed and named by LINK_RETRAIN. -/
def trainable : State :=
  let s := linked .formed
  { s with
    regs := Tbl.put 0 s.regs (Reg.offset (.portCtl 0)) 1, sites := [(0, { state := 2, clocked := true })],
    ports := [(0, { s.port 0 with state := 3, live := 3, laneMap := 0x6C, laneOk := 13, training := 2 })] }

/-- Premises of LanesChange: a lane that fails, a remap due now and one due later, blocks of each kind, a port that trains. -/
theorem test_lane_premises :
    ((linked .formed).port 0).linkUp = true ∧ logicalOf ((linked .formed).port 0).laneMap 1 < ((linked .formed).port 0).live ∧
    ((linked .formed {} { remaps := [(0x0301, 0xE4, 3)] }).port 0).remaps.length = 1 ∧ (Lcb.signed { mark := true }).crcOk = true ∧
    ({ crc := 1 } : Lcb).crcOk = false ∧ trainable.mayTrain 0 = true ∧ (linked .formed).mayTrain 0 = false ∧ (bits (0x0301 : BitVec 16) 8 8 + 256 - (linked .formed).stride % 256) % 256 = 0 ∧
    (bits (0x0401 : BitVec 16) 8 8 + 256 - (linked .formed).stride % 256) % 256 = 1 ∧ ((linked .formed).port 0).lastLcb = none ∧
    (linked .formed).field .timeCtl 0 2 ≠ 2 ∧ ((linked .formed).port 0).offsetStride = none := by decide +kernel

/-- R370: lane 1 goes last and is reported; R40: a mark 21 ns off raises EVT_TIME_OFFSET and one 20 ns off does not. -/
theorem test_lanes :
    (let p := (after (.laneFail 0 1 0x0300) (linked .formed)).port 0; (p.state, p.laneOk, p.out)) = (3, 13, [{ err := some (0x0300, 1), req := some (0x6C, 3) }]) ∧
    (after (.linkControlBlock 0 (Lcb.signed { mark := true, gtc := 300279 })) (linked .formed)).gleaner.arriving.length = 1 ∧
    (after (.linkControlBlock 0 (Lcb.signed { mark := true, gtc := 300280 })) (linked .formed)).gleaner.arriving = [] ∧
    (let p := (after (.laneRemap 0) (linked .formed {} { remaps := [(0x0301, 0x6C, 3)] })).port 0; (p.laneMap, p.live, p.state)) = (0x6C, 3, 3) ∧
    (after (.laneFail 0 0 0x0300) (linked .formed {} {} 1)).port 0 = { ((linked .formed {} {} 1).port 0) with state := 0, live := 0, laneOk := 14 } := by
  decide +kernel

/-- R354, R369: the FEC's counts, and loss on lane 2 reported; R372: lane 1, retrained, is announced as the fourth live lane. -/
theorem test_lanes_fec :
    (let p := (after (.linkControlBlock 0 { crc := 1, fecCorrected := 3, fecLost := [(2, 4)] }) (linked .formed)).port 0
     (p.fecCorr, p.fecUncorr, p.out.map LcbReport.err)) = (3, 4, [some (0x0300, 2)]) ∧
    (let p := (after (.linkTrainingEnd 0 2 0) trainable).port 0; (p.training, p.laneOk, p.out)) = (0, 15, [{ req := some (0x6C, 4) }]) := by decide +kernel

/-- R357: the CRC-32 of the nine digits, the check value that IEEE 802.3's CRC is known by. -/
theorem test_crc32 : crc32 [0x31, 0x32, 0x33, 0x34, 0x35, 0x36, 0x37, 0x38, 0x39] = 0xCBF43926 := by decide +kernel

/-- The HELLO that the OPENING tether awaits. -/
def hello : Hello := { srcChip := 9, srcTether := 6, destTether := 5, epoch := 7 }

/-- A frame of the tether's pair. -/
def frame (seqNo : BitVec 64) : Frame := { destTether := 5, srcTether := 6, srcChip := 9, seqNo := seqNo, payload := [7] }

/-- A formed ring tether whose ring lies in sheaf 0's bank. -/
def ringTether : State :=
  { linked .formed { recvRing := 0x200000010000, recvCount := 0x200000000000, ringFrames := 4 } with masks := [(0, 1)] }

/-- Premises of FramesReceived. -/
theorem test_frame_premises :
    (linked .opening).isRunning = true ∧ hello.fleet = (linked .opening).sec.fuses.fleetId ∧ hello.epoch.toNat = (linked .opening).field .cfgEpoch 0 32 ∧
    (linked .opening).staleBit = false ∧ ((linked .opening).tether 5).state = .opening ∧ ringTether.frameValid (frame 0) = true ∧
    (ringTether.tether 5).hasDelivered 0 = false ∧ (linked .formed { delivered := 1 }).frameValid (frame 0) = true := by decide +kernel

/-- R360: the tether is FORMED; R359: a wrong tag counts; R365: a report brings CONSUMED. -/
theorem test_frames :
    ((after (.helloFrame 0 hello) (linked .opening)).tether 5).state = .formed ∧ (after (.helloFrame 0 { hello with tagOk := false }) (linked .opening)).host.security = true ∧
    ((after (.dataFrame 0 { frame 0 with tagOk := false } {}) ringTether).port 0).tagFail = 1 ∧
    ((after (.reportFrame 0 { frame 9 with report := true, consumed := 3 }) ringTether).tether 5).peerConsumed = 3 := by decide +kernel

/-- Premises of TetherLife: both sides of 64 strides, of 8 strides and of the bound. -/
theorem test_life_premises :
    ((linked .opening).tether 5).openStride + 64 > (linked .opening).stride ∧
    ({ linked .opening with time := { gtc := 6400000, actDue := false } } : State).stride = 64 ∧ ((linked .formed).entryCounts 5).1 = 2 ∧
    ({ linked .formed with time := { gtc := 1100000, actDue := false } } : State).stride = 11 ∧
    ((linked .formed { pend := [unsent (.ring 0)] }).tether 5).overdue 3 (unsent (.ring 0)) = true := by decide +kernel

/-- R363, R371: CLOSED, BROKEN, and one frame late. -/
theorem test_life :
    ((after (.tetherOpeningTimeout 5) { linked .opening with time := { gtc := 6400000, actDue := false } }).tether 5).state = .closed ∧
    ((after (.tetherBroken 5) { linked .formed with time := { gtc := 1100000, actDue := false } }).tether 5).state = .broken ∧
    ((after (.tetherBoundExpiry 5) (linked .formed { pend := [unsent (.ring 0)] })).tether 5).lateCount = 1 ∧
    (({ delivered := 3, beyond := [5, 4] } : Tether).deliver 3).delivered = 6 := by decide +kernel

/-! ### Collectives -/

/-- A descriptor (R318) of a collective of two members, of which the part is rank 0, in sheaf 0's bank. -/
def descOf (kind gmode window chunks gscale : Nat) : List Byte :=
  ([7 * 2 ^ 48 + kind * 2 ^ 44 + gmode * 2 ^ 42 + 2 ^ 28 + window, 0x200000000080, 0x200000010000, 0x200000020000, 0x200000030000, 0x200000030040,
    chunks * 2 ^ 24 + 3 * 2 ^ 16, gscale * 2 ^ 48, 0x200000030080, 9 * 2 ^ 48 + 0x2000000300C0, 1, 0, 0, 0, 0, 0].flatMap (leBytes 8)) ++
    leBytes 4 0 ++ leBytes 4 0x50009

/-- COLLECTIVE of such a descriptor; tether 5 of paddock 0 is formed, and 8 slots of the reduction buffer are the paddock's. -/
def collAt (kind gmode window chunks gscale : Nat) : State :=
  { manger (cmd 0x20 0x200000000000 0) (descOf kind gmode window chunks gscale) with
    tethers := [(5, { state := .formed, collective := true })], regs := Tbl.put 0 [] (Reg.offset (.wteBuf 0)) 8 }

/-- The collective that it describes. -/
def gradients : Coll :=
  { id := 0, paddock := 0, descDpa := 0x200000000000, tag := 7, kind := 1, gmode := 0, pM1 := 1, rank := 0, window := 4, members := [(0, 0), (5, 9)],
    src := 0x200000010000, dst := 0x200000020000, version := 0x200000030000, vtable := 0x200000030040, chunks := 2, gentry := 3, gsheaf := 0,
    gscale := 0x3F80, first := 0, ready := 0x200000030080, deadline := 9, done := 0x2000000300C0, readyCount := 1, perms := [], step := 0,
    key := 0, admitted := 0, membersDpa := 0x200000000080 }

/-- Collectives under way. -/
def running (cs : List Coll) : State := { collAt 1 0 4 2 0x3F80 with colls := cs, host := {} }

/-- Premises of CollectivesAdmitted: admitted, a bad GMODE, no slots, a member whose tether is CLOSED, no chunks, and an abort. -/
theorem test_coll_premises :
    ([collAt 1 0 4 2 0x3F80, collAt 1 1 4 2 0x3F80, { collAt 1 0 4 2 0x3F80 with regs := [(Reg.offset (.wteBuf 0), 0)] }, { collAt 1 0 4 2 0x3F80 with tethers := [] },
      collAt 1 0 4 0 0x3F80].all fun s => inFront s 0x20 128) = true ∧
    ((acting (collAt 1 0 4 2 0x3F80)).readColl 0 0x200000000000 0).2 = .inr (gradients, 0x200000000080) ∧
    (acting (collAt 1 0 4 2 0x3F80)).belongs 1 0x200000000080 8 = false ∧ ((acting (manger (cmd 0x20 0x200000400000 0))).readOperand 0 0x200000400000 128).2 = none ∧
    (running [gradients]).colls.find? (fun x => decide (x.paddock = 0) && decide (x.descDpa.toNat = 0x200000000000)) = some gradients := by decide +kernel

/-- R513, R319, R320, R342: the answers of the clauses; R323: rank 0 starts with destination 1. -/
theorem test_colls :
    ([collAt 1 0 4 2 0x3F80, collAt 1 1 4 2 0x3F80, collAt 4 3 4 2 0x7F80, { collAt 1 0 4 2 0x3F80 with regs := [(Reg.offset (.wteBuf 0), 0)] }, { collAt 1 0 4 2 0x3F80 with tethers := [] },
      collAt 1 0 4 0 0x3F80].map fun s => answerOf (after (.collective {}) s)) =
      [some (0, 0), some (3, 0x20), some (3, 0x20), some (1, 0x12), some (1, 0x14), some (0, 1)] ∧
    (after (.collective {}) (collAt 1 0 4 2 0x3F80)).colls.map Coll.sendJ = [1] ∧
    (after (.collective {}) (collAt 4 3 4 2 0x7F80)).host.replies.map Reply.detail = [5] ∧
    answerOf (after .collAbort { running [gradients] with host := (manger (cmd 0x21 0x200000000000 0)).host }) = some (0, 0) ∧
    answerOf (after .collAbort (manger (cmd 0x21 0x200000000000 0))) = some (2, 0x19) ∧
    answerOf (after .collAbort { running [{ gradients with paddock := 1 }] with host := (manger (cmd 0x21 0x200000000000 0)).host }) = some (1, 0x14) ∧
    answerOf (after (.collective {}) (manger (cmd 0x20 0x200000400000 0))) = some (2, 0x21) := by decide +kernel

/-- A started one that may send chunk 0 to rank 1, or not; an ALL_GATHER; a permute with a held chunk. -/
def sending (k : Nat) (j : Nat) (may : Bool) : Coll := { gradients with kind := k, started := true, isReady := true, sendJ := j, peers := if may then [(1, (0, 4))] else [], slots := 4 }

def holding : Coll :=
  { gradients with kind := 3, chunks := 1, sendJ := 0, started := true, perms := [{ destRank := 1, src := 0x200000010040, dst := 0x200000020000, count := 8 }],
                   held := [{ tether := some 5, dest := 0x200000010040, bytes := [1] }, { tether := some 5, dest := 0x200000010000, bytes := [1] }] }

/-- Premises of CollectivesRun. -/
theorem test_coll_run_premises :
    (running [gradients]).coll 0 = some gradients ∧ gradients.isReady = false ∧ ((running [gradients]).wteNat 0 0x200000030080 4).2 = some 0 ∧
    (running [gradients]).collBlocked gradients = false ∧ (running [gradients]).slotQueueAhead gradients = false ∧
    (running [gradients]).slotsTaken 0 + min gradients.window ((running [gradients]).field (.wteBuf 0) 0 12) ≤ (running [gradients]).field (.wteBuf 0) 0 12 ∧
    gradients.admitted + gradients.deadline > (running [gradients]).stride ∧
    (sending 1 1 true).peers = [(1, (0, 4))] ∧
    (holding.held.map fun h => rangesMeet [(h.dest.toNat, h.bytes.length)] holding.unread) = [true, false] := by decide +kernel

/-- R323, R341, R339: w = 4 slots are taken and reported; a deadline at stride 1 raises EVT_WTE_LATE; the second held chunk is written. -/
theorem test_coll_run :
    (let u := after (.collectiveStart 0) (running [{ gradients with isReady := true }]); (u.colls.map Coll.slots, (u.tether 5).tagsDue)) = ([4], [(7, (0, 4))]) ∧
    (after (.collectiveDeadline 0) (running [{ gradients with deadline := 1 }])).gleaner.arriving.length = 1 ∧
    (let u := after (.permuteHoldRelease 0) (running [holding]); (u.colls.map fun c => c.held.length, Memory.byte u.mem 0x200000010000)) = ([1], 1) := by decide +kernel

/-- Premises of OwnerUpdates: chunk 0 with one contribution of one; elements for each row of R332. -/
def updating : Coll := { sending 1 1 true with chunkSlots := [(0, { arrived := 1, sums := [(0, 0x3F800000)] })] }

def elements (stale history : Bool) (group : BitVec 128) : UpdateEnv :=
  { stale := stale, history := history, amax := 0x3F80, gscale := 0x3F80, key := 0, step := 0, latched := [(0, group)] }

/-- ETA and EPS 1, C1 and C2 1/2, DECAY 0. -/
def plainGroup : BitVec 128 := 0x3F803F003F003F80

theorem test_update_premises :
    (running [updating]).coll 0 = some updating ∧ (Tbl.get {} updating.chunkSlots 0).arrived = updating.pM1 ∧ updating.low + updating.slots = 4 ∧
    groupInvalid plainGroup = false ∧ bit plainGroup 80 = false ∧ (updateOf 0x3F80 plainGroup 0x3F80 0x3F800000).isFinite = true ∧
    (updateOf 0x7F00 plainGroup 0x3F80 0x7F000000).isFinite = false := by decide +kernel

/-- R332: the row of each outcome. -/
theorem test_rows :
    (((elements true false plainGroup).element 0 0 0).row, ((elements false false plainGroup).element 0 0x0200000000000000 0).row, ((elements false false 0xBF80).element 0 0 0).row,
      ((elements false false plainGroup).element 0 0 0x7F800000).row, ((elements false true plainGroup).element 0 0 0x7F800000).row,
      ((elements false false plainGroup).element 0 0 0x7F7FFFFF).row) = (1, 2, 3, 4, 5, 6) := by decide +kernel

/-- R335: the check value. -/
theorem test_crc : crc16 [0x31, 0x32, 0x33, 0x34, 0x35, 0x36, 0x37, 0x38, 0x39] = 0x29B1 := by decide +kernel

/-! ### Bridle modules, events and the host's accesses -/

/-- Site 0 as given, port 1 enabled (port 0 too unless `off`). -/
def sited (x : Site) (off : Bool := false) : State :=
  let on (n : Nat) (m : Tbl (BitVec 64)) : Tbl (BitVec 64) := Tbl.put 0 m (Reg.offset (.portCtl n)) 1
  let all := on 3 (on 2 (on 1 []))
  { State.reset with time := { gtc := 4000000000000, actDue := false }, sites := if x = {} then [] else [(0, x)], regs := if off then all else on 0 all,
                     ports := [(0, { state := 2, live := 4, laneOk := 15 })] }

/-- A LIVE optical module of 1 h rated, with seconds used. -/
def optical (used : BitVec 32) (wear : BitVec 2 := 0) : Site := { state := 2, kind := 1, ratedH := 1, seconds := used, written := used, wear := wear }

/-- An optical module of 1 h rated whose records carry their tags (R374): KMAC256 under a BK of zeros, worked out apart from the model
and checked there against a sample of NIST SP 800-185. -/
def soundModule : Module :=
  { identity := [0x10001, 0, 0, 1, 0, 0, 0, 0, 0, 0, 0, 0, 0xC80C01ACAF3E0749, 0xCB8B4214F40A5A0F, 0xCA4FC6F495E333BF, 0xA0562E130D3BE1CA],
    seconds := 7, writes := 2, lifeTag := 0xA08347F5F3B2A57A }

/-- Premises of BridleModules: no module and each outcome of a check; the hour's write-back, and both limits of wear. -/
theorem test_bridle_premises :
    (sited {}).isRunning = true ∧ ((sited {}).site 0).state = 0 ∧ (sited {}).portEnabled 0 = true ∧ (sited {} true).portEnabled 0 = false ∧
    ((sited (optical 0)).site 0).state = 2 ∧ Tbl.sorted (sited (optical 0)).ports = true ∧ Tbl.sorted (sited (optical 0)).sites = true ∧
    (optical 0).written.toNat + 3600 ≤ 3600 ∧ 36 * 100 * (optical 0).ratedH.toNat = 3600 ∧ 36 * 110 * (optical 3600 1).ratedH.toNat = 3960 := by decide +kernel

/-- R375 to R377. -/
theorem test_bridle :
    ((after (.bridleInsert 0 soundModule) (sited {})).port 0).state = 1 ∧
    ((after (.bridleInsert 0 { identity := List.replicate 16 0 }) (sited {})).site 0).state = 3 ∧
    (let u := after (.bridleRemove 0) (sited (optical 0)); ((u.site 0).state, (u.port 0).state)) = (0, 0) ∧
    ((after (.bridleLifeWrite 0 3599) (sited (optical 0))).site 0).writes = 0 ∧ ((after (.bridleLifeWrite 0 3600) (sited (optical 0))).site 0).writes = 1 ∧
    ((after (.bridleWear 0 3600) (sited (optical 0))).site 0).wear = 1 ∧ ((after (.bridleEol 0 3959) (sited (optical 3600 1))).site 0).wear = 1 ∧
    ((after (.bridleEol 0 3960) (sited (optical 3600 1))).site 0).wear = 2 := by decide +kernel

/-- An event of class 3 at GTC `t` from source `src`. -/
def event (t : BitVec 64) (src : BitVec 32) (code : BitVec 16 := 1) : Event := { gtc := t, epoch := 0, source := src, cls := 3, code := code, payload := 0 }

/-- The Gleaner as given in stride 1, with RATE of class 3 and RING_CTL as given. -/
def gleaning (g : Gleaner) (rate ctl : BitVec 64) : State :=
  { State.reset with time := { gtc := 100300, actDue := false }, gleaner := g, regs := Tbl.insert (Tbl.insert [] (Reg.offset (.evtRate 3)) rate) (Reg.offset .ringCtl) ctl }

/-- A ring of 4 records at the start of sheaf 0's bank, enabled. -/
def ringOn : BitVec 64 := 0x8200200000000000

/-- Premises of EventRecords: below and at RATE, with a summary of the source and without; the ring on and off, full and not. -/
theorem test_event_premises :
    (gleaning { arriving := [event 5 1] } 1 0).isRunning = true ∧ (gleaning {} 1 0).field (.evtRate 3) 0 12 = 1 ∧ (gleaning {} 0 0).field (.evtRate 3) 0 12 = 0 ∧
    (gleaning {} 1 ringOn).field .ringCtl 63 1 = 1 ∧ (gleaning {} 1 0).field .ringCtl 63 1 ≠ 1 ∧ 2 ^ (gleaning {} 1 ringOn).field .ringCtl 56 5 = 4 := by decide +kernel

/-- R481: one kept, the next coalesced; R43: by time, then source, and in order; R483: the fifth record is dropped. -/
theorem test_events :
    (let u := after .gleanerRecord (after .gleanerRecord (gleaning { arriving := [event 100300 1, event 100301 1] } 1 0));
      (u.gleaner.kept.length, u.gleaner.summaries.map Summary.count)) = (1, [1]) ∧
    (sortEvents [event 7 2 1, event 7 1 2, event 7 2 0, event 3 9]).map Event.code = [1, 2, 1, 0] ∧
    (let u := after .gleanerRingWrite (gleaning { kept := [event 1 1, event 2 1, event 3 1, event 4 1, event 5 1, event 100300 1] } 9 ringOn);
      (u.gleaner.write, u.gleaner.dropped, u.gleaner.kept.length, u.host.logDrop)) = (4, 1, 1, true) ∧
    (after (.evtReadIndexWrite 3) (gleaning { write := 8 } 9 ringOn)).gleaner.read = 0 ∧ (after (.evtReadIndexWrite 4) (gleaning { write := 8 } 9 ringOn)).gleaner.read = 4 := by
  decide +kernel

/-- A page of the aperture mapped onto sheaf 0's bank, with or without WRITE. -/
def mapped (ctl : BitVec 64) : State :=
  { manger (cmd 1 0 0) [1, 2, 3] with regs := Tbl.put 0 [] (Reg.offset (.apt 0)) ctl }

/-- VALID with WRITE, and without. -/
def pageRw : BitVec 64 := 0xC000200000000000
def pageRo : BitVec 64 := 0x8000200000000000

/-- Premises of HostAccesses. -/
theorem test_access_premises :
    State.reset.host.up = true ∧ Reg.ofOffset (Reg.offset .pwrCap) = some .pwrCap ∧ Reg.ofOffset 0x3FFFFF8 = none ∧ Reg.offset .pwrCap < 0x4000000 ∧
    bit (((mapped pageRw)).reg (.apt 0)) 63 = true ∧ bit ((mapped pageRo).reg (.apt 0)) 62 = false ∧ bit ((mapped pageRw).reg (.apt 1)) 63 = false ∧
    (withEntries State.reset).sheafFailed 0 = false ∧ Tbl.sorted (withEntries State.reset).sheaves = true ∧
    Tbl.sorted ((withEntries State.reset).sheaf 0).entries = true ∧ ((withEntries State.reset).entry 0 1).isOpen = true ∧
    ((withEntries State.reset).entry 0 9).isOpen = false := by decide +kernel

/-- R489, R12, R381, R382, R97. -/
theorem test_accesses :
    (after (.registerWrite 0x3FFFFF8 8 1) State.reset).gleaner.arriving.length = 1 ∧ (after (.registerWrite 0 2 1) State.reset).gleaner.arriving.length = 1 ∧
    (let u := after (.registerWrite (Reg.offset .pwrCap) 8 0x7D0) State.reset; (u.shadow .pwrCap, u.reg .pwrCap)) = (0x7D0, Reg.reset .pwrCap) ∧
    (after (.apertureAccess 1 2 none {}) (mapped pageRo)).host.data = [2, 3] ∧
    Memory.byte (after (.apertureAccess 0 1 (some [9]) {}) (mapped pageRo)).mem 0x200000000000 = 1 ∧
    Memory.byte (after (.apertureAccess 0 1 (some [9]) {}) (mapped pageRw)).mem 0x200000000000 = 9 ∧
    (after (.apertureAccess 0x200000 1 none {}) (mapped pageRw)).gleaner.arriving.length = 1 ∧
    ((after (.mtgEntryWrite 0 9 5 0xFD00000000000000) (withEntries State.reset)).entry 0 9).tExp = 0xFD ∧
    ((after (.mtgEntryWrite 0 1 5 0xFD00000000000000) (withEntries State.reset)).entry 0 1).tExp = 0 := by decide +kernel

/-! ### Debug paths, input, management, reset and the register map -/

/-- Registers at given values. -/
def withRegs (rs : List (Reg × BitVec 64)) : State :=
  { State.reset with time := { gtc := 2000, actDue := false }, masks := [(3, 1)], regs := rs.foldl (fun m r => Tbl.insert m (Reg.offset r.1) r.2) [] }

/-- Premises of DebugPaths: a GO of each path while none is under way and while one is, a tile that exists and one that does not, an
offset that names a register and one that names none, the scan port enabled and not. -/
theorem test_debug_premises :
    State.reset.isRunning = true ∧ State.reset.debugMem = none ∧ Tbl.sorted (withRegs []).regs = true ∧ bits (0x80000000000063FF : BitVec 64) 0 15 < 25600 ∧
    25600 ≤ bits (0x8000000000006400 : BitVec 64) 0 15 ∧ Reg.ofOffset (Reg.offset (.sowerSeed 0)) = some (.sowerSeed 0) ∧ Reg.ofOffset 4 = none ∧
    ({ State.reset with sec := { fuses := { lifecycle := 0 } } } : State).portEn = true ∧ ({ State.reset with sec := { fuses := { lifecycle := 2 } } } : State).portEn = false := by
  decide +kernel

/-- R439, R487. -/
theorem test_debug :
    (let u := after (.debugMem 0x8000200000000000 {}) (withRegs []); (u.debugMem.isSome, u.sec.touched, u.sec.sramRead)) = (true, 8, true) ∧
    (let u := after (.debugHalt 0x8000000000000001) (withRegs []); (u.progs.length, u.sec.halt, u.sec.touched)) = (1, true, 8) ∧
    (after (.debugHalt 0x8000000000006400) (withRegs [])).sec.touched = 1 ∧
    (after (.debugForce (BitVec.ofNat 64 (2 ^ 63 + Reg.offset (.sowerSeed 0)))) (withRegs [(.dbgForceValue, 7)])).reg (.sowerSeed 0) = 7 ∧
    (after .debugScan { State.reset with sec := { fuses := { lifecycle := 0 } } }).sec.touched = 0xFFFF := by decide +kernel

/-- R440, R458 at their limits; R380, R473. -/
theorem test_input :
    ((after (.inputExcursion 39999) State.reset).gleaner.arriving.length, (after (.inputExcursion 40000) State.reset).gleaner.arriving.length,
      (after (.inputExcursion 50001) { State.reset with power := { excursion := true } }).gleaner.arriving.length) = (1, 0, 0) ∧
    (after (.inputExcursionEnd 50000) { State.reset with power := { excursion := true } }).power.excursion = false ∧
    ((after (.inputFail 37999) State.reset).boot.power, (after (.inputFail 38000) State.reset).boot.power, (after (.inputFail 53001) State.reset).boot.failCode) =
      (.held, .running, 8) ∧
    (after (.hostLinkTrain 8 3) State.reset).gleaner.arriving.length = 0 ∧ (after (.hostLinkTrain 4 3) State.reset).gleaner.arriving.length = 1 ∧
    (after .hostReset State.reset).host.up = false := by decide +kernel

/-- A held part, and one whose store request has been read. -/
def held : State := { State.reset with boot := { power := .held } }
def asking (r : StoreRequest) : State := { State.reset with sec := { request := some r, requestRead := true, storeCounter := some 4 } }

/-- Premises of ManagementPort: held and running, a cap at both limits, a lawful token and an unlawful one, an answer that is next and one that
is not. -/
theorem test_mgmt_premises :
    held.isRunning = false ∧ State.reset.isRunning = true ∧ (1000 : BitVec 16).toNat = 1000 ∧ Tbl.sorted State.reset.shadows = true ∧ Tbl.sorted State.reset.regs = true ∧
    State.reset.sec.fuses.lifecycle < 4 ∧ (asking (.write 0x100000)).sec.request = some (.write 0x100000) ∧ (asking .read).sec.requestRead = true := by decide +kernel

/-- R503 to R506, R426, R433. -/
theorem test_mgmt :
    ((after (.capWrite 999) State.reset).mgt, (after (.capWrite 2800) State.reset).mgt, (after (.capWrite 2801) State.reset).mgt, (after (.capWrite 1000) held).mgt) =
      ([1], [0], [1], [1]) ∧
    ((after (.regRead 0x4900000) held).mgt, (after (.regRead (Reg.offset .pwrCap)) held).mgt) = ([1], 0 :: List.replicate 8 0) ∧
    ((after (.flashWrite 0 [5]) held).flash, (after (.flashWrite 0 [5]) State.reset).mgt) = ([(0, some 5)], [1]) ∧
    ((after .hold State.reset).boot.failCode, (after .sleep State.reset).boot.power) = (10, .asleep) ∧
    (after (.rpsReply { counter := 5, bound := 0x100000 }) (asking (.write 0x100000))).sec.attLimit = 0x100000 ∧
    (after (.rpsReply { counter := 6, bound := 0x100000 }) (asking (.write 0x100000))).host.security = true := by decide +kernel

/-- A boot with the digest of a public key of zeros in the fuses and, in both slots of the flash, images of version 1 with that key, no body and the RB given. -/
def imaged (rbA : BitVec 8 := 0) : Boot :=
  let at_ (o : Nat) (rb : BitVec 8) : List (Nat × BitVec 8) := [(o, 0x52), (o + 1, 0x41), (o + 2, 0x46), (o + 3, 0x57), (o + 4, 1), (o + 8, rb), (o + 9, 1)]
  { blown := some { rbMin := 3 }, flash := at_ 0 rbA ++ at_ (2 ^ 20) 5 }

/-- Premises of ResetState: each step of boot that fails, in order, and none. -/
theorem test_reset_premises :
    held.isRunning = false ∧ State.reset.boot.outer = false ∧
    ([{ fuseOk := false }, { blown := some { lifecycle := 4 } }, {}, { imaged with railOk := false }, { imaged with bistOuter := some 26096 },
      { imaged with hbmFail := some 26002 }, { imaged with sheaves := (List.range 9).map fun m => (m, true, false) }, imaged].map fun (b : Boot) =>
        (after (.powerUpReset b) held).boot.failCode) = [2, 1, 3, 4, 5, 6, 7, 0] := by decide +kernel

/-- R429, R457, R462, R474: slot A has RB 2 below the floor 3, so slot B boots, raises EVT_FW_FALLBACK and, with ADVANCE, the floor;
host memory stays. -/
theorem test_reset :
    (let u := after (.powerUpReset (imaged 2)) held; (u.gleaner.arriving.map Event.code, u.boot.slot, u.sec.fuses.rbMin)) = ([1], 2, 5) ∧
    (after (.powerUpReset (imaged 4)) held).boot.slot = 1 ∧
    (after (.powerUpReset {}) { held with mem := [(0x100000000000, 1), (0x800000000000, 2)] }).mem = [(0x800000000000, 2)] ∧
    after (.powerUpReset {}) State.reset = State.reset := by decide +kernel

/-- R489: offsets at the first and the last register of their windows. -/
theorem test_registers :
    ([Reg.apt 8191, .group1 15 255, .mtgWord 399 255 0, .seqBudget 25599].all fun r => r.exists_ && decide (Reg.ofOffset r.offset = some r)) = true ∧
    Reg.exists_ (.apt 8192) = false := by decide +kernel

/-- A step from a state whose memory is canonical. -/
theorem test_canonical : memoryOk State.reset = true ∧ memoryOk { State.reset with mem := [(1, 0)] } = false ∧
    (match step { moving with pending := [.moveComplete 0 0 {}] } with | .next t => memoryOk t | _ => false) = true := by decide +kernel

end Sys2Proof.Tests
end

section
/-!
SUPPORT. The scalar, predicate, address and descriptor instructions of a tile (R258 to R262): each result of the model in the
words of the statements, what each instruction does to its tile, and the statements that it does this and nothing else.
-/

namespace Sys2Proof.Laws

open Sys2Proof.Machine Sys2Proof.Safety

/-! ### Results of ALU and ALUI (R258) -/

/-- The immediate of format I is the word's low half. -/
theorem imm32_eq_extractLsb' (w : BitVec 64) : imm32 w = w.extractLsb' 0 32 := imm32_eq w

/-- The upper half of an unsigned product. -/
theorem mulhu_eq (x y : BitVec 32) :
    BitVec.ofNat 32 (x.toNat * y.toNat / 2 ^ 32) = ((x.setWidth 64 * y.setWidth 64) >>> 32).setWidth 32 := by
  have hxy : x.toNat * y.toNat < 2 ^ 64 := Nat.mul_lt_mul'' (c := 2 ^ 32) (d := 2 ^ 32) x.isLt y.isLt
  apply BitVec.eq_of_toNat_eq
  rw [BitVec.toNat_setWidth, BitVec.toNat_ushiftRight, BitVec.toNat_mul, BitVec.toNat_setWidth_of_le (by decide),
    BitVec.toNat_setWidth_of_le (by decide), Nat.mod_eq_of_lt hxy, BitVec.toNat_ofNat, Nat.shiftRight_eq_div_pow]

/-- A shift by the second operand modulo 32 is one by its bits [4:0]. -/
theorem toNat_mod_32_eq (y : BitVec 32) : y.toNat % 32 = (y.extractLsb' 0 5).toNat := by simp

/-- The signed choice of MIN and MAX: at a tie there is one value to choose. -/
theorem ite_toInt_le_eq_ite_slt {x y u v : BitVec 32} (huv : x = y → u = v) :
    (if x.toInt ≤ y.toInt then u else v) = if x.slt y then u else v := by
  by_cases h : x = y
  · rw [huv h, ite_self, ite_self]
  · simp only [le_iff_lt_or_eq, BitVec.toInt_inj, h, or_false, BitVec.slt, decide_eq_true_eq]

/-- The unsigned choice of MINU and MAXU. -/
theorem ite_toNat_le_eq_ite_ult {x y u v : BitVec 32} (huv : x = y → u = v) :
    (if x.toNat ≤ y.toNat then u else v) = if x.ult y then u else v := by
  by_cases h : x = y
  · rw [huv h, ite_self, ite_self]
  · simp only [le_iff_lt_or_eq, BitVec.toNat_inj, h, or_false, BitVec.ult, decide_eq_true_eq]

/-- Every function of ALU but SEL has the result of R258. -/
theorem aluResult_eq : ∀ p ∈ aluTable, ∀ x y sel, aluResult p.1 x y sel = p.2 x y := by
  simp only [aluTable, List.forall_mem_cons]
  exact ⟨fun _ _ _ => rfl, fun _ _ _ => rfl, fun _ _ _ => rfl, fun x y _ => mulhu_eq x y,
    fun _ _ _ => rfl, fun _ _ _ => rfl, fun _ _ _ => rfl,
    fun x y _ => congrArg (x <<< ·) (toNat_mod_32_eq y), fun x y _ => congrArg (x >>> ·) (toNat_mod_32_eq y),
    fun x y _ => congrArg x.sshiftRight (toNat_mod_32_eq y),
    fun _ _ _ => ite_toInt_le_eq_ite_slt id, fun _ _ _ => ite_toInt_le_eq_ite_slt Eq.symm,
    fun _ _ _ => ite_toNat_le_eq_ite_ult id, fun _ _ _ => ite_toNat_le_eq_ite_ult Eq.symm, nofun⟩

/-! ### Results of CMP, CMPI and PRED (R259, R260) -/

/-- Every condition of CMP is that of R259. -/
theorem cmpResult_eq : ∀ p ∈ cmpTable, ∀ x y, cmpResult p.1 x y = p.2 x y := by
  simp only [cmpTable, List.forall_mem_cons]
  exact ⟨fun _ _ => rfl, fun _ _ => decide_not, fun _ _ => rfl, fun _ _ => rfl,
    fun x y => by rw [BitVec.slt, ← decide_not]; simp only [cmpResult, not_lt],
    fun x y => by rw [BitVec.ult, ← decide_not]; simp only [cmpResult, not_lt], nofun⟩

/-- Every function of PRED but PSET is that of R260. -/
theorem predResult_eq : ∀ p ∈ predTable, ∀ a b imm, predResult p.1 a b imm = p.2 a b := by
  simp only [predTable, List.forall_mem_cons]
  exact ⟨fun _ _ _ => rfl, fun _ _ _ => rfl, fun _ _ _ => rfl, fun _ _ _ => rfl, fun _ _ _ => rfl, nofun⟩

/-! ### Results of AOP (R261) -/

/-- Bits [15:0] of one s register above another. -/
theorem ofNat_high_add_low (x y : BitVec 32) :
    BitVec.ofNat 48 (y.toNat % 2 ^ 16 * 2 ^ 32 + x.toNat) = y.extractLsb' 0 16 ++ x := by
  have hx := x.isLt
  apply BitVec.eq_of_toNat_eq
  rw [BitVec.toNat_append, ← Nat.shiftLeft_add_eq_or_of_lt hx, Nat.shiftLeft_eq, BitVec.extractLsb'_toNat, Nat.shiftRight_zero,
    BitVec.toNat_ofNat]
  omega

/-- The product of an index and an immediate, modulo 2^48. -/
theorem ofNat_mul_imm24 (w : BitVec 64) (y : BitVec 32) :
    BitVec.ofNat 48 (y.toNat * imm24 w) = y.setWidth 48 * (w.extractLsb' 0 24).setWidth 48 := by
  have hlt : imm24 w < 2 ^ 24 := Nat.mod_lt _ (by decide)
  rw [BitVec.ofNat_mul, BitVec.ofNat_toNat, ← ofNat_bits, ← imm24, BitVec.setWidth_ofNat_of_le_of_lt (by decide) hlt]

/-- Bits [47:32] of an a register. -/
theorem ofNat_high (a : BitVec 48) : BitVec.ofNat 32 (a.toNat / 2 ^ 32) = (a.extractLsb' 32 16).setWidth 32 := by
  have ha := a.isLt
  apply BitVec.eq_of_toNat_eq
  rw [BitVec.toNat_setWidth, BitVec.extractLsb'_toNat, Nat.shiftRight_eq_div_pow, BitVec.toNat_ofNat]
  omega

/-- AOP with a function of the table writes aD. -/
theorem aopBody_of_mem_aopTable (n : Nat) (s : State) (t : Tile) (w : BitVec 64) : ∀ p ∈ aopTable, fF w = p.1 →
    aopBody n s t w = .retire (s.modTile n fun x => x.setA (fD w) (p.2 (t.a (fA w)) (t.s (fA w)) (t.s (fB w)))) 1 none := by
  simp only [aopTable, List.forall_mem_cons]
  refine ⟨fun h => ?_, fun h => ?_, fun h => ?_, fun h => ?_, nofun⟩ <;> simp only [aopBody, h]
  · rw [sext_toNat]
  · rw [BitVec.ofNat_toNat]
  · rw [ofNat_high_add_low]

/-! ### What a register write does to its tile -/

/-- A predicate written leaves the sequencer's state. -/
theorem setP_seqState (t : Tile) (i : Nat) (b : Bool) : (t.setP i b).seqState = t.seqState := by
  unfold Tile.setP; split <;> rfl

/-- So does an s register written, late or not. -/
theorem aluWrite_seqState (t : Tile) (c : Prop) [Decidable c] (r at_ : Nat) (v : BitVec 32) :
    (let x := t.setS r v; if c then x.landAt r at_ else x).seqState = t.seqState := by
  dsimp only; split <;> rfl

/-- An s register written by ALU or ALUI lands after the latency of the function (R249). -/
theorem writeS_aluLatency (s : State) (n r f : Nat) (v : BitVec 32) :
    s.writeS n r v (aluLatency f) =
      s.setTile n (let x := (s.tile n).setS r v; if f = 2 ∨ f = 3 then x.landAt r (s.now + 3) else x) := by
  unfold State.writeS aluLatency State.modTile
  split <;> rfl

/-- An instruction whose body changes its tile by `g`, from the tile's registers as they were, writes its tile so. -/
theorem writesTile_of_modTile {i : Nat → Instr} {op : Nat} {which : BitVec 64 → Prop} {f : BitVec 64 → Nat → Tile → Tile}
    (g : BitVec 64 → Tile → Tile → Tile)
    (hx : ∀ n s, exec (i n) s = .next (s.issue n op fun s t w => .retire (s.modTile n (g w t)) 1 none)) (hop : op ≠ 2)
    (hf : ∀ w k t, (f w k t).seqState = t.seqState) (hg : ∀ w k t, which w → g w t t = f w k t) : WritesTile i op which f :=
  writesTile_of _ hx hop (fun w k t h => (hf w k t).trans h) fun n s w hw _ _ => by rw [← hg w s.now _ hw]; rfl

/-- An instruction whose body writes pD writes it and nothing else, p0 staying as it is (R224). -/
theorem writesTile_setP {i : Nat → Instr} {op : Nat} {which : BitVec 64 → Prop} (v : BitVec 64 → Tile → Bool)
    {v' : BitVec 64 → Tile → Bool}
    (hx : ∀ n s, exec (i n) s = .next (s.issue n op fun s t w => .retire (s.modTile n fun x => x.setP (fD w) (v w t)) 1 none))
    (hop : op ≠ 2) (hv : ∀ w t, which w → v w t = v' w t) :
    WritesTile i op which fun w _ t => if fD w = 0 then t else { t with preds := withBit t.preds (fD w) (v' w t) } :=
  writesTile_of_modTile _ hx hop (fun w _ t => setP_seqState t (fD w) (v' w t)) fun w _ t hw => by rw [hv w t hw]; rfl

/-- AOP with a function whose line of the body changes the tile by `f` writes its tile so. -/
theorem aop_writesTile {which : BitVec 64 → Prop} {f : BitVec 64 → Nat → Tile → Tile}
    (hf : ∀ w k t, (f w k t).seqState = t.seqState)
    (hb : ∀ n s w, which w → aopBody n s (s.tile n) w = .retire (s.setTile n (f w s.now (s.tile n))) 1 none) :
    WritesTile .aop 0x18 which f :=
  writesTile_of aopBody (fun _ _ => rfl) (by decide) (fun w k t h => (hf w k t).trans h) fun n s w hw _ _ => hb n s w hw

/-! ### The statements -/

/-- Settles O2: every function's result is that of R258, and the body only writes sD, which lands late for MUL and MULHU. -/
theorem aluWritesItsResult : Obligations.AluWritesItsResult := by
  refine ⟨fun p hp => ?_, ?_, fun p hp => ?_, ?_, fun w ho hf => ?_, fun w ho hf => ?_⟩
  · refine writesTile_of aluBody (fun _ _ => rfl) (by decide) (fun w k t h => (aluWrite_seqState t _ _ _ _).trans h)
      fun n s w hw _ _ => ?_
    rw [aluBody, hw, aluResult_eq p hp, writeS_aluLatency]
  · refine writesTile_of aluBody (fun _ _ => rfl) (by decide) (fun _ _ _ h => h) fun n s w hw _ _ => ?_
    rw [aluBody, hw, writeS_aluLatency]; rfl
  · refine writesTile_of aluiBody (fun _ _ => rfl) (by decide) (fun w k t h => (aluWrite_seqState t _ _ _ _).trans h)
      fun n s w hw _ _ => ?_
    rw [aluiBody, hw, aluResult_eq p hp, writeS_aluLatency, imm32_eq_extractLsb']
  · exact writesTile_of_modTile (fun w _ x => x.setS (fD w) (imm32 w)) (fun _ _ => rfl) (by decide) (fun _ _ _ => rfl)
      fun w _ t _ => by rw [imm32_eq_extractLsb']
  · simp only [legalWord, ho, aluLegal, Bool.and_eq_false_iff]
    exact .inl (decide_eq_false (by omega))
  · simp only [legalWord, ho, aluLegal]
    exact decide_eq_false (by omega)

/-- Settles O3: every condition's and every function's result is that of R259 and R260, and the body only writes pD. -/
theorem predicateWrites : Obligations.PredicateWrites := by
  refine ⟨⟨fun p hp => ?_, fun p hp => ?_, fun w ho hf => ?_, fun w ho hf => ?_⟩, fun p hp => ?_, ?_, fun w ho hf => ?_⟩
  · exact writesTile_setP (fun w t => cmpResult (fF w) (t.s (fA w)) (t.s (fB w))) (fun _ _ => rfl) (by decide)
      fun w t hw => by rw [hw, cmpResult_eq p hp]
  · exact writesTile_setP (fun w t => cmpResult (fF10 w) (t.s (fA w)) (imm32 w)) (fun _ _ => rfl) (by decide)
      fun w t hw => by rw [hw, cmpResult_eq p hp, imm32_eq_extractLsb']
  · simp [legalWord, ho, Nat.not_le.2 hf]
  · simp [legalWord, ho, Nat.not_le.2 hf]
  · exact writesTile_setP (fun w t => predResult (fF w) (t.p (fA w)) (t.p (fB w)) (bit w 0)) (fun _ _ => rfl) (by decide)
      fun w t hw => by rw [hw, predResult_eq p hp]
  · exact writesTile_setP (fun w t => predResult (fF w) (t.p (fA w)) (t.p (fB w)) (bit w 0)) (fun _ _ => rfl) (by decide)
      fun w t hw => by rw [hw]; rfl
  · simp [legalWord, ho, Nat.not_le.2 hf]

/-- Settles O4: each function of AOP by its own line of the body, the other instructions by their one register write. -/
theorem addressAndDescriptorWrites : Obligations.AddressAndDescriptorWrites := by
  refine ⟨⟨fun p hp => ?_, ?_, ?_, ?_, ?_, ?_, fun w ho hf => ?_⟩, ?_, ?_, fun w ho hf => ?_⟩
  · exact aop_writesTile (fun _ _ _ => rfl) fun n s w hw => aopBody_of_mem_aopTable n s _ w p hp hw
  · refine aop_writesTile (fun _ _ _ => rfl) fun n s w hw => ?_
    simp only [aopBody, hw, ofNat_mul_imm24]; rfl
  · refine aop_writesTile (fun _ _ _ => rfl) fun n s w hw => ?_
    simp only [aopBody, hw, BitVec.ofNat_toNat]; rfl
  · refine aop_writesTile (fun _ _ _ => rfl) fun n s w hw => ?_
    simp only [aopBody, hw, ofNat_high]; rfl
  · exact writesTile_of_modTile (fun w _ x => x.setA (bits w 48 4) (BitVec.ofNat 48 (bits w 0 48))) (fun _ _ => rfl) (by decide)
      (fun _ _ _ => rfl) fun w _ t _ => by rw [ofNat_bits]
  · exact writesTile_of_modTile (fun w t x => x.setA (fD w) (t.a (fA w) + sext 48 32 (imm32 w).toNat)) (fun _ _ => rfl) (by decide)
      (fun _ _ _ => rfl) fun w _ t _ => by rw [sext_toNat, imm32_eq_extractLsb']
  · simp only [legalWord, ho]
    split
    case h_8 => rfl
    all_goals omega
  · exact writesTile_of_modTile (fun w t x => x.setT (fD w) (tsetField (fF w) (t.t (fD w)) (t.a (fA w)) (t.s (fA w)))) (fun _ _ => rfl)
      (by decide) (fun _ _ _ => rfl) fun w _ t _ => rfl
  · exact writesTile_of_modTile (fun w t x => x.setT (fD w) (taddResult (t.t (fD w)) (t.s (fA w)) (t.s (fB w)))) (fun _ _ => rfl)
      (by decide) (fun _ _ _ => rfl) fun _ _ _ _ => rfl
  · simp [legalWord, ho, Nat.not_le.2 hf]

end Sys2Proof.Laws
end

section
/-!
SUPPORT. The Martingale instructions MOPEN, MCLOSE and MVERD of a tile (R284, R285): when each of them waits, what an open and
a close do to the state, and the statement that this is all they do.
-/

namespace Sys2Proof.Laws

open Sys2Proof.Machine Sys2Proof.Safety

/-! ### A unit that does not accept -/

/-- An instruction whose guard holds and which its unit does not accept leaves the state as it is (R249). -/
theorem issueWhen_of_not_ready {s : State} {n op unit at_ : Nat} {w : BitVec 64}
    (ready : State → Tile → BitVec 64 → Option Nat) (body : State → Tile → BitVec 64 → Issued)
    (h : Issues s n op unit w at_) (hr : ready s (s.tile n) w = none) : s.issueWhen n op ready body = s := by
  obtain ⟨l, hl, -⟩ := h.landed
  simp [State.issueWhen, h.word, h.guard, hl, hr]

/-! ### The forms of Safety for a unit whose readiness depends on the tile's number -/

section
variable {i : Nat → Instr} {op aclk : Nat} {ready : State → Nat → BitVec 64 → Nat → Prop} {ok : State → Nat → BitVec 64 → Prop}
  {f : State → Nat → BitVec 64 → State} {fault : State → Nat → BitVec 64 → Option (Nat × Nat)} {busy : State → Nat → BitVec 64 → Prop}
  (rd : Nat → State → Tile → BitVec 64 → Option Nat) (body : Nat → State → Tile → BitVec 64 → Issued)
  (hx : ∀ n s, exec (i n) s = .next (s.issueWhen n op (rd n) (body n)))
include hx

/-- `does_of` for such a unit: under its conditions, the body retires with `f`. -/
theorem does_of_readyAt (hop : op ≠ 2) (hr : ∀ s n u w, ready s n w u → rd n s (s.tile n) w = some u)
    (hb : ∀ u n w, ok u n w → body n u (u.tile n) w = .retire (f u n w) aclk none) : Does i op aclk ready ok f := by
  intro s n unit w at_ pc loops hready h hok ha
  have hbody := hb (s.advanceTo at_) n w hok
  rw [State.tile_advanceTo] at hbody
  rw [hx, issueWhen_retires (rd n) (body n) h (hr _ _ _ _ hready) (badBranch_false (by rw [h.opcode]; exact hop)) ha hbody]

/-- `faults_of` for such a unit: where `fault` names a cause, the body faults with it. -/
theorem faults_of_readyAt (hop : op ≠ 2) (hr : ∀ s n u w, ready s n w u → rd n s (s.tile n) w = some u)
    (hb : ∀ u n w c d, fault u n w = some (c, d) → body n u (u.tile n) w = .fault c d) : FaultsWith i op ready fault := by
  intro s n unit w at_ c d hready h hf
  have hbody := hb (s.advanceTo at_) n w c d hf
  rw [State.tile_advanceTo] at hbody
  rw [hx, issueWhen_of_issues (rd n) (body n) h (hr _ _ _ _ hready) (badBranch_false (by rw [h.opcode]; exact hop)), hbody]
  rfl

/-- `StallsOn` from one fact about the unit: while busy, it does not accept. -/
theorem stalls_of_not_ready (hr : ∀ s n w at_, busy (s.advanceTo at_) n w → rd n s (s.tile n) w = none) : StallsOn i op busy := by
  intro s n w at_ h hb
  rw [hx, issueWhen_of_not_ready (rd n) (body n) h (hr s n w at_ hb)]

end

/-! ### What does not change as time moves on, and what does not move time -/

@[simp] theorem entry_advanceTo (s : State) (t m e : Nat) : (s.advanceTo t).entry m e = s.entry m e := by
  simp [State.entry]

@[simp] theorem countAbandoned_time (s : State) (m e k : Nat) : (s.countAbandoned m e k).time = s.time := by
  unfold State.countAbandoned; split <;> rfl

/-- Updates that each leave the time leave it together. -/
theorem foldl_time {α : Type} {f : State → α → State} (hf : ∀ s x, (f s x).time = s.time) (l : List α) (s : State) :
    (l.foldl f s).time = s.time := by
  induction l generalizing s with
  | nil => rfl
  | cons x l ih => rw [List.foldl_cons, ih, hf]

@[simp] theorem abandonRepeats_time (s : State) (n : Nat) (p : Nat → Bool) : (s.abandonRepeats n p).time = s.time := by
  simp only [State.abandonRepeats, State.modTile_time]
  exact foldl_time (fun s o => countAbandoned_time s _ _ _) _ s

/-! ### MOPEN -/

theorem exec_mopen (n : Nat) (s : State) :
    exec (.mopen n) s = .next (s.issueWhen n 0x48 (mopenReady (n / 64)) (mopenBody n)) := rfl

/-- The drain fence (R149): no FWA product and no drain of any unit is outstanding in the tile. -/
def DrainFence (t : Tile) : Prop := t.fwa = [] ∧ (∀ o ∈ t.bwa, o.kind ≠ .bdr) ∧ ∀ o ∈ t.chaff, o.kind ≠ .cdr

theorem fenced_iff (t : Tile) : t.fenced = true ↔ DrainFence t := by
  simp [Tile.fenced, DrainFence, and_assoc]

/-- MOPEN is accepted at any time once the fence holds and no close of its entry is being evaluated. -/
theorem mopenReady_of_fence (s : State) (n unit : Nat) (w : BitVec 64)
    (h : DrainFence (s.tile n) ∧ (s.entry (n / 64) (bits w 0 8)).evaluating = none ∧ unit = 0) :
    mopenReady (n / 64) s (s.tile n) w = some unit := by
  obtain ⟨hf, he, rfl⟩ := h
  simp [mopenReady, entryImm, (fenced_iff _).2 hf, he]

/-- MOPEN is not accepted without the fence, nor while a close of its entry is being evaluated. -/
theorem mopenReady_eq_none {m : Nat} {s : State} {t : Tile} {w : BitVec 64}
    (h : ¬ DrainFence t ∨ (s.entry m (bits w 0 8)).evaluating.isSome = true) : mopenReady m s t w = none := by
  refine if_neg fun hr => ?_
  obtain ⟨hf, he⟩ := Bool.and_eq_true_iff.1 hr
  rcases h with h | h
  · exact h ((fenced_iff t).1 hf)
  · exact absurd (Option.isNone_iff_eq_none.1 he) (Option.isSome_iff_ne_none.1 h)

/-- MOPEN of an entry with a kind that is not malformed opens it. -/
theorem mopenBody_of_good {n : Nat} {s : State} {t : Tile} {w : BitVec 64}
    (hk : bits (s.entry (n / 64) (bits w 0 8)).ctl 18 2 ≠ 0) (hm : (s.entry (n / 64) (bits w 0 8)).malformed = false) :
    mopenBody n s t w = .retire (s.openEntry (n / 64) (bits w 0 8) (s.tilePhase n)) 4 none := by
  simp [mopenBody, entryImm, MtgEntry.kind, hk, hm]

/-- MOPEN of an entry of kind NONE or of a malformed one faults. -/
theorem mopenBody_of_bad {n : Nat} {s : State} {t : Tile} {w : BitVec 64}
    (h : bits (s.entry (n / 64) (bits w 0 8)).ctl 18 2 = 0 ∨ (s.entry (n / 64) (bits w 0 8)).malformed = true) :
    mopenBody n s t w = .fault 0x14 0 :=
  if_pos (by rwa [Bool.or_eq_true, decide_eq_true_eq])

/-- An open entry is joined: nothing changes (R110). -/
theorem openEntry_of_open {s : State} {m e : Nat} (phase : Phase) (h : (s.entry m e).isOpen = true) :
    s.openEntry m e phase = s := if_pos h

/-- A closed entry opens, and the products of the sheaf's tiles under it count from 0 (R110, R127). -/
theorem openEntry_of_closed {s : State} {m e : Nat} (phase : Phase) (h : (s.entry m e).isOpen = false) :
    s.openEntry m e phase = (tilesOfSheaf m).foldl
      (fun u k => u.modTile k fun t => { t with sampleIdx := Tbl.put 0 t.sampleIdx e 0 })
      (s.modEntry m e fun x => s.keepWritten m e x (x.openWindow (x.installs phase))) :=
  if_neg (by simp [h])

/-- The new window of an entry, with the choice of what is in force made per field. -/
theorem openWindow_eq (x : MtgEntry) (b : Bool) :
    x.openWindow b = { x with
      tExp := if b then x.nextT else x.tExp, rung := if b then x.rungToInstall else x.rung, isOpen := true,
      sat := 0, zero := 0, ovfl := 0, zrange := 0, satb := 0, zerob := 0, nonfin := 0, lastAmax := 0, lastMinblk := 0,
      samples := 0, elems := 0, exceed := 0, maxrel := 0, abandoned := 0, intra := 0, zeroed := 0, converted := false,
      wroteTrouble := false, inPart := x.part && decide (x.kind ≠ 0) } := by
  cases b <;> rfl

/-! ### MCLOSE -/

/-- A conversion or a drain of a tile of sheaf `m` that was accepted before `at_` and feeds entry `e` is outstanding (R284). -/
def EntryFed (s : State) (m e at_ : Nat) : Prop :=
  ∃ k ∈ tilesOfSheaf m, ((s.tile k).hame.any (fun o => o.feeds e at_) || (s.tile k).fwa.any (fun o => o.feeds e at_) ||
    (s.tile k).bwa.any (fun o => o.feedsGrad e at_)) = true

/-- MCLOSE of an open entry that is fed is not accepted. -/
theorem mcloseReady_eq_none {m : Nat} {s : State} {t : Tile} {w : BitVec 64} (ho : (s.entry m (bits w 0 8)).isOpen = true)
    (hf : EntryFed s m (bits w 0 8) t.nextIssue) : mcloseReady m s t w = none := by
  simp only [mcloseReady, entryImm, ho, Bool.not_true, Bool.false_eq_true, if_false]
  exact if_pos (List.any_eq_true.2 hf)

/-- MCLOSE of a closed entry, and of one that is not fed, is accepted at any time. -/
theorem mcloseReady_eq_some {m : Nat} {s : State} {t : Tile} {w : BitVec 64}
    (h : (s.entry m (bits w 0 8)).isOpen = true → ¬ EntryFed s m (bits w 0 8) t.nextIssue) : mcloseReady m s t w = some 0 := by
  unfold mcloseReady entryImm
  cases ho : (s.entry m (bits w 0 8)).isOpen with
  | false => simp only [ho, Bool.not_false, if_true]
  | true =>
    simp only [ho, Bool.not_true, Bool.false_eq_true, if_false]
    exact if_neg fun hf => h ho (List.any_eq_true.1 hf)

/-- A close discards the sheaf's repeats under the entry, and the evaluation counts from the time of the close (R284). -/
theorem closeEntry_eq (s : State) (m e : Nat) (phase : Phase) :
    s.closeEntry m e phase = ((tilesOfSheaf m).foldl (fun v k => v.abandonRepeats k fun x => decide (x = e)) s).modEntry m e
      fun x => { x with isOpen := false, evaluating := some (phase, s.now) } := by
  simp only [State.closeEntry, State.now, foldl_time fun s k => abandonRepeats_time s k _]

/-- A close takes no time of its own. -/
theorem closeEntry_now (s : State) (m e : Nat) (phase : Phase) : (s.closeEntry m e phase).now = s.now := by
  simp only [State.closeEntry, State.now, State.modEntry_time, foldl_time fun s k => abandonRepeats_time s k _]

/-- An MCLOSE that is accepted closes its entry if that is open. -/
theorem exec_mclose {s : State} {n at_ : Nat} {w : BitVec 64} {pc : BitVec 11} {loops : List LoopLevel}
    (h : Issues s n 0x49 0 w at_) (ha : (s.tile n).after none = some (pc, loops))
    (hr : (s.entry (n / 64) (bits w 0 8)).isOpen = true → ¬ EntryFed s (n / 64) (bits w 0 8) (s.tile n).nextIssue) :
    exec (.mclose n) s = .next (
      let u := s.advanceTo at_
      let v := if (s.entry (n / 64) (bits w 0 8)).isOpen then u.closeEntry (n / 64) (bits w 0 8) (u.tilePhase n) else u
      v.setTile n (goOn (v.tile n) pc loops (v.now + 1))) :=
  congrArg _ (issueWhen_retires (mcloseReady (n / 64)) (mcloseBody n) h (mcloseReady_eq_some hr)
    (badBranch_false (by rw [h.opcode]; decide)) ha (by rw [mcloseBody, entry_advanceTo]; rfl))

/-! ### MVERD -/

theorem exec_mverd (n : Nat) (s : State) :
    exec (.mverd n) s = .next (s.issueWhen n 0x4A (mverdReady (n / 64)) (mverdBody n)) := rfl

/-- MVERD is accepted at any time but while a close of its entry is being evaluated (R285). -/
theorem mverdReady_eq (m : Nat) (s : State) (t : Tile) (w : BitVec 64) :
    mverdReady m s t w = if (s.entry m (bits w 0 8)).evaluating.isNone then some 0 else none := rfl

/-! ### The statement -/

/-- Settles O23: each instruction waits for exactly what its readiness names, and its body is the open, the close or the register
write of the statement. -/
theorem martingaleInstructions : Obligations.MartingaleInstructions := by
  refine ⟨⟨?_, ?_, ?_, ?_⟩, ?_, ?_, ?_⟩
  · refine does_of_readyAt _ _ exec_mopen (by decide) mopenReady_of_fence fun u n w hok => ?_
    obtain ⟨⟨hk, hm⟩, ho⟩ := hok
    rw [mopenBody_of_good hk hm, openEntry_of_open _ ho]
  · refine does_of_readyAt _ _ exec_mopen (by decide) mopenReady_of_fence fun u n w hok => ?_
    obtain ⟨⟨hk, hm⟩, ho⟩ := hok
    rw [mopenBody_of_good hk hm, openEntry_of_closed _ ho]
    simp only [openWindow_eq]
    rfl
  · refine faults_of_readyAt _ _ exec_mopen (by decide) mopenReady_of_fence fun u n w c d hf => ?_
    obtain ⟨hbad, hcd⟩ := Option.ite_none_right_eq_some.1 hf
    cases hcd
    exact mopenBody_of_bad hbad
  · exact stalls_of_not_ready _ _ exec_mopen fun s n w at_ hb =>
      mopenReady_eq_none (by rwa [State.tile_advanceTo, entry_advanceTo] at hb)
  · intro s n w at_ pc loops h ha m e u busy
    refine ⟨fun ho => ?_, fun ho hb => ?_, fun ho hb => ?_⟩
    · rw [exec_mclose h ha fun ho' => absurd (ho.symm.trans ho') (by decide), ho]
      simp only [Bool.false_eq_true, if_false, State.tile_advanceTo]
      rfl
    · rw [exec_mclose h ha fun _ => hb, ho]
      simp only [if_true, closeEntry_now]
      rw [closeEntry_eq]
    · exact congrArg _ (issueWhen_of_not_ready _ (mcloseBody n) h (mcloseReady_eq_none ho hb))
  · refine does_of_readyAt _ _ exec_mverd (by decide) ?_ fun _ _ _ _ => rfl
    rintro s n _ w ⟨he, rfl⟩
    rw [mverdReady_eq, he]; rfl
  · refine stalls_of_not_ready _ _ exec_mverd fun s n w at_ hb => ?_
    rw [entry_advanceTo] at hb
    rw [mverdReady_eq, if_neg (by simpa using Option.isSome_iff_ne_none.1 hb)]

end Sys2Proof.Laws
end

section
/-!
SUPPORT. The Sower function under one key (R215): each word operation, each round and the final key addition can be undone, so
distinct counters give distinct outputs.
-/

namespace Sys2Proof.Laws

open Sys2Proof.Machine Sys2Proof.Safety

/-! ### The Sower is injective in its counter (R215, R216) -/

/-- A bit of a word is found again, `k` places up, in its rotation. -/
theorem getLsbD_rotl32 (v : BitVec 32) {k i : Nat} (hk : k < 32) (hi : i < 32) :
    (rotl32 v k).getLsbD ((i + k) % 32) = v.getLsbD i := by
  rw [show rotl32 v k = v.rotateLeft k by rw [BitVec.rotateLeft_def, Nat.mod_eq_of_lt hk]; rfl, BitVec.getLsbD_rotateLeft,
    Nat.mod_eq_of_lt hk]
  rcases Nat.lt_or_ge (i + k) 32 with h | h
  · rw [Nat.mod_eq_of_lt h, decide_eq_false (by omega), decide_eq_true h, cond_false, Bool.true_and, Nat.add_sub_cancel]
  · rw [show (i + k) % 32 = i + k - 32 by omega, decide_eq_true (by omega), cond_true]
    congr 1; omega

/-- A rotation can be undone. -/
theorem rotl32_injective {k : Nat} (hk : k < 32) : Function.Injective (rotl32 · k) := by
  intro v w h
  refine BitVec.eq_of_getLsbD_eq fun i hi => ?_
  rw [← getLsbD_rotl32 v hk hi, ← getLsbD_rotl32 w hk hi]
  exact congrArg (BitVec.getLsbD · _) h

/-- Two states of the rounds with the same four words are the same. -/
theorem sowerX_ext {x y : SowerX} (h0 : x.x0 = y.x0) (h1 : x.x1 = y.x1) (h2 : x.x2 = y.x2) (h3 : x.x3 = y.x3) : x = y := by
  obtain ⟨⟩ := x
  congr

/-- A round can be undone: its last word is x0 + x1, its third the rotated x3, its second x2 plus that, its first the rotated x1. -/
theorem sowerRound_injective (key : BitVec 128) (r : Nat) : Function.Injective (sowerRound key r) := by
  intro x y h
  simp only [sowerRound, SowerX.mk.injEq, BitVec.add_left_inj] at h
  obtain ⟨h0, h1, h2, h3⟩ := h
  have e2 : x.x2 = y.x2 := by rw [h2] at h1; exact (BitVec.add_left_inj _).1 h1
  have e1 : x.x1 = y.x1 := by
    have := rotl32_injective (k := 7) (by decide) h0
    rw [h1] at this
    exact (BitVec.xor_left_inj _).1 this
  have e3 : x.x3 = y.x3 := by
    have := rotl32_injective (k := 16) (by decide) h2
    rw [h3] at this
    exact (BitVec.xor_left_inj _).1 this
  have e0 : x.x0 = y.x0 := by rw [e1] at h3; exact (BitVec.add_left_inj _).1 h3
  exact sowerX_ext e0 e1 e2 e3

/-- Any rounds can be undone. -/
theorem foldl_sowerRound_injective (key : BitVec 128) (l : List Nat) :
    Function.Injective fun x => l.foldl (fun x r => sowerRound key r x) x := by
  induction l with
  | nil => exact Function.injective_id
  | cons r l ih => exact ih.comp (sowerRound_injective key r)

/-- A counter is its four words. -/
theorem eq_of_word32_eq {c d : BitVec 128} (h : ∀ j < 4, word32 c j = word32 d j) : c = d := by
  refine BitVec.eq_of_getLsbD_eq fun i hi => ?_
  have hw := congrArg (BitVec.getLsbD · (i % 32)) (h (i / 32) (by omega))
  simp only [word32, ofNat_bits, BitVec.getLsbD_extractLsb', Nat.mod_lt i (show 32 > 0 by decide), decide_true, Bool.true_and] at hw
  rwa [Nat.div_add_mod] at hw

/-- Words joined are equal when each word is. -/
theorem append_inj {v w : Nat} {a b : BitVec v} {x y : BitVec w} (h : a ++ x = b ++ y) : a = b ∧ x = y := by
  have hx : x = y := by
    have he := congrArg (BitVec.extractLsb' 0 w) h
    rwa [BitVec.extractLsb'_append_eq_right, BitVec.extractLsb'_append_eq_right] at he
  subst hx
  exact ⟨(BitVec.append_left_inj x).1 h, rfl⟩

/-- Settles O29: the key additions before and after the rounds, and the rounds, can each be undone. -/
theorem sowerNeverRepeats : Obligations.SowerNeverRepeats := by
  intro key c d h
  have hx : sowerRounds key c = sowerRounds key d := by
    obtain ⟨h321, h0⟩ := append_inj h
    obtain ⟨h32, h1⟩ := append_inj h321
    obtain ⟨h3, h2⟩ := append_inj h32
    exact sowerX_ext ((BitVec.add_left_inj _).1 h0) ((BitVec.add_left_inj _).1 h1) ((BitVec.add_left_inj _).1 h2)
      ((BitVec.add_left_inj _).1 h3)
  have hw := foldl_sowerRound_injective key (List.range 10) hx
  simp only [SowerX.mk.injEq, BitVec.add_left_inj] at hw
  obtain ⟨h0, h1, h2, h3⟩ := hw
  refine eq_of_word32_eq fun j hj => ?_
  interval_cases j <;> assumption

end Sys2Proof.Laws
end

section
/-!
SUPPORT. Every function of the model that answers a state keeps memory and flash in canonical form (notes/assumptions/2): one lemma
`canon_<function>` per function, in the order of the model's files. Memory changes through `Memory.setBytes`, `setByte`, `clear` and
`filter` alone, and the flash through `writeFlash`.
-/

namespace Sys2Proof.Laws
open Sys2Proof.Machine Sys2Proof.Safety

/-- Memory and flash bytes in canonical form. -/
def Canonical (m : List Host.Cell) (f : Tbl (Option (BitVec 8))) : Prop := Memory.wf m = true ∧ Tbl.sorted f = true

/-- A state whose memory and flash are in canonical form. -/
abbrev Canon (s : State) : Prop := Canonical s.mem s.flash

theorem memoryOk_iff (s : State) : memoryOk s = true ↔ Canon s := by
  simp [memoryOk, Canonical]

theorem canon_foldl {α : Type} {f : State → α → State} (hf : ∀ s x, Canon s → Canon (f s x)) (l : List α) (s : State) (h : Canon s) :
    Canon (l.foldl f s) := by
  induction l generalizing s with
  | nil => exact h
  | cons x l ih => exact ih _ (hf s x h)

theorem canon_foldl_fst {α β : Type} {f : State × β → α → State × β} (hf : ∀ s x, Canon s.1 → Canon (f s x).1) (l : List α) (s : State × β) (h : Canon s.1) :
    Canon (l.foldl f s).1 := by
  induction l generalizing s with
  | nil => exact h
  | cons x l ih => exact ih _ (hf s x h)

theorem canonical_setBytes {m f} (h : Canonical m f) (a : Nat) (bs : List Byte) : Canonical (Memory.setBytes m a bs) f :=
  ⟨Memory.wf_setBytes m a bs h.1, h.2⟩

theorem canonical_setByte {m f} (h : Canonical m f) (a : Nat) (b : Byte) : Canonical (Memory.setByte m a b) f :=
  ⟨Memory.wf_setByte m a b h.1, h.2⟩

theorem canonical_clear {m f} (h : Canonical m f) (a b : Nat) : Canonical (Memory.clear m a b) f :=
  ⟨Memory.wf_clear m a b h.1, h.2⟩

theorem canonical_filter {m f} (h : Canonical m f) (p) : Canonical (m.filter p) f :=
  ⟨Memory.wf_filter m p h.1, h.2⟩

theorem sorted_writeFlash (m : Tbl (Option Byte)) (offset : Nat) (bs : List Byte) (h : Tbl.sorted m = true) :
    Tbl.sorted (writeFlash m offset bs) = true := by
  induction bs generalizing m offset with
  | nil => exact h
  | cons b rest ih => exact ih _ _ (Tbl.sorted_put _ _ _ _ h)

theorem canon_fst {α : Type} {p : State × α} {s : State} {x : α} (h : Canon p.1) (e : p = (s, x)) : Canon s := by
  subst e; exact h

theorem canon_ite {c : Prop} [Decidable c] {s t : State} (hs : Canon s) (ht : Canon t) : Canon (if c then s else t) := by
  split <;> assumption

/-- What the host writes to its own memory keeps the form. -/
theorem canon_hostWrites {m : List Host.Cell} {f : Tbl (Option (BitVec 8))} (h : Canonical m f) (l : List (Nat × Byte)) :
    Canonical (l.foldl (fun m c => if hostBase ≤ c.1 then Memory.setByte m c.1 c.2 else m) m) f := by
  induction l generalizing m with
  | nil => exact h
  | cons x l ih =>
    refine ih ?_
    dsimp only
    split
    · exact canonical_setByte h _ _
    · exact h

/-- Whatever an issued body leaves is canonical. -/
def IssuedOk : Issued → Prop
  | .retire s _ _ => Canon s
  | .jump s _ _ => Canon s
  | .hold s => Canon s
  | _ => True

theorem canon_forall_getD {o : Option State} {t : State} (ho : ∀ u, o = some u → Canon u) (ht : Canon t) : Canon (o.getD t) := by
  cases o with
  | none => exact ht
  | some u => exact ho u rfl

/-! ### Machine/State -/

/-! ### Machine/Events -/

theorem canon_setReg {s : State} {r : Reg} {v : BitVec 64} (h : Canon s) : Canon (s.setReg r v) := h

theorem canon_setShadow {s : State} {r : Reg} {v : BitVec 64} (h : Canon s) : Canon (s.setShadow r v) := h

theorem canon_bringIntoForce {s : State} {r : Reg} {v : BitVec 64} (h : Canon s) : Canon (s.bringIntoForce r v) := by
  grind [State.bringIntoForce, canon_setReg]

theorem canon_resetReg {s : State} {r : Reg} (h : Canon s) : Canon (s.resetReg r) := h

theorem canon_setNow {s : State} {t : Nat} (h : Canon s) : Canon (s.setNow t) := h

theorem canon_advanceTo {s : State} {t : Nat} (h : Canon s) : Canon (s.advanceTo t) := by
  grind [State.advanceTo, canon_setNow]

theorem canon_advancePos {s : State} {pos : Nat} (h : Canon s) : Canon (s.advancePos pos) := by
  grind [State.advancePos, canon_advanceTo]

theorem canon_idle {s : State} (h : Canon s) : Canon (s.idle) := by
  grind [State.idle, canon_setNow]

theorem canon_noteDevice {s : State} {r : Reg} {m : BitVec 64} (h : Canon s) : Canon (s.noteDevice r m) := h

theorem canon_noteHost {s : State} {r : Reg} {m : BitVec 64} (h : Canon s) : Canon (s.noteHost r m) := h

theorem canon_noteBar {s : State} {r : Reg} {m : BitVec 64} (h : Canon s) : Canon (s.noteBar r m) := h

theorem canon_setFault {s : State} (h : Canon s) : Canon (s.setFault) := by
  grind [State.setFault, canon_noteDevice]

theorem canon_setSecurity {s : State} (h : Canon s) : Canon (s.setSecurity) := by
  grind [State.setSecurity, canon_noteDevice]

theorem canon_setLogDrop {s : State} (h : Canon s) : Canon (s.setLogDrop) := by
  grind [State.setLogDrop, canon_noteDevice]

theorem canon_raiseAt {s : State} {at_ src : Nat} {e : EventCode} {payload : BitVec 128} (h : Canon s) : Canon (s.raiseAt at_ src e payload)
    := by
  grind [State.raiseAt, canon_setFault]

theorem canon_raise {s : State} {src : Nat} {e : EventCode} {payload : BitVec 128} (h : Canon s) : Canon (s.raise src e payload) := by
  grind [State.raise, canon_raiseAt]

theorem canon_whenRunning {s : State} {f : State → State} (hf : ∀ s, Canon s → Canon (f s)) (h : Canon s) : Canon (s.whenRunning f) := by
  unfold State.whenRunning
  split
  · exact hf s h
  · exact h

/-! ### Machine/Ops -/

theorem canon_setTile {s : State} {n : Nat} {t : Tile} (h : Canon s) : Canon (s.setTile n t) := h

theorem canon_modTile {s : State} {n : Nat} {f : Tile → Tile} (h : Canon s) : Canon (s.modTile n f) := by
  grind [State.modTile, canon_setTile]

theorem canon_setSheaf {s : State} {m : Nat} {x2 : Sheaf} (h : Canon s) : Canon (s.setSheaf m x2) := h

theorem canon_modSheaf {s : State} {m : Nat} {f : Sheaf → Sheaf} (h : Canon s) : Canon (s.modSheaf m f) := by
  grind [State.modSheaf, canon_setSheaf]

theorem canon_modEntry {s : State} {m e : Nat} {f : MtgEntry → MtgEntry} (h : Canon s) : Canon (s.modEntry m e f) := by
  grind [State.modEntry, canon_modSheaf]

theorem canon_modPdk {s : State} {p : Nat} {f : Paddock → Paddock} (h : Canon s) : Canon (s.modPdk p f) := h

theorem canon_setRegion {s : State} {r : Nat} {x2 : Region} (h : Canon s) : Canon (s.setRegion r x2) := h

theorem canon_modPort {s : State} {n : Nat} {f : Port → Port} (h : Canon s) : Canon (s.modPort n f) := h

theorem canon_modTether {s : State} {t : Nat} {f : Tether → Tether} (h : Canon s) : Canon (s.modTether t f) := h

theorem canon_modSite {s : State} {m : Nat} {f : Site → Site} (h : Canon s) : Canon (s.modSite m f) := h

theorem canon_modQueue {s : State} {q : Nat} {f : QueueHead → QueueHead} (h : Canon s) : Canon (s.modQueue q f) := h

theorem canon_setMask {s : State} {p : Nat} {v : BitVec 400} (h : Canon s) : Canon (s.setMask p v) := h

theorem canon_draw {s : State} (h : Canon s) : Canon (s.draw).2 := h

theorem canon_writeUnit {s : State} {p u : Nat} {v : BitVec 512} (h : Canon s) : Canon (s.writeUnit p u v) := by
  grind [State.writeUnit]

theorem canon_writeGroup {s : State} {m g : Nat} {bs : List Byte} (h : Canon s) : Canon (s.writeGroup m g bs) := by
  grind [State.writeGroup, canonical_setByte, canonical_setBytes, canonical_clear, canon_modSheaf]

theorem canon_correctUnit {s : State} {u : Nat} (h : Canon s) : Canon (s.correctUnit u) := h

theorem canon_failUnit {s : State} {u : Nat} {patrol : Bool} (h : Canon s) : Canon (s.failUnit u patrol) := by
  grind [State.failUnit, canon_raise, canon_noteDevice]

theorem canon_writeChunk {s : State} {p a : Nat} {bs : List Byte} {fromHost : Bool} (h : Canon s) : Canon (s.writeChunk p a bs fromHost) := by
  grind [State.writeChunk, canonical_setByte, canonical_setBytes, canonical_clear, canon_writeUnit, canon_correctUnit, canon_failUnit,
    canon_writeGroup]

theorem canon_writeBytes {s : State} {p a : Nat} {bs : List Byte} (h : Canon s) : Canon (s.writeBytes p a bs) := by
  grind [State.writeBytes, canon_writeChunk, canon_foldl]

theorem canon_writeBytesHost {s : State} {p a : Nat} {bs : List Byte} (h : Canon s) : Canon (s.writeBytesHost p a bs) := by
  grind [State.writeBytesHost, canon_writeChunk, canon_foldl]

theorem canon_takeEnv {s : State} {env : Env} (h : Canon s) : Canon (s.takeEnv env) := by
  unfold State.takeEnv
  refine canon_foldl (fun s x h => ?_) _ _ ?_
  · exact canon_ite h (canon_ite h h)
  · exact canon_hostWrites h env.host

theorem canon_correctWord {s : State} {w : Nat} (h : Canon s) : Canon (s.correctWord w) := by
  grind [State.correctWord, canon_modSheaf, canon_modTile]

theorem canon_failWord {s : State} {w : Nat} (h : Canon s) : Canon (s.failWord w) := by
  grind [State.failWord, canon_modSheaf, canon_raise, canon_modTile]

theorem canon_readMark {s : State} {c : Nat × EccMark} (hbm : Bool) (h : Canon s) : Canon (s.readMark hbm c).1 := by
  unfold State.readMark
  grind [canon_correctWord, canon_correctUnit, canon_failUnit, canon_failWord]

theorem canon_readMarks {s : State} {a : List (Nat × EccMark)} (hbm : Bool) (h : Canon s) : Canon (s.readMarks hbm a).1 := by
  fun_induction State.readMarks <;> grind [canon_readMark]

theorem canon_checkRead {s : State} {a n : Nat} (h : Canon s) : Canon (s.checkRead a n).1 := by
  grind [State.checkRead, canon_readMarks]

theorem canon_checkUnit {s : State} {a n : Nat} (h : Canon s) : Canon (s.checkUnit a n).1 := by
  have hr : ∀ s a n, Canon s → Canon (State.checkRead s a n).1 := fun s a n h => canon_checkRead h
  unfold State.checkUnit
  generalize State.checkRead = check at hr
  grind

theorem canon_checkUnits {s : State} {a : List (Nat × Nat)} (h : Canon s) : Canon (s.checkUnits a).1 := by
  fun_induction State.checkUnits <;> grind [canon_checkUnit]

theorem canon_checkSource {s : State} {a n : Nat} (h : Canon s) : Canon (s.checkSource a n).1 := by
  grind [State.checkSource, canon_checkUnits]

theorem canon_checkReadAt {s : State} {a n : Nat} (h : Canon s) : Canon (s.checkReadAt a n).1 := by
  grind [State.checkReadAt, canon_checkSource]

theorem canon_raiseUnbacked {s : State} {src p a : Nat} {write : Bool} (h : Canon s) : Canon (s.raiseUnbacked src p a write) := by
  grind [State.raiseUnbacked, canon_raise]

theorem canon_clearStore {s : State} {n : Nat} (h : Canon s) : Canon (s.clearStore n) := by
  grind [State.clearStore, canonical_setByte, canonical_setBytes, canonical_clear]

theorem canon_clearBanks {s : State} {m lo : Nat} (hi : Nat) (h : Canon s) : Canon (s.clearBanks m lo hi) := by
  grind [State.clearBanks, canonical_setByte, canonical_setBytes, canonical_clear]

theorem canon_raiseReach {s : State} {src p a n : Nat} {write : Bool} (h : Canon s) : Canon (s.raiseReach src p a n write) := by
  grind [State.raiseReach, canon_raiseUnbacked, canon_raise]

theorem canon_masterWrite {s : State} {src p a : Nat} {bs : List Byte} (h : Canon s) : Canon (s.masterWrite src p a bs) := by
  grind [State.masterWrite, canon_writeBytes, canon_raise, canon_raiseReach]

/-! ### Machine/TileOps -/

theorem canon_retractFault {s : State} {n : Nat} {ev : BitVec 64 × BitVec 128} (h : Canon s) : Canon (s.retractFault n ev) := h

theorem canon_keepEarlierFault {s : State} {n : Nat} {f : TileFault} (h : Canon s) : Canon (s.keepEarlierFault n f) := by
  grind [State.keepEarlierFault, canon_raiseAt, canon_setTile, canon_retractFault]

theorem canon_stopTile {s : State} {n : Nat} {f : TileFault} (h : Canon s) : Canon (s.stopTile n f) := by
  grind [State.stopTile, canon_keepEarlierFault, canon_raiseAt, canon_modSheaf, canon_setTile, canon_setFault, canon_modPdk]

theorem canon_peerFaults {m a : Nat} {x2 : State} (h : Canon x2) : Canon (State.peerFaults m a x2) := by
  fun_induction State.peerFaults <;> grind [canon_modSheaf, canon_stopTile]

theorem canon_tileFault {s : State} {n cause dpa : Nat} (h : Canon s) : Canon (s.tileFault n cause dpa) := by
  grind [State.tileFault, canon_peerFaults, canon_stopTile]

theorem canon_opFault {s : State} {n cause dpa : Nat} {o : UnitOp} (h : Canon s) : Canon (s.opFault n cause dpa o) := by
  grind [State.opFault, canon_peerFaults, canon_stopTile]

theorem canon_retireWait {before s : State} {n : Nat} (hb : Canon before) (h : Canon s) : Canon (before.retireWait s n) := by
  unfold State.retireWait
  split
  · exact canon_tileFault hb
  · exact canon_modTile h

theorem canon_retire {before s : State} {n aclk : Nat} {target : Option Nat} (hb : Canon before) (h : Canon s) : Canon (before.retire s n
    aclk target) := by
  unfold State.retire
  split
  · exact canon_tileFault hb
  · exact canon_modTile h

theorem canon_issueWhen {s : State} {n op : Nat} {ready : State → Tile → BitVec 64 → Option Nat} {body : State → Tile → BitVec 64 → Issued}
    (hb : ∀ s t w, Canon s → IssuedOk (body s t w)) (h : Canon s) : Canon (s.issueWhen n op ready body) := by
  unfold State.issueWhen
  dsimp only
  refine canon_ite h ?_
  split
  · generalize max (max (max (_ : Nat) _) _) _ = k
    have h1 : Canon (s.advanceTo k) := canon_advanceTo h
    have h2 := hb (s.advanceTo k) (s.tile n) (s.tile n).fetch h1
    refine canon_ite h (canon_ite (canon_tileFault h1) (canon_ite (canon_retire h1 h1) ?_))
    split <;> rename_i he <;> rw [he] at h2
    · exact h
    · exact canon_tileFault h1
    · exact canon_retire h1 h2
    · exact canon_modTile h2
    · exact h2
  · exact h

theorem canon_issue {s : State} {n op : Nat} {body : State → Tile → BitVec 64 → Issued} (hb : ∀ s t w, Canon s → IssuedOk (body s t w)) (h :
    Canon s) : Canon (s.issue n op body) := canon_issueWhen hb h

theorem canon_countAbandoned {s : State} {m e k : Nat} (h : Canon s) : Canon (s.countAbandoned m e k) := by
  grind [State.countAbandoned, canon_modEntry]

theorem canon_abandonRepeats {s : State} {n : Nat} {p : Nat → Bool} (h : Canon s) : Canon (s.abandonRepeats n p) := by
  grind [State.abandonRepeats, canon_modTile, canon_countAbandoned, canon_foldl]

/-! ### Machine/Flags -/

theorem canon_nonFinite {s : State} {n position : Nat} {o : UnitOp} (h : Canon s) : Canon (s.nonFinite n o position) := by
  grind [State.nonFinite, canon_setTile, canon_raise]

theorem canon_nonFiniteAt {s : State} {n : Nat} {o : UnitOp} {a : Option Nat} (h : Canon s) : Canon (s.nonFiniteAt n o a) := by
  unfold State.nonFiniteAt
  grind [canon_nonFinite]

theorem canon_clearNonFinite {s : State} {n : Nat} (h : Canon s) : Canon (s.clearNonFinite n) := by
  grind [State.clearNonFinite, canon_setTile]

/-! ### Machine/RegWrite -/

theorem canon_writeReadIndex {s : State} {v : BitVec 32} (h : Canon s) : Canon (s.writeReadIndex v) := by
  grind [State.writeReadIndex]

theorem canon_writeFields {s : State} {r : Reg} {mask v : BitVec 64} (h : Canon s) : Canon (s.writeFields r mask v) := by
  unfold State.writeFields
  grind [canon_setReg, canon_modEntry, canon_clearNonFinite, canon_writeReadIndex, canon_modPdk, canon_modTile]

theorem canon_writeShadow {s : State} {r : Reg} {mask v : BitVec 64} (h : Canon s) : Canon (s.writeShadow r mask v) := by
  grind [State.writeShadow, canon_setShadow]

theorem canon_writePlain {s : State} {r : Reg} {mask v : BitVec 64} (h : Canon s) : Canon (s.writePlain r mask v) := by
  grind [State.writePlain, canon_noteHost, canon_writeShadow, canon_writeFields]

theorem canon_debugUse {s : State} {path : Nat} {ps : List Nat} (h : Canon s) : Canon (s.debugUse path ps) := by
  grind [State.debugUse, canon_raise, canon_modPdk, canon_foldl]

theorem canon_forceUnit {s : State} {r : Reg} {v : BitVec 64} (h : Canon s) : Canon (s.forceUnit r v) := by
  unfold State.forceUnit
  grind [canon_modPort, canon_setReg, canon_setMask, canon_modSite, canon_modTether, canon_setRegion, canon_modPdk, canon_modQueue]

theorem canon_forceReg {s : State} {r : Reg} {v : BitVec 64} (h : Canon s) : Canon (s.forceReg r v) := by
  grind [State.forceReg, canon_forceUnit, canon_setReg, canon_modSheaf, canon_setShadow, canon_modTile]

/-! ### Machine/Moves -/

theorem canon_beginMove {s : State} {n : Nat} {o : UnitOp} (h : Canon s) : IssuedOk (s.beginMove n o) := by
  grind [State.beginMove, canon_modTile, IssuedOk]

theorem canon_movbBody {n : Nat} {s : State} {t : Tile} {w : BitVec 64} (h : Canon s) : IssuedOk (movbBody n s t w) := by
  grind [movbBody, canon_beginMove, IssuedOk]

theorem canon_movtBody {n : Nat} {s : State} {t : Tile} {w : BitVec 64} (h : Canon s) : IssuedOk (movtBody n s t w) := by
  grind [movtBody, canon_beginMove, IssuedOk]

theorem canon_readSegments {s : State} {a : List Segment} (h : Canon s) : Canon (s.readSegments a).1 := by
  fun_induction State.readSegments <;> grind [canon_checkSource]

theorem canon_writePieces {s : State} {p : Nat} {pieces : List (Nat × List Byte)} (h : Canon s) : Canon (s.writePieces p pieces) := by
  grind [State.writePieces, canon_writeChunk, canon_foldl]

theorem canon_deliver {s : State} {n p : Nat} {o : UnitOp} {pieces : List (Nat × List Byte)} (h : Canon s) : Canon (s.deliver n o p pieces)
    := by
  grind [State.deliver, canon_writePieces, canon_opFault]

theorem canon_performMove {s : State} {n : Nat} {o : UnitOp} (h : Canon s) : Canon (s.performMove n o) := by
  grind [State.performMove, canon_readSegments, canon_deliver, canon_opFault]

theorem canon_completeMove {s : State} {n i : Nat} (h : Canon s) : Canon (s.completeMove n i) := by
  grind [State.completeMove, canon_performMove, canon_modTile]

theorem canon_atomBody {n : Nat} {s : State} {t : Tile} {w : BitVec 64} (h : Canon s) : IssuedOk (atomBody n s t w) := by
  grind [atomBody, canon_modTile, IssuedOk]

theorem canon_doAtomic {s : State} {n : Nat} {o : UnitOp} (h : Canon s) : Canon (s.doAtomic n o) := by
  grind [State.doAtomic, canon_writeChunk, canon_opFault, canon_modTile, canon_checkRead]

theorem canon_performAtomic {s : State} {n i : Nat} (h : Canon s) : Canon (s.performAtomic n i) := by
  grind [State.performAtomic, canon_doAtomic, canon_modTile]

/-! ### Machine/Gleaner -/

theorem canon_coalesce {s : State} {e : Event} (h : Canon s) : Canon (s.coalesce e) := h

theorem canon_takeRecord {s : State} (h : Canon s) : Canon (s.takeRecord) := by
  grind [State.takeRecord, canon_coalesce]

theorem canon_takeRecords {s : State} (h : Canon s) : Canon (s.takeRecords) := by
  grind [State.takeRecords, canon_takeRecord, canon_foldl]

theorem canon_endSummaries {s : State} (h : Canon s) : Canon (s.endSummaries) := by
  grind [State.endSummaries, canon_takeRecords]

theorem canon_dropRecord {s : State} (h : Canon s) : Canon (s.dropRecord) := by
  grind [State.dropRecord, canon_setLogDrop]

theorem canon_ringPut {s : State} {e : Event} (h : Canon s) : Canon (s.ringPut e) := by
  grind [State.ringPut, canon_dropRecord, canon_masterWrite]

theorem canon_keepEarly {s : State} {e : Event} (h : Canon s) : Canon (s.keepEarly e) := by
  grind [State.keepEarly, canon_dropRecord]

theorem canon_ringWrite {s : State} {age : Nat} (h : Canon s) : Canon (s.ringWrite age) := by
  grind [State.ringWrite, canon_keepEarly, canon_ringPut, canon_foldl]

/-! ### Machine/Time -/

theorem canon_landAt {s : State} {k : ℤ} {pos : Nat} (h : Canon s) : Canon (s.landAt k pos) := by
  grind [State.landAt]

theorem canon_loadGtc {s : State} {v : Nat} (h : Canon s) : Canon (s.loadGtc v) := by
  grind [State.loadGtc, canon_endSummaries, canon_landAt]

theorem canon_useEdge {s : State} {d : ℤ} (h : Canon s) : Canon (s.useEdge d) := by
  grind [State.useEdge, canon_raise]

theorem canon_clearLoadArm {s : State} (h : Canon s) : Canon (s.clearLoadArm) := by
  grind [State.clearLoadArm, canon_setReg]

theorem canon_syncEdge {s : State} {d : ℤ} {withinLimits : Bool} (h : Canon s) : Canon (s.syncEdge d withinLimits) := by
  grind [State.syncEdge, canon_loadGtc, canon_useEdge, canon_clearLoadArm]

theorem canon_correctGtc {s : State} (h : Canon s) : Canon (s.correctGtc) := by
  grind [State.correctGtc, canon_advancePos]

theorem canon_enterHoldover {s : State} (h : Canon s) : Canon (s.enterHoldover) := by
  grind [State.enterHoldover, canon_raise]

theorem canon_countMissed {s : State} (h : Canon s) : Canon (s.countMissed) := h

theorem canon_sourceChanged {s : State} {old : Nat} (h : Canon s) : Canon (s.sourceChanged old) := by
  grind [State.sourceChanged]

/-! ### Machine/Commit -/

theorem canon_setRegions {s : State} {rs : List Nat} {x2 : Region} (h : Canon s) : Canon (s.setRegions rs x2) := by
  grind [State.setRegions, canon_setRegion, canon_foldl]

theorem canon_withChange {s : State} {c : PdkChange} (h : Canon s) : Canon (s.withChange c) := by
  grind [State.withChange, canon_setRegions, canon_setMask, canon_modPdk]

theorem canon_composed {s : State} (h : Canon s) : Canon (s.composed) := by
  grind [State.composed, canon_withChange, canon_foldl]

theorem canon_checkUcode {s : State} {l : Look} {p : Nat} (h : Canon s) : Canon (s.checkUcode l p).1 := by
  grind [State.checkUcode, canon_checkSource]

theorem canon_judgeGroup {s : State} {done : BitVec 17} {g : Nat} (h : Canon s) : Canon (s.judgeGroup done g).1 := by
  grind [State.judgeGroup, canon_checkUcode]

theorem canon_refuseGroup {s : State} {g rule : Nat} (h : Canon s) : Canon (s.refuseGroup g rule) := by
  grind [State.refuseGroup, canon_setReg, canon_raise, canon_noteDevice]

theorem canon_applyGroup {s : State} {g : Nat} (h : Canon s) : Canon (s.applyGroup g) := by
  grind [State.applyGroup, canon_setReg, canon_noteDevice]

theorem canon_evaluate {s : State} {a : List Nat} {x2 : BitVec 17} (h : Canon s) : Canon (s.evaluate a x2).1 := by
  fun_induction State.evaluate <;> grind [canon_judgeGroup, canon_applyGroup, canon_refuseGroup]

theorem canon_settleReply {s : State} {id result note detail : Nat} (h : Canon s) : Canon (s.settleReply id result note detail) := h

theorem canon_commitTick {s : State} (h : Canon s) : Canon (s.commitTick) := by
  grind [State.commitTick, canon_settleReply, canon_setReg, canon_evaluate, canon_foldl]

/-! ### Machine/HostWrite -/

theorem canon_debugWrite {s : State} {p a : Nat} {bs : List Byte} (h : Canon s) : Canon (s.debugWrite p a bs) := by
  obtain ⟨o, ho⟩ : ∃ o, o = a - regBase := ⟨_, rfl⟩
  unfold State.debugWrite
  rw [← ho]
  split
  · exact canon_writeChunk h
  · exact canon_writeChunk h
  · exact canonical_setBytes h _ _
  · exact canonical_setBytes h _ _
  · exact canonical_setBytes h _ _
  · exact canon_writeGroup h
  · split
    · refine canon_foldl (fun s i h => ?_) _ _ h
      split
      · exact canon_ite h (canon_writePlain h)
      · exact h
    · exact h

theorem canon_debugMemGo {s : State} (h : Canon s) : Canon (s.debugMemGo) := by
  grind [State.debugMemGo, canon_checkReadAt, canon_setReg, canon_raiseUnbacked, canon_raise, canon_debugWrite, canon_debugUse, canon_foldl]

theorem canon_debugHaltGo {s : State} (h : Canon s) : Canon (s.debugHaltGo) := by
  grind [State.debugHaltGo, canon_debugUse]

theorem canon_debugForceGo {s : State} (h : Canon s) : Canon (s.debugForceGo) := by
  grind [State.debugForceGo, canon_forceReg, canon_debugUse]

theorem canon_reacquire {s : State} (h : Canon s) : Canon (s.reacquire) := by
  grind [State.reacquire, canon_raise]

theorem canon_writeReg {s : State} {r : Reg} {mask v : BitVec 64} (h : Canon s) : Canon (s.writeReg r mask v) := by
  unfold State.writeReg
  grind [canon_debugMemGo, canon_reacquire, canon_writePlain, canon_debugForceGo, canon_debugHaltGo]

theorem canon_barWrite {s : State} {r : Reg} {mask v : BitVec 64} (h : Canon s) : Canon (s.barWrite r mask v) := by
  grind [State.barWrite, canon_noteBar, canon_writeReg]

theorem canon_raiseRegAccess {s : State} {offset size : Nat} {write : Bool} (h : Canon s) : Canon (s.raiseRegAccess offset size write) := by
  grind [State.raiseRegAccess, canon_raise]

theorem canon_writeAccess {s : State} {offset size : Nat} {v : BitVec 64} (h : Canon s) : ∀ u, s.writeAccess offset size v = some u → Canon u
    := by
  intro u hu
  obtain ⟨-, hu⟩ := Option.ite_none_right_eq_some.1 hu
  obtain ⟨r, -, rfl⟩ := Option.map_eq_some_iff.1 hu
  exact canon_barWrite h

theorem canon_hostWrite {s : State} {offset size : Nat} {v : BitVec 64} (h : Canon s) : Canon (s.hostWrite offset size v) := canon_ite h
    (canon_forall_getD (canon_writeAccess h) (canon_raiseRegAccess h))

theorem canon_complete {s : State} {bs : List Byte} {poisoned : Bool} (h : Canon s) : Canon (s.complete bs poisoned) := h

theorem canon_hostRead {s : State} {offset size : Nat} (h : Canon s) : Canon (s.hostRead offset size) := by
  grind [State.hostRead, canon_raiseRegAccess, canon_complete]

theorem canon_pageRead {s : State} {p a n : Nat} (h : Canon s) : Canon (s.pageRead p a n).1 := by
  grind [State.pageRead, canon_raiseRegAccess, canon_raiseUnbacked, canon_raise]

theorem canon_pageWrite {s : State} {p a : Nat} {bs : List Byte} (h : Canon s) : Canon (s.pageWrite p a bs) := by
  unfold State.pageWrite
  split
  · split
    · exact canon_ite (canon_raiseUnbacked h) (canon_forall_getD (canon_writeAccess h) (canon_raiseRegAccess h))
    · exact canon_raiseUnbacked h
  · refine canon_writeBytesHost ?_
    split <;> split <;> grind [canon_raise, canon_raiseUnbacked]

theorem canon_pageAccess {s : State} {offset n : Nat} {data : Option (List Byte)} (h : Canon s) : Canon (s.pageAccess offset n data).1 := by
  unfold State.pageAccess
  grind [canon_raise, canon_pageRead, canon_pageWrite]

theorem canon_pagePoisoned {s : State} {offset n : Nat} (h : Canon s) : Canon (s.pagePoisoned offset n).1 := by
  grind [State.pagePoisoned, canon_checkReadAt]

theorem canon_aperture {s : State} {offset n : Nat} {data : Option (List Byte)} (h : Canon s) : Canon (s.aperture offset n data) := by
  grind [State.aperture, canon_complete, canon_pagePoisoned, canon_pageAccess]

/-! ### Machine/Master -/

theorem canon_freeBytes {s : State} {a : Nat} (h : Canon s) : Canon (s.freeBytes a).1 := by
  fun_induction State.freeBytes <;> grind [canon_draw]

theorem canon_readPieces {s : State} {p : Nat} {a : List (Nat × Nat)} (h : Canon s) : Canon (s.readPieces p a).1 := by
  fun_induction State.readPieces <;> grind [canon_freeBytes, canon_checkUnit]

theorem canon_masterRead {s : State} {src p a n : Nat} (h : Canon s) : Canon (s.masterRead src p a n).1 := by
  grind [State.masterRead, canon_readPieces, canon_raiseReach]

theorem canon_readOperand {s : State} {p a n : Nat} (h : Canon s) : Canon (s.readOperand p a n).1 := by
  grind [State.readOperand, canon_checkSource]

/-! ### Machine/Copies -/

theorem canon_copyRead {s : State} {p a : Nat} (h : Canon s) : Canon (s.copyRead p a).1 := by
  grind [State.copyRead, canon_raiseReach, canon_checkSource]

theorem canon_copyWrite {s : State} {p a : Nat} {bs : List Byte} (h : Canon s) : Canon (s.copyWrite p a bs).1 := by
  grind [State.copyWrite, canon_writeChunk, canon_raiseReach]

theorem canon_copyOut {s : State} {p a x3 x4 : Nat} {x5 : List Byte} (h : Canon s) : Canon (s.copyOut p a x3 x4 x5).1 := by
  fun_induction State.copyOut <;> grind [canon_copyWrite]

theorem canon_copyIn {s : State} {p a x3 x4 : Nat} (h : Canon s) : Canon (s.copyIn p a x3 x4).1 := by
  fun_induction State.copyIn <;> grind [canon_copyRead]

theorem canon_copyUnits {s : State} {p src dst a x5 : Nat} (h : Canon s) : Canon (s.copyUnits p src dst a x5).1 := by
  fun_induction State.copyUnits <;> grind [canon_copyRead, canon_copyWrite]

theorem canon_countSeal {s : State} {p : Nat} {key : BitVec 256} (h : Canon s) : Canon (s.countSeal p key) := by
  grind [State.countSeal, canon_modPdk]

theorem canon_sealOutUnits {s : State} {p a x5 : Nat} {key : BitVec 256} {c : CmdRec} (h : Canon s) : Canon (s.sealOutUnits p key c a x5).1
    := by
  fun_induction State.sealOutUnits <;> grind [canon_writeBytes, canon_countSeal, canon_copyIn]

theorem canon_sealInUnits {s : State} {p a x5 : Nat} {key : BitVec 256} {c : CmdRec} (h : Canon s) : Canon (s.sealInUnits p key c a x5).1 := by
  fun_induction State.sealInUnits <;> grind [canon_copyOut]

theorem canon_endCopy {s : State} {job : CopyJob} {e : CopyEnd} (h : Canon s) : Canon (s.endCopy job e) := by
  grind [State.endCopy, canon_setSecurity, canon_raise, canon_masterWrite]

theorem canon_performCopy {s : State} {job : CopyJob} (h : Canon s) : Canon (s.performCopy job).1 := by
  grind [State.performCopy, canon_sealOutUnits, canon_sealInUnits, canon_copyUnits]

theorem canon_transferCopy {s : State} (h : Canon s) : Canon (s.transferCopy) := by
  grind [State.transferCopy, canon_endCopy, canon_performCopy]

theorem canon_expireCopies {s : State} (h : Canon s) : Canon (s.expireCopies) := by
  grind [State.expireCopies, canon_raise, canon_foldl]

theorem canon_endSeals {s : State} {p : Nat} (h : Canon s) : Canon (s.endSeals p) := by
  grind [State.endSeals, canon_endCopy, canon_foldl]

/-! ### Machine/Power -/

theorem canon_holdPart {s : State} {code : Nat} (h : Canon s) : Canon (s.holdPart code) := by
  grind [State.holdPart]

theorem canon_decideHolds {s : State} (h : Canon s) : Canon (s.decideHolds) := by
  grind [State.decideHolds, canon_raise, canon_foldl]

theorem canon_chargeSheaf {s : State} {m charge : Nat} {p : Option Nat} (h : Canon s) : Canon (s.chargeSheaf m charge p) := h

theorem canon_closeCharge {s : State} (h : Canon s) : Canon (s.closeCharge) := h

theorem canon_reportSlack {s : State} {k : Nat} (h : Canon s) : Canon (s.reportSlack k) := by
  grind [State.reportSlack, canon_modPdk, canon_foldl]

theorem canon_addQueueEnergy {s : State} {q e : Nat} (h : Canon s) : Canon (s.addQueueEnergy q e) := h

theorem canon_givePaddock {s : State} {p share energy total : Nat} (h : Canon s) : Canon (s.givePaddock p share energy total) := by
  grind [State.givePaddock, canon_modPdk, canon_addQueueEnergy, canon_foldl]

theorem canon_attributeEnergy {s : State} {energy : Nat} (h : Canon s) : Canon (s.attributeEnergy energy) := by
  grind [State.attributeEnergy, canon_givePaddock, canon_foldl]

theorem canon_sampleEnergy {s : State} {k : Nat} (h : Canon s) : Canon (s.sampleEnergy k) := by
  grind [State.sampleEnergy, canon_modPdk, canon_foldl]

theorem canon_measurePower {s : State} {energy : Nat} (h : Canon s) : Canon (s.measurePower energy) := by
  grind [State.measurePower, canon_raise]

theorem canon_noteInput {s : State} {mv : Nat} (h : Canon s) : Canon (s.noteInput mv) := h

theorem canon_readInput {s : State} {mv : Nat} (h : Canon s) : Canon (s.readInput mv) := by
  grind [State.readInput, canon_noteInput, canon_raise]

theorem canon_sampleHeat {s : State} {x1 : Sensors} (h : Canon s) : Canon (s.sampleHeat x1) := by
  grind [State.sampleHeat, canon_raise, canon_holdPart]

theorem canon_inputExcursion {s : State} {mv : Nat} (h : Canon s) : Canon (s.inputExcursion mv) := by
  grind [State.inputExcursion, canon_readInput]

theorem canon_endExcursion {s : State} {mv : Nat} (h : Canon s) : Canon (s.endExcursion mv) := by
  grind [State.endExcursion, canon_noteInput]

theorem canon_inputFail {s : State} {mv : Nat} (h : Canon s) : Canon (s.inputFail mv) := by
  grind [State.inputFail, canon_holdPart, canon_readInput]

/-! ### Machine/Links -/

theorem canon_portWentOff {s : State} {n : Nat} (h : Canon s) : Canon (s.portWentOff n) := by
  grind [State.portWentOff, canon_modSite]

theorem canon_assignEntries {s : State} {n t : Nat} {prot : Bool} {es : List Nat} (h : Canon s) : Canon (s.assignEntries n t prot es) := by
  grind [State.assignEntries, canon_modPort]

theorem canon_clearEntries {s : State} {t : Nat} {ports : List Nat} (h : Canon s) : Canon (s.clearEntries t ports) := by
  grind [State.clearEntries, canon_modPort, canon_foldl]

theorem canon_raiseDown {s : State} {t cause : Nat} (h : Canon s) : Canon (s.raiseDown t cause) := by
  grind [State.raiseDown, canon_raise]

theorem canon_refreshTether {s : State} {t : Nat} (h : Canon s) : Canon (s.refreshTether t) := by
  grind [State.refreshTether, canon_raise, canon_modTether, canon_raiseDown]

theorem canon_refreshPort {s : State} {n : Nat} (h : Canon s) : Canon (s.refreshPort n) := by
  grind [State.refreshPort, canon_refreshTether, canon_foldl]

theorem canon_darkenPort {s : State} {n : Nat} (h : Canon s) : Canon (s.darkenPort n) := by
  grind [State.darkenPort, canon_modPort, canon_portWentOff]

theorem canon_finishMove {s : State} {t : Nat} (h : Canon s) : Canon (s.finishMove t) := by
  grind [State.finishMove, canon_darkenPort, canon_clearEntries, canon_modTether, canon_foldl]

theorem canon_restoreTethers {s : State} (h : Canon s) : Canon (s.restoreTethers) := by
  grind [State.restoreTethers, canon_modTether, canon_finishMove, canon_foldl]

theorem canon_closeTether {s : State} {t : Nat} (h : Canon s) : Canon (s.closeTether t) := by
  grind [State.closeTether, canon_clearEntries, canon_modTether]

theorem canon_timeOutTether {s : State} {t : Nat} (h : Canon s) : Canon (s.timeOutTether t) := by
  grind [State.timeOutTether, canon_raiseDown, canon_closeTether]

theorem canon_breakTether {s : State} {t : Nat} (h : Canon s) : Canon (s.breakTether t) := by
  grind [State.breakTether, canon_modTether, canon_raiseDown]

theorem canon_expireTether {s : State} {t : Nat} (h : Canon s) : Canon (s.expireTether t) := by
  grind [State.expireTether, canon_raise, canon_modTether, canon_foldl]

theorem canon_readCount {s : State} {t : Nat} {a : BitVec 48} (h : Canon s) : Canon (s.readCount t a).1 := by
  grind [State.readCount, canon_masterRead]

theorem canon_acceptTether {s : State} {t : Nat} (h : Canon s) : Canon (s.acceptTether t) := by
  grind [State.acceptTether, canon_readCount, canon_modTether]

theorem canon_tetherTick {s : State} (h : Canon s) : Canon (s.tetherTick) := by
  grind [State.tetherTick, canon_readCount, canon_acceptTether, canon_modTether, canon_foldl]

theorem canon_loadFrame {s : State} {n t : Nat} {f : Pend} (h : Canon s) : Canon (s.loadFrame n t f).1 := by
  grind [State.loadFrame, canon_masterRead]

theorem canon_sendOut {s : State} {n i : Nat} {key : BitVec 256} {f : OutFrame} (h : Canon s) : Canon (s.sendOut n i key f) := by
  grind [State.sendOut, canon_modPort]

theorem canon_sendData {s : State} {n i t : Nat} {f : Pend} {rest : List Pend} (h : Canon s) : Canon (s.sendData n i t f rest) := by
  grind [State.sendData, canon_modPort, canon_sendOut, canon_modTether, canon_loadFrame]

theorem canon_sendIdle {s : State} {n i : Nat} (h : Canon s) : Canon (s.sendIdle n i) := by
  grind [State.sendIdle, canon_sendOut]

theorem canon_sendReport {s : State} {n i t : Nat} (h : Canon s) : Canon (s.sendReport n i t) := by
  grind [State.sendReport, canon_sendOut, canon_sendIdle, canon_modTether]

theorem canon_sendEntry {s : State} {n i : Nat} (h : Canon s) : Canon (s.sendEntry n i) := by
  grind [State.sendEntry, canon_sendData, canon_sendOut, canon_sendIdle, canon_sendReport, canon_advancePos]

theorem canon_raiseLaneFail {s : State} {n lane : Nat} {own : Bool} {map : BitVec 8} {stamp : BitVec 16} (h : Canon s) : Canon
    (s.raiseLaneFail n lane own map stamp) := by
  grind [State.raiseLaneFail, canon_raise]

theorem canon_sendLcb {s : State} {n : Nat} (h : Canon s) : Canon (s.sendLcb n) := by
  grind [State.sendLcb, canon_modPort, canon_advancePos]

theorem canon_takeMark {s : State} {n : Nat} {l : Lcb} (h : Canon s) : Canon (s.takeMark n l) := by
  grind [State.takeMark, canon_modPort, canon_loadGtc, canon_useEdge, canon_raise]

theorem canon_resendLost {s : State} {n lane : Nat} {stamp : BitVec 16} (h : Canon s) : Canon (s.resendLost n lane stamp) := by
  grind [State.resendLost, canon_modPort, canon_modTether, canon_foldl]

theorem canon_requestRemap {s : State} {n : Nat} {l : Lcb} (h : Canon s) : Canon (s.requestRemap n l) := by
  grind [State.requestRemap, canon_modPort, canon_raiseLaneFail]

theorem canon_takeFlags {s : State} {n : Nat} {l : Lcb} (h : Canon s) : Canon (s.takeFlags n l) := by
  grind [State.takeFlags, canon_modPort]

theorem canon_takeLcb {s : State} {n : Nat} {l : Lcb} (h : Canon s) : Canon (s.takeLcb n l) := by
  grind [State.takeLcb, canon_modPort, canon_takeFlags, canon_takeMark, canon_resendLost, canon_requestRemap]

theorem canon_applyRemap {s : State} {n : Nat} (h : Canon s) : Canon (s.applyRemap n) := by
  grind [State.applyRemap, canon_modPort, canon_refreshPort, canon_advancePos]

theorem canon_failLane {s : State} {n lane : Nat} {stamp : BitVec 16} (h : Canon s) : Canon (s.failLane n lane stamp) := by
  grind [State.failLane, canon_modPort, canon_refreshPort, canon_raiseLaneFail]

theorem canon_endTraining {s : State} {n : Nat} {lanes : BitVec 4} {delay : BitVec 16} (h : Canon s) : Canon (s.endTraining n lanes delay) := by
  grind [State.endTraining, canon_modPort, canon_refreshPort]

theorem canon_raiseStale {s : State} {n : Nat} {x2 : Hello} (h : Canon s) : Canon (s.raiseStale n x2) := by
  grind [State.raiseStale, canon_raise]

theorem canon_notePeer {s : State} {x1 : Hello} {stale : Bool} (h : Canon s) : Canon (s.notePeer x1 stale) := by
  grind [State.notePeer, canon_modTether]

theorem canon_takeHello {s : State} {n : Nat} {x2 : Hello} (h : Canon s) : Canon (s.takeHello n x2) := by
  grind [State.takeHello, canon_raiseStale, canon_setSecurity, canon_notePeer, canon_raise, canon_modTether, canon_refreshTether]

theorem canon_takeIdle {s : State} {x1 : Nat} (h : Canon s) : Canon (s.takeIdle x1) := h

/-! ### Machine/Hame -/

theorem canon_stray {s : State} {p : Nat} (h : Canon s) : Canon (s.stray p) := by
  grind [State.stray, canon_modPdk]

theorem canon_account {s : State} {m e : Nat} {c : Counts} {trouble : Bool} (h : Canon s) : Canon (s.account m e c trouble) := by
  grind [State.account, canon_modEntry, canon_stray]

theorem canon_convBody {n : Nat} {k : OpKind} {check : State → BitVec 256 → BitVec 256 → Option (Nat × Nat)} {fmt : State → BitVec 256 →
    BitVec 256 → Nat} {s : State} {t : Tile} {w : BitVec 64} (h : Canon s) : IssuedOk (convBody n k check fmt s t w) := by
  grind [convBody, canon_modTile, IssuedOk]

theorem canon_startConversion {s : State} {n : Nat} (h : Canon s) : Canon (s.startConversion n) := by
  grind [State.startConversion, canon_advanceTo, canon_modTile]

theorem canon_readPlanes {s : State} {a : List PlaneRead} (h : Canon s) : Canon (s.readPlanes a).1 := by
  fun_induction State.readPlanes <;> grind [canon_checkSource]

theorem canon_convert {s : State} {n : Nat} {o : UnitOp} (h : Canon s) : Canon (s.convert n o) := by
  grind [State.convert, canon_nonFiniteAt, canon_deliver, canon_opFault, canon_readPlanes, canon_account]

theorem canon_completeConversion {s : State} {n : Nat} (h : Canon s) : Canon (s.completeConversion n) := by
  grind [State.completeConversion, canon_advanceTo, canon_convert, canon_modTile]

/-! ### Machine/Fwa -/

theorem canon_sampleProduct {s : State} {n : Nat} {o : UnitOp} (h : Canon s) : Canon (s.sampleProduct n o) := by
  grind [State.sampleProduct, canon_modTile]

theorem canon_fmmBody {n : Nat} {s : State} {t : Tile} {w : BitVec 64} (h : Canon s) : IssuedOk (fmmBody n s t w) := by
  grind [fmmBody, canon_sampleProduct, canon_modTile, IssuedOk]

theorem canon_readRanges {s : State} {a : List (Nat × Nat)} (h : Canon s) : Canon (s.readRanges a).1 := by
  fun_induction State.readRanges <;> grind [canon_checkRead]

theorem canon_startFwaProduct {s : State} {n : Nat} (h : Canon s) : Canon (s.startFwaProduct n) := by
  grind [State.startFwaProduct, canon_advanceTo, canon_readRanges, canon_opFault, canon_modTile]

theorem canon_completeFwaProduct {s : State} {n : Nat} (h : Canon s) : Canon (s.completeFwaProduct n) := by
  grind [State.completeFwaProduct, canon_advanceTo, canon_modTile]

theorem canon_fdrBody {n : Nat} {s : State} {t : Tile} {w : BitVec 64} (h : Canon s) : IssuedOk (fdrBody n s t w) := by
  grind [fdrBody, canon_modTile, IssuedOk]

theorem canon_startFwaDrain {s : State} {n : Nat} (h : Canon s) : Canon (s.startFwaDrain n) := by
  grind [State.startFwaDrain, canon_advanceTo, canon_modTile]

theorem canon_endFwaWait {s : State} {n q : Nat} (h : Canon s) : Canon (s.endFwaWait n q) := by
  grind [State.endFwaWait, canon_modTile]

theorem canon_completeFwaDrain {s : State} {n : Nat} (h : Canon s) : Canon (s.completeFwaDrain n) := by
  grind [State.completeFwaDrain, canon_advanceTo, canon_writePieces, canon_nonFiniteAt, canon_modTile, canon_endFwaWait]

theorem canon_ffenceBody {s : State} {t : Tile} {x2 : BitVec 64} (h : Canon s) : IssuedOk (ffenceBody s t x2) := by
  grind [ffenceBody, IssuedOk]

/-! ### Machine/Bwa -/

theorem canon_bmmBody {n : Nat} {s : State} {t : Tile} {w : BitVec 64} (h : Canon s) : IssuedOk (bmmBody n s t w) := by
  grind [bmmBody, canon_modTile, IssuedOk]

theorem canon_startBwaProduct {s : State} {n : Nat} (h : Canon s) : Canon (s.startBwaProduct n) := by
  grind [State.startBwaProduct, canon_advanceTo, canon_readRanges, canon_opFault, canon_modTile]

theorem canon_completeBwaProduct {s : State} {n : Nat} (h : Canon s) : Canon (s.completeBwaProduct n) := by
  grind [State.completeBwaProduct, canon_advanceTo, canon_modTile]

theorem canon_bdrBody {n : Nat} {s : State} {t : Tile} {w : BitVec 64} (h : Canon s) : IssuedOk (bdrBody n s t w) := by
  grind [bdrBody, canon_modTile, IssuedOk]

theorem canon_startBwaDrain {s : State} {n : Nat} (h : Canon s) : Canon (s.startBwaDrain n) := by
  grind [State.startBwaDrain, canon_advanceTo, canon_modTile]

theorem canon_endBwaWait {s : State} {n q : Nat} (h : Canon s) : Canon (s.endBwaWait n q) := by
  grind [State.endBwaWait, canon_modTile]

theorem canon_completeBwaDrain {s : State} {n : Nat} (h : Canon s) : Canon (s.completeBwaDrain n) := by
  grind [State.completeBwaDrain, canon_advanceTo, canon_writePieces, canon_nonFiniteAt, canon_endBwaWait, canon_modTile, canon_account]

theorem canon_issueRepeat {s : State} {n : Nat} (h : Canon s) : Canon (s.issueRepeat n) := by
  grind [State.issueRepeat, canon_readRanges, canon_opFault, canon_modTile, canon_countAbandoned]

theorem canon_errorsOf {s : State} {a : List (BitVec 16 × BitVec 16)} (h : Canon s) : Canon (s.errorsOf a).1 := by
  fun_induction State.errorsOf <;> grind [canon_draw]

theorem canon_compareRepeats {s : State} {n : Nat} (h : Canon s) : Canon (s.compareRepeats n) := by
  grind [State.compareRepeats, canon_advanceTo, canon_modEntry, canon_modTile, canon_errorsOf]

/-! ### Machine/Martingale -/

theorem canon_openEntry {s : State} {m e : Nat} {phase : Phase} (h : Canon s) : Canon (s.openEntry m e phase) := by
  grind [State.openEntry, canon_modEntry, canon_modTile, canon_foldl]

theorem canon_mopenBody {n : Nat} {s : State} {x2 : Tile} {w : BitVec 64} (h : Canon s) : IssuedOk (mopenBody n s x2 w) := by
  grind [mopenBody, canon_openEntry, IssuedOk]

theorem canon_closeEntry {s : State} {m e : Nat} {phase : Phase} (h : Canon s) : Canon (s.closeEntry m e phase) := by
  grind [State.closeEntry, canon_modEntry, canon_abandonRepeats, canon_foldl]

theorem canon_mcloseBody {n : Nat} {s : State} {x2 : Tile} {w : BitVec 64} (h : Canon s) : IssuedOk (mcloseBody n s x2 w) := by
  grind [mcloseBody, canon_closeEntry, IssuedOk]

theorem canon_mverdBody {n : Nat} {s : State} {x2 : Tile} {w : BitVec 64} (h : Canon s) : IssuedOk (mverdBody n s x2 w) := by
  grind [mverdBody, canon_modTile, IssuedOk]

theorem canon_applyJudged {s : State} {m e p : Nat} {j : Judged} (h : Canon s) : Canon (s.applyJudged m e p j) := by
  grind [State.applyJudged, canon_raise, canon_modPdk, canon_noteDevice, canon_foldl]

theorem canon_evaluateClose {s : State} {m e : Nat} (h : Canon s) : Canon (s.evaluateClose m e) := by
  grind [State.evaluateClose, canon_applyJudged, canon_modEntry]

theorem canon_deliverVerdict {s : State} {p e : Nat} {v : MtgEntry} {c : Nat × Bool × MtgEntry} (h : Canon s) : Canon (s.deliverVerdict p e v
    c) := by
  grind [State.deliverVerdict, canon_modSheaf, canon_modEntry, canon_masterWrite]

theorem canon_closeSaved {s : State} {p m e : Nat} {old : Phase} (h : Canon s) : Canon (s.closeSaved p m old e) := by
  grind [State.closeSaved, canon_applyJudged, canon_modSheaf, canon_masterWrite]

theorem canon_judgePart {s : State} {p e : Nat} (h : Canon s) : Canon (s.judgePart p e) := by
  grind [State.judgePart, canon_applyJudged, canon_deliverVerdict, canon_foldl]

/-! ### Machine/Whippletree -/

theorem canon_modColl {s : State} {id : Nat} {f : Coll → Coll} (h : Canon s) : Canon (s.modColl id f) := h

theorem canon_wteEvent {s : State} {id k : Nat} {e : EventCode} {fields : List (Nat × Nat × Nat)} (h : Canon s) : Canon (s.wteEvent id k e
    fields) := by
  grind [State.wteEvent, canon_modColl, canon_raise]

theorem canon_wteUe {s : State} {id a : Nat} (h : Canon s) : Canon (s.wteUe id a) := by
  grind [State.wteUe, canon_wteEvent, canon_modColl, canon_modPdk]

theorem canon_wtePieces {s : State} {p : Nat} {a : List (Nat × Nat)} (h : Canon s) : Canon (s.wtePieces p a).1 := by
  fun_induction State.wtePieces <;> grind [canon_checkUnit]

theorem canon_wteBytes {s : State} {p a n : Nat} (h : Canon s) : Canon (s.wteBytes p a n).1 := by
  grind [State.wteBytes, canon_wtePieces]

theorem canon_wteNat {s : State} {p a n : Nat} (h : Canon s) : Canon (s.wteNat p a n).1 := by
  grind [State.wteNat, canon_wteBytes]

theorem canon_wteWrite {s : State} {id p a : Nat} {bs : List Byte} (h : Canon s) : Canon (s.wteWrite id p a bs) := by
  grind [State.wteWrite, canon_writeChunk, canon_wteUe, canon_foldl]

theorem canon_dueReport {s : State} {c : Coll} {t : Nat} (h : Canon s) : Canon (s.dueReport c t) := by
  grind [State.dueReport, canon_modTether]

theorem canon_dueReports {s : State} {c : Coll} (h : Canon s) : Canon (s.dueReports c) := by
  grind [State.dueReports, canon_dueReport, canon_foldl]

theorem canon_takeCollReport {s : State} {t : Nat} {tag w : BitVec 16} {l : BitVec 32} (h : Canon s) : Canon (s.takeCollReport t tag l w) := by
  grind [State.takeCollReport, canon_modColl, canon_modTether]

theorem canon_pollReady {s : State} {id : Nat} (h : Canon s) : Canon (s.pollReady id) := by
  grind [State.pollReady, canon_modColl, canon_wteNat]

theorem canon_startColl {s : State} {id : Nat} (h : Canon s) : Canon (s.startColl id) := by
  grind [State.startColl, canon_modColl, canon_dueReports, canon_modTether, canon_foldl]

theorem canon_writeVersion {s : State} {c : Coll} {aborted : Bool} (h : Canon s) : Canon (s.writeVersion c aborted) := by
  grind [State.writeVersion, canon_modColl, canon_wteWrite, canon_wtePieces]

theorem canon_endColl {s : State} {id : Nat} {aborted : Bool} (h : Canon s) : Canon (s.endColl id aborted) := by
  grind [State.endColl, canon_wteWrite, canon_writeVersion, canon_modPdk]

theorem canon_settleColl {s : State} {id : Nat} (h : Canon s) : Canon (s.settleColl id) := by
  grind [State.settleColl, canon_endColl]

theorem canon_gradientWire {s : State} {c : Coll} {x2 : Nat} (h : Canon s) : Canon (s.gradientWire c x2).1 := by
  grind [State.gradientWire, canon_modColl, canon_wteBytes]

/-- The definition is unfolded with the reads held abstract: evaluating them would run over all units of a chunk. -/
theorem canon_gatherCodes {s : State} {c : Coll} {chunk : Nat} (h : Canon s) : Canon (s.gatherCodes c chunk).1 := by
  have hp : ∀ s p l, Canon s → Canon (State.wtePieces s p l).1 := fun s p l h => canon_wtePieces h
  obtain ⟨gather, hg⟩ : ∃ g, g = @State.gatherCodes := ⟨_, rfl⟩
  rw [← hg]
  delta State.gatherCodes at hg
  obtain ⟨pieces, hpieces⟩ : ∃ p, p = @State.wtePieces := ⟨_, rfl⟩
  rw [← hpieces] at hp hg
  subst hg
  exact canon_ite (canon_modColl (hp _ _ _ h)) (hp _ _ _ h)

theorem canon_readVersion {s : State} {c : Coll} (h : Canon s) : Canon (s.readVersion c).1 := by
  grind [State.readVersion, canon_modColl, canon_wteNat]

theorem canon_takeVersion {s : State} {c : Coll} {r : Nat} {v : BitVec 64} (h : Canon s) : Canon (s.takeVersion c r v) := by
  grind [State.takeVersion, canon_wteEvent, canon_modColl, canon_wteWrite, canon_wteNat, canon_modPdk, canon_noteDevice]

theorem canon_takeGather {s : State} {c : Coll} {r chunk : Nat} {version : BitVec 64} {xs : List (BitVec 32)} (h : Canon s) : Canon
    (s.takeGather c r chunk version xs) := by
  grind [State.takeGather, canon_modColl, canon_wteWrite, canon_dueReports, canon_takeVersion]

theorem canon_writePermute {s : State} {c : Coll} {x2 : HeldChunk} (h : Canon s) : Canon (s.writePermute c x2) := by
  grind [State.writePermute, canon_wteWrite, canon_dueReports, canon_modTether]

theorem canon_takePermute {s : State} {c : Coll} {x2 : HeldChunk} (h : Canon s) : Canon (s.takePermute c x2) := by
  grind [State.takePermute, canon_modColl, canon_writePermute]

theorem canon_releaseHeld {s : State} {id : Nat} (h : Canon s) : Canon (s.releaseHeld id) := by
  grind [State.releaseHeld, canon_modColl, canon_writePermute]

theorem canon_stageChunk {s : State} {t : Nat} {f : Frame} (h : Canon s) : Canon (s.stageChunk t f) := by
  grind [State.stageChunk, canon_modTether]

theorem canon_sendReduce {s : State} {c : Coll} (h : Canon s) : Canon (s.sendReduce c) := by
  grind [State.sendReduce, canon_modColl, canon_gradientWire, canon_stageChunk]

theorem canon_sendGather {s : State} {c : Coll} (h : Canon s) : Canon (s.sendGather c) := by
  have hp : ∀ s c k, Canon s → Canon (State.gatherCodes s c k).1 := fun s c k h => canon_gatherCodes h
  obtain ⟨send, hs⟩ : ∃ g, g = @State.sendGather := ⟨_, rfl⟩
  rw [← hs]
  delta State.sendGather at hs
  obtain ⟨gather, hg⟩ : ∃ p, p = @State.gatherCodes := ⟨_, rfl⟩
  rw [← hg] at hp hs
  subst hs
  dsimp only
  have hq := hp s c c.sendC h
  have hv : Canon (if c.sendC = 0 then (gather s c c.sendC).1.readVersion c else ((gather s c c.sendC).1, 0)).1 := by
    split
    · exact canon_readVersion hq
    · exact hq
  exact canon_ite h (canon_modColl (canon_ite (canon_takeGather hv) (canon_stageChunk hv)))

theorem canon_permuteBytes {s : State} {c : Coll} {a n : Nat} (h : Canon s) : Canon (s.permuteBytes c a n).1 := by
  grind [State.permuteBytes, canon_draw, canon_wteUe, canon_wteBytes, canon_foldl, canon_foldl_fst]

theorem canon_sendPermute {s : State} {c : Coll} (h : Canon s) : Canon (s.sendPermute c) := by
  grind [State.sendPermute, canon_modColl, canon_permuteBytes, canon_takePermute, canon_stageChunk]

theorem canon_sendChunk {s : State} {id : Nat} (h : Canon s) : Canon (s.sendChunk id) := by
  grind [State.sendChunk, canon_endColl, canon_sendReduce, canon_sendGather, canon_sendPermute, canon_settleColl]

theorem canon_takeChunk {s : State} {t : Nat} {f : Frame} (h : Canon s) : Canon (s.takeChunk t f) := by
  grind [State.takeChunk, canon_modColl, canon_takeGather, canon_takePermute, canon_settleColl]

theorem canon_latchGroups {s : State} {p : Nat} {step : BitVec 28} (h : Canon s) : Canon (s.latchGroups p step) := by
  grind [State.latchGroups, canon_modPdk]

theorem canon_noteElement {s : State} {id p index group row : Nat} (h : Canon s) : Canon (s.noteElement id p index group row) := by
  grind [State.noteElement, canon_wteEvent, canon_modColl, canon_noteDevice]

theorem canon_settleElement {s : State} {c : Coll} {index : Nat} {r : BitVec 64} {res : ElementResult} (h : Canon s) : Canon (s.settleElement
    c index r res) := by
  grind [State.settleElement, canon_modEntry, canon_noteElement, canon_modPdk]

theorem canon_updateUnit {s : State} {c : Coll} {env : UpdateEnv} {e0 : Nat} {sums : List (BitVec 32)} (h : Canon s) : Canon (s.updateUnit c
    env e0 sums) := by
  grind [State.updateUnit, canon_wteWrite, canon_settleElement, canon_wteUe, canon_wtePieces, canon_foldl]

theorem canon_closeChunk {s : State} {id chunk : Nat} (h : Canon s) : Canon (s.closeChunk id chunk) := by
  grind [State.closeChunk, canon_modColl, canon_dueReports, canon_writeVersion, canon_settleColl]

theorem canon_ownerUpdate {s : State} {id chunk : Nat} (h : Canon s) : Canon (s.ownerUpdate id chunk) := by
  grind [State.ownerUpdate, canon_gradientWire, canon_latchGroups, canon_closeChunk, canon_updateUnit, canon_foldl]

theorem canon_passDeadline {s : State} {id : Nat} (h : Canon s) : Canon (s.passDeadline id) := by
  grind [State.passDeadline, canon_wteEvent, canon_modColl]

theorem canon_abortColl {s : State} {id : Nat} (h : Canon s) : Canon (s.abortColl id) := by
  grind [State.abortColl, canon_endColl, canon_modColl, canon_modTether, canon_foldl]

/-! ### Machine/Act -/

theorem canon_clearSilage {s : State} {m old new : Nat} (h : Canon s) : Canon (s.clearSilage m old new) := by
  grind [State.clearSilage, canon_clearBanks]

theorem canon_enablePort {s : State} {n : Nat} {on : Bool} (h : Canon s) : Canon (s.enablePort n on) := by
  grind [State.enablePort, canon_modPort, canon_portWentOff]

theorem canon_queueEnabled {s : State} {q : Nat} (h : Canon s) : Canon (s.queueEnabled q) := by
  grind [State.queueEnabled, canon_modQueue]

theorem canon_ringStarted {s : State} (h : Canon s) : Canon (s.ringStarted) := h

theorem canon_valueActs {s old : State} {r : Reg} (h : Canon s) : Canon (s.valueActs old r) := by
  unfold State.valueActs
  dsimp only
  split
  · exact canon_ite h (canon_clearSilage h)
  · exact canon_sourceChanged h
  · exact canon_ite (canon_queueEnabled h) h
  · exact canon_ite (canon_ringStarted h) h
  · exact canon_ite (canon_setReg h) h
  · exact canon_ite h (canon_enablePort h)
  · exact canon_modPdk h
  · exact h

theorem canon_installValues {s : State} {vs : Tbl (BitVec 64)} (h : Canon s) : Canon (s.installValues vs) := by
  grind [State.installValues, canon_valueActs, canon_bringIntoForce, canon_foldl]

theorem canon_advanceMemEpoch {s : State} {p : Nat} (h : Canon s) : Canon (s.advanceMemEpoch p) := by
  grind [State.advanceMemEpoch, canon_raise, canon_modPdk]

theorem canon_rotateKeys {s : State} {p : Nat} (h : Canon s) : Canon (s.rotateKeys p) := by
  grind [State.rotateKeys, canon_advanceMemEpoch, canon_modPdk]

theorem canon_clearSheafMemory {s : State} {m : Nat} (h : Canon s) : Canon (s.clearSheafMemory m) := by
  grind [State.clearSheafMemory, canon_clearStore, canon_clearBanks, canon_foldl]

theorem canon_scrubSheaf {s : State} {p m : Nat} (h : Canon s) : Canon (s.scrubSheaf p m) := by
  grind [State.scrubSheaf, canon_modSheaf, canon_modTile, canon_clearSheafMemory, canon_foldl]

theorem canon_scrubTether {s : State} {p t : Nat} (h : Canon s) : Canon (s.scrubTether p t) := by
  grind [State.scrubTether, canon_modPort, canon_closeTether, canon_foldl]

theorem canon_resetFields {s : State} {r : Reg} (h : Canon s) : Canon (s.resetFields r) := by
  grind [State.resetFields, canon_setReg, canon_resetReg]

theorem canon_resetPaddock {s : State} {p : Nat} (h : Canon s) : Canon (s.resetPaddock p) := by
  grind [State.resetPaddock, canon_resetFields, canon_modPdk, canon_foldl]

theorem canon_finishRelease {s : State} {p cleared : Nat} (h : Canon s) : Canon (s.finishRelease p cleared) := by
  grind [State.finishRelease, canon_raise, canon_modPdk]

theorem canon_releaseWhole {s : State} {p : Nat} {regions : List Nat} (h : Canon s) : Canon (s.releaseWhole p regions) := by
  grind [State.releaseWhole, canon_resetPaddock, canon_scrubTether, canon_finishRelease, canon_abortColl, canon_modPdk, canon_endSeals, canon_foldl]

theorem canon_actChange {s : State} {c : PdkChange} (h : Canon s) : Canon (s.actChange c) := by
  grind [State.actChange, canon_withChange, canon_releaseWhole, canon_advanceMemEpoch, canon_scrubSheaf, canon_foldl]

theorem canon_settleResidents {s : State} {ms : List Nat} (h : Canon s) : Canon (s.settleResidents ms) := by
  grind [State.settleResidents, canon_modSheaf, canon_foldl]

theorem canon_changeSheafPhase {s : State} {p m : Nat} {old : Phase} (h : Canon s) : Canon (s.changeSheafPhase p old m) := by
  grind [State.changeSheafPhase, canon_closeEntry, canon_raise, canon_modTile, canon_foldl]

theorem canon_changePhase {s old : State} {p : Nat} (h : Canon s) : Canon (s.changePhase old p) := by
  refine canon_ite h (canon_foldl (fun s m h => ?_) _ _ h)
  exact canon_ite (canon_changeSheafPhase h) (canon_ite (canon_foldl (fun s e h => canon_closeSaved h) _ _ h) h)

theorem canon_stopForStart {s : State} {p start n : Nat} (h : Canon s) : Canon (s.stopForStart p start n) := by
  grind [State.stopForStart, canon_modTile]

theorem canon_stopForDebug {s : State} {n : Nat} (h : Canon s) : Canon (s.stopForDebug n) := by
  grind [State.stopForDebug, canon_modTile]

theorem canon_stopNamed {s : State} {c : ProgCmd} (h : Canon s) : Canon (s.stopNamed c) := by
  grind [State.stopNamed, canon_stopForStart, canon_stopForDebug, canon_foldl]

theorem canon_stopPrograms {s : State} (h : Canon s) : Canon (s.stopPrograms) := by
  grind [State.stopPrograms, canon_stopNamed, canon_foldl]

theorem canon_installStaged {s : State} (h : Canon s) : Canon (s.installStaged) := by
  grind [State.installStaged, canon_settleResidents, canon_changePhase, canon_installValues, canon_modPdk, canon_actChange, canon_foldl]

theorem canon_endAborted {s : State} (h : Canon s) : Canon (s.endAborted) := by
  grind [State.endAborted, canon_abortColl, canon_foldl]

theorem canon_actUnits {s : State} (h : Canon s) : Canon (s.actUnits) := by
  grind [State.actUnits, canon_decideHolds, canon_installStaged, canon_endAborted, canon_stopPrograms, canon_rotateKeys, canon_foldl]

theorem canon_unitsAct {s : State} (h : Canon s) : Canon (s.unitsAct) := by
  grind [State.unitsAct, canon_actUnits, canon_advancePos]

/-! ### Machine/Manger -/

theorem canon_mangerRead {s : State} (h : Canon s) : Canon (s.mangerRead) := by
  grind [State.mangerRead, canon_advancePos]

theorem canon_takeSlots {s : State} {q n : Nat} {a : List CmdRec} (h : Canon s) : Canon (s.takeSlots q n a) := by
  fun_induction State.takeSlots <;> grind [canon_modQueue]

theorem canon_lateRead {s : State} {q : Nat} (h : Canon s) : Canon (s.lateRead q) := by
  grind [State.lateRead, canon_raise, canon_modQueue]

theorem canon_fetchQueue {s : State} {late : List Nat} {q : Nat} (h : Canon s) : Canon (s.fetchQueue late q) := by
  grind [State.fetchQueue, canon_takeSlots, canon_lateRead]

theorem canon_mangerFetch {s : State} {late : List Nat} (h : Canon s) : Canon (s.mangerFetch late) := by
  grind [State.mangerFetch, canon_fetchQueue, canon_unitsAct, canon_foldl]

theorem canon_putReply {s : State} {r : Reply} (h : Canon s) : Canon (s.putReply r) := by
  grind [State.putReply, canon_masterWrite]

theorem canon_writeReplies {s : State} {linkOk : Bool} (h : Canon s) : Canon (s.writeReplies linkOk) := by
  grind [State.writeReplies, canon_putReply, canon_advancePos, canon_foldl]

theorem canon_expireReplies {s : State} (h : Canon s) : Canon (s.expireReplies) := by
  grind [State.expireReplies, canon_raise, canon_foldl]

theorem canon_answer {s : State} {c : Fetched} {id : Nat} {a : Answer} (h : Canon s) : Canon (s.answer c id a) := h

theorem canon_perform {s : State} {isOp : Nat → Bool} {f : State → Fetched → Nat → State × Answer} (hf : ∀ s c id, Canon s → Canon (f s c
    id).1) (h : Canon s) : Canon (s.perform isOp f) := by
  unfold State.perform
  split
  · exact h
  · exact canon_ite h (canon_answer (hf _ _ _ (canon_advancePos (canon_unitsAct h))))

theorem canon_command {s : State} {op : Nat} {operator : Bool} {count : Option (Option Nat)} {f : State → Fetched → Nat → State × Answer} (hf
    : ∀ s c id, Canon s → Canon (f s c id).1) (h : Canon s) : Canon (s.command op operator count f) := by
  refine canon_perform ?_ h
  intro s c id h
  split
  · exact h
  · split
    · exact hf _ _ _ h
    · split
      · exact h
      · split
        · exact h
        · exact hf _ _ _ h

/-! ### Machine/Commands -/

theorem canon_armGroups {s : State} {arm : BitVec 64} (h : Canon s) : Canon (s.armGroups arm) := by
  grind [State.armGroups, canon_setReg, canon_noteDevice]

theorem canon_configWrite {s : State} {r : Reg} {v : BitVec 64} (h : Canon s) : Canon (s.configWrite r v) := by
  grind [State.configWrite, canon_writeReg]

theorem canon_config {s : State} {c : Fetched} (h : Canon s) : Canon (s.config c).1 := by
  grind [State.config, canon_readOperand, canon_configWrite, canon_armGroups, canon_foldl]

theorem canon_admitCopy {s : State} {c : Fetched} {kind : CopyKind} {n : Nat} {key : BitVec 256} (h : Canon s) : Canon (s.admitCopy c kind n
    key).1 := h

theorem canon_copy {s : State} {c : Fetched} (h : Canon s) : Canon (s.copy c).1 := by
  grind [State.copy, canon_admitCopy]

theorem canon_sealCopy {s : State} {c : Fetched} {kind : CopyKind} (h : Canon s) : Canon (s.sealCopy c kind).1 := by
  grind [State.sealCopy, canon_admitCopy]

theorem canon_markAbort {s : State} {c : Fetched} (h : Canon s) : Canon (s.markAbort c).1 := by
  grind [State.markAbort]

theorem canon_tetherClose {s : State} {c : Fetched} (h : Canon s) : Canon (s.tetherClose c).1 := by
  grind [State.tetherClose, canon_closeTether]

theorem canon_retrain {s : State} {c : Fetched} (h : Canon s) : Canon (s.retrain c).1 := by
  grind [State.retrain, canon_modPort]

/-! ### Machine/Chaff -/

theorem canon_ctabBody {n : Nat} {s : State} {t : Tile} {w : BitVec 64} (h : Canon s) : IssuedOk (ctabBody n s t w) := by
  grind [ctabBody, canon_modTile, IssuedOk]

theorem canon_completeBuild {s : State} {n : Nat} (h : Canon s) : Canon (s.completeBuild n) := by
  grind [State.completeBuild, canon_advanceTo, canon_opFault, canon_modTile, canon_checkRead]

theorem canon_cissBody {n : Nat} {s : State} {t : Tile} {w : BitVec 64} (h : Canon s) : IssuedOk (cissBody n s t w) := by
  grind [cissBody, canon_readRanges, canon_raise, canon_modTile, IssuedOk]

theorem canon_startStream {s : State} {n : Nat} (h : Canon s) : Canon (s.startStream n) := by
  grind [State.startStream, canon_advanceTo, canon_readRanges, canon_opFault, canon_modTile]

theorem canon_autoLength {s : State} {n : Nat} {o : UnitOp} (h : Canon s) : Canon (s.autoLength n o) := by
  grind [State.autoLength, canon_draw, canon_modTile]

theorem canon_completeIssue {s : State} {n : Nat} (h : Canon s) : Canon (s.completeIssue n) := by
  grind [State.completeIssue, canon_advanceTo, canon_autoLength, canon_modTile]

theorem canon_cdrBody {n : Nat} {s : State} {t : Tile} {w : BitVec 64} (h : Canon s) : IssuedOk (cdrBody n s t w) := by
  grind [cdrBody, canon_modTile, IssuedOk]

theorem canon_completeChaffDrain {s : State} {n : Nat} (h : Canon s) : Canon (s.completeChaffDrain n) := by
  grind [State.completeChaffDrain, canon_advanceTo, canon_nonFiniteAt, canon_deliver, canon_modTile]

theorem canon_ckclrBody {n : Nat} {s : State} {x2 : Tile} {w : BitVec 64} (h : Canon s) : IssuedOk (ckclrBody n s x2 w) := by
  grind [ckclrBody, canon_modTile, IssuedOk]

theorem canon_ckrdBody {n : Nat} {s : State} {t : Tile} {w : BitVec 64} (h : Canon s) : IssuedOk (ckrdBody n s t w) := by
  grind [ckrdBody, canon_writePieces, canon_modTile, IssuedOk]

theorem canon_clenBody {n : Nat} {s : State} {t : Tile} {w : BitVec 64} (h : Canon s) : IssuedOk (clenBody n s t w) := by
  grind [clenBody, canon_modTile, IssuedOk]

/-! ### Machine/SowerUnit -/

theorem canon_sdrawBody {n : Nat} {s : State} {t : Tile} {w : BitVec 64} (h : Canon s) : IssuedOk (sdrawBody n s t w) := by
  grind [sdrawBody, canon_modTile, IssuedOk]

theorem canon_sdropBody {n : Nat} {s : State} {t : Tile} {w : BitVec 64} (h : Canon s) : IssuedOk (sdropBody n s t w) := by
  grind [sdropBody, canon_modTile, IssuedOk]

theorem canon_completeSower {s : State} {n : Nat} (h : Canon s) : Canon (s.completeSower n) := by
  grind [State.completeSower, canon_advanceTo, canon_writePieces, canon_nonFiniteAt, canon_deliver, canon_opFault, canon_modTile, canon_readPlanes]

/-! ### Machine/Admit -/

theorem canon_readTable {s : State} {p a n : Nat} (h : Canon s) : Canon (s.readTable p a n).1 := by
  grind [State.readTable, canon_readOperand]

theorem canon_readColl {s : State} {p desc id : Nat} (h : Canon s) : Canon (s.readColl p desc id).1 := by
  grind [State.readColl, canon_readTable, canon_readOperand]

theorem canon_finishEmpty {s : State} {c : Coll} (h : Canon s) : Canon (s.finishEmpty c) := by
  grind [State.finishEmpty, canon_wteWrite, canon_modPdk]

theorem canon_takeEarly {s : State} {id : Nat} {tag : BitVec 16} {m : Nat × Nat} (h : Canon s) : Canon (s.takeEarly id tag m) := by
  grind [State.takeEarly, canon_modColl, canon_modTether]

theorem canon_admitColl {s : State} {c : Coll} (h : Canon s) : Canon (s.admitColl c) := by
  grind [State.admitColl, canon_takeEarly, canon_foldl]

theorem canon_collective {s : State} {f : Fetched} (h : Canon s) : Canon (s.collective f).1 := by
  grind [State.collective, canon_admitColl, canon_readColl, canon_finishEmpty]

theorem canon_assignAll {s : State} {t : Nat} {prot : Bool} {a : List (Nat × Nat)} (h : Canon s) : ∀ u, s.assignAll t prot a = some u → Canon
    u := by
  fun_induction State.assignAll <;> grind [canon_assignEntries]

theorem canon_placeTether {s : State} {t : Nat} {x : Tether} {ports : List (Nat × Nat)} (h : Canon s) : ∀ u, s.placeTether t x ports = some u
    → Canon u := by
  intro u hu
  unfold State.placeTether at hu
  dsimp only at hu
  split at hu
  · cases hu
  · rename_i v hv
    obtain ⟨-, hu⟩ := Option.ite_none_left_eq_some.1 hu
    obtain ⟨-, hu⟩ := Option.ite_none_left_eq_some.1 hu
    cases hu
    exact canon_modTether (canon_assignAll (canon_modTether (canon_draw (canon_draw h))) v hv)

theorem canon_tetherOpen {s : State} {f : Fetched} (h : Canon s) : Canon (s.tetherOpen f).1 := by
  grind [State.tetherOpen, canon_readOperand, canon_placeTether]

/-! ### Machine/Programs -/

theorem canon_imageReadable {s : State} {p a n : Nat} (h : Canon s) : Canon (s.imageReadable p a n).1 := by
  grind [State.imageReadable, canon_checkSource]

theorem canon_readImages {s : State} {p queue a : Nat} {x4 : List (Nat × BitVec 48)} (h : Canon s) : Canon (s.readImages p queue a x4).1 := by
  fun_induction State.readImages <;> grind [canon_imageReadable]

theorem canon_queueReleases {s : State} {is : List ProgImage} (h : Canon s) : Canon (s.queueReleases is) := h

theorem canon_admitPrograms {s : State} {c : Fetched} {id : Nat} {kind : ProgKind} {is : List ProgImage} (h : Canon s) : Canon
    (s.admitPrograms c id kind is).1 := by
  grind [State.admitPrograms, canon_queueReleases]

theorem canon_programSet {s : State} {c : Fetched} {id : Nat} (h : Canon s) : Canon (s.programSet c id).1 := by
  grind [State.programSet, canon_readOperand, canon_admitPrograms, canon_readImages]

theorem canon_restart {s : State} {c : Fetched} {id : Nat} (h : Canon s) : Canon (s.restart c id).1 := by
  grind [State.restart, canon_readOperand, canon_admitPrograms]

theorem canon_resumeTile {s : State} {n : Nat} (h : Canon s) : Canon (s.resumeTile n) := by
  grind [State.resumeTile, canon_tileFault, canon_modTile]

theorem canon_openTile {s : State} {n : Nat} (h : Canon s) : Canon (s.openTile n) := by
  grind [State.openTile, canon_resumeTile, canon_modTile]

theorem canon_queueReturns {s : State} (h : Canon s) : Canon (s.queueReturns) := h

theorem canon_openWindow {s : State} (h : Canon s) : Canon (s.openWindow) := by
  grind [State.openWindow, canon_openTile, canon_unitsAct, canon_queueReturns, canon_advancePos, canon_foldl]

theorem canon_unreadableBody {s : State} {p a : Nat} {x3 : List ProgImage} (h : Canon s) : Canon (s.unreadableBody p a x3).1 := by
  fun_induction State.unreadableBody <;> grind [canon_imageReadable]

theorem canon_loadImage {s : State} {p : Nat} {i : ProgImage} (h : Canon s) : Canon (s.loadImage p i) := by
  grind [State.loadImage, canon_modTile]

theorem canon_loadImages {s : State} (h : Canon s) : Canon (s.loadImages) := by
  grind [State.loadImages, canon_settleReply, canon_unreadableBody, canon_openWindow, canon_loadImage, canon_modTile, canon_foldl]

/-! ### Machine/Boot -/

theorem canon_releaseSheaf {s : State} {m : Nat} (h : Canon s) : Canon (s.releaseSheaf m) := by
  grind [State.releaseSheaf, canon_modSheaf, canon_chargeSheaf]

theorem canon_startTest {s : State} {m : Nat} (h : Canon s) : Canon (s.startTest m) := by
  grind [State.startTest, canon_modSheaf, canon_chargeSheaf]

theorem canon_activitySpan {s : State} {i : Nat} (h : Canon s) : Canon (s.activitySpan i) := by
  grind [State.activitySpan, canon_modSheaf, canon_startTest, canon_openWindow, canon_releaseSheaf, canon_advancePos, canon_foldl]

theorem canon_selftest {s : State} {c : Fetched} {id : Nat} (h : Canon s) : Canon (s.selftest c id).1 := by
  unfold State.selftest
  split
  · rename_i hr
    exact canon_fst (canon_readOperand h) hr
  · rename_i hr
    have h1 := canon_fst (canon_readOperand h) hr
    dsimp only
    repeat' split
    all_goals exact h1

theorem canon_raiseTestFail {s : State} {m : Nat} {logic memory boot : Bool} (h : Canon s) : Canon (s.raiseTestFail m logic memory boot) := by
  grind [State.raiseTestFail, canon_raise]

theorem canon_reinitSheaf {s : State} {m : Nat} (h : Canon s) : Canon (s.reinitSheaf m) := by
  grind [State.reinitSheaf, canon_resetReg, canon_clearSheafMemory]

theorem canon_tallyTest {s : State} {command : Nat} {failed : Bool} (h : Canon s) : Canon (s.tallyTest command failed) := by
  grind [State.tallyTest, canon_raise]

theorem canon_returnTested {s : State} (h : Canon s) : ∀ u, s.returnTested = some u → Canon u := by
  grind [State.returnTested, canon_activitySpan]

theorem canon_endTest {s : State} {m : Nat} {logicOk memOk : Bool} (h : Canon s) : Canon (s.endTest m logicOk memOk) := by
  grind [State.endTest, canon_advanceTo, canon_returnTested, canon_reinitSheaf, canon_tallyTest, canon_raiseTestFail]

theorem canon_trainHost {s : State} {width rate : Nat} (h : Canon s) : Canon (s.trainHost width rate) := by
  grind [State.trainHost, canon_raise]

theorem canon_resetHost {s : State} (h : Canon s) : Canon (s.resetHost) := by
  grind [State.resetHost, canon_raise]

theorem canon_poweredUp {s : State} {b : Boot} (h : Canon s) : Canon (s.poweredUp b) := canonical_filter h _

theorem canon_bootEvents {s : State} {b : Boot} (h : Canon s) : Canon (s.bootEvents b) := by
  grind [State.bootEvents, canon_raise, canon_raiseTestFail, canon_foldl]

theorem canon_powerUp {s : State} {b : Boot} (h : Canon s) : Canon (s.powerUp b) := by
  grind [State.powerUp, canon_bootEvents, canon_poweredUp]

/-! ### Machine/Bridle -/

theorem canon_trainPort {s : State} {n : Nat} (h : Canon s) : Canon (s.trainPort n) := by
  grind [State.trainPort, canon_modPort]

theorem canon_insertModule {s : State} {m : Nat} {found : Module} (h : Canon s) : Canon (s.insertModule m found) := by
  grind [State.insertModule, canon_draw, canon_setSecurity, canon_modSite, canon_raise, canon_trainPort, canon_foldl]

theorem canon_losePort {s : State} {n : Nat} (h : Canon s) : Canon (s.losePort n) := by
  grind [State.losePort, canon_modPort, canon_failLane, canon_foldl]

theorem canon_removeModule {s : State} {m : Nat} (h : Canon s) : Canon (s.removeModule m) := by
  grind [State.removeModule, canon_modSite, canon_losePort, canon_foldl]

theorem canon_countLaser {s : State} {m : Nat} {seconds : BitVec 32} (h : Canon s) : Canon (s.countLaser m seconds) := by
  grind [State.countLaser, canon_modSite]

theorem canon_writeLife {s : State} {m : Nat} {seconds : BitVec 32} (h : Canon s) : Canon (s.writeLife m seconds) := by
  grind [State.writeLife, canon_modSite, canon_countLaser]

theorem canon_noteWear {s : State} {m : Nat} {seconds : BitVec 32} (h : Canon s) : Canon (s.noteWear m seconds) := by
  grind [State.noteWear, canon_modSite, canon_countLaser, canon_raise]

theorem canon_fillPorts {s : State} {t count : Nat} {a : List Nat} (h : Canon s) : ∀ u, s.fillPorts t count a = some u → Canon u := by
  fun_induction State.fillPorts <;> grind [canon_assignEntries, canon_modTether]

theorem canon_refillPorts {s : State} {t : Nat} {a : List Nat} (h : Canon s) : ∀ u, s.refillPorts t a = some u → Canon u := by
  fun_induction State.refillPorts <;> grind [canon_fillPorts]

theorem canon_moveTether {s : State} {m t : Nat} (h : Canon s) : ∀ u, s.moveTether m t = some u → Canon u := by
  intro u hu
  unfold State.moveTether at hu
  dsimp only at hu
  split at hu
  · cases hu
  · rename_i v hv
    obtain ⟨-, hu⟩ := Option.ite_none_left_eq_some.1 hu
    cases hu
    exact canon_modTether (canon_refillPorts (canon_modTether h) _ hv)

theorem canon_leaveModule {m t : Nat} {x : State × Nat × Nat} (h : Canon x.1) : Canon (State.leaveModule m x t).1 := by
  obtain ⟨s, moved, left⟩ := x
  grind [State.leaveModule, canon_moveTether, canon_raise, canon_modTether]

theorem canon_endModule {s : State} {m : Nat} {seconds : BitVec 32} (h : Canon s) : Canon (s.endModule m seconds) := by
  grind [State.endModule, canon_noteWear, canon_darkenPort, canon_modSite, canon_raise, canon_leaveModule, canon_foldl, canon_foldl_fst]

/-! ### Machine/Control -/

theorem canon_endRun {s : State} {n : Nat} (h : Canon s) : Canon (s.endRun n) := by
  grind [State.endRun, canon_abandonRepeats, canon_modPdk, canon_noteDevice, canon_modTile]

theorem canon_settlePeers {s : State} {n : Nat} (h : Canon s) : Canon (s.settlePeers n) := by
  grind [State.settlePeers, canon_peerFaults]

theorem canon_endBody {n : Nat} {s : State} {t : Tile} {x3 : BitVec 64} (h : Canon s) : IssuedOk (endBody n s t x3) := by
  grind [endBody, canon_endRun, canon_modTile, IssuedOk]

theorem canon_brBody {s : State} {t : Tile} {w : BitVec 64} (h : Canon s) : IssuedOk (brBody s t w) := h

theorem canon_loopBody {s : State} {t : Tile} {w : BitVec 64} (h : Canon s) : IssuedOk (loopBody s t w) := by
  grind [loopBody, IssuedOk]

theorem canon_swaitBody {n : Nat} {s : State} {t : Tile} {x3 : BitVec 64} (h : Canon s) : IssuedOk (swaitBody n s t x3) := by
  grind [swaitBody, canon_retireWait, canon_endRun, canon_modTile, IssuedOk]

theorem canon_barBody {n : Nat} {s : State} {t : Tile} {w : BitVec 64} (h : Canon s) : IssuedOk (barBody n s t w) := by
  grind [barBody, canon_modSheaf, canon_modTile, IssuedOk]

theorem canon_leaveBarrier {s : State} {n : Nat} (h : Canon s) : Canon (s.leaveBarrier n) := by
  grind [State.leaveBarrier, canon_retire, canon_modTile]

theorem canon_completeBarrier {s : State} {m b : Nat} (h : Canon s) : Canon (s.completeBarrier m b) := by
  grind [State.completeBarrier, canon_advanceTo, canon_modSheaf, canon_leaveBarrier, canon_foldl]

theorem canon_fenceMBody {s : State} {t : Tile} {x2 : BitVec 64} (h : Canon s) : IssuedOk (fenceMBody s t x2) := by
  grind [fenceMBody, IssuedOk]

theorem canon_emitBody {n : Nat} {s : State} {t : Tile} {w : BitVec 64} (h : Canon s) : IssuedOk (emitBody n s t w) := by
  grind [emitBody, canon_raise, IssuedOk]

theorem canon_rdsysBody {n : Nat} {s : State} {x2 : Tile} {w : BitVec 64} (h : Canon s) : IssuedOk (rdsysBody n s x2 w) := by
  grind [rdsysBody, canon_modTile, IssuedOk]

theorem canon_lremBody {n : Nat} {s : State} {x2 : Tile} {w : BitVec 64} (h : Canon s) : IssuedOk (lremBody n s x2 w) := by
  grind [lremBody, canon_modTile, IssuedOk]

theorem canon_faultReserved {s : State} {n : Nat} (h : Canon s) : Canon (s.faultReserved n) := by
  grind [State.faultReserved, canon_advanceTo, canon_tileFault]

/-! ### Machine/Budget -/

theorem canon_someWritten {s : State} {p : Nat} {a : List (Nat × List Byte)} (h : Canon s) : Canon (s.someWritten p a) := by
  fun_induction State.someWritten <;> grind [canon_draw, canon_writeChunk]

theorem canon_abandonAll {s : State} {n : Nat} (h : Canon s) : Canon (s.abandonAll n) := by
  grind [State.abandonAll, canon_someWritten, canon_abandonRepeats, canon_modTile, canon_foldl]

theorem canon_settleMoves {s : State} {n : Nat} {accepted : List Nat} (h : Canon s) : Canon (s.settleMoves n accepted) := by
  grind [State.settleMoves, canon_doAtomic, canon_performMove, canon_modTile, canon_foldl]

theorem canon_budgetEnds {s : State} {n at_ : Nat} {accepted : List Nat} (h : Canon s) : Canon (s.budgetEnds n at_ accepted) := by
  grind [State.budgetEnds, canon_advanceTo, canon_settleMoves, canon_settlePeers, canon_abandonAll, canon_stopTile]

theorem canon_tileBudget {s : State} {n : Nat} {accepted : List Nat} (h : Canon s) : Canon (s.tileBudget n accepted) := by
  grind [State.tileBudget, canon_budgetEnds]

/-! ### Machine/Frames -/

theorem canon_discardFrame {s : State} {n : Nat} (h : Canon s) : Canon (s.discardFrame n) := by
  grind [State.discardFrame, canon_modPort]

theorem canon_takeReport {s : State} {t : Nat} {f : Frame} (h : Canon s) : Canon (s.takeReport t f) := by
  grind [State.takeReport, canon_modTether, canon_takeCollReport, canon_settleColl]

theorem canon_deliverRing {s : State} {n t : Nat} {f : Frame} (h : Canon s) : Canon (s.deliverRing n t f) := by
  grind [State.deliverRing, canon_modTether, canon_masterWrite]

theorem canon_takeData {s : State} {n : Nat} {f : Frame} (h : Canon s) : Canon (s.takeData n f) := by
  grind [State.takeData, canon_discardFrame, canon_deliverRing, canon_modTether, canon_takeReport, canon_takeChunk]

/-! ### Machine/Paddocks -/

theorem canon_admitChange {s : State} {c : PdkChange} (h : Canon s) : Canon (s.admitChange c).1 := by
  grind [State.admitChange, canon_armGroups]

theorem canon_paddockSet {s : State} {f : Fetched} {id : Nat} (h : Canon s) : Canon (s.paddockSet f id).1 := by
  grind [State.paddockSet, canon_readOperand, canon_admitChange, canon_composed]

theorem canon_paddockRelease {s : State} {f : Fetched} {id : Nat} (h : Canon s) : Canon (s.paddockRelease f id).1 := by
  grind [State.paddockRelease, canon_readOperand, canon_admitChange, canon_composed]

theorem canon_clearRegion {s : State} {r : Nat} (h : Canon s) : Canon (s.clearRegion r) := h

theorem canon_endClear {s : State} {r : Nat} (h : Canon s) : Canon (s.endClear r) := by
  grind [State.endClear, canon_finishRelease, canon_setRegion, canon_modPdk, canon_clearRegion]

theorem canon_sweepUnit {s : State} {p u : Nat} (h : Canon s) : Canon (s.sweepUnit p u) := by
  grind [State.sweepUnit, canon_correctUnit, canon_failUnit]

theorem canon_endSweep {s : State} {p : Nat} (h : Canon s) : Canon (s.endSweep p) := by
  grind [State.endSweep, canon_sweepUnit, canon_raise, canon_modPdk, canon_foldl]

theorem canon_patrol {s : State} {k u : Nat} (h : Canon s) : Canon (s.patrol k u) := by
  grind [State.patrol, canon_correctUnit, canon_failUnit]

theorem canon_keyRotate {s : State} {f : Fetched} (h : Canon s) : Canon (s.keyRotate f).1 := by
  grind [State.keyRotate, canon_composed, canon_modPdk]

theorem canon_withKeyPair {s : State} {p : Nat} (h : Canon s) : Canon (s.withKeyPair p).1 := by
  grind [State.withKeyPair, canon_draw, canon_modPdk]

theorem canon_sign {s : State} {p dest : Nat} {nonce : List Byte} (h : Canon s) : Canon (s.sign p dest nonce).1 := by
  grind [State.sign, canon_withKeyPair, canon_raise, canon_masterWrite]

theorem canon_attest {s : State} {f : Fetched} (h : Canon s) : Canon (s.attest f).1 := by
  grind [State.attest, canon_sign, canon_readOperand]

theorem canon_sealKey {s : State} {f : Fetched} (h : Canon s) : Canon (s.sealKey f).1 := by
  grind [State.sealKey, canon_readOperand, canon_modPdk]

/-! ### Machine/Mgmt -/

theorem canon_respond {s : State} {status : Byte} {bs : List Byte} (h : Canon s) : Canon (s.respond status bs) := h

theorem canon_done {s : State} (h : Canon s) : Canon (s.done) := by
  grind [State.done, canon_respond]

theorem canon_refuse {s : State} (h : Canon s) : Canon (s.refuse) := by
  grind [State.refuse, canon_respond]

theorem canon_mgtRead {s : State} {offset : Nat} (h : Canon s) : Canon (s.mgtRead offset) := by
  grind [State.mgtRead, canon_refuse, canon_respond]

theorem canon_capWrite {s : State} {v : BitVec 16} (h : Canon s) : Canon (s.capWrite v) := by
  grind [State.capWrite, canon_refuse, canon_setShadow, canon_done, canon_noteDevice, canon_armGroups]

theorem canon_sleepPart {s : State} (h : Canon s) : Canon (s.sleepPart) := by
  grind [State.sleepPart]

theorem canon_mgtRestart {s : State} (h : Canon s) : Canon (s.mgtRestart) := by
  grind [State.mgtRestart, canon_done, canon_holdPart]

theorem canon_advanceLife {s : State} {k : Token} (h : Canon s) : Canon (s.advanceLife k) := by
  grind [State.advanceLife, canon_setSecurity, canon_refuse, canon_raise, canon_done, canon_holdPart]

theorem canon_flashWrite {s : State} {offset : Nat} {bs : List Byte} (h : Canon s) : Canon (s.flashWrite offset bs) := canon_ite (canon_refuse h)
    (canon_done ⟨h.1, sorted_writeFlash _ _ _ h.2⟩)

theorem canon_rpsFetch {s : State} (h : Canon s) : Canon (s.rpsFetch) := by
  grind [State.rpsFetch, canon_respond, canon_done]

theorem canon_rpsReply {s : State} {a : StoreReply} (h : Canon s) : Canon (s.rpsReply a) := by
  grind [State.rpsReply, canon_setSecurity, canon_refuse, canon_raise, canon_done]

/-! ### Machine/Scalar -/

theorem canon_writeS {s : State} {n r latency : Nat} {v : BitVec 32} (h : Canon s) : Canon (s.writeS n r v latency) := by
  grind [State.writeS, canon_modTile]

theorem canon_aluBody {n : Nat} {s : State} {t : Tile} {w : BitVec 64} (h : Canon s) : IssuedOk (aluBody n s t w) := by
  grind [aluBody, canon_writeS, IssuedOk]

theorem canon_aluiBody {n : Nat} {s : State} {t : Tile} {w : BitVec 64} (h : Canon s) : IssuedOk (aluiBody n s t w) := by
  grind [aluiBody, canon_writeS, IssuedOk]

theorem canon_aopBody {n : Nat} {s : State} {t : Tile} {w : BitVec 64} (h : Canon s) : IssuedOk (aopBody n s t w) := by
  grind [aopBody, canon_modTile, IssuedOk]

theorem canon_startLoad {s : State} {n o size : Nat} {t : Tile} {w : BitVec 64} {k : OpKind} (h : Canon s) : Canon (s.startLoad n t w k o
    size) := by
  grind [State.startLoad, canon_modTile, canon_checkRead]

theorem canon_loadBody {n : Nat} {k : OpKind} {size : BitVec 64 → Nat} {s : State} {t : Tile} {w : BitVec 64} (h : Canon s) : IssuedOk
    (loadBody n k size s t w) := by
  grind [loadBody, canon_startLoad, IssuedOk]

theorem canon_storeBody {n size value : Nat} {s : State} {t : Tile} {w : BitVec 64} (h : Canon s) : IssuedOk (storeBody n size value s t w)
    := by
  unfold storeBody
  dsimp only
  split
  · exact canonical_setBytes h _ _
  · trivial

theorem canon_returnLoad {s : State} {n : Nat} (h : Canon s) : Canon (s.returnLoad n) := by
  grind [State.returnLoad, canon_advanceTo, canon_opFault, canon_modTile, canon_checkRead]

/-! ### Machine/Switch -/

theorem canon_saveEntry {s : State} {q m e : Nat} (h : Canon s) : Canon (s.saveEntry q m e) := by
  grind [State.saveEntry, canon_modSheaf, canon_masterWrite]

theorem canon_loadEntry {s : State} {p m e : Nat} (h : Canon s) : Canon (s.loadEntry p m e) := by
  grind [State.loadEntry, canon_masterRead, canon_modSheaf, canon_modEntry]

theorem canon_settleEntries {s : State} {m : Nat} (h : Canon s) : Canon (s.settleEntries m) := by
  grind [State.settleEntries, canon_evaluateClose, canon_foldl]

theorem canon_saveSheaf {s : State} {q m : Nat} (h : Canon s) : Canon (s.saveSheaf q m) := by
  grind [State.saveSheaf, canon_masterWrite, canon_saveEntry, canon_foldl]

theorem canon_loadTile {s : State} {p m n : Nat} (h : Canon s) : Canon (s.loadTile p m n) := by
  grind [State.loadTile, canon_masterRead, canon_modTile]

theorem canon_loadSheaf {s : State} {p m : Nat} (h : Canon s) : Canon (s.loadSheaf p m) := by
  grind [State.loadSheaf, canon_loadTile, canon_loadEntry, canon_foldl]

theorem canon_switchSheaf {s : State} {m : Nat} (h : Canon s) : Canon (s.switchSheaf m) := by
  grind [State.switchSheaf, canon_loadSheaf, canon_modSheaf, canon_settleEntries, canon_unitsAct, canon_saveSheaf, canon_clearSheafMemory, canon_advancePos]

/-! ### Machine/Tick -/

theorem canon_settleLoads {s : State} (h : Canon s) : Canon (s.settleLoads) := h

theorem canon_finishStride {s : State} (h : Canon s) : Canon (s.finishStride) := by
  grind [State.finishStride, canon_settleLoads, canon_unitsAct, canon_actUnits, canon_budgetEnds, canon_foldl]

theorem canon_closeAccounts {s : State} {x1 : Sensors} (h : Canon s) : Canon (s.closeAccounts x1) := by
  grind [State.closeAccounts, canon_endSummaries, canon_countMissed, canon_reportSlack, canon_closeCharge, canon_attributeEnergy]

theorem canon_disableQueues {s : State} (h : Canon s) : Canon (s.disableQueues) := by
  grind [State.disableQueues, canon_setReg, canon_setShadow, canon_foldl]

theorem canon_installSealKeys {s : State} (h : Canon s) : Canon (s.installSealKeys) := by
  grind [State.installSealKeys, canon_modPdk, canon_foldl]

theorem canon_renew {s : State} (h : Canon s) : Canon (s.renew) := by
  grind [State.renew, canon_modPdk, canon_foldl]

theorem canon_atTick {s : State} {x1 : Sensors} (h : Canon s) : Canon (s.atTick x1) := by
  grind [State.atTick, canon_ringWrite, canon_renew, canon_commitTick, canon_sampleHeat, canon_tetherTick, canon_sampleEnergy, canon_installSealKeys,
    canon_restoreTethers, canon_readInput, canon_disableQueues]

theorem canon_strideTick {s : State} {x1 : Sensors} {env : Env} (h : Canon s) : Canon (s.strideTick x1 env) := by
  grind [State.strideTick, canon_setNow, canon_closeAccounts, canon_takeEnv, canon_finishStride, canon_measurePower, canon_atTick]

/-! ### Commands -/

/-- Whatever state a command answers is canonical. -/
def OutcomeOk : Host.Outcome State Fault Refusal → Prop
  | .next s => Canon s
  | .fault _ => True
  | .refused _ => True

/-- A meaning that applies only while the part runs. -/
theorem canon_runs {s : State} {f : State → State} (h : Canon s) (hf : ∀ s, Canon s → Canon (f s)) : OutcomeOk (.next (s.whenRunning f)) :=
  canon_whenRunning hf h

/-- A tile instruction. -/
theorem canon_tile {s : State} {n op : Nat} {ready : State → Tile → BitVec 64 → Option Nat} {body : State → Tile → BitVec 64 → Issued} (h : Canon s)
    (hb : ∀ s t w, Canon s → IssuedOk (body s t w)) : OutcomeOk (.next (s.issueWhen n op ready body)) :=
  canon_issueWhen hb h

/-- A Manger command. -/
theorem canon_command_runs {s : State} {op : Nat} {operator : Bool} {count : Option (Option Nat)} {f : State → Fetched → Nat → State × Answer}
    (h : Canon s) (hf : ∀ s c id, Canon s → Canon (f s c id).1) :
    OutcomeOk (.next (s.whenRunning fun s => s.command op operator count f)) :=
  canon_runs h fun _ h => canon_command hf h

/-- A Manger command that reads memory. -/
theorem canon_env_command_runs {s : State} {env : Env} {op : Nat} {operator : Bool} {count : Option (Option Nat)}
    {f : State → Fetched → Nat → State × Answer} (h : Canon s) (hf : ∀ s c id, Canon s → Canon (f s c id).1) :
    OutcomeOk (.next (s.whenRunning fun s => (s.takeEnv env).command op operator count f)) :=
  canon_runs h fun _ h => canon_command hf (canon_takeEnv h)

/-- Every command keeps memory and flash canonical. -/
theorem canon_exec (i : Instr) {s : State} (h : Canon s) : OutcomeOk (exec i s) := by
  cases i with
  | strideTick _ _ => exact canon_runs h fun s h => canon_strideTick h
  | unitsAct => exact canon_runs h fun s h => canon_unitsAct h
  | mangerRead _ => exact canon_runs h fun s h => canon_mangerRead (canon_takeEnv h)
  | mangerFetch _ => exact canon_runs h fun s h => canon_mangerFetch h
  | replyWrite _ => exact canon_runs h fun s h => canon_writeReplies h
  | replyBoundExpiry => exact canon_runs h fun s h => canon_expireReplies h
  | paddockSwitch _ => exact canon_runs h fun s h => canon_switchSheaf h
  | gtcCorrection => exact canon_runs h fun s h => canon_correctGtc h
  | programWindowOpen => exact canon_runs h fun s h => canon_openWindow h
  | programImageLoad _ => exact canon_runs h fun s h => canon_loadImages (canon_takeEnv h)
  | sheafActivitySpan _ => exact canon_runs h fun s h => canon_activitySpan h
  | selftestEnd _ _ _ => exact canon_runs h fun s h => canon_endTest h
  | strideSyncEdge _ _ => exact canon_runs h fun s h => canon_syncEdge h
  | holdover => exact canon_runs h fun s h => canon_enterHoldover h
  | reacquire => exact canon_runs h fun s h => canon_reacquire h
  | registerWrite _ _ _ => exact canon_runs h fun s h => canon_hostWrite h
  | apertureAccess _ _ _ _ => exact canon_runs h fun s h => canon_aperture (canon_takeEnv h)
  | mtgEntryWrite _ _ _ _ => exact canon_runs h fun s h => canon_barWrite h
  | evtReadIndexWrite _ => exact canon_runs h fun s h => canon_barWrite h
  | debugMem _ _ => exact canon_runs h fun s h => canon_barWrite (canon_takeEnv h)
  | debugMemDone => exact canon_runs h fun s h => h
  | debugHalt _ => exact canon_runs h fun s h => canon_barWrite h
  | debugForce _ => exact canon_runs h fun s h => canon_barWrite h
  | end_ _ => exact canon_settlePeers (canon_issueWhen (fun s t w h => canon_endBody h) h)
  | br _ => exact canon_tile h fun s t w h => canon_brBody h
  | loop _ => exact canon_tile h fun s t w h => canon_loopBody h
  | swait _ => exact canon_settlePeers (canon_issueWhen (fun s t w h => canon_swaitBody h) h)
  | bar _ => exact canon_settlePeers (canon_issue (fun s t w h => canon_barBody h) h)
  | barrierComplete _ _ => exact canon_runs h fun s h => canon_completeBarrier h
  | fenceM _ => exact canon_tile h fun s t w h => canon_fenceMBody h
  | emit _ => exact canon_tile h fun s t w h => canon_emitBody h
  | nfclr _ => exact canon_tile h fun s t w h => canon_clearNonFinite h
  | rdsys _ => exact canon_tile h fun s t w h => canon_rdsysBody h
  | lrem _ => exact canon_tile h fun s t w h => canon_lremBody h
  | nop _ => exact canon_tile h fun s t w h => h
  | alu _ => exact canon_tile h fun s t w h => canon_aluBody h
  | alui _ => exact canon_tile h fun s t w h => canon_aluiBody h
  | li _ => exact canon_tile h fun s t w h => canon_writeS h
  | cmp _ => exact canon_tile h fun s t w h => canon_modTile h
  | cmpi _ => exact canon_tile h fun s t w h => canon_modTile h
  | pred _ => exact canon_tile h fun s t w h => canon_modTile h
  | aop _ => exact canon_tile h fun s t w h => canon_aopBody h
  | ali _ => exact canon_tile h fun s t w h => canon_modTile h
  | aaddi _ => exact canon_tile h fun s t w h => canon_modTile h
  | ld _ => exact canon_tile h fun s t w h => canon_loadBody h
  | st _ => exact canon_tile h fun s t w h => canon_storeBody h
  | lda _ => exact canon_tile h fun s t w h => canon_loadBody h
  | sta _ => exact canon_tile h fun s t w h => canon_storeBody h
  | tld _ => exact canon_tile h fun s t w h => canon_loadBody h
  | tst _ => exact canon_tile h fun s t w h => canon_storeBody h
  | tset _ => exact canon_tile h fun s t w h => canon_modTile h
  | tadd _ => exact canon_tile h fun s t w h => canon_modTile h
  | scalarLoadReturn _ _ => exact canon_runs h fun s h => canon_returnLoad (canon_takeEnv h)
  | movb _ => exact canon_tile h fun s t w h => canon_movbBody h
  | movt _ => exact canon_tile h fun s t w h => canon_movtBody h
  | moveComplete _ _ _ => exact canon_runs h fun s h => canon_completeMove (canon_takeEnv h)
  | atom _ => exact canon_tile h fun s t w h => canon_atomBody h
  | atomicPerform _ _ => exact canon_runs h fun s h => canon_performAtomic (canon_takeEnv h)
  | fmm _ => exact canon_tile h fun s t w h => canon_fmmBody h
  | fwaProductStart _ _ => exact canon_runs h fun s h => canon_startFwaProduct (canon_takeEnv h)
  | fwaProductComplete _ => exact canon_runs h fun s h => canon_completeFwaProduct h
  | fdr _ => exact canon_tile h fun s t w h => canon_fdrBody h
  | fwaDrainStart _ => exact canon_runs h fun s h => canon_startFwaDrain h
  | fwaDrainComplete _ => exact canon_runs h fun s h => canon_completeFwaDrain h
  | ffence _ => exact canon_tile h fun s t w h => canon_ffenceBody h
  | bmm _ => exact canon_tile h fun s t w h => canon_bmmBody h
  | bwaProductStart _ _ => exact canon_runs h fun s h => canon_startBwaProduct (canon_takeEnv h)
  | bwaProductComplete _ => exact canon_runs h fun s h => canon_completeBwaProduct h
  | bdr _ => exact canon_tile h fun s t w h => canon_bdrBody h
  | bwaDrainStart _ => exact canon_runs h fun s h => canon_startBwaDrain h
  | bwaDrainComplete _ => exact canon_runs h fun s h => canon_completeBwaDrain h
  | hq _ => exact canon_tile h fun s t w h => canon_convBody h
  | hx _ => exact canon_tile h fun s t w h => canon_convBody h
  | hw _ => exact canon_tile h fun s t w h => canon_convBody h
  | ht _ => exact canon_tile h fun s t w h => canon_convBody h
  | conversionStart _ => exact canon_runs h fun s h => canon_startConversion h
  | conversionComplete _ _ => exact canon_runs h fun s h => canon_completeConversion (canon_takeEnv h)
  | mopen _ => exact canon_tile h fun s t w h => canon_mopenBody h
  | mclose _ => exact canon_tile h fun s t w h => canon_mcloseBody h
  | mtgCloseEvaluation _ _ => exact canon_runs h fun s h => canon_evaluateClose h
  | partVerdict _ _ => exact canon_runs h fun s h => canon_judgePart h
  | mverd _ => exact canon_tile h fun s t w h => canon_mverdBody h
  | agreementRepeat _ => exact canon_runs h fun s h => canon_issueRepeat h
  | agreementCompare _ => exact canon_runs h fun s h => canon_compareRepeats h
  | ctab _ => exact canon_tile h fun s t w h => canon_ctabBody h
  | tableBuildComplete _ _ => exact canon_runs h fun s h => canon_completeBuild (canon_takeEnv h)
  | ciss _ => exact canon_tile h fun s t w h => canon_cissBody h
  | chaffStreamStart _ _ => exact canon_runs h fun s h => canon_startStream (canon_takeEnv h)
  | chaffIssueComplete _ => exact canon_runs h fun s h => canon_completeIssue h
  | cdr _ => exact canon_tile h fun s t w h => canon_cdrBody h
  | chaffDrainComplete _ => exact canon_runs h fun s h => canon_completeChaffDrain h
  | ckclr _ => exact canon_tile h fun s t w h => canon_ckclrBody h
  | ckrd _ => exact canon_tile h fun s t w h => canon_ckrdBody h
  | clen _ => exact canon_tile h fun s t w h => canon_clenBody h
  | sdraw _ => exact canon_tile h fun s t w h => canon_sdrawBody h
  | sdrop _ => exact canon_tile h fun s t w h => canon_sdropBody h
  | sowerOperationComplete _ _ => exact canon_runs h fun s h => canon_completeSower (canon_takeEnv h)
  | waitu _ => exact canon_tile h fun s t w h => h
  | reservedOpcode _ => exact canon_runs h fun s h => canon_faultReserved h
  | tileBudget _ _ => exact canon_runs h fun s h => canon_tileBudget h
  | mangerNop => exact canon_command_runs h fun s c id h => h
  | config _ => exact canon_env_command_runs h fun s c id h => canon_config h
  | copy => exact canon_command_runs h fun s c id h => canon_copy h
  | sealIn => exact canon_command_runs h fun s c id h => canon_sealCopy h
  | sealOut => exact canon_command_runs h fun s c id h => canon_sealCopy h
  | copyEngineTransfer _ => exact canon_runs h fun s h => canon_transferCopy (canon_takeEnv h)
  | copyBoundExpiry => exact canon_runs h fun s h => canon_expireCopies h
  | programSet _ => exact canon_env_command_runs h fun s c id h => canon_programSet h
  | restart _ => exact canon_env_command_runs h fun s c id h => canon_restart h
  | collective _ => exact canon_env_command_runs h fun s c id h => canon_collective h
  | collAbort => exact canon_command_runs h fun s c id h => canon_markAbort h
  | tetherOpen _ => exact canon_env_command_runs h fun s c id h => canon_tetherOpen h
  | tetherClose => exact canon_command_runs h fun s c id h => canon_tetherClose h
  | linkRetrain => exact canon_command_runs h fun s c id h => canon_retrain h
  | paddockSet _ => exact canon_env_command_runs h fun s c id h => canon_paddockSet h
  | paddockRelease _ => exact canon_env_command_runs h fun s c id h => canon_paddockRelease h
  | keyRotate => exact canon_command_runs h fun s c id h => canon_keyRotate h
  | attest _ => exact canon_env_command_runs h fun s c id h => canon_attest h
  | sealKey _ => exact canon_env_command_runs h fun s c id h => canon_sealKey h
  | selftest _ => exact canon_env_command_runs h fun s c id h => canon_selftest h
  | reservedCommand => exact canon_runs h fun s h => canon_perform (fun s c id h => h) h
  | readyWordPoll _ => exact canon_runs h fun s h => canon_pollReady h
  | collectiveStart _ => exact canon_runs h fun s h => canon_startColl h
  | chunkSend _ _ => exact canon_runs h fun s h => canon_sendChunk (canon_takeEnv h)
  | ownerUpdate _ _ _ => exact canon_runs h fun s h => canon_ownerUpdate (canon_takeEnv h)
  | permuteHoldRelease _ => exact canon_runs h fun s h => canon_releaseHeld h
  | collectiveDeadline _ => exact canon_runs h fun s h => canon_passDeadline h
  | laneGroupStart _ => exact canon_runs h fun s h => canon_sendLcb h
  | entrySend _ _ _ => exact canon_runs h fun s h => canon_sendEntry (canon_takeEnv h)
  | linkControlBlock _ _ => exact canon_runs h fun s h => canon_takeLcb h
  | laneRemap _ => exact canon_runs h fun s h => canon_applyRemap h
  | laneFail _ _ _ => exact canon_runs h fun s h => canon_failLane h
  | helloFrame _ _ => exact canon_runs h fun s h => canon_takeHello h
  | dataFrame _ _ _ => exact canon_runs h fun s h => canon_takeData (canon_takeEnv h)
  | reportFrame _ _ => exact canon_runs h fun s h => canon_ite h (canon_ite (canon_takeReport h) (canon_discardFrame h))
  | idleFrame _ => exact canon_runs h fun s h => canon_takeIdle h
  | tetherOpeningTimeout _ => exact canon_runs h fun s h => canon_timeOutTether h
  | tetherBroken _ => exact canon_runs h fun s h => canon_breakTether h
  | tetherBoundExpiry _ => exact canon_runs h fun s h => canon_expireTether h
  | bridleInsert _ _ => exact canon_runs h fun s h => canon_insertModule h
  | bridleRemove _ => exact canon_runs h fun s h => canon_removeModule h
  | bridleLifeWrite _ _ => exact canon_runs h fun s h => canon_writeLife h
  | bridleWear _ _ => exact canon_runs h fun s h => canon_noteWear h
  | bridleEol _ _ => exact canon_runs h fun s h => canon_endModule h
  | patrolRead _ _ _ => exact canon_runs h fun s h => canon_patrol (canon_takeEnv h)
  | regionClearEnd _ => exact canon_runs h fun s h => canon_endClear h
  | keySweepEnd _ => exact canon_runs h fun s h => canon_endSweep h
  | gleanerRecord => exact canon_runs h fun s h => canon_takeRecord h
  | gleanerRingWrite => exact canon_runs h fun s h => canon_ringWrite h
  | hostLinkTrain _ _ => exact canon_runs h fun s h => canon_trainHost h
  | hostReset => exact canon_runs h fun s h => canon_resetHost h
  | inputExcursion _ => exact canon_inputExcursion h
  | inputFail _ => exact canon_inputFail h
  | refclkLoss => exact canon_runs h fun s h => canon_holdPart h
  | powerUpReset _ => exact canon_powerUp h
  | regRead _ => exact canon_mgtRead h
  | capWrite _ => exact canon_capWrite h
  | mgtRestart => exact canon_mgtRestart h
  | hold => exact canon_done (canon_holdPart h)
  | sleep => exact canon_done (canon_sleepPart h)
  | lifecycle _ => exact canon_advanceLife h
  | flashWrite _ _ => exact canon_flashWrite h
  | rpsFetch => exact canon_rpsFetch h
  | rpsReply _ => exact canon_rpsReply h
  | mgtReservedRequest _ => exact canon_refuse h
  | linkTrainingEnd _ _ _ => exact canon_runs h fun s h => canon_endTraining h
  | debugScan => exact canon_runs h fun s h => canon_ite (canon_debugUse h) h
  | inputExcursionEnd _ => exact canon_endExcursion h
  | hostRegisterRead _ _ => exact canon_runs h fun s h => canon_hostRead h

/-- Settles O60: each command's effect keeps the form, as does the passing of one aclk. -/
theorem memoryStaysCanonical : Obligations.MemoryStaysCanonical := by
  intro s t hs ht
  have h : Canon s := (memoryOk_iff s).1 hs
  refine (memoryOk_iff t).2 ?_
  have hstep : OutcomeOk (step s) := by
    unfold step
    split
    · exact canon_idle h
    · exact canon_exec _ h
  rwa [ht] at hstep

end Sys2Proof.Laws
end

section
/-!
SUPPORT. The control instructions of a tile (R245, R251 to R257, R290): what each body does, and the statements that they do this.
-/

namespace Sys2Proof.Laws

open Sys2Proof.Machine Sys2Proof.Safety

/-! ### A guard that does not hold (R245) -/

/-- Settles O7: with its guard off no instruction reaches its body, and no tile of the sheaf waits for the tile. -/
theorem guardedOffDoesNothing : Obligations.GuardedOffDoesNothing := by
  intro q hq s n pc loops t at_ hop hp hr hw hg hb ht ha harr
  have hoff {ready body} : s.issueWhen n q.2 ready body =
      (s.advanceTo at_).setTile n (goOn t pc loops ((s.advanceTo at_).now + 1)) :=
    issueWhen_off ready body hop hp hr hw hg hb ht ha
  have hpeers {ready body} : (s.issueWhen n q.2 ready body).settlePeers n =
      (s.advanceTo at_).setTile n (goOn t pc loops ((s.advanceTo at_).now + 1)) := by
    rw [hoff, settlePeers_none]
    rwa [State.sheaf, State.setTile_sheaves, ← State.sheaf, State.sheaf_advanceTo]
  simp only [guardedOpcodes, List.cons_append, List.nil_append, List.mem_cons, List.not_mem_nil, or_false] at hq
  rcases hq with rfl | rfl | rfl | rfl | rfl | rfl | rfl | rfl | rfl | rfl | rfl | rfl | rfl | rfl | rfl | rfl | rfl | rfl | rfl |
    rfl | rfl | rfl | rfl | rfl | rfl | rfl | rfl | rfl | rfl | rfl | rfl | rfl | rfl | rfl | rfl | rfl | rfl | rfl | rfl | rfl |
    rfl | rfl | rfl | rfl | rfl | rfl | rfl | rfl | rfl | rfl | rfl
  case inl => exact congrArg _ hpeers
  case inr.inr.inl => exact congrArg _ hpeers
  case inr.inr.inr.inl => exact congrArg _ hpeers
  all_goals exact congrArg _ hoff

/-! ### Branches (R252) -/

/-- A BR whose target is 0 or beyond the last instruction faults, whether its guard holds or not (R233, R246). -/
theorem issueWhen_badBranch {s : State} {n op : Nat} (ready : State → Tile → BitVec 64 → Option Nat) (body : State → Tile → BitVec 64 → Issued)
    (h1 : opOf (s.tile n).fetch = op) (h2 : s.isRunning = true) (h3 : (s.tile n).seqState = .running)
    (h4 : reservedWord (s.tile n).preds (s.tile n).fetch = false) (h5 : guardHolds (s.tile n).preds (s.tile n).fetch = false)
    (h6 : (s.tile n).badBranch (s.tile n).fetch = true)
    (h7 : max (s.tile n).nextIssue (max s.windowStart s.now) ≤ s.stride * strideLen + 1999 + (s.tile n).budget) :
    s.issueWhen n op ready body = (s.advanceTo (max (s.tile n).nextIssue (max s.windowStart s.now))).tileFault n cBranch 0 := by
  have h0 : (s.tile n).operandsAt [] = some 0 := by
    simp [Tile.operandsAt]
  simp only [State.issueWhen, h1, h2, h3, h4, h5, h6, h0, Bool.false_eq_true, if_false, Bool.not_true, Bool.or_false, ne_eq,
    not_true_eq_false, decide_false, if_true, Nat.max_zero]
  rw [if_neg (Nat.not_lt.2 h7)]

/-- As `issueWhen_badBranch`, where the guard holds. -/
theorem issue_badBranch {s : State} {n op at_ : Nat} {w : BitVec 64} (body : State → Tile → BitVec 64 → Issued)
    (h : Issues s n op 0 w at_) (hb : (s.tile n).badBranch w = true) :
    s.issue n op body = (s.advanceTo at_).tileFault n cBranch 0 := by
  obtain ⟨l, hl, hat⟩ := h.landed
  simp only [State.issue, State.issueWhen, reservedWord, h.word, h.powered, h.state, h.opcode, h.legal, h.guard, hl, if_true]
  simp only [Bool.not_true, Bool.and_false, Bool.or_false, ne_eq, not_true_eq_false, decide_false, Bool.false_eq_true, if_false, hb, ← hat]
  rw [if_neg (Nat.not_lt.2 h.inTime), if_pos trivial]

theorem badBranch_iff {t : Tile} {w : BitVec 64} (h : opOf w = 2) :
    t.badBranch w = true ↔ bits w 0 11 = 0 ∨ t.lastPc < t.pc.toNat + bits w 0 11 := by
  simp [Tile.badBranch, h]

/-- The loops that a branch leaves open: those whose body end the target does not lie beyond, with the inner ones closed. -/
def openLoops (loops : List LoopLevel) (x : Nat) : List LoopLevel :=
  (loops.reverse.dropWhile fun l => decide (l.stop.toNat < x)).reverse

theorem openLoops_append_closed (loops : List LoopLevel) (x : Nat) :
    ∃ closed, loops = openLoops loops x ++ closed ∧ ∀ l ∈ closed, l.stop.toNat < x := by
  refine ⟨(loops.reverse.takeWhile fun l => decide (l.stop.toNat < x)).reverse, ?_, fun l hl => ?_⟩
  · rw [openLoops, ← List.reverse_append, List.takeWhile_append_dropWhile, List.reverse_reverse]
  · simpa using List.mem_takeWhile_imp (List.mem_reverse.1 hl)

theorem le_stop_of_getLast?_openLoops {loops : List LoopLevel} {x : Nat} {l : LoopLevel}
    (h : (openLoops loops x).getLast? = some l) : x ≤ l.stop.toNat := by
  rw [openLoops, List.getLast?_reverse] at h
  have := List.head?_dropWhile_not (fun l : LoopLevel => decide (l.stop.toNat < x)) loops.reverse
  rw [h] at this
  simpa using this

/-! ### LOOP (R253) -/

theorem exec_loop {s : State} {n at_ : Nat} {w : BitVec 64} (h : Issues s n 0x03 0 w at_) :
    exec (.loop n) s = .next (issuedState s (s.advanceTo at_) n (loopBody (s.advanceTo at_) (s.tile n) w)) :=
  congrArg _ (issue_of_issues loopBody h (badBranch_false (by rw [h.opcode]; decide)))

/-- A jump of LOOP sets its tile's PC, loop stack and next issue time only. -/
theorem issuedState_jump (s u : State) (n pc : Nat) (loops : List LoopLevel) :
    issuedState s u n (.jump u pc loops) = u.setTile n (goOn (u.tile n) (BitVec.ofNat 11 pc) loops (u.now + 1)) := rfl

/-- The innermost open loop ends before `stop`. -/
def endsBeyond (t : Tile) (stop : Nat) : Bool :=
  match t.loops.getLast? with
  | some l => decide (l.stop.toNat < stop)
  | none => false

theorem endsBeyond_eq_false {t : Tile} {stop : Nat} (h : ∀ l, t.loops.getLast? = some l → stop ≤ l.stop.toNat) :
    endsBeyond t stop = false := by
  unfold endsBeyond
  split
  next l hl => exact decide_eq_false (Nat.not_lt.2 (h l hl))
  next => rfl

theorem endsBeyond_eq_true {t : Tile} {stop : Nat} (h : ∃ l, t.loops.getLast? = some l ∧ l.stop.toNat < stop) :
    endsBeyond t stop = true := by
  obtain ⟨l, hl, hlt⟩ := h
  simp [endsBeyond, hl, hlt]

theorem loopBody_eq (s : State) (t : Tile) (w : BitVec 64) :
    loopBody s t w =
      if t.lastPc < t.pc.toNat + bits w 36 11 then .fault cBranch 0
      else if endsBeyond t (t.pc.toNat + bits w 36 11) then .fault cLoop 0
      else if bits w 0 24 = 0 then
        if t.lastPc < t.pc.toNat + bits w 36 11 + 1 then .fault cBranch 0 else .jump s (t.pc.toNat + bits w 36 11 + 1) t.loops
      else if 4 ≤ t.loops.length then .fault cLoop 0
      else .jump s (t.pc.toNat + 1) (t.loops ++
        [{ remaining := BitVec.ofNat 24 (bits w 0 24 - 1), start := BitVec.ofNat 11 (t.pc.toNat + 1),
           stop := BitVec.ofNat 11 (t.pc.toNat + bits w 36 11) }]) := rfl

/-- Settles O8: a bad target is found before the guard is looked at, and LOOP by the tests of its body in their order. -/
theorem branchesAndLoops : Obligations.BranchesAndLoops := by
  refine ⟨⟨fun s n w at_ h => ?_, ?_⟩, fun s n w at_ h => ?_⟩
  · intro t off u
    refine ⟨fun ⟨h0, hlast, _⟩ => ?_, fun hbad => congrArg _ (issue_badBranch brBody h ((badBranch_iff h.opcode).2 hbad))⟩
    have hgood : t.badBranch w = false := by
      rw [← Bool.not_eq_true, badBranch_iff h.opcode]
      exact not_or.2 ⟨h0, Nat.not_lt.2 hlast⟩
    have ha : t.after (some (t.pc.toNat + off)) = some (t.pc + BitVec.ofNat 11 off, openLoops t.loops (t.pc.toNat + off)) := by
      simp [Tile.after, openLoops, BitVec.ofNat_add]
    refine ⟨openLoops t.loops (t.pc.toNat + off), ?_, openLoops_append_closed _ _, fun l => le_stop_of_getLast?_openLoops⟩
    have hret := issueWhen_retires (fun _ _ _ => some 0) brBody h rfl hgood ha rfl
    rw [State.tile_advanceTo] at hret
    exact congrArg _ hret
  · intro s n t at_ hop hp hr hl hg ht hbad
    refine congrArg _ (issueWhen_badBranch _ brBody hop hp hr ?_ hg ((badBranch_iff hop).2 hbad) ht)
    simp [reservedWord, reservedShape, hl, hop, t]
  · intro t trip last u fits
    have hx := exec_loop h
    rw [loopBody_eq] at hx
    have hpc : BitVec.ofNat 11 (t.pc.toNat + 1) = t.pc + 1 := by simp [BitVec.ofNat_add]
    have hjump (pc : Nat) (loops : List LoopLevel) :
        issuedState s u n (.jump u pc loops) = u.setTile n (goOn t (BitVec.ofNat 11 pc) loops (u.now + 1)) := by
      rw [issuedState_jump, State.tile_advanceTo]
    refine ⟨fun ⟨h1, h2⟩ h3 h4 => ?_, fun ⟨h1, h2⟩ h3 h4 => ?_, fun ⟨h1, h2⟩ h3 h4 => ?_, fun ⟨h1, h2⟩ h3 h4 => ?_, fun h1 => ?_,
      fun h1 h2 => ?_⟩
    · rw [hx, if_neg (Nat.not_lt.2 h1), endsBeyond_eq_false h2, if_neg (by decide), if_pos h3, if_neg (Nat.not_lt.2 h4), hjump]
    · rw [hx, if_neg (Nat.not_lt.2 h1), endsBeyond_eq_false h2, if_neg (by decide), if_pos h3, if_pos h4]; rfl
    · rw [hx, if_neg (Nat.not_lt.2 h1), endsBeyond_eq_false h2, if_neg (by decide), if_neg (Nat.pos_iff_ne_zero.1 h3),
        if_neg (Nat.not_le.2 h4), hjump, hpc]
    · rw [hx, if_neg (Nat.not_lt.2 h1), endsBeyond_eq_false h2, if_neg (by decide), if_neg (Nat.pos_iff_ne_zero.1 h3), if_pos h4]; rfl
    · rw [hx, if_pos h1]; rfl
    · rw [hx, if_neg (Nat.not_lt.2 h1), endsBeyond_eq_true h2, if_pos rfl]; rfl

end Sys2Proof.Laws
end

section
/-!
SUPPORT. The control instructions that complete at once, and those that wait (R9, R149, R232, R235, R239, R251, R256, R257, R290).
-/

namespace Sys2Proof.Laws

open Sys2Proof.Machine Sys2Proof.Safety

/-! ### Instructions that write their tile -/

/-- An instruction whose body sets its tile, which still runs, leaves it with its PC, loop stack and next issue time set. -/
theorem issue_writes {s : State} {n op at_ : Nat} {w : BitVec 64} {pc : BitVec 11} {loops : List LoopLevel} {x : Tile}
    (body : State → Tile → BitVec 64 → Issued) (h : Issues s n op 0 w at_) (hop : op ≠ 2) (ha : (s.tile n).after none = some (pc, loops))
    (hx : x.seqState = .running) (hbody : body (s.advanceTo at_) (s.tile n) w = .retire ((s.advanceTo at_).setTile n x) 1 none) :
    s.issue n op body = (s.advanceTo at_).setTile n (goOn x pc loops ((s.advanceTo at_).now + 1)) := by
  have hx' := running_ne_default hx
  have hgo (k : Nat) : goOn x pc loops k ≠ {} := running_ne_default hx
  rw [issue_retires body h hop ha hbody, State.tile_setTile _ _ _ hx', State.setTile_setTile _ _ _ _ hx' (hgo _)]
  rfl

/-- An instruction whose body changes no state leaves its tile with its PC, loop stack and next issue time set. -/
theorem issue_passes {s : State} {n op at_ : Nat} {w : BitVec 64} {pc : BitVec 11} {loops : List LoopLevel}
    (body : State → Tile → BitVec 64 → Issued) (h : Issues s n op 0 w at_) (hop : op ≠ 2) (ha : (s.tile n).after none = some (pc, loops))
    (hbody : body (s.advanceTo at_) (s.tile n) w = .retire (s.advanceTo at_) 1 none) :
    s.issue n op body = (s.advanceTo at_).setTile n (goOn (s.tile n) pc loops ((s.advanceTo at_).now + 1)) := by
  rw [issue_retires body h hop ha hbody, State.tile_advanceTo]

/-! ### What RDSYS reads (R257) -/

/-- The low half of the GTC. -/
theorem ofNat_now_low (s : State) : BitVec.ofNat 32 s.now = s.time.gtc.extractLsb' 0 32 := by
  apply BitVec.eq_of_toNat_eq
  simp [State.now]

/-- The high half of the GTC. -/
theorem ofNat_now_high (s : State) : BitVec.ofNat 32 (s.now / 2 ^ 32) = s.time.gtc.extractLsb' 32 32 := by
  apply BitVec.eq_of_toNat_eq
  simp [State.now, Nat.shiftRight_eq_div_pow]

theorem stride_eq (s : State) : s.stride = s.time.gtc.toNat / 100000 := by rw [State.stride, State.now, strideLen]

theorem position_eq (s : State) : s.position = s.time.gtc.toNat % 100000 := by rw [State.position, State.now, strideLen]

/-- The value of each selector, in the words of R257. -/
theorem sysValue_eq (s : State) (n : Nat) : ∀ sel, s.sysValue n sel = match sel with
    | 0 => BitVec.ofNat 32 n
    | 1 => BitVec.ofNat 32 (n % 64)
    | 2 => BitVec.ofNat 32 (n / 64)
    | 3 => BitVec.ofNat 32 (s.field .glbChip 0 16)
    | 4 => BitVec.ofNat 32 (s.tilePaddock n)
    | 5 => BitVec.ofNat 32 (s.field (.pdkCtl (s.tilePaddock n)) 0 2)
    | 6 => BitVec.ofNat 32 (s.time.gtc.toNat / 100000)
    | 7 => s.time.gtc.extractLsb' 0 32
    | 8 => (s.tile n).gtcHi
    | _ => BitVec.ofNat 32 (s.time.gtc.toNat % 100000 - 2000)
  | 0 | 1 | 2 | 3 | 4 | 5 | 8 => rfl
  | 6 => congrArg (BitVec.ofNat 32) (stride_eq s)
  | 7 => ofNat_now_low s
  | _ + 9 => congrArg (fun p => BitVec.ofNat 32 (p - 2000)) (position_eq s)

/-- RDSYS writes sD, and GTC_HI where the selector is GTC_LO. -/
theorem rdsysBody_eq (n : Nat) (s : State) (t : Tile) (w : BitVec 64) :
    rdsysBody n s t w = .retire (s.setTile n { (s.tile n).setS (fD w) (s.sysValue n (bits w 0 8)) with
      gtcHi := if bits w 0 8 = 7 then s.time.gtc.extractLsb' 32 32 else (s.tile n).gtcHi }) 1 none := by
  simp only [rdsysBody, State.modTile, ofNat_now_high]
  split <;> rfl

/-! ### EMIT (R256) -/

theorem emitBody_eq (n : Nat) (s : State) (t : Tile) (w : BitVec 64) :
    emitBody n s t w = .retire { s with gleaner := { s.gleaner with arriving := s.gleaner.arriving ++
      [{ gtc := BitVec.ofNat 64 s.now, epoch := s.time.loads, source := s.source n, cls := 11, code := 1,
         payload := pack 128 [(0, 16, bits w 0 16), (16, 11, t.pc.toNat), (32, 32, (t.s (fA w)).toNat),
           (64, 32, (t.s (fB w)).toNat), (96, 32, (t.s (fC w)).toNat)] }] } } 1 none := rfl

theorem source_advanceTo (s : State) (t n : Nat) : (s.advanceTo t).source n = s.source n := by
  simp only [State.source, State.chipId, State.field, State.reg, State.advanceTo_regs]

/-! ### FENCE.M (R232) -/

theorem fenceMBody_of_clear (s : State) {t : Tile} (w : BitVec 64) (hm : t.moves = []) (ha : t.atomics = []) :
    fenceMBody s t w = .retire s 1 none := by
  simp [fenceMBody, hm, ha]

theorem fenceMBody_of_busy (s : State) {t : Tile} (w : BitVec 64) (h : t.moves ≠ [] ∨ t.atomics ≠ []) : fenceMBody s t w = .wait := by
  rw [fenceMBody, if_neg (by simpa [← Classical.not_and_iff_not_or_not] using h)]

/-- Settles O9: each body changes what its own line names and nothing else. -/
theorem controlInstructions : Obligations.ControlInstructions := by
  refine ⟨⟨?_, ?_, ?_, ?_⟩, ⟨?_, ?_⟩, ?_⟩
  · intro s n w at_ pc loops h _ ha
    exact congrArg Host.Outcome.next (issue_passes (fun s _ _ => .retire s 1 none) h (by decide) ha rfl)
  · intro s n w at_ pc loops h _ ha
    refine congrArg Host.Outcome.next ?_
    dsimp only
    by_cases hnf : (s.tile n).nfAt = some (s.advanceTo at_).now
    · rw [if_pos hnf]
      exact issue_passes _ h (by decide) ha (by simp [State.clearNonFinite, hnf])
    · rw [if_neg hnf]
      exact issue_writes _ h (by decide) ha h.state (by simp [State.clearNonFinite, hnf])
  · refine writesTile_of_modTile (fun w _ t => t.setS (fD w) (match t.loops[bits w 0 2]? with
      | some l => BitVec.ofNat 32 l.remaining.toNat
      | none => 0)) (fun _ _ => rfl) (by decide) (fun _ _ _ => rfl) fun w _ t _ => ?_
    simp only [BitVec.ofNat_toNat] <;> rfl
  · intro s n w at_ pc loops h ha t u
    refine ⟨fun hm hat => congrArg _ (issue_passes fenceMBody h (by decide) ha (fenceMBody_of_clear u w hm hat)), fun hbusy => ?_⟩
    refine congrArg Host.Outcome.next ?_
    rw [issue_of_issues fenceMBody h (badBranch_false (by rw [h.opcode]; decide)), fenceMBody_of_busy _ _ hbusy]
    rfl
  · intro s n w at_ pc loops h ha t u p sel value
    refine congrArg Host.Outcome.next (issue_writes (rdsysBody n) h (by decide) ha ?_ ?_)
    · exact h.state
    · rw [rdsysBody_eq, State.tile_advanceTo, sysValue_eq, State.tile_advanceTo] <;> rfl
  · intro w ho hs
    simp [legalWord, ho, Nat.not_le.2 hs]
  · intro s n w at_ pc loops h ha t u e
    refine congrArg Host.Outcome.next ((issue_retires (emitBody n) h (by decide) ha (emitBody_eq n u t w)).trans ?_)
    rw [source_advanceTo, State.tile, ← State.tile]
    exact congrArg (fun x => State.setTile _ n (goOn x pc loops _)) (State.tile_advanceTo s at_ n)

end Sys2Proof.Laws
end

section
/-!
SUPPORT. The instructions that wait for what the tile issued before them (R128, R149, R234, R235, R253, R290).
-/

namespace Sys2Proof.Laws

open Sys2Proof.Machine Sys2Proof.Safety

/-! ### The sheaf keeps its arrivals while repeats are abandoned -/

theorem satAdd_one_ne_zero {n : Nat} (v : BitVec (n + 1)) : satAdd v 1 ≠ 0 := by
  intro hz
  have hn := congrArg BitVec.toNat hz
  unfold satAdd at hn
  split at hn
  next h => simp [Nat.mod_eq_of_lt h] at hn
  next => simp [Nat.two_pow_succ] at hn; have := Nat.two_pow_pos n; omega

/-- A table with a value put that is not the default is not empty. -/
theorem put_ne_nil {α : Type} [DecidableEq α] {d : α} {m : Tbl α} {k : Nat} {v : α} (h : v ≠ d) : Tbl.put d m k v ≠ [] := by
  rw [Tbl.put, if_neg h]
  cases m with
  | nil => simp [Tbl.insert]
  | cons c m => simp only [Tbl.insert]; split_ifs <;> simp

/-- The arrivals of every sheaf, which a state shows through its sheaves alone. -/
def SameArrivals (s u : State) : Prop := ∀ m, (u.sheaf m).arrivals = (s.sheaf m).arrivals

/-- The state with its sheaves replaced. -/
def withSheaves (s : State) (sh : Tbl Sheaf) : State := { s with sheaves := sh }

/-- A state that differs in its sheaves alone, none of them in its arrivals. -/
def KeepsArrivals (s u : State) : Prop := (∃ sh, u = withSheaves s sh) ∧ SameArrivals s u

theorem KeepsArrivals.trans {s u v : State} (h1 : KeepsArrivals s u) (h2 : KeepsArrivals u v) : KeepsArrivals s v := by
  obtain ⟨⟨_, rfl⟩, ha⟩ := h1
  obtain ⟨⟨sh, rfl⟩, hb⟩ := h2
  exact ⟨⟨sh, rfl⟩, fun m => (hb m).trans (ha m)⟩

theorem keepsArrivals_countAbandoned (s : State) (m e : Nat) : KeepsArrivals s (s.countAbandoned m e 1) := by
  have hentry (x : MtgEntry) : { x with abandoned := satAdd x.abandoned 1 } ≠ ({} : MtgEntry) := fun h =>
    satAdd_one_ne_zero x.abandoned (congrArg MtgEntry.abandoned h)
  have hsheaf : ({ s.sheaf m with
      entries := Tbl.modify {} (s.sheaf m).entries e fun x => { x with abandoned := satAdd x.abandoned 1 } } : Sheaf) ≠ {} :=
    fun h => put_ne_nil (hentry _) (congrArg Sheaf.entries h)
  rw [State.countAbandoned, if_neg (by decide), State.modEntry, State.modSheaf]
  refine ⟨⟨_, rfl⟩, fun k => ?_⟩
  by_cases hk : k = m
  · subst hk
    rw [State.setSheaf, State.sheaf, Tbl.get_put_nondefault _ _ _ _ hsheaf]
  · rw [State.setSheaf, State.sheaf, Tbl.put, if_neg hsheaf, Tbl.get_insert_other _ _ _ _ _ hk, ← State.sheaf]

theorem keepsArrivals_foldl {α : Type} {f : State → α → State} (hf : ∀ s x, KeepsArrivals s (f s x)) (l : List α) (s : State) :
    KeepsArrivals s (l.foldl f s) := by
  induction l generalizing s with
  | nil => exact ⟨⟨s.sheaves, rfl⟩, fun _ => rfl⟩
  | cons x l ih => exact (hf s x).trans (ih _)

/-! ### The end of a run (R128, R234) -/

/-- The tile with its sampled repeats discarded. -/
def withoutRepeats (t : Tile) : Tile := { t with bwa := t.bwa.filter fun o => !o.sampledRepeat fun _ => true }

theorem abandonRepeats_eq (s : State) (n : Nat) :
    ∃ sh, s.abandonRepeats n (fun _ => true) = (withSheaves s sh).setTile n (withoutRepeats (s.tile n)) ∧
      SameArrivals s (withSheaves s sh) := by
  obtain ⟨⟨sh, hsh⟩, harr⟩ := keepsArrivals_foldl (f := fun s (o : UnitOp) => s.countAbandoned (n / 64) (bits o.tag 32 8) 1)
    (fun s o => keepsArrivals_countAbandoned s _ _) ((s.tile n).bwa.filter fun o => o.sampledRepeat fun _ => true) s
  rw [hsh] at harr
  refine ⟨sh, ?_, harr⟩
  simp only [State.abandonRepeats, hsh]
  rfl

/-- The tile with the watchdog's count among its maximum. -/
def countedRun (t : Tile) (watchdog : Nat) : Tile := { t with budgetMax := BitVec.ofNat 17 (max t.budgetMax.toNat watchdog) }

theorem endRun_eq_abandonRepeats (s : State) (n : Nat) :
    ∃ v : State, s.endRun n = (v.setTile n (countedRun (s.tile n) s.watchdog)).abandonRepeats n (fun _ => true) ∧
      v.tiles = s.tiles ∧ v.mem = s.mem ∧ v.hbm = s.hbm ∧ v.regs = s.regs ∧ v.gleaner = s.gleaner ∧ v.sheaves = s.sheaves := by
  simp only [State.endRun]
  split
  · exact ⟨_, rfl, rfl, rfl, rfl, rfl, rfl, rfl⟩
  · exact ⟨_, rfl, rfl, rfl, rfl, rfl, rfl, rfl⟩

/-- What the end of a run leaves but for the tile itself: no other tile, no memory and no sheaf's arrivals have changed. -/
structure RunEnded (s v : State) : Prop where
  tiles : v.tiles = s.tiles
  mem : v.mem = s.mem
  hbm : v.hbm = s.hbm
  regs : v.regs = s.regs
  gleaner : v.gleaner = s.gleaner
  arrivals : SameArrivals s v

/-- The end of a run changes the tile, and else the paddock's maximum, a note of R9 and counts of Martingale entries. -/
theorem endRun_eq {s : State} {n : Nat} (h : (s.tile n).seqState = .running) :
    ∃ v : State, s.endRun n = v.setTile n (withoutRepeats (countedRun (s.tile n) s.watchdog)) ∧ RunEnded s v := by
  obtain ⟨v, hv, htiles, hmem, hhbm, hregs, hgleaner, hsheaves⟩ := endRun_eq_abandonRepeats s n
  have hx : countedRun (s.tile n) s.watchdog ≠ {} := running_ne_default h
  have hy : withoutRepeats (countedRun (s.tile n) s.watchdog) ≠ {} := running_ne_default h
  obtain ⟨sh, he, harr⟩ := abandonRepeats_eq (v.setTile n (countedRun (s.tile n) s.watchdog)) n
  refine ⟨withSheaves v sh, ?_, htiles, hmem, hhbm, hregs, hgleaner, fun m => ?_⟩
  · rw [hv, he, State.tile_setTile _ _ _ hx]
    exact State.setTile_setTile (withSheaves v sh) n _ _ hx hy
  · exact (harr m).trans (congrArg (fun x => (Tbl.get {} x m : Sheaf).arrivals) hsheaves)

theorem retireWait_of_after {before s : State} {n : Nat} {pc : BitVec 11} {loops : List LoopLevel}
    (h : (before.tile n).afterWait = some (pc, loops)) :
    State.retireWait before s n = s.setTile n (goOn (s.tile n) pc loops (s.now + 1)) := by
  simp only [State.retireWait, h, State.modTile, goOn]

/-- A tile's next place after a wait depends on its PC, loops and program alone. -/
theorem afterWait_congr {t u : Tile} (hp : u.pc = t.pc) (hl : u.loops = t.loops) (hr : u.program = t.program) :
    u.afterWait = t.afterWait := by
  simp only [Tile.afterWait, Tile.after, Tile.lastPc, hp, hl, hr]
  rfl

/-- What END and SWAIT leave of the tile. -/
def stopped (t : Tile) (state : SeqState) (watchdog : Nat) (pc : BitVec 11) (loops : List LoopLevel) (at_ : Nat) : Tile :=
  goOn { withoutRepeats (countedRun t watchdog) with seqState := state } pc loops at_

/-- END of a tile with nothing outstanding. -/
theorem endBody_of_quiet {s : State} {n : Nat} {w : BitVec 64} {pc : BitVec 11} {loops : List LoopLevel}
    (hr : (s.tile n).seqState = .running) (hq : (s.tile n).quiet = true) (ha : (s.tile n).afterWait = some (pc, loops)) :
    ∃ v : State, endBody n s (s.tile n) w = .hold (v.setTile n (stopped (s.tile n) .halted s.watchdog pc loops (s.now + 1))) ∧ RunEnded s v := by
  obtain ⟨v, hv, hframe⟩ := endRun_eq hr
  refine ⟨v, ?_, hframe⟩
  have hx : withoutRepeats (countedRun (s.tile n) s.watchdog) ≠ {} := running_ne_default hr
  have hw : Tile.afterWait { withoutRepeats (countedRun (s.tile n) s.watchdog) with seqState := .halted, nextIssue := s.now + 1 } =
      some (pc, loops) := (afterWait_congr rfl rfl rfl).trans ha
  simp only [endBody, hq, Bool.not_true, Bool.false_eq_true, if_false, hv]
  rw [State.modTile_setTile _ _ _ _ hx (by rw [hw]; exact fun h => by simpa using congrArg Tile.seqState h)]
  simp only [hw]
  rfl

/-- SWAIT of a tile with nothing outstanding. -/
theorem swaitBody_of_quiet {s : State} {n : Nat} {w : BitVec 64} {pc : BitVec 11} {loops : List LoopLevel}
    (hr : (s.tile n).seqState = .running) (hq : (s.tile n).quiet = true) (ha : (s.tile n).afterWait = some (pc, loops)) :
    ∃ (v : State) (at_ : Nat), swaitBody n s (s.tile n) w = .hold (v.setTile n (stopped (s.tile n) .waiting s.watchdog pc loops at_)) ∧
      RunEnded s v := by
  obtain ⟨v, hv, hframe⟩ := endRun_eq hr
  have hx : withoutRepeats (countedRun (s.tile n) s.watchdog) ≠ {} := running_ne_default hr
  have hne {t : Tile} (ht : t.seqState = .waiting) : t ≠ {} := by rintro rfl; exact absurd ht (by decide)
  refine ⟨v, v.now + 1, ?_, hframe⟩
  simp only [swaitBody, hq, Bool.not_true, Bool.false_eq_true, if_false, hv]
  rw [State.modTile_setTile _ _ _ _ hx (hne rfl), retireWait_of_after ha, State.tile_setTile _ _ _ (hne rfl),
    State.setTile_setTile _ _ _ _ (hne rfl) (hne rfl)]
  rfl

/-- A tile that is stopped keeps its registers, and every other tile and memory stay. -/
theorem settled_stopped {s v : State} {n at_ : Nat} {state : SeqState} {pc : BitVec 11} {loops : List LoopLevel} (hs : state ≠ .idle)
    (hframe : RunEnded s v) (harr : (s.sheaf (n / 64)).arrivals = []) :
    ∃ u, (v.setTile n (stopped (s.tile n) state s.watchdog pc loops at_)).settlePeers n = u ∧ (u.tile n).seqState = state ∧
      (u.tile n).pc = pc ∧ (u.tile n).loops = loops ∧
      (u.tile n).sregs = (s.tile n).sregs ∧ (u.tile n).aregs = (s.tile n).aregs ∧ (u.tile n).preds = (s.tile n).preds ∧
      (u.tile n).tregs = (s.tile n).tregs ∧ (u.tile n).budgetMax = BitVec.ofNat 17 (max (s.tile n).budgetMax.toNat s.watchdog) ∧
      u.mem = s.mem ∧ u.hbm = s.hbm ∧ u.regs = s.regs ∧ u.gleaner = s.gleaner ∧ ∀ k, k ≠ n → u.tile k = s.tile k := by
  have hx : stopped (s.tile n) state s.watchdog pc loops at_ ≠ {} := fun h => hs (congrArg Tile.seqState h)
  refine ⟨_, settlePeers_none ((hframe.arrivals _).trans harr), ?_⟩
  rw [State.tile_setTile _ _ _ hx]
  refine ⟨rfl, rfl, rfl, rfl, rfl, rfl, rfl, rfl, hframe.mem, hframe.hbm, hframe.regs, hframe.gleaner, fun k hk => ?_⟩
  rw [State.tile_setTile_other _ _ _ _ hx hk, State.tile, hframe.tiles, ← State.tile]

/-! ### WAITU (R290) and FFENCE (R149) -/

/-- An operation of a masked unit that WAITU waits for is outstanding. -/
def UnitsBusy (t : Tile) (w : BitVec 64) : Prop :=
  (w.getLsbD 0 = true ∧ t.fwa ≠ []) ∨ (w.getLsbD 1 = true ∧ ∃ o ∈ t.bwa, o.kind ≠ .watchProduct) ∨
    (w.getLsbD 2 = true ∧ t.hame ≠ []) ∨ (w.getLsbD 3 = true ∧ t.chaff ≠ []) ∨ (w.getLsbD 4 = true ∧ t.sower ≠ [])

/-- A bit of the low five. -/
theorem bits_div_mod_two {w : BitVec 64} {i : Nat} (hi : i < 5) : decide (bits w 0 5 / 2 ^ i % 2 = 1) = w.getLsbD i := by
  have h : bits w 0 5 = (w.extractLsb' 0 5).toNat := by simp [bits]
  rw [h, ← Nat.testBit_eq_decide_div_mod_eq, BitVec.testBit_toNat, BitVec.getLsbD_extractLsb']
  simp [hi]

theorem unitsBusy_iff (t : Tile) (w : BitVec 64) : t.unitsBusy (bits w 0 5) = true ↔ UnitsBusy t w := by
  have h0 := bits_div_mod_two (w := w) (i := 0) (by decide)
  have h1 := bits_div_mod_two (w := w) (i := 1) (by decide)
  have h2 := bits_div_mod_two (w := w) (i := 2) (by decide)
  have h3 := bits_div_mod_two (w := w) (i := 3) (by decide)
  have h4 := bits_div_mod_two (w := w) (i := 4) (by decide)
  simp only [Nat.reducePow, Nat.div_one] at h0 h1 h2 h3 h4
  simp only [Tile.unitsBusy, UnitsBusy, h0, h1, h2, h3, h4, Bool.or_eq_true, Bool.and_eq_true, List.any_eq_true, decide_eq_true_eq,
    Bool.not_eq_true', List.isEmpty_eq_false_iff, or_assoc]

theorem waituReady_of_idle (s : State) (n unit : Nat) (w : BitVec 64)
    (h : ¬ UnitsBusy (s.tile n) w ∧ unit = if w.getLsbD 3 then (s.tile n).listDone else 0) : waituReady s (s.tile n) w = some unit := by
  obtain ⟨hidle, rfl⟩ := h
  rw [waituReady, if_neg (by rwa [unitsBusy_iff])]
  rfl

theorem exec_waitu (n : Nat) (s : State) :
    exec (.waitu n) s = .next (s.issueWhen n 0x60 waituReady fun s _ _ => .retire s 1 none) := rfl

theorem exec_ffence (n : Nat) (s : State) : exec (.ffence n) s = .next (s.issueWhen n 0x32 (fun _ _ _ => some 0) ffenceBody) := rfl

/-! ### The statement -/

/-- A wait that completes, with its tile stopped, and no tile at a barrier. -/
theorem wait_holds {s v : State} {n op at_ at' : Nat} {w : BitVec 64} {state : SeqState} {pc : BitVec 11} {loops : List LoopLevel}
    {body : State → Tile → BitVec 64 → Issued} (h : Issues s n op (s.tile n).listDone w at_) (hop : op ≠ 2) (hs : state ≠ .idle)
    (harr : (s.sheaf (n / 64)).arrivals = [])
    (hbody : body (s.advanceTo at_) (s.tile n) w = .hold (v.setTile n (stopped (s.tile n) state (s.advanceTo at_).watchdog pc loops at')))
    (hframe : RunEnded (s.advanceTo at_) v) :
    ∃ u, Host.Outcome.next ((s.issueWhen n op quietAt body).settlePeers n) = (.next u : Host.Outcome State Fault Refusal) ∧
      (u.tile n).seqState = state ∧ (u.tile n).pc = pc ∧ (u.tile n).loops = loops ∧
      (u.tile n).sregs = (s.tile n).sregs ∧ (u.tile n).aregs = (s.tile n).aregs ∧ (u.tile n).preds = (s.tile n).preds ∧
      (u.tile n).tregs = (s.tile n).tregs ∧
      (u.tile n).budgetMax = BitVec.ofNat 17 (max (s.tile n).budgetMax.toNat ((s.advanceTo at_).position - 2000)) ∧
      u.mem = s.mem ∧ u.hbm = s.hbm ∧ u.regs = s.regs ∧ u.gleaner = s.gleaner ∧ ∀ k, k ≠ n → u.tile k = s.tile k := by
  have hu := settled_stopped (s := s.advanceTo at_) (n := n) (at_ := at') (pc := pc) (loops := loops) hs hframe (by simpa using harr)
  obtain ⟨u, hu, hrest⟩ := hu
  simp only [State.tile_advanceTo, State.advanceTo_mem, State.advanceTo_hbm, State.advanceTo_regs, State.advanceTo_gleaner] at hu hrest
  refine ⟨u, ?_, hrest⟩
  rw [issueWhen_of_issues quietAt body h rfl (badBranch_false (by rw [h.opcode]; exact hop)), hbody, ← hu]
  rfl

/-- A wait with something outstanding leaves the state as it is. -/
theorem wait_stalls {s : State} {n op at_ : Nat} {w : BitVec 64} {body : State → Tile → BitVec 64 → Issued}
    (h : Issues s n op (s.tile n).listDone w at_) (hop : op ≠ 2) (harr : (s.sheaf (n / 64)).arrivals = [])
    (hbody : body (s.advanceTo at_) (s.tile n) w = .wait) : (s.issueWhen n op quietAt body).settlePeers n = s := by
  rw [issueWhen_of_issues quietAt body h rfl (badBranch_false (by rw [h.opcode]; exact hop)), hbody]
  exact settlePeers_none harr

/-- Settles O10: END and SWAIT end the run and find no tile at a barrier, WAITU and FFENCE wait for what their readiness and body
name. -/
theorem tileWaits : Obligations.TileWaits := by
  refine ⟨fun q hq s n w at_ pc loops h ha harr => ?_, ⟨?_, ?_⟩, ?_, ?_⟩
  · have hr : ((s.advanceTo at_).tile n).seqState = .running := by rw [State.tile_advanceTo]; exact h.state
    have ha' : ((s.advanceTo at_).tile n).afterWait = some (pc, loops) := by rw [State.tile_advanceTo]; exact ha
    simp only [List.mem_cons, List.not_mem_nil, or_false] at hq
    rcases hq with rfl | rfl
    · refine ⟨fun hq => ?_, fun hq => congrArg _ (wait_stalls h (by decide) harr (by simp [endBody, hq]))⟩
      obtain ⟨v, hv, hframe⟩ := endBody_of_quiet (w := w) hr (by rw [State.tile_advanceTo]; exact hq) ha'
      rw [State.tile_advanceTo] at hv
      exact wait_holds h (by decide) (by decide) harr hv hframe
    · refine ⟨fun hq => ?_, fun hq => congrArg _ (wait_stalls h (by decide) harr (by simp [swaitBody, hq]))⟩
      obtain ⟨v, at', hv, hframe⟩ := swaitBody_of_quiet (w := w) hr (by rw [State.tile_advanceTo]; exact hq) ha'
      rw [State.tile_advanceTo] at hv
      exact wait_holds h (by decide) (by decide) harr hv hframe
  · exact does_of_readyAt (fun _ => waituReady) _ exec_waitu (by decide) waituReady_of_idle fun _ _ _ _ => rfl
  · refine stalls_of_not_ready (fun _ => waituReady) _ exec_waitu fun s n w at_ hb => if_pos ?_
    rw [State.tile_advanceTo] at hb
    exact (unitsBusy_iff _ _).2 hb
  · refine does_of_readyAt (fun _ _ _ _ => some 0) (fun _ => ffenceBody) exec_ffence (by decide) (fun _ _ _ _ h => congrArg some h.symm)
      fun u n w hok => if_pos ((fenced_iff _).2 hok)
  · exact stalls_of (fun _ => ffenceBody) exec_ffence (by decide) fun u n w _ hb => if_neg fun hf => hb ((fenced_iff _).1 hf)

end Sys2Proof.Laws
end


section
/-!
SUPPORT. Faults of a tile (R175, R237, R238): what stopping a tile leaves, and that the peers that fault one aclk later leave
it as it is.
-/

namespace Sys2Proof.Laws

open Sys2Proof.Machine Sys2Proof.Safety

/-! ### Fields of an assembled word -/

theorem getLsbD_pack (n : Nat) (l : List (Nat × Nat × Nat)) (i : Nat) :
    (pack n l).getLsbD i = (decide (i < n) && l.any fun f => decide (f.1 ≤ i) && decide (i < f.1 + f.2.1) && f.2.2.testBit (i - f.1)) := by
  induction l with
  | nil => simp [pack]
  | cons f l ih =>
    obtain ⟨lo, len, x⟩ := f
    rw [pack, BitVec.getLsbD_or, ih, BitVec.getLsbD_ofNat, Nat.testBit_shiftLeft, Nat.testBit_mod_two_pow, List.any_cons, Bool.and_or_distrib_left]
    congr 2
    by_cases h : lo ≤ i
    · have hlt : (i - lo < len) = (i < lo + len) := propext (by omega)
      simp [h, hlt]
    · simp [h]

/-- A field that no other field of an assembled word overlaps reads as it was given. -/
theorem bits_pack {n lo len x : Nat} {l : List (Nat × Nat × Nat)} (hmem : (lo, len, x) ∈ l) (hn : lo + len ≤ n)
    (hdisj : ∀ f ∈ l, f = (lo, len, x) ∨ f.1 + f.2.1 ≤ lo ∨ lo + len ≤ f.1) : bits (pack n l) lo len = x % 2 ^ len := by
  refine Nat.eq_of_testBit_eq fun i => ?_
  rw [bits, Nat.testBit_mod_two_pow, Nat.testBit_mod_two_pow, Nat.testBit_shiftRight, BitVec.testBit_toNat, getLsbD_pack]
  by_cases hi : i < len
  · rw [decide_eq_true hi, Bool.true_and, Bool.true_and, decide_eq_true (by omega), Bool.true_and, Bool.eq_iff_iff, List.any_eq_true]
    constructor
    · rintro ⟨f, hf, hb⟩
      simp only [Bool.and_eq_true, decide_eq_true_eq] at hb
      rcases hdisj f hf with rfl | h | h
      · simpa using hb.2
      · omega
      · omega
    · intro hb
      exact ⟨_, hmem, by simp [hb, hi]⟩
  · simp [hi]

/-! ### A tile is stopped -/

theorem abandonWaiting_foldl (t : Tile) (ops : List UnitOp) (f : Tile → UnitOp → Tile)
    (hf : ∀ t o, (f t o).sregs = t.sregs ∧ (f t o).aregs = t.aregs ∧ (f t o).preds = t.preds ∧ (f t o).tregs = t.tregs) :
    (ops.foldl f t).sregs = t.sregs ∧ (ops.foldl f t).aregs = t.aregs ∧ (ops.foldl f t).preds = t.preds ∧ (ops.foldl f t).tregs = t.tregs := by
  induction ops generalizing t with
  | nil => exact ⟨rfl, rfl, rfl, rfl⟩
  | cons o ops ih =>
    obtain ⟨h1, h2, h3, h4⟩ := ih (f t o)
    obtain ⟨g1, g2, g3, g4⟩ := hf t o
    exact ⟨h1.trans g1, h2.trans g2, h3.trans g3, h4.trans g4⟩

/-- Abandoning what waits on a slot leaves the registers. -/
theorem abandonWaiting_regs (t : Tile) : t.abandonWaiting.sregs = t.sregs ∧ t.abandonWaiting.aregs = t.aregs ∧
    t.abandonWaiting.preds = t.preds ∧ t.abandonWaiting.tregs = t.tregs := by
  refine abandonWaiting_foldl _ _ _ fun u o => ?_
  split
  · split <;> exact ⟨rfl, rfl, rfl, rfl⟩
  · exact ⟨rfl, rfl, rfl, rfl⟩
  · split <;> exact ⟨rfl, rfl, rfl, rfl⟩
  · exact ⟨rfl, rfl, rfl, rfl⟩

/-- The tile as a fault leaves it. -/
def faultedTile (t : Tile) (f : TileFault) : Tile := { t.abandonWaiting.recordFault f with seqState := .faulted, hand := 0 }

theorem faultedTile_ne_default (t : Tile) (f : TileFault) : faultedTile t f ≠ {} := fun h => by
  simpa [faultedTile] using congrArg Tile.seqState h

/-- The event of a fault. -/
def faultEvent (s : State) (n : Nat) (f : TileFault) : Event :=
  { gtc := BitVec.ofNat 64 f.at_, epoch := s.time.loads, source := s.source n, cls := BitVec.ofNat 16 (eventOfCause f.cause).1,
    code := BitVec.ofNat 16 (eventOfCause f.cause).2, payload := f.payload }

/-- What stopping a tile changes: the tile, its sheaf's arrivals, a note of its paddock, the fault flag, and one event. -/
structure Stops (s u : State) (n : Nat) (t : Tile) (f : TileFault) : Prop where
  tile : u.tile n = t
  others : ∀ k, k ≠ n → u.tile k = s.tile k
  fault : u.host.fault = true
  arriving : u.gleaner.arriving = s.gleaner.arriving ++ [faultEvent s n f]
  mem : u.mem = s.mem
  hbm : u.hbm = s.hbm
  regs : u.regs = s.regs
  time : u.time = s.time

theorem stopTile_eq {s : State} {n : Nat} {f : TileFault} (h : (s.tile n).seqState = .running ∨ (s.tile n).seqState = .barrier) :
    ∃ v : State, s.stopTile n f = (v.raiseAt f.at_ n (eventOfCause f.cause) f.payload).setFault ∧
      v.tiles = (s.setTile n (faultedTile (s.tile n) f)).tiles ∧ v.gleaner = s.gleaner ∧ v.mem = s.mem ∧ v.hbm = s.hbm ∧
      v.regs = s.regs ∧ v.time = s.time := by
  have hlive : ¬ ((s.tile n).seqState ≠ .running ∧ (s.tile n).seqState ≠ .barrier) := by tauto
  simp only [State.stopTile, if_neg hlive]
  split
  · exact ⟨_, rfl, rfl, rfl, rfl, rfl, rfl, rfl⟩
  · exact ⟨_, rfl, rfl, rfl, rfl, rfl, rfl, rfl⟩

theorem stopTile_of_live {s : State} {n : Nat} {f : TileFault} (h : (s.tile n).seqState = .running ∨ (s.tile n).seqState = .barrier) :
    Stops s (s.stopTile n f) n (faultedTile (s.tile n) f) f := by
  have hx := faultedTile_ne_default (s.tile n) f
  obtain ⟨v, hv, htiles, hgl, hmem, hhbm, hregs, htime⟩ := stopTile_eq (f := f) h
  have htile (k : Nat) : (s.stopTile n f).tile k = (s.setTile n (faultedTile (s.tile n) f)).tile k := by
    rw [hv, State.tile, State.setFault_tiles, State.raiseAt_tiles, htiles, ← State.tile]
  refine ⟨?_, fun k hk => ?_, ?_, ?_, ?_, ?_, ?_, ?_⟩
  · rw [htile, State.tile_setTile _ _ _ hx]
  · rw [htile, State.tile_setTile_other _ _ _ _ hx hk]
  · rw [hv]; rfl
  · rw [hv, State.setFault_gleaner, State.raiseAt_arriving, hgl, htime, faultEvent]
    simp only [State.source, State.chipId, State.field, State.reg, hregs]
  · rw [hv, State.setFault_mem, State.raiseAt_mem, hmem]
  · rw [hv, State.setFault_hbm, State.raiseAt_hbm, hhbm]
  · rw [hv, State.setFault_regs, State.raiseAt_regs, hregs]
  · rw [hv, State.setFault_time, State.raiseAt_time, htime]

/-! ### The peers' faults, one aclk later (R237) -/

/-- What faults of other tiles at GTC `at_ + 1` leave of the fault of tile `n` at GTC `at_`. -/
structure KeepsFault (s u : State) (n at_ : Nat) : Prop where
  tile : u.tile n = s.tile n
  fault : s.host.fault = true → u.host.fault = true
  arriving : ∀ e ∈ s.gleaner.arriving, e.gtc = BitVec.ofNat 64 at_ → e ∈ u.gleaner.arriving
  mem : u.mem = s.mem
  hbm : u.hbm = s.hbm
  regs : u.regs = s.regs
  time : u.time = s.time

theorem KeepsFault.refl (s : State) (n at_ : Nat) : KeepsFault s s n at_ :=
  ⟨rfl, id, fun _ h _ => h, rfl, rfl, rfl, rfl⟩

theorem KeepsFault.trans {s u v : State} {n at_ : Nat} (h1 : KeepsFault s u n at_) (h2 : KeepsFault u v n at_) : KeepsFault s v n at_ :=
  ⟨h2.tile.trans h1.tile, h2.fault ∘ h1.fault, fun e he ht => h2.arriving e (h1.arriving e he ht) ht, h2.mem.trans h1.mem,
    h2.hbm.trans h1.hbm, h2.regs.trans h1.regs, h2.time.trans h1.time⟩

theorem raiseAt_fault {s : State} (h : s.host.fault = true) (at_ n : Nat) (e : EventCode) (p : BitVec 128) :
    (s.raiseAt at_ n e p).host.fault = true := by
  unfold State.raiseAt
  dsimp only
  split
  · rfl
  · exact h

theorem ofNat_succ_ne (k : Nat) : BitVec.ofNat 64 k ≠ BitVec.ofNat 64 (k + 1) := by
  intro h
  have := congrArg BitVec.toNat h
  simp only [BitVec.toNat_ofNat] at this
  omega

/-- A tile that has stopped at `at_` is not stopped again one aclk later, and the stop of another tile then leaves its fault. -/
theorem keepsFault_keepEarlierFault {s : State} {n at_ : Nat} {p : BitVec 128} (h : (s.tile n).faultEvent = some (BitVec.ofNat 64 at_, p))
    (j : Nat) (f : TileFault) (hf : f.at_ = at_ + 1) : KeepsFault s (s.keepEarlierFault j f) n at_ := by
  unfold State.keepEarlierFault
  dsimp only
  split
  · exact .refl _ _ _
  next ev hev =>
    split
    next hc =>
      obtain ⟨hstate, htime, -⟩ := hc
      rw [hf] at htime
      have hj : n ≠ j := by
        rintro rfl
        rw [h, Option.some.injEq] at hev
        exact ofNat_succ_ne at_ (by rw [← htime, ← hev])
      have hx : (s.tile j).recordFault f ≠ {} := fun hd => by
        have := congrArg Tile.seqState hd
        simp [Tile.recordFault, hstate] at this
      refine ⟨?_, ?_, fun e he ht => ?_, ?_, ?_, ?_, ?_⟩
      · rw [State.tile, State.raiseAt_tiles, ← State.tile, State.tile_setTile_other _ _ _ _ hx hj]; rfl
      · exact fun hf => raiseAt_fault (by rw [State.setTile_host]; exact hf) _ _ _ _
      · rw [State.raiseAt_arriving]
        refine List.mem_append_left _ (List.mem_filter.2 ⟨he, ?_⟩)
        simp [ht, htime, ofNat_succ_ne]
      · rw [State.raiseAt_mem]; rfl
      · rw [State.raiseAt_hbm]; rfl
      · rw [State.raiseAt_regs]; rfl
      · rw [State.raiseAt_time]; rfl
    next => exact .refl _ _ _

/-- So it is for any stop one aclk later. -/
theorem keepsFault_stopTile {s : State} {n at_ : Nat} {p : BitVec 128} (hs : (s.tile n).seqState = .faulted)
    (h : (s.tile n).faultEvent = some (BitVec.ofNat 64 at_, p)) (j : Nat) (f : TileFault) (hf : f.at_ = at_ + 1) :
    KeepsFault s (s.stopTile j f) n at_ := by
  by_cases hlive : (s.tile j).seqState = .running ∨ (s.tile j).seqState = .barrier
  · have hj : n ≠ j := by
      rintro rfl
      rw [hs] at hlive
      exact absurd hlive (by decide)
    have hstop := stopTile_of_live (f := f) hlive
    exact ⟨hstop.others n hj, fun _ => hstop.fault, fun e he _ => by rw [hstop.arriving]; exact List.mem_append_left _ he, hstop.mem,
      hstop.hbm, hstop.regs, hstop.time⟩
  · rw [State.stopTile, if_pos (not_or.1 hlive)]
    exact keepsFault_keepEarlierFault h j f hf

/-- The faults of all the peers leave the fault of the tile they waited for. -/
theorem keepsFault_peerFaults {n at_ : Nat} {p : BitVec 128} (m k : Nat) {s : State} (hs : (s.tile n).seqState = .faulted)
    (h : (s.tile n).faultEvent = some (BitVec.ofNat 64 at_, p)) (hnow : s.now = at_) : KeepsFault s (State.peerFaults m k s) n at_ := by
  induction k generalizing s with
  | zero => exact .refl _ _ _
  | succ k ih =>
    rw [State.peerFaults]
    split
    · exact .refl _ _ _
    next a _ =>
      have h1 := keepsFault_stopTile hs h (64 * m + a.pos)
        { cause := cBarPeer, dpa := 0, at_ := s.now + 1, issued := a.time, pc := (s.tile (64 * m + a.pos)).pc,
          op := opOf (s.tile (64 * m + a.pos)).fetch } (congrArg (· + 1) hnow)
      have h2 (u : State) (g : Sheaf → Sheaf) : KeepsFault u (u.modSheaf m g) n at_ := ⟨rfl, id, fun _ h _ => h, rfl, rfl, rfl, rfl⟩
      have h3 := h1.trans (h2 _ fun x => { x with arrivals := x.arrivals.filter fun b => decide (b.pos ≠ a.pos) })
      refine h3.trans (ih ?_ ?_ ?_)
      · rw [h3.tile, hs]
      · rw [h3.tile, h]
      · rw [State.now, h3.time]; exact hnow

/-! ### The record and the event of a fault -/

theorem eventOfCause_of_mem : ∀ p ∈ causeEvents, eventOfCause p.1 = (3, p.2) := by decide

/-- A fault recorded at `at_` and reported by its event is what `StoppedWith` says. -/
theorem stoppedWith_of_keepsFault {s v u : State} {n : Nat} {f : TileFault} (hc : f.cause < 256)
    (h1 : Stops s v n (faultedTile (s.tile n) f) f) (h2 : KeepsFault v u n f.at_) : StoppedWith s u n f.cause f.at_ f.op f.pc := by
  obtain ⟨hs, ha, hp, ht⟩ := abandonWaiting_regs (s.tile n)
  have hu : u.tile n = faultedTile (s.tile n) f := h2.tile.trans h1.tile
  have hpc : f.pc.toNat < 2 ^ 11 := f.pc.isLt
  have hpos : f.at_ % 100000 < 2 ^ 17 := Nat.lt_of_lt_of_le (Nat.mod_lt _ (by decide)) (by decide)
  refine ⟨by rw [hu]; rfl, by rw [hu]; rfl, by rw [hu]; rfl, by rw [hu]; exact hs, by rw [hu]; exact ha, by rw [hu]; exact hp,
    by rw [hu]; exact ht, h2.fault h1.fault, fun code hmem => ⟨faultEvent s n f, ?_, rfl, rfl, ?_, ?_, ?_, ?_, ?_, ?_⟩⟩
  · exact h2.arriving _ (by rw [h1.arriving]; exact List.mem_append_right _ (List.mem_singleton_self _)) rfl
  · rw [faultEvent, eventOfCause_of_mem _ hmem]; rfl
  · rw [faultEvent, eventOfCause_of_mem _ hmem]
  · exact (bits_pack (x := f.cause) (by simp) (by decide) (by simp)).trans (Nat.mod_eq_of_lt hc)
  · exact (bits_pack (x := f.pc.toNat) (by simp) (by decide) (by simp)).trans (Nat.mod_eq_of_lt hpc)
  · exact (bits_pack (x := f.at_ % strideLen) (by simp) (by decide) (by simp)).trans (Nat.mod_eq_of_lt hpos)
  · exact bits_pack (x := f.op) (by simp) (by decide) (by simp)

/-- A live tile that is stopped now, with the peers that wait for it. -/
theorem stoppedWith_stopTile {s : State} {n : Nat} {f : TileFault} (m k : Nat) (hc : f.cause < 256) (hnow : f.at_ = s.now)
    (h : (s.tile n).seqState = .running ∨ (s.tile n).seqState = .barrier) :
    let u := State.peerFaults m k (s.stopTile n f)
    StoppedWith s u n f.cause s.now f.op f.pc ∧ u.mem = s.mem ∧ u.hbm = s.hbm ∧ u.regs = s.regs := by
  have hstop := stopTile_of_live (f := f) h
  have hkeep := keepsFault_peerFaults (at_ := f.at_) (p := f.payload) m k (s := s.stopTile n f)
    (by rw [hstop.tile]; rfl) (by rw [hstop.tile]; rfl) (by rw [State.now, hstop.time, hnow]; rfl)
  exact ⟨hnow ▸ stoppedWith_of_keepsFault hc hstop hkeep, hkeep.mem.trans hstop.mem, hkeep.hbm.trans hstop.hbm,
    hkeep.regs.trans hstop.regs⟩

/-- Settles O11: the tile's stop, which its peers' faults one aclk later leave as it is. -/
theorem faultStopsTile : Obligations.FaultStopsTile := fun _ n _ _ hc h =>
  stoppedWith_stopTile (n / 64) 64 hc rfl h

end Sys2Proof.Laws
end

section
/-!
SUPPORT. A state whose table of sheaves is not in order, in which a barrier's fault is not the one reported (R237, R238).
-/

namespace Sys2Proof.Laws

open Sys2Proof.Machine Sys2Proof.Safety

/-- Tile 0 waits at a barrier for tile 1, which is idle. Behind its sheaf, under the same number, the table lists a second one (a
table in order never does), with an arrival 65,536 positions on, of a tile that has faulted with the payload of tile 0's fault. -/
def strayArrivals : State :=
  { State.reset with
    tiles := [(0, { seqState := .barrier }),
              (65536, { seqState := .faulted, pc := 1, faultEvent := some (1, faultPayload 8 0 1 0 0), faultIssued := 1 })],
    sheaves := [(0, { arrivals := [{ pos := 0, barrier := 0, mask := 2, time := 0 }] }),
                (0, { arrivals := [{ pos := 65536, barrier := 0, mask := 2, time := 0 }] })] }

/-- Refutes O13: its last clause does not ask for tables in order. As tile 0's arrival goes, its sheaf becomes one at reset and is
dropped from the table, and the second one under its number comes forward; the earlier fault of tile 65,536, whose source number
is tile 0's modulo 2^16, is then recorded again, and tile 0's event is taken back as the one it replaces. -/
theorem not_barriers : ¬ Obligations.Barriers := by
  rintro ⟨-, -, hpeer⟩
  have hstop := hpeer strayArrivals 0 { pos := 0, barrier := 0, mask := 2, time := 0 } rfl rfl (by decide +kernel) (by decide +kernel)
    ⟨1, by decide +kernel, by decide +kernel⟩
  exact absurd (hstop.event 1 (by decide)) (by decide +kernel)

end Sys2Proof.Laws
end


section
/-!
SUPPORT. The scalar stores and loads of a tile (R230, R262, R263, R297), and what the outside brings to memory before a command.
-/

namespace Sys2Proof.Laws

open Sys2Proof.Machine Sys2Proof.Safety

/-! ### What the outside brings -/

/-- A state that differs in SRAM and host memory and in error marks alone. -/
def withEnv (s : State) (mem : List Host.Cell) (units words : Tbl EccMark) : State :=
  { s with mem := mem, eccUnits := units, eccWords := words }

theorem takeEnv_eq (s : State) (env : Env) : ∃ mem units words, s.takeEnv env = withEnv s mem units words := by
  have key (l : List (Nat × EccMark)) (u : State) : ∀ (mem : List Host.Cell) (a b : Tbl EccMark), ∃ m' x y,
      l.foldl (fun s u =>
        if u.1 < 2 ^ 39 then { s with eccUnits := Tbl.insert s.eccUnits (u.1 / 64) u.2 }
        else if u.1 < hostBase then { s with eccWords := Tbl.insert s.eccWords (u.1 / 8) u.2 } else s) (withEnv u mem a b) = withEnv u m' x y := by
    induction l with
    | nil => exact fun mem a b => ⟨mem, a, b, rfl⟩
    | cons c l ih =>
      intro mem a b
      rw [List.foldl_cons]
      split_ifs
      · exact ih _ _ _
      · exact ih _ _ _
      · exact ih _ _ _
  exact key _ s _ _ _

@[simp] theorem takeEnv_tiles (s : State) (env : Env) : (s.takeEnv env).tiles = s.tiles := by
  obtain ⟨m, x, y, h⟩ := takeEnv_eq s env
  rw [h]; rfl

@[simp] theorem takeEnv_tile (s : State) (env : Env) (n : Nat) : (s.takeEnv env).tile n = s.tile n := by simp [State.tile]

@[simp] theorem takeEnv_regs (s : State) (env : Env) : (s.takeEnv env).regs = s.regs := by
  obtain ⟨m, x, y, h⟩ := takeEnv_eq s env
  rw [h]; rfl

@[simp] theorem takeEnv_time (s : State) (env : Env) : (s.takeEnv env).time = s.time := by
  obtain ⟨m, x, y, h⟩ := takeEnv_eq s env
  rw [h]; rfl

/-! ### Reads that meet no error (R297) -/

/-- No marked word of SRAM lies in `n` bytes from `a`. -/
def NoMarks (s : State) (a n : Nat) : Prop := ∀ c ∈ s.eccWords, c.1 < a / 8 ∨ (a + n - 1) / 8 < c.1

theorem checkRead_of_noMarks {s : State} {a n : Nat} (ha : 2 ^ 39 ≤ a) (h : NoMarks s a n) : s.checkRead a n = (s, none) := by
  have hm : s.marksIn a n = [] := by
    unfold State.marksIn
    split_ifs
    · rfl
    · omega
    · exact List.filter_eq_nil_iff.2 fun c hc => by
        have := h c hc
        simp only [Bool.and_eq_true, decide_eq_true_eq]
        omega
  rw [State.checkRead, hm, State.readMarks]

theorem le_tileBase (n k : Nat) : 2 ^ 39 ≤ tileBase n + k := by
  unfold tileBase; omega

/-! ### Offsets (R230, R263) -/

theorem scalarOffset_eq (t : Tile) (w : BitVec 64) : scalarOffset t w = (t.s (fA w) + (w.extractLsb' 0 24).signExtend 32).toNat := by
  rw [scalarOffset, imm24, sext_bits]

theorem offsetOk_iff (o size : Nat) : offsetOk o size = true ↔ o % size = 0 ∧ o + size ≤ 49152 := by
  simp [offsetOk]

theorem mem_clearMarks {m : Tbl EccMark} {size lo n : Nat} {c : Nat × EccMark} :
    c ∈ clearMarks m size lo n ↔ c ∈ m ∧ ¬ (lo ≤ c.1 * size ∧ c.1 * size + size ≤ lo + n) := by
  rw [clearMarks, List.mem_filter, Bool.not_eq_true', ← Bool.not_eq_true, Bool.and_eq_true, decide_eq_true_eq, decide_eq_true_eq]

/-! ### Stores -/

@[simp] theorem tile_withMemory (s : State) (mem : List Host.Cell) (marks : Tbl EccMark) (n : Nat) :
    (withMemory s mem marks).tile n = s.tile n := rfl

/-- A store writes its bytes, and removes the marks of the words that it covers whole. -/
theorem storeBody_of_ok {n size value : Nat} {s : State} {t : Tile} {w : BitVec 64}
    (h : scalarOffset t w % size = 0 ∧ scalarOffset t w + size ≤ 49152) :
    storeBody n size value s t w = .retire (withMemory s (Memory.setBytes s.mem (tileBase n + scalarOffset t w) (leBytes size value))
      (clearMarks s.eccWords 8 (tileBase n + scalarOffset t w) size)) 1 none := if_pos ((offsetOk_iff _ _).2 h)

theorem storeBody_of_bad {n size value : Nat} {s : State} {t : Tile} {w : BitVec 64}
    (h : ¬ (scalarOffset t w % size = 0 ∧ scalarOffset t w + size ≤ 49152)) : storeBody n size value s t w = .fault 0x06 0 :=
  if_neg fun hok => h ((offsetOk_iff _ _).1 hok)

/-- A byte outside those written reads as before, whatever the tile becomes. -/
theorem readByte_withMemory {s : State} {lo : Nat} {bs : List Byte} (marks : Tbl EccMark) (n : Nat) (x : Tile)
    (hs : Tbl.sorted s.mem = true) (hhi : lo + bs.length ≤ 0x200000000000) (p a : Nat) (ha : a < lo ∨ lo + bs.length ≤ a) :
    ((withMemory s (Memory.setBytes s.mem lo bs) marks).setTile n x).readByte p a = s.readByte p a := by
  have hbytes (y : Nat) (hy : y < lo ∨ lo + bs.length ≤ y) :
      Memory.byte ((withMemory s (Memory.setBytes s.mem lo bs) marks).setTile n x).mem y = Memory.byte s.mem y :=
    Memory.byte_setBytes_outside s.mem lo y bs hs hy
  exact State.readByte_congr (s := s) (t := (withMemory s (Memory.setBytes s.mem lo bs) marks).setTile n x) lo (lo + bs.length) rfl rfl rfl rfl rfl rfl rfl hbytes hhi p a ha

/-- The statement of a store of `size` bytes of `value`. -/
theorem store_completes {s : State} {n op at_ : Nat} {w : BitVec 64} {pc : BitVec 11} {loops : List LoopLevel}
    {body : State → Tile → BitVec 64 → Issued} (size value : Nat) (h : Issues s n op 0 w at_) (hop : op ≠ 2)
    (ha : (s.tile n).after none = some (pc, loops)) (hn : n < 25600) (hmem : Memory.wf s.mem = true)
    (hb : ∀ u, body u (s.tile n) w = storeBody n size value u (s.tile n) w) :
    let o := scalarOffset (s.tile n) w
    let u := s.advanceTo at_
    (o % size = 0 ∧ o + size ≤ 49152 →
      ∃ mem marks, s.issue n op body = (withMemory u mem marks).setTile n (goOn (s.tile n) pc loops (u.now + 1)) ∧
        (∀ i, i < size → Memory.byte mem (tileBase n + o + i) = BitVec.ofNat 8 (value / 256 ^ i)) ∧
        (∀ (p a : Nat), (a < tileBase n + o ∨ tileBase n + o + size ≤ a) →
          ((withMemory u mem marks).setTile n (goOn (s.tile n) pc loops (u.now + 1))).readByte p a = u.readByte p a) ∧
        (∀ c, c ∈ marks ↔ c ∈ u.eccWords ∧ ¬ (tileBase n + o ≤ c.1 * 8 ∧ c.1 * 8 + 8 ≤ tileBase n + o + size))) ∧
    (¬ (o % size = 0 ∧ o + size ≤ 49152) → s.issue n op body = u.tileFault n 0x06 0) := by
  intro o u
  have hsorted : Tbl.sorted u.mem = true := by
    rw [State.advanceTo_mem]; exact ((Memory.wf_iff _).1 hmem).1
  refine ⟨fun hok => ⟨Memory.setBytes u.mem (tileBase n + o) (leBytes size value), clearMarks u.eccWords 8 (tileBase n + o) size, ?_,
    fun i hi => ?_, fun p a hpa => ?_, fun c => mem_clearMarks⟩, fun hbad => ?_⟩
  · rw [issue_retires body h hop ha ((hb _).trans (storeBody_of_ok hok)), tile_withMemory, State.tile_advanceTo]
    rfl
  · rw [Memory.byte_setBytes_inside u.mem (tileBase n + o) i (leBytes size value) hsorted (by simpa using hi), leBytes_get]
  · have hhi : tileBase n + o + size ≤ 0x200000000000 := by
      have := hok.2
      unfold tileBase
      omega
    exact readByte_withMemory _ n _ hsorted (by rwa [leBytes_length]) p a (by rwa [leBytes_length])
  · exact issue_faults body h hop ((hb _).trans (storeBody_of_bad hbad))

/-- Settles O5: each store is the one body, with its own size and value. -/
theorem scalarStores : Obligations.ScalarStores := by
  intro q hq s n w at_ pc loops h ha hn hmem
  simp only [List.mem_cons, List.not_mem_nil, or_false] at hq
  simp only [← scalarOffset_eq]
  rcases hq with rfl | rfl | rfl
  · obtain ⟨h1, h2⟩ := store_completes (2 ^ bits w 24 2) ((s.tile n).s (fB w)).toNat h (by decide) ha hn hmem
      (body := fun s t w => storeBody n (ldSize w) (t.s (fB w)).toNat s t w) fun _ => rfl
    refine ⟨fun hok => ?_, fun hbad => congrArg _ (h2 hbad)⟩
    obtain ⟨mem, marks, he, hrest⟩ := h1 hok
    exact ⟨mem, marks, congrArg _ he, hrest⟩
  · obtain ⟨h1, h2⟩ := store_completes 8 ((s.tile n).a (fB w)).toNat h (by decide) ha hn hmem
      (body := fun s t w => storeBody n 8 (t.a (fB w)).toNat s t w) fun _ => rfl
    refine ⟨fun hok => ?_, fun hbad => congrArg _ (h2 hbad)⟩
    obtain ⟨mem, marks, he, hrest⟩ := h1 hok
    exact ⟨mem, marks, congrArg _ he, hrest⟩
  · obtain ⟨h1, h2⟩ := store_completes 32 ((s.tile n).t (fB w)).toNat h (by decide) ha hn hmem
      (body := fun s t w => storeBody n 32 (t.t (fB w)).toNat s t w) fun _ => rfl
    refine ⟨fun hok => ?_, fun hbad => congrArg _ (h2 hbad)⟩
    obtain ⟨mem, marks, he, hrest⟩ := h1 hok
    exact ⟨mem, marks, congrArg _ he, hrest⟩

end Sys2Proof.Laws
end

section
/-!
SUPPORT. The scalar loads of a tile, and their return (R230, R249, R262, R263, R297).
-/

namespace Sys2Proof.Laws

open Sys2Proof.Machine Sys2Proof.Safety

/-! ### Loads issue -/

/-- The load that is under way after the issue of a load of `size` bytes at offset `o`. -/
def loadOp (s : State) (n : Nat) (t : Tile) (w : BitVec 64) (k : OpKind) (o size : Nat) : UnitOp :=
  { kind := k, pc := t.pc, word := w, d := BitVec.ofNat 256 (leNat (Memory.bytes s.mem (tileBase n + o) size)), x := BitVec.ofNat 32 o,
    y := BitVec.ofNat 32 size, unreadable := false, issued := s.now, started := some s.now }

theorem startLoad_of_noMarks {s : State} {n o size : Nat} (t : Tile) (w : BitVec 64) (k : OpKind) (h : NoMarks s (tileBase n + o) size) :
    s.startLoad n t w k o size = s.setTile n { s.tile n with loads := (s.tile n).loads ++ [loadOp s n t w k o size] } := by
  rw [State.startLoad, checkRead_of_noMarks (le_tileBase n o) h]
  rfl

theorem leNat_lt (l : List Byte) : leNat l < 256 ^ l.length := by
  induction l with
  | nil => simp [leNat]
  | cons b l ih =>
    have hb := b.isLt
    rw [leNat, List.length_cons, Nat.pow_succ]
    omega

theorem bytes_length (m : List Host.Cell) (a n : Nat) : (Memory.bytes m a n).length = n := by
  induction n generalizing a with
  | zero => rfl
  | succ n ih => rw [Memory.bytes, List.length_cons, ih]

/-- The bytes that a load reads fit its 256 bits. -/
theorem leNat_bytes_lt (m : List Host.Cell) (a : Nat) {n : Nat} (hn : n ≤ 32) : leNat (Memory.bytes m a n) < 2 ^ 256 := by
  have h := leNat_lt (Memory.bytes m a n)
  rw [bytes_length] at h
  exact Nat.lt_of_lt_of_le h ((Nat.pow_le_pow_right (by decide) hn).trans (by norm_num))

theorem issue_load {s : State} {n op at_ : Nat} {w : BitVec 64} {pc : BitVec 11} {loops : List LoopLevel} (k : OpKind) (size : BitVec 64 → Nat)
    (h : Issues s n op 0 w at_) (hop : op ≠ 2) (ha : (s.tile n).after none = some (pc, loops)) (hsize : size w ≤ 32) :
    let t := s.tile n
    let o := scalarOffset t w
    let u := s.advanceTo at_
    (o % size w = 0 ∧ o + size w ≤ 49152 → NoMarks s (tileBase n + o) (size w) →
      ∃ op' : UnitOp, s.issue n op (loadBody n k size) = u.setTile n (goOn { t with loads := t.loads ++ [op'] } pc loops (u.now + 1)) ∧
        op'.unreadable = false ∧ op'.word = w ∧ op'.pc = t.pc ∧ op'.issued = u.now ∧ op'.x.toNat = o ∧ op'.y.toNat = size w ∧
        op'.kind = k ∧ op'.d.toNat = leNat (Memory.bytes s.mem (tileBase n + o) (size w))) ∧
    (¬ (o % size w = 0 ∧ o + size w ≤ 49152) → s.issue n op (loadBody n k size) = u.tileFault n 0x06 0) := by
  intro t o u
  refine ⟨fun hok hmarks => ⟨loadOp u n t w k o (size w), ?_, rfl, rfl, rfl, rfl, ?_, ?_, rfl, ?_⟩, fun hbad => ?_⟩
  · refine issue_writes _ h hop ha h.state ?_
    have hm : NoMarks u (tileBase n + o) (size w) := by
      intro c hc
      rw [State.advanceTo_eccWords] at hc
      exact hmarks c hc
    rw [loadBody, if_pos ((offsetOk_iff _ _).2 hok), startLoad_of_noMarks t w k hm, State.tile_advanceTo]
  · exact (BitVec.toNat_ofNat _ _).trans (Nat.mod_eq_of_lt (by omega))
  · exact (BitVec.toNat_ofNat _ _).trans (Nat.mod_eq_of_lt (by omega))
  · rw [← State.advanceTo_mem s at_]
    exact (BitVec.toNat_ofNat _ _).trans (Nat.mod_eq_of_lt (leNat_bytes_lt _ _ hsize))
  · exact issue_faults _ h hop (if_neg fun hok => hbad ((offsetOk_iff _ _).1 hok))

/-! ### Loads return -/

/-- Nothing of a fault's record depends on the tile's own lists, only on its registers and the tile's source number. -/
theorem stoppedWith_congr {s v u : State} {n cause at_ op : Nat} {pc : BitVec 11} (hs : (v.tile n).sregs = (s.tile n).sregs)
    (ha : (v.tile n).aregs = (s.tile n).aregs) (hp : (v.tile n).preds = (s.tile n).preds) (ht : (v.tile n).tregs = (s.tile n).tregs)
    (hr : v.regs = s.regs) (h : StoppedWith v u n cause at_ op pc) : StoppedWith s u n cause at_ op pc := by
  have hsrc : v.source n = s.source n := by simp only [State.source, State.chipId, State.field, State.reg, hr]
  exact ⟨h.faulted, h.slots, h.record, h.sregs.trans hs, h.aregs.trans ha, h.preds.trans hp, h.tregs.trans ht, h.flag,
    fun code hc => by rw [← hsrc]; exact h.event code hc⟩

/-- The value of an LD, zero- or sign-extended by F[2] (R263). -/
theorem loadValue_eq (w : BitVec 64) (d : BitVec 256) : loadValue w d =
    if w.getLsbD 26 then (d.extractLsb' 0 (8 * 2 ^ bits w 24 2)).signExtend 32 else (d.extractLsb' 0 (8 * 2 ^ bits w 24 2)).setWidth 32 := by
  have hzero (k : Nat) : BitVec.ofNat 32 (bits d 0 k) = (d.extractLsb' 0 k).setWidth 32 := by
    apply BitVec.eq_of_toNat_eq
    simp [bits]
  simp only [loadValue, ldSize, sext_bits, hzero]
  rfl

/-- The return of a load whose read met an uncorrectable word, and of one whose words hold no error. -/
theorem returnLoad_eq {s : State} {n : Nat} {o : UnitOp} {rest : List UnitOp} (h : (s.tile n).loads = o :: rest) :
    let u := (s.advanceTo (o.issued + 4)).setTile n { s.tile n with loads := rest }
    (o.unreadable = true → s.returnLoad n = u.opFault n 0x07 0 o) ∧
    (o.unreadable = false → NoMarks s (tileBase n + o.x.toNat) o.y.toNat → s.returnLoad n = u.modTile n fun t => t.landLoad o) := by
  intro u
  have hu : (s.advanceTo (o.issued + 4)).modTile n (fun t => { t with loads := rest }) = u := by
    rw [State.modTile, State.tile_advanceTo]
  have hload : s.returnLoad n = if o.unreadable then u.opFault n cEcc 0 o else
      match (u.checkRead (tileBase n + o.x.toNat) o.y.toNat).2 with
      | some _ => (u.checkRead (tileBase n + o.x.toNat) o.y.toNat).1.opFault n cEcc 0 o
      | none => (u.checkRead (tileBase n + o.x.toNat) o.y.toNat).1.modTile n fun t => t.landLoad o := by
    simp only [State.returnLoad, h, hu] <;> rfl
  refine ⟨fun hbad => by rw [hload, if_pos hbad]; rfl, fun hgood hmarks => ?_⟩
  have hm : NoMarks u (tileBase n + o.x.toNat) o.y.toNat := by
    intro c hc
    rw [State.setTile_eccWords, State.advanceTo_eccWords] at hc
    exact hmarks c hc
  rw [hload, if_neg (by simp [hgood]), checkRead_of_noMarks (le_tileBase n _) hm]

/-- Settles O6: a load's bytes are those at its issue, and its return writes them to the register that its kind names. -/
theorem scalarLoads : Obligations.ScalarLoads := by
  refine ⟨fun q hq s n w at_ pc loops h ha => ?_, fun s n env o rest hp hr hl hk => ?_⟩
  · have hld : ldSize w ≤ 32 := (Nat.pow_le_pow_right (by decide) (Nat.le_of_lt_succ (Nat.mod_lt _ (by decide)))).trans (by decide : 2 ^ 3 ≤ 32)
    simp only [List.mem_cons, List.not_mem_nil, or_false] at hq
    simp only [← scalarOffset_eq]
    rcases hq with rfl | rfl | rfl
    · obtain ⟨h1, h2⟩ := issue_load .ld ldSize h (by decide) ha hld
      refine ⟨fun hok hm => ?_, fun hbad => congrArg _ (h2 hbad)⟩
      obtain ⟨op, he, hrest⟩ := h1 hok hm
      exact ⟨op, congrArg _ he, hrest⟩
    · obtain ⟨h1, h2⟩ := issue_load .lda (fun _ => 8) h (by decide) ha (by decide)
      refine ⟨fun hok hm => ?_, fun hbad => congrArg _ (h2 hbad)⟩
      obtain ⟨op, he, hrest⟩ := h1 hok hm
      exact ⟨op, congrArg _ he, hrest⟩
    · obtain ⟨h1, h2⟩ := issue_load .tld (fun _ => 32) h (by decide) ha (by decide)
      refine ⟨fun hok hm => ?_, fun hbad => congrArg _ (h2 hbad)⟩
      obtain ⟨op, he, hrest⟩ := h1 hok hm
      exact ⟨op, congrArg _ he, hrest⟩
  · have hexec : exec (.scalarLoadReturn n env) s = .next ((s.takeEnv env).returnLoad n) :=
      congrArg Host.Outcome.next (by rw [State.whenRunning, if_pos hp])
    have hret := returnLoad_eq (s := s.takeEnv env) (n := n) (o := o) (rest := rest) (by rw [takeEnv_tile]; exact hl)
    simp only [takeEnv_tile] at hret
    obtain ⟨hbad, hgood⟩ := hret
    have hx : ({ s.tile n with loads := rest } : Tile) ≠ {} := running_ne_default hr
    refine ⟨fun hu => ⟨?_, by rw [hexec, hbad hu]⟩, fun hu hm => ?_⟩
    · have htile := State.tile_setTile ((s.takeEnv env).advanceTo (o.issued + 4)) n _ hx
      have hstop := (stoppedWith_stopTile (n / 64) 64 (f :=
        { cause := 0x07, dpa := 0, at_ := (((s.takeEnv env).advanceTo (o.issued + 4)).setTile n { s.tile n with loads := rest }).now,
          issued := o.issued, pc := o.pc, op := opOf o.word }) (by decide : (0x07 : Nat) < 256) rfl (.inl (by rw [htile]; exact hr))).1
      exact stoppedWith_congr (by rw [htile]) (by rw [htile]) (by rw [htile]) (by rw [htile])
        (by rw [State.setTile_regs, State.advanceTo_regs, takeEnv_regs]) hstop
    · rw [hexec, hgood hu hm]
      have hland : (Tile.landLoad { s.tile n with loads := rest } o).seqState = .running := by
        unfold Tile.landLoad; split <;> exact hr
      rw [State.modTile_setTile _ _ _ _ hx (running_ne_default hland)]
      simp only [List.mem_cons, List.not_mem_nil, or_false] at hk
      rcases hk with hk | hk | hk
      · simp only [Tile.landLoad, hk, loadValue_eq]
      · simp only [Tile.landLoad, hk, ofNat_bits]
      · simp only [Tile.landLoad, hk]

end Sys2Proof.Laws
end


section
/-!
SUPPORT. Moves and atomics begin (R250, R265 to R269): what each body does under the checks of the statements.
-/

namespace Sys2Proof.Laws

open Sys2Proof.Machine Sys2Proof.Safety

/-! ### Moves -/

/-- Fewer than 16 moves and atomics of the tile are outstanding (R250). -/
def MoveRoom (t : Tile) : Prop := t.moves.length + t.atomics.length < 16

theorem moveRoom_iff (t : Tile) : t.moveRoom = true ↔ MoveRoom t := decide_eq_true_iff

theorem moveRoom_eq_false {t : Tile} (h : ¬ MoveRoom t) : t.moveRoom = false := decide_eq_false h

/-- The addresses and the length of a MOVB are multiples of 32. -/
def MovbAligned (t : Tile) (w : BitVec 64) : Prop :=
  (t.a (fD w)).toNat % 32 = 0 ∧ (t.a (fA w)).toNat % 32 = 0 ∧ (t.s (fB w)).toNat % 32 = 0

theorem not_movbAligned_iff (t : Tile) (w : BitVec 64) : ¬ MovbAligned t w ↔
    (t.a (fD w)).toNat % 32 ≠ 0 ∨ (t.a (fA w)).toNat % 32 ≠ 0 ∨ (t.s (fB w)).toNat % 32 ≠ 0 := by
  rw [MovbAligned, not_and_or, not_and_or]

/-- The move that a MOVB begins. -/
def movbOp (s : State) (t : Tile) (w : BitVec 64) : UnitOp :=
  { kind := .movb, pc := t.pc, word := w, d := (t.a (fD w)).setWidth 256, a := (t.a (fA w)).setWidth 256, y := t.s (fB w),
    issued := s.now, started := some s.now }

theorem movbBody_of_full {n : Nat} {s : State} {t : Tile} {w : BitVec 64} (h : ¬ MoveRoom t) : movbBody n s t w = .wait := by
  simp [movbBody, moveRoom_eq_false h]

theorem movbBody_of_misaligned {n : Nat} {s : State} {t : Tile} {w : BitVec 64} (hr : MoveRoom t) (h : ¬ MovbAligned t w) :
    movbBody n s t w = .fault 0x06 0 := by
  simp only [movbBody, (moveRoom_iff t).2 hr, Bool.not_true, Bool.false_eq_true, if_false]
  rw [if_pos ((not_movbAligned_iff t w).1 h)]
  rfl

theorem movbBody_of_aligned {n : Nat} {s : State} {t : Tile} {w : BitVec 64} (hr : MoveRoom t) (h : MovbAligned t w) :
    movbBody n s t w = if t.s (fB w) = 0 then .retire s 1 none else s.beginMove n (movbOp s t w) := by
  simp only [movbBody, (moveRoom_iff t).2 hr, Bool.not_true, Bool.false_eq_true, if_false, BitVec.ofNat_toNat]
  rw [if_neg fun hbad => (not_movbAligned_iff t w).2 hbad h]
  rfl

/-- The move that a MOVT begins. -/
def movtOp (s : State) (t : Tile) (w : BitVec 64) : UnitOp :=
  { kind := .movt, pc := t.pc, word := w, d := t.t (fD w), a := t.t (fA w), issued := s.now, started := some s.now }

theorem movtBody_of_full {n : Nat} {s : State} {t : Tile} {w : BitVec 64} (h : ¬ MoveRoom t) : movtBody n s t w = .wait := by
  simp [movtBody, moveRoom_eq_false h]

theorem movtBody_of_good {n : Nat} {s : State} {t : Tile} {w : BitVec 64} (hr : MoveRoom t)
    (h : s.movtFault (n / 64) w (t.t (fD w)) (t.t (fA w)) = none) :
    movtBody n s t w = if dExt0 (t.t (fA w)) = 0 ∨ dExt1 (t.t (fA w)) = 0 then .retire s 1 none else s.beginMove n (movtOp s t w) := by
  simp only [movtBody, (moveRoom_iff t).2 hr, Bool.not_true, Bool.false_eq_true, if_false, h]
  rfl

/-- A move whose bytes do not overlap and are reached is outstanding. -/
theorem beginMove_of_free {s : State} {n : Nat} {o : UnitOp} (h : moveOverlap o.segments = none)
    (hr : s.reachFault (s.tilePaddock n) (sources o.segments) (targets o.segments) = none) :
    s.beginMove n o = .retire (s.setTile n { s.tile n with moves := (s.tile n).moves ++ [o] }) 1 none := by
  simp only [State.beginMove, h, hr]
  rfl

/-- A move whose bytes overlap faults. -/
theorem beginMove_of_overlap {s : State} {n a : Nat} {o : UnitOp} (h : moveOverlap o.segments = some a) :
    s.beginMove n o = .fault 0x0A a := by
  simp only [State.beginMove, h]
  rfl

/-! ### Atomics -/

/-- A bank of the tile's paddock lies at an address. -/
def BankOwned (s : State) (n a : Nat) : Prop := ∃ m off, s.place a = .bank m off ∧ s.sramOwner m = some (s.tilePaddock n)

theorem atomBody_of_full {n : Nat} {s : State} {t : Tile} {w : BitVec 64} (h : ¬ MoveRoom t) : atomBody n s t w = .wait := by
  simp [atomBody, moveRoom_eq_false h]

theorem atomFault_of_owned {s : State} {n a : Nat} {w : BitVec 64} (ha : a % atomSize w = 0) (h : BankOwned s n a) : s.atomFault n w a = none := by
  obtain ⟨m, off, hp, ho⟩ := h
  simp [State.atomFault, ha, hp, ho]

theorem atomFault_of_silage {s : State} {n a : Nat} {w : BitVec 64} (ha : a % atomSize w = 0)
    (h : (∃ m, s.place a = .silageRefused m) ∨ (∃ m k, s.place a = .silageRaw m k) ∨ ∃ m g i, s.place a = .silageGroup m g i) :
    s.atomFault n w a = some (0x58, a) := by
  obtain ⟨m, hp⟩ | ⟨m, k, hp⟩ | ⟨m, g, i, hp⟩ := h
  all_goals
    simp only [State.atomFault, ha, hp, ne_eq, not_true_eq_false, if_false]
    rfl

theorem atomFault_of_elsewhere {s : State} {n a : Nat} {w : BitVec 64} (ha : a % atomSize w = 0)
    (h : (∃ m k, s.place a = .bank m k ∧ s.sramOwner m ≠ some (s.tilePaddock n)) ∨ (∃ k j, s.place a = .store k j) ∨
      (∃ k, s.place a = .hbm k) ∨ (∃ k, s.place a = .reg k) ∨ s.place a = .host ∨ s.place a = .none) :
    s.atomFault n w a = some (0x0A, a) := by
  obtain ⟨m, k, hp, ho⟩ | ⟨k, j, hp⟩ | ⟨k, hp⟩ | ⟨k, hp⟩ | hp | hp := h
  · simp only [State.atomFault, ha, hp, ho, ne_eq, not_true_eq_false, if_false]
    rfl
  all_goals
    simp only [State.atomFault, ha, hp, ne_eq, not_true_eq_false, if_false]
    rfl

theorem atomFault_of_misaligned {s : State} {n a : Nat} {w : BitVec 64} (ha : a % atomSize w ≠ 0) : s.atomFault n w a = some (0x06, 0) :=
  if_pos ha

theorem atomBody_of_fault {n c d : Nat} {s : State} {t : Tile} {w : BitVec 64} (hr : MoveRoom t)
    (h : s.atomFault n w (t.a (fA w)).toNat = some (c, d)) : atomBody n s t w = .fault c d := by
  simp only [atomBody, (moveRoom_iff t).2 hr, Bool.not_true, Bool.false_eq_true, if_false, h]

theorem atomBody_of_good {n : Nat} {s : State} {w : BitVec 64} (hr : MoveRoom (s.tile n))
    (h : s.atomFault n w ((s.tile n).a (fA w)).toNat = none) : atomBody n s (s.tile n) w =
      .retire (s.setTile n { s.tile n with atomics := (s.tile n).atomics ++
        [{ kind := .atom, pc := (s.tile n).pc, word := w, a := ((s.tile n).a (fA w)).setWidth 256, y := (s.tile n).s (fB w),
           issued := s.now, started := some s.now }] }) 1 none := by
  simp only [atomBody, (moveRoom_iff _).2 hr, Bool.not_true, Bool.false_eq_true, if_false, h, BitVec.ofNat_toNat]
  rfl

/-! ### The statement -/

/-- `Does` at any time from one fact about the body. -/
theorem does_anyTime {i : Nat → Instr} {op aclk : Nat} {ok : State → Nat → BitVec 64 → Prop} {f : State → Nat → BitVec 64 → State}
    (body : Nat → State → Tile → BitVec 64 → Issued) (hx : ∀ n s, exec (i n) s = .next (s.issue n op (body n))) (hop : op ≠ 2)
    (hb : ∀ u n w, ok u n w → body n u (u.tile n) w = .retire (f u n w) aclk none) : Does i op aclk anyTime ok f :=
  does_of_readyAt (fun _ _ _ _ => some 0) body hx hop (fun _ _ _ _ h => congrArg some h.symm) hb

/-- Settles O14: each body makes its checks in the order of the statement. -/
theorem movesAndAtomicsBegin : Obligations.MovesAndAtomicsBegin := by
  refine ⟨⟨?_, ?_, ?_, ?_, ?_, ?_, ?_⟩, ?_, ?_, ?_⟩
  · refine does_anyTime movbBody (fun _ _ => rfl) (by decide) fun u n w ⟨hr, ha, hlen, ho, hreach⟩ => ?_
    rw [movbBody_of_aligned hr ha, if_neg hlen]
    exact beginMove_of_free ho hreach
  · refine does_anyTime movbBody (fun _ _ => rfl) (by decide) fun u n w ⟨hr, ha, hlen⟩ => ?_
    rw [movbBody_of_aligned hr ha, if_pos hlen]
  · refine does_anyTime movtBody (fun _ _ => rfl) (by decide) fun u n w ⟨hr, hf, h0, h1, ho, hreach⟩ => ?_
    rw [movtBody_of_good hr hf, if_neg (not_or.2 ⟨h0, h1⟩)]
    exact beginMove_of_free ho hreach
  · refine does_anyTime movtBody (fun _ _ => rfl) (by decide) fun u n w ⟨hr, hf, h0⟩ => ?_
    rw [movtBody_of_good hr hf, if_pos h0]
  · intro s n w at_ h hr
    refine ⟨fun hbad => congrArg _ (issue_faults (movbBody n) h (by decide) (movbBody_of_misaligned hr hbad)), fun a ha hlen ho => ?_⟩
    refine congrArg _ (issue_faults (movbBody n) h (by decide) ?_)
    rw [movbBody_of_aligned hr ha, if_neg hlen]
    refine beginMove_of_overlap ?_
    dsimp only at ho
    rw [State.tile_advanceTo] at ho
    exact ho
  · exact stalls_of movbBody (fun _ _ => rfl) (by decide) fun u n w _ hb => movbBody_of_full hb
  · exact stalls_of movtBody (fun _ _ => rfl) (by decide) fun u n w _ hb => movtBody_of_full hb
  · refine does_anyTime atomBody (fun _ _ => rfl) (by decide) fun u n w ⟨hr, ha, ho⟩ => ?_
    exact atomBody_of_good hr (atomFault_of_owned ha ho)
  · intro s n w at_ h hr u a
    have hfault {c d : Nat} (hf : u.atomFault n w a = some (c, d)) : exec (.atom n) s = .next (u.tileFault n c d) :=
      congrArg _ (issue_faults (atomBody n) h (by decide) (atomBody_of_fault hr hf))
    exact ⟨fun ha => hfault (atomFault_of_misaligned ha), fun ha hp => hfault (atomFault_of_silage ha hp),
      fun ha hp => hfault (atomFault_of_elsewhere ha hp)⟩
  · exact stalls_of atomBody (fun _ _ => rfl) (by decide) fun u n w _ hb => atomBody_of_full hb

end Sys2Proof.Laws
end

section
/-!
SUPPORT. A move of host memory while the host link is down (R473).
-/

namespace Sys2Proof.Laws

open Sys2Proof.Machine Sys2Proof.Safety

/-- A move of the first byte of host memory to the one 64 bytes on. -/
def hostMove : UnitOp := { kind := .movb, a := BitVec.ofNat 256 hostBase, d := BitVec.ofNat 256 (hostBase + 64), y := 1 }

/-- Tile 0 has that move outstanding, and the host link is down. -/
def hostMoveLinkDown : State :=
  { State.reset with
    host := { State.reset.host with up := false }
    mem := [(hostBase, 1)]
    tiles := [(0, { seqState := .running, moves := [hostMove] })] }

/-- Refutes O15: its first clause does not ask for the host link. A MOVB of a byte of host memory meets the clause's premises, but
while the link is down it fails with MOV_ADDR (R473) and the byte is not written. -/
theorem not_movesAndAtomicsPerform : ¬ Obligations.MovesAndAtomicsPerform := by
  rintro ⟨hmove, -⟩
  have hsrc : (hostMoveLinkDown.takeEnv {}).place (hostMove.a.toNat + 0) = .host := by decide +kernel
  have hdst : (hostMoveLinkDown.takeEnv {}).place (hostMove.d.toNat + 0) = .host := by decide +kernel
  have hone {k : Nat} (hk : k < hostMove.y.toNat) : k = 0 := Nat.lt_one_iff.1 hk
  obtain ⟨u, hu, -, hbytes, -⟩ := hmove hostMoveLinkDown 0 {} hostMove [] rfl (by decide) rfl rfl ⟨rfl, rfl, by decide⟩ (by decide +kernel)
    (.inl (by decide +kernel)) (fun k x hk => by rw [hone hk, hsrc]; exact nofun)
    (fun k hk => by
      rw [hone hk, hdst]
      exact ⟨by decide +kernel, fun _ _ _ => nofun⟩) (by decide +kernel)
  cases hu
  exact absurd (hbytes 0 (by decide)) (by decide +kernel)

end Sys2Proof.Laws
end


section
/-!
SUPPORT. FMM and BMM issue (R140 to R142, R161 to R163, R174, R272, R275, R277, R279).
-/

namespace Sys2Proof.Laws

open Sys2Proof.Machine Sys2Proof.Safety

/-! ### The array input -/

/-- No operation of a kind in the list still waits to start. -/
def NoneWaits (k : OpKind) (ops : List UnitOp) : Prop := ∀ o ∈ ops, o.kind = k → o.started.isSome = true

theorem any_waits_eq_false {k : OpKind} {ops : List UnitOp} (h : NoneWaits k ops) :
    (ops.any fun o => decide (o.kind = k) && o.started.isNone) = false := by
  refine List.any_eq_false.2 fun o ho hw => ?_
  simp only [Bool.and_eq_true, decide_eq_true_eq, Option.isNone_iff_eq_none] at hw
  have := h o ho hw.1
  rw [hw.2] at this
  exact absurd this (by decide)

theorem any_waits_eq_true {k : OpKind} {ops : List UnitOp} (h : ∃ o ∈ ops, o.kind = k ∧ o.started = none) :
    (ops.any fun o => decide (o.kind = k) && o.started.isNone) = true := by
  obtain ⟨o, ho, hk, hs⟩ := h
  exact List.any_eq_true.2 ⟨o, ho, by simp [hk, hs]⟩

theorem fmmReady_of_free (s : State) (n unit : Nat) (w : BitVec 64) (h : NoneWaits .fmm (s.tile n).fwa ∧ unit = (s.tile n).fwaFree) :
    fmmReady s (s.tile n) w = some unit := by
  rw [fmmReady, any_waits_eq_false h.1, h.2]
  rfl

theorem bmmReady_of_free (s : State) (n unit : Nat) (w : BitVec 64) (h : NoneWaits .bmm (s.tile n).bwa ∧ unit = (s.tile n).bwaFree) :
    bmmReady s (s.tile n) w = some unit := by
  rw [bmmReady, any_waits_eq_false h.1, h.2]
  rfl

theorem exec_fmm (n : Nat) (s : State) : exec (.fmm n) s = .next (s.issueWhen n 0x30 fmmReady (fmmBody n)) := rfl

theorem exec_bmm (n : Nat) (s : State) : exec (.bmm n) s = .next (s.issueWhen n 0x38 bmmReady (bmmBody n)) := rfl

/-! ### Products that pass their checks -/

/-- A product with a zero extent or length. -/
def ZeroProduct (a b : BitVec 256) : Prop := dExt0 a = 0 ∨ dExt1 a = 0 ∨ dExt0 b = 0 ∨ dExt1 b = 0

theorem emptyProduct_eq_true {a b : BitVec 256} (h : ZeroProduct a b) : emptyProduct a b = true := by
  rcases h with h | h | h | h
  all_goals simp [emptyProduct, h]

theorem emptyProduct_eq_false {a b : BitVec 256} (h : ¬ ZeroProduct a b) : emptyProduct a b = false := by
  obtain ⟨h1, h⟩ := not_or.1 h
  obtain ⟨h2, h⟩ := not_or.1 h
  obtain ⟨h3, h4⟩ := not_or.1 h
  simp [emptyProduct, h1, h2, h3, h4]

/-- The operation that a product leaves in its unit. -/
def productOp (k : OpKind) (u : State) (t : Tile) (w tag : BitVec 64) (waits : Bool) : UnitOp :=
  { kind := k, pc := t.pc, word := w, a := t.t (fA w), b := t.t (fB w), tag := tag, waits := waits, issued := u.now }

/-- FMM in a phase that accepts it, past its checks. -/
theorem fmmBody_of_good {n : Nat} {u : State} {w : BitVec 64} (hph : u.tilePhase n ≠ .idle)
    (hf : u.fmmFault n w ((u.tile n).t (fA w)) ((u.tile n).t (fB w)) = none) (hh : (u.tile n).handEmpty w = false) :
    let t := u.tile n
    let tag := u.fwaTagOf (n / 64) w (t.t (fA w)) (t.t (fB w))
    fmmBody n u t w =
      if emptyProduct (t.t (fA w)) (t.t (fB w)) then .retire (u.setTile n { t with fwa := t.fwa ++ [productOp .fmm u t w 0 false] }) 1 none
      else if tagState (t.fwaBank (bits w 0 2)).tag = 2 then
        .retire ((u.setTile n { t with fwa := t.fwa ++ [productOp .fmm u t w tag true] }).sampleProduct n (productOp .fmm u t w tag true)) 1 none
      else
        .retire ((u.setTile n ({ t with fwa := t.fwa ++ [productOp .fmm u t w tag false] }.setFwaBank (bits w 0 2)
          ((t.fwaBank (bits w 0 2)).claim tag (dExt1 (t.t (fA w))) (dExt1 (t.t (fB w)))))).sampleProduct n (productOp .fmm u t w tag false)) 1 none := by
  intro t tag
  have hf : u.fmmFault n w (t.t (fA w)) (t.t (fB w)) = none := hf
  have hh : t.handEmpty w = false := hh
  simp only [fmmBody, if_neg hph, hf, hh, Bool.false_eq_true, if_false]
  cases hz : emptyProduct (t.t (fA w)) (t.t (fB w)) with
  | true => rfl
  | false =>
    by_cases hd : tagState (t.fwaBank (bits w 0 2)).tag = 2
    · simp only [hd, decide_true, Bool.not_false, Bool.and_true, Bool.or_true, if_true]
      rfl
    · simp only [hd, decide_false, Bool.not_false, Bool.and_false, Bool.or_false]
      rfl

/-- BMM in phase BWD, past its checks. -/
theorem bmmBody_of_good {n : Nat} {u : State} {w : BitVec 64} (hph : u.tilePhase n = .bwd)
    (hf : u.bmmFault n w ((u.tile n).t (fA w)) ((u.tile n).t (fB w)) = none) (hh : (u.tile n).handEmpty w = false) :
    let t := u.tile n
    let tag := u.bwaTagOf (n / 64) (bits w 2 2) false (t.t (fA w)) (t.t (fB w))
    bmmBody n u t w =
      if emptyProduct (t.t (fA w)) (t.t (fB w)) then .retire (u.setTile n { t with bwa := t.bwa ++ [productOp .bmm u t w 0 false] }) 1 none
      else if tagState (t.bwaBank (bits w 0 2)).tag = 2 then
        .retire (u.setTile n { t with bwa := t.bwa ++ [productOp .bmm u t w tag true] }) 1 none
      else
        .retire (u.setTile n ({ t with bwa := t.bwa ++ [productOp .bmm u t w tag false] }.setBwaBank (bits w 0 2)
          ((t.bwaBank (bits w 0 2)).claim tag (dExt1 (t.t (fA w))) (dExt1 (t.t (fB w)))))) 1 none := by
  intro t tag
  have hf : u.bmmFault n w (t.t (fA w)) (t.t (fB w)) = none := hf
  have hh : t.handEmpty w = false := hh
  simp only [bmmBody, hph, ne_eq, not_true_eq_false, hf, hh, Bool.false_eq_true, if_false]
  cases hz : emptyProduct (t.t (fA w)) (t.t (fB w)) with
  | true => rfl
  | false =>
    by_cases hd : tagState (t.bwaBank (bits w 0 2)).tag = 2
    · simp only [hd, decide_true, Bool.not_false, Bool.and_true, Bool.or_true, if_true]
      rfl
    · simp only [hd, decide_false, Bool.not_false, Bool.and_false, Bool.or_false]
      rfl

/-! ### Products that fault -/

theorem fmmBody_of_fault {n c d : Nat} {u : State} {w : BitVec 64}
    (h : (if u.tilePhase n = .idle then some (0x03, 0)
      else match u.fmmFault n w ((u.tile n).t (fA w)) ((u.tile n).t (fB w)) with
        | some f => some f
        | none => if (u.tile n).handEmpty w then some (0x36, 0) else none) = some (c, d)) : fmmBody n u (u.tile n) w = .fault c d := by
  unfold fmmBody
  dsimp only
  split at h
  next hph => cases h; rw [if_pos hph]; rfl
  next hph =>
    rw [if_neg hph]
    split at h
    next f hf => cases h; rw [hf]
    next hf =>
      rw [hf]
      split at h
      next hh => cases h; simp only [hh, if_true]; rfl
      next => cases h

theorem bmmBody_of_fault {n c d : Nat} {u : State} {w : BitVec 64}
    (h : (if u.tilePhase n ≠ .bwd then some (0x03, 0)
      else match u.bmmFault n w ((u.tile n).t (fA w)) ((u.tile n).t (fB w)) with
        | some f => some f
        | none => if (u.tile n).handEmpty w then some (0x36, 0) else none) = some (c, d)) : bmmBody n u (u.tile n) w = .fault c d := by
  unfold bmmBody
  dsimp only
  split at h
  next hph => cases h; rw [if_pos hph]; rfl
  next hph =>
    rw [if_neg hph]
    split at h
    next f hf => cases h; rw [hf]
    next hf =>
      rw [hf]
      split at h
      next hh => cases h; simp only [hh, if_true]; rfl
      next => cases h

/-! ### The statement -/

/-- Settles O16: each body by its checks, then by the state of its bank. -/
theorem arrayProductsIssue : Obligations.ArrayProductsIssue := by
  refine ⟨⟨?_, ?_, ?_, ?_, ?_, ?_⟩, ?_, ?_, ?_, ?_⟩
  · refine does_of_readyAt (fun _ => fmmReady) fmmBody exec_fmm (by decide) fmmReady_of_free fun u n w ⟨⟨hph, hf, hh⟩, hz, hd⟩ => ?_
    rw [fmmBody_of_good hph hf hh, emptyProduct_eq_false hz, if_neg (by decide), if_neg (by exact hd)]
    rfl
  · refine does_of_readyAt (fun _ => fmmReady) fmmBody exec_fmm (by decide) fmmReady_of_free fun u n w ⟨⟨hph, hf, hh⟩, hz, hd⟩ => ?_
    rw [fmmBody_of_good hph hf hh, emptyProduct_eq_false hz, if_neg (by decide), if_pos (by exact hd)]
    rfl
  · refine does_of_readyAt (fun _ => fmmReady) fmmBody exec_fmm (by decide) fmmReady_of_free fun u n w ⟨⟨hph, hf, hh⟩, hz⟩ => ?_
    rw [fmmBody_of_good hph hf hh, emptyProduct_eq_true hz, if_pos rfl]
    rfl
  · refine does_of_readyAt (fun _ => bmmReady) bmmBody exec_bmm (by decide) bmmReady_of_free fun u n w ⟨⟨hph, hf, hh⟩, hz, hd⟩ => ?_
    rw [bmmBody_of_good hph hf hh, emptyProduct_eq_false hz, if_neg (by decide), if_neg (by exact hd)]
    rfl
  · refine does_of_readyAt (fun _ => bmmReady) bmmBody exec_bmm (by decide) bmmReady_of_free fun u n w ⟨⟨hph, hf, hh⟩, hz, hd⟩ => ?_
    rw [bmmBody_of_good hph hf hh, emptyProduct_eq_false hz, if_neg (by decide), if_pos (by exact hd)]
    rfl
  · refine does_of_readyAt (fun _ => bmmReady) bmmBody exec_bmm (by decide) bmmReady_of_free fun u n w ⟨⟨hph, hf, hh⟩, hz⟩ => ?_
    rw [bmmBody_of_good hph hf hh, emptyProduct_eq_true hz, if_pos rfl]
    rfl
  · exact faults_of_readyAt (fun _ => fmmReady) fmmBody exec_fmm (by decide) fmmReady_of_free fun u n w c d hf => fmmBody_of_fault hf
  · exact faults_of_readyAt (fun _ => bmmReady) bmmBody exec_bmm (by decide) bmmReady_of_free fun u n w c d hf => bmmBody_of_fault hf
  · refine stalls_of_not_ready (fun _ => fmmReady) fmmBody exec_fmm fun s n w at_ hb => if_pos ?_
    rw [State.tile_advanceTo] at hb
    exact any_waits_eq_true hb
  · refine stalls_of_not_ready (fun _ => bmmReady) bmmBody exec_bmm fun s n w at_ hb => if_pos ?_
    rw [State.tile_advanceTo] at hb
    exact any_waits_eq_true hb

end Sys2Proof.Laws
end

section
/-!
SUPPORT. Array products start and end (R134, R136, R138, R152, R158, R159, R163, R172).
-/

namespace Sys2Proof.Laws

open Sys2Proof.Machine Sys2Proof.Safety

/-! ### No word and no unit holds an error -/

/-- No word of SRAM and no unit of HBM is marked. -/
def Unmarked (s : State) : Prop := s.eccWords = [] ∧ s.eccUnits = []

theorem unmarked_takeEnv {s : State} {env : Env} (h : noErrors s env) : Unmarked (s.takeEnv env) := by
  obtain ⟨hw, hu, hups⟩ := h
  have key (l : List (Nat × EccMark)) (hl : ∀ u ∈ l, hostBase ≤ u.1) (v : State) (hv : Unmarked v) : Unmarked (l.foldl (fun s u =>
      if u.1 < 2 ^ 39 then { s with eccUnits := Tbl.insert s.eccUnits (u.1 / 64) u.2 }
      else if u.1 < hostBase then { s with eccWords := Tbl.insert s.eccWords (u.1 / 8) u.2 } else s) v) := by
    induction l generalizing v with
    | nil => exact hv
    | cons c l ih =>
      have hc : hostBase ≤ c.1 := hl c List.mem_cons_self
      have h39 : ¬ c.1 < 2 ^ 39 := Nat.not_lt.2 (Nat.le_trans (by decide) hc)
      rw [List.foldl_cons, if_neg h39, if_neg (Nat.not_lt.2 hc)]
      exact ih (fun u hu => hl u (List.mem_cons_of_mem _ hu)) v hv
  exact key _ hups _ ⟨hw, hu⟩

theorem unmarked_advanceTo {s : State} (h : Unmarked s) (t : Nat) : Unmarked (s.advanceTo t) := by
  rwa [Unmarked, State.advanceTo_eccWords, State.advanceTo_eccUnits]

theorem checkRead_of_unmarked {s : State} (h : Unmarked s) (a n : Nat) : s.checkRead a n = (s, none) := by
  have hm : s.marksIn a n = [] := by
    unfold State.marksIn
    rw [h.1, h.2]
    split_ifs <;> rfl
  rw [State.checkRead, hm, State.readMarks]

theorem readRanges_of_unmarked {s : State} (h : Unmarked s) (l : List (Nat × Nat)) : s.readRanges l = (s, false) := by
  induction l with
  | nil => rfl
  | cons r l ih => rw [State.readRanges, checkRead_of_unmarked h]; exact ih

/-! ### Products of the FWA -/

theorem exec_running {f : State → State} {s : State} (h : s.isRunning = true) :
    (.next (s.whenRunning f) : Host.Outcome State Fault Refusal) = .next (f s) := by
  rw [State.whenRunning, if_pos h]

/-- The extents of a product's operands, one of them zero, in the order of the statement. -/
theorem zeroProduct_iff {a b : BitVec 256} : ZeroProduct a b ↔ dExt0 a = 0 ∨ dExt0 b = 0 ∨ dExt1 a = 0 ∨ dExt1 b = 0 := by
  rw [ZeroProduct, or_left_comm (a := dExt1 a = 0)]

/-- The operation waits for the array input, or holds it. -/
def isWaiting (k : OpKind) (x : UnitOp) : Bool := decide (x.kind = k) && x.started.isNone

/-- The first such operation started. -/
def startedAt (k : OpKind) (ops : List UnitOp) (at_ : Nat) : List UnitOp := updateFirst (isWaiting k) (fun x => { x with started := some at_ }) ops

theorem startFwaProduct_of_blocked {s : State} {n : Nat} {o : UnitOp} {rest : List UnitOp}
    (ht : takeFirst (isWaiting .fmm) (s.tile n).fwa = some (o, rest)) (h : (s.tile n).mayStart o = false ∨ o.waits = true) :
    s.startFwaProduct n = s := by
  unfold isWaiting at ht
  simp only [State.startFwaProduct, ht]
  exact if_pos (by rcases h with h | h <;> simp [h])

/-- A product of the FWA that may start, while nothing read holds an error. -/
theorem startFwaProduct_of_free {s : State} {n : Nat} {t : Tile} {o : UnitOp} {rest : List UnitOp} (hu : Unmarked s) (hst : s.tile n = t)
    (ht : takeFirst (isWaiting .fmm) t.fwa = some (o, rest)) (hm : t.mayStart o = true) (hw : o.waits = false) :
    let at_ := o.startTime s.now t.fwaFree
    let u := s.advanceTo at_
    s.startFwaProduct n = u.setTile n (
      if emptyProduct o.a o.b then { t.slotStart o with fwaFree := at_ + 1, fwa := startedAt .fmm t.fwa at_ }
      else { (t.slotStart o).setFwaBank o.bank ((
          if (t.fwaBank o.bank).products = 1 then
            { t.fwaBank o.bank with rowA := u.captureScales o.a (bits o.tag 20 4) (shapeM (bits o.word 2 2)),
                                    rowB := u.captureScales o.b (bits o.tag 16 4) (shapeN (bits o.word 2 2)) }
          else t.fwaBank o.bank).begun (dExt1 o.a) (dExt1 o.b)) with
        fwaFree := at_ + dExt0 o.a, fwa := startedAt .fmm t.fwa at_ }) := by
  intro at_ u
  unfold isWaiting at ht
  have hcheck (l : List (Nat × Nat)) : u.readRanges l = (u, false) := readRanges_of_unmarked (unmarked_advanceTo hu _) l
  have htile : u.tile n = t := (State.tile_advanceTo s at_ n).trans hst
  have hm' : (!t.mayStart o || o.waits) = false := by rw [hm, hw]; rfl
  simp only [State.startFwaProduct, hst, ht]
  rw [if_neg (by rw [hm']; decide)]
  cases hz : emptyProduct o.a o.b with
  | true =>
    simp only [if_true]
    rw [State.modTile_of htile]
    rfl
  | false =>
    simp only [Bool.false_eq_true, if_false]
    rw [hcheck]
    simp only [Bool.false_eq_true, if_false]
    rw [State.modTile_of htile]
    simp only [decide_eq_true_eq]
    rfl

/-- The operation holds the array input or is past it. -/
def isGoing (k : OpKind) (x : UnitOp) : Bool := decide (x.kind = k) && x.started.isSome

theorem completeFwaProduct_eq {s : State} {n k : Nat} {o : UnitOp} {rest : List UnitOp}
    (ht : takeFirst (isGoing .fmm) (s.tile n).fwa = some (o, rest)) (hk : o.started = some k) :
    let t := s.tile n
    let v := s.advanceTo (k + dExt0 o.a + 12)
    s.completeFwaProduct n =
      if emptyProduct o.a o.b then (s.advanceTo (k + 1)).setTile n { t.slotEnd o with fwa := rest, fwaDone := max t.fwaDone (k + 1) }
      else v.setTile n { (t.slotEnd o).setFwaBank o.bank (v.fwaBankAfter o (t.fwaBank o.bank)) with
        fwa := rest, fwaDone := max t.fwaDone (k + dExt0 o.a + 12), fwaBusy := t.fwaBusy + BitVec.ofNat _ (dExt0 o.a),
        fwaProducts := t.fwaProducts + 1,
        fwaOutliers := t.fwaOutliers + BitVec.ofNat _ (v.outlierCount o.a (bits o.tag 20 4) + v.outlierCount o.b (bits o.tag 16 4)) } := by
  intro t v
  unfold isGoing at ht
  have hslot : (t.slotEnd o).fwaDone = t.fwaDone ∧ (t.slotEnd o).fwaBusy = t.fwaBusy ∧ (t.slotEnd o).fwaProducts = t.fwaProducts ∧
      (t.slotEnd o).fwaOutliers = t.fwaOutliers := by
    unfold Tile.slotEnd
    split_ifs <;> exact ⟨rfl, rfl, rfl, rfl⟩
  obtain ⟨h1, h2, h3, h4⟩ := hslot
  have htile (x : Nat) : (s.advanceTo x).tile n = t := State.tile_advanceTo s x n
  simp only [State.completeFwaProduct, ht, hk, Option.getD_some]
  split
  · rw [State.modTile_of (htile _)]
  · rw [State.modTile_of (htile _), htile]
    simp only [Tile.setFwaBank, h1, h2, h3, h4, wrapAdd]
    rfl

/-! ### Products of the BWA -/

theorem startBwaProduct_of_blocked {s : State} {n : Nat} {o : UnitOp} {rest : List UnitOp}
    (ht : takeFirst (isWaiting .bmm) (s.tile n).bwa = some (o, rest)) (h : (s.tile n).mayStart o = false ∨ o.waits = true) :
    s.startBwaProduct n = s := by
  unfold isWaiting at ht
  simp only [State.startBwaProduct, ht]
  exact if_pos (by rcases h with h | h <;> simp [h])

/-- A product of the BWA that may start, while nothing read holds an error. -/
theorem startBwaProduct_of_free {s : State} {n : Nat} {t : Tile} {o : UnitOp} {rest : List UnitOp} (hu : Unmarked s) (hst : s.tile n = t)
    (ht : takeFirst (isWaiting .bmm) t.bwa = some (o, rest)) (hm : t.mayStart o = true) (hw : o.waits = false) :
    let at_ := o.startTime s.now t.bwaFree
    s.startBwaProduct n = (s.advanceTo at_).setTile n (
      if emptyProduct o.a o.b then { t.slotStart o with bwaFree := at_ + 1, bwa := startedAt .bmm t.bwa at_ }
      else { (t.slotStart o).setBwaBank o.bank ((t.bwaBank o.bank).begun (dExt1 o.a) (dExt1 o.b)) with
        bwaFree := at_ + bwaSpan (dExt0 o.a), bwa := startedAt .bmm t.bwa at_ }) := by
  intro at_
  unfold isWaiting at ht
  have hcheck (l : List (Nat × Nat)) : (s.advanceTo at_).readRanges l = (s.advanceTo at_, false) :=
    readRanges_of_unmarked (unmarked_advanceTo hu _) l
  have htile : (s.advanceTo at_).tile n = t := (State.tile_advanceTo s at_ n).trans hst
  have hm' : (!t.mayStart o || o.waits) = false := by rw [hm, hw]; rfl
  simp only [State.startBwaProduct, hst, ht]
  rw [if_neg (by rw [hm']; decide)]
  cases hz : emptyProduct o.a o.b with
  | true =>
    simp only [if_true]
    rw [State.modTile_of htile]
    rfl
  | false =>
    simp only [Bool.false_eq_true, if_false]
    rw [hcheck]
    simp only [Bool.false_eq_true, if_false]
    rw [State.modTile_of htile]
    rfl

/-- The operation is no drain, and holds the array input or is past it. -/
def isGoingBwa (x : UnitOp) : Bool := decide (x.kind ≠ .bdr) && x.started.isSome

theorem completeBwaProduct_eq {s : State} {n k : Nat} {o : UnitOp} {rest : List UnitOp}
    (ht : takeFirst isGoingBwa (s.tile n).bwa = some (o, rest)) (hkind : o.kind = .bmm) (hk : o.started = some k) :
    let t := s.tile n
    let v := s.advanceTo (k + bwaSpan (dExt0 o.a) + 16)
    s.completeBwaProduct n =
      if emptyProduct o.a o.b then (s.advanceTo (k + 1)).setTile n { t.slotEnd o with bwa := rest, bwaDone := max t.bwaDone (k + 1) }
      else v.setTile n { (t.slotEnd o).setBwaBank o.bank (v.bwaBankAfter (bits o.word 2 2) o.a o.b (t.bwaBank o.bank)) with
        bwa := rest, bwaDone := max t.bwaDone (k + bwaSpan (dExt0 o.a) + 16), bwaBusy := t.bwaBusy + BitVec.ofNat _ (bwaSpan (dExt0 o.a)),
        bwaProducts := t.bwaProducts + 1 } := by
  intro t v
  unfold isGoingBwa at ht
  have hslot : (t.slotEnd o).bwaDone = t.bwaDone ∧ (t.slotEnd o).bwaBusy = t.bwaBusy ∧ (t.slotEnd o).bwaProducts = t.bwaProducts := by
    unfold Tile.slotEnd
    split_ifs <;> exact ⟨rfl, rfl, rfl⟩
  obtain ⟨h1, h2, h3⟩ := hslot
  have htile (x : Nat) : (s.advanceTo x).tile n = t := State.tile_advanceTo s x n
  have hops : o.operands = (o.a, o.b) := by simp [UnitOp.operands, hkind]
  have hwatch : decide (o.kind = .watchProduct) = false := by rw [hkind]; rfl
  simp only [State.completeBwaProduct, ht, hk, Option.getD_some, hops, hwatch]
  split
  · rw [State.modTile_of (htile _)]
  · rw [State.modTile_of (htile _), htile]
    simp only [Tile.setBwaBank, h1, h2, h3, wrapAdd, b2n, Bank.repeated, Bool.not_false, Bool.false_eq_true, if_false, if_true,
      Nat.add_zero, BitVec.ofNat_eq_ofNat, BitVec.add_zero]
    rfl

/-! ### The statement -/

theorem emptyProduct_of_zero {a b : BitVec 256} (h : dExt0 a = 0 ∨ dExt0 b = 0 ∨ dExt1 a = 0 ∨ dExt1 b = 0) : emptyProduct a b = true :=
  emptyProduct_eq_true (zeroProduct_iff.2 h)

theorem emptyProduct_of_not_zero {a b : BitVec 256} (h : ¬ (dExt0 a = 0 ∨ dExt0 b = 0 ∨ dExt1 a = 0 ∨ dExt1 b = 0)) :
    emptyProduct a b = false :=
  emptyProduct_eq_false fun hz => h (zeroProduct_iff.1 hz)

/-- Settles O17: each step takes the oldest product that waits, or that is under way, and does what its unit's step says. -/
theorem arrayProductsRun : Obligations.ArrayProductsRun := by
  refine ⟨fun s n env o rest hp => ?_, fun s n env o rest hp => ?_⟩
  · intro e t q zero waiting going start
    have hstart : exec (.fwaProductStart n env) s = .next (e.startFwaProduct n) := exec_running hp
    have hend : exec (.fwaProductComplete n) s = .next (s.completeFwaProduct n) := exec_running hp
    have htile : e.tile n = t := takeEnv_tile s env n
    refine ⟨fun ht hb => ?_, fun hn ht hm hw => ?_, fun k ht hk => ?_⟩
    · rw [hstart, startFwaProduct_of_blocked (by rw [htile]; exact ht) (by rw [htile]; exact hb)]
    · have hs := startFwaProduct_of_free (unmarked_takeEnv hn) htile ht hm hw
      intro u b bank
      refine ⟨fun hz => ?_, fun hz => ?_⟩
      · rw [hstart, hs, emptyProduct_of_zero hz]
        rfl
      · rw [hstart, hs, emptyProduct_of_not_zero hz]
        simp only [Bool.false_eq_true, if_false]
        by_cases hfirst : b.products = 1
        · rw [if_pos hfirst, if_pos (show (t.fwaBank o.bank).products = 1 from hfirst)]
          rfl
        · rw [if_neg hfirst, if_neg (show ¬ (t.fwaBank o.bank).products = 1 from hfirst)]
          rfl
    · have hs := completeFwaProduct_eq ht hk
      refine ⟨fun hz => ?_, fun hz => ?_⟩
      · rw [hend, hs, emptyProduct_of_zero hz]
        rfl
      · rw [hend, hs, emptyProduct_of_not_zero hz]
        rfl
  · intro e t q zero waiting going start span
    have hstart : exec (.bwaProductStart n env) s = .next (e.startBwaProduct n) := exec_running hp
    have hend : exec (.bwaProductComplete n) s = .next (s.completeBwaProduct n) := exec_running hp
    have htile : e.tile n = t := takeEnv_tile s env n
    refine ⟨fun ht hb => ?_, fun hn ht hm hw => ?_, fun k ht hkind hk => ?_⟩
    · rw [hstart, startBwaProduct_of_blocked (by rw [htile]; exact ht) (by rw [htile]; exact hb)]
    · have hs := startBwaProduct_of_free (unmarked_takeEnv hn) htile ht hm hw
      intro u b bank
      refine ⟨fun hz => ?_, fun hz => ?_⟩
      · rw [hstart, hs, emptyProduct_of_zero hz]
        rfl
      · rw [hstart, hs, emptyProduct_of_not_zero hz]
        rfl
    · have hs := completeBwaProduct_eq ht hkind hk
      refine ⟨fun hz => ?_, fun hz => ?_⟩
      · rw [hend, hs, emptyProduct_of_zero hz]
        rfl
      · rw [hend, hs, emptyProduct_of_not_zero hz]
        rfl

end Sys2Proof.Laws
end


section
/-!
SUPPORT. FDR and BDR issue, and gradient drains run (R80, R81, R140, R161, R162, R166 to R168, R272, R275, R278, R280).
-/

namespace Sys2Proof.Laws

open Sys2Proof.Machine Sys2Proof.Safety

/-! ### Drains issue -/

theorem fdrReady_of_free (s : State) (n unit : Nat) (w : BitVec 64) (h : NoneWaits .fdr (s.tile n).fwa ∧ unit = 0) :
    fdrReady s (s.tile n) w = some unit := by
  rw [fdrReady, any_waits_eq_false h.1, h.2]
  rfl

theorem bdrReady_of_free (s : State) (n unit : Nat) (w : BitVec 64) (h : NoneWaits .bdr (s.tile n).bwa ∧ unit = 0) :
    bdrReady s (s.tile n) w = some unit := by
  rw [bdrReady, any_waits_eq_false h.1, h.2]
  rfl

theorem exec_fdr (n : Nat) (s : State) : exec (.fdr n) s = .next (s.issueWhen n 0x31 fdrReady (fdrBody n)) := rfl

theorem exec_bdr (n : Nat) (s : State) : exec (.bdr n) s = .next (s.issueWhen n 0x39 bdrReady (bdrBody n)) := rfl

/-- FDR in a phase that accepts it, past its checks. -/
theorem fdrBody_of_good {n : Nat} {u : State} {w : BitVec 64} (hph : u.tilePhase n ≠ .idle)
    (hf : u.fdrFault n w ((u.tile n).t (fD w)) = none) :
    fdrBody n u (u.tile n) w = .retire (u.setTile n { (u.tile n).setFwaBank (bits w 0 2)
        { (u.tile n).fwaBank (bits w 0 2) with tag := setBits ((u.tile n).fwaBank (bits w 0 2)).tag 62 2 2 } with
      fwa := (u.tile n).fwa ++ [{ kind := .fdr, pc := (u.tile n).pc, word := w, d := (u.tile n).t (fD w),
                                  x := BitVec.ofNat 32 (if w.getLsbD 2 then u.effective (n / 64) ((u.tile n).t (fD w)) else 0),
                                  issued := u.now }] }) 1 none := by
  simp only [fdrBody, if_neg hph, hf]
  rfl

theorem fdrBody_of_fault {n c d : Nat} {u : State} {w : BitVec 64}
    (h : (if u.tilePhase n = .idle then some (0x03, 0) else u.fdrFault n w ((u.tile n).t (fD w))) = some (c, d)) :
    fdrBody n u (u.tile n) w = .fault c d := by
  unfold fdrBody
  dsimp only
  split at h
  next hph => cases h; rw [if_pos hph]; rfl
  next hph => rw [if_neg hph, h]

/-- BDR in phase BWD, past its checks. -/
theorem bdrBody_of_good {n : Nat} {u : State} {w : BitVec 64} (hph : u.tilePhase n = .bwd)
    (hf : u.bdrFault n w ((u.tile n).t (fD w)) ((u.tile n).s (fB w)).toNat ((u.tile n).s (fC w)).toNat = none) :
    bdrBody n u (u.tile n) w = .retire (u.setTile n { (u.tile n).setBwaBank (bits w 0 2)
        { (u.tile n).bwaBank (bits w 0 2) with tag := setBits ((u.tile n).bwaBank (bits w 0 2)).tag 62 2 2 } with
      bwa := (u.tile n).bwa ++ [{ kind := .bdr, pc := (u.tile n).pc, word := w, d := (u.tile n).t (fD w), x := (u.tile n).s (fB w),
                                  z := (u.tile n).s (fC w), issued := u.now }] }) 1 none := by
  simp only [bdrBody, hph, ne_eq, not_true_eq_false, if_false, hf]
  rfl

theorem bdrBody_of_fault {n c d : Nat} {u : State} {w : BitVec 64}
    (h : (if u.tilePhase n ≠ .bwd then some (0x03, 0)
      else u.bdrFault n w ((u.tile n).t (fD w)) ((u.tile n).s (fB w)).toNat ((u.tile n).s (fC w)).toNat) = some (c, d)) :
    bdrBody n u (u.tile n) w = .fault c d := by
  unfold bdrBody
  dsimp only
  split at h
  next hph => cases h; rw [if_pos hph]; rfl
  next hph => rw [if_neg hph, h]

/-! ### Gradient drains -/

theorem any_before_eq_false {k : OpKind} {p : UnitOp → Bool} {ops : List UnitOp} {q : Nat}
    (h : ∀ x ∈ ops.takeWhile (fun x => !p x), ¬ (x.kind = k ∧ bits x.word 0 2 = q)) :
    ((ops.takeWhile fun x => !p x).any fun x => decide (x.kind = k) && decide (x.bank = q)) = false :=
  List.any_eq_false.2 fun x hx hb =>
    have hb := Bool.and_eq_true_iff.1 hb
    h x hx ⟨of_decide_eq_true hb.1, of_decide_eq_true hb.2⟩

theorem startBwaDrain_of_free {s : State} {n : Nat} {o : UnitOp} {rest : List UnitOp}
    (ht : takeFirst (isWaiting .bdr) (s.tile n).bwa = some (o, rest))
    (hb : ∀ x ∈ (s.tile n).bwa.takeWhile (fun x => !isWaiting .bdr x), ¬ (x.kind = .bmm ∧ bits x.word 0 2 = o.bank)) :
    let t := s.tile n
    let start := max (max o.issued t.bwaDone) t.gradDone
    s.startBwaDrain n = (s.advanceTo start).setTile n { t with
      gradDone := start + gradReadTime (t.gradExtentOf o),
      bwa := updateFirst (isWaiting .bdr) (fun x => { x with started := some start, y := BitVec.ofInt 32 (s.scaleExp (n / 64) o.d) }) t.bwa } := by
  intro t start
  have hbefore := any_before_eq_false hb
  unfold isWaiting at ht hbefore
  have hscale : (s.advanceTo start).scaleExp (n / 64) o.d = s.scaleExp (n / 64) o.d := by
    simp only [State.scaleExp, State.entryOf, entry_advanceTo]
  simp only [State.startBwaDrain, ht]
  rw [hbefore, if_neg (by decide), hscale, State.modTile, State.tile_advanceTo]
  rfl

/-- A product aimed at a bank that becomes EMPTY takes it, in the words of the statement. -/
theorem endBwaWait_eq (v : State) (n q : Nat) : v.endBwaWait n q =
    match takeFirst (fun x => decide (x.kind = .bmm) && x.waits && decide (bits x.word 0 2 = q)) (v.tile n).bwa with
    | none => v
    | some (x, _) => v.setTile n { (v.tile n).setBwaBank q
          { tag := setBits (v.bwaTagOf (n / 64) (bits x.word 2 2) false x.a x.b) 62 2 1, extM := dExt1 x.a, extN := dExt1 x.b, products := 1 } with
        bwa := updateFirst (fun x => decide (x.kind = .bmm) && x.waits && decide (bits x.word 0 2 = q))
          (fun y => { y with waits := false, tag := v.bwaTagOf (n / 64) (bits x.word 2 2) false x.a x.b, freed := v.now }) (v.tile n).bwa } := by
  simp only [State.endBwaWait, UnitOp.bank, Bank.claim, Nat.zero_max]
  rfl

theorem completeBwaDrain_eq {s : State} {n k : Nat} {o : UnitOp} {rest : List UnitOp}
    (ht : takeFirst (isGoing .bdr) (s.tile n).bwa = some (o, rest)) (hk : o.started = some k) :
    let t := s.tile n
    let b := t.bwaBank o.bank
    let e := t.gradExtentOf o
    let u := s.advanceTo (k + gradDrainTime e)
    let p := u.tilePaddock n
    let rows := (List.range e.1).map fun i => (List.range e.2).map fun j => u.gradCode p o b i j
    let v := (u.setTile n { (t.setBwaBank o.bank {}).slotEnd o with bwa := rest }).writePieces p
      (unitPieces (rows.zipIdx.map fun r => (rowAt o.d r.2, r.1.flatMap fun v => leBytes 2 v.toNat)))
    let v := if dHasEntry o.d then v.account (n / 64) (dEntry o.d) (gradCounts o.y.toInt rows) false else v
    s.completeBwaDrain n = (v.endBwaWait n o.bank).nonFiniteAt n o
      (((cells b.extM b.extN).find? fun c => !(fp (b.gradFp32 o.y.toInt c.1 c.2)).isFinite).map fun c =>
        c.1 * shapeN (bits b.tag 60 2) + c.2) := by
  intro t b e u p rows v v'
  unfold isGoing at ht
  have htile : u.tile n = t := State.tile_advanceTo s _ n
  simp only [State.completeBwaDrain, ht, hk, Option.getD_some]
  rw [State.modTile_of htile]

/-! ### The statement -/

/-- Settles O18: a drain is accepted past its checks, and a gradient drain starts and ends as its unit's steps say. -/
theorem drainsIssue : Obligations.DrainsIssue := by
  refine ⟨⟨?_, ?_, ?_, ?_, ?_, ?_⟩, fun s n o rest hp => ?_⟩
  · exact does_of_readyAt (fun _ => fdrReady) fdrBody exec_fdr (by decide) fdrReady_of_free fun u n w ⟨hph, hf⟩ => fdrBody_of_good hph hf
  · exact does_of_readyAt (fun _ => bdrReady) bdrBody exec_bdr (by decide) bdrReady_of_free fun u n w ⟨hph, hf⟩ => bdrBody_of_good hph hf
  · exact faults_of_readyAt (fun _ => fdrReady) fdrBody exec_fdr (by decide) fdrReady_of_free fun u n w c d hf => fdrBody_of_fault hf
  · exact faults_of_readyAt (fun _ => bdrReady) bdrBody exec_bdr (by decide) bdrReady_of_free fun u n w c d hf => bdrBody_of_fault hf
  · refine stalls_of_not_ready (fun _ => fdrReady) fdrBody exec_fdr fun s n w at_ hb => if_pos ?_
    rw [State.tile_advanceTo] at hb
    exact any_waits_eq_true hb
  · refine stalls_of_not_ready (fun _ => bdrReady) bdrBody exec_bdr fun s n w at_ hb => if_pos ?_
    rw [State.tile_advanceTo] at hb
    exact any_waits_eq_true hb
  · intro t q waiting going
    have hstart : exec (.bwaDrainStart n) s = .next (s.startBwaDrain n) := exec_running hp
    have hend : exec (.bwaDrainComplete n) s = .next (s.completeBwaDrain n) := exec_running hp
    refine ⟨fun ht hb => ?_, fun k ht hk => ?_⟩
    · intro start cells td
      rw [hstart, startBwaDrain_of_free ht hb]
      rfl
    · rw [hend, completeBwaDrain_eq ht hk]
      exact congrArg (fun x => Host.Outcome.next (State.nonFiniteAt x n o _)) (endBwaWait_eq _ _ _)

end Sys2Proof.Laws
end


section
/-!
SUPPORT. Drains of the forward array toward the tile store and toward the Hame (R142, R145 to R147, R172, R278, R88).
-/

namespace Sys2Proof.Laws

open Sys2Proof.Machine Sys2Proof.Safety

/-! ### The start -/

/-- When a drain starts that nothing holds up any more. -/
def drainStartTime (s : State) (t : Tile) (o : UnitOp) : Nat := if o.pv then s.now else max o.issued t.fwaDone

/-- What a drain of the FWA hands the Hame as it starts. -/
def drainStep (t : Tile) (o : UnitOp) (at_ : Nat) : UnitOp :=
  let d := drainTarget o.d (t.fwaBank o.bank).extM (t.fwaBank o.bank).extN
  { kind := .fdr, pc := o.pc, word := o.word &&& ~~~maskOf 8 8, d := d, a := d, x := o.x, values := t.hameValues o.bank, issued := at_ }

theorem hameValues_congr {t u : Tile} (hf : u.fwaBanks = t.fwaBanks) (hb : u.bwaBanks = t.bwaBanks) (hw : u.bwa = t.bwa) (q : Nat) :
    u.hameValues q = t.hameValues q := by
  simp only [Tile.hameValues, Tile.repeated, Tile.openRepeats, Tile.fwaBank, Tile.bwaBank, hf, hb, hw]
  rfl

theorem slotStart_lanes (t : Tile) (o : UnitOp) :
    (t.slotStart o).fwaBanks = t.fwaBanks ∧ (t.slotStart o).bwaBanks = t.bwaBanks ∧ (t.slotStart o).bwa = t.bwa ∧
      (t.slotStart o).fwa = t.fwa ∧ (t.slotStart o).hame = t.hame := by
  unfold Tile.slotStart
  split_ifs <;> exact ⟨rfl, rfl, rfl, rfl, rfl⟩

/-- A drain that no product and no repeat holds up starts. -/
theorem startFwaDrain_of_free {s : State} {n : Nat} {t : Tile} {o : UnitOp} {rest : List UnitOp} (hst : s.tile n = t)
    (ht : takeFirst (isWaiting .fdr) t.fwa = some (o, rest)) (hm : t.mayStart o = true)
    (hb : ∀ x ∈ t.fwa.takeWhile (fun x => !isWaiting .fdr x), ¬ (x.kind = .fmm ∧ bits x.word 0 2 = o.bank))
    (hrep : (bit o.word 2 && decide (bits (t.fwaBank o.bank).tag 58 2 = 2) && t.openRepeats o.bank) = false) :
    let at_ := drainStartTime s t o
    s.startFwaDrain n = (s.advanceTo at_).setTile n (
      if bit o.word 2 then { t.slotStart o with fwa := startedAt .fdr t.fwa at_, hame := t.hame ++ [drainStep t o at_] }
      else { t.slotStart o with fwa := startedAt .fdr t.fwa at_ }) := by
  intro at_
  have hbefore := any_before_eq_false hb
  unfold isWaiting at ht hbefore
  have htile : (s.advanceTo at_).tile n = t := (State.tile_advanceTo s at_ n).trans hst
  obtain ⟨h1, h2, h3, h4, h5⟩ := slotStart_lanes t o
  simp only [State.startFwaDrain, hst, ht]
  rw [hbefore, hm, hrep, if_neg (by decide)]
  show (s.advanceTo at_).modTile n _ = _
  rw [State.modTile_of htile]
  have hv := hameValues_congr (u := { t.slotStart o with fwa := startedAt .fdr (t.slotStart o).fwa at_ }) h1 h2 h3 o.bank
  simp only [drainStep, ← hv]
  rw [← h4, ← h5]
  rfl

theorem fwaFp32_eq (b : Bank) :
    b.fwaFp32 = Tbl.ofList 0 0 ((List.range b.extM).flatMap fun i => (List.range b.extN).map fun j => toFp (b.fwaValue i j)) := by
  simp only [Bank.fwaFp32, cells, List.map_flatMap, List.map_map]
  rfl

/-! ### The end of a drain to the tile store -/

/-- A product aimed at a bank that becomes EMPTY takes it, in the words of the statement. -/
theorem endFwaWait_eq (v : State) (n q : Nat) : v.endFwaWait n q =
    match takeFirst (fun x => decide (x.kind = .fmm) && x.waits && decide (bits x.word 0 2 = q)) (v.tile n).fwa with
    | none => v
    | some (x, _) => v.setTile n { (v.tile n).setFwaBank q
          { tag := setBits (v.fwaTagOf (n / 64) x.word x.a x.b) 62 2 1, extM := dExt1 x.a, extN := dExt1 x.b, products := 1 } with
        fwa := updateFirst (fun x => decide (x.kind = .fmm) && x.waits && decide (bits x.word 0 2 = q))
          (fun y => { y with waits := false, tag := v.fwaTagOf (n / 64) x.word x.a x.b, freed := v.now }) (v.tile n).fwa } := by
  simp only [State.endFwaWait, UnitOp.bank, Bank.claim, Nat.zero_max]
  rfl

/-- Nothing of a bank without repeats is kept for the comparison. -/
theorem keepForCompare_of_none {t : Tile} {q : Nat} (ho : t.openRepeats q = false)
    (hp : (t.bwaBank q).products = 0 ∨ (t.bwaBank q).tag.getLsbD 59 = false) : t.keepForCompare q = t := by
  have h : (t.openRepeats q || (bit (t.bwaBank q).tag 59 && decide ((t.bwaBank q).products ≠ 0))) = false := by
    rcases hp with hp | hp
    · simp only [ho, hp, ne_eq, not_true_eq_false, decide_false, Bool.and_false, Bool.or_false]
    · simp only [ho, bit, hp, Bool.false_and, Bool.or_false]
  simp only [Tile.keepForCompare]
  rw [h, if_neg (by decide)]

theorem drainResult_of_not_repeated {t : Tile} {q : Nat} (h : t.repeated q = false) (m c : Nat) :
    t.drainResult q m c = toBf ((t.fwaBank q).fwaValue m c) := by
  simp only [Tile.drainResult, h, Bool.false_eq_true, if_false]
  rfl

theorem drainEnd_toTile {t : Tile} {o : UnitOp} (hw : o.word.getLsbD 2 = false) (ho : t.openRepeats o.bank = false) (k : Nat) :
    t.drainEnd o k = some (k + 24) := by
  simp only [Tile.drainEnd, bit, hw, ho, Bool.false_eq_true, and_false, if_false]

/-- A drain to the tile store ends 24 aclk after its start. -/
theorem completeFwaDrain_toTile {s : State} {n k : Nat} {t : Tile} {o : UnitOp} {rest : List UnitOp} (hst : s.tile n = t)
    (ht : takeFirst (isGoing .fdr) t.fwa = some (o, rest)) (hk : o.started = some k) (hw : o.word.getLsbD 2 = false)
    (ho : t.openRepeats o.bank = false) (hp : (t.bwaBank o.bank).products = 0 ∨ (t.bwaBank o.bank).tag.getLsbD 59 = false)
    (hr : t.repeated o.bank = false) :
    let u := s.advanceTo (k + 24)
    let b := t.fwaBank o.bank
    let rows := (List.range b.extM).map fun m => (List.range b.extN).map fun c => toBf (b.fwaValue m c)
    let v := (u.setTile n { (t.setFwaBank o.bank {}).slotEnd o with fwa := rest }).writePieces (u.tilePaddock n)
      (unitPieces ((rows.zipIdx.filter fun r => decide (r.2 < dExt1 o.d)).map fun r =>
        (rowAt o.d r.2, (r.1.take (dExt0 o.d)).flatMap fun v => leBytes 2 v.toNat)))
    s.completeFwaDrain n = (v.endFwaWait n o.bank).nonFiniteAt n o
      (rows.zipIdx.findSome? fun r => (r.1.findIdx? bfNonFinite).map fun c => r.2 * shapeN (bits b.tag 60 2) + c) := by
  intro u b rows v
  unfold isGoing at ht
  have htile : u.tile n = t := (State.tile_advanceTo s _ n).trans hst
  simp only [State.completeFwaDrain, hst, ht, hk, Option.getD_some, drainEnd_toTile hw ho, bit, hw, Bool.false_eq_true, if_false,
    drainResult_of_not_repeated hr]
  rw [State.modTile_of htile, keepForCompare_of_none ho hp]
  rfl

/-! ### The end of a drain to the Hame -/

/-- What an end of a drain to the Hame leaves alone: everything but tiles, and the records of a non-finite element. -/
def DrainKeeps (u s : State) : Prop := u.time = s.time ∧ u.mem = s.mem ∧ u.hbm = s.hbm

theorem DrainKeeps.trans {u v s : State} (h : DrainKeeps u v) (g : DrainKeeps v s) : DrainKeeps u s :=
  ⟨h.1.trans g.1, h.2.1.trans g.2.1, h.2.2.trans g.2.2⟩

theorem setTile_keeps (s : State) (n : Nat) (x : Tile) : DrainKeeps (s.setTile n x) s := ⟨rfl, rfl, rfl⟩

/-- The forward array of a tile. -/
def SameForward (t u : Tile) : Prop := u.fwa = t.fwa ∧ u.fwaBanks = t.fwaBanks

theorem keepForCompare_forward (t : Tile) (q : Nat) :
    SameForward t (t.keepForCompare q) ∧ (t.keepForCompare q).seqState = t.seqState := by
  unfold Tile.keepForCompare
  dsimp only
  split_ifs <;> exact ⟨⟨rfl, rfl⟩, rfl⟩

theorem slotEnd_forward (t : Tile) (o : UnitOp) : SameForward t (t.slotEnd o) ∧ (t.slotEnd o).seqState = t.seqState := by
  unfold Tile.slotEnd Tile.setSlot
  dsimp only
  split_ifs <;> exact ⟨⟨rfl, rfl⟩, rfl⟩

theorem tile_raise (s : State) (src : Nat) (e : EventCode) (p : BitVec 128) (k : Nat) : (s.raise src e p).tile k = s.tile k := by
  rw [State.tile, State.raise_tiles, State.tile]

theorem nonFiniteAt_keeps (s : State) (n : Nat) (o : UnitOp) (p : Option Nat) : DrainKeeps (s.nonFiniteAt n o p) s := by
  cases p with
  | none => exact ⟨rfl, rfl, rfl⟩
  | some p =>
    simp only [State.nonFiniteAt, State.nonFinite]
    split_ifs <;> simp [DrainKeeps]

theorem nonFiniteAt_forward {s : State} {n : Nat} (hs : (s.tile n).seqState ≠ .idle) (o : UnitOp) (p : Option Nat) :
    SameForward (s.tile n) ((s.nonFiniteAt n o p).tile n) := by
  cases p with
  | none => exact ⟨rfl, rfl⟩
  | some p =>
    have key (x : Tile) (hx : x.seqState = (s.tile n).seqState) (hf : SameForward (s.tile n) x) :
        SameForward (s.tile n) ((s.setTile n x).tile n) := by
      rwa [State.tile_setTile _ _ _ (fun h => hs (by rw [← hx, h]))]
    simp only [State.nonFiniteAt, State.nonFinite]
    split
    · exact key _ rfl ⟨rfl, rfl⟩
    · simp only [tile_raise]
      exact key _ rfl ⟨rfl, rfl⟩

theorem endFwaWait_keeps (s : State) (n q : Nat) : DrainKeeps (s.endFwaWait n q) s := by
  unfold State.endFwaWait
  dsimp only
  split <;> exact ⟨rfl, rfl, rfl⟩

/-- A drain to the Hame ends with the step that the Hame took, its bank EMPTY. -/
theorem completeFwaDrain_toHame {s : State} {n k h : Nat} {t : Tile} {o x : UnitOp} {rest : List UnitOp} (hst : s.tile n = t)
    (ht : takeFirst (isGoing .fdr) t.fwa = some (o, rest)) (hk : o.started = some k) (hw : o.word.getLsbD 2 = true)
    (hx : t.hame.find? (fun x => decide (x.kind = .fdr) && decide (x.issued = k) && decide (x.pc = o.pc)) = some x)
    (hs : x.started = some h) :
    ∃ bad, s.completeFwaDrain n = ((((s.advanceTo (h + 17)).setTile n
      { ((t.keepForCompare o.bank).setFwaBank o.bank {}).slotEnd o with fwa := rest }).endFwaWait n o.bank).nonFiniteAt n o bad) := by
  unfold isGoing at ht
  have htile : (s.advanceTo (h + 17)).tile n = t := (State.tile_advanceTo s _ n).trans hst
  have hend : t.drainEnd o k = some (h + 17) := by
    simp only [Tile.drainEnd, bit, hw, if_true, hx, hs, Option.map_some]
  simp only [State.completeFwaDrain, hst, ht, hk, Option.getD_some, hend, bit, hw, if_true]
  rw [State.modTile_of htile]
  exact ⟨_, rfl⟩

theorem endFwaWait_of_none {s : State} {n q : Nat}
    (h : takeFirst (fun x => decide (x.kind = .fmm) && x.waits && decide (bits x.word 0 2 = q)) (s.tile n).fwa = none) :
    s.endFwaWait n q = s := by
  rw [endFwaWait_eq, h]

theorem takeFirst_eq_none {p : UnitOp → Bool} {l : List UnitOp} (h : ∀ x ∈ l, p x = false) : takeFirst p l = none := by
  induction l with
  | nil => rfl
  | cons x l ih =>
    rw [takeFirst, h x List.mem_cons_self, ih fun y hy => h y (List.mem_cons_of_mem _ hy)]
    rfl

/-- With no product that waits for the bank, it is EMPTY after the drain and the others stay. -/
theorem completeFwaDrain_banks {s : State} {n : Nat} {t : Tile} {o : UnitOp} {rest : List UnitOp} {u v : State} {bad : Option Nat}
    (hidle : t.seqState ≠ .idle) (hsort : Tbl.sorted t.fwaBanks = true)
    (hnone : ∀ x ∈ rest, x.kind = .fmm → bits x.word 0 2 = o.bank → x.waits = false)
    (hv : v = s.setTile n { ((t.keepForCompare o.bank).setFwaBank o.bank {}).slotEnd o with fwa := rest })
    (hu : u = (v.endFwaWait n o.bank).nonFiniteAt n o bad) :
    (u.tile n).fwa = rest ∧ (u.tile n).fwaBank o.bank = {} ∧ ∀ j, j ≠ o.bank → (u.tile n).fwaBank j = t.fwaBank j := by
  obtain ⟨⟨-, hkb⟩, hks⟩ := keepForCompare_forward t o.bank
  obtain ⟨⟨-, heb⟩, hes⟩ := slotEnd_forward ((t.keepForCompare o.bank).setFwaBank o.bank {}) o
  have hstate : (((t.keepForCompare o.bank).setFwaBank o.bank {}).slotEnd o).seqState ≠ .idle := by
    rw [hes]
    exact hks.trans_ne hidle
  have htile : v.tile n = { ((t.keepForCompare o.bank).setFwaBank o.bank {}).slotEnd o with fwa := rest } := by
    rw [hv]
    exact State.tile_setTile _ _ _ fun h => hstate (congrArg Tile.seqState h)
  have hwait : v.endFwaWait n o.bank = v := endFwaWait_of_none (takeFirst_eq_none fun x hx => by
    rw [htile] at hx
    by_cases hk : x.kind = .fmm <;> by_cases hq : bits x.word 0 2 = o.bank <;> simp [hk, hq, hnone x hx])
  have hbanks : (v.tile n).fwaBanks = Tbl.put {} t.fwaBanks o.bank {} := by
    rw [htile]
    exact heb.trans (by rw [Tile.setFwaBank, hkb])
  rw [hwait] at hu
  obtain ⟨hf, hb⟩ := nonFiniteAt_forward (s := v) (n := n) (by rw [htile]; exact hstate) o bad
  rw [hu]
  refine ⟨hf.trans (by rw [htile]), ?_, fun j hj => ?_⟩
  · rw [Tile.fwaBank, hb, hbanks, Tbl.get_put_same _ _ _ _ hsort]
  · rw [Tile.fwaBank, hb, hbanks, Tbl.get_put_other _ _ _ _ _ hsort hj, Tile.fwaBank]

/-! ### The statement -/

/-- Settles O19: a drain to the tile store writes its rows 24 aclk after its start; one to the Hame hands over its values and
ends with the step of the Hame. -/
theorem forwardDrains : Obligations.ForwardDrains := by
  refine ⟨fun s n o rest hp hw => ?_, fun s n o rest hp hw => ?_⟩
  · intro t q waiting going start
    have hstart : exec (.fwaDrainStart n) s = .next (s.startFwaDrain n) := exec_running hp
    have hend : exec (.fwaDrainComplete n) s = .next (s.completeFwaDrain n) := exec_running hp
    refine ⟨fun ht hm hb => ?_, fun k ht hk ho hc hr => ?_⟩
    · rw [hstart, startFwaDrain_of_free (t := t) rfl ht hm hb (by rw [bit, hw, Bool.false_and, Bool.false_and]), bit, hw]
      rfl
    · intro u b code rows held v
      have hdone : s.completeFwaDrain n = (v.endFwaWait n o.bank).nonFiniteAt n o
          (rows.zipIdx.findSome? fun r => (r.1.findIdx? bfNonFinite).map fun c => r.2 * (32 * 2 ^ bits b.tag 60 2) + c) :=
        completeFwaDrain_toTile (t := t) rfl ht hk hw ho hc hr
      clear_value v
      intro v'
      rw [hend, hdone, endFwaWait_eq]
      rfl
  · intro t q b waiting going start
    have hstart : exec (.fwaDrainStart n) s = .next (s.startFwaDrain n) := exec_running hp
    have hend : exec (.fwaDrainComplete n) s = .next (s.completeFwaDrain n) := exec_running hp
    refine ⟨fun ht hm hrung hb => ?_, fun k h x ht hk hx hs => ?_⟩
    · have hrep : decide (bits (t.fwaBank o.bank).tag 58 2 = 2) = false := decide_eq_false hrung
      have hvalues : t.hameValues o.bank = (t.fwaBank o.bank).fwaFp32 := by
        simp only [Tile.hameValues, Tile.repeated, hrep, Bool.false_and, Bool.false_eq_true, if_false]
      have hmask : ~~~maskOf 8 8 = 0xFFFFFFFFFFFF00FF := by decide
      rw [hstart, startFwaDrain_of_free (t := t) rfl ht hm hb (by rw [hrep, Bool.and_false, Bool.false_and]), bit, hw, drainStep, hvalues,
        hmask, if_pos rfl, fwaFp32_eq]
      rfl
    · obtain ⟨bad, hdone⟩ := completeFwaDrain_toHame (t := t) rfl ht hk hw hx hs
      obtain ⟨htime, hmem, hhbm⟩ := ((nonFiniteAt_keeps _ n o bad).trans (endFwaWait_keeps _ n o.bank)).trans
        (setTile_keeps (s.advanceTo (h + 17)) n { ((t.keepForCompare o.bank).setFwaBank o.bank {}).slotEnd o with fwa := rest })
      refine ⟨s.completeFwaDrain n, hend, ?_, ?_, ?_, fun hidle hsort hnone => completeFwaDrain_banks hidle hsort hnone rfl hdone⟩
      · rw [hdone, State.now, htime, State.now]
      · rw [hdone, hmem, State.advanceTo_mem]
      · rw [hdone, hhbm, State.advanceTo_hbm]

end Sys2Proof.Laws
end

section
/-!
SUPPORT. HQ, HX, HW and HT issue, and conversions start and end (R88, R110, R165, R172, R174, R272, R275, R281, R283).
-/

namespace Sys2Proof.Laws

open Sys2Proof.Machine Sys2Proof.Safety

/-! ### Conversions issue -/

/-- What a conversion instruction answers before it is accepted, and the format it works in. -/
abbrev ConvCheck := State → Nat → BitVec 256 → BitVec 256 → Option (Nat × Nat)
abbrev ConvFormat := State → Nat → BitVec 256 → BitVec 256 → Nat

theorem hameReady_of_room (s : State) (n unit : Nat) (w : BitVec 64) (h : (s.tile n).hame.length < 4 ∧ unit = 0) :
    hameReady s (s.tile n) w = some unit := by
  rw [hameReady, if_pos h.1, h.2]

/-- The operation that a conversion leaves in the Hame. -/
def conversionOp (k : OpKind) (u : State) (t : Tile) (w : BitVec 64) (f : Nat) : UnitOp :=
  { kind := k, pc := t.pc, word := w, d := t.t (fD w), a := t.t (fA w), x := BitVec.ofNat 32 f, issued := u.now }

theorem convBody_of_good {k : OpKind} {check : ConvCheck} {fmt : ConvFormat} {n : Nat} {u : State} {w : BitVec 64}
    (hc : check u n ((u.tile n).t (fD w)) ((u.tile n).t (fA w)) = none) (hh : (u.tile n).handEmpty w = false) :
    let t := u.tile n
    convBody n k (fun s d a => check s n d a) (fun s d a => fmt s n d a) u t w =
      .retire (u.setTile n { t with hame := t.hame ++ [conversionOp k u t w (fmt u n (t.t (fD w)) (t.t (fA w)))] }) 1 none := by
  intro t
  have hh : t.handEmpty w = false := hh
  simp only [convBody, t, hc, hh, Bool.false_eq_true, if_false]
  rfl

theorem convBody_of_fault {k : OpKind} {check : ConvCheck} {fmt : ConvFormat} {n c d : Nat} {u : State} {w : BitVec 64}
    (h : (match check u n ((u.tile n).t (fD w)) ((u.tile n).t (fA w)) with
      | some f => some f
      | none => if (u.tile n).handEmpty w then some (0x36, 0) else none) = some (c, d)) :
    convBody n k (fun s d a => check s n d a) (fun s d a => fmt s n d a) u (u.tile n) w = .fault c d := by
  unfold convBody
  dsimp only
  split at h
  next f hf => cases h; rw [hf]
  next hf =>
    rw [hf]
    split at h
    next hh => cases h; simp only [hh, if_true]; rfl
    next => cases h

/-- The three clauses of one conversion instruction, from what it runs. -/
theorem conversion_issues {i : Nat → Instr} {op : Nat} {k : OpKind} {check : ConvCheck} {fmt : ConvFormat} (hop : op ≠ 2)
    (hx : ∀ n s, exec (i n) s = .next (s.issueWhen n op hameReady (convBody n k (fun s d a => check s n d a) fun s d a => fmt s n d a))) :
    (Does i op 1 (fun s n _ unit => (s.tile n).hame.length < 4 ∧ unit = 0)
      (fun u n w => check u n ((u.tile n).t (fD w)) ((u.tile n).t (fA w)) = none ∧ (u.tile n).handEmpty w = false)
      fun u n w => u.setTile n { u.tile n with
        hame := (u.tile n).hame ++ [conversionOp k u (u.tile n) w (fmt u n ((u.tile n).t (fD w)) ((u.tile n).t (fA w)))] }) ∧
    (FaultsWith i op (fun s n _ unit => (s.tile n).hame.length < 4 ∧ unit = 0) fun u n w =>
      match check u n ((u.tile n).t (fD w)) ((u.tile n).t (fA w)) with
      | some f => some f
      | none => if (u.tile n).handEmpty w then some (0x36, 0) else none) ∧
    StallsOn i op fun u n _ => 4 ≤ (u.tile n).hame.length := by
  refine ⟨?_, ?_, ?_⟩
  · exact does_of_readyAt (fun _ => hameReady) (fun n => convBody n k (fun s d a => check s n d a) fun s d a => fmt s n d a) hx hop
      hameReady_of_room fun u n w ⟨hc, hh⟩ => convBody_of_good hc hh
  · exact faults_of_readyAt (fun _ => hameReady) (fun n => convBody n k (fun s d a => check s n d a) fun s d a => fmt s n d a) hx hop
      hameReady_of_room fun u n w c d hf => convBody_of_fault hf
  · refine stalls_of_not_ready (fun _ => hameReady) (fun n => convBody n k (fun s d a => check s n d a) fun s d a => fmt s n d a) hx
      fun s n w at_ hb => if_neg (Nat.not_lt.2 ?_)
    rwa [State.tile_advanceTo] at hb

/-- Settles O20: one argument for the four conversions, which differ in their checks and their format. -/
theorem conversionsIssue : Obligations.ConversionsIssue := by
  intro q hq
  simp only [List.mem_cons, List.not_mem_nil, or_false] at hq
  rcases hq with rfl | rfl | rfl | rfl
  · exact conversion_issues (check := State.hqFault) (fmt := fun s n d _ => s.effective (n / 64) d) (by decide) fun _ _ => rfl
  · exact conversion_issues (check := State.hxFault) (fmt := fun s n _ a => s.effective (n / 64) a) (by decide) fun _ _ => rfl
  · exact conversion_issues (check := State.hwFault) (fmt := fun s n _ a => s.effective (n / 64) a) (by decide) fun _ _ => rfl
  · exact conversion_issues (check := State.htFault) (fmt := fun _ _ _ _ => 0) (by decide) fun _ _ => rfl

/-! ### Conversions start -/

/-- The operation waits for a hand-off slot on either side. -/
def handed (o : UnitOp) : Bool := o.kind.hasHand && (o.word.getLsbD 15 || o.word.getLsbD 12)

theorem pv_or_cv (o : UnitOp) : (o.pv || o.cv) = handed o := (Bool.and_or_distrib_left _ _ _).symm

/-- The oldest conversion of a tile starts when its slots allow. -/
theorem startConversion_of_free {s : State} {n : Nat} {t : Tile} {o : UnitOp} {rest : List UnitOp} (hst : s.tile n = t)
    (hq : t.hame = o :: rest) (hn : o.started = none) (hm : t.mayStart o = true) :
    let start := if handed o then s.now else max o.issued t.hameDone
    s.startConversion n = (s.advanceTo start).setTile n { t.slotStart o with
      hame := { o with
        started := some (if handed o then (s.advanceTo start).now else start),
        y := BitVec.ofInt 32 (s.scaleExp (n / 64) o.entryDesc) } :: rest } := by
  intro start
  have htile : (s.advanceTo start).tile n = t := (State.tile_advanceTo s start n).trans hst
  have hscale : (s.advanceTo start).scaleExp (n / 64) o.entryDesc = s.scaleExp (n / 64) o.entryDesc := by
    simp only [State.scaleExp, State.entryOf, entry_advanceTo]
  have hgo : (o.started.isSome || !t.mayStart o) = false := by rw [hn, hm]; rfl
  simp only [State.startConversion, hst, hq, pv_or_cv]
  rw [hgo, if_neg (by decide)]
  show (s.advanceTo start).modTile n _ = _
  rw [State.modTile_of htile, hscale]
  rfl

/-! ### Conversions end -/

theorem checkUnit_of_unmarked {s : State} (h : Unmarked s) (a n : Nat) : s.checkUnit a n = (s, none) := by
  unfold State.checkUnit
  simp only [checkRead_of_unmarked h]
  split <;> rfl

theorem checkUnits_of_unmarked {s : State} (h : Unmarked s) (l : List (Nat × Nat)) : s.checkUnits l = (s, none) := by
  induction l with
  | nil => rfl
  | cons u l ih =>
    rw [State.checkUnits, checkUnit_of_unmarked h]
    exact ih

theorem readPlanes_of_unmarked {s : State} (h : Unmarked s) (l : List PlaneRead) : s.readPlanes l = (s, none) := by
  induction l with
  | nil => rfl
  | cons p l ih =>
    have hp : s.checkSource p.addr p.len = (s, none) := checkUnits_of_unmarked h _
    rw [State.readPlanes, hp]
    exact ih

theorem writeFails_of_clean {s : State} (h : s.eccUnits = []) (p a : Nat) (bs : List Byte) : s.writeFails p a bs = false := by
  unfold State.writeFails
  cases s.place a <;> simp [h]

theorem deliver_of_clean {s : State} (h : s.eccUnits = []) (n : Nat) (o : UnitOp) (p : Nat) (pieces : List (Nat × List Byte)) :
    s.deliver n o p pieces = s.writePieces p pieces := by
  have hnone : (pieces.findIdx? fun c => s.writeFails p c.1 c.2) = none :=
    List.findIdx?_eq_none_iff.2 fun c _ => writeFails_of_clean h p c.1 c.2
  rw [State.deliver, hnone]

/-- A conversion whose source and target hold no error writes its parts, counts, and sets the flag. -/
theorem convert_of_unmarked {s : State} (h : Unmarked s) (n : Nat) (o : UnitOp) :
    let r := s.convResult n o
    let v := s.writePieces (s.tilePaddock n) (unitPieces r.parts)
    s.convert n o = (if o.kind = .ht then v else v.account (n / 64) (dEntry o.entryDesc) r.counts r.trouble).nonFiniteAt n o
      (if o.kind = .fdr then none else r.nonFinite) := by
  intro r v
  have hany : ((unitPieces r.parts).any fun c => s.writeFails (s.tilePaddock n) c.1 c.2) = false :=
    List.any_eq_false.2 fun c _ => by rw [writeFails_of_clean h.2]; decide
  simp only [State.convert, readPlanes_of_unmarked h, deliver_of_clean h.2]
  rw [hany, if_neg (by decide)]

theorem completeConversion_eq {s : State} {n k : Nat} {t : Tile} {o : UnitOp} {rest : List UnitOp} (hst : s.tile n = t)
    (hq : t.hame = o :: rest) (hk : o.started = some k) :
    let u := (s.advanceTo (k + o.convTime)).setTile n { t with hame := rest, hameDone := max t.hameDone (k + o.convTime) }
    s.completeConversion n = (if o.emptyConv then u else u.convert n o).modTile n fun t => t.slotEnd o := by
  intro u
  have htile : (s.advanceTo (k + o.convTime)).tile n = t := (State.tile_advanceTo s _ n).trans hst
  simp only [State.completeConversion, hst, hq, hk]
  rw [State.modTile_of htile]

/-! ### The statement -/

theorem emptyConv_eq_true {o : UnitOp} (h : dExt0 o.a = 0 ∨ dExt1 o.a = 0) : o.emptyConv = true := by
  rcases h with h | h <;> simp [UnitOp.emptyConv, h]

theorem emptyConv_eq_false {o : UnitOp} (h : ¬ (dExt0 o.a = 0 ∨ dExt1 o.a = 0)) : o.emptyConv = false := by
  obtain ⟨h1, h2⟩ := not_or.1 h
  simp [UnitOp.emptyConv, h1, h2]

/-- Settles O21: the oldest conversion starts with the T of its entry, and ends with its parts, counts and flag. -/
theorem conversionsRun : Obligations.ConversionsRun := by
  intro s n env o rest hp hq hidle t hand start entry zero
  have hstart : exec (.conversionStart n) s = .next (s.startConversion n) := exec_running hp
  have hend : exec (.conversionComplete n env) s = .next ((s.takeEnv env).completeConversion n) := exec_running hp
  refine ⟨fun hn hm => ?_, fun k hk herr => ?_⟩
  · intro td begun
    rw [hstart, startConversion_of_free (t := t) rfl hq hn hm]
    rfl
  · intro e time u r p v1 v2 v
    have he : e.tile n = t := takeEnv_tile s env n
    have hun : Unmarked u := unmarked_advanceTo (unmarked_takeEnv herr) _
    have hc := completeConversion_eq (s := e) he hq hk
    refine ⟨fun hz => ?_, fun hz => ?_⟩
    · have htime : time = o.convTime := by
        simp only [time, UnitOp.convTime, emptyConv_eq_true hz, if_true]
        exact if_pos hz
      rw [hend, hc, emptyConv_eq_true hz, ← htime, if_pos rfl]
      rfl
    · have htime : time = o.convTime := by
        simp only [UnitOp.convTime, emptyConv_eq_false hz]
        exact if_neg hz
      rw [hend, hc, emptyConv_eq_false hz, ← htime, if_neg (by decide), convert_of_unmarked hun]
      rfl

end Sys2Proof.Laws
end


section
/-!
SUPPORT. Closes and their verdicts (R65, R113 to R116, R119, R120, R123, R126).
-/

namespace Sys2Proof.Laws

open Sys2Proof.Machine Sys2Proof.Safety

/-! ### What a policy leaves of a judgement -/

/-- The verdict, the repeats and the history, which no policy writes. -/
def KeepsVerdict (x y : MtgEntry) : Prop := y.verdict = x.verdict ∧ y.repeats = x.repeats ∧ y.head = x.head ∧ y.hist = x.hist

theorem KeepsVerdict.refl (x : MtgEntry) : KeepsVerdict x x := ⟨rfl, rfl, rfl, rfl⟩

theorem KeepsVerdict.trans {x y z : MtgEntry} (h : KeepsVerdict x y) (g : KeepsVerdict y z) : KeepsVerdict x z :=
  ⟨g.1.trans h.1, g.2.1.trans h.2.1, g.2.2.1.trans h.2.2.1, g.2.2.2.trans h.2.2.2⟩

theorem ucode_exec_keeps {r r' : UcodeRun} {w : BitVec 32} {k : Nat} (h : r.exec w = some (r', k)) : KeepsVerdict r.entry r'.entry := by
  unfold UcodeRun.exec at h
  dsimp only at h
  repeat' split at h
  all_goals cases h
  all_goals exact ⟨rfl, rfl, rfl, rfl⟩

theorem ucode_run_keeps (l : List (BitVec 32)) (k : Nat) (r : UcodeRun) : KeepsVerdict r.entry (r.run k l).entry := by
  induction l generalizing k r with
  | nil => cases k <;> exact .refl _
  | cons w l ih =>
    cases k with
    | succ k => exact ih k r
    | zero =>
      rw [UcodeRun.run]
      split
      next => exact .refl _
      next r' j h => exact (ucode_exec_keeps h).trans (ih j r')

theorem reference_keeps (e : MtgEntry) (draws : Nat) : KeepsVerdict e (e.reference draws).entry := by
  unfold MtgEntry.reference
  have hrung : KeepsVerdict e (if e.verdict = 0 ∧ 64 ≤ e.cleanRun.toNat ∧ e.rungMin < e.nextRung.toNat then
      { e with nextRung := e.nextRung - 1, cleanRun := 0 } else e) := by
    split_ifs <;> exact ⟨rfl, rfl, rfl, rfl⟩
  refine hrung.trans ?_
  generalize (if e.verdict = 0 ∧ 64 ≤ e.cleanRun.toNat ∧ e.rungMin < e.nextRung.toNat then
      { e with nextRung := e.nextRung - 1, cleanRun := 0 } else e) = x
  dsimp only
  split
  · exact ⟨rfl, rfl, rfl, rfl⟩
  · split <;> exact ⟨rfl, rfl, rfl, rfl⟩

theorem policy_keeps (s : State) (p : Nat) (e : MtgEntry) : KeepsVerdict e (s.policy p e).entry := by
  unfold State.policy
  split_ifs
  · exact ucode_run_keeps _ 0 { entry := e, draws := s.draws }
  · exact reference_keeps e s.draws

/-! ### What a judgement adds to its verdict -/

/-- The entry with the maximum of its window in the history, when it converted an element. -/
def historyEntry (e : MtgEntry) : MtgEntry :=
  if e.converted then { e with head := e.head + 1, hist := Tbl.put 0 e.hist ((e.head.toNat + 1) % 16) e.lastAmax } else e

/-- The entry as its window is judged: nothing is decided yet. -/
def windowEntry (e : MtgEntry) : MtgEntry :=
  { historyEntry e with nextRung := (historyEntry e).rung, verdict := 0, raiseFlags := (historyEntry e).raiseLeft }

/-- The judgement `k` has the verdict of `j`, and of the three events of a verdict those of `j`. -/
structure HasVerdictOf (j k : Judged) : Prop where
  widened : k.widened = j.widened
  replayed : k.replayed = j.replayed
  verdict : k.entry.verdict = j.entry.verdict
  head : k.entry.head = j.entry.head
  hist : k.entry.hist = j.entry.hist
  repeats : k.entry.repeats = if j.entry.verdict = 0 then 0 else j.entry.repeats
  events : ∀ c ∈ [evtNumFlag, evtNumWiden, evtNumReplay], c ∈ k.events ↔ c ∈ j.events

/-- What follows the policy in a judgement of a FWD or KEPT window. -/
def settleRuns (x : MtgEntry) : MtgEntry :=
  let x := if decide (x.verdict &&& vFlag ≠ 0) && !x.wroteTrouble && decide (x.rung ≠ 1) then x.shiftT 1 else x
  let x := if x.lowerT then { x.shiftT (-1) with lowerT := false } else x
  if x.verdict = 0 then { x with cleanRun := satAdd x.cleanRun 1, repeats := 0 } else { x with cleanRun := 0 }

theorem settleRuns_fields (x : MtgEntry) : (settleRuns x).verdict = x.verdict ∧ (settleRuns x).head = x.head ∧
    (settleRuns x).hist = x.hist ∧ (settleRuns x).repeats = if x.verdict = 0 then 0 else x.repeats := by
  have key (y : MtgEntry) (hy : KeepsVerdict x y) :
      (if y.verdict = 0 then { y with cleanRun := satAdd y.cleanRun 1, repeats := 0 } else { y with cleanRun := 0 } : MtgEntry).verdict = x.verdict ∧
      (if y.verdict = 0 then { y with cleanRun := satAdd y.cleanRun 1, repeats := 0 } else { y with cleanRun := 0 } : MtgEntry).head = x.head ∧
      (if y.verdict = 0 then { y with cleanRun := satAdd y.cleanRun 1, repeats := 0 } else { y with cleanRun := 0 } : MtgEntry).hist = x.hist ∧
      (if y.verdict = 0 then { y with cleanRun := satAdd y.cleanRun 1, repeats := 0 } else { y with cleanRun := 0 } : MtgEntry).repeats =
        if x.verdict = 0 then 0 else x.repeats := by
    obtain ⟨h1, h2, h3, h4⟩ := hy
    rw [← h1, ← h2, ← h3, ← h4]
    split_ifs <;> exact ⟨rfl, rfl, rfl, rfl⟩
  refine key _ ?_
  split_ifs <;> exact .refl _

/-- The judgement of a FWD or KEPT window after steps 3 to 5 of R115. -/
def settleVerdict (s : State) (p : Nat) (e : MtgEntry) (j : Judged) : Judged :=
  let r := s.policy p j.entry
  let x := settleRuns r.entry
  { j with
    entry := x, draws := r.draws,
    events := (j.events ++ (if decide (s.field (.mtgThresh p) 24 16 ≤ e.satb.toNat) then [evtNumSat] else [])) ++
      (if r.clamped then [evtMtgScaleClamp] else []) ++
      (if x.disagrees (s.field (.mtgWatch p) 8 8) (s.field (.mtgWatch p) 0 8) then [evtNumAgree] else []) }

/-- Steps 3 to 5 of R115 of the judgement of a FWD or KEPT window. -/
def forwardVerdict (s : State) (p : Nat) (e : MtgEntry) : Judged :=
  ({ entry := windowEntry e, draws := s.draws } : Judged).trouble (s.field (.mtgThresh p) 24 16) (s.field (.mtgThresh p) 8 16)
    (decide ((s.pdk p).replayCount.toNat < s.field (.mtgPolicy p) 37 4))

theorem judge_eq (s : State) (p : Nat) {phase : Phase} {e : MtgEntry} (hph : phase = .gen ∨ phase = .fwd) (hk : e.kind = 1 ∨ e.kind = 2) :
    s.judge p phase e = settleVerdict s p (historyEntry e) (forwardVerdict s p e) := by
  have hgrad : decide (e.kind = 3) = false := by rcases hk with hk | hk <;> rw [hk] <;> rfl
  have hforward : (!false && decide (phase ≠ .gen) && decide (phase ≠ .fwd)) = false := by rcases hph with rfl | rfl <;> rfl
  unfold State.judge
  rw [hgrad]
  exact (if_neg (by rw [hforward]; decide)).trans rfl

theorem settleVerdict_has (s : State) (p : Nat) (e : MtgEntry) (j : Judged) : HasVerdictOf j (settleVerdict s p e j) := by
  obtain ⟨p1, p2, p3, p4⟩ := policy_keeps s p j.entry
  obtain ⟨f1, f2, f3, f4⟩ := settleRuns_fields (s.policy p j.entry).entry
  refine ⟨rfl, rfl, f1.trans p1, f2.trans p3, f3.trans p4, f4.trans (by rw [p1, p2]), fun c hc => ?_⟩
  have hsome (b : Bool) {x : EventCode} (hx : c ≠ x) : c ∉ (if b then [x] else []) := by cases b <;> simp [hx]
  have hout : c ≠ evtNumSat ∧ c ≠ evtMtgScaleClamp ∧ c ≠ evtNumAgree := by
    simp only [List.mem_cons, List.not_mem_nil, or_false] at hc
    rcases hc with rfl | rfl | rfl <;> decide
  simp only [settleVerdict, List.mem_append, hsome _ hout.1, hsome _ hout.2.1, hsome _ hout.2.2, or_false]

/-! ### Steps 3 to 5 of R115 -/

/-- What a window's entry keeps of the entry, as far as its trouble goes. -/
theorem windowEntry_fields (e : MtgEntry) : (windowEntry e).kind = e.kind ∧ (windowEntry e).repeatAllow = e.repeatAllow ∧
    (windowEntry e).rung = e.rung ∧ (windowEntry e).rungMax = e.rungMax ∧ (windowEntry e).repeats = e.repeats ∧
    (windowEntry e).lastAmax = e.lastAmax ∧ (windowEntry e).verdict = 0 := by
  unfold windowEntry historyEntry
  split_ifs <;> exact ⟨rfl, rfl, rfl, rfl, rfl, rfl, rfl⟩

theorem windowEntry_overflow (e : MtgEntry) (z : Nat) : (windowEntry e).overflow z = e.overflow z := by
  unfold windowEntry historyEntry
  split_ifs <;> rfl

theorem windowEntry_vlp (e : MtgEntry) (b z : Nat) : (windowEntry e).vlp b z = e.vlp b z := by
  unfold windowEntry historyEntry
  split_ifs <;> rfl

theorem windowEntry_head (e : MtgEntry) : (windowEntry e).head = if e.converted then e.head + 1 else e.head := by
  unfold windowEntry historyEntry
  split_ifs <;> rfl

/-- A repeat of the pass on a wider rung is permitted (R115 step 3). -/
def Permitted (e : MtgEntry) : Prop := (e.repeatAllow && decide (e.rung.toNat < e.rungMax) && decide (e.repeats.toNat < 2)) = true

theorem permitted_windowEntry (e : MtgEntry) : Permitted (windowEntry e) ↔ Permitted e := by
  obtain ⟨-, h2, h3, h4, h5, -⟩ := windowEntry_fields e
  rw [Permitted, h2, h3, h4, h5, Permitted]

/-- The judgement as a window opens it. -/
def opened (x : MtgEntry) (draws : Nat) : Judged := { entry := x, draws := draws }

theorem trouble_permitted {x : MtgEntry} {d b z : Nat} {room : Bool} (hv : x.verdict = 0) (ho : x.overflow z = true) (hp : Permitted x) :
    let j := (opened x d).trouble b z room
    j.entry.verdict = 1 ∧ j.entry.repeats = x.repeats + 1 ∧ j.events = [evtNumWiden] ∧ j.replayed = false := by
  have hover : (opened x d).overflowed = { opened x d with
      entry := { x with nextRung := x.rung + 1, repeats := x.repeats + 1, verdict := x.verdict ||| vRepeat },
      events := [evtNumWiden], widened := true } := if_pos hp
  simp only [Judged.trouble, show (opened x d).entry = x from rfl, ho, if_true, hover, Bool.not_true, Bool.and_false, Bool.false_eq_true, if_false, hv]
  exact ⟨rfl, trivial, trivial, rfl⟩

/-- The fall-back of a window with overflow (R115 step 4). -/
theorem overflowed_flagged {x : MtgEntry} {d : Nat} (hp : ¬ Permitted x) : (opened x d).overflowed = { opened x d with
      entry := { x with verdict := x.verdict ||| vFlag, raiseFlags := x.raiseFlags || x.wroteTrouble },
      events := [evtNumFlag] } := if_neg hp

theorem trouble_flagged {x : MtgEntry} {d b z : Nat} {room : Bool} (hv : x.verdict = 0) (ho : x.overflow z = true) (hp : ¬ Permitted x) :
    let j := (opened x d).trouble b z room
    j.entry.verdict.getLsbD 1 = true ∧ evtNumFlag ∈ j.events ∧ j.widened = false := by
  simp only [Judged.trouble, show (opened x d).entry = x from rfl, ho, if_true, overflowed_flagged hp, hv]
  cases x.vlp b z <;> cases room <;> simp [opened, vFlag, vReplay]

theorem trouble_replayed {x : MtgEntry} {d b z : Nat} (hv : x.verdict = 0) (hl : x.vlp b z = true) (hp : ¬ (x.overflow z = true ∧ Permitted x)) :
    let j := (opened x d).trouble b z true
    j.entry.verdict.getLsbD 2 = true ∧ evtNumReplay ∈ j.events ∧ j.replayed = true ∧
      j.entry.hist = Tbl.ofList 0 0 (List.replicate 16 x.lastAmax) := by
  cases ho : x.overflow z with
  | false => simp [Judged.trouble, opened, ho, hl, hv, vReplay]
  | true =>
    simp only [Judged.trouble, show (opened x d).entry = x from rfl, ho, if_true, overflowed_flagged fun h => hp ⟨ho, h⟩, hv, hl]
    simp [opened, vFlag, vReplay]

theorem trouble_none {x : MtgEntry} {d b z : Nat} {room : Bool} (ho : x.overflow z = false) (hl : x.vlp b z = false) :
    (opened x d).trouble b z room = opened x d := by
  simp only [Judged.trouble, show (opened x d).entry = x from rfl, ho, hl, Bool.false_and, Bool.false_eq_true, if_false]

theorem trouble_head (x : MtgEntry) (d b z : Nat) (room : Bool) : ((opened x d).trouble b z room).entry.head = x.head := by
  have hover (j : Judged) : j.overflowed.entry.head = j.entry.head := by
    unfold Judged.overflowed
    dsimp only
    split_ifs <;> rfl
  have hif (c : Bool) (j : Judged) : (if c then j.overflowed else j).entry.head = j.entry.head := by
    cases c
    · rfl
    · exact hover j
  unfold Judged.trouble
  refine Eq.trans ?_ (hif (x.overflow z) (opened x d))
  dsimp only [opened]
  generalize (if x.overflow z = true then ({ entry := x, draws := d } : Judged).overflowed else { entry := x, draws := d }) = j
  split
  · split
    · rfl
    · exact hif _ j
  · rfl

theorem get_replicate {n i : Nat} (k : Nat) (a : BitVec 16) (hk : k ≤ i) (hi : i < k + n) :
    Tbl.get 0 (Tbl.ofList 0 k (List.replicate n a)) i = a := by
  induction n generalizing k with
  | zero => omega
  | succ n ih =>
    rw [List.replicate_succ, Tbl.ofList]
    by_cases ha : a = 0
    · rw [if_pos ha]
      by_cases hik : i = k
      · subst ha
        clear ih
        have hnil (m k : Nat) : Tbl.ofList (0 : BitVec 16) k (List.replicate m 0) = [] := by
          induction m generalizing k with
          | zero => rfl
          | succ m ih => rw [List.replicate_succ, Tbl.ofList, if_pos rfl, ih]
        rw [hnil]
        rfl
      · exact ih (k + 1) (by omega) (by omega)
    · rw [if_neg ha, Tbl.get]
      by_cases hik : k = i
      · rw [if_pos hik]
      · rw [if_neg hik, if_neg (by omega)]
        exact ih (k + 1) (by omega) (by omega)

/-! ### The statement -/

theorem vlp_iff (e : MtgEntry) (b z : Nat) : e.vlp b z = true ↔ b ≤ e.satb.toNat ∨ z ≤ min e.zeroed 0xFFFF := by
  rw [MtgEntry.vlp, Bool.or_eq_true, decide_eq_true_eq, decide_eq_true_eq]

theorem permitted_iff (e : MtgEntry) : Permitted e ↔ bit e.ctl 21 = true ∧ e.rung.toNat < bits e.ctl 24 2 ∧ e.repeats.toNat < 2 := by
  rw [Permitted, Bool.and_eq_true, Bool.and_eq_true, decide_eq_true_eq, decide_eq_true_eq, and_assoc]
  rfl

/-- A close judged outside GEN and FWD says nothing, for an entry of no gradient. -/
theorem judge_other (s : State) (p : Nat) {phase : Phase} {e : MtgEntry} (hk : e.kind ≠ 3) (h1 : phase ≠ .gen) (h2 : phase ≠ .fwd) :
    s.judge p phase e = { entry := { e with verdict := 0, lowerT := false }, draws := s.draws } := by
  unfold State.judge
  exact if_pos (by simp [hk, h1, h2])

/-- Settles O24: a close applies its judgement, a PART window one judgement for all, and a forward verdict follows R115. -/
theorem martingaleVerdicts : Obligations.MartingaleVerdicts := by
  refine ⟨fun s m e hp => ?_, fun s p e c rest hp hc => ?_, fun s p phase e hph hk => ?_⟩
  · intro x p
    have hx : exec (.mtgCloseEvaluation m e) s = .next (s.evaluateClose m e) := exec_running hp
    refine ⟨fun h => ?_, fun phase k hev hpart => ?_⟩
    · rw [hx, State.evaluateClose]
      rcases h with h | h
      · rw [show (s.entry m e).evaluating = none from h]
      · dsimp only
        rw [show (s.entry m e).inPart = true from h]
        cases (s.entry m e).evaluating <;> rfl
    · have hdone : exec (.mtgCloseEvaluation m e) s =
          .next ((s.modEntry m e fun _ => s.keepWritten m e x (s.judge p phase { x with evaluating := none }).entry).applyJudged m e p
            (s.judge p phase { x with evaluating := none })) := by
        rw [hx, State.evaluateClose]
        dsimp only
        rw [show (s.entry m e).evaluating = some (phase, k) from hev]
        dsimp only
        rw [show (s.entry m e).inPart = false from hpart]
        rfl
      refine ⟨fun h3 hg hf => ?_, hdone⟩
      rw [hdone, judge_other s p (e := { x with evaluating := none }) h3 hg hf]
      rfl
  · have hx : exec (.partVerdict p e) s = .next (s.judgePart p e) := exec_running hp
    refine ⟨fun h => ?_, fun h => ?_⟩
    · have hany : ((c :: rest).any fun d => d.2.2.isOpen) = false := List.any_eq_false.2 fun d hd => by rw [h d hd]; decide
      intro lead phase j
      have hphase : (lead.evaluating.map Prod.fst).getD .idle = phase := by
        simp only [phase]
        cases lead.evaluating <;> rfl
      rw [hx, State.judgePart, hc]
      dsimp only
      rw [hany, if_neg (by decide)]
      simp only [j, ← hphase]
      rfl
    · obtain ⟨d, hd, ho⟩ := h
      have hany : ((c :: rest).any fun d => d.2.2.isOpen) = true := List.any_eq_true.2 ⟨d, hd, ho⟩
      rw [hx, State.judgePart, hc]
      dsimp only
      rw [hany, if_pos rfl]
  · intro j zerobLim satbLim exceeded vlp permitted room
    have hj : HasVerdictOf (forwardVerdict s p e) j := by
      show HasVerdictOf (forwardVerdict s p e) (s.judge p phase e)
      rw [judge_eq s p hph hk]
      exact settleVerdict_has s p _ _
    have hfv : forwardVerdict s p e = (opened (windowEntry e) s.draws).trouble satbLim zerobLim (decide room) := rfl
    obtain ⟨-, -, -, -, hrep, hamax, hv⟩ := windowEntry_fields e
    have hover : exceeded → (windowEntry e).overflow zerobLim = true := (windowEntry_overflow e zerobLim).trans
    have hperm : Permitted (windowEntry e) ↔ permitted := (permitted_windowEntry e).trans (permitted_iff e)
    have hvlp : (windowEntry e).vlp satbLim zerobLim = true ↔ vlp := by rw [windowEntry_vlp]; exact vlp_iff e satbLim zerobLim
    have hevents := hj.events
    simp only [List.mem_cons, List.not_mem_nil, or_false, forall_eq_or_imp, forall_eq] at hevents
    obtain ⟨hflag, hwiden, hreplay⟩ := hevents
    refine ⟨?_, fun ho hp => ?_, fun ho hp => ?_, fun hl hr hp => ?_, fun ho hl => ?_⟩
    · rw [hj.head, hfv, trouble_head, windowEntry_head]
    · obtain ⟨h1, h2, h3, h4⟩ := trouble_permitted (d := s.draws) (b := satbLim) (room := decide room) hv (hover ho) (hperm.2 hp)
      rw [← hfv] at h1 h2 h3 h4
      rw [hj.verdict, hj.repeats, hwiden, hreplay, hj.replayed, h1, h2, h3, h4, hrep]
      exact ⟨rfl, rfl, List.mem_singleton.2 rfl, by decide, rfl⟩
    · obtain ⟨h1, h2, h3⟩ := trouble_flagged (d := s.draws) (b := satbLim) (room := decide room) hv (hover ho) (mt hperm.1 hp)
      rw [← hfv] at h1 h2 h3
      rw [hj.verdict, hflag, hj.widened]
      exact ⟨h1, h2, h3⟩
    · have hroom : decide room = true := decide_eq_true hr
      rw [hroom] at hfv
      obtain ⟨h1, h2, h3, h4⟩ := trouble_replayed (d := s.draws) hv (hvlp.2 hl) fun h => hp ⟨(windowEntry_overflow e zerobLim).symm.trans h.1, hperm.1 h.2⟩
      rw [← hfv] at h1 h2 h3 h4
      rw [hj.verdict, hreplay, hj.replayed, hj.hist, h4, hamax]
      exact ⟨h1, h2, h3, fun i hi => get_replicate 0 _ (Nat.zero_le i) (by omega)⟩
    · have h := trouble_none (d := s.draws) (room := decide room) (Bool.eq_false_iff.2 fun h => ho ((windowEntry_overflow e zerobLim).symm.trans h))
        (Bool.eq_false_iff.2 fun h => hl (hvlp.1 h))
      rw [← hfv] at h
      rw [hj.verdict, hj.repeats, hj.widened, hj.replayed, hflag, hwiden, hreplay, h]
      simp [opened, hv]

end Sys2Proof.Laws
end

section
/-!
SUPPORT. The agreement watch (R127 to R130, R169).
-/

namespace Sys2Proof.Laws

open Sys2Proof.Machine Sys2Proof.Safety

/-- The bank that a repeat takes, with its tag. -/
def repeatBank (b : Bank) (o : UnitOp) (tag : BitVec 64) : Bank :=
  { b with tag := setBits tag 62 2 1, activation := bits o.tag 32 8, always := decide (bits o.tag 58 2 = 2) }

/-- A repeat whose bank holds repeats under the same tag, or none, starts. -/
theorem issueRepeat_of_free {s : State} {n : Nat} {t : Tile} {o : UnitOp} (hst : s.tile n = t) (hu : Unmarked s)
    (hph : s.tilePhase n = .gen ∨ s.tilePhase n = .fwd) (ho : t.nextRepeat = some o) :
    let tag := s.bwaTagOf (n / 64) (bits o.word 2 2) true o.srcA o.srcB
    (bits (t.bwaBank o.bank).tag 62 2 ≠ 1 ∨ setBits (t.bwaBank o.bank).tag 62 2 0 = tag) →
    s.issueRepeat n = s.setTile n { t.setBwaBank o.bank (repeatBank (t.bwaBank o.bank) o tag) with
      bwa := updateFirst (fun x => decide (x = o)) (fun x => { x with started := some (max s.now t.bwaFree) }) t.bwa } := by
  intro tag hbank
  have hphase : ¬ (s.tilePhase n ≠ .gen ∧ s.tilePhase n ≠ .fwd) := fun h => hph.elim h.1 h.2
  have hsame : ¬ (tagState (t.bwaBank o.bank).tag = 1 ∧ setTagState (t.bwaBank o.bank).tag 0 ≠ tag) := fun h => hbank.elim (· h.1) h.2
  simp only [State.issueRepeat, if_neg hphase, hst, ho, readRanges_of_unmarked hu]
  rw [if_neg hsame, if_neg (by decide), State.modTile_of hst]
  rfl

theorem issueRepeat_of_phase {s : State} {n : Nat} (hg : s.tilePhase n ≠ .gen) (hf : s.tilePhase n ≠ .fwd) : s.issueRepeat n = s :=
  if_pos ⟨hg, hf⟩

/-- The drained results of a bank with those of its repeats, row-major. -/
def watchedPairs (b : Bank) : List (BitVec 16 × BitVec 16) :=
  (List.range b.extM).flatMap fun i => (List.range b.extN).map fun j => (Tbl.get 0 b.watch (i * b.extN + j), b.repeatBf16 i j)

theorem cells_map_eq_watchedPairs (b : Bank) :
    (cells b.extM b.extN).map (fun c => (Tbl.get 0 b.watch (c.1 * b.extN + c.2), b.repeatBf16 c.1 c.2)) = watchedPairs b := by
  simp only [cells, watchedPairs, List.map_flatMap, List.map_map]
  rfl

theorem compareRepeats_eq {s : State} {n q : Nat} {t : Tile} (hst : s.tile n = t) (hq : (List.range 4).find? t.comparable = some q)
    (hp : (t.bwaBank q).products ≠ 0) :
    let b := t.bwaBank q
    let r := ((s.setTile n (t.setBwaBank q {})).advanceTo (t.bwaDone + 24)).errorsOf (watchedPairs b)
    s.compareRepeats n = if (r.1.entry (n / 64) b.activation).isOpen
      then r.1.modEntry (n / 64) b.activation fun e => e.compare b.products (r.1.field (.mtgWatch (r.1.tilePaddock n)) 16 8) r.2
      else r.1 := by
  intro b r
  simp only [State.compareRepeats, hst, hq]
  rw [if_neg hp, State.modTile_of hst, cells_map_eq_watchedPairs]

/-- Settles O25: the next repeat starts in its bank, and a bank is compared with what its drain wrote. -/
theorem agreementWatch : Obligations.AgreementWatch := by
  intro s n hp hidle t m
  have hrepeat : exec (.agreementRepeat n) s = .next (s.issueRepeat n) := exec_running hp
  have hcompare : exec (.agreementCompare n) s = .next (s.compareRepeats n) := exec_running hp
  refine ⟨fun o hph ho hw hu => ?_, fun hg hf => ?_, fun q hq hprod => ?_⟩
  · intro q tag b hbank
    rw [hrepeat, issueRepeat_of_free (t := t) rfl ⟨hw, hu⟩ hph ho hbank]
    rfl
  · rw [hrepeat, issueRepeat_of_phase hg hf]
  · have hdone := compareRepeats_eq (t := t) rfl hq hprod
    refine ⟨fun hopen => ?_, fun hclosed => ?_⟩
    · rw [hcompare, hdone]
      exact congrArg Host.Outcome.next (if_pos hopen)
    · rw [hcompare, hdone]
      exact congrArg Host.Outcome.next (if_neg (Bool.eq_false_iff.1 hclosed))

end Sys2Proof.Laws
end


section
/-!
SUPPORT. CTAB, CISS, CDR, CKCLR, CKRD and CLEN issue (R186, R190, R193, R198 to R200, R203, R228, R272, R275, R286 to R288).
-/

namespace Sys2Proof.Laws

open Sys2Proof.Machine Sys2Proof.Safety

/-! ### The phase, and what is ready -/

theorem chaffPhase_of {p : Phase} (h : p = .gen ∨ p = .fwd) : chaffPhase p = true := by
  rcases h with rfl | rfl <;> rfl

theorem chaffPhase_eq_false {p : Phase} (h : ¬ (p = .gen ∨ p = .fwd)) : chaffPhase p = false := by
  obtain ⟨h1, h2⟩ := not_or.1 h
  rw [chaffPhase, decide_eq_false h1, decide_eq_false h2, Bool.false_or]

theorem issues_any_eq_false {t : Tile} {p : UnitOp → Bool} (h : ∀ o ∈ t.chaff, o.kind = .ciss → p o = false) : t.issues.any p = false :=
  List.any_eq_false.2 fun o ho => by
    obtain ⟨hm, hk⟩ := List.mem_filter.1 ho
    rw [h o hm (of_decide_eq_true hk)]
    decide

theorem ctabReady_of_free (s : State) (n unit : Nat) (w : BitVec 64)
    (h : (∀ o ∈ (s.tile n).chaff, o.kind = .ciss → bits o.word 6 2 ≠ bits w 0 2 ∧ bits o.word 8 2 ≠ bits w 0 2) ∧ unit = 0) :
    ctabReady s (s.tile n) w = some unit := by
  rw [ctabReady, issues_any_eq_false fun o ho hk => ?_, h.2]
  · rfl
  · obtain ⟨h1, h2⟩ := h.1 o ho hk
    rw [show decide (cTableA o.word = bits w 0 2) = false from decide_eq_false h1, show decide (cTableB o.word = bits w 0 2) = false from decide_eq_false h2]
    rfl

theorem clenReady_of_free (s : State) (n unit : Nat) (w : BitVec 64)
    (h : (∀ o ∈ (s.tile n).chaff, o.kind = .ciss → bits o.word 10 3 ≠ bits w 0 3) ∧ unit = 0) : clenReady s (s.tile n) w = some unit := by
  have hany : ((s.tile n).issues.any fun o => decide (cRecord o.word = bits w 0 3)) = false :=
    issues_any_eq_false fun o ho hk => decide_eq_false (h.1 o ho hk)
  rw [clenReady, hany, h.2]
  rfl

theorem topkReady_of_free (s : State) (n unit : Nat) (w : BitVec 64)
    (h : (∀ o ∈ (s.tile n).chaff, ¬ (o.kind = .cdr ∧ o.word.getLsbD 2 = true)) ∧ unit = 0) : topkReady s (s.tile n) w = some unit := by
  have hany : ((s.tile n).chaff.any fun o => decide (o.kind = .cdr) && bit o.word 2) = false := List.any_eq_false.2 fun o ho hb => by
    obtain ⟨hk, hw⟩ := Bool.and_eq_true_iff.1 hb
    exact h.1 o ho ⟨of_decide_eq_true hk, hw⟩
  rw [topkReady, hany, h.2]
  rfl

theorem cdrReady_of_free (s : State) (n unit : Nat) (w : BitVec 64) (h : (s.tile n).drainWaits = false ∧ unit = 0) :
    cdrReady s (s.tile n) w = some unit := by
  rw [cdrReady, h.1, h.2]
  rfl

theorem exec_ctab (n : Nat) (s : State) : exec (.ctab n) s = .next (s.issueWhen n 0x50 ctabReady (ctabBody n)) := rfl

theorem exec_ciss (n : Nat) (s : State) : exec (.ciss n) s = .next (s.issueWhen n 0x51 cissReady (cissBody n)) := rfl

theorem exec_cdr (n : Nat) (s : State) : exec (.cdr n) s = .next (s.issueWhen n 0x52 cdrReady (cdrBody n)) := rfl

theorem exec_ckclr (n : Nat) (s : State) : exec (.ckclr n) s = .next (s.issueWhen n 0x53 topkReady (ckclrBody n)) := rfl

theorem exec_ckrd (n : Nat) (s : State) : exec (.ckrd n) s = .next (s.issueWhen n 0x54 topkReady (ckrdBody n)) := rfl

theorem exec_clen (n : Nat) (s : State) : exec (.clen n) s = .next (s.issueWhen n 0x55 clenReady (clenBody n)) := rfl

/-! ### Table builds -/

/-- The low half of a register as a word of 32 bits. -/
theorem ofNat_low_half (x : BitVec 32) : BitVec.ofNat 32 (bits x 0 16) = (x.extractLsb' 0 16).setWidth 32 := by
  rw [← BitVec.toNat_inj]
  simp [bits, BitVec.extractLsb'_toNat]

/-- What a build is checked for (R190, R286). -/
def CtabGood (u : State) (n : Nat) (w : BitVec 64) : Prop :=
  if w.getLsbD 4 then
    let m := ((u.tile n).s (fB w)).extractLsb' 0 16
    bfNonFinite m = false ∧ m.getLsbD 15 = false ∧ m ≠ 0
  else u.descFault (n / 64) ((u.tile n).t (fA w)) (dFormat ((u.tile n).t (fA w))) (fun _ => true) false false = none ∧
    dFormat ((u.tile n).t (fA w)) = (if w.getLsbD 3 then 4 else 3) ∧
    lowestFailing (ownStore n) [(dBase ((u.tile n).t (fA w)), 32 * 2 ^ bits w 5 2)] = none

theorem ctabBody_of_good {u : State} {n : Nat} {w : BitVec 64} (hph : u.tilePhase n = .gen ∨ u.tilePhase n = .fwd) (hg : CtabGood u n w) :
    ctabBody n u (u.tile n) w = .retire (u.setTile n { u.tile n with chaff := (u.tile n).chaff ++
      [{ kind := .ctab, pc := (u.tile n).pc, word := w, a := (u.tile n).t (fA w),
         x := (((u.tile n).s (fB w)).extractLsb' 0 16).setWidth 32, issued := u.now }] }) 1 none := by
  have hm : BitVec.ofNat 16 (bits ((u.tile n).s (fB w)) 0 16) = ((u.tile n).s (fB w)).extractLsb' 0 16 := ofNat_bits _ _ _
  have hx : BitVec.ofNat 32 (((u.tile n).s (fB w)).extractLsb' 0 16).toNat = (((u.tile n).s (fB w)).extractLsb' 0 16).setWidth 32 :=
    BitVec.ofNat_toNat _ _
  unfold CtabGood at hg
  cases hscan : w.getLsbD 4 with
  | true =>
    rw [hscan, if_pos rfl] at hg
    obtain ⟨h1, h2, h3⟩ := hg
    simp only [ctabBody, bit, hscan, hm, hx, chaffPhase_of hph, h1, h2, decide_eq_false h3, Bool.not_true, Bool.false_and, Bool.or_false,
      Bool.and_false, Bool.false_eq_true, if_false, if_true, Option.isSome_none]
    rfl
  | false =>
    rw [hscan, if_neg (by decide)] at hg
    obtain ⟨h1, h2, h3⟩ := hg
    have h2 : dFormat ((u.tile n).t (fA w)) = (if w.getLsbD 3 then fTeff8i else fTeff8) := h2
    have h3 : lowestFailing (ownStore n) [(dBase ((u.tile n).t (fA w)), chaffW (bits w 5 2))] = none := h3
    simp only [ctabBody, bit, hscan, hm, hx, chaffPhase_of hph, h1, h3, Bool.not_true, Bool.false_and, Bool.not_false,
      Bool.and_false, Bool.false_eq_true, if_false, Option.isSome_none]
    rw [if_neg (by simp [h2])]
    rfl

/-! ### Issues -/

/-- The domains of the two operands of an issue differ, and its draw number is beyond those of its bank. -/
def FreshDraw (t : Tile) (w : BitVec 64) : Prop :=
  (bits w 13 4, bits w 17 4).1 ≠ (bits w 13 4, bits w 17 4).2 ∧
    (bits (t.chaffTarget (bits w 0 2)).tag 62 2 = 1 → bits (t.chaffTarget (bits w 0 2)).tag 0 32 < (t.s (fC w)).toNat)

/-- The length record that an issue runs at, as a power of two. -/
def issueLength (t : Tile) (w : BitVec 64) : Nat :=
  if decide (bits (t.chaffTarget (bits w 0 2)).tag 62 2 = 1) then bits (t.chaffTarget (bits w 0 2)).tag 54 4 else bits (t.record (bits w 10 3)) 8 4

/-- The issue as it joins the queue, before its operands are read. -/
def issueOp (u : State) (t : Tile) (w : BitVec 64) : UnitOp :=
  { kind := .ciss, pc := t.pc, word := w, a := t.t (fA w), b := t.t (fB w), x := BitVec.ofNat 32 (issueLength t w),
    y := BitVec.ofNat 32 (t.chaffTarget (bits w 0 2)).extG, z := t.s (fC w), tag := (t.chaffTarget (bits w 0 2)).tag,
    waits := decide (bits (t.chaffTarget (bits w 0 2)).tag 62 2 = 1), issued := u.now }

theorem setChaffTarget_chaffInvalid (t : Tile) (q : Nat) (b : ChaffBank) : (t.setChaffTarget q b).chaffInvalid = t.chaffInvalid := by
  unfold Tile.setChaffTarget
  split_ifs <;> rfl

theorem cissBody_of_good {u : State} {n : Nat} {w : BitVec 64} (hph : u.tilePhase n = .gen ∨ u.tilePhase n = .fwd)
    (hdraft : w.getLsbD 5 = true → u.tilePhase n = .gen) (hf : u.cissFault n w ((u.tile n).t (fA w)) ((u.tile n).t (fB w)) = none)
    (hd : FreshDraw (u.tile n) w) :
    let t := u.tile n
    let old := t.chaffTarget (bits w 0 2)
    let bank := if decide (bits old.tag 62 2 = 1) then old else u.freshChaffBank n w (t.t (fA w)) (t.t (fB w)) (issueLength t w)
    cissBody n u t w = .retire (u.setTile n { t.setChaffTarget (bits w 0 2) (bank.claim w (t.t (fB w)) (t.s (fC w)) false) with
      chaff := t.chaff ++ [{ issueOp u t w with
        unreadable := (u.readRanges (chaffRanges w (t.t (fA w)) (t.t (fB w)))).2, values := u.issueValues n (issueOp u t w) }],
      chaffFree := u.now + max 64 (2 ^ issueLength t w) }) 1 none := by
  intro t old bank
  obtain ⟨hsame, hagain⟩ := hd
  have hsame : decide (cDomainA w = cDomainB w) = false := decide_eq_false hsame
  have hagain : (decide (bits (t.chaffTarget (bits w 0 2)).tag 62 2 = 1) &&
      decide ((t.s (fC w)).toNat ≤ bits (t.chaffTarget (bits w 0 2)).tag 0 32)) = false := by
    by_cases hact : bits (t.chaffTarget (bits w 0 2)).tag 62 2 = 1
    · rw [decide_eq_false (Nat.not_le.2 (hagain hact)), Bool.and_false]
    · rw [decide_eq_false hact, Bool.false_and]
  have hphase : (!chaffPhase (u.tilePhase n) || (bit w 5 && decide (u.tilePhase n ≠ .gen))) = false := by
    rw [chaffPhase_of hph]
    cases hb : w.getLsbD 5 with
    | false => rw [bit, hb]; rfl
    | true => rw [hdraft hb]; exact Bool.and_false _
  have hf : u.cissFault n w (t.t (fA w)) (t.t (fB w)) = none := hf
  unfold cissBody
  simp only [hphase, hf, hsame, show ∀ x, tagState x = bits x 62 2 from fun _ => rfl, show cBank w = bits w 0 2 from rfl, hagain, Bool.or_false,
    Bool.false_eq_true, if_false]
  rw [State.modTile, ← setChaffTarget_chaffInvalid (u.tile n) (bits w 0 2) (bank.claim w (t.t (fB w)) (t.s (fC w)) false)]
  rfl

/-- What an issue brings, in the words of the statement. -/
theorem issueValues_eq (s : State) (n : Nat) (o : UnitOp) : s.issueValues n o =
    Tbl.ofList 0 0 ((s.issueResult n o).sums.map (BitVec.ofInt 32)) ++
      Tbl.ofList 0 512 ((s.issueResult n o).nans.map fun b => if b then (1 : BitVec 32) else 0) ++
      Tbl.ofList 0 1024 ((List.range (min (512 / 2 ^ bits o.word 2 2) (dExt1 o.b))).map fun g =>
        BitVec.ofNat 32 (leNat (Memory.bytes s.mem (dScale o.b + 2 * g) 2))) ++
      Tbl.ofList 0 1536 [BitVec.ofNat 32 (s.issueResult n o).terminated, BitVec.ofNat 32 (s.issueResult n o).clipped] := by
  have hbit : (fun b => BitVec.ofNat 32 (b2n b)) = fun b => if b then (1 : BitVec 32) else 0 := by
    funext b
    cases b <;> rfl
  simp only [State.issueValues, hbit]
  rfl

/-! ### The other instructions -/

@[simp] theorem tiles_writeUnit (s : State) (p u : Nat) (v : BitVec 512) : (s.writeUnit p u v).tiles = s.tiles := by
  unfold State.writeUnit
  split <;> rfl

@[simp] theorem tiles_failUnit (s : State) (u : Nat) (patrol : Bool) : (s.failUnit u patrol).tiles = s.tiles := by
  simp only [State.failUnit, State.raise_tiles, State.noteDevice_tiles]

theorem tiles_writeChunk (s : State) (p a : Nat) (bs : List Byte) (fromHost : Bool) : (s.writeChunk p a bs fromHost).tiles = s.tiles := by
  unfold State.writeChunk
  split
  · split
    · split
      · rw [tiles_writeUnit]
      · split <;> simp [State.correctUnit]
    · rfl
    · rfl
    · rfl
    · split
      · rw [State.writeGroup, State.modSheaf_tiles]
      · rfl
    · rfl
    · rfl
  · rfl

theorem tile_writePieces (s : State) (p : Nat) (pieces : List (Nat × List Byte)) (n : Nat) : (s.writePieces p pieces).tile n = s.tile n := by
  have h : (s.writePieces p pieces).tiles = s.tiles := by
    unfold State.writePieces
    induction pieces generalizing s with
    | nil => rfl
    | cons c l ih => exact (ih _).trans (tiles_writeChunk s p c.1 c.2 false)
  rw [State.tile, h, State.tile]


theorem cdrBody_of_good {u : State} {n : Nat} {w : BitVec 64} (hph : u.tilePhase n = .gen ∨ u.tilePhase n = .fwd)
    (hf : u.cdrFault n w ((u.tile n).t (fD w)) = none) :
    let t := u.tile n
    cdrBody n u t w = .retire (u.setTile n { t.setChaffBank (bits w 0 2) { t.chaffBank (bits w 0 2) with
        tag := setBits (t.chaffBank (bits w 0 2)).tag 62 2 2 } with
      chaff := t.chaff ++ [{ kind := .cdr, pc := t.pc, word := w, d := t.t (fD w), y := t.s (fB w), issued := u.now }] }) 1 none := by
  intro t
  have hf : u.cdrFault n w (t.t (fD w)) = none := hf
  simp only [cdrBody, chaffPhase_of hph, Bool.not_true, Bool.false_eq_true, if_false, hf]
  rfl

theorem ckclrBody_of_good {u : State} {n : Nat} {t : Tile} {w : BitVec 64} (hph : u.tilePhase n = .gen ∨ u.tilePhase n = .fwd) :
    ckclrBody n u t w = .retire (u.setTile n { u.tile n with topk := [], topkK := bits w 0 7 }) 1 none := by
  simp only [ckclrBody, chaffPhase_of hph, Bool.not_true, Bool.false_eq_true, if_false]
  rfl

theorem ckrdBody_of_good {u : State} {n : Nat} {w : BitVec 64} (hph : u.tilePhase n = .gen ∨ u.tilePhase n = .fwd)
    (ha : ((u.tile n).a (fA w)).toNat % 32 = 0)
    (hl : lowestFailing (ownStore n) [(((u.tile n).a (fA w)).toNat, 8 * (u.tile n).topkK)] = none) :
    let t := u.tile n
    let v := u.writePieces (u.tilePaddock n) (unitPieces [((t.a (fA w)).toNat, topkBytes t.topkK t.topk)])
    ckrdBody n u t w = .retire (v.setTile n { v.tile n with listDone := max (v.tile n).listDone (v.now + 2 + (t.topkK + 15) / 16) }) 1 none := by
  intro t v
  have hl : lowestFailing (ownStore n) [((t.a (fA w)).toNat, 8 * t.topkK)] = none := hl
  simp only [ckrdBody, chaffPhase_of hph, Bool.not_true, Bool.false_eq_true, if_false]
  have hk : (v.tile n).topkK = t.topkK := congrArg Tile.topkK (tile_writePieces u _ _ n)
  rw [if_neg (fun h => h ha), hl]
  show Issued.retire (v.modTile n fun t => { t with listDone := max t.listDone (v.now + 2 + ceilDiv t.topkK 16) }) 1 none = _
  clear_value v
  rw [← hk]
  rfl

theorem clenBody_of_good {u : State} {n : Nat} {w : BitVec 64} (hph : u.tilePhase n = .gen ∨ u.tilePhase n = .fwd) :
    clenBody n u (u.tile n) w =
      .retire (u.setTile n ((u.tile n).setRecord (bits w 0 3) ((((u.tile n).s (fA w)).extractLsb' 0 16).setWidth 32))) 1 none := by
  simp only [clenBody, chaffPhase_of hph, Bool.not_true, Bool.false_eq_true, if_false, ofNat_low_half]
  rfl

/-- The two instructions of the list fault where the phase does not accept them. -/
theorem listBody_of_phase {u : State} {n c d : Nat} {t : Tile} {w : BitVec 64}
    (h : (if u.tilePhase n = .gen ∨ u.tilePhase n = .fwd then none else some (0x03, 0)) = some (c, d)) :
    ckclrBody n u t w = .fault c d ∧ ckrdBody n u t w = .fault c d := by
  by_cases hph : u.tilePhase n = .gen ∨ u.tilePhase n = .fwd
  · rw [if_pos hph] at h
    cases h
  · rw [if_neg hph] at h
    cases h
    simp only [ckclrBody, ckrdBody, chaffPhase_eq_false hph, Bool.not_false, if_true]
    exact ⟨rfl, rfl⟩

/-! ### The statement -/

/-- Settles O26: each instruction past its checks, in the phases that accept it. -/
theorem chaffInstructions : Obligations.ChaffInstructions := by
  refine ⟨?_, ?_, ?_, ?_, ?_, ?_, ?_⟩
  · exact does_of_readyAt (fun _ => ctabReady) ctabBody exec_ctab (by decide) ctabReady_of_free fun u n w ⟨hph, hg⟩ => ctabBody_of_good hph hg
  · refine does_of_readyAt (fun _ => cissReady) cissBody exec_ciss (by decide) ?_ fun u n w ⟨hph, hdraft, hf, hsame, hagain⟩ => ?_
    · rintro s n _ w rfl
      rfl
    · rw [cissBody_of_good hph hdraft hf ⟨hsame, hagain⟩, issueValues_eq]
      rfl
  · exact does_of_readyAt (fun _ => cdrReady) cdrBody exec_cdr (by decide) cdrReady_of_free fun u n w ⟨hph, hf⟩ => cdrBody_of_good hph hf
  · exact does_of_readyAt (fun _ => topkReady) ckclrBody exec_ckclr (by decide) topkReady_of_free fun u n w hph => ckclrBody_of_good hph
  · exact does_of_readyAt (fun _ => topkReady) ckrdBody exec_ckrd (by decide) topkReady_of_free fun u n w ⟨hph, ha, hl⟩ => ckrdBody_of_good hph ha hl
  · exact does_of_readyAt (fun _ => clenReady) clenBody exec_clen (by decide) clenReady_of_free fun u n w hph => clenBody_of_good hph
  · intro q hq
    simp only [List.mem_cons, List.not_mem_nil, or_false] at hq
    rcases hq with rfl | rfl
    · exact faults_of_readyAt (fun _ => topkReady) ckclrBody exec_ckclr (by decide) topkReady_of_free fun u n w c d hf => (listBody_of_phase hf).1
    · exact faults_of_readyAt (fun _ => topkReady) ckrdBody exec_ckrd (by decide) topkReady_of_free fun u n w c d hf => (listBody_of_phase hf).2

end Sys2Proof.Laws
end

section
/-!
SUPPORT. Table builds, issues and drains of the Chaff engine run and end (R186, R188, R190, R198 to R200).
-/

namespace Sys2Proof.Laws

open Sys2Proof.Machine Sys2Proof.Safety

theorem ne_default_of_state {t : Tile} (h : t.seqState ≠ .idle) : t ≠ {} := fun he => h (congrArg Tile.seqState he)

/-! ### Builds -/

/-- The range of a build: the one given, or that of the codes scanned. -/
def buildRange (mem : List Host.Cell) (o : UnitOp) : BitVec 16 :=
  if o.word.getLsbD 4 then o.x.extractLsb' 0 16 else scanRange (o.word.getLsbD 3) (Memory.bytes mem (dBase o.a) (32 * 2 ^ bits o.word 5 2))

theorem completeBuild_eq {s : State} {n : Nat} {t : Tile} {o : UnitOp} {rest : List UnitOp} (hst : s.tile n = t) (hu : Unmarked s)
    (hidle : t.seqState ≠ .idle) (ht : takeFirst (fun x => decide (x.kind = .ctab)) t.chaff = some (o, rest)) :
    s.completeBuild n = (s.advanceTo (o.issued + 12)).setTile n (Tile.setTable { t with chaff := rest } (bits o.word 0 2)
      (buildTable (bit o.word 3) (bit o.word 2) (o.word.getLsbD 4) (buildRange s.mem o))) := by
  have htile : (s.advanceTo (o.issued + 12)).tile n = t := (State.tile_advanceTo s _ n).trans hst
  have hrange : BitVec.ofNat 16 o.x.toNat = o.x.extractLsb' 0 16 := by
    rw [← BitVec.toNat_inj]
    simp [BitVec.extractLsb'_toNat]
  have hnext : Tile.setTable { t with chaff := rest } (bits o.word 0 2)
      (buildTable (bit o.word 3) (bit o.word 2) (o.word.getLsbD 4) (buildRange s.mem o)) ≠ {} := ne_default_of_state hidle
  have hmod := State.modTile_setTile (s.advanceTo (o.issued + 12)) n { t with chaff := rest } (fun t => t.setTable (bits o.word 0 2)
    (buildTable (bit o.word 3) (bit o.word 2) (o.word.getLsbD 4) (buildRange s.mem o))) (ne_default_of_state hidle) hnext
  have hclean : Unmarked ((s.advanceTo (o.issued + 12)).setTile n { t with chaff := rest }) := unmarked_advanceTo hu _
  simp only [State.completeBuild, hst, ht]
  rw [State.modTile_of htile, checkRead_of_unmarked hclean, ← hmod, buildRange]
  cases hb : o.word.getLsbD 4 with
  | true => rw [bit, hb, hrange, if_pos rfl, if_pos rfl]
  | false =>
    rw [bit, hb, if_neg (by decide), if_neg (by decide)]
    simp only [State.setTile_mem, State.advanceTo_mem]
    rfl

/-! ### Streams -/

theorem startStream_of_free {s : State} {n : Nat} {t : Tile} {o : UnitOp} {rest : List UnitOp} (hst : s.tile n = t) (hu : Unmarked s)
    (ht : takeFirst (isWaiting .ciss) t.chaff = some (o, rest)) (hread : o.unreadable = false) :
    let start := max (o.issued + 64) t.chaffStreamEnd
    let len := 2 ^ o.x.toNat
    s.startStream n = (s.advanceTo start).setTile n { t with
      chaff := startedAt .ciss t.chaff start, chaffStreamEnd := start + len,
      sower := if cWidth o.word = 3 then t.sower.map fun x => x.heldBy start len x.sowerTime else t.sower,
      chaffTerminated := (t.chaffTerminated + (Tbl.get 0 o.values 1536).toNat) % (64 * 2 ^ 32),
      chaffClipped := satAdd t.chaffClipped (Tbl.get 0 o.values 1537).toNat } := by
  intro start len
  have htile : (s.advanceTo start).tile n = t := (State.tile_advanceTo s _ n).trans hst
  unfold isWaiting at ht
  simp only [State.startStream, hst, ht]
  rw [readRanges_of_unmarked (unmarked_advanceTo hu _)]
  simp only [hread, Bool.or_false, Bool.false_eq_true, if_false]
  rw [State.modTile_of htile]
  rfl

/-! ### The end of an issue -/

theorem any_drains_eq_false {l : List UnitOp} {q : Nat} (h : ∀ x ∈ l, ¬ (x.kind = .cdr ∧ bits x.word 0 2 = q)) : (l.any fun x => x.drains q) = false :=
  List.any_eq_false.2 fun x hx hb =>
    have hb := Bool.and_eq_true_iff.1 hb
    h x hx ⟨of_decide_eq_true hb.1, of_decide_eq_true hb.2⟩

/-- An issue at a record of fixed length leaves it alone. -/
theorem autoLength_of_fixed {s : State} {n : Nat} {t : Tile} {o : UnitOp} (hst : s.tile n = t) (h : bit (t.record (cRecord o.word)) 15 = false) :
    s.autoLength n o = s := by
  unfold State.autoLength
  rw [hst]
  exact if_pos (by rw [h]; rfl)

theorem completeIssue_of_free {s : State} {n k : Nat} {t : Tile} {o : UnitOp} {rest : List UnitOp} (hst : s.tile n = t)
    (hidle : t.seqState ≠ .idle) (ht : takeFirst (isGoing .ciss) t.chaff = some (o, rest)) (hk : o.started = some k)
    (hauto : bit (t.record (bits o.word 10 3)) 15 = false)
    (hdrain : ∀ x ∈ t.chaff.takeWhile (fun x => !isGoing .ciss x), ¬ (x.kind = .cdr ∧ bits x.word 0 2 = bits o.word 0 2)) :
    let end_ := k + 2 ^ o.x.toNat + 8
    s.completeIssue n = (s.advanceTo end_).setTile n { t.setChaffBank (cBank o.word) ((t.chaffBank (cBank o.word)).add o) with
      chaff := rest, chaffDone := max t.chaffDone end_, chaffIssues := t.chaffIssues + 1 } := by
  intro end_
  have htile : (s.advanceTo end_).tile n = t := (State.tile_advanceTo s _ n).trans hst
  have hany := any_drains_eq_false hdrain
  unfold isGoing at ht hany
  simp only [State.completeIssue, hst, ht, hk, Option.getD_some]
  rw [show cBank o.word = bits o.word 0 2 from rfl, hany, if_neg (by decide), State.modTile_of htile]
  exact autoLength_of_fixed (State.tile_setTile _ _ _ (ne_default_of_state hidle)) hauto

/-! ### Drains -/

theorem any_holdsDrain_eq_false {l : List UnitOp} {q : Nat}
    (h : ∀ x ∈ l.takeWhile (fun x => decide (x.kind ≠ .cdr)), ¬ (x.kind = .ciss ∧ bits x.word 0 2 = q)) :
    ((l.takeWhile fun x => decide (x.kind ≠ .cdr)).any fun x => x.holdsDrain q) = false :=
  List.any_eq_false.2 fun x hx hb => by
    have hkind : x.kind ≠ .cdr := by simpa using List.mem_takeWhile_imp hx
    rcases Bool.or_eq_true_iff.1 hb with hb | hb
    · have hb := Bool.and_eq_true_iff.1 hb
      exact h x hx ⟨of_decide_eq_true hb.1, of_decide_eq_true hb.2⟩
    · exact hkind (of_decide_eq_true hb)

/-- When a drain of bank `q` ends. -/
def drainEndTime (t : Tile) (o : UnitOp) (q : Nat) : Nat := max o.issued t.chaffDone + ceilDiv (chaffG (bits (t.chaffBank q).tag 58 2)) 64 + 4

/-- The tile with bank `q` drained. -/
def drainedTile (t : Tile) (o : UnitOp) (rest : List UnitOp) (q : Nat) : Tile :=
  { (t.setChaffBank q (t.chaffBehind q)).setChaffBehind q {} with
    chaff := rest, chaffDone := drainEndTime t o q, topk := if bit o.word 2 then mergeTopk t.topkK o.y t.topk (t.chaffBank q) else t.topk }

theorem completeChaffDrain_of_free {s : State} {n : Nat} {t : Tile} {o : UnitOp} {rest : List UnitOp} (hst : s.tile n = t)
    (ht : takeFirst (fun x => decide (x.kind = .cdr)) t.chaff = some (o, rest))
    (hb : ∀ x ∈ t.chaff.takeWhile (fun x => decide (x.kind ≠ .cdr)), ¬ (x.kind = .ciss ∧ bits x.word 0 2 = bits o.word 0 2)) :
    let q := bits o.word 0 2
    let u := (s.advanceTo (drainEndTime t o q)).setTile n (drainedTile t o rest q)
    let ys := (List.range (t.chaffBank q).extG).map (t.chaffBank q).result
    s.completeChaffDrain n = if bit o.word 2 then u
      else (u.deliver n o (u.tilePaddock n) (unitPieces [(dBase o.d, ys.flatMap fun v => leBytes 2 v.toNat)])).nonFiniteAt n o (ys.findIdx? bfNonFinite) := by
  intro q u ys
  have htile : (s.advanceTo (drainEndTime t o q)).tile n = t := (State.tile_advanceTo s _ n).trans hst
  have hany := any_holdsDrain_eq_false hb
  simp only [State.completeChaffDrain, hst, ht]
  rw [hany, if_neg (by decide)]
  rw [← drainEndTime, State.modTile_of htile, ← drainedTile]

/-! ### The statement -/

/-- Settles O27: what each step of the engine finds at the front of its queue, it completes. -/
theorem chaffRuns : Obligations.ChaffRuns := by
  intro s n env o rest hp hidle t e waiting going
  have hbuild : exec (.tableBuildComplete n env) s = .next (e.completeBuild n) := exec_running hp
  have hstream : exec (.chaffStreamStart n env) s = .next (e.startStream n) := exec_running hp
  have hissue : exec (.chaffIssueComplete n) s = .next (s.completeIssue n) := exec_running hp
  have hdrain : exec (.chaffDrainComplete n) s = .next (s.completeChaffDrain n) := exec_running hp
  have he : e.tile n = t := takeEnv_tile s env n
  refine ⟨fun ht herr => ?_, fun ht herr hread => ?_, fun k ht hk hauto hd => ?_, fun ht hb => ?_⟩
  · rw [hbuild, completeBuild_eq he (unmarked_takeEnv herr) hidle ht]
    rfl
  · rw [hstream, startStream_of_free he (unmarked_takeEnv herr) ht hread]
    rfl
  · rw [hissue, completeIssue_of_free (t := t) rfl hidle ht hk hauto hd]
    rfl
  · have hdone := completeChaffDrain_of_free (t := t) rfl ht hb
    intro q b end_ u ys
    refine ⟨fun hw => ?_, fun hw herr => ?_⟩
    · rw [hdrain, hdone, bit, hw, if_pos rfl, drainedTile, bit, hw]
      rfl
    · rw [hdrain, hdone, bit, hw, if_neg (by decide), deliver_of_clean (by simpa using herr), drainedTile, bit, hw]
      rfl

end Sys2Proof.Laws
end


section
/-!
SUPPORT. SDRAW and SDROP issue, and an operation of the Sower ends (R88, R188, R211, R213, R214, R217, R289).
-/

namespace Sys2Proof.Laws

open Sys2Proof.Machine Sys2Proof.Safety

/-! ### Issue -/

theorem exec_sdraw (n : Nat) (s : State) : exec (.sdraw n) s = .next (s.issue n 0x58 (sdrawBody n)) := rfl

theorem exec_sdrop (n : Nat) (s : State) : exec (.sdrop n) s = .next (s.issueWhen n 0x59 sdropReady (sdropBody n)) := rfl

theorem sdropReady_of_free (s : State) (n unit : Nat) (w : BitVec 64) (h : (∀ o ∈ (s.tile n).sower, o.kind ≠ .sdrop) ∧ unit = 0) :
    sdropReady s (s.tile n) w = some unit := by
  have hany : ((s.tile n).sower.any fun o => decide (o.kind = .sdrop)) = false :=
    List.any_eq_false.2 fun o ho hb => h.1 o ho (of_decide_eq_true hb)
  rw [sdropReady, hany, h.2]
  rfl

theorem sdrawBody_of_good {u : State} {n : Nat} {w : BitVec 64} (hc : bits w 4 4 = 3) (hs : ((u.tile n).s (fA w)).getLsbD 31 = false) :
    sdrawBody n u (u.tile n) w = .retire (u.setTile n { u.tile n with sower := (u.tile n).sower ++
      [{ kind := .sdraw, pc := (u.tile n).pc, word := w, x := (u.tile n).s (fA w), y := (u.tile n).s (fB w), z := (u.tile n).s (fC w),
         issued := u.now, started := some ((u.tile n).drawStart u.now) }] }) 1 none := by
  rw [sdrawBody, if_neg (fun h => h hc), bit, hs, if_neg (by decide)]
  rfl

theorem sdrawBody_of_fault {u : State} {n c d : Nat} {w : BitVec 64}
    (h : (if bits w 4 4 ≠ 3 then some (0x0C, 0) else if ((u.tile n).s (fA w)).getLsbD 31 then some (0x0B, 0) else none) = some (c, d)) :
    sdrawBody n u (u.tile n) w = .fault c d := by
  unfold sdrawBody
  split at h
  next hc => cases h; exact if_pos hc
  next hc =>
    split at h
    next hs =>
      cases h
      have hc : ¬ swrClass w ≠ classSample := hc
      rw [if_neg hc, bit, hs]
      rfl
    next => cases h

theorem sdropBody_of_good {u : State} {n : Nat} {w : BitVec 64} (hf : u.sdropFault n w ((u.tile n).t (fA w)) ((u.tile n).s (fB w)) = none) :
    sdropBody n u (u.tile n) w = .retire (u.setTile n { u.tile n with sower := (u.tile n).sower ++
      [{ kind := .sdrop, pc := (u.tile n).pc, word := w, a := (u.tile n).t (fA w), y := (u.tile n).s (fB w), z := (u.tile n).s (fC w),
         issued := u.now, started := some ((u.tile n).drawStart u.now) }] }) 1 none := by
  rw [sdropBody, hf]
  rfl

/-! ### Completion -/

theorem completeSower_draw {s : State} {n : Nat} {t : Tile} {o : UnitOp} {rest : List UnitOp} (hst : s.tile n = t) (hidle : t.seqState ≠ .idle)
    (hq : t.sower = o :: rest) (hk : o.kind = .sdraw) :
    let u := s.advanceTo (o.started.getD o.issued + 13)
    s.completeSower n = u.setTile n (Tile.setS { t with sower := rest } (fD o.word) (s.drawWord (s.tilePaddock n) o)) := by
  intro u
  have htile : u.tile n = t := (State.tile_advanceTo s _ n).trans hst
  have hnext : ∀ v, Tile.setS { t with sower := rest } (fD o.word) v ≠ {} := fun _ => ne_default_of_state hidle
  have hword : (u.setTile n { t with sower := rest }).drawWord (s.tilePaddock n) o = s.drawWord (s.tilePaddock n) o := by
    simp only [State.drawWord, State.sowerStepOf, State.pdk, State.setTile_paddocks, u, State.advanceTo_paddocks, State.field, State.reg,
      State.setTile_regs, State.advanceTo_regs]
  have htime : o.sowerTime = 13 := if_pos hk
  simp only [State.completeSower, hst, hq, htime]
  rw [if_pos hk, State.modTile_of htile, hword]
  exact State.modTile_setTile _ _ _ _ (ne_default_of_state hidle) (hnext _)

theorem completeSower_drop {s : State} {n : Nat} {t : Tile} {o : UnitOp} {rest : List UnitOp} (hst : s.tile n = t) (hun : Unmarked s)
    (hq : t.sower = o :: rest) (hk : o.kind = .sdrop) :
    let u := (s.advanceTo (o.started.getD o.issued + (13 + ceilDiv (dExt0 o.a * dExt1 o.a) 64))).setTile n { t with sower := rest }
    let p := s.tilePaddock n
    s.completeSower n = (u.writePieces p (unitPieces (u.dropParts p o))).nonFiniteAt n o (u.dropNonFinite p o) := by
  intro u p
  have hne : ¬ o.kind = .sdraw := by rw [hk]; decide
  have htime : o.sowerTime = 13 + ceilDiv (dExt0 o.a * dExt1 o.a) 64 := if_neg hne
  have hclean : Unmarked u := unmarked_advanceTo hun _
  have htile : (s.advanceTo (o.started.getD o.issued + (13 + ceilDiv (dExt0 o.a * dExt1 o.a) 64))).tile n = t :=
    (State.tile_advanceTo s _ n).trans hst
  simp only [State.completeSower, hst, hq, htime]
  rw [if_neg hne, State.modTile_of htile, readPlanes_of_unmarked hclean]
  simp only [deliver_of_clean hclean.2]
  rfl

/-! ### The statement -/

theorem tilePaddock_takeEnv (s : State) (env : Env) (n : Nat) : (s.takeEnv env).tilePaddock n = s.tilePaddock n := by
  obtain ⟨mem, units, words, h⟩ := takeEnv_eq s env
  rw [h]
  rfl

theorem drawWord_takeEnv (s : State) (env : Env) (p : Nat) (o : UnitOp) : (s.takeEnv env).drawWord p o = s.drawWord p o := by
  obtain ⟨mem, units, words, h⟩ := takeEnv_eq s env
  rw [h]
  rfl

/-- Settles O28: draws and masks are accepted past their checks, and end with the word or the masked tensor. -/
theorem sowerInstructions : Obligations.SowerInstructions := by
  refine ⟨?_, ?_, ?_, fun s n env o rest hp hidle hq => ?_⟩
  · exact does_anyTime sdrawBody exec_sdraw (by decide) fun u n w ⟨hc, hs⟩ => sdrawBody_of_good hc hs
  · exact faults_of_readyAt (fun _ _ _ _ => some 0) sdrawBody exec_sdraw (by decide) (fun _ _ _ _ h => congrArg some h.symm)
      fun u n w c d hf => sdrawBody_of_fault hf
  · exact does_of_readyAt (fun _ => sdropReady) sdropBody exec_sdrop (by decide) sdropReady_of_free fun u n w hf => sdropBody_of_good hf
  · intro t e p key step
    have he : e.tile n = t := takeEnv_tile s env n
    have hx : exec (.sowerOperationComplete n env) s = .next (e.completeSower n) := exec_running hp
    refine ⟨fun hk => ?_, fun hk herr => ?_⟩
    · rw [hx, completeSower_draw he hidle hq hk, tilePaddock_takeEnv, drawWord_takeEnv]
      rfl
    · have hdone := completeSower_drop he (unmarked_takeEnv herr) hq hk
      rw [tilePaddock_takeEnv] at hdone
      rw [hx, hdone]
      rfl

end Sys2Proof.Laws
end


section
/-!
SUPPORT. What position 200 and the tick of a stride leave of the clock: the GTC, whether the units still have to act, and what a
commit staged (R34 to R36, R45, R52).  One lemma for each function that they call.
-/

namespace Sys2Proof.Laws

open Sys2Proof.Machine Sys2Proof.Safety

/-- What is said of the clock: the GTC, the mark that the units have yet to act, and a property of what a commit staged. -/
structure ClockView where
  gtc : BitVec 64
  actDue : Bool
  staged : Option Staged → Prop

/-- The clock is as the view says. -/
def KeepsClock (cv : ClockView) (t : Time) (x : Option Staged) : Prop := t.gtc = cv.gtc ∧ t.actDue = cv.actDue ∧ cv.staged x

/-- A state whose clock is as the view says. -/
abbrev OnTime (cv : ClockView) (s : State) : Prop := KeepsClock cv s.time s.staged

theorem keepsClock_time {cv : ClockView} {t u : Time} {x : Option Staged} (h : KeepsClock cv t x) (hg : u.gtc = t.gtc) (ha : u.actDue = t.actDue) :
    KeepsClock cv u x := ⟨hg.trans h.1, ha.trans h.2.1, h.2.2⟩

variable {cv : ClockView}

theorem onTime_foldl {α : Type} {f : State → α → State} (hf : ∀ s x, OnTime cv s → OnTime cv (f s x)) (l : List α) (s : State) (h : OnTime cv s) :
    OnTime cv (l.foldl f s) := by
  induction l generalizing s with
  | nil => exact h
  | cons x l ih => exact ih _ (hf s x h)

theorem onTime_ite {c : Prop} [Decidable c] {s t : State} (hs : OnTime cv s) (ht : OnTime cv t) : OnTime cv (if c then s else t) := by
  split <;> assumption

theorem onTime_setReg {s : State} {r : Reg} {v : BitVec 64} (h : OnTime cv s) : OnTime cv (s.setReg r v) := h

theorem onTime_setShadow {s : State} {r : Reg} {v : BitVec 64} (h : OnTime cv s) : OnTime cv (s.setShadow r v) := h

theorem onTime_bringIntoForce {s : State} {r : Reg} {v : BitVec 64} (h : OnTime cv s) : OnTime cv (s.bringIntoForce r v) := by
  grind [State.bringIntoForce, onTime_setReg]

theorem onTime_resetReg {s : State} {r : Reg} (h : OnTime cv s) : OnTime cv (s.resetReg r) := h

theorem onTime_noteDevice {s : State} {r : Reg} {m : BitVec 64} (h : OnTime cv s) : OnTime cv (s.noteDevice r m) := h

theorem onTime_setFault {s : State} (h : OnTime cv s) : OnTime cv (s.setFault) := by
  grind [State.setFault, onTime_noteDevice]

theorem onTime_setSecurity {s : State} (h : OnTime cv s) : OnTime cv (s.setSecurity) := by
  grind [State.setSecurity, onTime_noteDevice]

theorem onTime_setLogDrop {s : State} (h : OnTime cv s) : OnTime cv (s.setLogDrop) := by
  grind [State.setLogDrop, onTime_noteDevice]

theorem onTime_raiseAt {s : State} {at_ src : Nat} {e : EventCode} {payload : BitVec 128} (h : OnTime cv s) : OnTime cv (s.raiseAt at_ src e payload)
    := by
  grind [State.raiseAt, onTime_setFault]

theorem onTime_raise {s : State} {src : Nat} {e : EventCode} {payload : BitVec 128} (h : OnTime cv s) : OnTime cv (s.raise src e payload) := by
  grind [State.raise, onTime_raiseAt]

theorem onTime_setTile {s : State} {n : Nat} {t : Tile} (h : OnTime cv s) : OnTime cv (s.setTile n t) := h

theorem onTime_modTile {s : State} {n : Nat} {f : Tile → Tile} (h : OnTime cv s) : OnTime cv (s.modTile n f) := by
  grind [State.modTile, onTime_setTile]

theorem onTime_setSheaf {s : State} {m : Nat} {x2 : Sheaf} (h : OnTime cv s) : OnTime cv (s.setSheaf m x2) := h

theorem onTime_modSheaf {s : State} {m : Nat} {f : Sheaf → Sheaf} (h : OnTime cv s) : OnTime cv (s.modSheaf m f) := by
  grind [State.modSheaf, onTime_setSheaf]

theorem onTime_modEntry {s : State} {m e : Nat} {f : MtgEntry → MtgEntry} (h : OnTime cv s) : OnTime cv (s.modEntry m e f) := by
  grind [State.modEntry, onTime_modSheaf]

theorem onTime_modPdk {s : State} {p : Nat} {f : Paddock → Paddock} (h : OnTime cv s) : OnTime cv (s.modPdk p f) := h

theorem onTime_setRegion {s : State} {r : Nat} {x2 : Region} (h : OnTime cv s) : OnTime cv (s.setRegion r x2) := h

theorem onTime_modPort {s : State} {n : Nat} {f : Port → Port} (h : OnTime cv s) : OnTime cv (s.modPort n f) := h

theorem onTime_modTether {s : State} {t : Nat} {f : Tether → Tether} (h : OnTime cv s) : OnTime cv (s.modTether t f) := h

theorem onTime_modSite {s : State} {m : Nat} {f : Site → Site} (h : OnTime cv s) : OnTime cv (s.modSite m f) := h

theorem onTime_modQueue {s : State} {q : Nat} {f : QueueHead → QueueHead} (h : OnTime cv s) : OnTime cv (s.modQueue q f) := h

theorem onTime_setMask {s : State} {p : Nat} {v : BitVec 400} (h : OnTime cv s) : OnTime cv (s.setMask p v) := h

theorem onTime_draw {s : State} (h : OnTime cv s) : OnTime cv (s.draw).2 := h

theorem onTime_writeUnit {s : State} {p u : Nat} {v : BitVec 512} (h : OnTime cv s) : OnTime cv (s.writeUnit p u v) := by
  grind [State.writeUnit]

theorem onTime_writeGroup {s : State} {m g : Nat} {bs : List Byte} (h : OnTime cv s) : OnTime cv (s.writeGroup m g bs) := by
  grind [State.writeGroup, onTime_modSheaf]

theorem onTime_correctUnit {s : State} {u : Nat} (h : OnTime cv s) : OnTime cv (s.correctUnit u) := h

theorem onTime_failUnit {s : State} {u : Nat} {patrol : Bool} (h : OnTime cv s) : OnTime cv (s.failUnit u patrol) := by
  grind [State.failUnit, onTime_raise, onTime_noteDevice]

theorem onTime_writeChunk {s : State} {p a : Nat} {bs : List Byte} {fromHost : Bool} (h : OnTime cv s) : OnTime cv (s.writeChunk p a bs fromHost) := by
  grind [State.writeChunk, onTime_writeUnit, onTime_correctUnit, onTime_failUnit,
    onTime_writeGroup]

theorem onTime_writeBytes {s : State} {p a : Nat} {bs : List Byte} (h : OnTime cv s) : OnTime cv (s.writeBytes p a bs) := by
  grind [State.writeBytes, onTime_writeChunk, onTime_foldl]

theorem onTime_correctWord {s : State} {w : Nat} (h : OnTime cv s) : OnTime cv (s.correctWord w) := by
  grind [State.correctWord, onTime_modSheaf, onTime_modTile]

theorem onTime_failWord {s : State} {w : Nat} (h : OnTime cv s) : OnTime cv (s.failWord w) := by
  grind [State.failWord, onTime_modSheaf, onTime_raise, onTime_modTile]

theorem onTime_readMark {s : State} {c : Nat × EccMark} (hbm : Bool) (h : OnTime cv s) : OnTime cv (s.readMark hbm c).1 := by
  unfold State.readMark
  grind [onTime_correctWord, onTime_correctUnit, onTime_failUnit, onTime_failWord]

theorem onTime_readMarks {s : State} {a : List (Nat × EccMark)} (hbm : Bool) (h : OnTime cv s) : OnTime cv (s.readMarks hbm a).1 := by
  fun_induction State.readMarks <;> grind [onTime_readMark]

theorem onTime_checkRead {s : State} {a n : Nat} (h : OnTime cv s) : OnTime cv (s.checkRead a n).1 := by
  grind [State.checkRead, onTime_readMarks]

theorem onTime_checkUnit {s : State} {a n : Nat} (h : OnTime cv s) : OnTime cv (s.checkUnit a n).1 := by
  have hr : ∀ s a n, OnTime cv s → OnTime cv (State.checkRead s a n).1 := fun s a n h => onTime_checkRead h
  unfold State.checkUnit
  generalize State.checkRead = check at hr
  grind

theorem onTime_checkUnits {s : State} {a : List (Nat × Nat)} (h : OnTime cv s) : OnTime cv (s.checkUnits a).1 := by
  fun_induction State.checkUnits <;> grind [onTime_checkUnit]

theorem onTime_checkSource {s : State} {a n : Nat} (h : OnTime cv s) : OnTime cv (s.checkSource a n).1 := by
  grind [State.checkSource, onTime_checkUnits]

theorem onTime_raiseUnbacked {s : State} {src p a : Nat} {write : Bool} (h : OnTime cv s) : OnTime cv (s.raiseUnbacked src p a write) := by
  grind [State.raiseUnbacked, onTime_raise]

theorem onTime_clearStore {s : State} {n : Nat} (h : OnTime cv s) : OnTime cv (s.clearStore n) := by
  grind [State.clearStore]

theorem onTime_clearBanks {s : State} {m lo : Nat} (hi : Nat) (h : OnTime cv s) : OnTime cv (s.clearBanks m lo hi) := by
  grind [State.clearBanks]

theorem onTime_raiseReach {s : State} {src p a n : Nat} {write : Bool} (h : OnTime cv s) : OnTime cv (s.raiseReach src p a n write) := by
  grind [State.raiseReach, onTime_raiseUnbacked, onTime_raise]

theorem onTime_masterWrite {s : State} {src p a : Nat} {bs : List Byte} (h : OnTime cv s) : OnTime cv (s.masterWrite src p a bs) := by
  grind [State.masterWrite, onTime_writeBytes, onTime_raise, onTime_raiseReach]

theorem onTime_countAbandoned {s : State} {m e k : Nat} (h : OnTime cv s) : OnTime cv (s.countAbandoned m e k) := by
  grind [State.countAbandoned, onTime_modEntry]

theorem onTime_abandonRepeats {s : State} {n : Nat} {p : Nat → Bool} (h : OnTime cv s) : OnTime cv (s.abandonRepeats n p) := by
  grind [State.abandonRepeats, onTime_modTile, onTime_countAbandoned, onTime_foldl]

theorem onTime_dropRecord {s : State} (h : OnTime cv s) : OnTime cv (s.dropRecord) := by
  grind [State.dropRecord, onTime_setLogDrop]

theorem onTime_ringPut {s : State} {e : Event} (h : OnTime cv s) : OnTime cv (s.ringPut e) := by
  grind [State.ringPut, onTime_dropRecord, onTime_masterWrite]

theorem onTime_keepEarly {s : State} {e : Event} (h : OnTime cv s) : OnTime cv (s.keepEarly e) := by
  grind [State.keepEarly, onTime_dropRecord]

theorem onTime_ringWrite {s : State} {age : Nat} (h : OnTime cv s) : OnTime cv (s.ringWrite age) := by
  grind [State.ringWrite, onTime_keepEarly, onTime_ringPut, onTime_foldl]

theorem onTime_sourceChanged {s : State} {old : Nat} (h : OnTime cv s) : OnTime cv (s.sourceChanged old) :=
  onTime_ite h (keepsClock_time h rfl rfl)

theorem onTime_setRegions {s : State} {rs : List Nat} {x2 : Region} (h : OnTime cv s) : OnTime cv (s.setRegions rs x2) := by
  grind [State.setRegions, onTime_setRegion, onTime_foldl]

theorem onTime_withChange {s : State} {c : PdkChange} (h : OnTime cv s) : OnTime cv (s.withChange c) := by
  grind [State.withChange, onTime_setRegions, onTime_setMask, onTime_modPdk]

theorem onTime_checkUcode {s : State} {l : Look} {p : Nat} (h : OnTime cv s) : OnTime cv (s.checkUcode l p).1 := by
  grind [State.checkUcode, onTime_checkSource]

theorem onTime_judgeGroup {s : State} {done : BitVec 17} {g : Nat} (h : OnTime cv s) : OnTime cv (s.judgeGroup done g).1 := by
  grind [State.judgeGroup, onTime_checkUcode]

theorem onTime_refuseGroup {s : State} {g rule : Nat} (h : OnTime cv s) : OnTime cv (s.refuseGroup g rule) := by
  grind [State.refuseGroup, onTime_setReg, onTime_raise, onTime_noteDevice]

theorem onTime_applyGroup {s : State} {g : Nat} (h : OnTime cv s) : OnTime cv (s.applyGroup g) := by
  grind [State.applyGroup, onTime_setReg, onTime_noteDevice]

theorem onTime_evaluate {s : State} {a : List Nat} {x2 : BitVec 17} (h : OnTime cv s) : OnTime cv (s.evaluate a x2).1 := by
  fun_induction State.evaluate <;> grind [onTime_judgeGroup, onTime_applyGroup, onTime_refuseGroup]

theorem onTime_settleReply {s : State} {id result note detail : Nat} (h : OnTime cv s) : OnTime cv (s.settleReply id result note detail) := h

/-- A commit stages what it brings into force: the view must not speak of it. -/
theorem onTime_commitTick {s : State} (hv : ∀ x, cv.staged x) (h : OnTime cv s) : OnTime cv (s.commitTick) := by
  have hs (v : State) (x : Option Staged) (l : List PdkChange) (hc : OnTime cv v) : OnTime cv { v with staged := x, changes := l } :=
    ⟨hc.1, hc.2.1, hv x⟩
  unfold State.commitTick
  refine hs _ _ _ (onTime_foldl (fun u c hu => onTime_ite (onTime_settleReply hu) (onTime_settleReply hu)) _ _ (onTime_setReg (onTime_evaluate h)))

theorem onTime_freeBytes {s : State} {a : Nat} (h : OnTime cv s) : OnTime cv (s.freeBytes a).1 := by
  fun_induction State.freeBytes <;> grind [onTime_draw]

theorem onTime_readPieces {s : State} {p : Nat} {a : List (Nat × Nat)} (h : OnTime cv s) : OnTime cv (s.readPieces p a).1 := by
  fun_induction State.readPieces <;> grind [onTime_freeBytes, onTime_checkUnit]

theorem onTime_masterRead {s : State} {src p a n : Nat} (h : OnTime cv s) : OnTime cv (s.masterRead src p a n).1 := by
  grind [State.masterRead, onTime_readPieces, onTime_raiseReach]

theorem onTime_endCopy {s : State} {job : CopyJob} {e : CopyEnd} (h : OnTime cv s) : OnTime cv (s.endCopy job e) := by
  grind [State.endCopy, onTime_setSecurity, onTime_raise, onTime_masterWrite]

theorem onTime_endSeals {s : State} {p : Nat} (h : OnTime cv s) : OnTime cv (s.endSeals p) := by
  grind [State.endSeals, onTime_endCopy, onTime_foldl]

theorem onTime_holdPart {s : State} {code : Nat} (h : OnTime cv s) : OnTime cv (s.holdPart code) := by
  grind [State.holdPart]

theorem onTime_decideHolds {s : State} (h : OnTime cv s) : OnTime cv (s.decideHolds) := by
  grind [State.decideHolds, onTime_raise, onTime_foldl]

theorem onTime_sampleEnergy {s : State} {k : Nat} (h : OnTime cv s) : OnTime cv (s.sampleEnergy k) := by
  grind [State.sampleEnergy, onTime_modPdk, onTime_foldl]

theorem onTime_measurePower {s : State} {energy : Nat} (h : OnTime cv s) : OnTime cv (s.measurePower energy) := by
  grind [State.measurePower, onTime_raise]

theorem onTime_noteInput {s : State} {mv : Nat} (h : OnTime cv s) : OnTime cv (s.noteInput mv) := h

theorem onTime_readInput {s : State} {mv : Nat} (h : OnTime cv s) : OnTime cv (s.readInput mv) := by
  grind [State.readInput, onTime_noteInput, onTime_raise]

theorem onTime_sampleHeat {s : State} {x1 : Sensors} (h : OnTime cv s) : OnTime cv (s.sampleHeat x1) := by
  grind [State.sampleHeat, onTime_raise, onTime_holdPart]

theorem onTime_portWentOff {s : State} {n : Nat} (h : OnTime cv s) : OnTime cv (s.portWentOff n) := by
  grind [State.portWentOff, onTime_modSite]

theorem onTime_clearEntries {s : State} {t : Nat} {ports : List Nat} (h : OnTime cv s) : OnTime cv (s.clearEntries t ports) := by
  grind [State.clearEntries, onTime_modPort, onTime_foldl]

theorem onTime_darkenPort {s : State} {n : Nat} (h : OnTime cv s) : OnTime cv (s.darkenPort n) := by
  grind [State.darkenPort, onTime_modPort, onTime_portWentOff]

theorem onTime_finishMove {s : State} {t : Nat} (h : OnTime cv s) : OnTime cv (s.finishMove t) := by
  grind [State.finishMove, onTime_darkenPort, onTime_clearEntries, onTime_modTether, onTime_foldl]

theorem onTime_restoreTethers {s : State} (h : OnTime cv s) : OnTime cv (s.restoreTethers) := by
  grind [State.restoreTethers, onTime_modTether, onTime_finishMove, onTime_foldl]

theorem onTime_closeTether {s : State} {t : Nat} (h : OnTime cv s) : OnTime cv (s.closeTether t) := by
  grind [State.closeTether, onTime_clearEntries, onTime_modTether]

theorem onTime_readCount {s : State} {t : Nat} {a : BitVec 48} (h : OnTime cv s) : OnTime cv (s.readCount t a).1 := by
  grind [State.readCount, onTime_masterRead]

theorem onTime_acceptTether {s : State} {t : Nat} (h : OnTime cv s) : OnTime cv (s.acceptTether t) := by
  grind [State.acceptTether, onTime_readCount, onTime_modTether]

theorem onTime_tetherTick {s : State} (h : OnTime cv s) : OnTime cv (s.tetherTick) := by
  grind [State.tetherTick, onTime_readCount, onTime_acceptTether, onTime_modTether, onTime_foldl]

theorem onTime_closeEntry {s : State} {m e : Nat} {phase : Phase} (h : OnTime cv s) : OnTime cv (s.closeEntry m e phase) := by
  grind [State.closeEntry, onTime_modEntry, onTime_abandonRepeats, onTime_foldl]

theorem onTime_applyJudged {s : State} {m e p : Nat} {j : Judged} (h : OnTime cv s) : OnTime cv (s.applyJudged m e p j) := by
  grind [State.applyJudged, onTime_raise, onTime_modPdk, onTime_noteDevice, onTime_foldl]

theorem onTime_closeSaved {s : State} {p m e : Nat} {old : Phase} (h : OnTime cv s) : OnTime cv (s.closeSaved p m old e) := by
  grind [State.closeSaved, onTime_applyJudged, onTime_modSheaf, onTime_masterWrite]

theorem onTime_modColl {s : State} {id : Nat} {f : Coll → Coll} (h : OnTime cv s) : OnTime cv (s.modColl id f) := h

theorem onTime_wteEvent {s : State} {id k : Nat} {e : EventCode} {fields : List (Nat × Nat × Nat)} (h : OnTime cv s) : OnTime cv (s.wteEvent id k e
    fields) := by
  grind [State.wteEvent, onTime_modColl, onTime_raise]

theorem onTime_wteUe {s : State} {id a : Nat} (h : OnTime cv s) : OnTime cv (s.wteUe id a) := by
  grind [State.wteUe, onTime_wteEvent, onTime_modColl, onTime_modPdk]

theorem onTime_wtePieces {s : State} {p : Nat} {a : List (Nat × Nat)} (h : OnTime cv s) : OnTime cv (s.wtePieces p a).1 := by
  fun_induction State.wtePieces <;> grind [onTime_checkUnit]

theorem onTime_wteWrite {s : State} {id p a : Nat} {bs : List Byte} (h : OnTime cv s) : OnTime cv (s.wteWrite id p a bs) := by
  grind [State.wteWrite, onTime_writeChunk, onTime_wteUe, onTime_foldl]

theorem onTime_writeVersion {s : State} {c : Coll} {aborted : Bool} (h : OnTime cv s) : OnTime cv (s.writeVersion c aborted) := by
  grind [State.writeVersion, onTime_modColl, onTime_wteWrite, onTime_wtePieces]

theorem onTime_endColl {s : State} {id : Nat} {aborted : Bool} (h : OnTime cv s) : OnTime cv (s.endColl id aborted) := by
  grind [State.endColl, onTime_wteWrite, onTime_writeVersion, onTime_modPdk]

theorem onTime_abortColl {s : State} {id : Nat} (h : OnTime cv s) : OnTime cv (s.abortColl id) := by
  grind [State.abortColl, onTime_endColl, onTime_modColl, onTime_modTether, onTime_foldl]

theorem onTime_clearSilage {s : State} {m old new : Nat} (h : OnTime cv s) : OnTime cv (s.clearSilage m old new) := by
  grind [State.clearSilage, onTime_clearBanks]

theorem onTime_enablePort {s : State} {n : Nat} {on : Bool} (h : OnTime cv s) : OnTime cv (s.enablePort n on) := by
  grind [State.enablePort, onTime_modPort, onTime_portWentOff]

theorem onTime_queueEnabled {s : State} {q : Nat} (h : OnTime cv s) : OnTime cv (s.queueEnabled q) := by
  grind [State.queueEnabled, onTime_modQueue]

theorem onTime_ringStarted {s : State} (h : OnTime cv s) : OnTime cv (s.ringStarted) := h

theorem onTime_valueActs {s old : State} {r : Reg} (h : OnTime cv s) : OnTime cv (s.valueActs old r) := by
  unfold State.valueActs
  dsimp only
  split
  · exact onTime_ite h (onTime_clearSilage h)
  · exact onTime_sourceChanged h
  · exact onTime_ite (onTime_queueEnabled h) h
  · exact onTime_ite (onTime_ringStarted h) h
  · exact onTime_ite (onTime_setReg h) h
  · exact onTime_ite h (onTime_enablePort h)
  · exact onTime_modPdk h
  · exact h

theorem onTime_installValues {s : State} {vs : Tbl (BitVec 64)} (h : OnTime cv s) : OnTime cv (s.installValues vs) := by
  grind [State.installValues, onTime_valueActs, onTime_bringIntoForce, onTime_foldl]

theorem onTime_advanceMemEpoch {s : State} {p : Nat} (h : OnTime cv s) : OnTime cv (s.advanceMemEpoch p) := by
  grind [State.advanceMemEpoch, onTime_raise, onTime_modPdk]

theorem onTime_rotateKeys {s : State} {p : Nat} (h : OnTime cv s) : OnTime cv (s.rotateKeys p) := by
  grind [State.rotateKeys, onTime_advanceMemEpoch, onTime_modPdk]

theorem onTime_clearSheafMemory {s : State} {m : Nat} (h : OnTime cv s) : OnTime cv (s.clearSheafMemory m) := by
  grind [State.clearSheafMemory, onTime_clearStore, onTime_clearBanks, onTime_foldl]

theorem onTime_scrubSheaf {s : State} {p m : Nat} (h : OnTime cv s) : OnTime cv (s.scrubSheaf p m) := by
  grind [State.scrubSheaf, onTime_modSheaf, onTime_modTile, onTime_clearSheafMemory, onTime_foldl]

theorem onTime_scrubTether {s : State} {p t : Nat} (h : OnTime cv s) : OnTime cv (s.scrubTether p t) := by
  grind [State.scrubTether, onTime_modPort, onTime_closeTether, onTime_foldl]

theorem onTime_resetFields {s : State} {r : Reg} (h : OnTime cv s) : OnTime cv (s.resetFields r) := by
  grind [State.resetFields, onTime_setReg, onTime_resetReg]

theorem onTime_resetPaddock {s : State} {p : Nat} (h : OnTime cv s) : OnTime cv (s.resetPaddock p) := by
  grind [State.resetPaddock, onTime_resetFields, onTime_modPdk, onTime_foldl]

theorem onTime_finishRelease {s : State} {p cleared : Nat} (h : OnTime cv s) : OnTime cv (s.finishRelease p cleared) := by
  grind [State.finishRelease, onTime_raise, onTime_modPdk]

theorem onTime_releaseWhole {s : State} {p : Nat} {regions : List Nat} (h : OnTime cv s) : OnTime cv (s.releaseWhole p regions) := by
  grind [State.releaseWhole, onTime_resetPaddock, onTime_scrubTether, onTime_finishRelease, onTime_abortColl, onTime_modPdk, onTime_endSeals, onTime_foldl]

theorem onTime_actChange {s : State} {c : PdkChange} (h : OnTime cv s) : OnTime cv (s.actChange c) := by
  grind [State.actChange, onTime_withChange, onTime_releaseWhole, onTime_advanceMemEpoch, onTime_scrubSheaf, onTime_foldl]

theorem onTime_settleResidents {s : State} {ms : List Nat} (h : OnTime cv s) : OnTime cv (s.settleResidents ms) := by
  grind [State.settleResidents, onTime_modSheaf, onTime_foldl]

theorem onTime_changeSheafPhase {s : State} {p m : Nat} {old : Phase} (h : OnTime cv s) : OnTime cv (s.changeSheafPhase p old m) := by
  grind [State.changeSheafPhase, onTime_closeEntry, onTime_raise, onTime_modTile, onTime_foldl]

theorem onTime_changePhase {s old : State} {p : Nat} (h : OnTime cv s) : OnTime cv (s.changePhase old p) := by
  refine onTime_ite h (onTime_foldl (fun s m h => ?_) _ _ h)
  exact onTime_ite (onTime_changeSheafPhase h) (onTime_ite (onTime_foldl (fun s e h => onTime_closeSaved h) _ _ h) h)

theorem onTime_stopForStart {s : State} {p start n : Nat} (h : OnTime cv s) : OnTime cv (s.stopForStart p start n) := by
  grind [State.stopForStart, onTime_modTile]

theorem onTime_stopForDebug {s : State} {n : Nat} (h : OnTime cv s) : OnTime cv (s.stopForDebug n) := by
  grind [State.stopForDebug, onTime_modTile]

theorem onTime_stopNamed {s : State} {c : ProgCmd} (h : OnTime cv s) : OnTime cv (s.stopNamed c) := by
  grind [State.stopNamed, onTime_stopForStart, onTime_stopForDebug, onTime_foldl]

theorem onTime_stopPrograms {s : State} (h : OnTime cv s) : OnTime cv (s.stopPrograms) := by
  grind [State.stopPrograms, onTime_stopNamed, onTime_foldl]

/-- What was staged is gone afterwards. -/
theorem onTime_installStaged {s : State} (hv : cv.staged none) (hg : s.time.gtc = cv.gtc) (ha : s.time.actDue = cv.actDue) :
    OnTime cv (s.installStaged) := by
  unfold State.installStaged
  split
  next hn => exact ⟨hg, ha, by rw [hn]; exact hv⟩
  next st _ =>
    have hstart : OnTime cv { s with staged := none } := ⟨hg, ha, hv⟩
    refine onTime_settleResidents (onTime_foldl (fun u c hu => onTime_actChange hu) _ _ (onTime_foldl (fun u p hu => onTime_changePhase hu) _ _
      (onTime_foldl (fun u x hu => onTime_modPdk hu) _ _ (onTime_installValues hstart))))

theorem onTime_endAborted {s : State} (h : OnTime cv s) : OnTime cv (s.endAborted) := by
  grind [State.endAborted, onTime_abortColl, onTime_foldl]

/-- The units act in no time, and leave nothing staged. -/
theorem onTime_actUnits {s : State} (hd : s.time.actDue = true) :
    OnTime { gtc := s.time.gtc, actDue := false, staged := fun x => x = none } (s.actUnits) := by
  have hkeys : OnTime { gtc := s.time.gtc, actDue := false, staged := fun _ => True }
      (paddockNumbers.foldl State.rotateKeys { s with time := { s.time with actDue := false } }) :=
    onTime_foldl (fun u p hu => onTime_rotateKeys hu) _ _ ⟨rfl, rfl, trivial⟩
  have hs : s.actUnits = ((((paddockNumbers.foldl State.rotateKeys { s with time := { s.time with actDue := false } }).installStaged).endAborted).stopPrograms).decideHolds := by
    unfold State.actUnits
    exact if_neg (by rw [hd]; decide)
  rw [hs]
  exact onTime_decideHolds (onTime_stopPrograms (onTime_endAborted (onTime_installStaged rfl hkeys.1 hkeys.2.1)))

theorem onTime_disableQueues {s : State} (h : OnTime cv s) : OnTime cv (s.disableQueues) := by
  grind [State.disableQueues, onTime_setReg, onTime_setShadow, onTime_foldl]

theorem onTime_installSealKeys {s : State} (h : OnTime cv s) : OnTime cv (s.installSealKeys) := by
  grind [State.installSealKeys, onTime_modPdk, onTime_foldl]

/-! ### UNITS_ACT and STRIDE_TICK -/

/-- The first positions of a stride are times of the GTC. -/
theorem now_advancePos (s : State) {pos : Nat} (h : pos ≤ 51615) : (s.advancePos pos).now = max s.now (s.stride * 100000 + pos) := by
  have hlt : s.now < 2 ^ 64 := s.time.gtc.isLt
  have hstride : s.stride = s.now / 100000 := rfl
  have hmin : min (s.stride * strideLen + pos) (s.stride * strideLen + (strideLen - 1)) = s.stride * 100000 + pos := by
    simp only [strideLen]
    omega
  unfold State.advancePos State.advanceTo
  rw [hmin]
  dsimp only
  split
  next hgt =>
    have hmod : (s.stride * 100000 + pos) % 2 ^ 64 = s.stride * 100000 + pos := Nat.mod_eq_of_lt (by omega)
    rw [State.now, State.setNow, BitVec.toNat_ofNat, hmod, max_eq_right (by omega)]
  next hle => rw [max_eq_left (by omega)]

theorem unitsAct_of_due {s : State} (hd : s.time.actDue = true) :
    s.unitsAct.time.actDue = false ∧ s.unitsAct.staged = none ∧ s.unitsAct.now = max s.now (s.stride * 100000 + 200) := by
  have hu : s.unitsAct = (s.advancePos 200).actUnits := if_neg (by rw [hd]; decide)
  have hdue : (s.advancePos 200).time.actDue = true := by
    unfold State.advancePos State.advanceTo
    dsimp only
    split <;> exact hd
  obtain ⟨hg, ha, hn⟩ := onTime_actUnits hdue
  rw [hu]
  exact ⟨ha, hn, (congrArg BitVec.toNat hg).trans (now_advancePos s (by decide))⟩

/-- The marks of a stride that has just begun. -/
def MarksStride (u : State) : Prop :=
  u.strideMark = u.now ∧ u.time.tickDue = false ∧ u.time.actDue = true ∧ u.time.fetchDue = true ∧ u.time.windowDue = true ∧
    u.time.readDue = true ∧ u.time.nextSpan = 0 ∧ u.sec.attThisTick = 0

/-- The state with the marks of a new stride. -/
def renewed (u : State) : State :=
  { u with
    sec := { u.sec with attThisTick := 0 }, strideMark := u.now,
    time := { u.time with tickDue := false, actDue := true, fetchDue := true, windowDue := true, readDue := true, nextSpan := 0 } }

theorem renewed_clock {u : State} (h : OnTime cv u) : (renewed u).time.gtc = cv.gtc ∧ MarksStride (renewed u) :=
  ⟨h.1, rfl, rfl, rfl, rfl, rfl, rfl, rfl, rfl⟩

theorem renew_clock {u : State} (h : OnTime cv u) : u.renew.time.gtc = cv.gtc ∧ MarksStride u.renew := by
  have hd : OnTime cv (paddockNumbers.foldl (fun s p => s.modPdk p fun x => { x with debugUsed := 0 }) u) :=
    onTime_foldl (fun u p hu => onTime_modPdk hu) _ _ h
  have he : u.renew = renewed (paddockNumbers.foldl (fun s p => s.modPdk p fun x => { x with debugUsed := 0 }) u) := rfl
  rw [he]
  exact renewed_clock hd

/-- What the tick samples before it looks at whether the part still runs. -/
def sampled (s : State) (x : Sensors) : State := (((s.ringWrite 2).sampleEnergy s.stride).readInput x.inputMv).sampleHeat x

theorem onTime_sampled {s : State} (h : OnTime cv s) (x : Sensors) : OnTime cv (sampled s x) :=
  onTime_sampleHeat (onTime_readInput (onTime_sampleEnergy (onTime_ringWrite h)))

theorem atTick_eq (s : State) (x : Sensors) : s.atTick x = if !(sampled s x).isRunning then sampled s x
    else (((((sampled s x).disableQueues.installSealKeys).commitTick).tetherTick).restoreTethers).renew := rfl

/-- What the tick does after the clock is set leaves the clock, until the new stride's marks are set. -/
theorem atTick_clock {s : State} {g : BitVec 64} (h : s.time.gtc = g) (x : Sensors) :
    (s.atTick x).time.gtc = g ∧ ((s.atTick x).isRunning = true → MarksStride (s.atTick x)) := by
  have hu : OnTime { gtc := g, actDue := s.time.actDue, staged := fun _ => True } (sampled s x) := onTime_sampled ⟨h, rfl, trivial⟩ x
  have he := atTick_eq s x
  generalize s.atTick x = r at he
  generalize sampled s x = u at hu he
  by_cases hr : u.isRunning = true
  · rw [hr, if_neg (by decide)] at he
    obtain ⟨hg, hm⟩ := renew_clock (onTime_restoreTethers (onTime_tetherTick (onTime_commitTick (fun _ => trivial)
      (onTime_installSealKeys (onTime_disableQueues hu)))))
    rw [he]
    exact ⟨hg, fun _ => hm⟩
  · rw [Bool.not_eq_true] at hr
    rw [hr, if_pos (by decide)] at he
    rw [he]
    exact ⟨hu.1, fun h => absurd (h.symm.trans hr) (by decide)⟩

theorem measured_gtc (u : State) (t e : Nat) : ((u.setNow t).measurePower e).time.gtc = BitVec.ofNat 64 t := by
  have h : OnTime { gtc := BitVec.ofNat 64 t, actDue := u.time.actDue, staged := fun _ => True } (u.setNow t) := ⟨rfl, rfl, trivial⟩
  exact (onTime_measurePower h).1

/-- Settles O31: the units act once, the tick sets the clock and every mark of the new stride, and an idle step one aclk. -/
theorem strideTick : Obligations.StrideTick := by
  refine ⟨fun s hp => ⟨fun hd => ?_, fun hd => ?_, fun x env hmax => ?_⟩, fun s hq => ?_⟩
  · have hx : exec .unitsAct s = .next s.unitsAct := exec_running hp
    rw [hx, State.unitsAct, hd]
    rfl
  · have hx : exec .unitsAct s = .next s.unitsAct := exec_running hp
    exact ⟨s.unitsAct, hx, unitsAct_of_due hd⟩
  · have hx : exec (.strideTick x env) s = .next (s.strideTick x env) := exec_running hp
    have hnext : s.nextTick = if s.time.tickDue then s.now else (s.stride + 1) * 100000 := rfl
    have hlt : s.nextTick < 2 ^ 64 := by
      rw [hnext]
      split
      · exact s.time.gtc.isLt
      · exact hmax
    have hset : ((((s.finishStride.closeAccounts x).setNow s.nextTick).measurePower x.energyUJ).takeEnv env).time.gtc =
        BitVec.ofNat 64 s.nextTick := by
      rw [takeEnv_time]
      exact measured_gtc _ _ _
    obtain ⟨hg, hmarks⟩ := atTick_clock hset x
    have hnow : (s.strideTick x env).now = s.nextTick := (congrArg BitVec.toNat hg).trans (Nat.mod_eq_of_lt hlt)
    refine ⟨s.strideTick x env, hx, hnow.trans hnext, fun hd => ?_, hmarks⟩
    have hpos : (s.strideTick x env).position = (s.strideTick x env).now % 100000 := rfl
    rw [hpos, hnow, hnext, hd]
    exact Nat.mul_mod_left _ _
  · have hone : s.setNow (s.now + 1) = { s with time := { s.time with gtc := s.time.gtc + 1 } } := by
      rw [State.setNow, State.now, BitVec.ofNat_add, BitVec.ofNat_toNat, BitVec.setWidth_eq]
      rfl
    have hx : step s = .next s.idle := by rw [step, hq]
    rw [hx]
    exact congrArg Host.Outcome.next (if_congr Iff.rfl rfl hone)

end Sys2Proof.Laws
end


section
/-!
SUPPORT. The rings of the Manger queues, and the replies (R56, R58, R384, R385, R393, R395).
-/

namespace Sys2Proof.Laws

open Sys2Proof.Machine Sys2Proof.Safety

/-! ### Records -/

theorem leNat_leBytes (n x : Nat) : leNat (leBytes n x) = x % 256 ^ n := by
  induction n generalizing x with
  | zero => rw [Nat.pow_zero, Nat.mod_one]; rfl
  | succ n ih =>
    rw [leBytes, leNat, ih, Nat.pow_succ', Nat.mod_mul, BitVec.toNat_ofNat]
    omega

/-- A word of eight bytes at its place in a record reads back. -/
theorem recordWord_append (pre post : List Byte) (i : Nat) (h : pre.length = 8 * i) (x : Nat) :
    recordWord (pre ++ (leBytes 8 x ++ post)) i = BitVec.ofNat 64 x := by
  have h8 : (leBytes 8 x ++ post).take 8 = leBytes 8 x := List.take_left' (leBytes_length 8 x)
  rw [recordWord, ← h, List.drop_left, h8, leNat_leBytes, ← BitVec.toNat_inj, BitVec.toNat_ofNat, BitVec.toNat_ofNat,
    Nat.mod_mod_of_dvd _ (by decide)]

/-- Word `i` of a record that begins with 64-bit words. -/
theorem recordWord_words (ws : List Nat) (post : List Byte) (i : Nat) (h : i < ws.length) :
    recordWord (ws.flatMap (leBytes 8) ++ post) i = BitVec.ofNat 64 ws[i] := by
  have hlen (l : List Nat) : (l.flatMap (leBytes 8)).length = 8 * l.length := by
    induction l with
    | nil => rfl
    | cons x l ih =>
      rw [List.flatMap_cons, List.length_append, leBytes_length, ih, List.length_cons]
      omega
  have hsplit : ws.flatMap (leBytes 8) ++ post =
      (ws.take i).flatMap (leBytes 8) ++ (leBytes 8 ws[i] ++ ((ws.drop (i + 1)).flatMap (leBytes 8) ++ post)) := by
    conv_lhs => rw [← List.take_append_drop i ws, List.drop_eq_getElem_cons h]
    rw [List.flatMap_append, List.flatMap_cons, List.append_assoc, List.append_assoc]
  rw [hsplit]
  exact recordWord_append _ _ i (by rw [hlen, List.length_take_of_le (Nat.le_of_lt h)]) _

/-! ### Fetching -/

/-- HEAD after one slot of a queue with `n` slots. -/
theorem queueHead_next {x : QueueHead} {n : Nat} (hh : x.head.toNat < n) (hn : n ≤ 32768) :
    (x.next n).head.toNat = (x.head.toNat + 1) % n ∧ (x.next n).phase = (if x.head.toNat + 1 < n then x.phase else !x.phase) := by
  unfold QueueHead.next
  split
  next he =>
    rw [he, Nat.mod_self, if_neg (Nat.lt_irrefl n)]
    exact ⟨rfl, rfl⟩
  next hne =>
    have hlt : x.head.toNat + 1 < n := by omega
    rw [Nat.mod_eq_of_lt hlt, if_pos hlt]
    refine ⟨?_, rfl⟩
    have hone : (1 : BitVec 16).toNat = 1 := rfl
    rw [BitVec.toNat_add, hone]
    exact Nat.mod_eq_of_lt (by omega)

/-- What a fetch adds for one slot. -/
def fetchedSlot (s : State) (q slot : Nat) (c : CmdRec) : Fetched :=
  { queue := q, slot := slot, rbase := BitVec.ofNat 48 (s.field (.qRbase q) 0 48), paddock := s.field (.qCtl q) 16 4, stride := s.stride, cmd := c }

/-- The state after one slot is taken. -/
def takeSlot (s : State) (q n : Nat) (c : CmdRec) : State :=
  { s.modQueue q fun x => x.next n with
    host := { (s.modQueue q fun x => x.next n).host with
      fetched := (s.modQueue q fun x => x.next n).host.fetched ++ [fetchedSlot s q (s.queue q).head.toNat c] } }

theorem takeSlots_cons (s : State) (q n : Nat) (c : CmdRec) (rest : List CmdRec) :
    s.takeSlots q n (c :: rest) = if bit c.w0 8 ≠ (s.queue q).phase then s else (takeSlot s q n c).takeSlots q n rest := rfl

theorem queue_takeSlot {s : State} {q : Nat} (hs : Tbl.sorted s.host.heads = true) (n : Nat) (c : CmdRec) :
    (takeSlot s q n c).queue q = (s.queue q).next n ∧ Tbl.sorted (takeSlot s q n c).host.heads = true :=
  ⟨Tbl.get_put_same _ _ _ _ hs, Tbl.sorted_put _ _ _ _ hs⟩

/-- The phase expected of slot `j` from HEAD. -/
def expectedPhase (x : QueueHead) (n j : Nat) : Bool := if x.head.toNat + j < n then x.phase else !x.phase

theorem expectedPhase_next {x : QueueHead} {n j : Nat} (hh : x.head.toNat < n) (hn : n ≤ 32768) (hj : j < n) :
    expectedPhase (x.next n) n j = expectedPhase x n (j + 1) := by
  obtain ⟨h1, h2⟩ := queueHead_next hh hn
  rw [expectedPhase, h1, h2, expectedPhase]
  by_cases hlt : x.head.toNat + 1 < n
  · rw [Nat.mod_eq_of_lt hlt, if_pos hlt, show x.head.toNat + 1 + j = x.head.toNat + (j + 1) by omega]
  · have he : x.head.toNat + 1 = n := by omega
    rw [he, Nat.mod_self, if_neg (Nat.lt_irrefl n), if_pos (by omega), if_neg (by omega)]

/-- What taking `k` slots of the list `l` leaves. -/
def SlotsTaken (s u : State) (q n : Nat) (l : List CmdRec) (k : Nat) : Prop :=
  u.host.fetched = s.host.fetched ++ (List.range k).map (fun j => fetchedSlot s q (((s.queue q).head.toNat + j) % n) (l.getD j {})) ∧
    (u.queue q).head.toNat = ((s.queue q).head.toNat + k) % n ∧ (u.queue q).phase = expectedPhase (s.queue q) n k

theorem slotsTaken_zero {s : State} {q n : Nat} (hh : (s.queue q).head.toNat < n) (l : List CmdRec) : SlotsTaken s s q n l 0 := by
  rw [SlotsTaken, expectedPhase, Nat.add_zero, if_pos hh, Nat.mod_eq_of_lt hh]
  exact ⟨(List.append_nil _).symm, rfl, rfl⟩

theorem slotsTaken_succ {s u : State} {q n k : Nat} {c : CmdRec} {l : List CmdRec} (hs : Tbl.sorted s.host.heads = true) (hn : n ≤ 32768)
    (hh : (s.queue q).head.toNat < n) (hk : k < n) (h : SlotsTaken (takeSlot s q n c) u q n l k) : SlotsTaken s u q n (c :: l) (k + 1) := by
  obtain ⟨h1, h2, h3⟩ := h
  obtain ⟨hq, -⟩ := queue_takeSlot hs n c
  obtain ⟨hhead, -⟩ := queueHead_next hh hn
  have hmod (j : Nat) : (((s.queue q).head.toNat + 1) % n + j) % n = ((s.queue q).head.toNat + (j + 1)) % n := by
    rw [Nat.mod_add_mod]
    congr 1
    omega
  have hslot (slot : Nat) (x : CmdRec) : fetchedSlot (takeSlot s q n c) q slot x = fetchedSlot s q slot x := rfl
  have hfront : (takeSlot s q n c).host.fetched = s.host.fetched ++ [fetchedSlot s q (s.queue q).head.toNat c] := rfl
  refine ⟨?_, ?_, ?_⟩
  · rw [h1, hfront, List.range_succ_eq_map, List.map_cons, List.map_map, hq, hhead, List.append_assoc, List.singleton_append, Nat.add_zero (s.queue q).head.toNat,
      Nat.mod_eq_of_lt hh]
    simp only [hmod, hslot]
    rfl
  · rw [h2, hq, hhead, hmod]
  · rw [h3, hq, expectedPhase_next hh hn hk]

/-- The slots up to the first of another phase are taken in ring order, and HEAD moves past them. -/
theorem takeSlots_spec {n : Nat} (hn : n ≤ 32768) (q : Nat) (l : List CmdRec) (s : State) (k : Nat) (hs : Tbl.sorted s.host.heads = true)
    (hh : (s.queue q).head.toNat < n) (hl : l.length ≤ n) (hk : k ≤ l.length)
    (hbefore : ∀ j < k, bit ((l.getD j {}).w0) 8 = expectedPhase (s.queue q) n j)
    (hstop : k < l.length → bit ((l.getD k {}).w0) 8 ≠ expectedPhase (s.queue q) n k) : SlotsTaken s (s.takeSlots q n l) q n l k := by
  induction l generalizing s k with
  | nil =>
    obtain rfl : k = 0 := Nat.le_zero.1 hk
    exact slotsTaken_zero hh []
  | cons c l ih =>
    have hfirst : expectedPhase (s.queue q) n 0 = (s.queue q).phase := if_pos hh
    cases k with
    | zero =>
      have hne : bit c.w0 8 ≠ (s.queue q).phase := by
        rw [← hfirst]
        exact hstop (Nat.succ_pos _)
      rw [takeSlots_cons, if_pos hne]
      exact slotsTaken_zero hh _
    | succ k =>
      have hphase : bit c.w0 8 = (s.queue q).phase := (hbefore 0 (Nat.succ_pos k)).trans hfirst
      obtain ⟨hq, hsort⟩ := queue_takeSlot hs n c
      obtain ⟨hhead, -⟩ := queueHead_next hh hn
      have hklen : k ≤ l.length := Nat.le_of_succ_le_succ hk
      have hlen : l.length < n := hl
      rw [takeSlots_cons, if_neg (fun h => h hphase)]
      refine slotsTaken_succ hs hn hh (by omega) (ih (takeSlot s q n c) k hsort ?_ (by omega) hklen (fun j hj => ?_) fun hj => ?_)
      · rw [hq, hhead]
        exact Nat.mod_lt _ (by omega)
      · rw [hq, expectedPhase_next hh hn (by omega)]
        exact hbefore (j + 1) (Nat.succ_lt_succ hj)
      · rw [hq, expectedPhase_next hh hn (by omega)]
        exact hstop (Nat.succ_lt_succ hj)

theorem queueSize_le (s : State) (q : Nat) : s.queueSize q ≤ 32768 := by
  have h : s.field (.qCtl q) 8 4 < 2 ^ 4 := Nat.mod_lt _ (by decide)
  exact Nat.pow_le_pow_right (j := 15) (by decide) (by omega)

theorem fetchQueue_late {s : State} {late : List Nat} {q : Nat} {cs : List CmdRec} (hen : s.field (.qCtl q) 0 1 = 1)
    (hr : s.host.slotsRead.find? (fun x => decide (x.1 = q)) = some (q, cs)) (hl : q ∈ late) : s.fetchQueue late q = s.lateRead q := by
  rw [State.fetchQueue, hr]
  dsimp only
  rw [if_neg (by rw [hen]; decide), if_pos (List.contains_iff_mem.2 hl)]

theorem fetchQueue_inTime {s : State} {late : List Nat} {q : Nat} {cs : List CmdRec} (hen : s.field (.qCtl q) 0 1 = 1)
    (hr : s.host.slotsRead.find? (fun x => decide (x.1 = q)) = some (q, cs)) (hl : q ∉ late) :
    s.fetchQueue late q = s.takeSlots q (s.queueSize q) (cs.take (s.field (.qCtl q) 32 9)) := by
  rw [State.fetchQueue, hr]
  dsimp only
  rw [if_neg (by rw [hen]; decide), if_neg (fun h => hl (List.contains_iff_mem.1 h))]

/-! ### Replies -/

/-- The first word of a reply. -/
def replyHead (r : Reply) : BitVec 64 :=
  pack 64 [(32, 32, bits r.w0 32 32), (24, 8, r.note.toNat), (16, 8, r.result.toNat), (8, 1, bits r.w0 8 1), (0, 8, bits r.w0 0 8)]

/-- The counts of records that a reply names: none to a tenant. -/
def replyCounts (s : State) (r : Reply) : BitVec 64 :=
  if decide (r.paddock ≠ 0) then 0 else pack 64 [(32, 32, s.gleaner.written.toNat), (0, 32, s.gleaner.dropped.toNat)]

theorem replyBytes_eq (s : State) (r : Reply) : s.replyBytes r =
    [(replyHead r).toNat, bits (s.replyStatus (decide (r.paddock ≠ 0))) 0 32, r.actStride % 2 ^ 47, r.detail.toNat, (replyCounts s r).toNat,
      s.now].flatMap (leBytes 8) ++ leBytes 16 0 := by
  simp only [List.flatMap_cons, List.flatMap_nil, List.append_nil, List.append_assoc]
  simp only [State.replyBytes, List.append_assoc]
  rfl

/-- The words of a reply, in order. -/
theorem replyBytes_words (s : State) (r : Reply) :
    recordWord (s.replyBytes r) 0 = replyHead r ∧ recordWord (s.replyBytes r) 3 = r.detail ∧ recordWord (s.replyBytes r) 5 = s.time.gtc ∧
      (s.replyBytes r).length = 64 ∧ (r.paddock ≠ 0 → recordWord (s.replyBytes r) 4 = 0) := by
  rw [replyBytes_eq]
  refine ⟨?_, ?_, ?_, ?_, fun hp => ?_⟩
  · rw [recordWord_words _ _ 0 (by simp)]
    exact BitVec.ofNat_toNat _ _
  · rw [recordWord_words _ _ 3 (by simp)]
    exact BitVec.ofNat_toNat _ _
  · rw [recordWord_words _ _ 5 (by simp)]
    exact BitVec.ofNat_toNat _ _
  · simp only [List.flatMap_cons, List.flatMap_nil, List.append_nil, List.length_append, leBytes_length]
  · rw [recordWord_words _ _ 4 (by simp)]
    simp [replyCounts, hp]

theorem writeReplies_of_due {s : State} (hup : s.host.up = true) (hdue : ∃ r ∈ s.host.replies, s.replyDue r = true) :
    let u := s.advancePos 1200
    s.writeReplies true = (u.host.replies.filter u.replyDue).foldl
      (fun v r => v.masterWrite srcHost r.paddock (r.rbase.toNat + 64 * r.slot) (v.replyBytes r))
      { u with host := { u.host with replies := u.host.replies.filter fun r => !u.replyDue r } } := by
  have hany : s.host.replies.any s.replyDue = true := List.any_eq_true.2 hdue
  have hput : State.putReply = fun v r => v.masterWrite srcHost r.paddock (r.rbase.toNat + 64 * r.slot) (v.replyBytes r) := rfl
  unfold State.writeReplies
  rw [hup, hany, hput, if_neg (by decide)]

theorem expireReplies_eq (s : State) :
    let u := (s.host.replies.filter s.replyLate).foldl (fun v r => v.raise srcHost evtReplyLate (queuePayload r.queue r.slot (bits r.w0 32 32))) s
    s.expireReplies = { u with host := { u.host with
      replies := (u.host.replies.map fun r => { r with late := r.late || s.replyLate r }).filter fun r => !(r.dropped && r.late) } } := by
  intro u
  have hlate (r : Reply) : (if s.replyLate r then { r with late := true } else r) = { r with late := r.late || s.replyLate r } := by
    cases h : s.replyLate r with
    | true => rw [if_pos rfl, Bool.or_true]
    | false => rw [if_neg (by decide), Bool.or_false]
  unfold State.expireReplies
  simp only [hlate]
  rfl

/-! ### Reading and fetching once a stride -/

theorem mangerRead_of_due {s : State} (hr : s.time.readDue = true) (hup : s.host.up = true) :
    let u := { s with time := { s.time with readDue := false } }.advancePos 96000
    s.mangerRead = { u with host := { u.host with
      slotsRead := ((List.range 16).filter fun q => decide (u.field (.qCtl q) 0 1 = 1)).map fun q => (q, u.readSlots q) } } := by
  unfold State.mangerRead queueNumbers
  rw [hr, hup, if_neg (by decide)]

theorem mangerFetch_of_due {s : State} (late : List Nat) (hf : s.time.fetchDue = true) (hup : s.unitsAct.host.up = true) :
    let u := { s.unitsAct with time := { s.unitsAct.time with fetchDue := false } }
    let v := (List.range 16).foldl (fun v q => v.fetchQueue late q) u
    s.mangerFetch late = { v with host := { v.host with slotsRead := [] } } := by
  unfold State.mangerFetch queueNumbers
  rw [hf, if_neg (by decide)]
  generalize s.unitsAct = w at hup
  dsimp only
  rw [hup, if_neg (by decide)]

/-! ### The statement -/

/-- Settles O32: the queues are read and fetched slot by slot, and the replies due are written, each in the words of R393. -/
theorem mangerRings : Obligations.MangerRings := by
  refine ⟨⟨fun s env hp hr hup => ?_, fun s late hp hf hup => ?_, fun s late q cs hen hr => ⟨fun hl => ?_, fun hl hs k => ?_⟩⟩,
    fun s hp hup => ?_, fun s r hp => ⟨?_, replyBytes_words s r⟩, fun s hp => ?_⟩
  · have hx : exec (.mangerRead env) s = .next (s.takeEnv env).mangerRead := exec_running hp
    intro e u
    obtain ⟨mem, units, words, he⟩ := takeEnv_eq s env
    have hr : e.time.readDue = true := by
      simp only [e, he]
      exact hr
    have hup : e.host.up = true := by
      simp only [e, he]
      exact hup
    rw [hx, mangerRead_of_due hr hup]
  · have hx : exec (.mangerFetch late) s = .next (s.mangerFetch late) := exec_running hp
    intro u hu
    rw [hx, mangerFetch_of_due late hf hu]
  · rw [fetchQueue_late hen hr hl]
    rfl
  · intro n h x expected hh hlen hk hbefore hstop
    have hspec := takeSlots_spec (queueSize_le s q) q x s k hs hh hlen hk hbefore hstop
    rw [fetchQueue_inTime hen hr hl]
    exact hspec
  · have hx : exec (.replyWrite true) s = .next (s.writeReplies true) := exec_running hp
    intro due
    have hd : due = State.replyDue := rfl
    clear_value due
    subst hd
    intro u hdue
    rw [hx, writeReplies_of_due hup hdue]
  · have hx : exec (.replyWrite false) s = .next (s.writeReplies false) := exec_running hp
    rw [hx]
    rfl
  · intro late u
    have hx : exec .replyBoundExpiry s = .next s.expireReplies := exec_running hp
    rw [hx, expireReplies_eq]
    rfl

end Sys2Proof.Laws
end


section
/-!
SUPPORT. What every Manger command meets before its own checks, NOP and the reserved opcodes (R7, R388 to R390, R403, R417).
-/

namespace Sys2Proof.Laws

open Sys2Proof.Machine Sys2Proof.Safety

/-- What a command does: the state and the answer that its own rules give. -/
abbrev Conduct := State → Fetched → Nat → State × Answer

/-- The command at the front is acted on where `perform` names its opcode. -/
theorem perform_of_front {s : State} {c : Fetched} {rest : List Fetched} {p : Nat → Bool} (f : Conduct) (hq : s.host.fetched = c :: rest)
    (hp : p c.cmd.opcode = true) :
    s.perform p f = (f (acting s) c s.host.nextReply).1.answer c s.host.nextReply (f (acting s) c s.host.nextReply).2 := by
  have hdrop : s.host.fetched.drop 1 = rest := by rw [hq]; rfl
  rw [acting, hdrop, State.perform, hq]
  dsimp only
  rw [hp, if_neg (by decide)]

theorem perform_of_other {s : State} {c : Fetched} {rest : List Fetched} {p : Nat → Bool} (f : Conduct) (hq : s.host.fetched = c :: rest)
    (hp : p c.cmd.opcode = false) : s.perform p f = s := by
  rw [State.perform, hq]
  dsimp only
  rw [hp, if_pos (by decide)]

/-- What a command row makes of the state before its own checks. -/
def admitted (operator : Bool) (count : Option (Option Nat)) (f : Conduct) : Conduct := fun s c id =>
  if !s.accepts c.paddock || (operator && decide (c.paddock ≠ 0)) then (s, .refused noteOwner)
  else
    match count with
    | none => f s c id
    | some want =>
      if c.cmd.count = 0 then (s, .zeroLength)
      else if (want.map fun n => decide (n ≠ c.cmd.count)).getD false then (s, .illegal)
      else f s c id

theorem command_of_front {s : State} {c : Fetched} {rest : List Fetched} {op : Nat} (operator : Bool) (count : Option (Option Nat)) (f : Conduct)
    (hq : s.host.fetched = c :: rest) (ho : c.cmd.opcode = op) :
    s.command op operator count f = (admitted operator count f (acting s) c s.host.nextReply).1.answer c s.host.nextReply
      (admitted operator count f (acting s) c s.host.nextReply).2 :=
  perform_of_front _ hq (decide_eq_true ho)

theorem command_of_other {s : State} {c : Fetched} {rest : List Fetched} {op : Nat} (operator : Bool) (count : Option (Option Nat)) (f : Conduct)
    (hq : s.host.fetched = c :: rest) (ho : c.cmd.opcode ≠ op) : s.command op operator count f = s :=
  perform_of_other _ hq (decide_eq_false ho)

section
variable {u : State} {c : Fetched} {id : Nat} {operator : Bool} {count : Option (Option Nat)} {f : Conduct}

theorem admitted_of_releasing (h : (u.composed.pdk c.paddock).state = .releasing) : admitted operator count f u c id = (u, .refused noteOwner) :=
  if_pos (by simp [State.accepts, h])

theorem admitted_of_operator (ho : operator = true) (hp : c.paddock ≠ 0) : admitted operator count f u c id = (u, .refused noteOwner) :=
  if_pos (by simp [ho, hp])

/-- A command whose paddock accepts it and may send it comes to its COUNT. -/
theorem admitted_of_open (h : (u.composed.pdk c.paddock).state ≠ .releasing) (ho : operator = true → c.paddock = 0) :
    admitted operator count f u c id = match count with
      | none => f u c id
      | some want =>
        if c.cmd.count = 0 then (u, .zeroLength)
        else if (want.map fun n => decide (n ≠ c.cmd.count)).getD false then (u, .illegal)
        else f u c id := by
  refine if_neg ?_
  cases operator with
  | false => simp [State.accepts, h]
  | true =>
    rw [ho rfl] at h
    simp [State.accepts, h, ho rfl]

end

theorem refused_owner : Answer.refused noteOwner = { result := 1, note := 0x14, detail := 0, settled := true } := rfl

theorem zeroLength_eq : Answer.zeroLength = { result := 0, note := 0x01, detail := 0, settled := true } := rfl

theorem illegal_eq : Answer.illegal = { result := 3, note := 0x20, detail := 0, settled := true } := rfl

/-- A row of the table runs `command` with what the table says of it. -/
def RunsCommand (q : Instr × (State → State) × Nat × Bool × Option (Option Nat)) : Prop :=
  ∃ f : Conduct, ∀ s : State, s.isRunning = true → exec q.1 s = .next ((q.2.1 s).command q.2.2.1 q.2.2.2.1 q.2.2.2.2 f)

theorem mangerTable_runs (env : Env) : ∀ q ∈ mangerTable env, RunsCommand q := by
  intro q hq
  simp only [mangerTable, List.mem_cons, List.not_mem_nil, or_false] at hq
  rcases hq with rfl | rfl | rfl | rfl | rfl | rfl | rfl | rfl | rfl | rfl | rfl | rfl | rfl | rfl | rfl | rfl | rfl | rfl <;>
    exact ⟨_, fun s hp => exec_running hp⟩

@[simp] theorem takeEnv_host (s : State) (env : Env) : (s.takeEnv env).host = s.host := by
  obtain ⟨mem, units, words, h⟩ := takeEnv_eq s env
  rw [h]
  rfl

/-- What the outside does before any row of the table leaves the fetched commands. -/
theorem mangerTable_keeps (env : Env) : ∀ q ∈ mangerTable env, ∀ s : State, (q.2.1 s).host = s.host := by
  intro q hq s
  simp only [mangerTable, List.mem_cons, List.not_mem_nil, or_false] at hq
  rcases hq with rfl | rfl | rfl | rfl | rfl | rfl | rfl | rfl | rfl | rfl | rfl | rfl | rfl | rfl | rfl | rfl | rfl | rfl
  all_goals simp

/-- `Answers` from what the row of the table runs, once its paddock accepts it and its COUNT is one it takes. -/
theorem answers_of_command {i : Instr} {before : State → State} {op : Nat} {operator : Bool} {count : Option (Option Nat)} {ok : State → Fetched → Prop}
    {f : Conduct} (g : Conduct) (hx : ∀ s, s.isRunning = true → exec i s = .next ((before s).command op operator count g))
    (hb : ∀ s, (before s).host = s.host)
    (hok : ∀ u c id, (u.composed.pdk c.paddock).state ≠ .releasing → ok u c → admitted operator count g u c id = f u c id) :
    Answers i before op ok f := by
  intro s c rest hp hq ho u hacc hc
  have hq' : (before s).host.fetched = c :: rest := by rw [hb, hq]
  have hid : (before s).host.nextReply = s.host.nextReply := by rw [hb]
  rw [hx s hp, command_of_front operator count g hq' ho, hid, hok _ c _ hacc hc]

/-- A COUNT that a command takes. -/
def CountOk (count : Option (Option Nat)) (n : Nat) : Prop := ∀ want, count = some want → n ≠ 0 ∧ ∀ k, want = some k → n = k

/-- A command that its paddock may send and whose COUNT is one it takes comes to its own rules. -/
theorem admitted_of_count {u : State} {c : Fetched} {operator : Bool} {count : Option (Option Nat)} {f : Conduct} (id : Nat)
    (h : (u.composed.pdk c.paddock).state ≠ .releasing) (ho : operator = true → c.paddock = 0) (hc : CountOk count c.cmd.count) :
    admitted operator count f u c id = f u c id := by
  rw [admitted_of_open h ho]
  cases count with
  | none => rfl
  | some want =>
    obtain ⟨h0, hk⟩ := hc want rfl
    dsimp only
    rw [if_neg h0]
    cases want with
    | none => rfl
    | some k => exact if_neg (by simp [hk k rfl])

/-! ### The statement -/

theorem reservedCommand_of_front {s : State} {c : Fetched} {rest : List Fetched} (hp : s.isRunning = true) (hq : s.host.fetched = c :: rest)
    (ho : c.cmd.opcode ∉ knownOpcodes) :
    exec .reservedCommand s = .next ((acting s).answer c s.host.nextReply { result := 3, note := 0x20 }) := by
  have hx : exec .reservedCommand s = .next (s.perform (fun o => !knownOpcodes.contains o) fun s _ _ => (s, .illegal)) := exec_running hp
  rw [hx, perform_of_front _ hq (by simpa using ho), illegal_eq]

/-- Settles O33: the checks that come before a command's own, in their order, for every row of the table. -/
theorem commandAdmission : Obligations.CommandAdmission := by
  refine ⟨fun s env c rest hp hq q hmem => ?_, ?_, fun s c rest hp hq ho => reservedCommand_of_front hp hq ho⟩
  · obtain ⟨f, hf⟩ := mangerTable_runs env q hmem
    have hhost := mangerTable_keeps env q hmem s
    have hq' : (q.2.1 s).host.fetched = c :: rest := by rw [hhost, hq]
    have hid : (q.2.1 s).host.nextReply = s.host.nextReply := by rw [hhost]
    intro u answered
    refine ⟨fun ho => ?_, fun ho => ?_⟩
    · have hx := hf s hp
      rw [command_of_front _ _ f hq' ho, hid] at hx
      refine ⟨fun hrel => ?_, fun hop hpdk => ?_, fun hacc hop want hw => ⟨fun h0 => ?_, fun k hk h0 hne => ?_⟩⟩
      · rw [admitted_of_releasing hrel, refused_owner] at hx
        simp only [answered]
        rw [hx]
      · rw [admitted_of_operator hop hpdk, refused_owner] at hx
        simp only [answered]
        rw [hx]
      · rw [admitted_of_open hacc hop, hw] at hx
        dsimp only at hx
        rw [if_pos h0, zeroLength_eq] at hx
        simp only [answered]
        rw [hx]
      · rw [admitted_of_open hacc hop, hw, hk] at hx
        dsimp only at hx
        rw [if_neg h0, if_pos (by simpa using Ne.symm hne), illegal_eq] at hx
        simp only [answered]
        rw [hx]
    · rw [hf s hp, command_of_other _ _ f hq' ho]
  · exact answers_of_command (fun s _ _ => (s, .ok)) (fun s hp => exec_running hp) (fun _ => rfl) fun u c id hacc _ =>
      admitted_of_count id hacc (fun h => absurd h (by decide)) fun want h => absurd h (by simp)

end Sys2Proof.Laws
end


section
/-!
SUPPORT. The pairs and the arm mask of a CONFIG (R391).
-/

namespace Sys2Proof.Laws

open Sys2Proof.Machine Sys2Proof.Safety

section
variable {α β : Type} {l : List (Option α × β)}

/-- A list whose items all name something has no first item that names nothing. -/
theorem find?_unnamed_eq_none (h : ∀ x ∈ l.map Prod.fst, x ≠ none) : (l.zipIdx.find? fun x => x.1.1.isNone) = none := by
  refine List.find?_eq_none.2 fun x hx => ?_
  have hmem : x.1 ∈ l := List.fst_mem_of_mem_zipIdx hx
  simpa using h _ (List.mem_map_of_mem hmem)

/-- The first item that names nothing, with its index. -/
theorem find?_unnamed_eq_some {k : Nat} (hk : (l.map Prod.fst)[k]? = some none) (hj : ∀ j < k, (l.map Prod.fst)[j]? ≠ some none) :
    ∃ x, (l.zipIdx.find? fun x => x.1.1.isNone) = some x ∧ x.2 = k := by
  rw [List.getElem?_map, Option.map_eq_some_iff] at hk
  obtain ⟨a, ha, hn⟩ := hk
  obtain ⟨hlt, rfl⟩ := List.getElem?_eq_some_iff.1 ha
  refine ⟨(l[k], k), List.find?_eq_some_iff_getElem.2 ⟨by simp [hn], k, by simpa using hlt, by simp, fun j hjk => ?_⟩, rfl⟩
  have h := hj j hjk
  have hlj : j < l.length := hjk.trans hlt
  rw [List.getElem?_map, List.getElem?_eq_getElem hlj] at h
  cases hx : l[j].1 with
  | none => exact absurd (by simp [hx]) h
  | some r => simp [hx]

end

theorem bit_maskOf_one {g : Nat} (k : Nat) (h : g < 64) : bit (maskOf g 1) k = decide (k = g) := by
  rw [bit, maskOf, BitVec.getLsbD_ofNat, Nat.testBit_shiftLeft]
  by_cases hk : k = g
  · simp [hk, h]
  · by_cases hle : g ≤ k
    · have hpos : 0 ≠ k - g := by omega
      simp [hk, show Nat.testBit 1 (k - g) = false from Nat.testBit_two_pow_of_ne hpos]
    · simp [hk, hle]

theorem bit_armable {p : Nat} (g : Nat) (hp : p < 16) : bit (armable p) g = decide (g = p ∨ (p = 0 ∧ g = 16)) := by
  have hor (x y : BitVec 64) : bit (x ||| y) g = (bit x g || bit y g) := BitVec.getLsbD_or
  rw [armable, hor, bit_maskOf_one g (by omega)]
  by_cases h0 : p = 0
  · rw [if_pos h0, bit_maskOf_one g (show groupGlobal < 64 by decide)]
    simp [h0, show groupGlobal = 16 from rfl]
  · rw [if_neg h0]
    simp [h0, bit]

/-- An arm mask holds no more than its queue may arm. -/
theorem andNot_armable_eq_zero {p : Nat} (hp : p < 16) (x : BitVec 64) :
    x &&& ~~~armable p = 0 ↔ ∀ g, bit x g = true → g = p ∨ (p = 0 ∧ g = 16) := by
  have hbit (g : Nat) : bit (x &&& ~~~armable p) g = (bit x g && (decide (g < 64) && !decide (g = p ∨ (p = 0 ∧ g = 16)))) := by
    rw [← bit_armable g hp]
    simp [bit]
  constructor
  · intro h g hg
    have hz := hbit g
    rw [h, hg, decide_eq_true (show g < 64 from BitVec.lt_of_getLsbD hg)] at hz
    simpa [bit, Classical.or_iff_not_imp_left] using hz
  · intro h
    refine BitVec.eq_of_getLsbD_eq fun g hg => ?_
    refine (hbit g).trans ?_
    cases hx : bit x g with
    | false => simp
    | true => simp [h g hx]

theorem config_of_many {s : State} {c : Fetched} (h : 256 < c.cmd.count) : s.config c = (s, { result := 3, note := 0x20 }) := if_pos h

theorem config_of_unread {s u : State} {c : Fetched} (hn : c.cmd.count ≤ 256)
    (hr : s.readOperand c.paddock c.cmd.arg (16 * c.cmd.count) = (u, none)) : s.config c = (u, { result := 2, note := 0x21 }) := by
  unfold State.config
  dsimp only
  rw [if_neg (show ¬ maxPairs < c.cmd.count from Nat.not_lt.2 hn), hr]
  rfl

/-- The pairs of a CONFIG with the registers that they name. -/
def namedPairs (s : State) (c : Fetched) (bs : List Byte) : List (Option Reg × BitVec 64) :=
  (pairsOf bs c.cmd.count).map fun x => (s.configTarget c.paddock x.1, x.2)

theorem config_of_read {s u : State} {c : Fetched} {bs : List Byte} (hn : c.cmd.count ≤ 256)
    (hr : s.readOperand c.paddock c.cmd.arg (16 * c.cmd.count) = (u, some bs)) :
    s.config c = match (namedPairs u c bs).zipIdx.find? fun x => x.1.1.isNone with
      | some x => (u, .refused noteOwner x.2)
      | none =>
        if (c.cmd.w5 &&& maskOf 0 17) &&& ~~~armable c.paddock ≠ 0 then (u, .refused noteOwner)
        else (((namedPairs u c bs).foldl (fun s x => match x.1 with | some r => s.configWrite r x.2 | none => s) u).armGroups
          (c.cmd.w5 &&& maskOf 0 17), .ok) := by
  unfold State.config
  dsimp only
  rw [if_neg (show ¬ maxPairs < c.cmd.count from Nat.not_lt.2 hn), hr]
  rfl

/-- The pairs written one after another (R391). -/
theorem foldl_namedPairs (s u : State) (c : Fetched) (bs : List Byte) :
    (namedPairs s c bs).foldl (fun s x => match x.1 with | some r => s.configWrite r x.2 | none => s) u =
      (((pairsOf bs c.cmd.count).map fun x => s.configTarget c.paddock x.1).zip ((pairsOf bs c.cmd.count).map Prod.snd)).foldl
        (fun w x => match x.1 with | some r => w.writeReg r (~~~w.barBits r) x.2 | none => w) u := by
  rw [List.zip_map']
  rfl

theorem map_fst_namedPairs (s : State) (c : Fetched) (bs : List Byte) :
    (namedPairs s c bs).map Prod.fst = (pairsOf bs c.cmd.count).map fun x => s.configTarget c.paddock x.1 := by
  rw [namedPairs, List.map_map]
  rfl

theorem readOperand_eq {s : State} {p a n : Nat} {r : Option (List Byte)} (h : (s.readOperand p a n).2 = r) :
    s.readOperand p a n = ((s.readOperand p a n).1, r) := Prod.ext rfl h

/-- The row of CONFIG, from what its own rules give. -/
theorem config_answers {env : Env} {ok : State → Fetched → Prop} {f : Conduct} (hc : ∀ u c, ok u c → c.cmd.count ≠ 0)
    (hf : ∀ u c id, ok u c → u.config c = f u c id) : Answers (.config env) (fun s => s.takeEnv env) 0x02 ok f :=
  answers_of_command (fun s c _ => s.config c) (fun s hp => exec_running hp) (fun s => takeEnv_host s env) fun u c id hacc hok =>
    (admitted_of_count id hacc (fun h => absurd h (by decide)) fun want h => by
      cases h
      exact ⟨hc u c hok, fun k hk => absurd hk (by simp)⟩).trans (hf u c id hok)

/-- Settles O34: each case of CONFIG is the branch of its rules that the read and the first unnamed pair select. -/
theorem configWrites : Obligations.ConfigWrites := by
  intro env
  refine ⟨fun bs => config_answers (fun _ _ h => h.1) ?_, fun bs k => config_answers (fun _ _ h => h.1) ?_,
    fun bs => config_answers (fun _ _ h => h.1) ?_, config_answers (fun _ _ h => h.1) ?_, config_answers (fun _ _ h => by omega) ?_⟩
  · rintro u c id ⟨-, hn, hr, hall, hmay, hp⟩
    dsimp only at hall
    rw [← map_fst_namedPairs] at hall
    rw [config_of_read hn (readOperand_eq hr), find?_unnamed_eq_none hall]
    dsimp only
    rw [if_neg (not_not.2 ((andNot_armable_eq_zero hp _).2 hmay)), foldl_namedPairs]
    rfl
  · rintro u c id ⟨-, hn, hr, hk, hj⟩
    dsimp only at hk hj
    rw [← map_fst_namedPairs] at hk hj
    obtain ⟨x, hx, rfl⟩ := find?_unnamed_eq_some hk hj
    rw [config_of_read hn (readOperand_eq hr), hx]
    rfl
  · rintro u c id ⟨-, hn, hr, hall, hmay, hp⟩
    dsimp only at hall
    rw [← map_fst_namedPairs] at hall
    rw [config_of_read hn (readOperand_eq hr), find?_unnamed_eq_none hall]
    dsimp only
    rw [if_pos (fun h => hmay ((andNot_armable_eq_zero hp _).1 h))]
    rfl
  · rintro u c id ⟨-, hn, hr⟩
    rw [config_of_unread hn (readOperand_eq hr)]
  · rintro u c id hn
    exact config_of_many hn

end Sys2Proof.Laws
end


section
/-!
SUPPORT. The admission of COPY, SEAL_IN and SEAL_OUT (R392, R399, R400).
-/

namespace Sys2Proof.Laws

open Sys2Proof.Machine Sys2Proof.Safety

/-- A row whose COUNT may be anything but zero, from what its own rules give. -/
theorem counted_answers {i : Instr} {before : State → State} {op : Nat} {ok : State → Fetched → Prop} {f : Conduct} (g : Conduct)
    (hx : ∀ s, s.isRunning = true → exec i s = .next ((before s).command op false (some none) g)) (hb : ∀ s, (before s).host = s.host)
    (hc : ∀ u c, ok u c → c.cmd.count ≠ 0) (hf : ∀ u c id, ok u c → g u c id = f u c id) : Answers i before op ok f :=
  answers_of_command g hx hb fun u c id hacc hok =>
    (admitted_of_count id hacc (fun h => absurd h (by decide)) fun want h => by
      cases h
      exact ⟨hc u c hok, fun k hk => absurd hk (by simp)⟩).trans (hf u c id hok)

/-- The ends of a COPY: aligned, and one of them on the host's side. -/
def CopyEnds (c : Fetched) : Prop :=
  c.cmd.count % 64 = 0 ∧ (c.cmd.arg % 64 = 0 ∧ c.cmd.arg2 % 64 = 0 ∧ c.cmd.done % 16 = 0) ∧
    ¬ (0x800000000000 ≤ c.cmd.arg ↔ 0x800000000000 ≤ c.cmd.arg2)

/-- The device end of a COPY. -/
def copyDevice (c : Fetched) : Nat := if 0x800000000000 ≤ c.cmd.arg then c.cmd.arg2 else c.cmd.arg

theorem not_copyEnds_iff {c : Fetched} : ¬ CopyEnds c ↔ c.cmd.count % 64 ≠ 0 ∨ c.cmd.arg % 64 ≠ 0 ∨ c.cmd.arg2 % 64 ≠ 0 ∨ c.cmd.done % 16 ≠ 0 ∨
    decide (hostBase ≤ c.cmd.arg) = decide (hostBase ≤ c.cmd.arg2) := by
  have hside : (decide (hostBase ≤ c.cmd.arg) = decide (hostBase ≤ c.cmd.arg2)) ↔ (0x800000000000 ≤ c.cmd.arg ↔ 0x800000000000 ≤ c.cmd.arg2) :=
    decide_eq_decide
  rw [hside, CopyEnds]
  tauto

theorem copy_of_misplaced {s : State} {c : Fetched} (h : ¬ CopyEnds c) : s.copy c = (s, .illegal) := if_pos (not_copyEnds_iff.1 h)

theorem copy_of_ends {s : State} {c : Fetched} (h : CopyEnds c) :
    s.copy c = if s.foreignSpan c.paddock (copyDevice c) c.cmd.count then (s, .refused noteOwner) else s.admitCopy c .copy c.cmd.count 0 := by
  have hdev : (if decide (hostBase ≤ c.cmd.arg) then c.cmd.arg2 else c.cmd.arg) = copyDevice c := if_congr decide_eq_true_iff rfl rfl
  rw [← hdev]
  exact if_neg fun hn => not_copyEnds_iff.2 hn h

/-- The operands of a seal: aligned, the device's first and the host's two after it. -/
def SealEnds (c : Fetched) : Prop :=
  (c.cmd.arg % 64 = 0 ∧ c.cmd.arg2 % 64 = 0 ∧ c.cmd.done % 16 = 0) ∧ c.cmd.arg3 % 64 = 0 ∧ ¬ 0x800000000000 ≤ c.cmd.arg ∧
    0x800000000000 ≤ c.cmd.arg2 ∧ 0x800000000000 ≤ c.cmd.arg3

theorem sealCopy_of_ends {s : State} {c : Fetched} (kind : CopyKind) (h : SealEnds c)
    (hf : s.foreignSpan c.paddock c.cmd.arg (4096 * c.cmd.count) = false) :
    s.sealCopy c kind = match (s.pdk c.paddock).sealingKey with
      | none => (s, .failed noteSealKey)
      | some key => s.admitCopy c kind (4128 * c.cmd.count) key := by
  obtain ⟨⟨h1, h2, h4⟩, h3, h5, h6, h7⟩ := h
  have hends : ¬ (c.cmd.arg % 64 ≠ 0 ∨ c.cmd.arg2 % 64 ≠ 0 ∨ c.cmd.arg3 % 64 ≠ 0 ∨ c.cmd.done % 16 ≠ 0 ∨ hostBase ≤ c.cmd.arg ∨
      c.cmd.arg2 < hostBase ∨ c.cmd.arg3 < hostBase) := by
    rw [show hostBase = 0x800000000000 from rfl]
    omega
  rw [State.sealCopy]
  rw [if_neg hends, if_neg (by rw [show sealUnit = 4096 from rfl, hf]; decide)]
  rfl

/-- Settles O35: the ends select the branch of the admission, and an admitted job joins the queue with its bound. -/
theorem copiesAdmitted : Obligations.CopiesAdmitted := by
  refine ⟨counted_answers (fun s c _ => s.copy c) (fun s hp => exec_running hp) (fun _ => rfl) (fun _ _ h => h.1) ?_,
    counted_answers (fun s c _ => s.copy c) (fun s hp => exec_running hp) (fun _ => rfl) (fun _ _ h => h.1) ?_,
    counted_answers (fun s c _ => s.copy c) (fun s hp => exec_running hp) (fun _ => rfl) (fun _ _ h => h.1) ?_, ?_⟩
  · rintro u c id ⟨-, h1, h2, h3, hf⟩
    replace hf : u.foreignSpan c.paddock (copyDevice c) c.cmd.count = false := hf
    rw [copy_of_ends ⟨h1, h2, h3⟩, hf]
    rfl
  · rintro u c id ⟨-, h⟩
    refine copy_of_misplaced fun ⟨h1, h2, h3⟩ => ?_
    rcases h with h | h | h
    · exact h h1
    · exact h h2
    · exact h3 h
  · rintro u c id ⟨-, h1, h2, h3, hf⟩
    replace hf : u.foreignSpan c.paddock (copyDevice c) c.cmd.count = true := hf
    rw [copy_of_ends ⟨h1, h2, h3⟩, hf]
    rfl
  · intro q hq
    have hx : ∀ s, s.isRunning = true → exec q.1 s = .next (s.command q.2.1 false (some none) fun s c _ => s.sealCopy c q.2.2) := by
      simp only [List.mem_cons, List.not_mem_nil, or_false] at hq
      rcases hq with rfl | rfl <;> exact fun s hp => exec_running hp
    refine ⟨fun key => counted_answers (fun s c _ => s.sealCopy c q.2.2) hx (fun _ => rfl) (fun _ _ h => h.1) ?_,
      counted_answers (fun s c _ => s.sealCopy c q.2.2) hx (fun _ => rfl) (fun _ _ h => h.1) ?_⟩
    · rintro u c id ⟨-, hends, hf, hkey⟩
      rw [sealCopy_of_ends q.2.2 hends hf, hkey]
      rfl
    · rintro u c id ⟨-, hends, hf, hkey⟩
      rw [sealCopy_of_ends q.2.2 hends hf, hkey]
      rfl

end Sys2Proof.Laws
end


section
/-!
SUPPORT. A step, the times of conversions (R283), the expanded codes of R77 and the map of the registers (R489).
-/

namespace Sys2Proof.Laws

open Sys2Proof.Machine Sys2Proof.Safety

/-- Settles O1: what `step` says of a queue with a command in front. -/
theorem stepRunsFront : Obligations.StepRunsFront := fun _ _ _ => rfl

/-! ### Conversions -/

theorem convQuarters_of_hq {o : UnitOp} (hk : o.kind = .hq) :
    o.convQuarters = 4 * (if isBlock o.x.toNat then ceilDiv (dExt0 o.a * dExt1 o.a) 1024 else 2 * dExt1 o.a * ceilDiv (dExt0 o.a) 1024) := by
  rw [UnitOp.convQuarters, hk]

theorem convQuarters_of_block {o : UnitOp} (hk : o.kind = .hq) (hx : o.x = 1 ∨ o.x = 2) :
    o.convQuarters = 4 * ((dExt0 o.a * dExt1 o.a + 1023) / 1024) := by
  rw [convQuarters_of_hq hk, if_pos (by rcases hx with h | h <;> rw [h] <;> decide)]
  rfl

theorem convQuarters_of_rows {o : UnitOp} (hk : o.kind = .hq) (hx : o.x = 3 ∨ o.x = 4 ∨ o.x = 5) :
    o.convQuarters = 4 * (2 * dExt1 o.a * ((dExt0 o.a + 1023) / 1024)) := by
  rw [convQuarters_of_hq hk, if_neg (by rcases hx with h | h | h <;> rw [h] <;> decide)]
  rfl

/-! ### Expanded codes -/

/-- The doublings of the significand with which the E4M3 code of an E2M1 code spells its value. -/
def expandShift (c : Nat) : Nat := if c % 8 = 0 then 8 else if c % 8 = 1 then 3 else 2

/-- A finite number spelled with a significand `k` doublings wider. -/
def widened (k : Nat) : Machine.Num → Option Machine.Num
  | .fin neg m e => some (.fin neg (m * 2 ^ k) (e - k))
  | _ => none

theorem widened_eq_some {k : Nat} {x y : Machine.Num} (h : widened k x = some y) : ∃ neg m e, x = .fin neg m e ∧ y = .fin neg (m * 2 ^ k) (e - k) := by
  cases x with
  | fin neg m e => exact ⟨neg, m, e, rfl, (Option.some.inj h).symm⟩
  | inf neg => exact absurd h (by simp [widened])
  | nan => exact absurd h (by simp [widened])

theorem widened_decode_expandE2m1 :
    ∀ c : BitVec 4, widened (expandShift c.toNat) (fmtE2m1.decode c.toNat) = some (fmtE4m3.decode (expandE2m1 c.toNat)) := by decide

/-- Settles O22: the times are read off `convQuarters`, and each of the 16 codes is looked up. -/
theorem conversionRules : Obligations.ConversionRules := by
  refine ⟨fun o => ⟨convQuarters_of_block, convQuarters_of_rows, fun hk => ?_, fun hk => ?_, fun hk => ?_, fun hk => ?_⟩, by decide, by decide, fun c => ?_⟩
  · rw [UnitOp.convQuarters, hk]
    rfl
  · rw [UnitOp.convQuarters, hk]
    rfl
  · rw [UnitOp.convQuarters, hk]
    exact (Nat.mul_assoc 4 2 _)
  · rw [UnitOp.convQuarters, hk]
  · obtain ⟨neg, m, e, hx, hy⟩ := widened_eq_some (widened_decode_expandE2m1 c)
    exact ⟨neg, m, e, _, hx, hy⟩

/-! ### The map of the registers -/

theorem arr_eq_some {o base step n : Nat} {f : Nat → Reg} {r : Reg} (h : arr o base step n f = some r) : ∃ i < n, o = base + step * i ∧ r = f i := by
  unfold arr at h
  split at h
  case isTrue hc =>
    obtain ⟨hb, hm, hn⟩ := hc
    exact ⟨_, hn, by rw [Nat.mul_div_cancel' (Nat.dvd_of_mod_eq_zero hm)]; omega, (Option.some.inj h).symm⟩
  case isFalse => exact absurd h (by simp)

theorem arr2_eq_some {o base step n lo step2 n2 : Nat} {f : Nat → Nat → Reg} {r : Reg} (h : arr2 o base step n lo step2 n2 f = some r) :
    ∃ i < n, ∃ j < n2, o = base + step * i + lo + step2 * j ∧ r = f i j := by
  unfold arr2 at h
  split at h
  case isTrue hc =>
    obtain ⟨hb, hn⟩ := hc
    obtain ⟨j, hj, ho, hr⟩ := arr_eq_some h
    have hdiv := Nat.div_add_mod (o - base) step
    exact ⟨_, hn, j, hj, by omega, hr⟩
  case isFalse => exact absurd h (by simp)

theorem one_eq_some {o base : Nat} {q r : Reg} (h : one o base q = some r) : o = base ∧ r = q := by
  unfold one at h
  split at h
  case isTrue hc => exact ⟨hc, (Option.some.inj h).symm⟩
  case isFalse => exact absurd h (by simp)

/-- A register that lies at an offset. -/
def LiesAt (o : Nat) (r : Reg) : Prop := r.offset = o ∧ r.exists_ = true

/-- What a search of the map finds lies at offset `p`. -/
def FindsAt (p : Nat) (x : Option Reg) : Prop := ∀ r, x = some r → LiesAt p r

section
variable {p o base step n lo step2 n2 : Nat}

theorem findsAt_arr {f : Nat → Reg} (hf : ∀ i < n, o = base + step * i → LiesAt p (f i)) : FindsAt p (arr o base step n f) := by
  intro r h
  obtain ⟨i, hi, ho, rfl⟩ := arr_eq_some h
  exact hf i hi ho

theorem findsAt_arr2 {f : Nat → Nat → Reg} (hf : ∀ i < n, ∀ j < n2, o = base + step * i + lo + step2 * j → LiesAt p (f i j)) :
    FindsAt p (arr2 o base step n lo step2 n2 f) := by
  intro r h
  obtain ⟨i, hi, j, hj, ho, rfl⟩ := arr2_eq_some h
  exact hf i hi j hj ho

/-- An array whose entries are two registers each. -/
theorem findsAt_arr2_two {f : Nat → Nat → Reg} (h0 : ∀ i < n, o = base + step * i + lo → LiesAt p (f i 0))
    (h1 : ∀ i < n, o = base + step * i + lo + step2 → LiesAt p (f i 1)) : FindsAt p (arr2 o base step n lo step2 2 f) :=
  findsAt_arr2 fun i hi j hj ho => match j, hj with
    | 0, _ => h0 i hi (by simpa using ho)
    | 1, _ => h1 i hi (by simpa using ho)

/-- An array whose entries are four registers each. -/
theorem findsAt_arr2_four {f : Nat → Nat → Reg} (h0 : ∀ i < n, o = base + step * i + lo → LiesAt p (f i 0))
    (h1 : ∀ i < n, o = base + step * i + lo + step2 → LiesAt p (f i 1)) (h2 : ∀ i < n, o = base + step * i + lo + step2 * 2 → LiesAt p (f i 2))
    (h3 : ∀ i < n, o = base + step * i + lo + step2 * 3 → LiesAt p (f i 3)) : FindsAt p (arr2 o base step n lo step2 4 f) :=
  findsAt_arr2 fun i hi j hj ho => match j, hj with
    | 0, _ => h0 i hi (by simpa using ho)
    | 1, _ => h1 i hi (by simpa using ho)
    | 2, _ => h2 i hi ho
    | 3, _ => h3 i hi ho

theorem findsAt_one {r : Reg} (hr : o = base → LiesAt p r) : FindsAt p (one o base r) := by
  intro q h
  obtain ⟨ho, rfl⟩ := one_eq_some h
  exact hr ho

theorem findsAt_none : FindsAt p none := fun _ h => absurd h (by simp)

theorem findsAt_nil : FindsAt p (firstReg []) := findsAt_none

theorem findsAt_cons {x : Option Reg} {l : List (Option Reg)} (hx : FindsAt p x) (hl : FindsAt p (firstReg l)) : FindsAt p (firstReg (x :: l)) := by
  cases x with
  | none => exact hl
  | some r => exact hx

theorem findsAt_ite {c : Prop} [Decidable c] {x y : Option Reg} (hx : FindsAt p x) (hy : FindsAt p y) : FindsAt p (if c then x else y) := by
  split
  · exact hx
  · exact hy

end

theorem findsAt_inStrMngEvt (o : Nat) : FindsAt o (Reg.inStrMngEvt o) := by
  unfold Reg.inStrMngEvt
  with_reducible repeat' first | apply findsAt_ite | apply findsAt_cons | apply findsAt_nil | apply findsAt_one | apply findsAt_arr
  all_goals
    intros
    simp only [LiesAt, Reg.offset, Reg.exists_, decide_eq_true_eq, and_true]
    omega

theorem findsAt_inPdkToHbm (o : Nat) : FindsAt o (Reg.inPdkToHbm o) := by
  unfold Reg.inPdkToHbm
  with_reducible repeat' first | apply findsAt_ite | apply findsAt_cons | apply findsAt_nil | apply findsAt_none | apply findsAt_one | apply findsAt_arr | apply findsAt_arr2
  all_goals
    intros
    simp only [LiesAt, Reg.offset, Reg.exists_, decide_eq_true_eq, and_true]
    omega

theorem findsAt_inLnk (o : Nat) : FindsAt o (Reg.inLnk o) := by
  unfold Reg.inLnk
  with_reducible repeat' first | apply findsAt_cons | apply findsAt_nil | apply findsAt_one | apply findsAt_arr | apply findsAt_arr2
  all_goals
    intros
    simp only [LiesAt, Reg.offset, Reg.exists_, decide_eq_true_eq, and_true]
    omega

theorem findsAt_inWteMtgDbg (o : Nat) : FindsAt o (Reg.inWteMtgDbg o) := by
  unfold Reg.inWteMtgDbg
  with_reducible repeat' first | apply findsAt_ite | apply findsAt_cons | apply findsAt_nil | apply findsAt_one | apply findsAt_arr | apply findsAt_arr2
  all_goals
    intros
    simp only [LiesAt, Reg.offset, Reg.exists_, decide_eq_true_eq, and_true]
    omega

theorem tileAt_eq {t : Nat} (m lo step : Nat) (ht : t < 64) : tileAt (64 * m + t) lo step = windowBase m + lo + step * t := by
  have hdiv : (64 * m + t) / 64 = m := by omega
  have hmod : (64 * m + t) % 64 = t := by omega
  rw [tileAt, hdiv, hmod]

theorem findsAt_inWindow {m : Nat} (o : Nat) (hm : m < 400) : FindsAt (windowBase m + o) (Reg.inWindow m o) := by
  unfold Reg.inWindow
  with_reducible repeat' first | apply findsAt_ite | apply findsAt_cons | apply findsAt_nil | apply findsAt_one | apply findsAt_arr | apply findsAt_arr2_two | apply findsAt_arr2_four | apply findsAt_arr2
  all_goals
    intros
    simp (disch := omega) only [LiesAt, Reg.offset, Reg.exists_, decide_eq_true_eq, tileAt_eq]
    omega

theorem findsAt_ofOffset (o : Nat) : FindsAt o (Reg.ofOffset o) := by
  unfold Reg.ofOffset
  split
  case isTrue => exact findsAt_inStrMngEvt o
  case isFalse =>
  split
  case isTrue => exact findsAt_inPdkToHbm o
  case isFalse =>
  split
  case isTrue => exact findsAt_inLnk o
  case isFalse =>
  split
  case isTrue => exact findsAt_inWteMtgDbg o
  case isFalse =>
  split
  case isTrue hm =>
    have hw := findsAt_inWindow ((o - 0x3000000) % 0x10000) hm
    have ho : windowBase ((o - 0x3000000) / 0x10000) + (o - 0x3000000) % 0x10000 = o := by
      rw [windowBase]
      omega
    rwa [ho] at hw
  case isFalse => exact findsAt_none

section
variable {o base step n lo step2 n2 : Nat}

theorem arr_eq_none_of_lt {f : Nat → Reg} (h : o < base) : arr o base step n f = none := if_neg fun hc => by omega

theorem arr_eq_none_of_le {f : Nat → Reg} (h : n ≤ (o - base) / step) : arr o base step n f = none := if_neg fun hc => by omega

theorem arr_eq_none_of_mod {f : Nat → Reg} (h : (o - base) % step ≠ 0) : arr o base step n f = none := if_neg fun hc => h hc.2.1

theorem arr_eq_some_of {f : Nat → Reg} (hb : base ≤ o) (hm : (o - base) % step = 0) (hn : (o - base) / step < n) :
    arr o base step n f = some (f ((o - base) / step)) := if_pos ⟨hb, hm, hn⟩

theorem arr2_eq_none_of_lt {f : Nat → Nat → Reg} (h : o < base) : arr2 o base step n lo step2 n2 f = none := if_neg fun hc => by omega

theorem arr2_eq_none_of_le {f : Nat → Nat → Reg} (h : n ≤ (o - base) / step) : arr2 o base step n lo step2 n2 f = none :=
  if_neg fun hc => by omega

theorem arr2_eq_none_of_mod {f : Nat → Nat → Reg} (h : ((o - base) % step - lo) % step2 ≠ 0) : arr2 o base step n lo step2 n2 f = none := by
  rw [arr2, arr_eq_none_of_mod h, ite_self]

theorem arr2_eq_some_of {f : Nat → Nat → Reg} (hb : base ≤ o) (hn : (o - base) / step < n) (hl : lo ≤ (o - base) % step)
    (hm : ((o - base) % step - lo) % step2 = 0) (hj : ((o - base) % step - lo) / step2 < n2) :
    arr2 o base step n lo step2 n2 f = some (f ((o - base) / step) (((o - base) % step - lo) / step2)) := by
  rw [arr2, if_pos ⟨hb, hn⟩, arr_eq_some_of hl hm hj]

/-- The entry at place `j` of an array's item. -/
theorem arr2_eq_some_entry {f : Nat → Nat → Reg} (j : Nat) (hb : base ≤ o) (hn : (o - base) / step < n) (hj : j < n2) (hs : 0 < step2)
    (he : (o - base) % step = lo + step2 * j) : arr2 o base step n lo step2 n2 f = some (f ((o - base) / step) j) := by
  have hsub : (o - base) % step - lo = step2 * j := by omega
  have hdiv : ((o - base) % step - lo) / step2 = j := by rw [hsub, Nat.mul_div_cancel_left j hs]
  rw [arr2_eq_some_of hb hn (by omega) (by rw [hsub, Nat.mul_mod_right]) (by rw [hdiv]; exact hj), hdiv]

theorem one_eq_none {r : Reg} (h : o ≠ base) : one o base r = none := if_neg h

theorem firstReg_none (l : List (Option Reg)) : firstReg (none :: l) = firstReg l := rfl

theorem firstReg_some (r : Reg) (l : List (Option Reg)) : firstReg (some r :: l) = some r := rfl

end

section
variable {o : Nat}

theorem ofOffset_strMngEvt (h : o < 0x400000) : Reg.ofOffset o = Reg.inStrMngEvt o := if_pos h

theorem ofOffset_pdkToHbm (h0 : 0x400000 ≤ o) (h : o < 0x1000000) : Reg.ofOffset o = Reg.inPdkToHbm o :=
  (if_neg (Nat.not_lt.2 h0)).trans (if_pos h)

theorem ofOffset_lnk (h0 : 0x1000000 ≤ o) (h : o < 0x1800000) : Reg.ofOffset o = Reg.inLnk o :=
  (if_neg (by omega)).trans <| (if_neg (Nat.not_lt.2 h0)).trans (if_pos h)

theorem ofOffset_wteMtgDbg (h0 : 0x1800000 ≤ o) (h : o < 0x3000000) : Reg.ofOffset o = Reg.inWteMtgDbg o :=
  (if_neg (by omega)).trans <| (if_neg (by omega)).trans <| (if_neg (Nat.not_lt.2 h0)).trans (if_pos h)

theorem ofOffset_window {m k : Nat} (hm : m < 400) (hk : k < 0x10000) : Reg.ofOffset (windowBase m + k) = Reg.inWindow m k := by
  have hsub : windowBase m + k - 0x3000000 = 0x10000 * m + k := by
    rw [windowBase]
    omega
  have hdiv : (0x10000 * m + k) / 0x10000 = m := by omega
  have hmod : (0x10000 * m + k) % 0x10000 = k := by omega
  have hlow (b : Nat) (hb : b ≤ 0x3000000) : ¬ windowBase m + k < b := by
    rw [windowBase]
    omega
  rw [Reg.ofOffset, if_neg (hlow _ (by decide)), if_neg (hlow _ (by decide)), if_neg (hlow _ (by decide)), if_neg (hlow _ (by decide)), hsub, hdiv, hmod, if_pos hm]

end

/-- The map finds a register at its own offset. -/
def Found (r : Reg) : Prop := Reg.ofOffset r.offset = some r

theorem found_queue {q : Nat} (h : q < 16) : ∀ r ∈ [Reg.qCtl q, .qBase q, .qRbase q, .qHead q, .qEnergy q], Found r := by
  simp only [List.forall_mem_cons, List.not_mem_nil, false_imp_iff, implies_true, and_true, Found, Reg.offset]
  simp (disch := omega) only [ofOffset_strMngEvt, ofOffset_pdkToHbm]
  simp (disch := omega) only [Reg.inStrMngEvt, Reg.inPdkToHbm, if_pos, if_neg, arr_eq_none_of_lt, arr_eq_none_of_le, arr_eq_none_of_mod, arr_eq_some_of,
      arr2_eq_none_of_lt, arr2_eq_none_of_le, arr2_eq_none_of_mod, arr2_eq_some_of, one_eq_none, firstReg_none, firstReg_some]
  all_goals and_intros <;> congr 2 <;> omega

theorem found_paddock {p : Nat} (h : p < 16) : ∀ r ∈ [Reg.sealCtr p, .pdkCtl p, .pdkCtx p, .sowerSeed p, .sowerStep p, .slack p, .pdkEnergy p], Found r := by
  simp only [List.forall_mem_cons, List.not_mem_nil, false_imp_iff, implies_true, and_true, Found, Reg.offset]
  simp (disch := omega) only [ofOffset_strMngEvt, ofOffset_pdkToHbm]
  simp (disch := omega) only [Reg.inStrMngEvt, Reg.inPdkToHbm, if_pos, if_neg, arr_eq_none_of_lt, arr_eq_none_of_le, arr_eq_none_of_mod, arr_eq_some_of,
      arr2_eq_none_of_lt, arr2_eq_none_of_le, arr2_eq_none_of_mod, arr2_eq_some_of, one_eq_none, firstReg_none, firstReg_some]
  all_goals and_intros <;> congr 2 <;> omega

theorem found_wte {p : Nat} (h : p < 16) : ∀ r ∈ [Reg.wteBuf p, .wteStatus p, .wteLatch p, .cntA p, .cntB p, .cntC p], Found r := by
  simp only [List.forall_mem_cons, List.not_mem_nil, false_imp_iff, implies_true, and_true, Found, Reg.offset]
  simp (disch := omega) only [ofOffset_wteMtgDbg]
  simp (disch := omega) only [Reg.inWteMtgDbg, if_pos, if_neg, arr_eq_none_of_lt, arr_eq_none_of_le, arr_eq_none_of_mod, arr_eq_some_of,
      arr2_eq_none_of_lt, arr2_eq_none_of_le, arr2_eq_none_of_mod, arr2_eq_some_of, one_eq_none, firstReg_none, firstReg_some]
  all_goals and_intros <;> congr 2 <;> omega

theorem found_mtg {p : Nat} (h : p < 16) : ∀ r ∈ [Reg.mtgPolicy p, .mtgUcode p, .mtgThresh p, .mtgWatch p, .mtgStatus p], Found r := by
  simp only [List.forall_mem_cons, List.not_mem_nil, false_imp_iff, implies_true, and_true, Found, Reg.offset]
  simp (disch := omega) only [ofOffset_wteMtgDbg]
  simp (disch := omega) only [Reg.inWteMtgDbg, if_pos, if_neg, arr_eq_none_of_lt, arr_eq_none_of_le, arr_eq_none_of_mod, arr_eq_some_of,
      arr2_eq_none_of_lt, arr2_eq_none_of_le, arr2_eq_none_of_mod, arr2_eq_some_of, one_eq_none, firstReg_none, firstReg_some]
  all_goals and_intros <;> congr 2 <;> omega

theorem found_hbm {k : Nat} (h : k < 8) : ∀ r ∈ [Reg.hbmStatus k, .hbmEcc k, .hbmErrAddr k], Found r := by
  simp only [List.forall_mem_cons, List.not_mem_nil, false_imp_iff, implies_true, and_true, Found, Reg.offset]
  simp (disch := omega) only [ofOffset_pdkToHbm]
  simp (disch := omega) only [Reg.inPdkToHbm, if_pos, if_neg, arr_eq_none_of_lt, arr_eq_none_of_le, arr_eq_none_of_mod, arr_eq_some_of,
      arr2_eq_none_of_lt, arr2_eq_none_of_le, arr2_eq_none_of_mod, arr2_eq_some_of, one_eq_none, firstReg_none, firstReg_some]
  all_goals and_intros <;> congr 2 <;> omega

theorem found_port {n : Nat} (h : n < 24) : ∀ r ∈ [Reg.portCtl n, .portStatus n, .portErr n], Found r := by
  simp only [List.forall_mem_cons, List.not_mem_nil, false_imp_iff, implies_true, and_true, Found, Reg.offset]
  simp (disch := omega) only [ofOffset_lnk]
  simp (disch := omega) only [Reg.inLnk, if_pos, if_neg, arr_eq_none_of_lt, arr_eq_none_of_le, arr_eq_none_of_mod, arr_eq_some_of,
      arr2_eq_none_of_lt, arr2_eq_none_of_le, arr2_eq_none_of_mod, arr2_eq_some_of, one_eq_none, firstReg_none, firstReg_some]
  all_goals and_intros <;> congr 2 <;> omega

theorem found_tether {t : Nat} (h : t < 4096) : ∀ r ∈ [Reg.tether t, .tetherStat t, .tetherSeq t], Found r := by
  simp only [List.forall_mem_cons, List.not_mem_nil, false_imp_iff, implies_true, and_true, Found, Reg.offset]
  simp (disch := omega) only [ofOffset_lnk]
  simp (disch := omega) only [Reg.inLnk, if_pos, if_neg, arr_eq_none_of_lt, arr_eq_none_of_le, arr_eq_none_of_mod, arr_eq_some_of,
      arr2_eq_none_of_lt, arr2_eq_none_of_le, arr2_eq_none_of_mod, arr2_eq_some_of, one_eq_none, firstReg_none, firstReg_some]
  all_goals and_intros <;> congr 2 <;> omega

theorem found_sheafBits {w : Nat} (h : w < 7) : ∀ r ∈ [Reg.sheafTest w, .sheafFail w], Found r := by
  simp only [List.forall_mem_cons, List.not_mem_nil, false_imp_iff, implies_true, and_true, Found, Reg.offset]
  simp (disch := omega) only [ofOffset_pdkToHbm]
  simp (disch := omega) only [Reg.inPdkToHbm, if_pos, if_neg, arr_eq_none_of_lt, arr_eq_none_of_le, arr_eq_none_of_mod, arr_eq_some_of,
      arr2_eq_none_of_lt, arr2_eq_none_of_le, arr2_eq_none_of_mod, arr2_eq_some_of, one_eq_none, firstReg_none, firstReg_some]
  all_goals and_intros <;> congr 2 <;> omega

theorem found_digits {j : Nat} (h : j < 8) : ∀ r ∈ [Reg.attPub j, .dbgMemData j], Found r := by
  simp only [List.forall_mem_cons, List.not_mem_nil, false_imp_iff, implies_true, and_true, Found, Reg.offset]
  simp (disch := omega) only [ofOffset_pdkToHbm, ofOffset_wteMtgDbg]
  simp (disch := omega) only [Reg.inPdkToHbm, Reg.inWteMtgDbg, if_pos, if_neg, arr_eq_none_of_lt, arr_eq_none_of_le, arr_eq_none_of_mod, arr_eq_some_of,
      arr2_eq_none_of_lt, arr2_eq_none_of_le, arr2_eq_none_of_mod, arr2_eq_some_of, one_eq_none, firstReg_none, firstReg_some]
  all_goals and_intros <;> congr 2 <;> omega

theorem found_gaitSched {n : Nat} (h : n < 64) : Found (.gaitSched n) := by
  simp only [Found, Reg.offset]
  simp (disch := omega) only [ofOffset_strMngEvt]
  simp (disch := omega) only [Reg.inStrMngEvt, if_pos, if_neg, arr_eq_none_of_lt, arr_eq_none_of_le, arr_eq_none_of_mod, arr_eq_some_of,
      arr2_eq_none_of_lt, arr2_eq_none_of_le, arr2_eq_none_of_mod, arr2_eq_some_of, one_eq_none, firstReg_none, firstReg_some]
  congr 2 <;> omega

theorem found_apt {n : Nat} (h : n < 8192) : Found (.apt n) := by
  simp only [Found, Reg.offset]
  simp (disch := omega) only [ofOffset_strMngEvt]
  simp (disch := omega) only [Reg.inStrMngEvt, if_pos, if_neg, arr_eq_none_of_lt, arr_eq_none_of_le, arr_eq_none_of_mod, arr_eq_some_of,
      arr2_eq_none_of_lt, arr2_eq_none_of_le, arr2_eq_none_of_mod, arr2_eq_some_of, one_eq_none, firstReg_none, firstReg_some]
  congr 2 <;> omega

theorem found_evtRate {c : Nat} (h : 1 ≤ c ∧ c ≤ 11) : Found (.evtRate c) := by
  simp only [Found, Reg.offset]
  simp (disch := omega) only [ofOffset_strMngEvt]
  simp (disch := omega) only [Reg.inStrMngEvt, if_pos, if_neg, arr_eq_none_of_lt, arr_eq_none_of_le, arr_eq_none_of_mod, arr_eq_some_of,
      arr2_eq_none_of_lt, arr2_eq_none_of_le, arr2_eq_none_of_mod, arr2_eq_some_of, one_eq_none, firstReg_none, firstReg_some]
  congr 2 <;> omega

theorem found_region {r : Nat} (h : r < 512) : Found (.region r) := by
  simp only [Found, Reg.offset]
  simp (disch := omega) only [ofOffset_pdkToHbm]
  simp (disch := omega) only [Reg.inPdkToHbm, if_pos, if_neg, arr_eq_none_of_lt, arr_eq_none_of_le, arr_eq_none_of_mod, arr_eq_some_of,
      arr2_eq_none_of_lt, arr2_eq_none_of_le, arr2_eq_none_of_mod, arr2_eq_some_of, one_eq_none, firstReg_none, firstReg_some]
  congr 2 <;> omega

theorem found_serial {j : Nat} (h : j < 2) : Found (.serial j) := by
  simp only [Found, Reg.offset]
  simp (disch := omega) only [ofOffset_pdkToHbm]
  simp (disch := omega) only [Reg.inPdkToHbm, if_pos, if_neg, arr_eq_none_of_lt, arr_eq_none_of_le, arr_eq_none_of_mod, arr_eq_some_of,
      arr2_eq_none_of_lt, arr2_eq_none_of_le, arr2_eq_none_of_mod, arr2_eq_some_of, one_eq_none, firstReg_none, firstReg_some]
  congr 2 <;> omega

theorem found_bridleStatus {m : Nat} (h : m < 6) : Found (.bridleStatus m) := by
  simp only [Found, Reg.offset]
  simp (disch := omega) only [ofOffset_lnk]
  simp (disch := omega) only [Reg.inLnk, if_pos, if_neg, arr_eq_none_of_lt, arr_eq_none_of_le, arr_eq_none_of_mod, arr_eq_some_of,
      arr2_eq_none_of_lt, arr2_eq_none_of_le, arr2_eq_none_of_mod, arr2_eq_some_of, one_eq_none, firstReg_none, firstReg_some]
  congr 2 <;> omega

theorem found_sheafMask {p w : Nat} (h : p < 16 ∧ w < 7) : Found (.sheafMask p w) := by
  simp only [Found, Reg.offset]
  simp (disch := omega) only [ofOffset_pdkToHbm]
  simp (disch := omega) only [Reg.inPdkToHbm, if_pos, if_neg, arr_eq_none_of_lt, arr_eq_none_of_le, arr_eq_none_of_mod, arr_eq_some_of,
      arr2_eq_none_of_lt, arr2_eq_none_of_le, arr2_eq_none_of_mod, arr2_eq_some_of, one_eq_none, firstReg_none, firstReg_some]
  congr 2 <;> omega

theorem found_lnkGait {n i : Nat} (h : n < 24 ∧ i < 1000) : Found (.lnkGait n i) := by
  simp only [Found, Reg.offset]
  simp (disch := omega) only [ofOffset_lnk]
  simp (disch := omega) only [Reg.inLnk, if_pos, if_neg, arr_eq_none_of_lt, arr_eq_none_of_le, arr_eq_none_of_mod, arr_eq_some_of,
      arr2_eq_none_of_lt, arr2_eq_none_of_le, arr2_eq_none_of_mod, arr2_eq_some_of, one_eq_none, firstReg_none, firstReg_some]
  congr 2 <;> omega

theorem found_bridleId {m j : Nat} (h : m < 6 ∧ j < 16) : Found (.bridleId m j) := by
  simp only [Found, Reg.offset]
  simp (disch := omega) only [ofOffset_lnk]
  simp (disch := omega) only [Reg.inLnk, if_pos, if_neg, arr_eq_none_of_lt, arr_eq_none_of_le, arr_eq_none_of_mod, arr_eq_some_of,
      arr2_eq_none_of_lt, arr2_eq_none_of_le, arr2_eq_none_of_mod, arr2_eq_some_of, one_eq_none, firstReg_none, firstReg_some]
  congr 2 <;> omega

theorem found_groups {p g : Nat} (h : p < 16 ∧ g < 256) : ∀ r ∈ [Reg.group0 p g, .group1 p g], Found r := by
  simp only [List.forall_mem_cons, List.not_mem_nil, false_imp_iff, implies_true, and_true, Found, Reg.offset]
  simp (disch := omega) only [ofOffset_wteMtgDbg]
  simp (disch := omega) only [Reg.inWteMtgDbg, if_pos, if_neg, arr_eq_none_of_lt, arr_eq_none_of_le, arr_eq_none_of_mod, arr_eq_some_of,
      arr2_eq_none_of_lt, arr2_eq_none_of_le, arr2_eq_none_of_mod, arr2_eq_some_of, one_eq_none, firstReg_none, firstReg_some]
  all_goals and_intros <;> congr 2 <;> omega

theorem found_sheaf {m : Nat} (h : m < 400) : ∀ r ∈ [Reg.silageCtl m, .silageStat m, .bankEcc m, .repair m], Found r := by
  simp only [List.forall_mem_cons, List.not_mem_nil, false_imp_iff, implies_true, and_true, Found, Reg.offset]
  simp (disch := omega) only [ofOffset_window]
  simp (disch := omega) only [Reg.inWindow, if_pos, if_neg, arr_eq_none_of_lt, arr_eq_none_of_le, arr_eq_none_of_mod, arr_eq_some_of,
      arr2_eq_none_of_lt, arr2_eq_none_of_le, arr2_eq_none_of_mod, arr2_eq_some_of, one_eq_none, firstReg_none, firstReg_some]
  all_goals and_intros <;> congr 2 <;> omega

theorem found_bankConf {m r : Nat} (h : m < 400 ∧ r < 66) : Found (.bankConf m r) := by
  simp only [Found, Reg.offset, Nat.add_assoc]
  simp (disch := omega) only [ofOffset_window]
  simp (disch := omega) only [Reg.inWindow, if_pos, if_neg, arr_eq_none_of_lt, arr_eq_none_of_le, arr_eq_none_of_mod, arr_eq_some_of,
      arr2_eq_none_of_lt, arr2_eq_none_of_le, arr2_eq_none_of_mod, arr2_eq_some_of, one_eq_none, firstReg_none, firstReg_some]
  congr 2 <;> omega

theorem found_mtgWord {m e w : Nat} (h : m < 400 ∧ e < 256 ∧ w < 11) : Found (.mtgWord m e w) := by
  simp only [Found, Reg.offset, Nat.add_assoc]
  simp (disch := omega) only [ofOffset_window]
  simp (disch := omega) only [Reg.inWindow, if_pos, if_neg, arr_eq_none_of_lt, arr_eq_none_of_le, arr_eq_none_of_mod, arr_eq_some_of,
      arr2_eq_none_of_lt, arr2_eq_none_of_le, arr2_eq_none_of_mod, arr2_eq_some_of, one_eq_none, firstReg_none, firstReg_some]
  congr 2 <;> omega

theorem tile_split (t : Nat) : ∃ m i, i < 64 ∧ t = 64 * m + i := ⟨t / 64, t % 64, Nat.mod_lt t (by decide), (Nat.div_add_mod t 64).symm⟩

theorem found_tile {t : Nat} (h : t < 25600) : ∀ r ∈ [Reg.seqState t, .seqFault t, .seqNf t, .seqBudget t], Found r := by
  obtain ⟨m, i, hi, rfl⟩ := tile_split t
  simp only [List.forall_mem_cons, List.not_mem_nil, false_imp_iff, implies_true, and_true, Found, Reg.offset]
  simp (disch := omega) only [tileAt_eq, Nat.add_assoc, ofOffset_window]
  simp (disch := omega) only [Reg.inWindow, if_pos, if_neg, arr_eq_none_of_lt, arr_eq_none_of_le, arr_eq_none_of_mod, arr_eq_some_of,
      arr2_eq_none_of_lt, arr2_eq_none_of_le, arr2_eq_none_of_mod, arr2_eq_some_entry 0, arr2_eq_some_entry 1, arr2_eq_some_entry 2, arr2_eq_some_entry 3, one_eq_none, firstReg_none, firstReg_some]
  all_goals and_intros <;> congr 2 <;> omega

theorem found_arrays {t : Nat} (h : t < 25600) : ∀ r ∈ [Reg.fwaBusy t, .fwaStat t, .bwaBusy t, .bwaStat t], Found r := by
  obtain ⟨m, i, hi, rfl⟩ := tile_split t
  simp only [List.forall_mem_cons, List.not_mem_nil, false_imp_iff, implies_true, and_true, Found, Reg.offset]
  simp (disch := omega) only [tileAt_eq, Nat.add_assoc, ofOffset_window]
  simp (disch := omega) only [Reg.inWindow, if_pos, if_neg, arr_eq_none_of_lt, arr_eq_none_of_le, arr_eq_none_of_mod, arr_eq_some_of,
      arr2_eq_none_of_lt, arr2_eq_none_of_le, arr2_eq_none_of_mod, arr2_eq_some_entry 0, arr2_eq_some_entry 1, arr2_eq_some_entry 2, arr2_eq_some_entry 3, one_eq_none, firstReg_none, firstReg_some]
  all_goals and_intros <;> congr 2 <;> omega

theorem found_tileRest {t : Nat} (h : t < 25600) : ∀ r ∈ [Reg.hnd t, .chfStat t, .chfChk t, .tsEcc t], Found r := by
  obtain ⟨m, i, hi, rfl⟩ := tile_split t
  simp only [List.forall_mem_cons, List.not_mem_nil, false_imp_iff, implies_true, and_true, Found, Reg.offset]
  simp (disch := omega) only [tileAt_eq, Nat.add_assoc, ofOffset_window]
  simp (disch := omega) only [Reg.inWindow, if_pos, if_neg, arr_eq_none_of_lt, arr_eq_none_of_le, arr_eq_none_of_mod, arr_eq_some_of,
      arr2_eq_none_of_lt, arr2_eq_none_of_le, arr2_eq_none_of_mod, arr2_eq_some_entry 0, arr2_eq_some_entry 1, arr2_eq_some_entry 2, arr2_eq_some_entry 3, one_eq_none, firstReg_none, firstReg_some]
  all_goals and_intros <;> congr 2 <;> omega

theorem found_tags {t q : Nat} (h : t < 25600 ∧ q < 4) : ∀ r ∈ [Reg.fwaTag t q, .bwaTag t q, .chfLen t q, .chfTag t q], Found r := by
  obtain ⟨m, i, hi, rfl⟩ := tile_split t
  simp only [List.forall_mem_cons, List.not_mem_nil, false_imp_iff, implies_true, and_true, Found, Reg.offset]
  simp (disch := omega) only [tileAt_eq, Nat.add_assoc, ofOffset_window]
  simp (disch := omega) only [Reg.inWindow, if_pos, if_neg, arr_eq_none_of_lt, arr_eq_none_of_le, arr_eq_none_of_mod, arr_eq_some_of,
      arr2_eq_none_of_lt, arr2_eq_none_of_le, arr2_eq_none_of_mod, arr2_eq_some_of, one_eq_none, firstReg_none, firstReg_some]
  all_goals and_intros <;> congr 2 <;> omega

/-- Every register is found at its offset. -/
theorem found_of_exists {r : Reg} (h : r.exists_ = true) : Found r := by
  cases r
  case glbChip | cfgEpoch | gtc | strideNo | timeCtl | timeStatus | gtcLoad | commit | commitResult | gaitCtl | replyStatus | hostLink |
      ringCtl | ringIdx | evtWritten | evtDropped | lifecycle | secFw | attIndex | attLimit | debugState | pwrCap | pwrStatus | pwrTherm |
      pwrEnergy | bstBoot | bstStatus | scrubCtl | fleet | dbgMemCtl | dbgHalt | dbgForceAddr | dbgForceValue => rfl
  case qCtl | qBase | qRbase | qHead | qEnergy => exact found_queue (of_decide_eq_true h) _ (by simp)
  case sealCtr | pdkCtl | pdkCtx | sowerSeed | sowerStep | slack | pdkEnergy => exact found_paddock (of_decide_eq_true h) _ (by simp)
  case wteBuf | wteStatus | wteLatch | cntA | cntB | cntC => exact found_wte (of_decide_eq_true h) _ (by simp)
  case mtgPolicy | mtgUcode | mtgThresh | mtgWatch | mtgStatus => exact found_mtg (of_decide_eq_true h) _ (by simp)
  case hbmStatus | hbmEcc | hbmErrAddr => exact found_hbm (of_decide_eq_true h) _ (by simp)
  case portCtl | portStatus | portErr => exact found_port (of_decide_eq_true h) _ (by simp)
  case tether | tetherStat | tetherSeq => exact found_tether (of_decide_eq_true h) _ (by simp)
  case sheafTest | sheafFail => exact found_sheafBits (of_decide_eq_true h) _ (by simp)
  case attPub | dbgMemData => exact found_digits (of_decide_eq_true h) _ (by simp)
  case gaitSched => exact found_gaitSched (of_decide_eq_true h)
  case apt => exact found_apt (of_decide_eq_true h)
  case evtRate => exact found_evtRate (of_decide_eq_true h)
  case region => exact found_region (of_decide_eq_true h)
  case serial => exact found_serial (of_decide_eq_true h)
  case bridleStatus => exact found_bridleStatus (of_decide_eq_true h)
  case sheafMask => exact found_sheafMask (of_decide_eq_true h)
  case lnkGait => exact found_lnkGait (of_decide_eq_true h)
  case bridleId => exact found_bridleId (of_decide_eq_true h)
  case group0 | group1 => exact found_groups (of_decide_eq_true h) _ (by simp)
  case silageCtl | silageStat | bankEcc | repair => exact found_sheaf (of_decide_eq_true h) _ (by simp)
  case bankConf => exact found_bankConf (of_decide_eq_true h)
  case mtgWord => exact found_mtgWord (of_decide_eq_true h)
  case seqState | seqFault | seqNf | seqBudget => exact found_tile (of_decide_eq_true h) _ (by simp)
  case fwaBusy | fwaStat | bwaBusy | bwaStat => exact found_arrays (of_decide_eq_true h) _ (by simp)
  case hnd | chfStat | chfChk | tsEcc => exact found_tileRest (of_decide_eq_true h) _ (by simp)
  case fwaTag | bwaTag | chfLen | chfTag => exact found_tags (of_decide_eq_true h) _ (by simp)

theorem offset_lt {r : Reg} (h : r.exists_ = true) : r.offset % 8 = 0 ∧ r.offset < 0x4900000 := by
  cases r
  all_goals
    simp only [Reg.exists_, decide_eq_true_eq] at h
    constructor <;> simp only [Reg.offset, tileAt, windowBase] <;> omega

/-- Settles O59: what the map finds lies at its offset, and each register is found there. -/
theorem registerMap : Obligations.RegisterMap := by
  refine ⟨fun r h => ?_, findsAt_ofOffset, fun r q hr hq ho => ?_⟩
  · obtain ⟨h8, hlt⟩ := offset_lt h
    exact ⟨h8, hlt, found_of_exists h⟩
  · exact Option.some.inj ((found_of_exists hr).symm.trans ((congrArg Reg.ofOffset ho).trans (found_of_exists hq)))

end Sys2Proof.Laws
end


section
/-!
SUPPORT. The copy engine: its transfers and bounds (R392, R473), and sealed units (R400 to R402).
-/

namespace Sys2Proof.Laws

open Sys2Proof.Machine Sys2Proof.Safety

/-! ### The key stream is as long as the text -/

theorem length_xorBytes {a b : List Nat} {n : Nat} (ha : a.length = n) (hb : b.length = n) : (xorBytes a b).length = n := by
  rw [xorBytes, List.length_zipWith, ha, hb, Nat.min_self]

theorem length_getD_of_all {l : List (List Nat)} {i : Nat} (h : ∀ w ∈ l, w.length = 4) (hi : i < l.length) : (l.getD i []).length = 4 := by
  rw [List.getD_eq_getElem l [] hi]
  exact h _ (List.getElem_mem hi)

theorem length_aesNextWord {words : List (List Nat)} (i : Nat) (h : ∀ w ∈ words, w.length = 4) (h8 : 8 ≤ words.length) :
    (aesNextWord i words).length = 4 := by
  have h0 := length_getD_of_all (i := 0) h (by omega)
  have h7 := length_getD_of_all (i := 7) h (by omega)
  unfold aesNextWord
  refine length_xorBytes ?_ h7
  split
  · exact length_xorBytes (by simp only [List.length_map, List.length_append, List.length_drop, List.length_take, h0]; rfl) rfl
  split
  · rw [List.length_map, h0]
  · exact h0

theorem aesWords_shape (n i : Nat) {words : List (List Nat)} (h : ∀ w ∈ words, w.length = 4) (h8 : 8 ≤ words.length) :
    (∀ w ∈ aesWords n i words, w.length = 4) ∧ (aesWords n i words).length = words.length + n := by
  induction n generalizing i words with
  | zero => exact ⟨h, rfl⟩
  | succ n ih =>
    have hnext : ∀ w ∈ aesNextWord i words :: words, w.length = 4 := by
      rw [List.forall_mem_cons]
      exact ⟨length_aesNextWord i h h8, h⟩
    obtain ⟨hall, hlen⟩ := ih (i + 1) hnext (by rw [List.length_cons]; omega)
    exact ⟨hall, by rw [aesWords, hlen, List.length_cons]; omega⟩

/-- The words of the key itself. -/
theorem keyWords_shape {key : List Byte} (hk : key.length = 32) :
    (∀ w ∈ ((List.range 8).map fun i => ((key.drop (4 * i)).take 4).map BitVec.toNat).reverse, w.length = 4) ∧
      ((List.range 8).map fun i => ((key.drop (4 * i)).take 4).map BitVec.toNat).reverse.length = 8 := by
  refine ⟨fun w hw => ?_, by simp⟩
  rw [List.mem_reverse, List.mem_map] at hw
  obtain ⟨i, hi, rfl⟩ := hw
  rw [List.mem_range] at hi
  rw [List.length_map, List.length_take, List.length_drop, hk]
  omega

theorem length_lastRoundKey {key : List Byte} (hk : key.length = 32) : ((aesRoundKeys key).getD 14 []).length = 16 := by
  obtain ⟨hfirst, h8⟩ := keyWords_shape hk
  obtain ⟨hall, hlen⟩ := aesWords_shape 52 8 hfirst (le_of_eq h8.symm)
  rw [h8] at hlen
  unfold aesRoundKeys
  dsimp only
  generalize aesWords 52 8 _ = words at hall hlen ⊢
  have hflat : words.reverse.flatten.length = 240 := by
    rw [List.length_flatten, List.map_reverse, List.sum_reverse, List.map_congr_left hall, List.map_const', List.sum_replicate, hlen]
    rfl
  rw [List.getD_eq_getElem _ _ (by simp), List.getElem_map, List.getElem_range, List.length_take, List.length_drop, hflat]
  rfl

theorem length_aesEncrypt {key : List Byte} (block : List Nat) (hk : key.length = 32) : (aesEncrypt key block).length = 16 :=
  length_xorBytes ((List.length_map _).trans List.length_range) (length_lastRoundKey hk)

theorem length_gcmStream {key : List Byte} (nonce : List Byte) (n k : Nat) (hk : key.length = 32) : (gcmStream key nonce n k).length = 16 * n := by
  induction n generalizing k with
  | zero => rfl
  | succ n ih =>
    rw [gcmStream, List.length_append, ih, gcmPad, length_aesEncrypt _ hk]
    omega

/-- Adding a key stream twice gives the text back. -/
theorem zipWith_xor_twice : ∀ {text : List Byte} {stream : List Nat}, text.length ≤ stream.length →
    List.zipWith (fun b k => b ^^^ BitVec.ofNat 8 k) (List.zipWith (fun b k => b ^^^ BitVec.ofNat 8 k) text stream) stream = text
  | [], _, _ => rfl
  | b :: text, [], h => absurd h (by simp)
  | b :: text, k :: stream, h => by
    rw [List.zipWith_cons_cons, List.zipWith_cons_cons, zipWith_xor_twice (by simpa using h), BitVec.xor_assoc, BitVec.xor_self, BitVec.xor_zero]

theorem gcmCrypt_twice {key : List Byte} (nonce text : List Byte) (hk : key.length = 32) : gcmCrypt key nonce (gcmCrypt key nonce text) = text := by
  have hlen : text.length ≤ (gcmStream key nonce (ceilDiv text.length 16) 1).length := by
    rw [length_gcmStream nonce _ 1 hk, ceilDiv]
    omega
  have hsame : (gcmCrypt key nonce text).length = text.length := by rw [gcmCrypt, List.length_zipWith, Nat.min_eq_left hlen]
  rw [gcmCrypt, hsame, gcmCrypt]
  exact zipWith_xor_twice hlen

theorem sealNonce_injective {ctr ctr' : BitVec 64} (h : sealNonce ctr = sealNonce ctr') : ctr = ctr' := by
  have hbits (x : BitVec 64) : bits (sealNonce x) 0 64 = x.toNat :=
    (bits_pack (by simp) (by decide) (by simp)).trans (Nat.mod_eq_of_lt x.isLt)
  exact BitVec.eq_of_toNat_eq ((hbits ctr).symm.trans ((congrArg (fun n => bits n 0 64) h).trans (hbits ctr')))

/-! ### Transfers -/

theorem copyUnits_of_unread {s v : State} {p src dst k off : Nat} (h : s.copyRead p (src + off) = (v, none)) :
    s.copyUnits p src dst (k + 1) off = (v, { result := 2, note := 0x22, detail := off }) := by
  rw [State.copyUnits, h]
  rfl

theorem copyUnits_of_moved {s v w : State} {p src dst k off : Nat} {bs : List Byte} (hr : s.copyRead p (src + off) = (v, some bs))
    (hw : v.copyWrite p (dst + off) bs = (w, true)) : s.copyUnits p src dst (k + 1) off = w.copyUnits p src dst k (off + 64) := by
  rw [State.copyUnits, hr]
  dsimp only
  rw [hw]

theorem transferCopy_eq {s : State} {job : CopyJob} {rest : List CopyJob} (h : s.host.copies = job :: rest) :
    s.transferCopy = if !s.host.up then { s with host := { s.host with copies := rest } }
      else (({ s with host := { s.host with copies := rest } } : State).performCopy job).1.endCopy job
        (({ s with host := { s.host with copies := rest } } : State).performCopy job).2 := by
  rw [State.transferCopy, h]

theorem endCopy_of_untagged {s : State} {job : CopyJob} {e : CopyEnd} (h : e.note ≠ 0x28) :
    s.endCopy job e = s.masterWrite srcHost job.paddock job.cmd.done (copyRecord job e) := by
  rw [State.endCopy, if_neg (show ¬ e.note = noteSealTag from h)]

theorem map_overdue (s : State) (l : List CopyJob) : (l.map fun job => if s.copyOverdue job then { job with late := true } else job) =
    l.map fun j => { j with late := j.late || (!j.late && decide (j.bound ≤ s.stride)) } := by
  refine List.map_congr_left fun j _ => ?_
  rw [State.copyOverdue]
  obtain ⟨kind, queue, slot, paddock, cmd, bytes, bound, key, late⟩ := j
  cases late with
  | true => rfl
  | false => by_cases h : bound ≤ s.stride <;> simp [h]

theorem sealInUnits_of_unverified {s : State} {p u k : Nat} {key : BitVec 256} {c : CmdRec}
    (h : sealTag key (BitVec.ofNat 96 (leNat ((s.readBytes p (c.arg3 + trailerBytes * u) trailerBytes).take 12))) (sealData c.param u c.count)
      (s.readBytes p (c.arg2 + sealUnit * u) sealUnit) ≠ (s.readBytes p (c.arg3 + trailerBytes * u) trailerBytes).drop 16) :
    s.sealInUnits p key c (k + 1) u = (s, { result := 2, note := 0x28, detail := u }) := by
  rw [State.sealInUnits]
  rw [if_pos h]
  rfl

/-- Settles O36: a transfer performs its oldest job, units move one by one, and the key stream added twice gives the text back. -/
theorem copyEngine : Obligations.CopyEngine := by
  refine ⟨⟨fun s env job rest hp hq => ?_, fun s p src dst k off => ⟨rfl, fun v h => copyUnits_of_unread h, fun v bs w hr hw => copyUnits_of_moved hr hw⟩,
    fun s hp => ?_⟩, fun key nonce bs => gcmCrypt_twice _ bs (leBytes_length 32 _), fun s p u k key c => ?_, fun ctr ctr' h => sealNonce_injective h⟩
  · have hx : exec (.copyEngineTransfer env) s = .next (s.takeEnv env).transferCopy := exec_running hp
    have hq' : (s.takeEnv env).host.copies = job :: rest := by rw [takeEnv_host, hq]
    rw [transferCopy_eq hq', takeEnv_host] at hx
    refine ⟨fun hdown => ?_, fun hup v x hperf hnote => ?_⟩
    · rw [hx, hdown]
      simp
    · rw [hx, hup, ← takeEnv_host s env, hperf]
      exact congrArg Host.Outcome.next (endCopy_of_untagged hnote)
  · have hx : exec .copyBoundExpiry s = .next s.expireCopies := exec_running hp
    rw [hx, State.expireCopies]
    dsimp only
    rw [map_overdue]
    rfl
  · intro cipher trailer nonce htag
    exact sealInUnits_of_unverified htag

end Sys2Proof.Laws
end


section
/-!
SUPPORT. The admission of PROGRAM_SET and RESTART (R54, R55, R241, R242, R444, R445).
-/

namespace Sys2Proof.Laws

open Sys2Proof.Machine Sys2Proof.Safety

/-! ### Bits set one by one -/

theorem bit_withBit {n k : Nat} (v : BitVec n) (i : Nat) (b : Bool) (hk : k < n) : bit (withBit v i b) k = if k = i then b else bit v k := by
  have hone : (BitVec.ofNat n (1 <<< i)).getLsbD k = decide (k = i) := by
    rw [BitVec.getLsbD_ofNat, decide_eq_true hk, Bool.true_and, Nat.one_shiftLeft, Nat.testBit_two_pow]
    exact decide_eq_decide.2 eq_comm
  unfold bit withBit
  cases b with
  | true =>
    dsimp only
    rw [if_pos rfl, BitVec.getLsbD_or, hone]
    by_cases h : k = i <;> simp [h]
  | false =>
    dsimp only
    rw [if_neg (by decide), BitVec.getLsbD_and, BitVec.getLsbD_not, hone]
    by_cases h : k = i <;> simp [h, hk]

theorem bit_foldl_withBit {α : Type} {n k : Nat} (g : α → Nat) (l : List α) (v : BitVec n) (hk : k < n) :
    bit (l.foldl (fun v x => withBit v (g x) true) v) k = true ↔ bit v k = true ∨ ∃ x ∈ l, g x = k := by
  induction l generalizing v with
  | nil => simp
  | cons x l ih =>
    rw [List.foldl_cons, ih, bit_withBit v (g x) true hk, List.exists_mem_cons_iff]
    by_cases h : k = g x
    · simp [h]
    · simp [h, Ne.symm h]

theorem bit_sheafSet {tiles : List Nat} {m : Nat} (hm : m < 400) : bit (sheafSet tiles) m = true ↔ ∃ n ∈ tiles, n / 64 = m := by
  rw [sheafSet, bit_foldl_withBit (fun n => n / 64) tiles 0 hm]
  simp [bit]

theorem mem_setIndices {n m : Nat} {v : BitVec n} : m ∈ setIndices v ↔ m < n ∧ bit v m = true := by
  rw [setIndices, List.mem_filter, List.mem_range]
  rfl

/-! ### Releases -/

theorem bit_named {is : List ProgImage} {m : Nat} (hm : m < 400) : bit (sheafSet (is.map ProgImage.tile)) m = true ↔ ∃ i ∈ is, i.tile / 64 = m := by
  rw [bit_sheafSet hm]
  simp

/-- The named sheaves that are gated. -/
theorem bit_gated (s : State) (named : BitVec 400) {m : Nat} (hm : m < 400) :
    bit ((setIndices named).foldl (fun (v : BitVec 400) m => if (s.sheaf m).active then v else withBit v m true) 0) m = true ↔
      bit named m = true ∧ (s.sheaf m).active = false := by
  have hfun : (fun (v : BitVec 400) m => if (s.sheaf m).active then v else withBit v m true) =
      fun v m => if (!(s.sheaf m).active) = true then withBit v m true else v := by
    funext v m
    cases (s.sheaf m).active <;> rfl
  rw [hfun, ← List.foldl_filter, bit_foldl_withBit (fun m => m) _ 0 hm]
  constructor
  · rintro (h | ⟨k, hk, rfl⟩)
    · exact absurd h (by simp [bit])
    · rw [List.mem_filter, mem_setIndices, Bool.not_eq_true'] at hk
      exact ⟨hk.1.2, hk.2⟩
  · rintro ⟨hn, ha⟩
    exact .inr ⟨m, List.mem_filter.2 ⟨mem_setIndices.2 ⟨hm, hn⟩, by rw [ha]; rfl⟩, rfl⟩

theorem releaseQ_queueReleases (s : State) (is : List ProgImage) {m : Nat} (hm : m < 400) :
    bit (s.queueReleases is).power.releaseQ m = true ↔
      bit s.power.releaseQ m = true ∨ ((∃ i ∈ is, i.tile / 64 = m) ∧ (s.sheaf m).active = false) := by
  have hor (x y : BitVec 400) : bit (x ||| y) m = true ↔ bit x m = true ∨ bit y m = true := by simp [bit]
  exact (hor _ _).trans (or_congr_right ((bit_gated s _ hm).trans (and_congr_left' (bit_named hm))))

theorem returnQ_queueReleases (s : State) (is : List ProgImage) {m : Nat} (hm : m < 400) :
    bit (s.queueReleases is).power.returnQ m = true ↔ bit s.power.returnQ m = true ∧ ¬ ∃ i ∈ is, i.tile / 64 = m := by
  have hand (x y : BitVec 400) : bit (x &&& ~~~y) m = true ↔ bit x m = true ∧ ¬ bit y m = true := by simp [bit, hm]
  exact (hand _ _).trans (and_congr_right' (not_congr (bit_named hm)))

/-! ### The first image that fails a check -/

theorem firstImage_eq_none {is : List ProgImage} {f : ProgImage → Bool} (h : ∀ i ∈ is, f i = false) : firstImage is f = none := by
  rw [firstImage, Option.map_eq_none_iff, List.find?_eq_none]
  exact fun x hx => by simp [h x.1 (List.fst_mem_of_mem_zipIdx hx)]

theorem firstImage_eq_some {is : List ProgImage} {f : ProgImage → Bool} {k : Nat}
    (h : ∃ i, is[k]? = some i ∧ f i = true ∧ ∀ j < k, ∀ y, is[j]? = some y → ¬ f y = true) : firstImage is f = some k := by
  obtain ⟨i, hi, hf, hj⟩ := h
  obtain ⟨hlt, rfl⟩ := List.getElem?_eq_some_iff.1 hi
  refine Option.map_eq_some_iff.2 ⟨(is[k], k), List.find?_eq_some_iff_getElem.2 ⟨hf, k, by simpa using hlt, by simp, fun j hjk => ?_⟩, rfl⟩
  simpa using hj j hjk _ (List.getElem?_eq_getElem (hjk.trans hlt))

/-! ### The checks of R55 -/

/-- The BUDGET of an image within its bound. -/
def Lawful (i : ProgImage) : Prop := i.range.budget.toNat ≤ 98000

/-- The draw of the sheaves then active within CAP_W. -/
def Fits (v : State) (p : Nat) (is : List ProgImage) : Prop :=
  8000 + 10 * v.wouldBeActive (sheafSet ((is.filter fun i => v.holdsTile p i.tile).map ProgImage.tile)) ≤ 10 * v.field .pwrCap 0 12

/-- The image that a list has at `k`, and at no place before, fails a check. -/
def FirstAt (is : List ProgImage) (k : Nat) (bad : ProgImage → Prop) : Prop :=
  ∃ i, is[k]? = some i ∧ bad i ∧ ∀ j < k, ∀ y, is[j]? = some y → ¬ bad y

theorem FirstAt.of_iff {is : List ProgImage} {k : Nat} {bad bad' : ProgImage → Prop} (h : FirstAt is k bad) (hb : ∀ i, bad i ↔ bad' i) : FirstAt is k bad' := by
  rwa [show bad' = bad from funext fun i => propext (hb i).symm]

section
variable {v : State} {p : Nat} {load : Bool} {is : List ProgImage}

theorem not_lawful_iff (i : ProgImage) : ¬ Lawful i ↔ decide (98000 < i.range.budget.toNat) = true := by
  rw [Lawful, Nat.not_le, decide_eq_true_iff]

theorem programRefusal_of_budget {k : Nat} (h : FirstAt is k fun i => ¬ Lawful i) : v.programRefusal p load is = some (.refused noteBudget k) := by
  rw [State.programRefusal]
  rw [firstImage_eq_some (h.of_iff not_lawful_iff)]

theorem programRefusal_of_lawful (h : ∀ i ∈ is, Lawful i) :
    v.programRefusal p load is = if 10 * v.field .pwrCap 0 12 <
        8000 + 10 * v.wouldBeActive (sheafSet ((is.filter fun i => v.holdsTile p i.tile).map ProgImage.tile)) then some (.refused notePower)
      else match firstImage is (v.notSwitchable p load) with
        | some k => some (.refused noteSwitch k)
        | none => (firstImage is fun i => !v.holdsTile p i.tile).map fun k => .refused noteOwner k := by
  rw [State.programRefusal]
  rw [firstImage_eq_none fun i hi => decide_eq_false (Nat.not_lt.2 (h i hi))]
  rfl

theorem programRefusal_of_power (h : ∀ i ∈ is, Lawful i) (hp : ¬ Fits v p is) : v.programRefusal p load is = some (.refused notePower) := by
  rw [programRefusal_of_lawful h, if_pos (Nat.not_le.1 hp)]

theorem programRefusal_of_fits (h : ∀ i ∈ is, Lawful i) (hp : Fits v p is) :
    v.programRefusal p load is = match firstImage is (v.notSwitchable p load) with
      | some k => some (.refused noteSwitch k)
      | none => (firstImage is fun i => !v.holdsTile p i.tile).map fun k => .refused noteOwner k := by
  rw [programRefusal_of_lawful h, if_neg (Nat.not_lt.2 hp)]

theorem programRefusal_of_switch {k : Nat} (h : ∀ i ∈ is, Lawful i) (hp : Fits v p is) (hk : FirstAt is k fun i => v.notSwitchable p load i = true) :
    v.programRefusal p load is = some (.refused noteSwitch k) := by
  rw [programRefusal_of_fits h hp, firstImage_eq_some hk]

theorem programRefusal_of_switchable (h : ∀ i ∈ is, Lawful i) (hp : Fits v p is) (hs : ∀ i ∈ is, v.notSwitchable p load i = false) :
    v.programRefusal p load is = (firstImage is fun i => !v.holdsTile p i.tile).map fun k => .refused noteOwner k := by
  rw [programRefusal_of_fits h hp, firstImage_eq_none hs]

theorem programRefusal_of_owner {k : Nat} (h : ∀ i ∈ is, Lawful i) (hp : Fits v p is) (hs : ∀ i ∈ is, v.notSwitchable p load i = false)
    (hk : FirstAt is k fun i => v.holdsTile p i.tile = false) : v.programRefusal p load is = some (.refused noteOwner k) := by
  have hf := firstImage_eq_some (f := fun i => !v.holdsTile p i.tile) (hk.of_iff fun i => by simp)
  rw [programRefusal_of_switchable h hp hs, hf]
  rfl

theorem programRefusal_of_good (h : ∀ i ∈ is, Lawful i) (hp : Fits v p is) (hs : ∀ i ∈ is, v.notSwitchable p load i = false)
    (ho : ∀ i ∈ is, v.holdsTile p i.tile = true) : v.programRefusal p load is = none := by
  have hf := firstImage_eq_none (is := is) (f := fun i => !v.holdsTile p i.tile) fun i hi => by simp [ho i hi]
  rw [programRefusal_of_switchable h hp hs, hf]
  rfl

end

/-- The kind of a command that loads, or that restarts. -/
def progKind (load : Bool) : ProgKind := if load then .load else .restart

theorem load_progKind (load : Bool) : decide (progKind load = .load) = load := by cases load <;> rfl

theorem admitPrograms_of_refusal {v : State} {c : Fetched} {id : Nat} {load : Bool} {is : List ProgImage} {a : Answer}
    (h : v.programRefusal c.paddock load is = some a) : v.admitPrograms c id (progKind load) is = (v, a) := by
  rw [State.admitPrograms]
  dsimp only
  rw [load_progKind, h]

theorem admitPrograms_of_good {v : State} {c : Fetched} {id : Nat} {load : Bool} {is : List ProgImage}
    (h : v.programRefusal c.paddock load is = none) : v.admitPrograms c id (progKind load) is =
      (({ v with progs := v.progs ++ [{ kind := progKind load, paddock := c.paddock, queue := c.queue, stride := v.stride, images := is, reply := id }] }
        : State).queueReleases is, { settled := !load, later := true }) := by
  rw [State.admitPrograms]
  dsimp only
  rw [load_progKind, h]

theorem programSet_of_read {u : State} {c : Fetched} {id : Nat} {bs : List Byte} {is : List ProgImage}
    (ht : (u.readOperand c.paddock c.cmd.arg (16 * c.cmd.count)).2 = some bs)
    (hi : ((u.readOperand c.paddock c.cmd.arg (16 * c.cmd.count)).1.readImages c.paddock c.queue 0 (tableOf bs c.cmd.count)).2 = .inr is) :
    u.programSet c id =
      ((u.readOperand c.paddock c.cmd.arg (16 * c.cmd.count)).1.readImages c.paddock c.queue 0 (tableOf bs c.cmd.count)).1.admitPrograms c id
        (progKind true) is := by
  rw [State.programSet, show tableBytes = 16 from rfl, readOperand_eq ht]
  dsimp only
  generalize (u.readOperand c.paddock c.cmd.arg (16 * c.cmd.count)).1 = v at hi ⊢
  rw [show v.readImages c.paddock c.queue 0 (tableOf bs c.cmd.count) = (_, .inr is) from Prod.ext rfl hi]
  rfl

theorem restart_of_read {u : State} {c : Fetched} {id : Nat} {bs : List Byte} {is : List ProgImage}
    (ht : (u.readOperand c.paddock c.cmd.arg (16 * c.cmd.count)).2 = some bs)
    (hi : (u.readOperand c.paddock c.cmd.arg (16 * c.cmd.count)).1.findPrograms c.paddock 0 (tableOf bs c.cmd.count) = .inr is) :
    u.restart c id = (u.readOperand c.paddock c.cmd.arg (16 * c.cmd.count)).1.admitPrograms c id (progKind false) is := by
  rw [State.restart, show tableBytes = 16 from rfl, readOperand_eq ht]
  dsimp only
  rw [hi]
  rfl

/-- Settles O37: once the images are read, the refusal of R55 that applies answers, and without one the command waits. -/
theorem programsAdmitted : Obligations.ProgramsAdmitted := by
  intro env
  refine ⟨fun q hq => ?_, fun s is m hm _ => ⟨releaseQ_queueReleases s is hm, returnQ_queueReleases s is hm⟩⟩
  intro kind images bs is k read
  obtain ⟨g, hx, hg⟩ : ∃ g : Conduct, (∀ s, s.isRunning = true → exec q.1 s = .next ((s.takeEnv env).command q.2.1 false (some none) g)) ∧
      ∀ u c id, read u c → g u c id = (images u c bs).1.admitPrograms c id (progKind q.2.2) is := by
    simp only [List.mem_cons, List.not_mem_nil, or_false] at hq
    rcases hq with rfl | rfl
    · exact ⟨State.programSet, fun s hp => exec_running hp, fun u c id ⟨_, ht, hi⟩ => programSet_of_read ht hi⟩
    · exact ⟨State.restart, fun s hp => exec_running hp, fun u c id ⟨_, ht, hi⟩ => restart_of_read ht hi⟩
  have hrow {ok : State → Fetched → Prop} {f : Conduct} (hr : ∀ u c, ok u c → read u c)
      (hf : ∀ u c id, ok u c → (images u c bs).1.admitPrograms c id (progKind q.2.2) is = f u c id) :
      Answers q.1 (fun s => s.takeEnv env) q.2.1 ok f :=
    counted_answers g hx (fun s => takeEnv_host s env) (fun u c h => (hr u c h).1) fun u c id h => (hg u c id (hr u c h)).trans (hf u c id h)
  refine ⟨hrow (fun _ _ h => h.1) ?_, hrow (fun _ _ h => h.1) ?_, hrow (fun _ _ h => h.1) ?_, hrow (fun _ _ h => h.1) ?_, hrow (fun _ _ h => h.1) ?_⟩
  · rintro u c id ⟨-, hl, hf, hs, ho⟩
    exact admitPrograms_of_good (programRefusal_of_good hl hf hs ho)
  · rintro u c id ⟨-, hk⟩
    exact admitPrograms_of_refusal (programRefusal_of_budget hk)
  · rintro u c id ⟨-, hl, hf⟩
    exact admitPrograms_of_refusal (programRefusal_of_power hl hf)
  · rintro u c id ⟨-, hl, hf, hk⟩
    exact admitPrograms_of_refusal (programRefusal_of_switch hl hf hk)
  · rintro u c id ⟨-, hl, hf, hs, hk⟩
    exact admitPrograms_of_refusal (programRefusal_of_owner hl hf hs hk)

end Sys2Proof.Laws
end


section
/-!
SUPPORT. The program window: starts, returns from the stride wait, and the images of a load (R223, R225, R242, R253, R257).
-/

namespace Sys2Proof.Laws

open Sys2Proof.Machine Sys2Proof.Safety

/-! ### Tables -/

/-- A table of which only the keys below `b` are kept. -/
theorem get_filter_lt {α : Type} (d : α) {m : Tbl α} (b i : Nat) (h : Tbl.sorted m = true) :
    Tbl.get d (m.filter fun r => decide (r.1 < b)) i = if i < b then Tbl.get d m i else d := by
  induction m with
  | nil => exact (ite_self d).symm
  | cons c rest ih =>
    obtain ⟨j, v⟩ := c
    obtain ⟨habove, hrest⟩ := (Tbl.sorted_cons j v rest).1 h
    have ih := ih hrest
    by_cases hj : j < b
    · rw [List.filter_cons_of_pos (by simpa using hj), Tbl.get, Tbl.get, ih]
      split
      · rw [if_pos (by omega)]
      split
      · rw [ite_self]
      · rfl
    · rw [List.filter_cons_of_neg (by simpa using hj), ih]
      by_cases hi : i < b
      · rw [if_pos hi, if_pos hi, Tbl.get, if_neg (by omega), if_pos (by omega), Tbl.get_above d rest i fun c hc => by have := habove c hc; omega]
      · rw [if_neg hi, if_neg hi]

/-- Values put at successive keys. -/
theorem get_putAll (b : Nat) (body : List (BitVec 64)) (k : Nat) {m : Tbl (BitVec 64)} (i : Nat) (h : Tbl.sorted m = true) :
    Tbl.get 0 ((body.zipIdx k).foldl (fun m w => Tbl.put 0 m (b + w.2) w.1) m) i =
      if b + k ≤ i ∧ i < b + k + body.length then body.getD (i - (b + k)) 0 else Tbl.get 0 m i := by
  induction body generalizing k m with
  | nil => rw [if_neg (by simp)]; rfl
  | cons w body ih =>
    rw [List.zipIdx_cons, List.foldl_cons, ih (k + 1) (Tbl.sorted_put 0 m _ w h), List.length_cons]
    by_cases hi : i = b + k
    · rw [if_neg (by omega), if_pos (by omega), hi, Tbl.get_put_same 0 m _ w h, Nat.sub_self, List.getD_cons_zero]
    · rw [Tbl.get_put_other 0 m _ _ w h hi]
      by_cases hin : b + k ≤ i ∧ i < b + k + (body.length + 1)
      · have hsucc : i - (b + k) = i - (b + (k + 1)) + 1 := by omega
        rw [if_pos (by omega), if_pos hin, hsucc, List.getD_cons_succ]
      · rw [if_neg (by omega), if_neg hin]

theorem openFor_eq_some {s : State} {m p : Nat} : s.openFor m = some p ↔ s.runs m = some p ∧ (s.sheaf m).active = true ∧ s.isolated m = false ∧
    s.sheafFailed m = false ∧ (s.sheaf m).ran = some p ∧ bit s.power.held p = false := by
  unfold State.openFor
  cases s.runs m with
  | none => simp
  | some q =>
    dsimp only
    rw [State.isHeld, Option.ite_none_right_eq_some, Option.some.injEq]
    simp only [Bool.and_eq_true, Bool.not_eq_true', decide_eq_true_eq]
    constructor
    · rintro ⟨⟨⟨⟨⟨ha, hi⟩, hf⟩, hr⟩, hh⟩, rfl⟩
      exact ⟨rfl, ha, hi, hf, hr, hh⟩
    · rintro ⟨rfl, ha, hi, hf, hr, hh⟩
      exact ⟨⟨⟨⟨⟨ha, hi⟩, hf⟩, hr⟩, hh⟩, rfl⟩

/-! ### The loop stack at the end of a stride wait -/

section
variable {t : Tile} {pc : BitVec 11} {loops : List LoopLevel}

/-- Where no loop body ends at the wait, the tile resumes at its PC. -/
theorem afterResume_of_between (h : t.afterResume = some (pc, loops)) (hl : ∀ l, t.loops.getLast? = some l → l.stop ≠ t.pc - 1) :
    pc = t.pc ∧ loops = t.loops := by
  have he : examineLoops (t.pc - 1) t.loops.reverse = (none, t.loops.reverse) := by
    cases hrev : t.loops.reverse with
    | nil => rfl
    | cons l rest =>
      have hlast : t.loops.getLast? = some l := by rw [← List.head?_reverse, hrev, List.head?_cons]
      rw [examineLoops, if_neg (hl l hlast)]
  rw [Tile.afterResume, he] at h
  dsimp only at h
  rw [List.reverse_reverse, Option.ite_none_left_eq_some, Option.some.injEq, Prod.mk.injEq] at h
  exact ⟨h.2.1.symm, h.2.2.symm⟩

/-- Where the wait ended the body of a loop with rounds left, the tile resumes at the body's start. -/
theorem afterResume_of_bodyEnd {l : LoopLevel} (h : t.afterResume = some (pc, loops)) (hl : t.loops.getLast? = some l) (hs : l.stop = t.pc - 1)
    (hr : l.remaining ≠ 0) : pc = l.start ∧ loops = t.loops.dropLast ++ [{ l with remaining := l.remaining - 1 }] := by
  obtain ⟨rest, hrest⟩ : ∃ rest, t.loops.reverse = l :: rest := by
    rw [← List.head?_reverse] at hl
    exact List.head?_eq_some_iff.1 hl
  have hdrop : t.loops.dropLast = rest.reverse := by
    rw [← List.reverse_reverse t.loops, hrest, List.reverse_cons, List.dropLast_concat]
  rw [Tile.afterResume, hrest, examineLoops, if_pos hs, if_neg hr] at h
  dsimp only at h
  rw [Option.some.injEq, Prod.mk.injEq, List.reverse_cons] at h
  exact ⟨h.1.symm, by rw [hdrop, h.2]⟩

end

/-! ### A tile at position 2,000 -/

section
variable {s : State} {n p : Nat}

theorem openTile_of_waiting {pc : BitVec 11} {loops : List LoopLevel} (ho : s.openFor (n / 64) = some p) (hf : ∀ f ∈ (s.tile n).fresh, f.1 ≠ p)
    (hw : (s.tile n).seqState = .waiting) (ha : (s.tile n).afterResume = some (pc, loops)) :
    (s.openTile n).tile n = { (s.tile n).resume s.now with pc := pc, loops := loops } := by
  have hfresh : (s.tile n).isFresh p = false := List.any_eq_false.2 fun f hx => by simpa using hf f hx
  rw [State.openTile, ho]
  dsimp only
  rw [hfresh, if_neg (by decide), if_pos hw, State.resumeTile, ha]
  exact State.tile_setTile _ _ _ (ne_default_of_state (by simp [Tile.resume]))

theorem openTile_of_start {k : Nat} {r : ProgRange} (ho : s.openFor (n / 64) = some p) (hk : (p, some k) ∈ (s.tile n).fresh) (hs : k ≤ s.stride)
    (hl : s.loadPending p n = false) (hr : s.programOf p n = some r) : (s.openTile n).tile n = (s.tile n).start r s.now := by
  have hfresh : (s.tile n).isFresh p = true := List.any_eq_true.2 ⟨_, hk, by simp⟩
  have hdue : (s.tile n).startDueBy p s.stride = true := List.any_eq_true.2 ⟨_, hk, by simpa using hs⟩
  rw [State.openTile, ho]
  dsimp only
  rw [hfresh, if_pos rfl, hdue, hl, if_pos (by decide), hr]
  exact State.tile_setTile _ _ _ (ne_default_of_state (by simp [Tile.start]))

end

/-! ### The window and the images of a load -/

@[simp] theorem takeEnv_progs (s : State) (env : Env) : (s.takeEnv env).progs = s.progs := by
  obtain ⟨mem, units, words, h⟩ := takeEnv_eq s env
  rw [h]
  rfl

theorem takeEnv_stride (s : State) (env : Env) : (s.takeEnv env).stride = s.stride := by
  rw [State.stride, State.now, takeEnv_time]
  rfl

theorem openWindow_of_done {s : State} (h : s.time.windowDue = false) : s.openWindow = s := by
  rw [State.openWindow, h]
  rfl

theorem openWindow_of_due {s : State} (h : s.time.windowDue = true) (ha : s.time.actDue = false) :
    s.openWindow = (((({ s with time := { s.time with windowDue := false } } : State).advancePos 2000).tiles.map Prod.fst).foldl State.openTile
      (({ s with time := { s.time with windowDue := false } } : State).advancePos 2000)).queueReturns := by
  have hacted : s.unitsAct = s := by
    rw [State.unitsAct, ha]
    rfl
  rw [State.openWindow, h, hacted, if_neg (by decide)]

theorem loadImages_of_found {s : State} {c : ProgCmd} (hw : s.time.windowDue = false)
    (hc : (s.progs.find? fun c => decide (c.kind = .load) && decide (c.stride < s.stride)) = some c) :
    s.loadImages =
      match ({ s with progs := s.progs.filter fun (x : ProgCmd) => decide (x.reply ≠ c.reply) || decide (x.kind ≠ ProgKind.load) } : State).unreadableBody
        c.paddock 0 c.images with
      | (s, some k) => (c.images.foldl (fun s i => s.modTile i.tile fun t => t.loadFailed c.paddock (s.resident c.paddock i.tile)) s).settleReply c.reply
          resFailed noteOperand k
      | (s, none) => (c.images.foldl (fun s i => s.loadImage c.paddock i) s).settleReply c.reply 0 0 0 := by
  rw [State.loadImages, hc]
  dsimp only
  rw [openWindow_of_done hw] <;> rfl

/-- Settles O38: a tile starts or resumes by the case it is in, and a load writes its images once the window is open. -/
theorem programWindow : Obligations.ProgramWindow := by
  refine ⟨fun s hp => ⟨fun hd => ?_, fun hd ha => ?_⟩, fun s n p ho _ => ⟨fun pc loops hf hw hs has hl => ?_, fun k r hk hs hl hr => ?_⟩,
    fun s m p => openFor_eq_some, fun s env c hp hw => ?_, fun t r body i hs => ?_⟩
  · have hx : exec .programWindowOpen s = .next s.openWindow := exec_running hp
    rw [hx, openWindow_of_done hd]
  · have hx : exec .programWindowOpen s = .next s.openWindow := exec_running hp
    rw [hx, openWindow_of_due hd ha]
  · rw [openTile_of_waiting ho hf hw hl]
    refine ⟨rfl, rfl, rfl, rfl, afterResume_of_between hl, fun l h1 h2 h3 => afterResume_of_bodyEnd hl h1 h2 h3, rfl, rfl, rfl, fun _ => rfl,
      fun i => get_filter_lt 0 16 i hs, fun i => get_filter_lt 0 8 i has⟩
  · rw [openTile_of_start ho hk hs hl hr]
    exact ⟨rfl, rfl, rfl, rfl, rfl, rfl, rfl, fun _ => ⟨rfl, rfl, rfl, rfl⟩⟩
  · intro e hc u
    have hx : exec (.programImageLoad env) s = .next e.loadImages := exec_running hp
    have hc' : (e.progs.find? fun c => decide (c.kind = .load) && decide (c.stride < e.stride)) = some c := by
      rw [takeEnv_progs, takeEnv_stride]
      exact hc
    have hw' : e.time.windowDue = false := by
      rw [takeEnv_time]
      exact hw
    rw [loadImages_of_found hw' hc'] at hx
    refine ⟨fun v hv => ?_, fun v k hv => ?_⟩
    · rw [hx, hv]
    · rw [hx, hv]
      rfl
  · have hget := get_putAll r.origin.toNat body 0 i hs
    rwa [Nat.add_zero] at hget

end Sys2Proof.Laws
end


section
/-!
SUPPORT. A span of R443 reached past the last value of the GTC.
-/

namespace Sys2Proof.Laws

open Sys2Proof.Machine Sys2Proof.Safety

/-- Right after reset, with the GTC at position 0 of the last stride that it reaches: at position 51,616 it starts over. -/
def lastStride : State := { State.reset with time := { State.reset.time with gtc := 18446744073709500000, windowDue := false } }

/-- RETURN_SPAN of the state that an outcome leaves. -/
def spanAfter : Host.Outcome State Fault Refusal → Option Nat
  | .next t => some t.power.returnSpan
  | _ => none

/-- Refutes O39: span 50 lies at position 52,000, and the GTC passes 0 on the way there, so that the returns are counted under the span
of stride 0, not under that of the stride the span began in. -/
theorem not_sheafActivity : ¬ Obligations.SheafActivity := by
  rintro ⟨hspan, -⟩
  have hnext := (hspan lastStride 50 (by decide +kernel) (by decide +kernel)).2 (by decide) (by decide +kernel)
  have hleft : spanAfter (exec (.sheafActivitySpan 50) lastStride) = some 50 := by decide +kernel
  rw [hnext] at hleft
  exact absurd hleft (by decide +kernel)

end Sys2Proof.Laws
end


section
/-!
SUPPORT. The switch of a shared sheaf: context records and saved entries (R60, R64, R65, R243, R407).
-/

namespace Sys2Proof.Laws

open Sys2Proof.Machine Sys2Proof.Safety

/-! ### Numbers laid out one after another -/

theorem length_flatMap_leBytes (size : Nat) (ws : List Nat) : (ws.flatMap (leBytes size)).length = size * ws.length := by
  induction ws with
  | nil => rfl
  | cons w ws ih =>
    rw [List.flatMap_cons, List.length_append, leBytes_length, ih, List.length_cons]
    ring

/-- Number `i` of a run of numbers of `size` bytes. -/
theorem take_drop_numbers {size i : Nat} {bs pre post : List Byte} {ws : List Nat} (hbs : bs = pre ++ (ws.flatMap (leBytes size) ++ post))
    (h : i < ws.length) : (bs.drop (pre.length + size * i)).take size = leBytes size ws[i] := by
  have hsplit : ws.flatMap (leBytes size) = (ws.take i).flatMap (leBytes size) ++ (leBytes size ws[i] ++ (ws.drop (i + 1)).flatMap (leBytes size)) := by
    rw [← List.flatMap_cons, ← List.flatMap_append, ← List.drop_eq_getElem_cons h, List.take_append_drop]
  have hlen : ((ws.take i).flatMap (leBytes size)).length = size * i := by
    rw [length_flatMap_leBytes, List.length_take, Nat.min_eq_left (Nat.le_of_lt h)]
  rw [hbs, hsplit, List.append_assoc, List.append_assoc, ← List.drop_drop, List.drop_left, ← hlen, List.drop_left]
  exact List.take_left' (leBytes_length size _)

theorem ofNat_leNat_number {n size i : Nat} {bs pre post : List Byte} {ws : List Nat} (hbs : bs = pre ++ (ws.flatMap (leBytes size) ++ post))
    (h : i < ws.length) (hw : ws[i] < 256 ^ size) :
    BitVec.ofNat n (leNat ((bs.drop (pre.length + size * i)).take size)) = BitVec.ofNat n ws[i] := by
  rw [take_drop_numbers hbs h, leNat_leBytes, Nat.mod_eq_of_lt hw]

/-- What a table made of a list of values reads. -/
theorem get_ofList {α : Type} [DecidableEq α] (d : α) (l : List α) (k j : Nat) :
    Tbl.get d (Tbl.ofList d k l) j = if k ≤ j then l.getD (j - k) d else d := by
  induction l generalizing k with
  | nil => simp [Tbl.ofList, Tbl.get]
  | cons v l ih =>
    have hrest (hlt : k + 1 ≤ j) : Tbl.get d (Tbl.ofList d (k + 1) l) j = (v :: l).getD (j - k) d := by
      rw [ih, if_pos hlt, show j - k = j - (k + 1) + 1 by omega, List.getD_cons_succ]
    have hbelow (hlt : ¬ k + 1 ≤ j) : Tbl.get d (Tbl.ofList d (k + 1) l) j = d := by rw [ih, if_neg hlt]
    rw [Tbl.ofList]
    split
    case isTrue hv =>
      rcases Nat.lt_trichotomy j k with hj | rfl | hj
      · rw [if_neg (by omega), hbelow (by omega)]
      · rw [if_pos (le_refl j), Nat.sub_self, List.getD_cons_zero, hv, hbelow (by omega)]
      · rw [if_pos (by omega), hrest (by omega)]
    case isFalse =>
      rw [Tbl.get]
      rcases Nat.lt_trichotomy j k with hj | rfl | hj
      · rw [if_neg (by omega), if_pos hj, if_neg (by omega)]
      · rw [if_pos rfl, if_pos (le_refl j), Nat.sub_self, List.getD_cons_zero]
      · rw [if_neg (by omega), if_neg (by omega), if_pos (by omega), hrest (by omega)]

theorem get_tableAt {n size count lo i : Nat} {bs pre post : List Byte} {ws : List Nat} (hbs : bs = pre ++ (ws.flatMap (leBytes size) ++ post))
    (hlo : pre.length = lo) (hc : count = ws.length) (h : i < ws.length) (hw : ws[i] < 256 ^ size) :
    Tbl.get 0 (tableAt (n := n) bs lo size count) i = BitVec.ofNat n ws[i] := by
  have hi : i < ((List.range count).map fun i => BitVec.ofNat n (leNat ((bs.drop (lo + size * i)).take size))).length := by simpa [hc] using h
  rw [tableAt, get_ofList, if_pos (Nat.zero_le i), Nat.sub_zero, List.getD_eq_getElem _ _ hi, List.getElem_map, List.getElem_range, ← hlo]
  exact ofNat_leNat_number hbs h hw

/-! ### Fields of packed words -/

theorem ofNat_bits_pack {n lo : Nat} {l : List (Nat × Nat × Nat)} (v : BitVec n) (hmem : (lo, n, v.toNat) ∈ l) (hn : lo + n ≤ 64)
    (hdisj : ∀ f ∈ l, f = (lo, n, v.toNat) ∨ f.1 + f.2.1 ≤ lo ∨ lo + n ≤ f.1) : BitVec.ofNat n (bits (pack 64 l) lo n) = v := by
  rw [bits_pack hmem hn hdisj, Nat.mod_eq_of_lt v.isLt, BitVec.ofNat_toNat, BitVec.setWidth_eq]

theorem bit_pack {lo : Nat} {l : List (Nat × Nat × Nat)} (b : Bool) (hmem : (lo, 1, b2n b) ∈ l) (hn : lo + 1 ≤ 64)
    (hdisj : ∀ f ∈ l, f = (lo, 1, b2n b) ∨ f.1 + f.2.1 ≤ lo ∨ lo + 1 ≤ f.1) : bit (pack 64 l) lo = b := by
  have hbits := bits_pack hmem hn hdisj
  have hbit : bit (pack 64 l) lo = decide (bits (pack 64 l) lo 1 = 1) := by
    rw [bit, bits, BitVec.getLsbD, Nat.testBit_eq_decide_div_mod_eq, Nat.shiftRight_eq_div_pow, Nat.pow_one]
  rw [hbit, hbits]
  cases b <;> rfl

/-! ### Context records (R243) -/

/-- The words of the loop levels that a record holds. -/
def loopWords (t : Tile) : List Nat := (List.range 4).map fun i => match t.loops[i]? with | some l => l.word.toNat | none => 0

/-- The last words of a record. -/
def lastWords (t : Tile) : List Nat := [t.stateWord.toNat, t.nfPos.toNat, (programWord t.program).toNat]

/-- The numbers of a register file. -/
def regNumbers {n : Nat} (m : Tbl (BitVec n)) (count : Nat) : List Nat := (List.range count).map fun i => (Tbl.get 0 m i).toNat

theorem length_regNumbers {n : Nat} (m : Tbl (BitVec n)) (count : Nat) : (regNumbers m count).length = count :=
  (List.length_map _).trans List.length_range

theorem length_loopWords (t : Tile) : (loopWords t).length = 4 := (List.length_map _).trans List.length_range

theorem context_eq (t : Tile) : t.context = (regNumbers t.sregs 16).flatMap (leBytes 4) ++ ((regNumbers t.aregs 8).flatMap (leBytes 8) ++
    ((regNumbers t.lengths 8).flatMap (leBytes 4) ++ ((loopWords t).flatMap (leBytes 8) ++ ((lastWords t).flatMap (leBytes 8) ++ leBytes 40 0)))) := by
  simp only [Tile.context, regNumbers, loopWords, lastWords, List.flatMap_map, List.append_assoc, List.flatMap_cons, List.flatMap_nil,
    List.append_nil] <;> rfl

theorem length_context (t : Tile) : t.context.length = 256 := by
  rw [context_eq]
  simp only [List.length_append, length_flatMap_leBytes, leBytes_length, length_regNumbers, length_loopWords, lastWords,
    List.length_cons, List.length_nil]

/-- The numbers of a register file lie at `lo` of a record, and a tile loaded with it has them. -/
theorem get_tableAt_regNumbers {n size count lo i : Nat} {bs pre post : List Byte} {m : Tbl (BitVec n)}
    (hbs : bs = pre ++ ((regNumbers m count).flatMap (leBytes size) ++ post)) (hlo : pre.length = lo) (hi : i < count) (hn : 2 ^ n ≤ 256 ^ size) :
    Tbl.get 0 (tableAt (n := n) bs lo size count) i = Tbl.get 0 m i := by
  have hlen : count = (regNumbers m count).length := (length_regNumbers m count).symm
  have hget : (regNumbers m count)[i]'(hlen ▸ hi) = (Tbl.get 0 m i).toNat := by simp only [regNumbers, List.getElem_map, List.getElem_range]
  rw [get_tableAt hbs hlo hlen (hlen ▸ hi) (by rw [hget]; exact Nat.lt_of_lt_of_le (BitVec.isLt _) hn), hget, BitVec.ofNat_toNat, BitVec.setWidth_eq]

/-- A word of a record, by the words before it. -/
theorem recordWord_numbers {i k : Nat} {bs pre post : List Byte} {ws : List Nat} (hbs : bs = pre ++ (ws.flatMap (leBytes 8) ++ post))
    (hk : pre.length = 8 * k) (h : i < ws.length) (hw : ws[i] < 2 ^ 64) : recordWord bs (k + i) = BitVec.ofNat 64 ws[i] := by
  rw [recordWord, Nat.mul_add, ← hk]
  exact ofNat_leNat_number hbs h (Nat.lt_of_lt_of_eq hw (by decide))

theorem ofWord_word (l : LoopLevel) : LoopLevel.ofWord l.word = l := by
  obtain ⟨remaining, start, stop⟩ := l
  unfold LoopLevel.ofWord LoopLevel.word
  congr 1
  · exact ofNat_bits_pack remaining (by simp) (by decide) (by simp)
  · exact ofNat_bits_pack start (by simp) (by decide) (by simp)
  · exact ofNat_bits_pack stop (by simp) (by decide) (by simp)

section
variable (t : Tile)

theorem recordWord_loop {i : Nat} (hi : i < 4) : recordWord t.context (20 + i) = match t.loops[i]? with | some l => l.word | none => 0 := by
  have hlen : i < (loopWords t).length := by rwa [length_loopWords]
  have hget : (loopWords t)[i] = (match t.loops[i]? with | some l => l.word | none => 0 : BitVec 64).toNat := by
    simp only [loopWords, List.getElem_map, List.getElem_range]
    cases t.loops[i]? <;> rfl
  have hbs : t.context = ((regNumbers t.sregs 16).flatMap (leBytes 4) ++ ((regNumbers t.aregs 8).flatMap (leBytes 8) ++
      (regNumbers t.lengths 8).flatMap (leBytes 4))) ++ ((loopWords t).flatMap (leBytes 8) ++ ((lastWords t).flatMap (leBytes 8) ++ leBytes 40 0)) := by
    simp only [context_eq, List.append_assoc]
  rw [recordWord_numbers hbs (by simp only [List.length_append, length_flatMap_leBytes, length_regNumbers]) hlen (by rw [hget]; exact BitVec.isLt _), hget, BitVec.ofNat_toNat,
    BitVec.setWidth_eq]

theorem recordWord_last {i : Nat} (hi : i < 3) : recordWord t.context (24 + i) = BitVec.ofNat 64 (lastWords t)[i] := by
  have hbs : t.context = ((regNumbers t.sregs 16).flatMap (leBytes 4) ++ ((regNumbers t.aregs 8).flatMap (leBytes 8) ++
      ((regNumbers t.lengths 8).flatMap (leBytes 4) ++ (loopWords t).flatMap (leBytes 8)))) ++ ((lastWords t).flatMap (leBytes 8) ++ leBytes 40 0) := by
    simp only [context_eq, List.append_assoc]
  refine recordWord_numbers hbs (by simp only [List.length_append, length_flatMap_leBytes, length_regNumbers, length_loopWords]) hi ?_
  have hall : ∀ w ∈ lastWords t, w < 2 ^ 64 := by
    simp only [lastWords, List.forall_mem_cons]
    exact ⟨BitVec.isLt _, Nat.lt_of_lt_of_le t.nfPos.isLt (by decide), BitVec.isLt _, by simp⟩
  exact hall _ (List.getElem_mem hi)

theorem loops_of_context (hl : t.loops.length ≤ 4) :
    ((List.range (min 4 (bits t.stateWord 24 3))).map fun i => LoopLevel.ofWord (recordWord t.context (20 + i))) = t.loops := by
  have hcount : bits t.stateWord 24 3 = t.loops.length := by
    rw [Tile.stateWord, bits_pack (x := t.loops.length) (by simp) (by decide) (by simp), Nat.mod_eq_of_lt (by omega)]
  rw [hcount, Nat.min_eq_right hl]
  refine List.ext_getElem (by simp) fun i hi hi' => ?_
  rw [List.getElem_map, List.getElem_range, recordWord_loop t (by omega), List.getElem?_eq_getElem hi']
  exact ofWord_word _

theorem recordWord_state : recordWord t.context 24 = t.stateWord := by
  rw [recordWord_last t (i := 0) (by decide)]
  exact (BitVec.ofNat_toNat _ _).trans (BitVec.setWidth_eq _)

theorem nfPos_of_context : BitVec.ofNat 32 (bits (recordWord t.context 25) 0 32) = t.nfPos := by
  rw [recordWord_last t (i := 1) (by decide)]
  show BitVec.ofNat 32 (bits (BitVec.ofNat 64 t.nfPos.toNat) 0 32) = _
  rw [← BitVec.toNat_inj]
  have := t.nfPos.isLt
  simp only [bits, BitVec.toNat_ofNat, Nat.shiftRight_zero]
  omega

theorem stateOf_code {c : SeqState} (h : c = .waiting ∨ c = .halted ∨ c = .faulted) : stateOf c.code = c := by
  rcases h with rfl | rfl | rfl <;> rfl

theorem state_of_context (h : t.seqState = .waiting ∨ t.seqState = .halted ∨ t.seqState = .faulted) :
    stateOf (bits (recordWord t.context 24) 49 3) = t.seqState := by
  have hcode : t.seqState.code % 2 ^ 3 = t.seqState.code := by cases t.seqState <;> rfl
  rw [recordWord_state, Tile.stateWord, bits_pack (x := t.seqState.code) (by simp) (by decide) (by simp), hcode, stateOf_code h]

theorem preds_of_context {i : Nat} (h1 : 1 ≤ i) (h8 : i < 8) : bit (withBit (BitVec.ofNat 8 (bits (recordWord t.context 24) 16 8)) 0 false) i = bit t.preds i := by
  have hpreds : BitVec.ofNat 8 (bits t.stateWord 16 8) = withBit t.preds 0 true := ofNat_bits_pack _ (by simp) (by decide) (by simp)
  rw [recordWord_state, hpreds, bit_withBit _ 0 false h8, if_neg (by omega), bit_withBit _ 0 true h8, if_neg (by omega)]

end

section
variable (t : Tile) {i : Nat}

theorem sregs_of_context (hi : i < 16) : Tbl.get 0 (tableAt (n := 32) t.context 0 4 16) i = Tbl.get 0 t.sregs i :=
  get_tableAt_regNumbers (pre := []) (context_eq t) rfl hi (by decide)

theorem aregs_of_context (hi : i < 8) : Tbl.get 0 (tableAt (n := 48) t.context 0x40 8 8) i = Tbl.get 0 t.aregs i :=
  get_tableAt_regNumbers (context_eq t) (by simp only [length_flatMap_leBytes, length_regNumbers]) hi (by decide)

theorem lengths_of_context (hi : i < 8) : Tbl.get 0 (tableAt (n := 32) t.context 0x80 4 8) i = Tbl.get 0 t.lengths i := by
  have hbs : t.context = ((regNumbers t.sregs 16).flatMap (leBytes 4) ++ (regNumbers t.aregs 8).flatMap (leBytes 8)) ++
      ((regNumbers t.lengths 8).flatMap (leBytes 4) ++ ((loopWords t).flatMap (leBytes 8) ++ ((lastWords t).flatMap (leBytes 8) ++ leBytes 40 0))) := by
    simp only [context_eq, List.append_assoc]
  exact get_tableAt_regNumbers hbs (by simp only [List.length_append, length_flatMap_leBytes, length_regNumbers]) hi (by decide)

theorem withContext_sregs (x : Tile) (p : Nat) (bs : List Byte) : (x.withContext p bs).sregs = tableAt bs 0 4 16 := rfl

theorem withContext_aregs (x : Tile) (p : Nat) (bs : List Byte) : (x.withContext p bs).aregs = tableAt bs 0x40 8 8 := rfl

theorem withContext_lengths (x : Tile) (p : Nat) (bs : List Byte) : (x.withContext p bs).lengths = tableAt bs 0x80 4 8 := rfl

theorem sregs_withContext (x : Tile) (p : Nat) (hi : i < 16) : (x.withContext p t.context).s i = t.s i := by
  rw [Tile.s, withContext_sregs, sregs_of_context t hi, Tile.s]

theorem aregs_withContext (x : Tile) (p : Nat) (hi : i < 8) : (x.withContext p t.context).a i = t.a i := by
  rw [Tile.a, withContext_aregs, aregs_of_context t hi, Tile.a]

theorem lengths_withContext (x : Tile) (p : Nat) (hi : i < 8) : (x.withContext p t.context).record i = t.record i := by
  rw [Tile.record, withContext_lengths, lengths_of_context t hi, Tile.record]

theorem loops_withContext (x : Tile) (p : Nat) (hl : t.loops.length ≤ 4) : (x.withContext p t.context).loops = t.loops := by
  refine Eq.trans ?_ (loops_of_context t hl)
  rw [← recordWord_state t]
  rfl

theorem pc_of_context : BitVec.ofNat 11 (bits (recordWord t.context 24) 0 11) = t.pc := by
  rw [recordWord_state]
  exact ofNat_bits_pack t.pc (by simp) (by decide) (by simp)

theorem nfFlag_of_context : bit (recordWord t.context 24) 48 = t.nfFlag := by
  rw [recordWord_state]
  exact bit_pack t.nfFlag (by simp) (by decide) (by simp)

end

/-! ### Saved entries (R65) -/

theorem bytes_eq (x : MtgEntry) : x.bytes = ((List.range 16).map fun w => (x.savedWord w).toNat).flatMap (leBytes 8) := by
  rw [List.flatMap_map]
  rfl

theorem length_bytes (x : MtgEntry) : x.bytes.length = 128 := by
  rw [bytes_eq, length_flatMap_leBytes, List.length_map, List.length_range]

theorem recordWord_bytes (x : MtgEntry) {w : Nat} (hw : w < 16) : recordWord x.bytes w = x.savedWord w := by
  have hlen : w < ((List.range 16).map fun w => (x.savedWord w).toNat).length := by rwa [List.length_map, List.length_range]
  rw [bytes_eq, ← List.append_nil (List.flatMap _ _), recordWord_words _ _ _ hlen, List.getElem_map, List.getElem_range, BitVec.ofNat_toNat,
    BitVec.setWidth_eq]

/-- A field of a saved word is what the entry packed there. -/
theorem field_bytes (x : MtgEntry) {n : Nat} (v : BitVec n) (w lo : Nat) (l : List (Nat × Nat × Nat)) (hw : w < 16) (hl : x.savedWord w = pack 64 l)
    (hmem : (lo, n, v.toNat) ∈ l) (hn : lo + n ≤ 64) (hdisj : ∀ f ∈ l, f = (lo, n, v.toNat) ∨ f.1 + f.2.1 ≤ lo ∨ lo + n ≤ f.1) :
    BitVec.ofNat n (bits (recordWord x.bytes w) lo n) = v := by
  rw [recordWord_bytes x hw, hl, ofNat_bits_pack v hmem hn hdisj]

theorem savedWord_hist (x : MtgEntry) {w : Nat} (hw : w < 4) :
    x.savedWord w = pack 64 ((List.range 4).map fun i => (16 * i, 16, (Tbl.get 0 x.hist (4 * w + i)).toNat)) := by
  rw [MtgEntry.savedWord, if_pos (by omega)]
  match w, hw with
  | 0, _ => rfl
  | 1, _ => rfl
  | 2, _ => rfl
  | 3, _ => rfl

theorem hist_bytes (x : MtgEntry) {i : Nat} (hi : i < 16) : Tbl.get 0 (MtgEntry.ofWords (recordWord x.bytes)).hist i = Tbl.get 0 x.hist i := by
  have hfield := field_bytes x (Tbl.get 0 x.hist (4 * (i / 4) + i % 4)) (i / 4) (16 * (i % 4)) _ (by omega) (savedWord_hist x (by omega))
    (List.mem_map.2 ⟨i % 4, List.mem_range.2 (Nat.mod_lt i (by decide)), rfl⟩) (by omega) fun f hf => by
      obtain ⟨j, hj, rfl⟩ := List.mem_map.1 hf
      rcases Nat.lt_trichotomy j (i % 4) with h | rfl | h
      · exact .inr (.inl (by dsimp only; omega))
      · exact .inl rfl
      · exact .inr (.inr (by dsimp only; omega))
  rw [Nat.div_add_mod] at hfield
  rw [MtgEntry.ofWords]
  dsimp only
  rw [get_ofList, if_pos (Nat.zero_le i), Nat.sub_zero, List.getD_eq_getElem _ _ (by simpa using hi), List.getElem_map, List.getElem_range, hfield]

/-- Words 11 to 15 of a saved entry are reserved (R6). -/
theorem savedWord_reserved (x : MtgEntry) {w : Nat} (hw : 11 ≤ w) : x.savedWord w = 0 := if_neg (Nat.not_lt.2 hw)

theorem bytes_reserved (x : MtgEntry) {i : Nat} (h1 : 88 ≤ i) (h2 : i < 128) : x.bytes[i]? = some 0 := by
  have htail : ([11, 12, 13, 14, 15].flatMap fun w => leBytes 8 (x.savedWord w).toNat) = List.replicate 40 0 := by
    simp (disch := decide) only [List.flatMap_cons, List.flatMap_nil, savedWord_reserved]
    rfl
  have hsplit : x.bytes = ((List.range 11).flatMap fun w => leBytes 8 (x.savedWord w).toNat) ++ List.replicate 40 0 := by
    rw [MtgEntry.bytes, show List.range 16 = List.range 11 ++ [11, 12, 13, 14, 15] from rfl, List.flatMap_append, htail]
  have hlen : ((List.range 11).flatMap fun w => leBytes 8 (x.savedWord w).toNat).length = 88 := by
    rw [← List.flatMap_map (fun w => (x.savedWord w).toNat) (leBytes 8), length_flatMap_leBytes, List.length_map, List.length_range]
  rw [hsplit, List.getElem?_append_right (by omega), hlen, List.getElem?_replicate, if_pos (by omega)]

/-! ### The switch -/

theorem unitsAct_of_done {s : State} (h : s.time.actDue = false) : s.unitsAct = s := by
  rw [State.unitsAct, h]
  rfl

theorem switchSheaf_of_stay {s : State} {m : Nat} (ha : s.time.actDue = false) (h : s.switchTo m = none) : s.switchSheaf m = s := by
  rw [State.switchSheaf, unitsAct_of_done ha, h]

theorem switchSheaf_of_switch {s : State} {m p q : Nat} (ha : s.time.actDue = false) (h : s.switchTo m = some p) (hw : s.time.windowDue = true)
    (hm : m < 400) (hq : (((s.advancePos 1000).settleEntries m).sheaf m).ran = some q)
    (hb : bit (((s.advancePos 1000).settleEntries m).mask q) m = true) :
    s.switchSheaf m = ((((((s.advancePos 1000).settleEntries m).saveSheaf q m).clearSheafMemory m).modSheaf m fun x =>
      { x with entries := [], arrivals := [] }).loadSheaf p m).modSheaf m fun x => { x with
        ran := some p
        entriesLoaded := (((((s.advancePos 1000).settleEntries m).saveSheaf q m).clearSheafMemory m).modSheaf m fun x =>
          { x with entries := [], arrivals := [] }).stride * strideLen + 4000 } := by
  have hlate : ¬ (!s.time.windowDue || decide (400 ≤ m)) = true := by
    rw [hw, decide_eq_false (Nat.not_le.2 hm)]
    decide
  rw [State.switchSheaf, unitsAct_of_done ha, h]
  dsimp only
  rw [if_neg hlate, hq]
  dsimp only
  rw [if_pos hb]

/-- Settles O40: a sheaf that must switch saves, clears and loads, and each field of a record is read where it was laid. -/
theorem paddockSwitches : Obligations.PaddockSwitches := by
  refine ⟨fun s m hp ha => ⟨fun h => ?_, fun p q h hw hm _ => ?_⟩, fun t x p hl => ?_, fun x => ?_⟩
  · have hx : exec (.paddockSwitch m) s = .next (s.switchSheaf m) := exec_running hp
    rw [hx, switchSheaf_of_stay ha h]
  · intro u hq hb v
    have hx : exec (.paddockSwitch m) s = .next (s.switchSheaf m) := exec_running hp
    rw [hx, switchSheaf_of_switch ha h hw hm hq hb]
    rfl
  · exact ⟨fun i hi => sregs_withContext t x p hi, fun i hi => aregs_withContext t x p hi, fun i hi => lengths_withContext t x p hi,
      loops_withContext t x p hl, pc_of_context t, fun i h1 h8 => preds_of_context t h1 h8, nfFlag_of_context t, nfPos_of_context t, state_of_context t,
      length_context t⟩
  · intro y
    have hopen : bit (recordWord x.bytes 5) 39 = x.isOpen := by
      rw [recordWord_bytes x (by decide)]
      exact bit_pack x.isOpen (by simp) (by decide) (by simp)
    exact ⟨length_bytes x,
      field_bytes x x.tExp 5 56 _ (by decide) rfl (by simp) (by decide) (by simp),
      field_bytes x x.nextT 5 48 _ (by decide) rfl (by simp) (by decide) (by simp),
      field_bytes x x.rung 5 46 _ (by decide) rfl (by simp) (by decide) (by simp),
      field_bytes x x.nextRung 5 44 _ (by decide) rfl (by simp) (by decide) (by simp),
      field_bytes x x.head 5 40 _ (by decide) rfl (by simp) (by decide) (by simp),
      hopen, field_bytes x x.verdict 5 36 _ (by decide) rfl (by simp) (by decide) (by simp),
      field_bytes x x.repeats 5 34 _ (by decide) rfl (by simp) (by decide) (by simp),
      field_bytes x x.cleanRun 5 24 _ (by decide) rfl (by simp) (by decide) (by simp),
      field_bytes x x.sat 6 40 _ (by decide) rfl (by simp) (by decide) (by simp),
      field_bytes x x.zero 6 16 _ (by decide) rfl (by simp) (by decide) (by simp),
      field_bytes x x.ovfl 6 0 _ (by decide) rfl (by simp) (by decide) (by simp),
      field_bytes x x.zrange 7 48 _ (by decide) rfl (by simp) (by decide) (by simp),
      field_bytes x x.satb 7 32 _ (by decide) rfl (by simp) (by decide) (by simp),
      field_bytes x x.zerob 7 16 _ (by decide) rfl (by simp) (by decide) (by simp),
      field_bytes x x.nonfin 7 0 _ (by decide) rfl (by simp) (by decide) (by simp),
      field_bytes x x.lastAmax 10 48 _ (by decide) rfl (by simp) (by decide) (by simp),
      field_bytes x x.lastMinblk 10 32 _ (by decide) rfl (by simp) (by decide) (by simp),
      field_bytes x x.samples 8 32 _ (by decide) rfl (by simp) (by decide) (by simp),
      field_bytes x x.elems 8 0 _ (by decide) rfl (by simp) (by decide) (by simp),
      field_bytes x x.exceed 9 32 _ (by decide) rfl (by simp) (by decide) (by simp),
      field_bytes x x.maxrel 9 16 _ (by decide) rfl (by simp) (by decide) (by simp),
      field_bytes x x.abandoned 9 0 _ (by decide) rfl (by simp) (by decide) (by simp),
      fun i hi => hist_bytes x hi, fun i h1 h2 => bytes_reserved x h1 h2⟩

end Sys2Proof.Laws
end


section
/-!
SUPPORT. PADDOCK_SET and PADDOCK_RELEASE: their admission, and the composition with a change in force (R404, R409, R410, R412, R417).
-/

namespace Sys2Proof.Laws

open Sys2Proof.Machine Sys2Proof.Safety

/-- A row of the operator's with one COUNT, from what its own rules give. -/
theorem operator_answers {i : Instr} {before : State → State} {op n : Nat} {ok : State → Fetched → Prop} {f : Conduct} (g : Conduct)
    (hx : ∀ s, s.isRunning = true → exec i s = .next ((before s).command op true (some (some n)) g)) (hb : ∀ s, (before s).host = s.host)
    (hn : n ≠ 0) (hc : ∀ u c, ok u c → c.paddock = 0 ∧ c.cmd.count = n) (hf : ∀ u c id, ok u c → g u c id = f u c id) : Answers i before op ok f :=
  answers_of_command g hx hb fun u c id hacc hok => by
    obtain ⟨hp, hcount⟩ := hc u c hok
    refine (admitted_of_count id hacc (fun _ => hp) fun want h => ?_).trans (hf u c id hok)
    cases h
    exact ⟨hcount ▸ hn, fun k hk => hcount.trans (Option.some.inj hk)⟩

/-! ### Admission -/

/-- A record that the paddock rules let in force (R410, R468). -/
def SetLawful (x : State) (c : PdkChange) : Prop :=
  (x.composed.pdk c.paddock).state = (if c.isNew then .free else .active) ∧ (∀ r ∈ setIndices c.regions, (x.composed.region r).state = .none) ∧
    (∀ m ∈ setIndices c.sheaves, x.isolated m = false ∧ x.sheafFailed m = false) ∧ (c.paddock = 0 ∨ x.sec.fuses.lifecycle = 2)

theorem setForeign_eq_false {x : State} {c : PdkChange} : x.setForeign x.composed c = false ↔ SetLawful x c := by
  have hstate : (if c.isNew then decide ((x.composed.pdk c.paddock).state ≠ .free) else decide ((x.composed.pdk c.paddock).state ≠ .active)) = false ↔
      (x.composed.pdk c.paddock).state = (if c.isNew then .free else .active) := by
    cases c.isNew <;> simp
  have hfield : (decide (c.paddock ≠ 0) && !inField x) = false ↔ c.paddock = 0 ∨ x.sec.fuses.lifecycle = 2 := by
    rw [inField, show lifeField = 2 from rfl]
    by_cases h : c.paddock = 0 <;> simp [h]
  unfold State.setForeign
  dsimp only
  rw [Bool.or_eq_false_iff, Bool.or_eq_false_iff, Bool.or_eq_false_iff, hstate, hfield, List.any_eq_false, List.any_eq_false, and_assoc, and_assoc]
  simp only [SetLawful, regionsIn, sheavesOf, Bool.or_eq_true, not_or, Bool.not_eq_true, decide_eq_true_eq, not_not]

theorem paddockSet_of_read {u : State} {c : Fetched} {id : Nat} {bs : List Byte} (h : (u.readOperand c.paddock c.cmd.arg 128).2 = some bs) :
    u.paddockSet c id = if (u.readOperand c.paddock c.cmd.arg 128).1.setForeign (u.readOperand c.paddock c.cmd.arg 128).1.composed (changeOf false bs 0)
        then ((u.readOperand c.paddock c.cmd.arg 128).1, .refused noteOwner)
      else if (u.readOperand c.paddock c.cmd.arg 128).1.setCrowded (u.readOperand c.paddock c.cmd.arg 128).1.composed (changeOf false bs 0)
        then ((u.readOperand c.paddock c.cmd.arg 128).1, .refused noteSlots)
      else (u.readOperand c.paddock c.cmd.arg 128).1.admitChange (changeOf false bs id) := by
  rw [State.paddockSet, readOperand_eq h]
  rfl

theorem paddockRelease_of_read {u : State} {c : Fetched} {id : Nat} {bs : List Byte} (h : (u.readOperand c.paddock c.cmd.arg 128).2 = some bs) :
    u.paddockRelease c id =
      if (u.readOperand c.paddock c.cmd.arg 128).1.releaseForeign (u.readOperand c.paddock c.cmd.arg 128).1.composed (changeOf true bs 0)
        then ((u.readOperand c.paddock c.cmd.arg 128).1, .refused noteOwner)
      else (u.readOperand c.paddock c.cmd.arg 128).1.admitChange (changeOf true bs id) := by
  rw [State.paddockRelease, readOperand_eq h]
  rfl

theorem releaseForeign_of_inactive {x t : State} {c : PdkChange} (h : (t.pdk c.paddock).state ≠ .active ∨ (c.whole = true ∧ c.paddock = 0)) :
    x.releaseForeign t c = true := by
  unfold State.releaseForeign
  dsimp only
  rcases h with h | ⟨hw, hp⟩
  · rw [decide_eq_true h, Bool.true_or, Bool.true_or]
  · rw [hw, decide_eq_true hp, Bool.and_self, Bool.or_true, Bool.true_or]

/-! ### The composition with a change -/

theorem mask_setMask_same (s : State) (p : Nat) (v : BitVec 400) (h : Tbl.sorted s.masks = true) : (s.setMask p v).mask p = v :=
  Tbl.get_put_same 0 s.masks p v h

theorem mask_setMask_other (s : State) {p q : Nat} (v : BitVec 400) (h : Tbl.sorted s.masks = true) (hq : q ≠ p) : (s.setMask p v).mask q = s.mask q :=
  Tbl.get_put_other 0 s.masks p q v h hq

theorem region_setRegion_same (s : State) (r : Nat) (x : Region) (h : Tbl.sorted s.regions = true) : (s.setRegion r x).region r = x :=
  Tbl.get_put_same _ s.regions r x h

theorem region_setRegion_other (s : State) {r k : Nat} (x : Region) (h : Tbl.sorted s.regions = true) (hk : k ≠ r) :
    (s.setRegion r x).region k = s.region k := by
  unfold State.region State.setRegion Tbl.put
  dsimp only
  split
  · exact Tbl.get_drop_other _ _ _ _ h hk
  · exact Tbl.get_insert_other _ _ _ _ _ hk

theorem setRegions_regions (s : State) (rs : List Nat) (x : Region) (h : Tbl.sorted s.regions = true) :
    Tbl.sorted (s.setRegions rs x).regions = true ∧ ∀ r, (s.setRegions rs x).region r = if r ∈ rs then x else s.region r := by
  induction rs generalizing s with
  | nil => exact ⟨h, fun r => (if_neg (by simp)).symm⟩
  | cons k rs ih =>
    obtain ⟨hs, hr⟩ := ih (s.setRegion k x) (Tbl.sorted_put _ _ _ _ h)
    refine ⟨hs, fun r => (hr r).trans ?_⟩
    by_cases hrs : r ∈ rs
    · rw [if_pos hrs, if_pos (List.mem_cons_of_mem _ hrs)]
    · by_cases hk : r = k
      · rw [if_neg hrs, hk, if_pos List.mem_cons_self, region_setRegion_same s k x h]
      · rw [if_neg hrs, if_neg (by simp [hk, hrs]), region_setRegion_other s x h hk]

theorem masks_setRegions (s : State) (rs : List Nat) (x : Region) : (s.setRegions rs x).masks = s.masks := by
  induction rs generalizing s with
  | nil => rfl
  | cons k rs ih => exact (ih _).trans rfl

section
variable {s : State} {c : PdkChange}

theorem withChange_of_set (h : c.release = false) :
    (s.withChange c).masks = (s.setMask c.paddock (s.mask c.paddock ||| c.sheaves)).masks ∧
      (s.withChange c).regions = (s.setRegions (regionsIn c.regions) { state := .owned, owner := BitVec.ofNat 4 c.paddock }).regions := by
  have hmasks := masks_setRegions s (regionsIn c.regions) { state := .owned, owner := BitVec.ofNat 4 c.paddock }
  unfold State.withChange
  dsimp only
  rw [h, if_neg (by decide)]
  generalize s.setRegions (regionsIn c.regions) { state := .owned, owner := BitVec.ofNat 4 c.paddock } = u at hmasks ⊢
  have hsame (v : BitVec 400) : (u.setMask c.paddock v).masks = (s.setMask c.paddock v).masks := congrArg (fun m => Tbl.put 0 m c.paddock v) hmasks
  rw [← hsame]
  cases c.isNew <;> exact ⟨rfl, rfl⟩

theorem withChange_of_part (h : c.release = true) (hw : c.whole = false) :
    (s.withChange c).masks = (s.setMask c.paddock (s.mask c.paddock &&& ~~~c.sheaves)).masks ∧
      (s.withChange c).regions = (s.setRegions (regionsIn c.regions) { state := .scrubbing, owner := BitVec.ofNat 4 c.paddock }).regions := by
  have hmasks := masks_setRegions s (regionsIn c.regions) { state := .scrubbing, owner := BitVec.ofNat 4 c.paddock }
  unfold State.withChange
  simp only [h, hw, if_true, Bool.false_eq_true, if_false]
  generalize s.setRegions (regionsIn c.regions) { state := .scrubbing, owner := BitVec.ofNat 4 c.paddock } = u at hmasks ⊢
  have hmask : u.mask c.paddock = s.mask c.paddock := congrArg (fun m => Tbl.get 0 m c.paddock) hmasks
  rw [hmask, State.setMask, State.setMask, hmasks]
  exact ⟨rfl, rfl⟩

theorem withChange_of_whole (h : c.release = true) (hw : c.whole = true) :
    (s.withChange c).masks = (s.setMask c.paddock 0).masks ∧
      (s.withChange c).regions = (s.setRegions (s.regionsOf c.paddock) { state := .scrubbing, owner := BitVec.ofNat 4 c.paddock }).regions ∧
      ((s.withChange c).pdk c.paddock).state = .releasing := by
  have hmasks := masks_setRegions s (s.regionsOf c.paddock) { state := .scrubbing, owner := BitVec.ofNat 4 c.paddock }
  unfold State.withChange
  simp only [h, hw, if_true]
  generalize s.setRegions (s.regionsOf c.paddock) { state := .scrubbing, owner := BitVec.ofNat 4 c.paddock } = u at hmasks ⊢
  refine ⟨congrArg (fun m => Tbl.put 0 m c.paddock 0) hmasks, rfl, ?_⟩
  have hne (x : Paddock) : { x with state := .releasing } ≠ paddockReset c.paddock := fun he => by
    have hstate := congrArg Paddock.state he
    have hreset : (paddockReset c.paddock).state = if c.paddock = 0 then .active else .free := rfl
    rw [hreset] at hstate
    split at hstate <;> cases hstate
  exact congrArg Paddock.state (Tbl.get_put_nondefault _ _ _ _ (hne _))

theorem mask_of_masks {t u : State} (h : t.masks = u.masks) (q : Nat) : t.mask q = u.mask q := congrArg (fun m => Tbl.get 0 m q) h

theorem region_of_regions {t u : State} (h : t.regions = u.regions) (r : Nat) : t.region r = u.region r :=
  congrArg (fun m => Tbl.get (regionReset r) m r) h

theorem mask_withChange_other (hs : Tbl.sorted s.masks = true) {q : Nat} (hq : q ≠ c.paddock) : (s.withChange c).mask q = s.mask q := by
  obtain ⟨v, hv⟩ : ∃ v, (s.withChange c).masks = (s.setMask c.paddock v).masks := by
    cases hr : c.release with
    | false => exact ⟨_, (withChange_of_set hr).1⟩
    | true =>
      cases hw : c.whole with
      | false => exact ⟨_, (withChange_of_part hr hw).1⟩
      | true => exact ⟨_, (withChange_of_whole hr hw).1⟩
  rw [mask_of_masks hv, mask_setMask_other s v hs hq]

/-- The regions of a change that names them. -/
theorem region_of_listed {t : State} {x : Region} (h : t.regions = (s.setRegions (regionsIn c.regions) x).regions) (hs : Tbl.sorted s.regions = true)
    (r : Nat) : (bit c.regions r = true → t.region r = x) ∧ (¬ bit c.regions r = true → t.region r = s.region r) := by
  have hr := (region_of_regions h r).trans ((setRegions_regions s (regionsIn c.regions) x hs).2 r)
  refine ⟨fun hb => hr.trans (if_pos (mem_setIndices.2 ⟨BitVec.lt_of_getLsbD hb, hb⟩)), fun hb => hr.trans (if_neg fun hm => hb (mem_setIndices.1 hm).2)⟩

end

/-- Settles O41: the first refusal that applies answers, and each kind of change gives its mask and its regions. -/
theorem paddockChanges : Obligations.PaddockChanges := by
  refine ⟨fun env bs => ?_, fun s c r hm hr hp => ?_⟩
  · intro before v read set gone lawful take
    have hset {ok : State → Fetched → Prop} {f : Conduct} (hok : ∀ u c, ok u c → read u c) (hf : ∀ u c id, ok u c → u.paddockSet c id = f u c id) :
        Answers (.paddockSet env) before 0x40 ok f :=
      operator_answers State.paddockSet (fun s hp => exec_running hp) (fun s => takeEnv_host s env) (by decide)
        (fun u c h => ⟨(hok u c h).1, (hok u c h).2.1⟩) hf
    have hrelease {ok : State → Fetched → Prop} {f : Conduct} (hok : ∀ u c, ok u c → read u c)
        (hf : ∀ u c id, ok u c → u.paddockRelease c id = f u c id) : Answers (.paddockRelease env) before 0x41 ok f :=
      operator_answers State.paddockRelease (fun s hp => exec_running hp) (fun s => takeEnv_host s env) (by decide)
        (fun u c h => ⟨(hok u c h).1, (hok u c h).2.1⟩) hf
    refine ⟨hset (fun _ _ h => h.1) ?_, hset (fun _ _ h => h.1) ?_, hset (fun _ _ h => h.1) ?_, hrelease (fun _ _ h => h.1) ?_, hrelease (fun _ _ h => h.1) ?_⟩
    · rintro u c id ⟨⟨-, -, hread⟩, hl, hc⟩
      rw [paddockSet_of_read hread, setForeign_eq_false.2 hl, if_neg (by decide), if_neg (by rw [hc]; decide)]
      rfl
    · rintro u c id ⟨⟨-, -, hread⟩, hl⟩
      have hforeign := Bool.eq_true_of_not_eq_false fun h => hl (setForeign_eq_false.1 h)
      rw [paddockSet_of_read hread, if_pos hforeign]
      rfl
    · rintro u c id ⟨⟨-, -, hread⟩, hl, hc⟩
      rw [paddockSet_of_read hread, setForeign_eq_false.2 hl, if_neg (by decide), if_pos hc]
      rfl
    · rintro u c id ⟨⟨-, -, hread⟩, hf⟩
      rw [paddockRelease_of_read hread, if_neg (by rw [hf]; decide)]
      rfl
    · rintro u c id ⟨⟨-, -, hread⟩, hf⟩
      rw [paddockRelease_of_read hread, if_pos (releaseForeign_of_inactive hf)]
      rfl
  · intro t listed
    refine ⟨fun q hq => mask_withChange_other hm hq, fun hrel => ?_, fun hrel hw => ?_, fun hrel hw => ?_⟩
    · obtain ⟨hmask, hreg⟩ := withChange_of_set (s := s) hrel
      exact ⟨(mask_of_masks hmask _).trans (mask_setMask_same s _ _ hm), region_of_listed hreg hr r⟩
    · obtain ⟨hmask, hreg⟩ := withChange_of_part (s := s) hrel hw
      exact ⟨(mask_of_masks hmask _).trans (mask_setMask_same s _ _ hm), region_of_listed hreg hr r⟩
    · obtain ⟨hmask, hreg, hstate⟩ := withChange_of_whole (s := s) hrel hw
      refine ⟨(mask_of_masks hmask _).trans (mask_setMask_same s _ _ hm), hstate, fun ho hown h512 => ?_⟩
      have hmem : r ∈ s.regionsOf c.paddock := by
        rw [State.regionsOf, List.mem_filter, List.mem_range]
        exact ⟨h512, by simp [ho, hown]⟩
      rw [region_of_regions hreg, (setRegions_regions s _ _ hr).2, if_pos hmem]

end Sys2Proof.Laws
end


section
/-!
SUPPORT. The ends of region clears and of key sweeps, and patrol reads (R310, R314, R415, R422).
-/

namespace Sys2Proof.Laws

open Sys2Proof.Machine Sys2Proof.Safety

/-- An event just raised is on its way to the Gleaner. -/
theorem mem_raise_arriving (s : State) (src : Nat) (c : EventCode) (payload : BitVec 128) :
    ∃ e ∈ (s.raise src c payload).gleaner.arriving, e.cls = BitVec.ofNat 16 c.1 ∧ e.code = BitVec.ofNat 16 c.2 ∧ e.payload = payload := by
  rw [State.raise, State.raiseAt_arriving]
  exact ⟨_, List.mem_append_right _ (List.mem_singleton_self _), rfl, rfl, rfl⟩

/-! ### Region clears -/

/-- A region that is cleared is NONE and its units are clear; the rest of memory stays. -/
def cleared (s : State) (r : Nat) : State := (s.clearRegion r).setRegion r {}

section
variable {s : State} {r : Nat}

theorem get_filter_of_kept {α : Type} (d : α) {m : Tbl α} (f : Nat → Bool) {k : Nat} (h : Tbl.sorted m = true) (hk : f k = true) :
    Tbl.get d (m.filter fun u => f u.1) k = Tbl.get d m k := by
  induction m with
  | nil => rfl
  | cons c rest ih =>
    obtain ⟨j, v⟩ := c
    obtain ⟨habove, hrest⟩ := (Tbl.sorted_cons j v rest).1 h
    have ih := ih hrest
    cases hj : f j with
    | true => rw [List.filter_cons_of_pos (by simpa using hj), Tbl.get, Tbl.get, ih]
    | false =>
      have hne : j ≠ k := fun he => by rw [he, hk] at hj; cases hj
      rw [List.filter_cons_of_neg (by simp [hj]), ih, Tbl.get, if_neg hne]
      split
      case isTrue hlt => exact Tbl.get_above d rest k fun c hc => by have := habove c hc; omega
      case isFalse => rfl

theorem get_filter_of_dropped {α : Type} (d : α) (m : Tbl α) (f : Nat → Bool) {k : Nat} (hk : f k = false) :
    Tbl.get d (m.filter fun u => f u.1) k = d := by
  induction m with
  | nil => rfl
  | cons c rest ih =>
    obtain ⟨j, v⟩ := c
    cases hj : f j with
    | false => rw [List.filter_cons_of_neg (by simp [hj]), ih]
    | true =>
      have hne : j ≠ k := fun he => by rw [he, hk] at hj; cases hj
      rw [List.filter_cons_of_pos (by simpa using hj), Tbl.get, if_neg hne, ih, ite_self]

theorem hbm_cleared : (cleared s r).hbm = s.hbm.filter fun u => decide (u.1 / 2 ^ 24 ≠ r) := rfl

theorem unit_cleared_of_mem {u : Nat} (h : u / 2 ^ 24 = r) : (cleared s r).unit u = {} := by
  rw [State.unit, hbm_cleared]
  exact get_filter_of_dropped _ s.hbm (fun u => decide (u / 2 ^ 24 ≠ r)) (decide_eq_false (not_not.2 h))

theorem unit_cleared_of_not_mem {u : Nat} (hs : Tbl.sorted s.hbm = true) (h : u / 2 ^ 24 ≠ r) : (cleared s r).unit u = s.unit u := by
  rw [State.unit, hbm_cleared]
  exact get_filter_of_kept _ (fun u => decide (u / 2 ^ 24 ≠ r)) hs (decide_eq_true h)

/-- What the end of a clear does to the paddocks and to the Gleaner, on top of the clear itself. -/
structure ClearedAs (s : State) (r : Nat) (t : State) : Prop where
  regions : t.regions = (cleared s r).regions
  hbm : t.hbm = (cleared s r).hbm
  mem : t.mem = s.mem
  regs : t.regs = s.regs

theorem endClear_of_idle (h : (s.region r).state ≠ .scrubbing) : s.endClear r = s := if_pos h

theorem endClear_of_scrubbing (h : (s.region r).state = .scrubbing) :
    s.endClear r = if ((cleared s r).pdk (s.region r).owner.toNat).clearing = withBit ((cleared s r).pdk (s.region r).owner.toNat).clearing r false then cleared s r
      else if withBit ((cleared s r).pdk (s.region r).owner.toNat).clearing r false = 0 then
        (cleared s r).finishRelease (s.region r).owner.toNat ((cleared s r).pdk (s.region r).owner.toNat).releasedRegions
      else (cleared s r).modPdk (s.region r).owner.toNat fun x => { x with clearing := withBit ((cleared s r).pdk (s.region r).owner.toNat).clearing r false } :=
  if_neg (not_not.2 h)

theorem clearedAs_endClear (h : (s.region r).state = .scrubbing) : ClearedAs s r (s.endClear r) := by
  rw [endClear_of_scrubbing h]
  split
  · exact ⟨rfl, rfl, rfl, rfl⟩
  split
  · constructor <;> simp only [State.finishRelease, State.raise_regions, State.raise_hbm, State.raise_mem, State.raise_regs] <;> rfl
  · exact ⟨rfl, rfl, rfl, rfl⟩

/-- Clearing a bit that is clear changes nothing. -/
theorem withBit_false_of_clear {n : Nat} {v : BitVec n} {i : Nat} (h : bit v i = false) : withBit v i false = v := by
  refine BitVec.eq_of_getLsbD_eq fun k hk => (bit_withBit v i false hk).trans ?_
  split
  case isTrue he => rw [he]; exact h.symm
  case isFalse => rfl

theorem pdk_cleared (p : Nat) : (cleared s r).pdk p = s.pdk p := rfl

theorem paddocks_endClear (h : (s.region r).state = .scrubbing) (hc : bit (s.pdk (s.region r).owner.toNat).clearing r = false) :
    (s.endClear r).paddocks = s.paddocks := by
  rw [endClear_of_scrubbing h, pdk_cleared, if_pos (withBit_false_of_clear hc).symm]
  rfl

theorem endClear_of_last (h : (s.region r).state = .scrubbing) (hr : r < 512)
    (hc : ∀ q < 512, bit (s.pdk (s.region r).owner.toNat).clearing q = true ↔ q = r) :
    s.endClear r = (cleared s r).finishRelease (s.region r).owner.toNat (s.pdk (s.region r).owner.toNat).releasedRegions := by
  have hzero : withBit (s.pdk (s.region r).owner.toNat).clearing r false = 0 := by
    refine BitVec.eq_of_getLsbD_eq fun k hk => (bit_withBit _ r false hk).trans ?_
    rw [show (0 : BitVec 512).getLsbD k = false from BitVec.getLsbD_zero]
    split
    case isTrue => rfl
    case isFalse hne => exact Bool.eq_false_iff.2 fun hb => hne ((hc k hk).1 hb)
  have hne : (s.pdk (s.region r).owner.toNat).clearing ≠ withBit (s.pdk (s.region r).owner.toNat).clearing r false := fun he => by
    have hbit := (hc r hr).2 rfl
    rw [he, hzero] at hbit
    exact absurd hbit (by simp [bit])
  rw [endClear_of_scrubbing h, pdk_cleared, if_neg hne, if_pos hzero]

theorem state_finishRelease (p n : Nat) (hs : Tbl.sorted s.paddocks = true) : ((s.finishRelease p n).pdk p).state = .free := by
  have hp : (s.finishRelease p n).paddocks = Tbl.put (paddockReset p) s.paddocks p { s.pdk p with state := .free, clearing := 0, releasedRegions := 0 } := by
    rw [State.finishRelease, State.raise_paddocks]
    rfl
  rw [State.pdk, hp, Tbl.get_put_same _ _ _ _ hs]

theorem event_finishRelease (p n : Nat) : ∃ e ∈ (s.finishRelease p n).gleaner.arriving, e.cls = 8 ∧ e.code = 1 ∧ bits e.payload 0 4 = p % 16 ∧
    bits e.payload 4 10 = n % 1024 := by
  obtain ⟨e, he, hcls, hcode, hpay⟩ := mem_raise_arriving _ srcFarrier evtPdkReleased (pack 128 [(0, 4, p), (4, 10, n)])
  refine ⟨e, he, hcls, hcode, ?_, ?_⟩
  · rw [hpay]
    exact bits_pack (by simp) (by decide) (by simp)
  · rw [hpay]
    exact bits_pack (by simp) (by decide) (by simp)

end

/-! ### Key sweeps -/

/-- What the sweep of some units of paddock `p` makes of a state. -/
structure SweptTo (p : Nat) (us : List Nat) (s w : State) : Prop where
  paddocks : w.paddocks = s.paddocks
  marks : ∀ c ∈ w.eccUnits, c ∈ s.eccUnits
  sorted : Tbl.sorted w.hbm = true
  others : ∀ x ∉ us, w.unit x = s.unit x
  swept : ∀ x ∈ us, (∀ c ∈ s.eccUnits, c.1 ≠ x) → (w.unit x).epoch = (s.pdk p).memEpoch ∧ (w.unit x).clear = false

section
variable {s v w : State} {p : Nat}

theorem sweptTo_refl (hs : Tbl.sorted s.hbm = true) : SweptTo p [] s s :=
  ⟨rfl, fun _ h => h, hs, fun _ _ => rfl, fun x hx => absurd hx (by simp)⟩

theorem SweptTo.trans {us us' : List Nat} (h : SweptTo p us s v) (h' : SweptTo p us' v w) : SweptTo p (us ++ us') s w where
  paddocks := h'.paddocks.trans h.paddocks
  marks := fun c hc => h.marks c (h'.marks c hc)
  sorted := h'.sorted
  others := fun x hx => by
    rw [List.mem_append, not_or] at hx
    exact (h'.others x hx.2).trans (h.others x hx.1)
  swept := fun x hx hm => by
    have hepoch : (v.pdk p).memEpoch = (s.pdk p).memEpoch := congrArg (fun m => (Tbl.get (paddockReset p) m p).memEpoch) h.paddocks
    by_cases hx' : x ∈ us'
    · rw [← hepoch]
      exact h'.swept x hx' fun c hc => hm c (h.marks c hc)
    · rw [h'.others x hx']
      exact h.swept x ((List.mem_append.1 hx).resolve_right hx') hm

/-- A unit rewritten under the epoch in force. -/
theorem sweptTo_of_put (u : Nat) {x : HbmUnit} (hs : Tbl.sorted s.hbm = true) (hp : w.paddocks = s.paddocks) (hm : ∀ c ∈ w.eccUnits, c ∈ s.eccUnits)
    (hh : w.hbm = Tbl.put {} s.hbm u x) (he : x.epoch = (s.pdk p).memEpoch) (hc : x.clear = false) : SweptTo p [u] s w where
  paddocks := hp
  marks := hm
  sorted := by
    rw [hh]
    exact Tbl.sorted_put _ _ _ _ hs
  others := fun y hy => by
    rw [State.unit, hh]
    exact Tbl.get_put_other _ _ _ _ _ hs (by simpa using hy)
  swept := fun y hy _ => by
    rw [List.mem_singleton.1 hy, State.unit, hh, Tbl.get_put_same _ _ _ _ hs]
    exact ⟨he, hc⟩

/-- A marked unit whose word cannot be read stays as it is. -/
theorem sweptTo_of_marked {u : Nat} {c : Nat × EccMark} (hs : Tbl.sorted s.hbm = true) (hp : w.paddocks = s.paddocks) (hm : w.eccUnits = s.eccUnits)
    (hh : w.hbm = s.hbm) (hc : c ∈ s.eccUnits) (hu : c.1 = u) : SweptTo p [u] s w where
  paddocks := hp
  marks := fun c hc => hm ▸ hc
  sorted := hh ▸ hs
  others := fun y _ => by rw [State.unit, hh, State.unit]
  swept := fun y hy hn => absurd (hu.trans (List.mem_singleton.1 hy).symm) (hn c hc)

/-- A unit under the epoch in force, with what paddock `p` reads of it. -/
def sweptUnit (s : State) (p u : Nat) : HbmUnit :=
  { stored := .underKey p (s.pdk p).memEpoch.toNat (zeroRoots s.sec.fuses) (s.plainBytes p u (s.unit u)), epoch := (s.pdk p).memEpoch, clear := false }

theorem sweptTo_sweepUnit (u : Nat) (hs : Tbl.sorted s.hbm = true) : SweptTo p [u] s (s.sweepUnit p u) := by
  unfold State.sweepUnit
  dsimp only
  split
  case h_1 k hf =>
    refine sweptTo_of_marked hs ?_ ?_ ?_ (List.mem_of_find?_eq_some hf) (by simpa using List.find?_some hf)
    all_goals simp only [State.failUnit, State.raise_paddocks, State.raise_eccUnits, State.raise_hbm] <;> rfl
  case h_2 => exact sweptTo_of_put u (x := sweptUnit (s.correctUnit u) p u) hs rfl (fun c hc => Tbl.mem_drop _ _ _ hc) rfl rfl rfl
  case h_3 => exact sweptTo_of_put u (x := sweptUnit s p u) hs rfl (fun c hc => hc) rfl rfl rfl

theorem sweptTo_foldl (us : List Nat) (hs : Tbl.sorted s.hbm = true) : SweptTo p us s (us.foldl (fun s u => s.sweepUnit p u) s) := by
  induction us generalizing s with
  | nil => exact sweptTo_refl hs
  | cons u us ih =>
    have h := sweptTo_sweepUnit (p := p) u hs
    exact h.trans (ih h.sorted)

theorem mem_of_get_ne {α : Type} {d : α} {m : Tbl α} {k : Nat} (h : Tbl.get d m k ≠ d) : (k, Tbl.get d m k) ∈ m := by
  induction m with
  | nil => exact absurd rfl h
  | cons c rest ih =>
    obtain ⟨j, v⟩ := c
    rw [Tbl.get] at h ⊢
    split at h
    case isTrue hj => rw [if_pos hj, hj]; exact List.mem_cons_self
    case isFalse hj =>
      rw [if_neg hj]
      split at h
      case isTrue => exact absurd rfl h
      case isFalse hlt => rw [if_neg hlt]; exact List.mem_cons_of_mem _ (ih h)

/-- A unit of the paddock that is not CLEAR is swept unless it carries the epoch already. -/
theorem mem_sweepUnits {u : Nat} (ho : s.hbmOwner u = some p) (hc : (s.unit u).clear = false) (he : (s.unit u).epoch ≠ (s.pdk p).memEpoch) :
    u ∈ s.sweepUnits p := by
  have hne : s.unit u ≠ {} := fun h => by rw [h] at hc; cases hc
  exact List.mem_map.2 ⟨(u, s.unit u), List.mem_filter.2 ⟨mem_of_get_ne hne, by simp [ho, hc, he]⟩, rfl⟩

theorem hbmOwner_of_mem {u : Nat} (h : u ∈ s.sweepUnits p) : s.hbmOwner u = some p := by
  obtain ⟨c, hc, rfl⟩ := List.mem_map.1 h
  have hall := (List.mem_filter.1 hc).2
  rw [Bool.and_eq_true, Bool.and_eq_true] at hall
  exact of_decide_eq_true hall.1.1

/-- The state that the sweeps leave, before SWEEP is cleared. -/
def sweptState (s : State) (p : Nat) : State := (s.sweepUnits p).foldl (fun s u => s.sweepUnit p u) s

theorem sweptState_unit {u : Nat} (hs : Tbl.sorted s.hbm = true) (ho : s.hbmOwner u = some p) (hc : (s.unit u).clear = false)
    (hm : ∀ c ∈ s.eccUnits, c.1 ≠ u) : ((sweptState s p).unit u).epoch = (s.pdk p).memEpoch ∧ ((sweptState s p).unit u).clear = false := by
  have hswept := sweptTo_foldl (p := p) (s.sweepUnits p) hs
  by_cases hmem : u ∈ s.sweepUnits p
  · exact hswept.swept u hmem hm
  · have he := not_not.1 fun he => hmem (mem_sweepUnits ho hc he)
    rw [sweptState, hswept.others u hmem]
    exact ⟨he, hc⟩

theorem endSweep_of_sweep (h : (s.pdk p).sweep = true) :
    s.endSweep p = ((sweptState s p).modPdk p fun x => { x with sweep := false }).raise srcFarrier evtKeySweepDone
      (pack 128 [(0, 4, p), (4, 4, ((sweptState s p).pdk p).memEpoch.toNat)]) := by
  rw [State.endSweep, h]
  rfl

end

/-! ### Patrol reads -/

theorem patrol_of_idle {s : State} {k u : Nat} (h : s.field .scrubCtl 0 1 = 0 ∨ stackOf u ≠ k ∨ s.eccUnits.find? (fun c => decide (c.1 = u)) = none) :
    s.patrol k u = s := by
  rw [State.patrol]
  split
  case isTrue => rfl
  case isFalse hn =>
    rw [not_or] at hn
    rw [(h.resolve_left hn.1).resolve_left hn.2]

theorem patrol_of_marked {s : State} {k u : Nat} {c : Nat × EccMark} (hp : s.field .scrubCtl 0 1 = 1) (hk : stackOf u = k)
    (hc : s.eccUnits.find? (fun c => decide (c.1 = u)) = some c) :
    s.patrol k u = match c.2 with | .uncorrectable => s.failUnit u true | .correctable => s.correctUnit u := by
  obtain ⟨i, m⟩ := c
  rw [State.patrol, if_neg (by rw [hp]; simp [hk]), hc]
  cases m <;> rfl

/-- Settles O42: a clear leaves its region empty, a sweep rewrites the units of its list, and a patrol read acts on the mark it finds. -/
theorem clearsAndSweeps : Obligations.ClearsAndSweeps := by
  refine ⟨fun s r hp => ?_, fun s p hp => ⟨fun h => ?_, fun h hs hh => ?_⟩, fun s k u env hp => ?_⟩
  · intro p
    have hx : exec (.regionClearEnd r) s = .next (s.endClear r) := exec_running hp
    refine ⟨fun h => by rw [hx, endClear_of_idle h], fun h hs => ⟨_, hx, ?_⟩⟩
    obtain ⟨hregions, hhbm, hmem, hregs⟩ := clearedAs_endClear h
    have hunit (u : Nat) : (s.endClear r).unit u = (cleared s r).unit u := by rw [State.unit, hhbm, State.unit]
    refine ⟨(region_of_regions hregions r).trans (region_setRegion_same _ r {} hs), fun q hq => (region_of_regions hregions q).trans (region_setRegion_other _ {} hs hq),
      fun u hu => (hunit u).trans (unit_cleared_of_mem hu), fun hh u hu => (hunit u).trans (unit_cleared_of_not_mem hh hu), hmem, hregs,
      fun hc => paddocks_endClear h hc, fun hc hr hsp => ?_⟩
    rw [endClear_of_last h hr hc]
    refine ⟨state_finishRelease _ _ hsp, ?_⟩
    obtain ⟨e, he, hcls, hcode, h0, h4⟩ := event_finishRelease (s := cleared s r) p (s.pdk p).releasedRegions
    exact ⟨e, he, hcls, hcode, h0.trans (Nat.mod_eq_of_lt (s.region r).owner.isLt), h4⟩
  · have hx : exec (.keySweepEnd p) s = .next (s.endSweep p) := exec_running hp
    rw [hx, State.endSweep, h]
    rfl
  · have hx : exec (.keySweepEnd p) s = .next (s.endSweep p) := exec_running hp
    have hswept : SweptTo p (s.sweepUnits p) s (sweptState s p) := sweptTo_foldl (s.sweepUnits p) hh
    have hunit (u : Nat) : (s.endSweep p).unit u = (sweptState s p).unit u := by
      rw [endSweep_of_sweep h, State.unit, State.raise_hbm]
      rfl
    refine ⟨_, hx, ?_, fun u ho hc hm => by rw [hunit]; exact sweptState_unit hh ho hc hm,
      fun u ho => (hunit u).trans (hswept.others u fun hmem => ho (hbmOwner_of_mem hmem)), ?_⟩
    · have hpdk : (s.endSweep p).paddocks = Tbl.put (paddockReset p) (sweptState s p).paddocks p { (sweptState s p).pdk p with sweep := false } := by
        rw [endSweep_of_sweep h, State.raise_paddocks]
        rfl
      rw [State.pdk, hpdk, Tbl.get_put_same _ _ _ _ (by rw [hswept.paddocks]; exact hs)]
    · rw [endSweep_of_sweep h]
      obtain ⟨e, he, hcls, hcode, hpay⟩ := mem_raise_arriving ((sweptState s p).modPdk p fun x => { x with sweep := false }) srcFarrier evtKeySweepDone
        (pack 128 [(0, 4, p), (4, 4, ((sweptState s p).pdk p).memEpoch.toNat)])
      refine ⟨e, he, hcls, hcode, ?_⟩
      rw [hpay]
      exact bits_pack (by simp) (by decide) (by simp)
  · intro e mark
    have hx : exec (.patrolRead k u env) s = .next (e.patrol k u) := exec_running hp
    have hfield : e.field .scrubCtl 0 1 = s.field .scrubCtl 0 1 := by
      rw [State.field, State.reg, takeEnv_regs, State.field, State.reg]
    refine ⟨fun h => ?_, fun h1 hk hm => ?_, fun h1 hk hm => ?_⟩
    · rw [hx, patrol_of_idle]
      rw [hfield]
      exact h.imp_right fun h => h.imp_right fun h => Option.map_eq_none_iff.1 h
    · obtain ⟨c, hc, hc2⟩ := Option.map_eq_some_iff.1 hm
      rw [hx, patrol_of_marked (hfield.trans h1) hk hc, hc2]
    · obtain ⟨c, hc, hc2⟩ := Option.map_eq_some_iff.1 hm
      rw [hx, patrol_of_marked (hfield.trans h1) hk hc, hc2]

end Sys2Proof.Laws
end


section
/-!
SUPPORT. KEY_ROTATE, SEAL_KEY and ATTEST (R421 to R425, R430 to R434).
-/

namespace Sys2Proof.Laws

open Sys2Proof.Machine Sys2Proof.Safety

/-- A row with one COUNT that any paddock may send, from what its own rules give. -/
theorem counted_answers_of {i : Instr} {before : State → State} {op n : Nat} {ok : State → Fetched → Prop} {f : Conduct} (g : Conduct)
    (hx : ∀ s, s.isRunning = true → exec i s = .next ((before s).command op false (some (some n)) g)) (hb : ∀ s, (before s).host = s.host)
    (hn : n ≠ 0) (hc : ∀ u c, ok u c → c.cmd.count = n) (hf : ∀ u c id, ok u c → g u c id = f u c id) : Answers i before op ok f :=
  answers_of_command g hx hb fun u c id hacc hok => by
    have hcount := hc u c hok
    refine (admitted_of_count id hacc (fun h => absurd h (by decide)) fun want h => ?_).trans (hf u c id hok)
    cases h
    exact ⟨hcount ▸ hn, fun k hk => hcount.trans (Option.some.inj hk)⟩

/-! ### Rotations (R421) -/

/-- The paddock that a rotation names. -/
def rotated (c : Fetched) : Nat := bits c.cmd.w5 8 4

section
variable {u : State} {c : Fetched}

theorem keyRotate_of_inactive (h : (u.composed.pdk (rotated c)).state ≠ .active) : u.keyRotate c = (u, { result := 1, note := 0x14 }) := if_pos h

theorem keyRotate_of_active (h : (u.composed.pdk (rotated c)).state = .active) :
    u.keyRotate c = if bit c.cmd.w5 0 then (u.modPdk (rotated c) fun x => { x with rotateLink := x.rotateLink + 1 }, { later := true })
      else if (u.pdk (rotated c)).sweep || (u.pdk (rotated c)).rotateMem then (u, { result := 2, note := 0x31 })
      else (u.modPdk (rotated c) fun x => { x with rotateMem := true }, { later := true }) := if_neg (not_not.2 h)

/-! ### Sealing keys (R425) -/

theorem sealsPending_iff : u.sealsPending c.paddock = true ↔ ∃ j ∈ u.host.copies, j.paddock = c.paddock ∧ j.kind ≠ .copy := by
  simp [State.sealsPending]

theorem sealKey_of_none (h : (u.pdk c.paddock).keyPair = none) : u.sealKey c = (u, { result := 2, note := 0x36 }) := by
  rw [State.sealKey]
  rw [h]
  rfl

theorem sealKey_of_pair {n : Nat} (h : (u.pdk c.paddock).keyPair = some n) :
    u.sealKey c = if u.sealsPending c.paddock then (u, { result := 2, note := 0x35 })
      else match u.readOperand c.paddock c.cmd.arg 1568 with
        | (s, none) => (s, { result := 2, note := 0x21 })
        | (s, some bs) => (s.modPdk c.paddock fun x => { x with sealingNext := some (Config.decapsulate n bs) }, {}) := by
  rw [State.sealKey]
  rw [h] <;> rfl

/-! ### Attestation (R430) -/

theorem attest_of_blank (h : u.sec.fuses.lifecycle = 0) : u.attest c = (u, { result := 2, note := 0x37 }) := if_pos h

/-- A report that may lie where it is asked for. -/
def Placed (u : State) (c : Fetched) : Prop := u.sec.fuses.lifecycle ≠ 0 ∧ c.cmd.arg % 64 = 0

theorem attest_of_foreign (h : Placed u c) (ho : u.ownSpan c.paddock c.cmd.arg 12064 = false) : u.attest c = (u, { result := 1, note := 0x14 }) := by
  refine (if_neg h.1).trans ((if_neg (not_not.2 h.2)).trans (if_pos ?_))
  rw [show reportBytes = 12064 from rfl, ho]
  rfl

theorem attest_of_own (h : Placed u c) (ho : u.ownSpan c.paddock c.cmd.arg 12064 = true) :
    u.attest c = if maxReports ≤ u.sec.attThisTick then (u, .failed noteAttBusy)
      else match u.readOperand c.paddock c.cmd.arg2 32 with
        | (s, none) => (s, .failed noteOperand)
        | (s, some nonce) => s.sign c.paddock c.cmd.arg nonce := by
  refine (if_neg h.1).trans ((if_neg (not_not.2 h.2)).trans ((if_neg ?_).trans rfl))
  rw [show reportBytes = 12064 from rfl, ho]
  decide

theorem attest_of_ready {nonce : List Byte} (h : Placed u c) (ho : u.ownSpan c.paddock c.cmd.arg 12064 = true) (ht : u.sec.attThisTick < 4)
    (hr : (u.readOperand c.paddock c.cmd.arg2 32).2 = some nonce) :
    u.attest c = (u.readOperand c.paddock c.cmd.arg2 32).1.sign c.paddock c.cmd.arg nonce := by
  rw [attest_of_own h ho, if_neg (show ¬ maxReports ≤ u.sec.attThisTick from Nat.not_le.2 ht), readOperand_eq hr]

end

/-- The state in which a report is made, and the key pair in it. -/
def signing (x : State) (p : Nat) : State × Nat := ({ x with sec := { x.sec with attThisTick := x.sec.attThisTick + 1 } } : State).withKeyPair p

theorem sign_eq (x : State) (p dest : Nat) (nonce : List Byte) :
    x.sign p dest nonce = if (signing x p).1.sec.attNext.toNat < (signing x p).1.sec.attLimit.toNat then
        let w := (signing x p).1.masterWrite srcFarrier p dest ((signing x p).1.report p (signing x p).1.sec.attNext.toNat (signing x p).2 nonce)
        ({ w with sec := w.sec.useLeaf }, {})
      else if 2 ^ 40 < (signing x p).1.sec.attLimit.toNat + 2 ^ 20 then ((signing x p).1, { result := 2, note := 0x33 })
      else ((signing x p).1.raise srcFarrier (8, 6) (pack 128 [(0, 40, (signing x p).1.sec.attNext.toNat), (64, 41, (signing x p).1.sec.attLimit.toNat)]),
        { result := 2, note := 0x32 }) := rfl

/-! ### The bound of the leaves (R433, R434) -/

theorem useLeaf_of_low {x : Security} (h : ¬ (storeUsed x.fuses = true ∧ (x.attNext + 1).toNat + 2 ^ 19 = x.attLimit.toNat ∧ x.attLimit.toNat + 2 ^ 20 ≤ 2 ^ 40)) :
    x.useLeaf = { x with attNext := x.attNext + 1 } := if_neg h

theorem useLeaf_of_due {x : Security} (h : storeUsed x.fuses = true ∧ (x.attNext + 1).toNat + 2 ^ 19 = x.attLimit.toNat ∧ x.attLimit.toNat + 2 ^ 20 ≤ 2 ^ 40) :
    x.useLeaf = ({ x with attNext := x.attNext + 1 } : Security).askStore (.write (BitVec.ofNat 41 (x.attLimit.toNat + 2 ^ 20))) := if_pos h

theorem askStore_fields (x : Security) (r : StoreRequest) : (x.askStore r).attNext = x.attNext ∧ (x.askStore r).attLimit = x.attLimit := by
  unfold Security.askStore
  split <;> exact ⟨rfl, rfl⟩

theorem storeUsed_iff (f : Fuses) : storeUsed f = true ↔ f.lifecycle = 1 ∨ f.lifecycle = 2 := by
  simp [storeUsed, show lifeProvisioned = 1 from rfl, show lifeField = 2 from rfl]

/-! ### The length of a report (R431) -/

theorem length_placeFields {n : Nat} {fs : List (Nat × List Byte)} (h : ∀ f ∈ fs, f.1 + f.2.length ≤ n) : (placeFields n fs).length = n := by
  have hfold (l : List (Nat × List Byte)) (hl : ∀ f ∈ l, f.1 + f.2.length ≤ n) (body : List Byte) (hb : body.length = n) :
      (l.foldl (fun body f => body.take f.1 ++ f.2 ++ body.drop (f.1 + f.2.length)) body).length = n := by
    induction l generalizing body with
    | nil => exact hb
    | cons f l ih =>
      rw [List.forall_mem_cons] at hl
      refine ih hl.2 _ ?_
      rw [List.length_append, List.length_append, List.length_take, List.length_drop, hb]
      have := hl.1
      omega
  exact hfold fs h _ List.length_replicate

theorem length_shakeDigest_le (msg : List Byte) : (shakeDigest msg).length ≤ 32 := List.length_take_le _ _

theorem length_layoutOf (s : State) (q : Nat) : (s.layoutOf q).length = 8 := by
  simp only [State.layoutOf, List.length_append, leBytes_length, List.length_cons, List.length_nil]

theorem length_digests_le (x : Security) : x.digests.length ≤ 128 := by
  have h := length_shakeDigest_le x.image
  simp only [Security.digests, List.length_append, List.length_map, List.length_range]
  omega

theorem length_layouts (s : State) : (paddockNumbers.flatMap s.layoutOf).length = 128 := by
  rw [List.length_flatMap, List.map_congr_left (fun q _ => length_layoutOf s q)]
  rfl

theorem length_reportBody (s : State) (p leaf : Nat) {nonce : List Byte} (key : List Byte) (h : nonce.length = 32) :
    (s.reportBody p leaf nonce key).length = 576 := by
  refine length_placeFields fun f hf => ?_
  have h1 := length_digests_le s.sec
  have h2 := length_shakeDigest_le (openFuseBytes s.sec.fuses)
  have h3 := length_shakeDigest_le key
  have h4 := length_layouts s
  simp only [List.mem_cons, List.not_mem_nil, or_false] at hf
  rcases hf with rfl | rfl | rfl | rfl | rfl | rfl | rfl | rfl | rfl | rfl | rfl | rfl | rfl | rfl | rfl | rfl | rfl | rfl <;>
    simp only [leBytes_length] <;> omega

theorem length_report (s : State) (p leaf pair : Nat) {nonce : List Byte} (h : nonce.length = 32) : (s.report p leaf pair nonce).length = 12064 := by
  refine length_placeFields fun f hf => ?_
  have h1 := length_reportBody s p leaf (encapsulationKey pair) h
  have h2 : (encapsulationKey pair).length = 1568 := (List.length_map _).trans List.length_range
  simp only [List.mem_cons, List.not_mem_nil, or_false] at hf
  rw [show reportBytes = 12064 from rfl]
  rcases hf with rfl | rfl | rfl
  · dsimp only
    omega
  · dsimp only
    rw [List.length_map, List.length_range]
    decide
  · dsimp only
    omega

/-! ### The statement -/

theorem keyRotate_answers {ok : State → Fetched → Prop} {f : Conduct} (hc : ∀ u c, ok u c → c.paddock = 0 ∧ c.cmd.count = 1)
    (hf : ∀ u c id, ok u c → u.keyRotate c = f u c id) : Answers .keyRotate id 0x42 ok f :=
  operator_answers (fun s c _ => s.keyRotate c) (fun s hp => exec_running hp) (fun _ => rfl) (by decide) hc hf

theorem sealKey_answers {env : Env} {ok : State → Fetched → Prop} {f : Conduct} (hc : ∀ u c, ok u c → c.cmd.count = 1568)
    (hf : ∀ u c id, ok u c → u.sealKey c = f u c id) : Answers (.sealKey env) (fun s => s.takeEnv env) 0x44 ok f :=
  counted_answers_of (fun s c _ => s.sealKey c) (fun s hp => exec_running hp) (fun s => takeEnv_host s env) (by decide) hc hf

theorem attest_answers {env : Env} {ok : State → Fetched → Prop} {f : Conduct} (hc : ∀ u c, ok u c → c.cmd.count = 12064)
    (hf : ∀ u c id, ok u c → u.attest c = f u c id) : Answers (.attest env) (fun s => s.takeEnv env) 0x43 ok f :=
  counted_answers_of (fun s c _ => s.attest c) (fun s hp => exec_running hp) (fun s => takeEnv_host s env) (by decide) hc hf

/-- Settles O43: the first check that fails answers, and a report is laid out field by field. -/
theorem securityCommands : Obligations.SecurityCommands := by
  refine ⟨⟨keyRotate_answers (fun _ _ h => ⟨h.1.1, h.1.2.1⟩) ?_, keyRotate_answers (fun _ _ h => ⟨h.1.1, h.1.2.1⟩) ?_,
    keyRotate_answers (fun _ _ h => ⟨h.1.1, h.1.2.1⟩) ?_, keyRotate_answers (fun _ _ h => ⟨h.1, h.2.1⟩) ?_, fun env => ?_⟩,
    fun env nonce => ?_, fun x => ?_, fun s p leaf pair nonce h => length_report s p leaf pair h⟩
  · rintro u c id ⟨⟨-, -, hact⟩, hb⟩
    rw [keyRotate_of_active hact, hb]
    rfl
  · rintro u c id ⟨⟨-, -, hact⟩, hb, hs, hm⟩
    replace hs : (u.pdk (rotated c)).sweep = false := hs
    replace hm : (u.pdk (rotated c)).rotateMem = false := hm
    rw [keyRotate_of_active hact, hb, hs, hm]
    rfl
  · rintro u c id ⟨⟨-, -, hact⟩, hb, hs⟩
    have hbusy : ((u.pdk (rotated c)).sweep || (u.pdk (rotated c)).rotateMem) = true := (Bool.or_eq_true _ _).mpr hs
    rw [keyRotate_of_active hact, hb, hbusy]
    rfl
  · rintro u c id ⟨-, -, hact⟩
    exact keyRotate_of_inactive hact
  · refine ⟨fun n bs => sealKey_answers (fun _ _ h => h.1) ?_, sealKey_answers (fun _ _ h => h.1) ?_, sealKey_answers (fun _ _ h => h.1) ?_,
      sealKey_answers (fun _ _ h => h.1) ?_⟩
    · rintro u c id ⟨-, hpair, hpend, hread⟩
      rw [sealKey_of_pair hpair, if_neg (fun h => hpend (sealsPending_iff.1 h)), readOperand_eq hread]
    · rintro u c id ⟨-, hpair, hpend, hread⟩
      obtain ⟨n, hn⟩ := Option.ne_none_iff_exists'.1 hpair
      rw [sealKey_of_pair hn, if_neg (fun h => hpend (sealsPending_iff.1 h)), readOperand_eq hread]
    · rintro u c id ⟨-, hpair⟩
      exact sealKey_of_none hpair
    · rintro u c id ⟨-, hpair, hpend⟩
      obtain ⟨n, hn⟩ := Option.ne_none_iff_exists'.1 hpair
      rw [sealKey_of_pair hn, if_pos (sealsPending_iff.2 hpend)]
  · refine ⟨attest_answers (fun _ _ h => h.1.1.1) ?_, attest_answers (fun _ _ h => h.1.1.1) ?_, attest_answers (fun _ _ h => h.1.1.1) ?_,
      attest_answers (fun _ _ h => h.1.1) ?_, attest_answers (fun _ _ h => h.1) ?_, attest_answers (fun _ _ h => h.1) ?_⟩
    · rintro u c id ⟨⟨⟨-, hb, ha, ho⟩, ht, hr⟩, hlt⟩
      rw [attest_of_ready ⟨hb, ha⟩ ho ht hr, sign_eq]
      exact if_pos hlt
    · rintro u c id ⟨⟨⟨-, hb, ha, ho⟩, ht, hr⟩, hle, hend⟩
      rw [attest_of_ready ⟨hb, ha⟩ ho ht hr, sign_eq]
      exact (if_neg (Nat.not_lt.2 hle)).trans (if_pos hend)
    · rintro u c id ⟨⟨⟨-, hb, ha, ho⟩, ht, hr⟩, hle, hend⟩
      rw [attest_of_ready ⟨hb, ha⟩ ho ht hr, sign_eq]
      exact (if_neg (Nat.not_lt.2 hle)).trans (if_neg (Nat.not_lt.2 hend))
    · rintro u c id ⟨⟨-, hb, ha, ho⟩, ht⟩
      rw [attest_of_own ⟨hb, ha⟩ ho, if_pos (show maxReports ≤ u.sec.attThisTick from ht)]
      rfl
    · rintro u c id ⟨-, hb⟩
      exact attest_of_blank hb
    · rintro u c id ⟨-, hb, ha, ho⟩
      exact attest_of_foreign ⟨hb, ha⟩ ho
  · by_cases h : storeUsed x.fuses = true ∧ (x.attNext + 1).toNat + 2 ^ 19 = x.attLimit.toNat ∧ x.attLimit.toNat + 2 ^ 20 ≤ 2 ^ 40
    · obtain ⟨hnext, hlimit⟩ := askStore_fields { x with attNext := x.attNext + 1 } (.write (BitVec.ofNat 41 (x.attLimit.toNat + 2 ^ 20)))
      rw [useLeaf_of_due h]
      refine ⟨hnext, hlimit, fun _ _ _ hreq => ?_, fun hn => ?_⟩
      · rw [Security.askStore, hreq]
        rfl
      · rcases hn with hn | hn
        · exact absurd ((storeUsed_iff _).1 h.1) (not_or.2 hn)
        · exact absurd h.2.1 hn
    · rw [useLeaf_of_low h]
      exact ⟨rfl, rfl, fun hu hn hl _ => absurd ⟨(storeUsed_iff _).2 hu, hn, hl⟩ h, fun _ => ⟨rfl, rfl⟩⟩

end Sys2Proof.Laws
end


section
/-!
SUPPORT. Tethers and lanes: the contracts of TETHER_OPEN, the close of a tether and the retraining of failed lanes (R361 to R363, R368, R372).
-/
namespace Sys2Proof.Laws
open Sys2Proof.Machine Sys2Proof.Safety

/-- A command of any paddock, or of paddock 0 where `operator` says so, whose COUNT has no meaning is answered as its own rules say. -/
theorem uncounted_answers {i : Instr} {before : State → State} {op : Nat} {operator : Bool} {ok : State → Fetched → Prop} {f : Conduct} (g : Conduct)
    (hx : ∀ s, s.isRunning = true → exec i s = .next ((before s).command op operator none g)) (hb : ∀ s, (before s).host = s.host)
    (hp : ∀ u c, ok u c → operator = true → c.paddock = 0) (hf : ∀ u c id, ok u c → g u c id = f u c id) : Answers i before op ok f :=
  answers_of_command g hx hb fun u c id hacc hok =>
    (admitted_of_count id hacc (hp u c hok) fun _ h => absurd h (by simp)).trans (hf u c id hok)

/-! ### TETHER_OPEN (R361, R362) -/

/-- The encodings that a contract may hold (R361). -/
def ContractWhole (x : Tether) (ports : List (Nat × Nat)) : Prop :=
  (∀ q ∈ ports, q.1 < 24 ∧ 1 ≤ q.2 ∧ q.2 ≤ 1000) ∧ (x.collective = true ∨ x.ringFrames ≠ 0)

theorem contractReserved_eq_false {x : Tether} {ports : List (Nat × Nat)} : contractReserved x ports = false ↔ ContractWhole x ports := by
  have hport (q : Nat × Nat) : (decide (24 ≤ q.1) || decide (q.2 = 0) || decide (entryCount < q.2)) = false ↔ q.1 < 24 ∧ 1 ≤ q.2 ∧ q.2 ≤ 1000 := by
    rw [entryCount]
    simp only [Bool.or_eq_false_iff, decide_eq_false_iff_not]
    omega
  have hring : (!x.collective && decide (x.ringFrames = 0)) = false ↔ x.collective = true ∨ x.ringFrames ≠ 0 := by
    cases x.collective <;> simp
  rw [contractReserved, Bool.or_eq_false_iff, List.any_eq_false, hring, ContractWhole]
  simp only [Bool.not_eq_true, hport]

theorem inField_iff {s : State} : inField s = true ↔ s.sec.fuses.lifecycle = 2 := decide_eq_true_iff

section
variable {u : State} {c : Fetched} {bs : List Byte}

/-- TETHER_OPEN with its contract in hand. -/
theorem tetherOpen_of_read (h : (u.readOperand c.paddock c.cmd.arg 64).2 = some bs) :
    u.tetherOpen c =
      let v := (u.readOperand c.paddock c.cmd.arg 64).1
      let x := contractOf c.paddock bs
      let ports := contractPorts (recordWord bs 1)
      if !inField v then (v, .failed noteLifecycle)
      else if contractReserved x ports then (v, .illegal)
      else if (v.tether (bits (recordWord bs 0) 0 12)).state ≠ .closed then (v, .refused noteOwner)
      else
        match v.placeTether (bits (recordWord bs 0) 0 12) x ports with
        | none => (v, .refused noteSlots)
        | some s' => if v.contractForeign x then (v, .refused noteOwner) else (s', .ok) := by
  rw [State.tetherOpen, readOperand_eq h]
  <;> rfl

/-- A lawful contract in FIELD comes to its tether. -/
theorem tetherOpen_of_whole (h : (u.readOperand c.paddock c.cmd.arg 64).2 = some bs)
    (hf : ((u.readOperand c.paddock c.cmd.arg 64).1).sec.fuses.lifecycle = 2)
    (hw : ContractWhole (contractOf c.paddock bs) (contractPorts (recordWord bs 1))) :
    u.tetherOpen c =
      let v := (u.readOperand c.paddock c.cmd.arg 64).1
      let x := contractOf c.paddock bs
      if (v.tether (bits (recordWord bs 0) 0 12)).state ≠ .closed then (v, .refused noteOwner)
      else
        match v.placeTether (bits (recordWord bs 0) 0 12) x (contractPorts (recordWord bs 1)) with
        | none => (v, .refused noteSlots)
        | some s' => if v.contractForeign x then (v, .refused noteOwner) else (s', .ok) := by
  rw [tetherOpen_of_read h]
  dsimp only
  rw [inField_iff.2 hf, contractReserved_eq_false.2 hw, if_neg (by decide), if_neg (by decide)]

end

/-! ### LINK_RETRAIN (R372) -/

/-- The port that a LINK_RETRAIN names. -/
def retrained (c : Fetched) : Nat := bits c.cmd.w5 0 5

/-- The lanes that a LINK_RETRAIN names. -/
def retrainedLanes (c : Fetched) : BitVec 4 := BitVec.ofNat 4 (bits c.cmd.w5 8 4)

/-- A port whose failed lanes may train again: enabled, on a LIVE module with a clock, and not in training. -/
def MayRetrain (u : State) (n : Nat) : Prop :=
  u.portEnabled n = true ∧ (u.site (n / 4)).state = 2 ∧ (u.site (n / 4)).clocked = true ∧ (u.port n).state ≠ 1

theorem mayRetrain_iff {u : State} {n : Nat} : (u.mayTrain n && decide ((u.port n).state ≠ portTraining)) = true ↔ MayRetrain u n := by
  simp only [State.mayTrain, Bool.and_eq_true, decide_eq_true_eq, and_assoc]
  rfl

/-- A retraining with a lane and a port that exists. -/
theorem retrain_of_port {u : State} {c : Fetched} (hl : retrainedLanes c ≠ 0) (hn : retrained c < 24) {b : Bool}
    (hb : (u.mayTrain (retrained c) && decide ((u.port (retrained c)).state ≠ portTraining)) = b) :
    u.retrain c = (u.modPort (retrained c) fun p => if b then { p with training := p.training ||| (retrainedLanes c &&& ~~~p.laneOk) } else p, {}) := by
  subst hb
  exact (if_neg hl).trans (if_neg (Nat.not_le.2 hn))

/-! ### The statement -/

/-- Settles O44: the first check of the command that fails answers, and each rule changes only what it names. -/
theorem tethersManaged : Obligations.TethersManaged := by
  have hclose {ok : State → Fetched → Prop} {f : Conduct} (hf : ∀ u c id, ok u c → u.tetherClose c = f u c id) :
      Answers .tetherClose id 0x31 ok f :=
    uncounted_answers (fun s c _ => s.tetherClose c) (fun s hp => exec_running hp) (fun _ => rfl) (fun _ _ _ h => absurd h (by decide)) hf
  have hretrain {ok : State → Fetched → Prop} {f : Conduct} (hp : ∀ u c, ok u c → c.paddock = 0) (hf : ∀ u c id, ok u c → u.retrain c = f u c id) :
      Answers .linkRetrain id 0x32 ok f :=
    uncounted_answers (fun s c _ => s.retrain c) (fun s hp => exec_running hp) (fun _ => rfl) (fun u c h _ => hp u c h) hf
  refine ⟨fun env bs => ?_, ⟨?_, ?_, ?_⟩, ?_, ?_, ?_, ?_⟩
  · have hopen {ok : State → Fetched → Prop} {f : Conduct} (hf : ∀ u c id, ok u c → u.tetherOpen c = f u c id) :
        Answers (.tetherOpen env) (fun s => s.takeEnv env) 0x30 ok f :=
      uncounted_answers (fun s c _ => s.tetherOpen c) (fun s hp => exec_running hp) (fun s => takeEnv_host s env) (fun _ _ _ h => absurd h (by decide)) hf
    refine ⟨fun t => hopen ?_, fun t => hopen ?_, hopen ?_, hopen ?_, hopen ?_, hopen ?_⟩
    · rintro u c id ⟨hr, hf, hw, hc, hp, ho⟩
      rw [tetherOpen_of_whole hr hf hw]
      dsimp only
      rw [if_neg (not_not.2 hc), hp]
      exact if_neg (by rw [ho]; decide)
    · rintro u c id ⟨hr, hf, hw, hc, hp, ho⟩
      rw [tetherOpen_of_whole hr hf hw]
      dsimp only
      rw [if_neg (not_not.2 hc), hp]
      exact if_pos ho
    · rintro u c id ⟨hr, hf⟩
      rw [tetherOpen_of_read hr]
      exact if_pos (by rw [eq_false_of_ne_true fun h => hf (inField_iff.1 h)]; rfl)
    · rintro u c id ⟨hr, hf, hw⟩
      rw [tetherOpen_of_read hr]
      refine (if_neg (by rw [inField_iff.2 hf]; decide)).trans (if_pos ?_)
      exact eq_true_of_ne_false fun h => hw (contractReserved_eq_false.1 h)
    · rintro u c id ⟨hr, hf, hw, hc⟩
      rw [tetherOpen_of_whole hr hf hw]
      exact if_pos hc
    · rintro u c id ⟨hr, hf, hw, hc, hp⟩
      rw [tetherOpen_of_whole hr hf hw]
      dsimp only
      rw [if_neg (not_not.2 hc), hp]
      <;> rfl
  · exact hclose fun u c id ⟨hn, hp⟩ => (if_neg hn).trans (if_neg (not_not.2 hp))
  · exact hclose fun u c id hn => if_pos hn
  · exact hclose fun u c id ⟨hn, hp⟩ => (if_neg hn).trans (if_pos hp)
  · exact hretrain (fun _ _ h => h.1) fun u c id ⟨_, hl, hn, hm⟩ => retrain_of_port hl hn (mayRetrain_iff.2 hm)
  · exact hretrain (fun _ _ h => h.1) fun u c id ⟨_, hl, hn, hm⟩ => retrain_of_port hl hn (eq_false_of_ne_true fun h => hm (mayRetrain_iff.1 h))
  · exact hretrain (fun _ _ h => h.1) fun u c id ⟨_, hl, hn⟩ => (if_neg hl).trans (if_pos hn)
  · exact hretrain (fun _ _ h => h.1) fun u c id ⟨_, hl⟩ => if_pos hl

end Sys2Proof.Laws
end


section
/-!
SUPPORT. What an entry of a port carries when the GTC starts over on the way to it (R355, R358).
-/
namespace Sys2Proof.Laws
open Sys2Proof.Machine Sys2Proof.Safety

/-- The last stride, with port 0 UP on four lanes and none of its entries assigned. -/
def lastLink : State := { lastStride with ports := [(0, { state := 2, live := 4 })] }

/-- The lane group, counted from GTC 0, in which port 0 last carried an entry, in the state that an outcome leaves. -/
def groupAfter : Host.Outcome State Fault Refusal → Option Nat
  | .next t => some (t.port 0).sentGroup
  | _ => none

/-- Refutes O45: entry 999 lies in lane group 249 of its stride, at position 99,600, and the GTC passes 0 on the way there, so that the
port has carried it in lane group 249 of stride 0, not of the stride the step began in. -/
theorem not_linkEntries : ¬ Obligations.LinkEntries := by
  rintro ⟨-, hsend, -⟩
  have hnext := ((hsend lastLink 0 999 {} (by decide +kernel)).2 (by decide +kernel) (by decide) (by decide +kernel) (by decide +kernel)).1 (by decide +kernel)
  have hgroup : groupAfter (exec (.entrySend 0 999 {}) lastLink) = some 249 := by decide +kernel
  rw [hnext] at hgroup
  exact absurd hgroup (by decide +kernel)

end Sys2Proof.Laws
end


section
/-!
SUPPORT. The lanes of a port: their failures, maps, control blocks and trainings (R369 to R372).
-/
namespace Sys2Proof.Laws
open Sys2Proof.Machine Sys2Proof.Safety

/-! ### Ports and their tables -/

/-- A changed port that is not as after reset reads back. -/
theorem port_modPort_of_ne {s : State} {n : Nat} {f : Port → Port} (h : f (s.port n) ≠ {}) : (s.modPort n f).port n = f (s.port n) :=
  Tbl.get_put_nondefault _ _ _ _ h

/-- Only what a change makes of the port counts. -/
theorem modPort_congr {s : State} {n : Nat} {f g : Port → Port} (h : f (s.port n) = g (s.port n)) : s.modPort n f = s.modPort n g :=
  congrArg (fun p => { s with ports := Tbl.put {} s.ports n p }) h

/-- A port whose link is up is not as after reset. -/
theorem ne_default_of_linkUp {p : Port} (h : p.linkUp = true) : p ≠ {} := by
  rintro rfl
  exact absurd h (by decide)

theorem port_modPort_of_linkUp {s : State} {n : Nat} {f : Port → Port} (h : (f (s.port n)).linkUp = true) : (s.modPort n f).port n = f (s.port n) :=
  port_modPort_of_ne (ne_default_of_linkUp h)

theorem satAdd_zero {w : Nat} (v : BitVec w) : satAdd v 0 = v := by
  rw [satAdd, if_pos (by simpa using v.isLt), Nat.add_zero, BitVec.ofNat_toNat, BitVec.setWidth_eq]

/-- With nothing on its way, a port's map and its live lanes are those in force. -/
theorem comingLanes_of_quiet {p : Port} (ho : p.out = []) (hr : p.remaps = []) : p.comingLanes = (p.laneMap, p.live) := by
  rw [Port.comingLanes, ho, hr]
  rfl

/-! ### LANE_FAIL (R369, R370) -/

section
variable {s : State} {n lane : Nat} {stamp : BitVec 16}

theorem failLane_of_idle (h : (s.port n).linkUp = false ∨ 4 ≤ lane) : s.failLane n lane stamp = s := by
  rcases h with h | h <;> simp [State.failLane, h]

/-- The map that puts a failed lane last among the live ones. -/
def mapWithout (p : Port) (lane : Nat) : BitVec 8 :=
  let l := logicalOf p.laneMap lane
  if l + 1 = p.live then p.laneMap else swapLanes p.laneMap l (p.live - 1)

/-- The state once a lane's failure is reported. -/
def laneReported (s : State) (n lane : Nat) (stamp : BitVec 16) : State :=
  (s.modPort n fun p => { p with
    state := 3, laneOk := withBit p.laneOk lane false, out := [{ err := some (stamp, lane), req := some (mapWithout (s.port n) lane, (s.port n).live - 1) }] }).raise
    (srcPort n) (6, 1) (pack 128 [(0, 2, lane), (2, 1, 1), (8, 8, (mapWithout (s.port n) lane).toNat), (16, 16, stamp.toNat)])

/-- A failure at a port with nothing on its way. -/
theorem failLane_of_quiet (hu : (s.port n).linkUp = true) (hl : lane < 4) (ho : (s.port n).out = []) (hr : (s.port n).remaps = []) :
    s.failLane n lane stamp =
      if (s.port n).live ≤ logicalOf (s.port n).laneMap lane then s
      else if (s.port n).live = 1 then
        ((laneReported s n lane stamp).modPort n fun p => { p with laneMap := mapWithout (s.port n) lane, live := 0, state := 0, out := [], remaps := [] }).refreshPort n
      else laneReported s n lane stamp := by
  have hmod : (s.modPort n fun p => { p with
      state := portDegraded, laneOk := withBit p.laneOk lane false,
      out := p.out ++ [{ err := some (stamp, lane), req := some (mapWithout (s.port n) lane, (s.port n).live - 1) }] }) =
      s.modPort n fun p => { p with
        state := 3, laneOk := withBit p.laneOk lane false, out := [{ err := some (stamp, lane), req := some (mapWithout (s.port n) lane, (s.port n).live - 1) }] } :=
    modPort_congr (by rw [ho]; rfl)
  rw [State.failLane, comingLanes_of_quiet ho hr]
  dsimp only
  simp only [hu, Bool.not_true, Bool.false_or, decide_eq_false (Nat.not_le.2 hl), decide_eq_true_eq]
  rw [← mapWithout, hmod]
  rfl

end

/-! ### LANE_REMAP (R370) -/

/-- Strides from a step to a remap's stamp, modulo 256. -/
def strideAhead (s : State) (stamp : BitVec 16) : Nat := (bits stamp 8 8 + 256 - s.stride % 256) % 256

/-- A remap of port `n` in force. -/
def remapped (s : State) (n : Nat) (m : BitVec 8) (live : Nat) (rest : List (BitVec 16 × BitVec 8 × Nat)) : State :=
  (s.modPort n fun p => { p with
    laneMap := m, live := live, remaps := rest, state := if live = 0 then 0 else if live < 4 then 3 else 2 }).refreshPort n

theorem applyRemap_of_listed {s : State} {n : Nat} {stamp : BitVec 16} {m : BitVec 8} {live : Nat} {rest : List (BitVec 16 × BitVec 8 × Nat)}
    (h : (s.port n).remaps = (stamp, m, live) :: rest) :
    s.applyRemap n =
      if 0 < strideAhead s stamp ∧ strideAhead s stamp < 128 then s
      else remapped (if strideAhead s stamp = 0 then s.advancePos (bits stamp 0 8 * 400) else s) n m live rest := by
  rw [State.applyRemap, h]
  rfl

/-! ### LINK_CONTROL_BLOCK (R354, R357, R369, R370) -/

/-- A port with the loss of one lane to report. -/
def reportLoss (stamp : BitVec 16) (p : Port) (x : Nat × Nat) : Port :=
  if (p.out.any fun r => decide (r.err.map Prod.snd = some x.1)) || !bit p.laneOk x.1 then p
  else { p with out := p.out ++ [{ err := some (stamp, x.1) }] }

/-- A port with the flags of a block counted, and what the block says was lost reported. -/
def flagged (stamp : BitVec 16) (b : Lcb) (p : Port) : Port :=
  let lost := b.fecLost.filter fun x => decide (0 < x.2)
  lost.foldl (reportLoss stamp) { p with
    fecCorr := p.fecCorr + BitVec.ofNat 32 b.fecCorrected, fecUncorr := satAdd p.fecUncorr ((lost.map Prod.snd).foldl (· + ·) 0) }

theorem reportLoss_eq (stamp : BitVec 16) (p : Port) (x : Nat × Nat) : ∃ o, reportLoss stamp p x = { p with out := o } := by
  rw [reportLoss]
  split
  · exact ⟨p.out, rfl⟩
  · exact ⟨_, rfl⟩

theorem foldl_reportLoss_eq (stamp : BitVec 16) (lost : List (Nat × Nat)) (p : Port) : ∃ o, lost.foldl (reportLoss stamp) p = { p with out := o } := by
  induction lost generalizing p with
  | nil => exact ⟨p.out, rfl⟩
  | cons x lost ih =>
    obtain ⟨o, ho⟩ := reportLoss_eq stamp p x
    rw [List.foldl_cons, ho]
    exact ih _

theorem flagged_of_none {b : Lcb} (h : b.fecLost = []) (stamp : BitVec 16) (p : Port) :
    flagged stamp b p = { p with fecCorr := p.fecCorr + BitVec.ofNat 32 b.fecCorrected } := by
  have hsum : satAdd p.fecUncorr ((([] : List (Nat × Nat)).map Prod.snd).foldl (· + ·) 0) = p.fecUncorr := satAdd_zero _
  rw [flagged, h]
  dsimp only [List.filter_nil, List.foldl_nil]
  rw [hsum]

theorem flagged_of_clear {b : Lcb} (hc : b.fecCorrected = 0) (h : b.fecLost = []) (stamp : BitVec 16) (p : Port) : flagged stamp b p = p := by
  have hsum : p.fecCorr + BitVec.ofNat 32 b.fecCorrected = p.fecCorr := by rw [hc]; exact BitVec.add_zero _
  rw [flagged_of_none h, hsum]

theorem flagged_eq (stamp : BitVec 16) (b : Lcb) (p : Port) :
    ∃ o, flagged stamp b p = { p with
      fecCorr := p.fecCorr + BitVec.ofNat 32 b.fecCorrected,
      fecUncorr := satAdd p.fecUncorr (((b.fecLost.filter fun x => decide (0 < x.2)).map Prod.snd).foldl (· + ·) 0), out := o } :=
  foldl_reportLoss_eq stamp _ _

theorem flagged_fecCorr (stamp : BitVec 16) (b : Lcb) (p : Port) : (flagged stamp b p).fecCorr = p.fecCorr + BitVec.ofNat 32 b.fecCorrected := by
  obtain ⟨o, ho⟩ := flagged_eq stamp b p
  rw [ho]

theorem flagged_fecUncorr (stamp : BitVec 16) (b : Lcb) (p : Port) :
    (flagged stamp b p).fecUncorr = satAdd p.fecUncorr (((b.fecLost.map Prod.snd).filter (0 < ·)).foldl (· + ·) 0) := by
  obtain ⟨o, ho⟩ := flagged_eq stamp b p
  rw [ho, List.filter_map]
  rfl

theorem flagged_linkUp {stamp : BitVec 16} {b : Lcb} {p : Port} (h : p.linkUp = true) : (flagged stamp b p).linkUp = true := by
  obtain ⟨o, ho⟩ := flagged_eq stamp b p
  rw [ho]
  exact h

/-- The loss of one lane is reported where nothing else waits. -/
theorem flagged_of_one {stamp : BitVec 16} {b : Lcb} {p : Port} {j k : Nat} (hone : b.fecLost = [(j, k)]) (hk : 0 < k) (hok : bit p.laneOk j = true)
    (ho : p.out = []) : (flagged stamp b p).out = [{ err := some (stamp, j) }] := by
  have hlost : b.fecLost.filter (fun x => decide (0 < x.2)) = [(j, k)] := by
    rw [hone]
    exact List.filter_cons_of_pos (decide_eq_true hk)
  rw [flagged, hlost]
  dsimp only [List.foldl_cons, List.foldl_nil, reportLoss]
  rw [ho, hok]
  rfl

section
variable {s : State} {n : Nat} {b : Lcb}

theorem port_flagged (hu : (s.port n).linkUp = true) :
    (s.modPort n (flagged (s.arrivalStamp n) b)).port n = flagged (s.arrivalStamp n) b (s.port n) := port_modPort_of_linkUp (flagged_linkUp hu)

theorem takeFlags_eq : s.takeFlags n b = s.modPort n (flagged (s.arrivalStamp n) b) := rfl

/-- The state once a port has acted on a block that it did not have yet. -/
def blockTaken (u : State) (n : Nat) (b : Lcb) : State :=
  let v := if b.err then u.resendLost n b.errLane b.errGroup else u
  let v := if b.req then v.requestRemap n b else v
  if b.mark then v.takeMark n b else v

/-- The port has the block noted. -/
def blockNoted (s : State) (n : Nat) (b : Lcb) : State := (s.modPort n id).modPort n fun p => { p with lastLcb := some b }

theorem port_modPort_id (hu : (s.port n).linkUp = true) : (s.modPort n id).port n = s.port n := port_modPort_of_linkUp hu

/-- A block without its flags. -/
def unflagged (b : Lcb) : Lcb := { b with fecCorrected := 0, fecLost := [] }

theorem unflagged_of_clear (hf : b.fecCorrected = 0) (hl : b.fecLost = []) : unflagged b = b := by
  rw [unflagged, ← hf, ← hl]

theorem takeLcb_of_up (hu : (s.port n).linkUp = true) :
    s.takeLcb n b =
      let t := s.takeFlags n b
      if !(unflagged b).crcOk || decide ((t.port n).lastLcb = some (unflagged b)) then t
      else blockTaken (t.modPort n fun p => { p with lastLcb := some (unflagged b) }) n (unflagged b) := by
  rw [State.takeLcb, hu]
  rfl

theorem takeLcb_of_bad (hu : (s.port n).linkUp = true) (hc : b.crcOk = false) : s.takeLcb n b = s.modPort n (flagged (s.arrivalStamp n) b) := by
  have hcrc : (unflagged b).crcOk = false := hc
  rw [takeLcb_of_up hu, hcrc]
  rfl

/-- A block that passes its check and brings no flags. -/
theorem takeLcb_of_clear (hu : (s.port n).linkUp = true) (hc : b.crcOk = true) (hf : b.fecCorrected = 0) (hl : b.fecLost = []) :
    s.takeLcb n b = if (s.port n).lastLcb = some b then s.modPort n id else blockTaken (blockNoted s n b) n b := by
  have hflags : s.takeFlags n b = s.modPort n id := takeFlags_eq.trans (modPort_congr (flagged_of_clear hf hl _ _))
  rw [takeLcb_of_up hu, unflagged_of_clear hf hl, hflags]
  dsimp only
  rw [port_modPort_id hu, hc]
  simp only [Bool.not_true, Bool.false_or, decide_eq_true_eq]
  rfl

theorem port_blockNoted (hu : (s.port n).linkUp = true) : (blockNoted s n b).port n = { s.port n with lastLcb := some b } := by
  have hport := port_modPort_id hu
  rw [blockNoted, port_modPort_of_linkUp (by rw [hport]; exact hu), hport]

/-- A partner that asks for a lane back while nothing is on its way. -/
theorem requestRemap_of_quiet (he : b.err = false) (ho : (s.port n).out = []) (hr : (s.port n).remaps = []) :
    s.requestRemap n b = s.modPort n fun p => { p with
      remaps := [(b.reqGroup, b.reqMap, min 4 (p.live + 1))], laneOk := withBit p.laneOk (mapLane b.reqMap (min 4 (p.live + 1) - 1)) true } := by
  rw [State.requestRemap, comingLanes_of_quiet ho hr, he]
  exact modPort_congr (by rw [hr]; rfl)

/-- The offset of the neighbour's GTC that a time mark shows (R40). -/
def markOffset (s : State) (n : Nat) (b : Lcb) : Int := (s.now : Int) - (s.port n).delayNs.toNat - b.gtc.toNat

/-- The state with an offset beyond 20 ns reported, unless one of the port was in the last 1,000 strides. -/
def offsetNoted (s : State) (n : Nat) (b : Lcb) : State :=
  if 20 < (markOffset s n b).natAbs ∧ (match (s.port n).offsetStride with | some k => decide (s.stride < k + 1000) | none => false) = false then
    (s.modPort n fun p => { p with offsetStride := some s.stride }).raise srcFarrier evtTimeOffset
      (pack 128 [(0, 16, (satInt 16 (markOffset s n b)).toNat), (16, 5, n), (32, 16, b.chip)])
  else s

/-- What both branches of a choice have, the choice has. -/
theorem ite_of_both {α : Type} {p : Prop} [Decidable p] {a b : α} (q : α → Prop) (ha : q a) (hb : q b) : q (if p then a else b) := by
  split
  · exact ha
  · exact hb

theorem timeSrc_offsetNoted : (offsetNoted s n b).timeSrc = s.timeSrc := by
  rw [offsetNoted]
  exact ite_of_both (fun v : State => v.timeSrc = s.timeSrc) rfl rfl

/-- The mark of a port that is not the part's time source. -/
theorem takeMark_of_other (hs : s.timeSrc ≠ 2) :
    s.takeMark n b = { offsetNoted s n b with time := { (offsetNoted s n b).time with mark := some b.gtc } } := by
  rw [← timeSrc_offsetNoted (n := n) (b := b)] at hs
  unfold State.takeMark
  exact if_neg fun hc => hs hc.1

theorem offsetNoted_of_near (h : (markOffset s n b).natAbs ≤ 20) : offsetNoted s n b = s := if_neg fun hc => Nat.not_lt.2 h hc.1

theorem offsetNoted_of_far (h : 20 < (markOffset s n b).natAbs) (ho : (s.port n).offsetStride = none) :
    offsetNoted s n b = (s.modPort n fun p => { p with offsetStride := some s.stride }).raise srcFarrier evtTimeOffset
      (pack 128 [(0, 16, (satInt 16 (markOffset s n b)).toNat), (16, 5, n), (32, 16, b.chip)]) := by
  rw [offsetNoted, ho]
  exact if_pos ⟨h, rfl⟩

theorem blockTaken_of_request {u : State} (he : b.err = false) (hr : b.req = true) (hm : b.mark = false) : blockTaken u n b = u.requestRemap n b := by
  rw [blockTaken, he, hr, hm]
  rfl

theorem requestRemap_blockNoted (hu : (s.port n).linkUp = true) (he : b.err = false) (ho : (s.port n).out = []) (hr : (s.port n).remaps = []) :
    (blockNoted s n b).requestRemap n b = (blockNoted s n b).modPort n fun p => { p with
      remaps := [(b.reqGroup, b.reqMap, min 4 (p.live + 1))], laneOk := withBit p.laneOk (mapLane b.reqMap (min 4 (p.live + 1) - 1)) true } :=
  requestRemap_of_quiet he (by rw [port_blockNoted hu]; exact ho) (by rw [port_blockNoted hu]; exact hr)

theorem markOffset_blockNoted (hu : (s.port n).linkUp = true) : markOffset (blockNoted s n b) n b = markOffset s n b := by
  rw [markOffset, port_blockNoted hu]
  rfl

theorem blockTaken_of_mark {u : State} (he : b.err = false) (hr : b.req = false) (hm : b.mark = true) : blockTaken u n b = u.takeMark n b := by
  rw [blockTaken, he, hr, hm]
  rfl

theorem takeMark_blockNoted_near (hu : (s.port n).linkUp = true) (hs : s.timeSrc ≠ 2) (h : (markOffset s n b).natAbs ≤ 20) :
    (blockNoted s n b).takeMark n b = { blockNoted s n b with time := { (blockNoted s n b).time with mark := some b.gtc } } := by
  rw [takeMark_of_other (s := blockNoted s n b) hs, offsetNoted_of_near (by rw [markOffset_blockNoted hu]; exact h)]

theorem takeMark_blockNoted_far (hu : (s.port n).linkUp = true) (hs : s.timeSrc ≠ 2) (h : 20 < (markOffset s n b).natAbs)
    (ho : (s.port n).offsetStride = none) :
    ((blockNoted s n b).takeMark n b).time.mark = some b.gtc ∧
      ∃ e ∈ ((blockNoted s n b).takeMark n b).gleaner.arriving, e.cls = 1 ∧ e.code = 3 ∧ bits e.payload 0 16 = (satInt 16 (markOffset s n b)).toNat := by
  rw [takeMark_of_other (s := blockNoted s n b) hs,
    offsetNoted_of_far (by rw [markOffset_blockNoted hu]; exact h) (by rw [port_blockNoted hu]; exact ho), markOffset_blockNoted hu]
  obtain ⟨e, hmem, hcls, hcode, hpay⟩ := mem_raise_arriving ((blockNoted s n b).modPort n fun p => { p with offsetStride := some (blockNoted s n b).stride })
    srcFarrier evtTimeOffset (pack 128 [(0, 16, (satInt 16 (markOffset s n b)).toNat), (16, 5, n), (32, 16, b.chip)])
  refine ⟨rfl, e, hmem, hcls, hcode, ?_⟩
  rw [hpay, bits_pack (List.mem_cons_self ..) (by decide) (by simp)]
  exact Nat.mod_eq_of_lt (BitVec.isLt _)

end

/-! ### LINK_TRAINING_END (R372, R498) -/

theorem mayTrain_iff {s : State} {n : Nat} :
    s.mayTrain n = true ↔ s.portEnabled n = true ∧ (s.site (n / 4)).state = 2 ∧ (s.site (n / 4)).clocked = true := by
  simp only [State.mayTrain, Bool.and_eq_true, decide_eq_true_eq, and_assoc]
  rfl

/-- The lanes that a training brings back. -/
def lanesBack (p : Port) (lanes : BitVec 4) : List Nat := (List.range 4).filter fun j => bit lanes j && bit p.training j && !bit p.laneOk j

section
variable {s : State} {n : Nat} {lanes : BitVec 4} {delay : BitVec 16}

theorem endTraining_of_may (h : s.mayTrain n = true) :
    s.endTraining n lanes delay =
      if (s.port n).state = portTraining then (s.modPort n fun p => p.bringUp lanes delay).refreshPort n
      else if (lanesBack (s.port n) lanes).isEmpty then s.modPort n fun p => { p with training := 0 }
      else if (s.port n).live = 0 then
        (s.modPort n fun p => p.bringUp ((lanesBack (s.port n) lanes).foldl (fun v j => withBit v j true) p.laneOk) p.delayNs).refreshPort n
      else s.modPort n fun p => (lanesBack (s.port n) lanes).foldl Port.rejoin { p with training := 0 } := by
  rw [State.endTraining, h]
  rfl

theorem rejoin_of_quiet {p : Port} {j : Nat} (ho : p.out = []) (hr : p.remaps = []) :
    p.rejoin j = { p with laneOk := withBit p.laneOk j true, out := [{ req := some (swapLanes p.laneMap (logicalOf p.laneMap j) p.live, p.live + 1) }] } := by
  rw [Port.rejoin, comingLanes_of_quiet ho hr, ho]
  rfl

end

/-! ### The statement -/

/-- Settles O46: each event of a port's lanes, by what is on its way and by what the block or the training brings. -/
theorem lanesChange : Obligations.LanesChange := by
  refine ⟨fun s n lane stamp hrun => ?_, fun s n hrun => ?_, fun s n b hrun hu => ?_, fun s n b hrun hu hc => ?_, fun s n b hrun hf hl => ?_,
    fun s n lanes delay hrun => ?_⟩
  · have hx : exec (.laneFail n lane stamp) s = .next (s.failLane n lane stamp) := exec_running hrun
    refine ⟨fun h => ?_, fun hu hl ho hr hlive => ?_, fun hu hl ho hr hlive => ⟨fun h2 => ?_, fun h1 => ?_⟩⟩
    · rw [hx, failLane_of_idle h]
    · rw [hx, failLane_of_quiet hu hl ho hr, if_pos hlive]
    · rw [hx, failLane_of_quiet hu hl ho hr, if_neg (Nat.not_le.2 hlive), if_neg (by omega)]
      rfl
    · rw [hx, failLane_of_quiet hu hl ho hr, if_neg (Nat.not_le.2 hlive), if_pos h1]
      rfl
  · have hx : exec (.laneRemap n) s = .next (s.applyRemap n) := exec_running hrun
    refine ⟨fun h => ?_, fun stamp m live rest h => ⟨fun ha => ?_, fun ha => ?_, fun ha => ?_⟩⟩
    · rw [hx, State.applyRemap, h]
    · replace ha : 0 < strideAhead s stamp ∧ strideAhead s stamp < 128 := ha
      rw [hx, applyRemap_of_listed h, if_pos ha]
    · replace ha : strideAhead s stamp = 0 := ha
      rw [hx, applyRemap_of_listed h, if_neg (by omega), if_pos ha]
      rfl
    · replace ha : 128 ≤ strideAhead s stamp := ha
      rw [hx, applyRemap_of_listed h, if_neg (by omega), if_neg (by omega)]
      rfl
  · have hx : exec (.linkControlBlock n b) s = .next (s.takeLcb n b) := exec_running hrun
    rw [hx, State.takeLcb, hu]
    rfl
  · have hx : exec (.linkControlBlock n b) s = .next (s.takeLcb n b) := exec_running hrun
    have hport := port_flagged (b := b) hu
    refine ⟨_, hx.trans (by rw [takeLcb_of_bad hu hc]), ?_, ?_, fun j k hone hk hok hout => ?_, fun hnone => modPort_congr (flagged_of_none hnone _ _)⟩
    · rw [hport, flagged_fecCorr]
    · rw [hport, flagged_fecUncorr]
    · rw [hport, flagged_of_one hone hk hok hout]
      rfl
  · have hx : exec (.linkControlBlock n b) s = .next (s.takeLcb n b) := exec_running hrun
    refine ⟨fun hu hc hlast => ⟨_, hx, ?_⟩, fun hu hc hlast => ?_⟩
    · rw [takeLcb_of_clear hu hc hf hl, if_pos hlast, port_modPort_id hu]
    have hv : exec (.linkControlBlock n b) s = .next (blockTaken (blockNoted s n b) n b) := by
      rw [hx, takeLcb_of_clear hu hc hf hl, if_neg hlast]
    refine ⟨fun he hr hm => ?_, fun he hr hm => ?_, fun he hr hm hrem hout => ?_, fun he hr hm hs => ?_⟩
    · rw [hv, blockTaken, he, hr, hm]
      rfl
    · rw [hv, blockTaken, he, hr, hm]
      rfl
    · rw [hv, blockTaken_of_request he hr hm]
      exact congrArg _ (requestRemap_blockNoted hu he hout hrem)
    · rw [blockTaken_of_mark he hr hm] at hv
      exact ⟨fun hnear => hv.trans (congrArg _ (takeMark_blockNoted_near hu hs hnear)), fun hfar hnone => ⟨_, hv, takeMark_blockNoted_far hu hs hfar hnone⟩⟩
  · have hx : exec (.linkTrainingEnd n lanes delay) s = .next (s.endTraining n lanes delay) := exec_running hrun
    refine ⟨fun hmay => ?_, fun hmay hst => ?_, fun hmay hst hback => ?_, fun hmay hst hlive hout hrem j hback => ?_⟩
    · rw [hx, State.endTraining, eq_false_of_ne_true fun h => hmay (mayTrain_iff.1 h)]
      rfl
    · rw [hx, endTraining_of_may (mayTrain_iff.2 hmay), if_pos (show (s.port n).state = portTraining from hst)]
      rfl
    · replace hback : lanesBack (s.port n) lanes = [] := hback
      rw [hx, endTraining_of_may (mayTrain_iff.2 hmay), if_neg (show ¬ (s.port n).state = portTraining from hst), hback]
      rfl
    · replace hback : lanesBack (s.port n) lanes = [j] := hback
      rw [hx, endTraining_of_may (mayTrain_iff.2 hmay), if_neg (show ¬ (s.port n).state = portTraining from hst), hback, if_neg (by simp), if_neg hlive]
      exact congrArg _ (modPort_congr (rejoin_of_quiet (p := { s.port n with training := 0 }) hout hrem))

end Sys2Proof.Laws
end


section
/-!
SUPPORT. What memory and the collectives leave of the links: no access and no end of a collective changes a tether, a port or a site.
-/
namespace Sys2Proof.Laws
open Sys2Proof.Machine Sys2Proof.Safety

/-- The tethers, ports and sites of a state. -/
structure LinkView where
  tethers : Tbl Tether
  ports : Tbl Port
  sites : Tbl Site

/-- A state whose links are as the view says. -/
abbrev Linked (v : LinkView) (s : State) : Prop := s.tethers = v.tethers ∧ s.ports = v.ports ∧ s.sites = v.sites

/-- The links of a state. -/
abbrev linksOf (s : State) : LinkView := ⟨s.tethers, s.ports, s.sites⟩

theorem linked_self (s : State) : Linked (linksOf s) s := ⟨rfl, rfl, rfl⟩

variable {v : LinkView} {s : State}

theorem linked_foldl {α : Type} {f : State → α → State} (hf : ∀ s x, Linked v s → Linked v (f s x)) (l : List α) (s : State) (h : Linked v s) :
    Linked v (l.foldl f s) := by
  induction l generalizing s with
  | nil => exact h
  | cons x l ih => exact ih _ (hf s x h)

theorem linked_modTile {n : Nat} {f : Tile → Tile} (h : Linked v s) : Linked v (s.modTile n f) := h

theorem linked_modSheaf {m : Nat} {f : Sheaf → Sheaf} (h : Linked v s) : Linked v (s.modSheaf m f) := h

theorem linked_modPdk {p : Nat} {f : Paddock → Paddock} (h : Linked v s) : Linked v (s.modPdk p f) := h

theorem linked_modColl {id : Nat} {f : Coll → Coll} (h : Linked v s) : Linked v (s.modColl id f) := h

theorem linked_noteDevice {r : Reg} {m : BitVec 64} (h : Linked v s) : Linked v (s.noteDevice r m) := h

theorem linked_raise {src : Nat} {e : EventCode} {payload : BitVec 128} (h : Linked v s) : Linked v (s.raise src e payload) := by
  obtain ⟨ht, hp, hs⟩ := h
  refine ⟨by rw [State.raise_tethers, ht], ?_, by rw [State.raise_sites, hs]⟩
  grind [State.raise, State.raiseAt, State.setFault, State.noteDevice]

theorem linked_takeEnv {env : Env} (h : Linked v s) : Linked v (s.takeEnv env) := by
  obtain ⟨mem, units, words, he⟩ := takeEnv_eq s env
  rw [he]
  exact h

/-! ### Writes -/

theorem linked_writeUnit {p u : Nat} {x : BitVec 512} (h : Linked v s) : Linked v (s.writeUnit p u x) := by
  grind [State.writeUnit]

theorem linked_writeGroup {m g : Nat} {bs : List Byte} (h : Linked v s) : Linked v (s.writeGroup m g bs) := by
  grind [State.writeGroup, linked_modSheaf]

theorem linked_correctUnit {u : Nat} (h : Linked v s) : Linked v (s.correctUnit u) := h

theorem linked_failUnit {u : Nat} {patrol : Bool} (h : Linked v s) : Linked v (s.failUnit u patrol) := by
  grind [State.failUnit, linked_raise, linked_noteDevice]

theorem linked_writeChunk {p a : Nat} {bs : List Byte} {fromHost : Bool} (h : Linked v s) : Linked v (s.writeChunk p a bs fromHost) := by
  grind [State.writeChunk, linked_writeUnit, linked_correctUnit, linked_failUnit, linked_writeGroup]

/-! ### Reads -/

theorem linked_correctWord {w : Nat} (h : Linked v s) : Linked v (s.correctWord w) := by
  grind [State.correctWord, linked_modSheaf, linked_modTile]

theorem linked_failWord {w : Nat} (h : Linked v s) : Linked v (s.failWord w) := by
  grind [State.failWord, linked_modSheaf, linked_raise, linked_modTile]

theorem linked_readMark {c : Nat × EccMark} (hbm : Bool) (h : Linked v s) : Linked v (s.readMark hbm c).1 := by
  unfold State.readMark
  grind [linked_correctWord, linked_correctUnit, linked_failUnit, linked_failWord]

theorem linked_readMarks {l : List (Nat × EccMark)} (hbm : Bool) (h : Linked v s) : Linked v (s.readMarks hbm l).1 := by
  fun_induction State.readMarks <;> grind [linked_readMark]

theorem linked_checkRead {a n : Nat} (h : Linked v s) : Linked v (s.checkRead a n).1 := by
  grind [State.checkRead, linked_readMarks]

theorem linked_checkUnit {a n : Nat} (h : Linked v s) : Linked v (s.checkUnit a n).1 := by
  have hr : ∀ s a n, Linked v s → Linked v (State.checkRead s a n).1 := fun s a n h => linked_checkRead h
  unfold State.checkUnit
  generalize State.checkRead = check at hr
  grind

/-! ### Collectives -/

theorem linked_wteEvent {id k : Nat} {e : EventCode} {fields : List (Nat × Nat × Nat)} (h : Linked v s) : Linked v (s.wteEvent id k e fields) := by
  grind [State.wteEvent, linked_modColl, linked_raise]

theorem linked_wteUe {id a : Nat} (h : Linked v s) : Linked v (s.wteUe id a) := by
  grind [State.wteUe, linked_wteEvent, linked_modColl, linked_modPdk]

theorem linked_wtePieces {p : Nat} {l : List (Nat × Nat)} (h : Linked v s) : Linked v (s.wtePieces p l).1 := by
  fun_induction State.wtePieces <;> grind [linked_checkUnit]

theorem linked_wteWrite {id p a : Nat} {bs : List Byte} (h : Linked v s) : Linked v (s.wteWrite id p a bs) := by
  grind [State.wteWrite, linked_writeChunk, linked_wteUe, linked_foldl]

theorem linked_writeVersion {c : Coll} {aborted : Bool} (h : Linked v s) : Linked v (s.writeVersion c aborted) := by
  grind [State.writeVersion, linked_modColl, linked_wteWrite, linked_wtePieces]

theorem linked_endColl {id : Nat} {aborted : Bool} (h : Linked v s) : Linked v (s.endColl id aborted) := by
  grind [State.endColl, linked_wteWrite, linked_writeVersion, linked_modPdk]

theorem linked_settleColl {id : Nat} (h : Linked v s) : Linked v (s.settleColl id) := by
  grind [State.settleColl, linked_endColl]

/-! ### A tether that changes -/

theorem ne_default_of_open {x : Tether} (h : x.state ≠ .closed) : x ≠ {} := by
  rintro rfl
  exact h rfl

/-- A changed tether that is not closed reads back. -/
theorem tether_modTether_of_open {s : State} {t : Nat} {f : Tether → Tether} (h : (f (s.tether t)).state ≠ .closed) :
    (s.modTether t f).tether t = f (s.tether t) := Tbl.get_put_nondefault _ _ _ _ (ne_default_of_open h)

/-- Only what a change makes of the tether counts. -/
theorem modTether_congr {s : State} {t : Nat} {f g : Tether → Tether} (h : f (s.tether t) = g (s.tether t)) : s.modTether t f = s.modTether t g :=
  congrArg (fun x => { s with tethers := Tbl.put {} s.tethers t x }) h

theorem insert_insert {α : Type} (m : Tbl α) (k : Nat) (a b : α) : Tbl.insert (Tbl.insert m k a) k b = Tbl.insert m k b := by
  induction m with
  | nil => simp [Tbl.insert]
  | cons c m ih =>
    obtain ⟨j, w⟩ := c
    rw [Tbl.insert, Tbl.insert]
    split
    · rw [Tbl.insert, if_pos rfl]
    next hj =>
      split
      · rw [Tbl.insert, if_pos rfl]
      next hk => rw [Tbl.insert, if_neg hj, if_neg hk, ih]

/-- Two changes of a tether that stays open are one. -/
theorem modTether_modTether {s : State} {t : Nat} {f g : Tether → Tether} (hf : (f (s.tether t)).state ≠ .closed)
    (hg : (g (f (s.tether t))).state ≠ .closed) : (s.modTether t f).modTether t g = s.modTether t fun x => g (f x) := by
  have hread : Tbl.get {} (Tbl.put {} s.tethers t (f (s.tether t))) t = f (s.tether t) := Tbl.get_put_nondefault _ _ _ _ (ne_default_of_open hf)
  have htbl : Tbl.put {} (Tbl.put {} s.tethers t (f (s.tether t))) t (g (f (s.tether t))) = Tbl.put {} s.tethers t (g (f (s.tether t))) := by
    simp only [Tbl.put, ne_default_of_open hf, ne_default_of_open hg, if_false, insert_insert]
  have hmod : (s.modTether t f).modTether t g =
      { s with tethers := Tbl.put {} (Tbl.put {} s.tethers t (f (s.tether t))) t (g (Tbl.get {} (Tbl.put {} s.tethers t (f (s.tether t))) t)) } := rfl
  rw [hmod, hread, htbl]
  rfl

end Sys2Proof.Laws
end

section
/-!
SUPPORT. The frames that a port receives (R351, R359, R360, R363, R365).
-/
namespace Sys2Proof.Laws
open Sys2Proof.Machine Sys2Proof.Safety

/-! ### HELLO (R351, R360, R363) -/

section
variable {s : State} {n : Nat} {h : Hello}

/-- What a HELLO must show to be of the part's own fleet. -/
def HelloKnown (s : State) (h : Hello) : Prop := h.tagOk = true ∧ h.fleet = s.sec.fuses.fleetId

/-- What a HELLO must show to be of the configuration in force, both parts up to date. -/
def HelloFresh (s : State) (h : Hello) : Prop := h.epoch.toNat = s.field .cfgEpoch 0 32 ∧ h.stale = false ∧ s.staleBit = false

theorem not_fresh_iff : (h.epoch.toNat ≠ s.field .cfgEpoch 0 32 ∨ h.stale = true ∨ s.staleBit = true) ↔ ¬ HelloFresh s h := by
  rw [HelloFresh]
  cases h.stale <;> cases s.staleBit <;> simp

theorem not_known_iff : (!h.tagOk || decide (h.fleet ≠ s.sec.fuses.fleetId)) = true ↔ ¬ HelloKnown s h := by
  rw [HelloKnown]
  cases h.tagOk <;> simp

/-- A HELLO on a port that is up, in FIELD. -/
theorem takeHello_of_field (hu : (s.port n).linkUp = true) (hf : s.sec.fuses.lifecycle = 2) :
    s.takeHello n h =
      if !h.tagOk || decide (h.fleet ≠ s.sec.fuses.fleetId) then
        (s.raise (srcPort n) evtLnkFleet (pack 128 [(0, 32, h.fleet.toNat), (32, 16, h.srcChip), (48, 1, b2n (!h.tagOk))])).setSecurity
      else if h.epoch.toNat ≠ s.field .cfgEpoch 0 32 ∨ h.stale = true ∨ s.staleBit = true then (s.notePeer h true).raiseStale n h
      else
        if (s.tether h.destTether).state = .opening ∧ (s.tether h.destTether).matchesHello (s.linkEpochOf h.destTether) h = true then
          (s.modTether h.destTether fun x => { x with
            state := .formed, peerNonce := h.nonce, lastValid := s.stride, nextSeq := 0, reportSeq := 0, delivered := 0, beyond := [],
            peerConsumed := 0, pend := [], lateSent := [], staged := [], peerStale := false,
            linkEpoch := s.linkEpochOf h.destTether, sessionKey := s.formKey h.destTether h }).refreshTether h.destTether
        else s.notePeer h false := by
  rw [State.takeHello, hu, inField_iff.2 hf]
  rfl

theorem takeHello_of_unknown (hu : (s.port n).linkUp = true) (hf : s.sec.fuses.lifecycle = 2) (hk : ¬ HelloKnown s h) :
    s.takeHello n h =
      (s.raise (srcPort n) evtLnkFleet (pack 128 [(0, 32, h.fleet.toNat), (32, 16, h.srcChip), (48, 1, b2n (!h.tagOk))])).setSecurity := by
  rw [takeHello_of_field hu hf]
  exact if_pos (not_known_iff.2 hk)

theorem takeHello_of_stale (hu : (s.port n).linkUp = true) (hf : s.sec.fuses.lifecycle = 2) (hk : HelloKnown s h) (hn : ¬ HelloFresh s h) :
    s.takeHello n h = (s.notePeer h true).raiseStale n h := by
  rw [takeHello_of_field hu hf, if_neg (fun hb => not_known_iff.1 hb hk)]
  exact if_pos (not_fresh_iff.2 hn)

theorem takeHello_of_fresh (hu : (s.port n).linkUp = true) (hf : s.sec.fuses.lifecycle = 2) (hk : HelloKnown s h) (hn : HelloFresh s h) :
    s.takeHello n h =
      if (s.tether h.destTether).state = .opening ∧ (s.tether h.destTether).matchesHello (s.linkEpochOf h.destTether) h = true then
        (s.modTether h.destTether fun x => { x with
          state := .formed, peerNonce := h.nonce, lastValid := s.stride, nextSeq := 0, reportSeq := 0, delivered := 0, beyond := [],
          peerConsumed := 0, pend := [], lateSent := [], staged := [], peerStale := false,
          linkEpoch := s.linkEpochOf h.destTether, sessionKey := s.formKey h.destTether h }).refreshTether h.destTether
      else s.notePeer h false := by
  rw [takeHello_of_field hu hf, if_neg (fun hb => not_known_iff.1 hb hk)]
  exact if_neg fun hb => not_fresh_iff.1 hb hn

/-- The contract and the link epoch that a HELLO must match. -/
theorem matchesHello_iff {x : Tether} {epoch : BitVec 4} :
    x.matchesHello epoch h = true ↔
      h.srcChip = x.peerChip.toNat ∧ h.srcTether = x.peerTether.toNat ∧ h.paddock = x.paddock ∧ h.collective = x.collective ∧ h.linkEpoch = epoch := by
  simp only [Tether.matchesHello, Bool.and_eq_true, decide_eq_true_eq, and_assoc]

end

/-! ### DATA and REPORT (R324, R359, R365) -/

section
variable {s : State} {n : Nat} {f : Frame}

/-- A frame of a formed tether and its pair whose tag verifies. -/
def FrameSound (s : State) (f : Frame) : Prop :=
  let x := s.tether f.destTether
  f.tagOk = true ∧ (x.state = .formed ∨ x.state = .degraded ∨ x.state = .broken) ∧ f.srcTether = x.peerTether.toNat ∧ f.srcChip = x.peerChip.toNat

theorem frameValid_iff : s.frameValid f = true ↔ FrameSound s f := by
  simp only [State.frameValid, FrameSound, Tether.isFormed, Bool.and_eq_true, Bool.or_eq_true, decide_eq_true_eq, and_assoc, or_assoc]

theorem FrameSound.open (h : FrameSound s f) : (s.tether f.destTether).state ≠ .closed := by
  obtain ⟨-, hst, -⟩ := h
  rintro hc
  rw [hc] at hst
  simp at hst

/-- The tether of a frame is heard from. -/
def heard (s : State) (t : Nat) : State := s.modTether t fun x => { x with lastValid := s.stride }

theorem tether_heard {t : Nat} (h : (s.tether t).state ≠ .closed) : (heard s t).tether t = { s.tether t with lastValid := s.stride } :=
  tether_modTether_of_open h

/-- What the fields of a report do to the collective of a tag: a peer's progress is kept, and what waited for it may end. -/
def collReported (v : State) (x : Tether) (f : Frame) : State :=
  match v.colls.find? fun c => decide (c.paddock = x.paddock) && decide (c.tag = f.reportTag) with
  | none => if f.consumed = 0 then v.modTether f.destTether fun x => { x with early := Tbl.insert x.early f.reportTag.toNat f.reportW } else v
  | some c => (match c.peersOf.find? fun (m : Nat × Nat) => decide (m.2 = f.destTether) with
    | some m => v.modColl c.id fun c => { c with peers := Tbl.insert c.peers m.1 (f.consumed.toNat, f.reportW.toNat) }
    | none => v).settleColl c.id

/-- A change that keeps what is looked for keeps what is found, changed. -/
theorem find?_map_of_keeps {α : Type} {l : List α} {p : α → Bool} {g : α → α} (hg : ∀ a, p (g a) = p a) : (l.map g).find? p = (l.find? p).map g := by
  have hp : p ∘ g = p := funext hg
  rw [List.find?_map, hp]

/-- The collective of a paddock and a tag. -/
def collTagged (v : State) (p : Nat) (tag : BitVec 16) : Option Coll := v.colls.find? fun c => decide (c.paddock = p) && decide (c.tag = tag)

theorem collTagged_modColl (v : State) (p : Nat) (tag : BitVec 16) (id : Nat) {g : Coll → Coll} (hg : ∀ c, (g c).paddock = c.paddock ∧ (g c).tag = c.tag) :
    collTagged (v.modColl id g) p tag = (collTagged v p tag).map fun c => if c.id = id then g c else c := by
  refine find?_map_of_keeps fun c => ?_
  split
  · rw [(hg c).1, (hg c).2]
  · rfl

/-- What ends with a report: the collective of its tag, where it has all it waited for. -/
def settleTagged (w : State) (t : Nat) (tag : BitVec 16) : State :=
  match collTagged w (w.tether t).paddock tag with
  | some c => w.settleColl c.id
  | none => w

theorem settleTagged_of_some {w : State} {t : Nat} {tag : BitVec 16} {c : Coll} (h : collTagged w (w.tether t).paddock tag = some c) :
    settleTagged w t tag = w.settleColl c.id := by
  rw [settleTagged, h]

theorem settleTagged_of_none {w : State} {t : Nat} {tag : BitVec 16} (h : collTagged w (w.tether t).paddock tag = none) :
    settleTagged w t tag = w := by
  rw [settleTagged, h]

/-- A collective with what a peer reports. -/
def withPeer (f : Frame) (rank : Nat) (c : Coll) : Coll := { c with peers := Tbl.insert c.peers rank (f.consumed.toNat, f.reportW.toNat) }

theorem takeCollReport_settled {v : State} (ho : (v.tether f.destTether).state ≠ .closed) :
    settleTagged (v.takeCollReport f.destTether f.reportTag f.consumed f.reportW) f.destTether f.reportTag = collReported v (v.tether f.destTether) f := by
  cases hc : collTagged v (v.tether f.destTether).paddock f.reportTag with
  | none =>
    have hfind := hc
    rw [collTagged] at hfind
    rw [collReported, State.takeCollReport, hfind]
    dsimp only
    split
    · refine settleTagged_of_none ?_
      rw [tether_modTether_of_open ho]
      exact hc
    · exact settleTagged_of_none hc
  | some c =>
    have hfind := hc
    rw [collTagged] at hfind
    rw [collReported, State.takeCollReport, hfind]
    dsimp only
    cases c.peersOf.find? fun m => decide (m.2 = f.destTether) with
    | none => exact settleTagged_of_some hc
    | some m =>
      have hw : collTagged (v.modColl c.id (withPeer f m.1)) (v.tether f.destTether).paddock f.reportTag = some (if c.id = c.id then withPeer f m.1 c else c) :=
        (collTagged_modColl v _ _ _ (g := withPeer f m.1) fun _ => ⟨rfl, rfl⟩).trans (congrArg (Option.map _) hc)
      rw [if_pos rfl] at hw
      show settleTagged (v.modColl c.id (withPeer f m.1)) f.destTether f.reportTag = (v.modColl c.id (withPeer f m.1)).settleColl c.id
      exact settleTagged_of_some (c := withPeer f m.1 c) hw

theorem takeReport_of_plain (h : f.report = false) : s.takeReport f.destTether f = heard s f.destTether := by
  rw [State.takeReport, h]
  rfl

theorem takeReport_of_ring (h : f.report = true) (ho : (s.tether f.destTether).state ≠ .closed) (hc : (s.tether f.destTether).collective = false) :
    s.takeReport f.destTether f = s.modTether f.destTether fun x => { x with lastValid := s.stride, peerConsumed := f.consumed } := by
  have hread : ((heard s f.destTether).tether f.destTether).collective = false := by rw [tether_heard ho]; exact hc
  rw [State.takeReport, h, if_neg (by decide), ← heard, hread, if_neg (by decide)]
  exact modTether_modTether ho ho

theorem takeReport_of_collective (h : f.report = true) (ho : (s.tether f.destTether).state ≠ .closed) (hc : (s.tether f.destTether).collective = true) :
    s.takeReport f.destTether f = collReported (heard s f.destTether) (s.tether f.destTether) f := by
  have hread : ((heard s f.destTether).tether f.destTether).collective = true := by rw [tether_heard ho]; exact hc
  rw [State.takeReport, h, if_neg (by decide), ← heard, hread, if_pos rfl]
  refine (takeCollReport_settled (v := heard s f.destTether) (by rw [tether_heard ho]; exact ho)).trans ?_
  rw [collReported, tether_heard ho]
  rfl

theorem takeReport_eq (ho : (s.tether f.destTether).state ≠ .closed) :
    s.takeReport f.destTether f =
      if f.report = false then heard s f.destTether
      else if (s.tether f.destTether).collective = false then
        s.modTether f.destTether fun x => { x with lastValid := s.stride, peerConsumed := f.consumed }
      else collReported (heard s f.destTether) (s.tether f.destTether) f := by
  split
  next h => exact takeReport_of_plain h
  next h =>
    split
    next hc => exact takeReport_of_ring (eq_true_of_ne_false h) ho hc
    next hc => exact takeReport_of_collective (eq_true_of_ne_false h) ho (eq_true_of_ne_false hc)

/-- What a report of a collective leaves of its tether. -/
theorem tether_collReported {v : State} {x : Tether} (ho : (v.tether f.destTether).state ≠ .closed) :
    ∃ early, (collReported v x f).tether f.destTether = { v.tether f.destTether with early := early } := by
  rw [collReported]
  split
  · split
    · exact ⟨_, tether_modTether_of_open ho⟩
    · exact ⟨_, rfl⟩
  next c _ =>
    refine ⟨(v.tether f.destTether).early, ?_⟩
    have hlinks : Linked (linksOf v) (match c.peersOf.find? fun (m : Nat × Nat) => decide (m.2 = f.destTether) with
        | some m => v.modColl c.id fun c => { c with peers := Tbl.insert c.peers m.1 (f.consumed.toNat, f.reportW.toNat) }
        | none => v) := by
      split
      · exact linked_modColl (linked_self v)
      · exact linked_self v
    exact congrArg (fun m => Tbl.get {} m f.destTether) (linked_settleColl (id := c.id) hlinks).1

/-- What a report leaves of its tether. -/
theorem tether_takeReport (ho : (s.tether f.destTether).state ≠ .closed) :
    ∃ consumed early, (s.takeReport f.destTether f).tether f.destTether =
      { s.tether f.destTether with lastValid := s.stride, peerConsumed := consumed, early := early } := by
  rw [takeReport_eq ho]
  split
  · exact ⟨_, _, tether_heard ho⟩
  · split
    · exact ⟨_, _, tether_modTether_of_open ho⟩
    · obtain ⟨early, he⟩ := tether_collReported (f := f) (v := heard s f.destTether) (x := s.tether f.destTether) (by rw [tether_heard ho]; exact ho)
      exact ⟨_, early, he.trans (by rw [tether_heard ho])⟩

theorem takeData_of_bad (hu : (s.port n).linkUp = true) (h : ¬ FrameSound s f) : s.takeData n f = s.discardFrame n := by
  rw [State.takeData, hu, eq_false_of_ne_true fun hb => h (frameValid_iff.1 hb)]
  rfl

/-- A frame of a formed tether and its pair. -/
theorem takeData_of_sound (hu : (s.port n).linkUp = true) (h : FrameSound s f) :
    s.takeData n f =
      if (s.tether f.destTether).hasDelivered f.seqNo then s.takeReport f.destTether f
      else if (s.tether f.destTether).collective then ((s.takeReport f.destTether f).modTether f.destTether fun x => x.deliver f.seqNo).takeChunk f.destTether f
      else (s.takeReport f.destTether f).deliverRing n f.destTether f := by
  obtain ⟨consumed, early, ht⟩ := tether_takeReport h.open
  rw [State.takeData, hu, frameValid_iff.2 h]
  dsimp only
  rw [ht]
  rfl

/-- A ring frame is written at its place, and RECV_COUNT after it. -/
theorem deliverRing_of_tether {x : Tether} (hp : (s.tether f.destTether).paddock = x.paddock) (hr : (s.tether f.destTether).recvRing = x.recvRing)
    (hf : (s.tether f.destTether).ringFrames = x.ringFrames) (hc : (s.tether f.destTether).recvCount = x.recvCount) :
    s.deliverRing n f.destTether f =
      let v := (s.masterWrite (srcPort n) x.paddock (x.recvRing.toNat + frameBytes * (f.seqNo.toNat % max 1 x.ringFrames.toNat)) f.payloadBytes).modTether
        f.destTether fun x => x.deliver f.seqNo
      v.masterWrite (srcPort n) x.paddock x.recvCount.toNat (leBytes 4 ((v.tether f.destTether).delivered.toNat % 2 ^ 32)) := by
  rw [State.deliverRing]
  dsimp only
  rw [hp, hr, hf, hc]

end

/-! ### The statement -/

/-- Settles O47: what a frame does, by its kind, its tag and its tether. -/
theorem framesReceived : Obligations.FramesReceived := by
  refine ⟨fun s n hrun => ⟨exec_running hrun, fun hd h f env => ⟨?_, ?_, ?_⟩, fun hl h => ?_⟩, fun s n hrun hu => ⟨fun hfield h => ?_, fun f env => ?_⟩⟩
  · have hx : exec (.helloFrame n h) s = .next (s.takeHello n h) := exec_running hrun
    rw [hx, State.takeHello, hd]
    rfl
  · have hx : exec (.dataFrame n f env) s = .next ((s.takeEnv env).takeData n f) := exec_running hrun
    have hport : ((s.takeEnv env).port n).linkUp = false := (congrArg (fun m => (Tbl.get {} m n).linkUp) (linked_takeEnv (linked_self s)).2.1).trans hd
    rw [hx, State.takeData, hport]
    rfl
  · have hx : exec (.reportFrame n f) s = .next (if !(s.port n).linkUp then s else if s.frameValid f then s.takeReport f.destTether f else s.discardFrame n) :=
      exec_running hrun
    rw [hx, hd]
    rfl
  · have hx : exec (.helloFrame n h) s = .next (s.takeHello n h) := exec_running hrun
    rw [hx, State.takeHello, eq_false_of_ne_true fun hb => hl (inField_iff.1 hb), Bool.not_false, Bool.or_true]
    rfl
  · have hx : exec (.helloFrame n h) s = .next (s.takeHello n h) := exec_running hrun
    intro x known fresh mine epoch paired key
    have hnote (stale : Bool) : s.notePeer h stale = s.modTether h.destTether fun x => if mine then { x with peerStale := stale } else x :=
      modTether_congr rfl
    refine ⟨fun hk => ?_, fun hk hn => ⟨_, hx, ?_⟩, fun hk hn hp => ?_, fun hk hn hst hp => ?_⟩
    · rw [hx, takeHello_of_unknown hu hfield hk]
      cases h.tagOk <;> rfl
    · rw [takeHello_of_stale hu hfield hk hn]
      refine ⟨?_, ?_⟩
      · rw [State.raiseStale, State.raise_tethers, hnote]
      · obtain ⟨e, hmem, hcls, hcode, hpay⟩ := mem_raise_arriving (s.notePeer h true) (srcPort n) evtCfgStale (pack 128
          [(0, 16, (s.notePeer h true).chipId), (16, 16, h.srcChip), (32, 32, (s.notePeer h true).field .cfgEpoch 0 32), (64, 32, h.epoch.toNat),
            (96, 1, b2n (s.notePeer h true).staleBit), (97, 1, b2n h.stale)])
        refine ⟨e, hmem, hcls, hcode, ?_⟩
        rw [hpay, bits_pack (x := h.epoch.toNat) (by simp) (by decide) (by simp)]
        exact Nat.mod_eq_of_lt (BitVec.isLt _)
    · rw [hx, takeHello_of_fresh hu hfield hk hn, if_neg, hnote]
      rintro ⟨hst, hm⟩
      rcases hp with hp | hp
      · exact hp hst
      · exact hp (matchesHello_iff.1 hm)
    · rw [hx, takeHello_of_fresh hu hfield hk hn, if_pos ⟨hst, matchesHello_iff.2 hp⟩]
      rfl
  · have hlinks := linked_takeEnv (env := env) (linked_self s)
    intro x e counted valid
    have hx : exec (.dataFrame n f env) s = .next (e.takeData n f) := exec_running hrun
    have hr : exec (.reportFrame n f) s = .next (if s.frameValid f then s.takeReport f.destTether f else s.discardFrame n) := by
      refine (exec_running hrun).trans ?_
      rw [hu]
      rfl
    have hport : (e.port n).linkUp = true := (congrArg (fun m => (Tbl.get {} m n).linkUp) hlinks.2.1).trans hu
    have ht : e.tether f.destTether = x := congrArg (fun m => Tbl.get ({} : Tether) m f.destTether) hlinks.1
    have hcolls : e.colls = s.colls := by
      obtain ⟨mem, units, words, h⟩ := takeEnv_eq s env
      exact (congrArg State.colls h :)
    have hsound : FrameSound e f ↔ valid := by
      rw [FrameSound, ht]
    refine ⟨fun hv => ⟨?_, ?_⟩, ?_⟩
    · rw [hx, takeData_of_bad hport fun h => hv (hsound.1 h)]
      rfl
    · rw [hr, if_neg fun hb => hv (frameValid_iff.1 hb)]
      rfl
    intro hd reported
    have hrep (v : State) (hvt : v.tether f.destTether = x) (hvc : v.colls = s.colls) (hopen : x.state ≠ .closed) : v.takeReport f.destTether f = reported v := by
      rw [takeReport_eq (by rw [hvt]; exact hopen), hvt]
      simp only [reported]
      rw [← hvc]
      rfl
    refine ⟨fun hv => ?_, fun hv => ⟨fun hdel => ?_, fun hdel hc => ?_, fun hdel hc => ?_⟩⟩
    · rw [hr, if_pos (frameValid_iff.2 hv), hrep s rfl rfl (FrameSound.open hv)]
    · rw [hx, takeData_of_sound hport (hsound.2 hv), ht, if_pos hdel, hrep e ht hcolls (FrameSound.open hv)]
    · rw [hx, takeData_of_sound hport (hsound.2 hv), ht, hdel, hc, if_neg (by decide), if_pos rfl, hrep e ht hcolls (FrameSound.open hv)]
    · obtain ⟨consumed, early, hread⟩ := tether_takeReport (s := e) (f := f) (by rw [ht]; exact FrameSound.open hv)
      rw [ht] at hread
      rw [hx, takeData_of_sound hport (hsound.2 hv), ht, hdel, hc, if_neg (by decide), if_neg (by decide),
        deliverRing_of_tether (x := x) (by rw [hread]) (by rw [hread]) (by rw [hread]) (by rw [hread]), hrep e ht hcolls (FrameSound.open hv)]
      rfl

end Sys2Proof.Laws
end


section
/-!
SUPPORT. The life of a tether: frames delivered once and in count, and timeouts, breaks and bounds (R57, R58, R363, R365, R371).
-/
namespace Sys2Proof.Laws
open Sys2Proof.Machine Sys2Proof.Safety

/-! ### Frames delivered without a gap (R365) -/

/-- A frame delivered already: below the count, or noted beyond it. -/
def Delivered (n : BitVec 64) (l : List (BitVec 64)) (w : BitVec 64) : Prop := w.toNat < n.toNat ∨ w ∈ l

/-- The frames noted beyond a count: none twice, and none below it. -/
def Noted (n : BitVec 64) (l : List (BitVec 64)) : Prop := l.Nodup ∧ (∀ b ∈ l, n.toNat ≤ b.toNat) ∧ n.toNat + l.length < 2 ^ 64

theorem toNat_succ {n : BitVec 64} (h : n.toNat + 1 < 2 ^ 64) : (n + 1).toNat = n.toNat + 1 := by
  rw [BitVec.toNat_add]
  exact Nat.mod_eq_of_lt h

/-- One more frame in count leaves those beyond it noted. -/
theorem noted_filter {n : BitVec 64} {l : List (BitVec 64)} (h : Noted n l) (hn : n ∈ l) :
    Noted (n + 1) (l.filter fun v => decide (v ≠ n)) ∧ (l.filter fun v => decide (v ≠ n)).length + 1 = l.length ∧ (n + 1).toNat = n.toNat + 1 := by
  obtain ⟨hnd, hle, hlen⟩ := h
  have hpos : 0 < l.length := List.length_pos_of_mem hn
  have hsucc : (n + 1).toNat = n.toNat + 1 := toNat_succ (by omega)
  have herase : (l.filter fun v => decide (v ≠ n)) = l.erase n := by
    rw [hnd.erase_eq_filter]
    exact List.filter_congr fun v _ => by by_cases hv : v = n <;> simp [hv]
  have hlength : (l.filter fun v => decide (v ≠ n)).length + 1 = l.length := by
    rw [herase, List.length_erase_of_mem hn]
    omega
  refine ⟨⟨hnd.filter _, fun b hb => ?_, by omega⟩, hlength, hsucc⟩
  obtain ⟨hbl, hbn⟩ := List.mem_filter.1 hb
  have hne : b.toNat ≠ n.toNat := fun he => of_decide_eq_true hbn (BitVec.eq_of_toNat_eq he)
  have := hle b hbl
  omega

/-- The count rises to the lowest frame that was not delivered, and the same frames are delivered. -/
theorem deliverSeq_spec (k : Nat) (n : BitVec 64) (l : List (BitVec 64)) (h : Noted n l) (hk : l.length ≤ k) :
    (∀ w, Delivered (deliverSeq n l k).1 (deliverSeq n l k).2 w ↔ Delivered n l w) ∧ (deliverSeq n l k).2.Nodup ∧
      ∀ b ∈ (deliverSeq n l k).2, (deliverSeq n l k).1.toNat < b.toNat := by
  induction k generalizing n l with
  | zero =>
    obtain rfl : l = [] := List.eq_nil_of_length_eq_zero (by omega)
    exact ⟨fun w => Iff.rfl, List.nodup_nil, fun b hb => absurd hb (by simp [deliverSeq])⟩
  | succ k ih =>
    rw [deliverSeq]
    split
    next hc =>
      have hn : n ∈ l := List.contains_iff_mem.1 hc
      obtain ⟨hnoted, hlength, hsucc⟩ := noted_filter h hn
      obtain ⟨hsame, hrest⟩ := ih (n + 1) _ hnoted (by omega)
      refine ⟨fun w => (hsame w).trans ?_, hrest⟩
      rw [Delivered, Delivered, hsucc, List.mem_filter, decide_eq_true_eq]
      by_cases hw : w = n
      · subst hw
        simp [hn]
      · have hne : w.toNat ≠ n.toNat := fun he => hw (BitVec.eq_of_toNat_eq he)
        have hlt : w.toNat < n.toNat + 1 ↔ w.toNat < n.toNat := by omega
        simp only [hw, ne_eq, not_false_eq_true, and_true, hlt]
    next hc =>
      obtain ⟨hnd, hle, -⟩ := h
      refine ⟨fun w => Iff.rfl, hnd, fun b hb => ?_⟩
      have hne : b ≠ n := fun he => hc (List.contains_iff_mem.2 (he ▸ hb))
      have hnat : b.toNat ≠ n.toNat := fun he => hne (BitVec.eq_of_toNat_eq he)
      have : n.toNat ≤ b.toNat := hle b hb
      show n.toNat < b.toNat
      omega

theorem hasDelivered_iff {x : Tether} {w : BitVec 64} : x.hasDelivered w = true ↔ Delivered x.delivered x.beyond w := by
  rw [Tether.hasDelivered, Bool.or_eq_true, decide_eq_true_eq, List.contains_iff_mem, Delivered]

/-- The frames noted with one more. -/
theorem noted_cons {x : Tether} {v : BitVec 64} (hnd : x.beyond.Nodup) (hb : ∀ b ∈ x.beyond, x.delivered.toNat < b.toNat) (hv : x.hasDelivered v = false)
    (hlen : x.delivered.toNat + x.beyond.length + 1 < 2 ^ 64) : Noted x.delivered (v :: x.beyond) := by
  have hnot : ¬ Delivered x.delivered x.beyond v := fun h => Bool.false_ne_true (hv.symm.trans (hasDelivered_iff.2 h))
  obtain ⟨hge, hmem⟩ := not_or.1 hnot
  refine ⟨List.nodup_cons.2 ⟨hmem, hnd⟩, fun b hbm => ?_, by rw [List.length_cons]; omega⟩
  rcases List.mem_cons.1 hbm with rfl | hbm
  · omega
  · exact Nat.le_of_lt (hb b hbm)

/-! ### Timeouts, breaks and bounds (R58, R363, R371) -/

section
variable {s : State} {t : Nat}

/-- Events raised one after the other about the same tether. -/
theorem foldl_raise_tether (l : List (BitVec 64)) (u : State) (h : u.tethers = s.tethers) :
    l.foldl (fun v f => v.raise (v.tetherSource t) evtTetherLate (v.tetherPayload t [(0, 64, f.toNat)])) u =
      l.foldl (fun v f => v.raise (v.tetherSource t) evtTetherLate
        (pack 128 [(64, 12, t), (76, 16, (s.tether t).peerChip.toNat), (92, 4, (s.tether t).paddock), (0, 64, f.toNat)])) u := by
  induction l generalizing u with
  | nil => rw [List.foldl_nil, List.foldl_nil]
  | cons f l ih =>
    have htether : u.tether t = s.tether t := congrArg (fun m => Tbl.get ({} : Tether) m t) h
    have hpayload : u.tetherPayload t [(0, 64, f.toNat)] =
        pack 128 [(64, 12, t), (76, 16, (s.tether t).peerChip.toNat), (92, 4, (s.tether t).paddock), (0, 64, f.toNat)] := by
      rw [State.tetherPayload, htether]
      rfl
    rw [List.foldl_cons, List.foldl_cons, hpayload]
    exact ih _ (by rw [State.raise_tethers, h])

theorem stride_foldl_raise (l : List (BitVec 64)) (u : State) (payload : BitVec 64 → BitVec 128) :
    (l.foldl (fun v f => v.raise (v.tetherSource t) evtTetherLate (payload f)) u).stride = u.stride := by
  induction l generalizing u with
  | nil => rw [List.foldl_nil]
  | cons f l ih => rw [List.foldl_cons, ih, State.stride, State.now, State.raise_time]; rfl

/-- A frame with its lateness noted. -/
theorem late_of_overdue (x : Tether) (now : Nat) (f : Pend) :
    (if x.overdue now f then { f with late := true } else f) =
      { f with late := f.late || (!f.late && decide (f.stride + x.boundM1.toNat + 1 ≤ now)) } := by
  rw [Tether.overdue]
  cases hl : f.late <;> cases hd : decide (f.stride + x.boundM1.toNat + 1 ≤ now) <;> simp [← hl]

end

/-! ### The statement -/

/-- Settles O48: the count of frames by induction over those noted beyond it, the rest by the state of the tether. -/
theorem tetherLife : Obligations.TetherLife := by
  refine ⟨fun x v w hnd hb hv hlen => ?_, fun s t hrun => ?_⟩
  · intro y
    obtain ⟨hsame, hnodup, habove⟩ := deliverSeq_spec (x.beyond.length + 1) x.delivered (v :: x.beyond) (noted_cons hnd hb hv hlen) (by rw [List.length_cons])
    refine ⟨?_, ?_, hnodup, habove⟩
    · rw [hasDelivered_iff, hasDelivered_iff]
      refine (hsame w).trans ?_
      rw [Delivered, Delivered, List.mem_cons]
      exact ⟨fun h => h.elim (fun h => .inl (.inl h)) fun h => h.elim .inr fun h => .inl (.inr h),
        fun h => h.elim (fun h => h.elim .inl fun h => .inr (.inr h)) fun h => .inr (.inl h)⟩
    · refine eq_false_of_ne_true fun h => ?_
      rcases hasDelivered_iff.1 h with h | h
      · exact Nat.lt_irrefl _ h
      · exact Nat.lt_irrefl _ (habove _ h)
  · have hopening : exec (.tetherOpeningTimeout t) s = .next (s.timeOutTether t) := exec_running hrun
    have hbroken : exec (.tetherBroken t) s = .next (s.breakTether t) := exec_running hrun
    have hexpiry : exec (.tetherBoundExpiry t) s = .next (s.expireTether t) := exec_running hrun
    intro x down
    refine ⟨fun hst ho => ?_, fun h => ?_, fun hst h => ?_, fun hl he => ?_, ?_⟩
    · rw [hopening, State.timeOutTether]
      exact congrArg _ (if_pos ⟨hst, ho⟩)
    · rw [hopening, State.timeOutTether]
      exact congrArg _ (if_neg fun hc => h.elim (fun h => h hc.1) fun h => absurd hc.2 (Nat.not_le.2 h))
    · have hread : (s.modTether t fun x => { x with state := .broken }).tether t = { s.tether t with state := .broken } :=
        tether_modTether_of_open (by simp)
      rw [hbroken, State.breakTether]
      refine congrArg _ ((if_pos ⟨hst, h⟩).trans ?_)
      rw [State.raiseDown, State.tetherPayload, hread]
      rfl
    · rw [hbroken, State.breakTether]
      exact congrArg _ (if_neg fun hc => hc.2.elim (fun h => absurd h (Nat.not_le.2 hl)) he)
    · rw [hexpiry, State.expireTether]
      refine congrArg _ ?_
      dsimp only
      rw [foldl_raise_tether _ s rfl, stride_foldl_raise]
      simp only [late_of_overdue]
      rfl

end Sys2Proof.Laws
end


section
/-!
SUPPORT. The admission of collectives and their aborts (R317 to R323, R342, R351, R513).
-/
namespace Sys2Proof.Laws
open Sys2Proof.Machine Sys2Proof.Safety

/-! ### COLLECTIVE (R317, R513) -/

theorem firstFault_of_none {l : List Bool} (h : ∀ x ∈ l, x = false) : firstFault l = none := by
  rw [firstFault, (List.findIdx?_eq_none_iff (p := id)).2 h]
  rfl

theorem firstFault_of_first {l : List Bool} {k : Nat} (hk : l[k]? = some true) (hj : ∀ j < k, l[j]? = some false) : firstFault l = some (k + 1) := by
  have hfind : l.findIdx? id = some k := by
    obtain ⟨hlt, hget⟩ := List.getElem?_eq_some_iff.1 hk
    refine List.findIdx?_eq_some_iff_getElem.2 ⟨hlt, hget, fun j hjk => ?_⟩
    obtain ⟨hl, hg⟩ := List.getElem?_eq_some_iff.1 (hj j hjk)
    simp [hg]
  rw [firstFault, hfind]
  rfl

/-- What a COLLECTIVE reads. -/
def collRead (u : State) (q : Fetched) : State × (Answer ⊕ Coll × Nat) := { u with nextColl := u.nextColl + 1 }.readColl q.paddock q.cmd.arg u.nextColl

section
variable {u : State} {q : Fetched} {c : Coll} {members : Nat}

theorem collective_of_answer {a : Answer} (h : (collRead u q).2 = .inl a) : u.collective q = ((collRead u q).1, a) := by
  have hpair : { u with nextColl := u.nextColl + 1 }.readColl q.paddock q.cmd.arg u.nextColl = ((collRead u q).1, .inl a) := Prod.ext rfl h
  rw [State.collective, hpair]

theorem collective_of_read (h : (collRead u q).2 = .inr (c, members)) :
    u.collective q =
      let v := (collRead u q).1
      match firstFault (v.collFaults c members) with
      | some k => (v, .illegal k)
      | none =>
        if c.takesSlots && decide (v.slotShare c.paddock = 0) then (v, .refused noteSlots)
        else if v.collForeign c members then (v, .refused noteOwner)
        else if c.chunks = 0 then (v.finishEmpty c, .zeroLength)
        else if maxColls ≤ v.colls.length then (v, .failed noteCollFull)
        else (v.admitColl c, .ok) := by
  have hpair : { u with nextColl := u.nextColl + 1 }.readColl q.paddock q.cmd.arg u.nextColl = ((collRead u q).1, .inr (c, members)) := Prod.ext rfl h
  rw [State.collective, hpair]
  <;> rfl

theorem collective_of_fault {k : Nat} (h : (collRead u q).2 = .inr (c, members)) (hk : ((collRead u q).1.collFaults c members)[k]? = some true)
    (hj : ∀ j < k, ((collRead u q).1.collFaults c members)[j]? = some false) :
    u.collective q = ((collRead u q).1, { result := 3, note := 0x20, detail := k + 1 }) := by
  rw [collective_of_read h]
  dsimp only
  rw [firstFault_of_first hk hj]
  <;> rfl

/-- A descriptor that meets the conditions of R513. -/
def CollSound (u : State) (q : Fetched) (c : Coll) (members : Nat) : Prop :=
  (collRead u q).2 = .inr (c, members) ∧ ∀ x ∈ (collRead u q).1.collFaults c members, x = false

theorem collective_of_sound (h : CollSound u q c members) :
    u.collective q =
      let v := (collRead u q).1
      if c.takesSlots && decide (v.slotShare c.paddock = 0) then (v, .refused noteSlots)
      else if v.collForeign c members then (v, .refused noteOwner)
      else if c.chunks = 0 then (v.finishEmpty c, .zeroLength)
      else if maxColls ≤ v.colls.length then (v, .failed noteCollFull)
      else (v.admitColl c, .ok) := by
  obtain ⟨hread, hsound⟩ := h
  rw [collective_of_read hread]
  dsimp only
  rw [firstFault_of_none hsound]

/-- The slots that a collective needs are in its paddock's share. -/
def CollSlots (u : State) (q : Fetched) (c : Coll) : Prop := c.kind ≠ 1 ∧ c.kind ≠ 3 ∨ (collRead u q).1.field (.wteBuf c.paddock) 0 12 ≠ 0

theorem not_collSlots_iff : (c.takesSlots && decide ((collRead u q).1.slotShare c.paddock = 0)) = true ↔ ¬ CollSlots u q c := by
  rw [Coll.takesSlots, CollSlots, Bool.and_eq_true, Bool.or_eq_true, decide_eq_true_eq, decide_eq_true_eq, decide_eq_true_eq, not_or, not_and_or, not_not, not_not, not_not]
  rfl

theorem collective_of_noSlots (h : CollSound u q c members) (hs : ¬ CollSlots u q c) : u.collective q = ((collRead u q).1, { result := 1, note := 0x12 }) := by
  rw [collective_of_sound h]
  exact if_pos (not_collSlots_iff.2 hs)

theorem collective_of_slots (h : CollSound u q c members) (hs : CollSlots u q c) :
    u.collective q =
      let v := (collRead u q).1
      if v.collForeign c members then (v, .refused noteOwner)
      else if c.chunks = 0 then (v.finishEmpty c, .zeroLength)
      else if maxColls ≤ v.colls.length then (v, .failed noteCollFull)
      else (v.admitColl c, .ok) := by
  rw [collective_of_sound h]
  exact if_neg fun hb => not_collSlots_iff.1 hb hs

theorem collective_of_own (h : CollSound u q c members) (hs : CollSlots u q c) (ho : (collRead u q).1.collForeign c members = false) :
    u.collective q =
      let v := (collRead u q).1
      if c.chunks = 0 then (v.finishEmpty c, .zeroLength)
      else if maxColls ≤ v.colls.length then (v, .failed noteCollFull)
      else (v.admitColl c, .ok) := by
  rw [collective_of_slots h hs]
  exact if_neg (by rw [ho]; decide)

/-! ### What is read, and the tethers that may be named -/

theorem readColl_of_unread {s : State} {p desc id : Nat} (h : (s.readOperand p desc 128).2 = none) :
    (s.readColl p desc id).2 = .inl { result := 2, note := 0x21 } := by
  rw [State.readColl, descriptorBytes, readOperand_eq h]
  <;> rfl

theorem readColl_of_foreign {s v : State} {p desc id : Nat} {bs : List Byte} (h : s.readOperand p desc 128 = (v, some bs))
    (hb : v.belongs p (membersAt bs) (4 * (collOf id p desc bs).count) = false) : (s.readColl p desc id).2 = .inl { result := 1, note := 0x14 } := by
  rw [State.readColl, descriptorBytes, h]
  dsimp only
  rw [State.readTable, hb]
  <;> rfl

theorem tetherUsable_iff {s : State} {p t : Nat} :
    s.tetherUsable p t = true ↔ (s.tether t).paddock = p ∧ (s.tether t).state ≠ .closed ∧
      ((s.tether t).state = .opening → s.staleBit = false ∧ (s.tether t).peerStale = false) := by
  have hopen : (!(decide ((s.tether t).state = .opening) && (s.staleBit || (s.tether t).peerStale))) = true ↔
      ((s.tether t).state = .opening → s.staleBit = false ∧ (s.tether t).peerStale = false) := by
    by_cases ho : (s.tether t).state = .opening <;> simp [ho]
  rw [State.tetherUsable, Bool.and_eq_true, Bool.and_eq_true, hopen, decide_eq_true_eq, decide_eq_true_eq, and_assoc]

end

/-! ### COLL_ABORT (R342) -/

section
variable {u : State} {q : Fetched}

/-- The collective of a paddock with a descriptor at the address that a COLL_ABORT names. -/
def collNamed (u : State) (q : Fetched) : Option Coll := u.colls.find? fun x => decide (x.paddock = q.paddock) && decide (x.descDpa.toNat = q.cmd.arg)

theorem find_collNamed : ((u.colls.filter fun x => decide (x.descDpa.toNat = q.cmd.arg)).find? fun x => decide (x.paddock = q.paddock)) = collNamed u q := by
  rw [List.find?_filter, collNamed]
  refine congrFun (congrArg _ (funext fun x => ?_)) _
  simp [and_comm]

theorem markAbort_of_some {c : Coll} (h : collNamed u q = some c) :
    u.markAbort q = ({ u with colls := u.colls.map fun y => { y with aborting := y.aborting || decide (y.id = c.id) } }, { later := true }) := by
  have hmark (y : Coll) : (if y.id = c.id then { y with aborting := true } else y) = { y with aborting := y.aborting || decide (y.id = c.id) } := by
    split
    next h => rw [decide_eq_true h, Bool.or_true]
    next h => rw [decide_eq_false h, Bool.or_false]
  rw [State.markAbort, find_collNamed, h]
  dsimp only
  simp only [hmark]
  rfl

theorem markAbort_of_none (h : collNamed u q = none) :
    u.markAbort q = (u, if (u.colls.filter fun x => decide (x.descDpa.toNat = q.cmd.arg)).isEmpty then .failed noteNotFound else .refused noteOwner) := by
  rw [State.markAbort, find_collNamed, h]

end

/-! ### The statement -/

/-- Settles O49: the first condition that fails answers. -/
theorem collectivesAdmitted : Obligations.CollectivesAdmitted := by
  refine ⟨fun env c members => ?_, fun s p desc id => ⟨readColl_of_unread, fun bs v h => readColl_of_foreign h⟩, fun s p t => tetherUsable_iff, ?_⟩
  · have hcoll {ok : State → Fetched → Prop} {f : Conduct} (hf : ∀ u q id, ok u q → u.collective q = f u q id) :
        Answers (.collective env) (fun s => s.takeEnv env) 0x20 ok f :=
      uncounted_answers (fun s q _ => s.collective q) (fun s hp => exec_running hp) (fun s => takeEnv_host s env) (fun _ _ _ h => absurd h (by decide)) hf
    refine ⟨hcoll ?_, fun k => hcoll ?_, hcoll ?_, hcoll ?_, hcoll ?_, hcoll ?_, fun a => hcoll ?_⟩
    · rintro u q id ⟨hs, hl, ho, hc, hn⟩
      rw [collective_of_own hs hl ho]
      exact (if_neg hc).trans (if_neg (Nat.not_le.2 hn))
    · rintro u q id ⟨hr, hk, hj⟩
      exact collective_of_fault hr hk hj
    · rintro u q id ⟨hs, hl⟩
      exact collective_of_noSlots hs hl
    · rintro u q id ⟨hs, hl, ho⟩
      rw [collective_of_slots hs hl]
      exact if_pos (eq_true_of_ne_false ho)
    · rintro u q id ⟨hs, hl, ho, hc⟩
      rw [collective_of_own hs hl ho]
      exact if_pos hc
    · rintro u q id ⟨hs, hl, ho, hc, hn⟩
      rw [collective_of_own hs hl ho]
      exact (if_neg hc).trans (if_pos hn)
    · rintro u q id h
      exact collective_of_answer h
  · have habort {ok : State → Fetched → Prop} {f : Conduct} (hf : ∀ u q id, ok u q → u.markAbort q = f u q id) : Answers .collAbort id 0x21 ok f :=
      uncounted_answers (fun s q _ => s.markAbort q) (fun s hp => exec_running hp) (fun _ => rfl) (fun _ _ _ h => absurd h (by decide)) hf
    refine ⟨fun c => habort fun u q id h => markAbort_of_some h, habort ?_, habort ?_⟩
    · rintro u q id ⟨hn, x, hx, ha⟩
      rw [markAbort_of_none hn, if_neg]
      · rfl
      · rw [List.isEmpty_iff, List.filter_eq_nil_iff]
        exact fun h => h x hx (decide_eq_true ha)
    · rintro u q id h
      have hfilter : (u.colls.filter fun x => decide (x.descDpa.toNat = q.cmd.arg)) = [] :=
        List.filter_eq_nil_iff.2 fun x hx hd => h x hx (of_decide_eq_true hd)
      have hnone : collNamed u q = none := by rw [← find_collNamed, hfilter]; rfl
      rw [markAbort_of_none hnone, hfilter]
      rfl

end Sys2Proof.Laws
end


section
/-!
SUPPORT. The collectives: ready words, starts, deadlines, chunks sent and held chunks released (R321 to R325, R336, R338 to R341).
-/
namespace Sys2Proof.Laws
open Sys2Proof.Machine Sys2Proof.Safety

/-! ### The collective of a number -/

section
variable {s : State} {id : Nat} {c : Coll}

/-- A collective that changes, its number apart, is found as it changed. -/
theorem coll_modColl (f : Coll → Coll) (hf : ∀ c, (f c).id = c.id) (h : s.coll id = some c) : (s.modColl id f).coll id = some (f c) := by
  have hid : c.id = id := of_decide_eq_true (List.find?_some (p := fun c : Coll => decide (c.id = id)) h)
  have hkeep (d : Coll) : decide ((if d.id = id then f d else d).id = id) = decide (d.id = id) := by
    split
    · rw [hf d]
    · rfl
  have hmap : (s.modColl id f).coll id = (s.coll id).map fun d => if d.id = id then f d else d := find?_map_of_keeps hkeep
  rw [hmap, h, Option.map_some, if_pos hid]

theorem coll_takeEnv (env : Env) : (s.takeEnv env).coll id = s.coll id := by
  obtain ⟨mem, units, words, h⟩ := takeEnv_eq s env
  rw [h]
  rfl

theorem takesSlots_iff : c.takesSlots = true ↔ c.kind = 1 ∨ c.kind = 3 := by
  rw [Coll.takesSlots, Bool.or_eq_true, decide_eq_true_eq, decide_eq_true_eq]

/-! ### Ready words and starts (R321, R323, R324) -/

theorem pollReady_of_ready (h : s.coll id = some c) (hr : c.isReady = true) : s.pollReady id = s := by
  rw [State.pollReady, h]
  exact if_pos hr

theorem pollReady_of_read (h : s.coll id = some c) (hr : c.isReady = false) {v : State} {x : Nat} (hv : s.wteNat c.paddock c.ready.toNat 4 = (v, some x)) :
    s.pollReady id = if c.readyCount.toNat ≤ x then v.modColl id fun c => { c with isReady := true } else v := by
  rw [State.pollReady, h]
  dsimp only
  rw [hr, hv]
  rfl

/-- A step that changes tethers alone. -/
def TethersOnly {α : Type} (f : State → α → State) : Prop := ∀ s x, ∃ m, f s x = { s with tethers := m }

theorem foldl_tethersOnly {α : Type} {f : State → α → State} (hf : TethersOnly f) (l : List α) (s : State) : ∃ m, l.foldl f s = { s with tethers := m } := by
  induction l generalizing s with
  | nil => exact ⟨s.tethers, rfl⟩
  | cons x l ih =>
    obtain ⟨m, hm⟩ := hf s x
    rw [List.foldl_cons, hm]
    exact ih { s with tethers := m }

theorem dueReports_eq (s : State) (c : Coll) : ∃ m, s.dueReports c = { s with tethers := m } := foldl_tethersOnly (fun _ _ => ⟨_, rfl⟩) _ _

/-- A report that is due on a tether. -/
def ReportDue (s : State) (t : Nat) (r : Nat × BitVec 32 × BitVec 16) : Prop := r ∈ (s.tether t).tagsDue

theorem mem_insert_self {α : Type} (m : Tbl α) (k : Nat) (v : α) : (k, v) ∈ Tbl.insert m k v := by
  induction m with
  | nil => exact List.mem_singleton_self _
  | cons c m ih =>
    obtain ⟨j, w⟩ := c
    rw [Tbl.insert]
    split
    · exact List.mem_cons_self ..
    · split
      · exact List.mem_cons_self ..
      · exact List.mem_cons_of_mem _ ih

/-- A tether with a report noted. -/
def withTag (r : Nat × BitVec 32 × BitVec 16) (x : Tether) : Tether := { x with tagsDue := Tbl.insert x.tagsDue r.1 r.2 }

theorem withTag_ne (r : Nat × BitVec 32 × BitVec 16) (x : Tether) : withTag r x ≠ {} := by
  intro h
  have hmem : r ∈ (withTag r x).tagsDue := mem_insert_self _ _ _
  rw [h] at hmem
  exact absurd hmem (by simp)

theorem tether_withTag_same (s : State) (t : Nat) (r : Nat × BitVec 32 × BitVec 16) : (s.modTether t (withTag r)).tether t = withTag r (s.tether t) :=
  Tbl.get_put_nondefault _ _ _ _ (withTag_ne _ _)

theorem tether_withTag_other (s : State) {t k : Nat} (r : Nat × BitVec 32 × BitVec 16) (h : k ≠ t) : (s.modTether t (withTag r)).tether k = s.tether k := by
  have hput : (s.modTether t (withTag r)).tethers = Tbl.insert s.tethers t (withTag r (s.tether t)) := if_neg (withTag_ne _ _)
  rw [State.tether, hput, Tbl.get_insert_other _ _ _ _ _ h]
  rfl

theorem reportDue_withTag (s : State) (t : Nat) (r : Nat × BitVec 32 × BitVec 16) : ReportDue (s.modTether t (withTag r)) t r := by
  rw [ReportDue, tether_withTag_same]
  exact mem_insert_self _ _ _

theorem reportDue_kept {s : State} {t k : Nat} {r : Nat × BitVec 32 × BitVec 16} (h : ReportDue s k r) : ReportDue (s.modTether t (withTag r)) k r := by
  by_cases hk : k = t
  · subst hk
    exact reportDue_withTag s k r
  · rw [ReportDue, tether_withTag_other s r hk]
    exact h

/-- A report noted on several tethers is due on each. -/
theorem reportDue_foldl {l : List (Nat × Nat)} {r : Nat × BitVec 32 × BitVec 16} (s : State) :
    (∀ k, ReportDue s k r → ReportDue (l.foldl (fun s m => s.modTether m.2 (withTag r)) s) k r) ∧
      ∀ m ∈ l, ReportDue (l.foldl (fun s m => s.modTether m.2 (withTag r)) s) m.2 r := by
  induction l generalizing s with
  | nil => exact ⟨fun k h => h, fun m h => absurd h (by simp)⟩
  | cons x l ih =>
    obtain ⟨hkeep, hall⟩ := ih (s.modTether x.2 (withTag r))
    refine ⟨fun k h => hkeep k (reportDue_kept h), fun m hm => ?_⟩
    rcases List.mem_cons.1 hm with rfl | hm
    · exact hkeep _ (reportDue_withTag s _ r)
    · exact hall m hm

theorem dueReports_of_reduce (s : State) (h : c.kind = 1) :
    s.dueReports c = c.peersOf.foldl (fun s m => s.modTether m.2 (withTag (c.tag.toNat, BitVec.ofNat 32 c.low, c.reportW))) s := by
  have hreport (s : State) (t : Nat) : s.dueReport c t = s.modTether t (withTag (c.tag.toNat, BitVec.ofNat 32 c.low, c.reportW)) := by
    rw [State.dueReport, State.reportL, if_pos (show c.kind = kindReduce from h)]
    rfl
  rw [State.dueReports]
  simp only [hreport]

/-- A collective that cannot start now. -/
def CollWaits (s : State) (c : Coll) : Prop :=
  let share := s.field (.wteBuf c.paddock) 0 12
  ¬ (¬ (c.kind = 1 ∨ c.kind = 3) ∨ (s.slotQueueAhead c = false ∧ s.slotsTaken c.paddock + min c.window share ≤ share))

theorem collWaits_iff : (c.takesSlots && (s.slotQueueAhead c || decide (s.slotShare c.paddock < s.slotsTaken c.paddock + min c.window (s.slotShare c.paddock)))) = true ↔
    CollWaits s c := by
  rw [Bool.and_eq_true, takesSlots_iff, Bool.or_eq_true, decide_eq_true_eq, CollWaits, not_or, not_not, not_and_or, Bool.not_eq_false, Nat.not_le]
  rfl

/-- A collective with its slots as it starts. -/
def startedWith (w : Nat) (c : Coll) : Coll := { c with started := true, slots := if c.takesSlots then w else 0 }

theorem startColl_of_idle (h : s.coll id = some c) (hb : c.isReady = false ∨ c.started = true ∨ s.collBlocked c = true ∨ CollWaits s c) : s.startColl id = s := by
  rw [State.startColl, h]
  dsimp only
  by_cases hr : (!c.isReady || c.started || s.collBlocked c) = true
  · rw [if_pos hr]
  · rw [if_neg hr, if_pos]
    obtain ⟨hr, hs, hc⟩ : c.isReady = true ∧ c.started = false ∧ s.collBlocked c = false := by simpa [and_assoc] using hr
    rcases hb with hb | hb | hb | hb
    · exact absurd (hr.symm.trans hb) (by decide)
    · exact absurd (hs.symm.trans hb) (by decide)
    · exact absurd (hc.symm.trans hb) (by decide)
    · exact collWaits_iff.2 hb

/-- The state as a collective starts, before its reports are due. -/
def collStarting (s : State) (id : Nat) (c : Coll) : State :=
  c.peersOf.foldl (fun s m => s.modTether m.2 fun x => { x with permGot := Tbl.drop x.permGot c.tag.toNat })
    (s.modColl id (startedWith (min c.window (s.slotShare c.paddock))))

theorem collStarting_eq (s : State) (id : Nat) (c : Coll) :
    ∃ m, collStarting s id c = { s.modColl id (startedWith (min c.window (s.slotShare c.paddock))) with tethers := m } :=
  foldl_tethersOnly (fun _ _ => ⟨_, rfl⟩) _ _

theorem startColl_of_free (h : s.coll id = some c) (hr : c.isReady = true) (hs : c.started = false) (hb : s.collBlocked c = false) (hw : ¬ CollWaits s c) :
    s.startColl id = (collStarting s id c).dueReports (startedWith (min c.window (s.slotShare c.paddock)) c) := by
  obtain ⟨m, hm⟩ := collStarting_eq s id c
  have hcoll : (collStarting s id c).coll id = some (startedWith (min c.window (s.slotShare c.paddock)) c) := by
    rw [hm]
    exact coll_modColl (startedWith (min c.window (s.slotShare c.paddock))) (fun _ => rfl) h
  rw [State.startColl, h]
  dsimp only
  rw [hr, hs, hb, if_neg (by decide), if_neg fun hc => hw (collWaits_iff.1 hc)]
  split
  next d hd =>
    have heq : d = startedWith (min c.window (s.slotShare c.paddock)) c := Option.some.inj (hd.symm.trans hcoll)
    rw [heq]
    rfl
  next hd => exact absurd (hd.symm.trans hcoll) (by simp)

/-! ### Deadlines (R341) -/

/-- The deadline of a collective has passed. -/
theorem passDeadline_of_late (h : s.coll id = some c) (hd : c.deadline ≠ 0) (hf : c.fLate = false) (hl : c.admitted + c.deadline ≤ s.stride) :
    s.passDeadline id = (s.modColl id fun c => { c with fLate := true }).wteEvent id 2 evtWteLate [(0, 16, c.deadline)] := by
  rw [State.passDeadline, h]
  refine if_neg ?_
  rintro (h | h | h)
  · exact hd h
  · exact absurd (hf.symm.trans h) (by decide)
  · omega

theorem passDeadline_of_open (h : s.coll id = some c) (ho : c.deadline = 0 ∨ c.fLate = true ∨ s.stride < c.admitted + c.deadline) : s.passDeadline id = s := by
  rw [State.passDeadline, h]
  exact if_pos ho

/-- An event that a collective raised already is not raised again. -/
theorem wteEvent_of_raised {k : Nat} {e : EventCode} {fields : List (Nat × Nat × Nat)} (h : s.coll id = some c) (hb : bit c.raised k = true) :
    s.wteEvent id k e fields = s := by
  rw [State.wteEvent, h]
  exact if_pos hb

theorem wteEvent_of_new {k : Nat} {e : EventCode} {fields : List (Nat × Nat × Nat)} (h : s.coll id = some c) (hb : bit c.raised k = false) :
    s.wteEvent id k e fields = (s.modColl id fun c => { c with raised := withBit c.raised k true }).raise srcWte e
      (pack 128 (fields ++ [(108, 4, c.paddock), (112, 16, c.tag.toNat)])) := by
  rw [State.wteEvent, h]
  exact if_neg (by rw [hb]; decide)

theorem coll_raise (src : Nat) (e : EventCode) (payload : BitVec 128) : (s.raise src e payload).coll id = s.coll id := by
  rw [State.coll, State.raise_colls]
  rfl

/-! ### Sending (R322 to R325, R336) -/

theorem mayGet_iff {r k : Nat} : c.mayGet r k = true ↔ ∃ m ∈ c.peers, m.1 = r ∧ k < m.2.1 + m.2.2 := by
  simp only [Coll.mayGet, List.any_eq_true, Bool.and_eq_true, decide_eq_true_eq]

theorem sendChunk_of_idle (h : s.coll id = some c) (hs : c.started = false) : s.sendChunk id = s := by
  rw [State.sendChunk, h]
  dsimp only
  rw [hs]
  rfl

theorem sendChunk_of_reduce (h : s.coll id = some c) (hs : c.started = true) (hk : c.kind = 1) (hc : c.sendC < c.chunks) :
    s.sendChunk id = (s.sendReduce c).settleColl id := by
  rw [State.sendChunk, h]
  dsimp only
  rw [hs, if_neg (by decide), if_pos (show c.kind = kindReduce from hk), if_pos hc]

theorem sendChunk_of_gather (h : s.coll id = some c) (hs : c.started = true) (hk : c.kind = 2) (hc : c.sendC < c.chunks) :
    s.sendChunk id = (s.sendGather c).settleColl id := by
  have h1 : c.kind ≠ kindReduce := by rw [hk]; decide
  rw [State.sendChunk, h]
  dsimp only
  rw [hs, if_neg (by decide), if_neg h1, if_pos (show c.kind = kindGather from hk), if_pos hc]

theorem sendChunk_of_permute (h : s.coll id = some c) (hs : c.started = true) (hk : c.kind = 3) :
    s.sendChunk id = (if c.isComplete then s.endColl id false else s.sendPermute c).settleColl id := by
  have h1 : c.kind ≠ kindReduce := by rw [hk]; decide
  have h2 : c.kind ≠ kindGather := by rw [hk]; decide
  rw [State.sendChunk, h]
  dsimp only
  rw [hs, if_neg (by decide), if_neg h1, if_neg h2]

/-- The rank that a collective sends its next chunk to. -/
def sendsTo (c : Coll) : Nat := (c.rank + c.sendJ) % c.count

theorem sendReduce_of_may (hp : 2 ≤ c.count) (hm : c.mayGet (sendsTo c) c.sendC = true) :
    s.sendReduce c =
      let q := s.gradientWire c (sendsTo c * c.shard + 2048 * c.sendC)
      (q.1.stageChunk (c.tetherTo (sendsTo c)) { collTag := c.tag, chunk := c.sendC, payload := fpBytes q.2 }).modColl c.id fun c => c.advance 1 := by
  rw [State.sendReduce]
  dsimp only
  rw [if_neg (by omega), ← sendsTo, hm]
  rfl

theorem sendReduce_of_not (hp : 2 ≤ c.count) (hm : c.mayGet (sendsTo c) c.sendC = false) : s.sendReduce c = s := by
  rw [State.sendReduce]
  dsimp only
  rw [if_neg (by omega), ← sendsTo, hm]
  rfl

/-- An ALL_GATHER with nothing that keeps it from sending. -/
theorem sendGather_of_may (hm : c.sendJ = 0 ∨ c.mayGet (sendsTo c) c.sendC = true) :
    s.sendGather c =
      let q := s.gatherCodes c c.sendC
      let v := if c.sendC = 0 then q.1.readVersion c else (q.1, 0)
      (if c.sendJ = 0 then v.1.takeGather c c.rank c.sendC v.2 (q.2.map bfToFp)
        else v.1.stageChunk (c.tetherTo (sendsTo c)) { collTag := c.tag, chunk := c.sendC, version := v.2, payload := fpBytes (q.2.map bfToFp) }).modColl
          c.id fun c => c.advance 0 := by
  have hgo : (decide (c.sendJ ≠ 0) && !c.mayGet (sendsTo c) c.sendC) = false := by
    rcases hm with hm | hm <;> simp [hm]
  unfold State.sendGather
  refine (if_neg (ne_true_of_eq_false hgo)).trans ?_
  generalize s.gatherCodes c c.sendC = q
  obtain ⟨w, xs⟩ := q
  dsimp only
  generalize (if c.sendC = 0 then w.readVersion c else (w, 0)) = v
  rfl

theorem sendGather_of_not (hj : c.sendJ ≠ 0) (hm : c.mayGet (sendsTo c) c.sendC = false) : s.sendGather c = s := by
  have hstop : (decide (c.sendJ ≠ 0) && !c.mayGet (sendsTo c) c.sendC) = true := by
    rw [hm, decide_eq_true hj]
    rfl
  unfold State.sendGather
  exact if_pos hstop

/-! ### Held chunks (R339) -/

/-- The destination of a held chunk is free. -/
def heldFree (c : Coll) (h : HeldChunk) : Bool := !rangesMeet [(h.dest.toNat, h.bytes.length)] c.unread

theorem releaseHeld_of_first {i : Nat} {h : HeldChunk} (hc : s.coll id = some c) (hi : c.held[i]? = some h) (hf : heldFree c h = true)
    (hj : ∀ j < i, ∀ x, c.held[j]? = some x → heldFree c x = false) :
    s.releaseHeld id = (s.modColl id fun c => { c with held := c.held.eraseIdx i }).writePermute c h := by
  have hfind : c.held.findIdx? (heldFree c) = some i := by
    obtain ⟨hlt, hget⟩ := List.getElem?_eq_some_iff.1 hi
    refine List.findIdx?_eq_some_iff_getElem.2 ⟨hlt, by rw [hget]; exact hf, fun j hji => ?_⟩
    rw [hj j hji _ (List.getElem?_eq_getElem (by omega))]
    decide
  rw [State.releaseHeld, hc]
  dsimp only
  rw [show (fun h : HeldChunk => !rangesMeet [(h.dest.toNat, h.bytes.length)] c.unread) = heldFree c from rfl, hfind]
  dsimp only
  rw [hi]

end

/-! ### The statement -/

/-- Settles O50: each step of a collective, by its kind and by what its peers have reported. -/
theorem collectivesRun : Obligations.CollectivesRun := by
  refine ⟨fun s id c hrun hc => ?_, fun s id env c hrun hc => ?_, fun s id i c h hrun hc => ?_, fun t x => rfl⟩
  · have hpoll : exec (.readyWordPoll id) s = .next (s.pollReady id) := exec_running hrun
    have hstart : exec (.collectiveStart id) s = .next (s.startColl id) := exec_running hrun
    have hlate : exec (.collectiveDeadline id) s = .next (s.passDeadline id) := exec_running hrun
    refine ⟨fun hr => ?_, fun hr v x hv => ⟨fun hx => ?_, fun hx => ?_⟩, fun hi => ?_, fun hr hs hb hf => ?_, fun ho => ?_, fun hd hf hl => ?_⟩
    · rw [hpoll, pollReady_of_ready hc hr]
    · rw [hpoll, pollReady_of_read hc hr hv, if_pos hx]
    · rw [hpoll, pollReady_of_read hc hr hv, if_neg (Nat.not_le.2 hx)]
    · rw [hstart, startColl_of_idle hc hi]
    · obtain ⟨m, hm⟩ := collStarting_eq s id c
      obtain ⟨m', hm'⟩ := dueReports_eq (collStarting s id c) (startedWith (min c.window (s.slotShare c.paddock)) c)
      have hslots : startedWith (min c.window (s.slotShare c.paddock)) c =
          { c with started := true, slots := if c.kind = 1 ∨ c.kind = 3 then min c.window (s.slotShare c.paddock) else 0 } := by
        rw [startedWith]
        simp only [takesSlots_iff]
      refine ⟨_, hstart.trans (by rw [startColl_of_free hc hr hs hb (not_not.2 hf)]), ?_, ?_, ?_, fun hk p hp => ?_⟩
      · refine Eq.trans ?_ (congrArg some hslots)
        rw [hm', hm]
        exact coll_modColl (startedWith (min c.window (s.slotShare c.paddock))) (fun _ => rfl) hc
      · rw [hm', hm]
        rfl
      · rw [hm', hm]
        rfl
      · rw [dueReports_of_reduce (c := startedWith (min c.window (s.slotShare c.paddock)) c) _ hk]
        have hdue := (reportDue_foldl (l := (startedWith (min c.window (s.slotShare c.paddock)) c).peersOf) (collStarting s id c)
          (r := (c.tag.toNat, BitVec.ofNat 32 c.low, (startedWith (min c.window (s.slotShare c.paddock)) c).reportW))).2 p hp
        have hw : (startedWith (min c.window (s.slotShare c.paddock)) c).reportW = BitVec.ofNat 16 (min c.window (s.slotShare c.paddock)) := by
          rw [hslots, Coll.reportW, if_neg (show ¬ c.kind = kindGather by rw [hk]; decide)]
          exact congrArg _ (if_pos (.inl hk))
        rw [hw] at hdue ⊢
        exact hdue
    · rw [hlate, passDeadline_of_open hc ho]
    · have hmod : (s.modColl id fun c => { c with fLate := true }).coll id = some { c with fLate := true } := coll_modColl _ (fun _ => rfl) hc
      refine ⟨_, hlate.trans (by rw [passDeadline_of_late hc hd hf hl]), ?_, fun hb => ?_⟩
      · cases hb : bit c.raised 2 with
        | true => exact ⟨_, by rw [wteEvent_of_raised hmod hb]; exact hmod, rfl⟩
        | false => exact ⟨_, by rw [wteEvent_of_new hmod hb, coll_raise]; exact coll_modColl _ (fun _ => rfl) hmod, rfl⟩
      · rw [wteEvent_of_new hmod hb]
        obtain ⟨e, hmem, hcls, hcode, hpay⟩ := mem_raise_arriving ((s.modColl id fun c => { c with fLate := true }).modColl id fun c => { c with
          raised := withBit c.raised 2 true }) srcWte evtWteLate (pack 128 ([(0, 16, c.deadline)] ++ [(108, 4, c.paddock), (112, 16, c.tag.toNat)]))
        refine ⟨e, hmem, hcls, hcode, ?_⟩
        rw [hpay]
        exact bits_pack (by simp) (by decide) (by simp)
  · have hx : exec (.chunkSend id env) s = .next ((s.takeEnv env).sendChunk id) := exec_running hrun
    have hce : (s.takeEnv env).coll id = some c := (coll_takeEnv env).trans hc
    intro e r next may
    have hmay : may ↔ c.mayGet (sendsTo c) c.sendC = true := mayGet_iff.symm
    refine ⟨fun hs => ?_, fun hs hk hlt hp => ⟨fun hm => ?_, fun hm => ?_⟩, fun hs hk hlt => ⟨fun hj => ?_, fun hj hm => ?_, fun hj hm => ?_⟩, fun hs hk => ?_⟩
    · rw [hx, sendChunk_of_idle hce hs]
    · rw [hx, sendChunk_of_reduce hce hs hk hlt, sendReduce_of_may hp (hmay.1 hm)]
      rfl
    · rw [hx, sendChunk_of_reduce hce hs hk hlt, sendReduce_of_not hp (eq_false_of_ne_true fun h => hm (hmay.2 h))]
    · rw [hx, sendChunk_of_gather hce hs hk hlt, sendGather_of_may (.inl hj)]
      dsimp only
      rw [if_pos hj]
      rfl
    · rw [hx, sendChunk_of_gather hce hs hk hlt, sendGather_of_may (.inr (hmay.1 hm))]
      dsimp only
      rw [if_neg hj]
      rfl
    · rw [hx, sendChunk_of_gather hce hs hk hlt, sendGather_of_not hj (eq_false_of_ne_true fun h => hm (hmay.2 h))]
    · rw [hx, sendChunk_of_permute hce hs hk]
  · have hx : exec (.permuteHoldRelease id) s = .next (s.releaseHeld id) := exec_running hrun
    intro free hi hf hj
    rw [hx, releaseHeld_of_first hc hi hf hj]

end Sys2Proof.Laws
end


section
/-!
SUPPORT. The owner update: contributions added in turn, the tests of an element in order, and what a new record keeps (R326 to R333, R335).
-/
namespace Sys2Proof.Laws
open Sys2Proof.Machine Sys2Proof.Safety

/-! ### Contributions (R326) -/

theorem addWire_sums (x : ChunkSlot) {xs : List (BitVec 32)} {i : Nat} (hi : i < xs.length) :
    Tbl.get 0 (x.addWire xs).sums i = if x.arrived = 0 then xs.getD i 0 else fpAdd (Tbl.get 0 x.sums i) (xs.getD i 0) := by
  rw [ChunkSlot.addWire]
  dsimp only
  split
  · rw [get_ofList, if_pos (Nat.zero_le i), Nat.sub_zero]
  · rw [get_ofList, if_pos (Nat.zero_le i), Nat.sub_zero]
    simp [List.getD_eq_getElem?_getD, hi]

/-- Two contributions of one aclk to a chunk, in the order of their ranks. -/
theorem settle_of_two (x : ChunkSlot) (now r q : Nat) (xs ys : List (BitVec 32)) :
    ({ arrived := x.arrived + 2, sums := x.sums, waiting := [(r, xs), (q, ys)], at_ := now, updated := x.updated } : ChunkSlot).settle =
      (({ arrived := x.arrived, sums := x.sums, waiting := [], at_ := now, updated := x.updated } : ChunkSlot).addWire xs).addWire ys := rfl

/-- A contribution to a chunk with none waiting, in an aclk of its own. -/
theorem arrive_of_first {x : ChunkSlot} {now q : Nat} {ys : List (BitVec 32)} (ha : x.at_ ≠ now) (hw : x.waiting = []) :
    x.arrive now q ys = { arrived := x.arrived + 1, sums := x.sums, waiting := [(q, ys)], at_ := now, updated := x.updated } := by
  rw [ChunkSlot.arrive, if_neg ha, ChunkSlot.settle, hw]
  rfl

/-- A second contribution of the same aclk. -/
theorem arrive_of_second (x : ChunkSlot) (now r q : Nat) (xs ys : List (BitVec 32)) :
    ({ arrived := x.arrived + 1, sums := x.sums, waiting := [(q, ys)], at_ := now, updated := x.updated } : ChunkSlot).arrive now r xs =
      { arrived := x.arrived + 2, sums := x.sums, waiting := if r < q then [(r, xs), (q, ys)] else [(q, ys), (r, xs)], at_ := now, updated := x.updated } := by
  rw [ChunkSlot.arrive, if_pos rfl]
  rfl

theorem settle_of_ranks {x : ChunkSlot} {now r q : Nat} (xs ys : List (BitVec 32)) (ha : x.at_ ≠ now) (hw : x.waiting = []) (hr : r < q) :
    ((x.arrive now q ys).arrive now r xs).settle =
      (({ arrived := x.arrived, sums := x.sums, waiting := [], at_ := now, updated := x.updated } : ChunkSlot).addWire xs).addWire ys := by
  rw [arrive_of_first ha hw, arrive_of_second, if_pos hr, settle_of_two]

theorem settle_of_ranks_swapped {x : ChunkSlot} {now r q : Nat} (xs ys : List (BitVec 32)) (ha : x.at_ ≠ now) (hw : x.waiting = []) (hr : r < q) :
    ((x.arrive now r xs).arrive now q ys).settle =
      (({ arrived := x.arrived, sums := x.sums, waiting := [], at_ := now, updated := x.updated } : ChunkSlot).addWire xs).addWire ys := by
  rw [arrive_of_first ha hw, arrive_of_second, if_neg (Nat.not_lt.2 (Nat.le_of_lt hr)), settle_of_two]

/-! ### The tests of an element (R332) -/

section
variable {e : UpdateEnv} {i : Nat} {r : BitVec 64} {v : BitVec 32}

/-- The group entry of a record. -/
def groupOf (e : UpdateEnv) (r : BitVec 64) : BitVec 128 := Tbl.get 0 e.latched (bits r 48 8)

/-- A record that the first three tests let through. -/
def RecordLive (e : UpdateEnv) (r : BitVec 64) : Prop :=
  e.stale = false ∧ bit r 57 = false ∧ bit (groupOf e r) 80 = false ∧ groupInvalid (groupOf e r) = false

/-- The code of a NaN. -/
def IsNan (v : BitVec 32) : Prop := bits v 23 8 = 255 ∧ bits v 0 23 ≠ 0

/-- The code of an infinity. -/
def IsInfinite (v : BitVec 32) : Prop := bits v 23 8 = 255 ∧ bits v 0 23 = 0

theorem IsInfinite.not_nan (h : IsInfinite v) : ¬ IsNan v := fun hn => hn.2 h.2

theorem element_of_stale (h : e.stale = true) : e.element i r v = ⟨1, true, r⟩ := if_pos h

theorem element_of_held (hs : e.stale = false) (h : bit r 57 = true) : e.element i r v = ⟨2, true, r⟩ :=
  (if_neg (by rw [hs]; decide)).trans (if_pos h)

theorem element_of_frozen (hs : e.stale = false) (hh : bit r 57 = false) (h : bit (groupOf e r) 80 = true ∨ groupInvalid (groupOf e r) = true) :
    e.element i r v = ⟨3, true, r⟩ := by
  have hh' : rHold r = false := hh
  refine (if_neg (by rw [hs]; decide)).trans ((if_neg (by rw [hh']; decide)).trans (if_pos ?_))
  rw [Bool.or_eq_true]
  exact h

/-- A record that is live comes to its sum. -/
theorem element_of_live (h : RecordLive e r) :
    e.element i r v =
      if decide (bits v 23 8 = 255 ∧ bits v 0 23 ≠ 0) || (decide (bits v 23 8 = 255 ∧ bits v 0 23 = 0) && !e.history) then ⟨4, true, r⟩
      else
        let sum := if decide (bits v 23 8 = 255 ∧ bits v 0 23 = 0) then setBits (bfToFp (bfFlush e.amax)) 31 1 (bits v 31 1) else v
        let u := updateOf e.gscale (groupOf e r) r sum
        if u.isFinite then ⟨if decide (bits v 23 8 = 255 ∧ bits v 0 23 = 0) then 5 else 7, false, newRecord e.key e.step i r u⟩
        else ⟨if decide (bits v 23 8 = 255 ∧ bits v 0 23 = 0) then 5 else 6, true, r⟩ := by
  obtain ⟨hs, hh, hf, hi⟩ := h
  have hh' : rHold r = false := hh
  have hfrozen : (gFrozen (groupOf e r) || groupInvalid (groupOf e r)) = false := (Bool.or_eq_false_iff).2 ⟨hf, hi⟩
  exact (if_neg (by rw [hs]; decide)).trans ((if_neg (by rw [hh']; decide)).trans (if_neg (ne_true_of_eq_false hfrozen)))

theorem element_of_bad (h : RecordLive e r) (hb : IsNan v ∨ (IsInfinite v ∧ e.history = false)) : e.element i r v = ⟨4, true, r⟩ := by
  rw [element_of_live h]
  refine if_pos ?_
  rcases hb with hb | ⟨hb, hh⟩
  · rw [decide_eq_true (show bits v 23 8 = 255 ∧ bits v 0 23 ≠ 0 from hb), Bool.true_or]
  · rw [decide_eq_true (show bits v 23 8 = 255 ∧ bits v 0 23 = 0 from hb), hh]
    exact Bool.or_true _

theorem element_of_finite (h : RecordLive e r) (hn : ¬ IsNan v) (hi : ¬ IsInfinite v) :
    e.element i r v =
      if (updateOf e.gscale (groupOf e r) r v).isFinite then ⟨7, false, newRecord e.key e.step i r (updateOf e.gscale (groupOf e r) r v)⟩ else ⟨6, true, r⟩ := by
  rw [element_of_live h, decide_eq_false (show ¬ (bits v 23 8 = 255 ∧ bits v 0 23 ≠ 0) from hn),
    decide_eq_false (show ¬ (bits v 23 8 = 255 ∧ bits v 0 23 = 0) from hi)]
  rfl

/-- An infinite sum takes the greatest magnitude of the gradient's history, where there is one. -/
theorem element_of_infinite (h : RecordLive e r) (hi : IsInfinite v) (hh : e.history = true) :
    e.element i r v =
      let a := setBits (bfToFp (bfFlush e.amax)) 31 1 (bits v 31 1)
      if (updateOf e.gscale (groupOf e r) r a).isFinite then ⟨5, false, newRecord e.key e.step i r (updateOf e.gscale (groupOf e r) r a)⟩ else ⟨5, true, r⟩ := by
  rw [element_of_live h, decide_eq_false (show ¬ (bits v 23 8 = 255 ∧ bits v 0 23 ≠ 0) from hi.not_nan),
    decide_eq_true (show bits v 23 8 = 255 ∧ bits v 0 23 = 0 from hi), hh]
  rfl

end

/-! ### New records (R327) -/

theorem getLsbD_setBits_above {n : Nat} (v : BitVec n) {lo len i : Nat} (x : Nat) (h : lo + len ≤ i) : (setBits v lo len x).getLsbD i = v.getLsbD i := by
  have hlow : ¬ i - lo < len := by omega
  rw [setBits, BitVec.getLsbD_or, BitVec.getLsbD_and, BitVec.getLsbD_not, BitVec.getLsbD_ofNat, BitVec.getLsbD_ofNat, Nat.testBit_shiftLeft,
    Nat.testBit_shiftLeft, Nat.testBit_two_pow_sub_one, Nat.testBit_mod_two_pow, decide_eq_false hlow]
  by_cases hi : i < n
  · simp [hi]
  · simp [hi, BitVec.getLsbD_of_ge v i (Nat.le_of_not_lt hi)]

theorem bits_congr {n : Nat} {v w : BitVec n} {lo len : Nat} (h : ∀ i, lo ≤ i → v.getLsbD i = w.getLsbD i) : bits v lo len = bits w lo len := by
  refine Nat.eq_of_testBit_eq fun i => ?_
  rw [bits, bits, Nat.testBit_mod_two_pow, Nat.testBit_mod_two_pow, Nat.testBit_shiftRight, Nat.testBit_shiftRight, BitVec.testBit_toNat,
    BitVec.testBit_toNat, h _ (Nat.le_add_right lo i)]

/-- A new record keeps what lies above its three values. -/
theorem bits_newRecord (key : BitVec 128) (step : BitVec 28) (i : Nat) (r : BitVec 64) (u : Updated) : bits (newRecord key step i r u) 48 16 = bits r 48 16 := by
  refine bits_congr fun i hi => ?_
  rw [newRecord]
  dsimp only
  rw [getLsbD_setBits_above _ _ (by omega), getLsbD_setBits_above _ _ (by omega), getLsbD_setBits_above _ _ (by omega)]

/-! ### The statement -/

/-- The conditions under which OWNER_UPDATE acts on a chunk. -/
theorem ownerUpdate_of_due {s : State} {id chunk : Nat} {c : Coll} (hc : s.coll id = some c) (hs : c.started = true) (hk : c.kind = 1) (hlow : c.low ≤ chunk)
    (hch : chunk < c.chunks) (hsl : chunk < c.low + c.slots) (hu : (Tbl.get {} c.chunkSlots chunk).updated = false)
    (ha : (Tbl.get {} c.chunkSlots chunk).arrived = c.pM1) :
    s.ownerUpdate id chunk =
      let q := s.gradientWire c (c.rank * c.shard + 2048 * chunk)
      let u := q.1.latchGroups c.paddock c.step
      let en : UpdateEnv := { stale := (u.pdk c.paddock).versionStale, history := decide (u.field (.mtgPolicy c.paddock) 24 1 = 1), amax := (u.entry c.gsheaf c.gentry).histMax, gscale := c.gscale, key := c.key, step := c.step, latched := (u.pdk c.paddock).latched }
      let sums := ((Tbl.get {} c.chunkSlots chunk).settle.addWire q.2).sums
      ((List.range 256).foldl (fun v k =>
        v.updateUnit c en (2048 * chunk + 8 * k) ((List.range 8).map fun i => Tbl.get 0 sums (8 * k + i))) u).closeChunk id chunk := by
  have hk' : c.kind = kindReduce := hk
  have hgo : (!c.started || decide (c.kind ≠ kindReduce) || decide (c.chunks ≤ chunk) || decide (chunk < c.low) || decide (c.low + c.slots ≤ chunk) ||
      (Tbl.get {} c.chunkSlots chunk).updated || decide ((Tbl.get {} c.chunkSlots chunk).arrived ≠ c.pM1)) = false := by
    simp only [hs, hk', hu, ha, Bool.or_eq_false_iff, decide_eq_false_iff_not]
    refine ⟨⟨⟨⟨⟨⟨rfl, ?_⟩, ?_⟩, ?_⟩, ?_⟩, trivial⟩, ?_⟩ <;> omega
  rw [State.ownerUpdate, hc]
  dsimp only
  rw [hgo, if_neg (by decide), show chunkElems / 8 = 256 from rfl]
  rfl

/-- Settles O51: the tests of an element in their order, and contributions of one aclk by rank. -/
theorem ownerUpdates : Obligations.OwnerUpdates := by
  refine ⟨fun s id chunk env c hrun hc hs hk hlow hch hsl => ?_, fun x xs i hi => ⟨rfl, addWire_sums x hi⟩, fun x now r q xs ys ha hw hr => ?_,
    fun e i r v => ?_, bits_newRecord, by decide +kernel⟩
  · intro x hu ha
    have hx : exec (.ownerUpdate id chunk env) s = .next ((s.takeEnv env).ownerUpdate id chunk) := exec_running hrun
    rw [hx, ownerUpdate_of_due ((coll_takeEnv env).trans hc) hs hk hlow hch hsl hu ha]
  · refine ⟨?_, ?_, ?_⟩
    · rw [settle_of_ranks xs ys ha hw hr]
      rfl
    · rw [settle_of_ranks xs ys ha hw hr]
      rfl
    · rw [settle_of_ranks xs ys ha hw hr, settle_of_ranks_swapped xs ys ha hw hr]
  · refine ⟨element_of_stale, element_of_held, element_of_frozen, fun hl hb => element_of_bad hl hb, fun hl hn hi hf => ?_, fun hl hn hi hf => ?_,
      fun hl hi hh => element_of_infinite hl hi hh⟩
    · rw [element_of_finite hl hn hi]
      exact if_neg (ne_true_of_eq_false hf)
    · rw [element_of_finite hl hn hi]
      exact if_pos hf

end Sys2Proof.Laws
end


section
/-!
SUPPORT. Bridle modules: insertion and its checks, removal, laser life and its end (R374 to R377, R498, R507).
-/
namespace Sys2Proof.Laws
open Sys2Proof.Machine Sys2Proof.Safety

/-! ### Sites and their tables -/

section
variable {s : State} {m n k : Nat}

/-- A changed site that is not as after reset reads back. -/
theorem site_modSite_of_ne {f : Site → Site} (h : f (s.site m) ≠ {}) : (s.modSite m f).site m = f (s.site m) := Tbl.get_put_nondefault _ _ _ _ h

theorem site_modSite_of_sorted {f : Site → Site} (h : Tbl.sorted s.sites = true) : (s.modSite m f).site m = f (s.site m) := Tbl.get_put_same _ _ _ _ h

theorem ne_default_of_state_ne {x : Site} (h : x.state ≠ 0) : x ≠ {} := by
  rintro rfl
  exact h rfl

theorem ne_default_of_wear_ne {x : Site} (h : x.wear ≠ 0) : x ≠ {} := by
  rintro rfl
  exact h rfl

theorem mem_portsOfSite : n ∈ portsOfSite m ↔ n / 4 = m := by
  rw [portsOfSite, span, List.mem_map]
  constructor
  · rintro ⟨j, hj, rfl⟩
    have := List.mem_range.1 hj
    omega
  · intro h
    exact ⟨n - 4 * m, List.mem_range.2 (by omega), by omega⟩

theorem nodup_portsOfSite (m : Nat) : (portsOfSite m).Nodup := List.Nodup.map (fun _ _ h => Nat.add_left_cancel h) List.nodup_range

/-! ### The check of a module (R375) -/

theorem moduleFailure_eq_zero {f : Fuses} {found : Module} :
    moduleFailure f found = 0 ↔
      identityPart found.identity 96 32 = kmac256 (moduleKey f) (identityPart found.identity 0 96) 32 "" ∧ identityField found.identity 0 2 = 1 ∧
        (identityField found.identity 2 1 = 1 ∨ identityField found.identity 2 1 = 2) ∧ found.challengeOk = true ∧
        found.lifeTag = lifeTagOf f found.identity found.seconds found.writes := by
  have hkind : ¬ (identityField found.identity 0 2 ≠ 1 ∨ (identityField found.identity 2 1 ≠ kindOptical.toNat ∧ identityField found.identity 2 1 ≠ kindCopper.toNat)) ↔
      identityField found.identity 0 2 = 1 ∧ (identityField found.identity 2 1 = 1 ∨ identityField found.identity 2 1 = 2) := by
    have h1 : kindOptical.toNat = 1 := rfl
    have h2 : kindCopper.toNat = 2 := rfl
    omega
  rw [moduleFailure, ← and_assoc (a := identityField found.identity 0 2 = 1), ← hkind]
  split
  next h => exact ⟨fun h0 => absurd h0 (by decide), fun h1 => absurd h1.1 h⟩
  next h =>
    split
    next h2 => exact ⟨fun h0 => absurd h0 (by decide), fun h1 => absurd h2 h1.2.1⟩
    next h2 =>
      split
      next h3 => exact ⟨fun h0 => absurd h0 (by decide), fun h1 => absurd h3 (by rw [h1.2.2.1]; decide)⟩
      next h3 =>
        split
        next h4 => exact ⟨fun h0 => absurd h0 (by decide), fun h1 => absurd h1.2.2.2 h4⟩
        next h4 => exact ⟨fun _ => ⟨not_not.1 h, h2, by simpa using h3, not_not.1 h4⟩, fun _ => rfl⟩

theorem moduleFailure_le (f : Fuses) (found : Module) : moduleFailure f found ≤ 4 := by
  rw [moduleFailure]
  repeat' split
  all_goals decide

/-! ### Insertion (R375, R498) -/

theorem trainPort_of_not (h : s.mayTrain n = false) : s.trainPort n = s := if_neg (by rw [h]; decide)

theorem trainPort_of_may (h : s.mayTrain n = true) : s.trainPort n = s.modPort n fun p => { p with state := 1 } := if_pos h

theorem training_ne (p : Port) : ({ p with state := 1 } : Port) ≠ {} := by
  intro h
  have hstate : (1 : BitVec 3) = 0 := congrArg Port.state h
  exact absurd hstate (by decide)

theorem port_training_other (h : k ≠ n) : (s.modPort n fun p => { p with state := 1 }).port k = s.port k := by
  have hput : (s.modPort n fun p => { p with state := 1 }).ports = Tbl.insert s.ports n { s.port n with state := 1 } := if_neg (training_ne _)
  rw [State.port, hput, Tbl.get_insert_other _ _ _ _ _ h]
  rfl

theorem port_trainPort_other (h : k ≠ n) : (s.trainPort n).port k = s.port k := by
  cases hm : s.mayTrain n with
  | false => rw [trainPort_of_not hm]
  | true => rw [trainPort_of_may hm, port_training_other h]

theorem mayTrain_trainPort (h : k ≠ n) : (s.trainPort n).mayTrain k = s.mayTrain k := by
  have hport := port_trainPort_other (s := s) h
  cases hm : s.mayTrain n with
  | false => rw [trainPort_of_not hm]
  | true =>
    rw [trainPort_of_may hm] at hport ⊢
    rw [State.mayTrain, State.mayTrain, State.portEnabled, State.portEnabled, hport]
    rfl

theorem foldl_trainPort_of_not {l : List Nat} (h : ∀ n ∈ l, s.mayTrain n = false) : l.foldl State.trainPort s = s := by
  induction l with
  | nil => rfl
  | cons n l ih =>
    rw [List.foldl_cons, trainPort_of_not (h n (List.mem_cons_self ..))]
    exact ih fun k hk => h k (List.mem_cons_of_mem _ hk)

theorem port_foldl_trainPort_other {l : List Nat} (h : k ∉ l) : (l.foldl State.trainPort s).port k = s.port k := by
  induction l generalizing s with
  | nil => rfl
  | cons n l ih =>
    obtain ⟨hn, hl⟩ := not_or.1 (mt List.mem_cons.2 h)
    rw [List.foldl_cons, ih hl, port_trainPort_other hn]

theorem port_foldl_trainPort_of_may {l : List Nat} (hl : l.Nodup) (hk : k ∈ l) (hm : s.mayTrain k = true) : ((l.foldl State.trainPort s).port k).state = 1 := by
  induction l generalizing s with
  | nil => exact absurd hk (by simp)
  | cons n l ih =>
    obtain ⟨hn, hl⟩ := List.nodup_cons.1 hl
    rw [List.foldl_cons]
    by_cases hkn : k = n
    · subst hkn
      rw [port_foldl_trainPort_other hn, trainPort_of_may hm, port_modPort_of_ne (training_ne _)]
    · exact ih hl ((List.mem_cons.1 hk).resolve_left hkn) (by rw [mayTrain_trainPort hkn, hm])

theorem foldl_trainPort_eq (l : List Nat) (s : State) : ∃ ports, l.foldl State.trainPort s = { s with ports := ports } := by
  induction l generalizing s with
  | nil => exact ⟨s.ports, rfl⟩
  | cons n l ih =>
    rw [List.foldl_cons]
    cases hm : s.mayTrain n with
    | false =>
      rw [trainPort_of_not hm]
      exact ih s
    | true =>
      rw [trainPort_of_may hm]
      exact ih _

variable {found : Module}

/-- The state with a nonce drawn for a challenge. -/
def nonceDrawn (s : State) : State := s.draw.2.draw.2

/-- The nonce drawn. -/
def nonceOf (s : State) : BitVec 128 := s.draw.1 ++ s.draw.2.draw.1

theorem insertModule_of_present (h : (s.site m).state ≠ 0) : s.insertModule m found = s := if_pos h

/-- A module that passes its checks, before its ports train. -/
def siteLit (s : State) (m : Nat) (found : Module) : State := (nonceDrawn s).modSite m fun _ => moduleSite found (nonceOf s) s.now

theorem insertModule_of_sound (h : (s.site m).state = 0) (hf : moduleFailure s.sec.fuses found = 0) :
    s.insertModule m found = (portsOfSite m).foldl State.trainPort (siteLit s m found) :=
  (if_neg (not_not.2 h)).trans (if_pos hf)

theorem insertModule_of_failed (h : (s.site m).state = 0) (hf : moduleFailure s.sec.fuses found ≠ 0) :
    s.insertModule m found =
      (((nonceDrawn s).modSite m fun _ => { state := siteDark, identity := Tbl.ofList 0 0 found.identity, nonce := nonceOf s, clocked := found.refclk }).raise
        (srcSite m) evtBridleAuth (pack 128 [(0, 3, m), (8, 3, moduleFailure s.sec.fuses found), (64, 64, identityField found.identity 4 8)])).setSecurity :=
  (if_neg (not_not.2 h)).trans (if_neg hf)

theorem site_siteLit (s : State) (m : Nat) (found : Module) : (siteLit s m found).site m = moduleSite found (nonceOf s) s.now :=
  site_modSite_of_ne (ne_default_of_state_ne (by rw [moduleSite]; exact (by decide : siteLive ≠ 0)))

theorem mayTrain_siteLit (hn : n / 4 = m) : (siteLit s m found).mayTrain n = (s.portEnabled n && found.refclk) := by
  have hsite : (siteLit s m found).site (siteOf n) = moduleSite found (nonceOf s) s.now := by
    rw [siteOf, hn]
    exact site_siteLit s m found
  rw [State.mayTrain, hsite, show (moduleSite found (nonceOf s) s.now).state = siteLive from rfl, decide_eq_true rfl, Bool.and_true]
  rfl

theorem identityField_lt (words : List (BitVec 64)) (at_ n : Nat) : identityField words at_ n < 256 ^ n := by
  refine Nat.lt_of_lt_of_le (leNat_lt _) (Nat.pow_le_pow_right (by decide) ?_)
  rw [identityPart, List.length_take]
  exact Nat.min_le_left ..

end

/-! ### Removal (R369, R375, R507) -/

section
variable {s u : State} {n k : Nat}

/-- A state whose ports and sites are as given. -/
def Ported (p : Tbl Port) (x : Tbl Site) (s : State) : Prop := s.ports = p ∧ s.sites = x

variable {p : Tbl Port} {x : Tbl Site}

theorem ported_raise {src : Nat} {e : EventCode} {payload : BitVec 128} (h : Ported p x s) : Ported p x (s.raise src e payload) :=
  ⟨(linked_raise (linked_self s)).2.1.trans h.1, (linked_raise (linked_self s)).2.2.trans h.2⟩

theorem ported_modTether {t : Nat} {f : Tether → Tether} (h : Ported p x s) : Ported p x (s.modTether t f) := h

theorem ported_refreshTether {t : Nat} (h : Ported p x s) : Ported p x (s.refreshTether t) := by
  grind [State.refreshTether, State.raiseDown, ported_raise, ported_modTether]

theorem ported_refreshPort (h : Ported p x s) (n : Nat) : Ported p x (s.refreshPort n) := by
  rw [State.refreshPort]
  generalize ((s.tethers.map Prod.fst).filter fun t => bit (s.tether t).ports n) = l
  induction l generalizing s with
  | nil => exact h
  | cons t l ih => exact ih (ported_refreshTether h)

/-- A state in which port `n` alone may have changed, the table of ports still in order. -/
def OnlyPort (n : Nat) (s u : State) : Prop := Tbl.sorted u.ports = true ∧ u.sites = s.sites ∧ ∀ k ≠ n, u.port k = s.port k

theorem onlyPort_self (hs : Tbl.sorted s.ports = true) : OnlyPort n s s := ⟨hs, rfl, fun _ _ => rfl⟩

theorem onlyPort_modPort {f : Port → Port} (h : OnlyPort n s u) : OnlyPort n s (u.modPort n f) := by
  obtain ⟨hs, hx, hp⟩ := h
  exact ⟨Tbl.sorted_put _ _ _ _ hs, hx, fun k hk => (Tbl.get_put_other ({} : Port) u.ports n k _ hs hk).trans (hp k hk)⟩

theorem onlyPort_of_ported {v : State} (h : OnlyPort n s u) (hv : Ported u.ports u.sites v) : OnlyPort n s v := by
  obtain ⟨hs, hx, hp⟩ := h
  exact ⟨by rw [hv.1]; exact hs, hv.2.trans hx, fun k hk => (congrArg (fun q => Tbl.get ({} : Port) q k) hv.1).trans (hp k hk)⟩

theorem onlyPort_raiseLaneFail {lane : Nat} {own : Bool} {map : BitVec 8} {stamp : BitVec 16} (h : OnlyPort n s u) :
    OnlyPort n s (u.raiseLaneFail n lane own map stamp) := onlyPort_of_ported h (ported_raise ⟨rfl, rfl⟩)

theorem onlyPort_refreshPort (h : OnlyPort n s u) : OnlyPort n s (u.refreshPort n) := onlyPort_of_ported h (ported_refreshPort ⟨rfl, rfl⟩ n)

theorem onlyPort_failLane {lane : Nat} {stamp : BitVec 16} (h : OnlyPort n s u) : OnlyPort n s (u.failLane n lane stamp) := by
  rw [State.failLane]
  dsimp only
  split
  · exact h
  · split
    · exact onlyPort_refreshPort (onlyPort_modPort (onlyPort_raiseLaneFail (onlyPort_modPort h)))
    · exact onlyPort_raiseLaneFail (onlyPort_modPort h)

theorem onlyPort_foldl_failLane {stamp : BitVec 16} (l : List Nat) (h : OnlyPort n s u) : OnlyPort n s (l.foldl (fun s j => s.failLane n j stamp) u) := by
  induction l generalizing u with
  | nil => exact h
  | cons j l ih => exact ih (onlyPort_failLane h)

theorem onlyPort_losePort (hs : Tbl.sorted s.ports = true) : OnlyPort n s (s.losePort n) :=
  onlyPort_modPort (onlyPort_foldl_failLane (List.range 4) (onlyPort_self hs))

/-- A port that a lost module leaves is DOWN, its lanes out of use. -/
def PortDown (s : State) (n : Nat) : Prop := (s.port n).state = 0 ∧ (s.port n).laneOk = 0

theorem port_modPort_of_sorted {f : Port → Port} (h : Tbl.sorted s.ports = true) : (s.modPort n f).port n = f (s.port n) := Tbl.get_put_same _ _ _ _ h

/-- A port that no longer runs, and may be enabled again. -/
def portLost (p : Port) : Port := { p.off portDown with ended := false }

theorem portLost_down (p : Port) : (portLost p).state = 0 ∧ (portLost p).laneOk = 0 := ⟨rfl, rfl⟩

theorem losePort_eq (s : State) (n : Nat) :
    s.losePort n = ((List.range 4).foldl (fun s' j => s'.failLane n j (stampOf s.stride (s.position / groupLen))) s).modPort n portLost := rfl

theorem portDown_losePort (hs : Tbl.sorted s.ports = true) : PortDown (s.losePort n) n := by
  have h := onlyPort_foldl_failLane (n := n) (stamp := stampOf s.stride (s.position / groupLen)) (List.range 4) (onlyPort_self hs)
  rw [PortDown, losePort_eq, port_modPort_of_sorted h.1]
  exact portLost_down _

/-- All ports of a lost module are DOWN. -/
theorem foldl_losePort {l : List Nat} (hl : l.Nodup) (hs : Tbl.sorted s.ports = true) :
    Tbl.sorted (l.foldl State.losePort s).ports = true ∧ (l.foldl State.losePort s).sites = s.sites ∧
      (∀ k, PortDown s k → k ∉ l → PortDown (l.foldl State.losePort s) k) ∧ ∀ k ∈ l, PortDown (l.foldl State.losePort s) k := by
  induction l generalizing s with
  | nil => exact ⟨hs, rfl, fun k h _ => h, fun k hk => absurd hk (by simp)⟩
  | cons n l ih =>
    obtain ⟨hn, hl⟩ := List.nodup_cons.1 hl
    obtain ⟨hsorted, hsites, hports⟩ := onlyPort_losePort (n := n) hs
    obtain ⟨hsorted', hsites', hkeep, hall⟩ := ih hl hsorted
    have hkept (k : Nat) (hk : PortDown s k) (hkn : k ≠ n) : PortDown (s.losePort n) k := by rw [PortDown, hports k hkn]; exact hk
    rw [List.foldl_cons]
    refine ⟨hsorted', hsites'.trans hsites, fun k hk hkl => ?_, fun k hk => ?_⟩
    · obtain ⟨hkn, hkl⟩ := not_or.1 (mt List.mem_cons.2 hkl)
      exact hkeep k (hkept k hk hkn) hkl
    · rcases List.mem_cons.1 hk with rfl | hk
      · exact hkeep k (portDown_losePort hs) hn
      · exact hall k hk

end

/-! ### Laser life and its end (R376, R377) -/

section
variable {s : State} {m : Nat} {seconds : BitVec 32}

theorem lasersOn_iff : s.lasersOn m = true ↔ (s.site m).portOff = true ∨ ∃ n, n / 4 = m ∧ (1 ≤ (s.port n).state ∧ (s.port n).state ≤ 3) := by
  have hport (p : Port) : (decide (p.state = portTraining) || p.linkUp) = true ↔ 1 ≤ p.state ∧ p.state ≤ 3 := by
    rw [Port.linkUp]
    generalize p.state = x
    revert x
    decide
  simp only [State.lasersOn, Bool.or_eq_true (s.site m).portOff, List.any_eq_true, hport, mem_portsOfSite]

/-- What must hold for SECONDS to be counted. -/
def LaserCounts (s : State) (m : Nat) (seconds : BitVec 32) : Prop :=
  let x := s.site m
  x.state = 2 ∧ x.kind = 1 ∧ x.seconds.toNat ≤ seconds.toNat ∧
    (x.portOff = true ∨ ∃ n, n / 4 = m ∧ (1 ≤ (s.port n).state ∧ (s.port n).state ≤ 3)) ∧
    x.countedAt + (seconds.toNat - x.seconds.toNat) * 1000000000 ≤ s.now + 1000000000

theorem countLaser_of_counts (h : LaserCounts s m seconds) :
    s.countLaser m seconds = s.modSite m fun x => { x with
      seconds := seconds, countedAt := x.countedAt + (seconds.toNat - (s.site m).seconds.toNat) * 1000000000 } := by
  obtain ⟨hst, hk, hle, hlit, ht⟩ := h
  exact if_pos ⟨hst, hk, hle, lasersOn_iff.2 hlit, ht⟩

theorem countLaser_of_not (h : ¬ LaserCounts s m seconds) : s.countLaser m seconds = s := by
  refine if_neg ?_
  rintro ⟨hst, hk, hle, hlit, ht⟩
  exact h ⟨hst, hk, hle, lasersOn_iff.1 hlit, ht⟩

/-- The state with the life of a module counted. -/
theorem countLaser_eq {u : State} (h : (LaserCounts s m seconds ∧ u = s.modSite m fun x => { x with
      seconds := seconds, countedAt := x.countedAt + (seconds.toNat - (s.site m).seconds.toNat) * 1000000000 }) ∨ (¬ LaserCounts s m seconds ∧ u = s)) :
    s.countLaser m seconds = u := by
  rcases h with ⟨h, rfl⟩ | ⟨h, rfl⟩
  · exact countLaser_of_counts h
  · exact countLaser_of_not h

/-- A module has been used for a part of its rated life. -/
def UsedPart (y : Site) (percent : Nat) : Prop := (y.state = 2 ∧ y.kind = 1) ∧ 36 * percent * y.ratedH.toNat ≤ y.seconds.toNat

theorem usedPart_mono {y : Site} {a b : Nat} (h : a ≤ b) (hb : UsedPart y b) : UsedPart y a :=
  ⟨hb.1, Nat.le_trans (Nat.mul_le_mul_right _ (Nat.mul_le_mul_left _ h)) hb.2⟩

theorem usedPercent_iff {y : Site} {percent : Nat} : y.usedPercent percent = true ↔ UsedPart y percent := by
  rw [Site.usedPercent, Bool.and_eq_true, Bool.and_eq_true, decide_eq_true_eq, decide_eq_true_eq, decide_eq_true_eq]
  rfl

theorem noteWear_of_due {u : State} (hu : s.countLaser m seconds = u) (h : UsedPart (u.site m) 100) (hw : (u.site m).wear = 0) :
    s.noteWear m seconds = (u.modSite m fun y => { y with wear := 1 }).raise (srcSite m) evtBridleWear
      (pack 128 [(0, 3, m), (32, 32, (u.site m).seconds.toNat), (64, 16, (u.site m).ratedH.toNat)]) := by
  have hread : (u.modSite m fun y => { y with wear := wearWarn }).site m = { u.site m with wear := wearWarn } :=
    site_modSite_of_ne (ne_default_of_wear_ne (show wearWarn ≠ 0 by decide))
  have hfields : (u.modSite m fun y => { y with wear := wearWarn }).wearFields m =
      [(0, 3, m), (32, 32, (u.site m).seconds.toNat), (64, 16, (u.site m).ratedH.toNat)] := by
    rw [State.wearFields, hread]
  rw [State.noteWear, hu]
  refine (if_pos ⟨usedPercent_iff.2 h, hw⟩).trans ?_
  exact congrArg (fun f => (u.modSite m fun y => { y with wear := wearWarn }).raise (srcSite m) evtBridleWear (pack 128 f)) hfields

theorem noteWear_of_not {u : State} (hu : s.countLaser m seconds = u) (h : (u.site m).wear ≠ 0 ∨ ¬ UsedPart (u.site m) 100) : s.noteWear m seconds = u := by
  rw [State.noteWear, hu]
  refine if_neg fun hc => ?_
  rcases h with h | h
  · exact h hc.2
  · exact h (usedPercent_iff.1 hc.1)

theorem endModule_of_not {u : State} (hu : s.noteWear m seconds = u) (h : ¬ UsedPart (u.site m) 110 ∨ (u.site m).wear = 2 ∨ u.position ≠ 0) :
    s.endModule m seconds = u := by
  rw [State.endModule, hu]
  exact if_pos (h.imp_left fun h => eq_false_of_ne_true fun hc => h (usedPercent_iff.1 hc))

/-! What the end of a module leaves of its site -/

/-- Sites with the SECONDS of another state's. -/
def SameSeconds (m : Nat) (s u : State) : Prop := (u.site m).seconds = (s.site m).seconds

theorem sameSeconds_of_sites {u : State} (h : u.sites = s.sites) : SameSeconds m s u := congrArg (fun x => (Tbl.get ({} : Site) x m).seconds) h

theorem sites_fillPorts {u : State} (t count : Nat) (l : List Nat) (s : State) (h : s.fillPorts t count l = some u) : u.sites = s.sites := by
  induction l generalizing s count with
  | nil =>
    rw [State.fillPorts] at h
    split at h
    · exact congrArg State.sites (Option.some.inj h).symm
    · exact absurd h (by simp)
  | cons n l ih =>
    rw [State.fillPorts] at h
    refine (ih _ _ h).trans ?_
    exact ite_of_both (fun v : State => v.sites = s.sites) rfl rfl

theorem sites_refillPorts {u : State} (t : Nat) (l : List Nat) (s : State) (h : s.refillPorts t l = some u) : u.sites = s.sites := by
  induction l generalizing s with
  | nil => exact congrArg State.sites (Option.some.inj h).symm
  | cons n l ih =>
    rw [State.refillPorts] at h
    split at h
    · exact absurd h (by simp)
    next v hv => exact (ih v h).trans (sites_fillPorts _ _ _ _ hv)

theorem sites_moveTether {u : State} {t : Nat} (h : s.moveTether m t = some u) : u.sites = s.sites := by
  rw [State.moveTether] at h
  dsimp only at h
  split at h
  · exact absurd h (by simp)
  next v hv =>
    have hsites : v.sites = s.sites := (sites_refillPorts _ _ _ hv).trans rfl
    split at h
    · exact absurd h (by simp)
    · rw [← Option.some.inj h]
      exact hsites

theorem sites_leaveModule (x : State × Nat × Nat) (t : Nat) : (State.leaveModule m x t).1.sites = x.1.sites := by
  obtain ⟨s, moved, left⟩ := x
  rw [State.leaveModule]
  dsimp only
  split
  next u hu => exact sites_moveTether hu
  · split
    · exact (linked_raise (linked_self _)).2.2
    · rfl

theorem sites_foldl_leaveModule (l : List Nat) (x : State × Nat × Nat) : (l.foldl (State.leaveModule m) x).1.sites = x.1.sites := by
  induction l generalizing x with
  | nil => rfl
  | cons t l ih => exact (ih _).trans (sites_leaveModule x t)

theorem portOff_ne (x : Site) : ({ x with portOff := true } : Site) ≠ {} := by
  intro h
  have hoff : true = false := congrArg Site.portOff h
  exact absurd hoff (by decide)

theorem sameSeconds_portWentOff (s : State) (m n : Nat) : SameSeconds m s (s.portWentOff n) := by
  have hput : (s.portWentOff n).sites = Tbl.insert s.sites (siteOf n) { s.site (siteOf n) with portOff := true } := if_neg (portOff_ne _)
  rw [SameSeconds, State.site, hput]
  by_cases hm : m = siteOf n
  · subst hm
    rw [Tbl.get_insert_same]
  · rw [Tbl.get_insert_other _ _ _ _ _ hm]
    rfl

theorem sameSeconds_darkenPort (s : State) (m n : Nat) : SameSeconds m s (s.darkenPort n) := by
  rw [State.darkenPort]
  split
  · exact sameSeconds_portWentOff (s.modPort n _) m n
  · rfl

theorem sameSeconds_foldl_darkenPort (l : List Nat) (s : State) : SameSeconds m s (l.foldl State.darkenPort s) := by
  induction l generalizing s with
  | nil => rfl
  | cons n l ih => exact (ih _).trans (sameSeconds_darkenPort s m n)

/-- A module noted as at its end. -/
def siteWorn (u : State) (m : Nat) : State := u.modSite m fun x => { x with wear := wearEol }

theorem sameSeconds_siteWorn (u : State) (m : Nat) : SameSeconds m u (siteWorn u m) := by
  have hread : (siteWorn u m).site m = { u.site m with wear := wearEol } := site_modSite_of_ne (ne_default_of_wear_ne (show wearEol ≠ 0 by decide))
  rw [SameSeconds, hread]

/-- The event of a module's end carries its seconds. -/
theorem endModule_of_due {u : State} (hu : s.noteWear m seconds = u) (h : UsedPart (u.site m) 110) (hw : (u.site m).wear ≠ 2) (hp : u.position = 0) :
    ∃ v moved left, s.endModule m seconds = v.raise (srcSite m) evtBridleEol (pack 128 (v.wearFields m ++ [(80, 16, moved), (96, 16, left)])) ∧
      SameSeconds m u v := by
  have hgo : ¬ ((u.site m).usedPercent 110 = false ∨ (u.site m).wear = wearEol ∨ u.position ≠ 0) := by
    rintro (hc | hc | hc)
    · exact absurd ((usedPercent_iff.2 h).symm.trans hc) (by decide)
    · exact hw hc
    · exact hc hp
  have hleave := sites_foldl_leaveModule (m := m) ((siteWorn u m).tethersOfSite m) (siteWorn u m, 0, 0)
  rw [State.endModule, hu]
  dsimp only
  rw [if_neg hgo, ← siteWorn]
  generalize ((siteWorn u m).tethersOfSite m).foldl (State.leaveModule m) (siteWorn u m, 0, 0) = y at hleave ⊢
  exact ⟨_, _, _, rfl, (sameSeconds_foldl_darkenPort (portsOfSite m) y.1).trans ((sameSeconds_of_sites hleave).trans (sameSeconds_siteWorn u m))⟩

end

/-! ### The statement -/

section
variable {s : State} {m : Nat}

/-- What a module that passes its checks brings. -/
theorem insertModule_sound {found : Module} (h : (s.site m).state = 0) (hf : moduleFailure s.sec.fuses found = 0) :
    let t := s.insertModule m found
    (t.site m).state = 2 ∧ (t.site m).kind.toNat = identityField found.identity 2 1 ∧ (t.site m).ratedH.toNat = identityField found.identity 24 2 ∧
      (t.site m).wear = 0 ∧ (t.site m).seconds = (if identityField found.identity 2 1 = 1 then found.seconds else 0) ∧
      (t.site m).clocked = found.refclk ∧ t.gleaner = s.gleaner ∧
      (∀ n, n / 4 = m → s.portEnabled n = true → found.refclk = true → (t.port n).state = 1) ∧
      (∀ n, n / 4 ≠ m ∨ found.refclk = false → t.port n = s.port n) := by
  obtain ⟨-, -, hkind, -⟩ := moduleFailure_eq_zero.1 hf
  obtain ⟨ports, hports⟩ := foldl_trainPort_eq (portsOfSite m) (siteLit s m found)
  have hsite : (s.insertModule m found).site m = moduleSite found (nonceOf s) s.now := by
    rw [insertModule_of_sound h hf, hports]
    exact site_siteLit s m found
  have hkindNat : (BitVec.ofNat 2 (identityField found.identity 2 1)).toNat = identityField found.identity 2 1 := by
    rcases hkind with hk | hk <;> rw [hk] <;> rfl
  have hseconds : (if BitVec.ofNat 2 (identityField found.identity 2 1) = kindOptical then found.seconds else 0) =
      if identityField found.identity 2 1 = 1 then found.seconds else 0 := by
    rcases hkind with hk | hk <;> rw [hk] <;> rfl
  refine ⟨?_, ?_, ?_, ?_, ?_, ?_, ?_, fun n hn he hc => ?_, fun n hn => ?_⟩
  · rw [hsite]
    rfl
  · rw [hsite]
    exact hkindNat
  · rw [hsite]
    exact Nat.mod_eq_of_lt (identityField_lt found.identity 24 2)
  · rw [hsite]
    rfl
  · rw [hsite]
    exact hseconds
  · rw [hsite]
    rfl
  · rw [insertModule_of_sound h hf, hports]
    rfl
  · rw [insertModule_of_sound h hf]
    exact port_foldl_trainPort_of_may (nodup_portsOfSite m) (mem_portsOfSite.2 hn) (by rw [mayTrain_siteLit hn, he, hc]; rfl)
  · rw [insertModule_of_sound h hf]
    rcases hn with hn | hc
    · exact (port_foldl_trainPort_other fun hmem => hn (mem_portsOfSite.1 hmem)).trans rfl
    · rw [foldl_trainPort_of_not fun k hk => by rw [mayTrain_siteLit (mem_portsOfSite.1 hk), hc, Bool.and_false]]
      rfl

/-- What a module that fails a check leaves. -/
theorem insertModule_failed {found : Module} (hm : m < 6) (h : (s.site m).state = 0) (hf : moduleFailure s.sec.fuses found ≠ 0) :
    let t := s.insertModule m found
    (t.site m).state = 3 ∧ t.ports = s.ports ∧ t.host.security = true ∧ ∃ e ∈ t.gleaner.arriving, e.cls = 6 ∧ e.code = 7 ∧ bits e.payload 0 3 = m ∧
      bits e.payload 8 3 = moduleFailure s.sec.fuses found ∧ bits e.payload 64 64 = identityField found.identity 4 8 := by
  rw [insertModule_of_failed h hf]
  have hread : ((nonceDrawn s).modSite m fun _ => { state := siteDark, identity := Tbl.ofList 0 0 found.identity, nonce := nonceOf s, clocked := found.refclk }).site m =
      { state := siteDark, identity := Tbl.ofList 0 0 found.identity, nonce := nonceOf s, clocked := found.refclk } :=
    site_modSite_of_ne (ne_default_of_state_ne (show siteDark ≠ 0 by decide))
  generalize hv : (nonceDrawn s).modSite m (fun _ => { state := siteDark, identity := Tbl.ofList 0 0 found.identity, nonce := nonceOf s, clocked := found.refclk }) = v at hread ⊢
  have hports : v.ports = s.ports := by rw [← hv]; rfl
  generalize hpay : pack 128 [(0, 3, m), (8, 3, moduleFailure s.sec.fuses found), (64, 64, identityField found.identity 4 8)] = payload
  obtain ⟨-, hp, hx⟩ := linked_raise (src := srcSite m) (e := evtBridleAuth) (payload := payload) (linked_self v)
  obtain ⟨e, hmem, hcls, hcode, hepay⟩ := mem_raise_arriving v (srcSite m) evtBridleAuth payload
  have hle := moduleFailure_le s.sec.fuses found
  refine ⟨?_, hp.trans hports, rfl, e, hmem, hcls, hcode, ?_, ?_, ?_⟩
  · have hsite : ((v.raise (srcSite m) evtBridleAuth payload).setSecurity).site m = v.site m := congrArg (fun x => Tbl.get ({} : Site) x m) hx
    rw [hsite, hread]
    rfl
  · rw [hepay, ← hpay, bits_pack (x := m) (by simp) (by decide) (by simp)]
    exact Nat.mod_eq_of_lt (by omega)
  · rw [hepay, ← hpay, bits_pack (x := moduleFailure s.sec.fuses found) (by simp) (by decide) (by simp)]
    exact Nat.mod_eq_of_lt (by omega)
  · rw [hepay, ← hpay, bits_pack (x := identityField found.identity 4 8) (by simp) (by decide) (by simp)]
    exact Nat.mod_eq_of_lt (identityField_lt found.identity 4 8)

theorem removeModule_present (h : (s.site m).state ≠ 0) (hp : Tbl.sorted s.ports = true) (hs : Tbl.sorted s.sites = true) :
    (s.removeModule m).site m = {} ∧ ∀ n, n / 4 = m → PortDown (s.removeModule m) n := by
  obtain ⟨-, hsites, -, hall⟩ := foldl_losePort (nodup_portsOfSite m) hp
  have hremove : s.removeModule m = ((portsOfSite m).foldl State.losePort s).modSite m fun _ => {} := if_neg h
  rw [hremove]
  generalize (portsOfSite m).foldl State.losePort s = v at hsites hall
  refine ⟨site_modSite_of_sorted (f := fun _ => {}) (by rw [hsites]; exact hs), fun n hn => hall n (mem_portsOfSite.2 hn)⟩

theorem writeLife_of_due {seconds : BitVec 32} {u : State} (hu : s.countLaser m seconds = u) (hl : (u.site m).state = 2 ∧ (u.site m).kind = 1)
    (hd : (u.site m).portOff = true ∨ (u.site m).written.toNat + 3600 ≤ (u.site m).seconds.toNat) :
    s.writeLife m seconds = u.modSite m fun y => y.writeBack u.sec.fuses := by
  rw [State.writeLife, hu]
  exact if_pos ⟨hl.1, hl.2, (Bool.or_eq_true _ _).mpr (hd.imp_right decide_eq_true)⟩

theorem writeLife_of_not {seconds : BitVec 32} {u : State} (hu : s.countLaser m seconds = u)
    (h : ¬ ((u.site m).state = 2 ∧ (u.site m).kind = 1) ∨ ((u.site m).portOff = false ∧ (u.site m).seconds.toNat < (u.site m).written.toNat + 3600)) :
    s.writeLife m seconds = u := by
  rw [State.writeLife, hu]
  refine if_neg ?_
  rintro ⟨hst, hk, hd⟩
  rcases h with h | ⟨hoff, hlt⟩
  · exact h ⟨hst, hk⟩
  · rw [hoff, Bool.false_or, decide_eq_true_eq] at hd
    exact absurd hd (Nat.not_le.2 hlt)

/-- Counting a laser changes neither the fuses nor the position. -/
theorem countLaser_rest (s : State) (m : Nat) (seconds : BitVec 32) :
    (s.countLaser m seconds).sec = s.sec ∧ (s.countLaser m seconds).position = s.position := by
  rw [State.countLaser]
  exact ite_of_both (fun v : State => v.sec = s.sec ∧ v.position = s.position) ⟨rfl, rfl⟩ ⟨rfl, rfl⟩

end

/-- Settles O52: a module by the first check that fails, its ports one by one, and its life by what has been counted. -/
theorem bridleModules : Obligations.BridleModules := by
  refine ⟨fun f found => moduleFailure_eq_zero, fun s m seconds hrun hm => ?_⟩
  intro x lit more counts u hcounts y live used failed
  have hu : s.countLaser m seconds = u := countLaser_eq hcounts
  obtain ⟨hsec, hpos⟩ := countLaser_rest s m seconds
  rw [hu] at hsec hpos
  have hinsert (found : Module) : exec (.bridleInsert m found) s = .next (s.insertModule m found) := exec_running hrun
  have hremove : exec (.bridleRemove m) s = .next (s.removeModule m) := exec_running hrun
  have hlife : exec (.bridleLifeWrite m seconds) s = .next (s.writeLife m seconds) := exec_running hrun
  have hwear : exec (.bridleWear m seconds) s = .next (s.noteWear m seconds) := exec_running hrun
  have heol : exec (.bridleEol m seconds) s = .next (s.endModule m seconds) := exec_running hrun
  refine ⟨fun found h => ?_, fun found h hf => ⟨_, hinsert found, insertModule_sound h hf⟩, fun found h hf => ⟨_, hinsert found, insertModule_failed hm h hf⟩,
    fun h => ?_, fun h hp hs => ⟨_, hremove, removeModule_present h hp hs⟩, fun hl hd => ?_, fun h => ?_, fun hus hw => ?_, fun h => ?_, fun h => ?_,
    fun hw h => ?_, fun hus hw hp => ?_⟩
  · rw [hinsert, insertModule_of_present h]
  · rw [hremove]
    exact congrArg _ (if_pos h)
  · rw [hlife, writeLife_of_due hu hl hd, hsec]
    rfl
  · rw [hlife, writeLife_of_not hu h]
  · rw [hwear, noteWear_of_due hu hus hw]
    rfl
  · rw [hwear, noteWear_of_not hu h]
  · have h110 : (u.site m).wear = 2 ∨ ¬ UsedPart (u.site m) 110 := h.imp_right fun hn hc => hn (usedPart_mono (by decide) hc)
    rw [heol, endModule_of_not (noteWear_of_not hu (h.imp_left fun hw => by rw [hw]; decide)) (h110.elim (fun h => .inr (.inl h)) .inl)]
  · have hnot : (u.site m).wear ≠ 0 := by rw [show (u.site m).wear = 1 from hw]; decide
    rw [heol, endModule_of_not (noteWear_of_not hu (.inl hnot)) (h.elim (fun h => .inr (.inr (by rw [hpos]; exact h))) .inl)]
  · have hnot : (u.site m).wear ≠ 0 := by rw [show (u.site m).wear = 1 from hw]; decide
    have hnot2 : (u.site m).wear ≠ 2 := by rw [show (u.site m).wear = 1 from hw]; decide
    obtain ⟨v, moved, left, hend, hseconds⟩ := endModule_of_due (noteWear_of_not hu (.inl hnot)) hus hnot2 (hpos.trans hp)
    obtain ⟨e, hmem, hcls, hcode, hpay⟩ := mem_raise_arriving v (srcSite m) evtBridleEol (pack 128 (v.wearFields m ++ [(80, 16, moved), (96, 16, left)]))
    refine ⟨_, heol.trans (by rw [hend]), e, hmem, hcls, hcode, ?_, ?_⟩
    · rw [hpay, State.wearFields, bits_pack (x := m) (by simp) (by decide) (by simp)]
      exact Nat.mod_eq_of_lt (by omega)
    · rw [hpay, State.wearFields, bits_pack (x := (v.site m).seconds.toNat) (by simp) (by decide) (by simp), show (v.site m).seconds = y.seconds from hseconds]
      exact Nat.mod_eq_of_lt (BitVec.isLt _)

end Sys2Proof.Laws
end


section
/-!
SUPPORT. Event records: summaries, the order in which they leave, the ring and its READ index (R43, R44, R475, R481 to R485).
-/
namespace Sys2Proof.Laws
open Sys2Proof.Machine Sys2Proof.Safety

/-! ### The order of R43 -/

theorem before_iff {x y : Event} : x.before y = true ↔
    x.epoch < y.epoch ∨ (x.epoch = y.epoch ∧ (x.gtc.toNat < y.gtc.toNat ∨ (x.gtc.toNat = y.gtc.toNat ∧ x.source.toNat < y.source.toNat))) := by
  have hgtc : x.gtc = y.gtc ↔ x.gtc.toNat = y.gtc.toNat := BitVec.toNat_inj.symm
  simp only [Event.before, Bool.or_eq_true, Bool.and_eq_true, decide_eq_true_eq, hgtc]

theorem not_before_iff {x y : Event} : x.before y = false ↔ ¬ x.before y = true := by rw [Bool.not_eq_true]

theorem before_asymm {x y : Event} (h : x.before y = true) : y.before x = false := by
  rw [not_before_iff, before_iff]
  rw [before_iff] at h
  omega

theorem before_trans {x y z : Event} (h : x.before y = true) (hz : y.before z = true) : x.before z = true := by
  rw [before_iff] at *
  omega

/-- Records in the order of R43. -/
def InOrder (l : List Event) : Prop := l.Pairwise fun x y => y.before x = false

theorem perm_insertEvent (e : Event) (l : List Event) : (insertEvent e l).Perm (e :: l) := by
  induction l with
  | nil => exact List.Perm.refl _
  | cons x l ih =>
    rw [insertEvent]
    split
    · exact List.Perm.refl _
    · exact (ih.cons x).trans (List.Perm.swap e x l)

theorem inOrder_insertEvent {e : Event} {l : List Event} (h : InOrder l) : InOrder (insertEvent e l) := by
  induction l with
  | nil => exact List.pairwise_singleton _ _
  | cons x l ih =>
    obtain ⟨hx, hl⟩ := List.pairwise_cons.1 h
    rw [insertEvent]
    split
    next he =>
      refine List.pairwise_cons.2 ⟨fun y hy => ?_, h⟩
      rcases List.mem_cons.1 hy with rfl | hy
      · exact before_asymm he
      · exact not_before_iff.2 fun hye => Bool.false_ne_true ((hx y hy).symm.trans (before_trans hye he))
    next he =>
      refine List.pairwise_cons.2 ⟨fun y hy => ?_, ih hl⟩
      rcases List.mem_cons.1 ((perm_insertEvent e l).subset hy) with rfl | hy
      · exact eq_false_of_ne_true he
      · exact hx y hy

/-- A record of a source and a time. -/
def sameRecord (src : BitVec 32) (t : BitVec 64) (k : Nat) (e : Event) : Bool := decide (e.source = src) && decide (e.gtc = t) && decide (e.epoch = k)

theorem sameRecord_iff {src : BitVec 32} {t : BitVec 64} {k : Nat} {e : Event} : sameRecord src t k e = true ↔ e.source = src ∧ e.gtc = t ∧ e.epoch = k := by
  simp only [sameRecord, Bool.and_eq_true, decide_eq_true_eq, and_assoc]

/-- A record that precedes another does not share source and time with it, nor with one after it. -/
theorem sameRecord_of_before {src : BitVec 32} {t : BitVec 64} {k : Nat} {x y : Event} (h : x.before y = true) (hx : sameRecord src t k x = true) :
    sameRecord src t k y = false := by
  refine eq_false_of_ne_true fun hy => ?_
  obtain ⟨hs, hg, he⟩ := sameRecord_iff.1 hx
  obtain ⟨hs', hg', he'⟩ := sameRecord_iff.1 hy
  rw [before_iff, hs, hg, he, hs', hg', he'] at h
  omega

/-- A record put in its place comes after those that share its source and time. -/
theorem filter_insertEvent {src : BitVec 32} {t : BitVec 64} {k : Nat} {e : Event} {l : List Event} (h : InOrder l) :
    (insertEvent e l).filter (sameRecord src t k) = l.filter (sameRecord src t k) ++ [e].filter (sameRecord src t k) := by
  induction l with
  | nil => rfl
  | cons x l ih =>
    obtain ⟨hx, hl⟩ := List.pairwise_cons.1 h
    rw [insertEvent]
    split
    next he =>
      cases hs : sameRecord src t k e with
      | false => simp [List.filter_cons, hs]
      | true =>
        have hnone : (x :: l).filter (sameRecord src t k) = [] := by
          refine List.filter_eq_nil_iff.2 fun y hy hys => ?_
          rcases List.mem_cons.1 hy with rfl | hy
          · exact Bool.false_ne_true ((sameRecord_of_before he hs).symm.trans hys)
          · cases hb : e.before y with
            | true => exact Bool.false_ne_true ((sameRecord_of_before hb hs).symm.trans hys)
            | false =>
              obtain ⟨hs1, hg1, he1⟩ := sameRecord_iff.1 hs
              obtain ⟨hs2, hg2, he2⟩ := sameRecord_iff.1 hys
              have hyx : y.before x = true := by
                rw [before_iff] at he ⊢
                rw [hs2, hg2, he2, ← hs1, ← hg1, ← he1]
                exact he
              exact Bool.false_ne_true ((hx y hy).symm.trans hyx)
        rw [List.filter_cons_of_pos hs, hnone, List.filter_cons_of_pos hs]
        rfl
    next =>
      rw [List.filter_cons, List.filter_cons, ih hl]
      split <;> rfl

theorem sortEvents_spec (xs ys : List Event) (h : InOrder ys) :
    (xs.foldl (fun ys e => insertEvent e ys) ys).Perm (ys ++ xs) ∧ InOrder (xs.foldl (fun ys e => insertEvent e ys) ys) ∧
      ∀ src t k, (xs.foldl (fun ys e => insertEvent e ys) ys).filter (sameRecord src t k) = (ys ++ xs).filter (sameRecord src t k) := by
  induction xs generalizing ys with
  | nil => exact ⟨by rw [List.append_nil]; exact List.Perm.refl _, h, fun _ _ _ => by rw [List.append_nil]; rfl⟩
  | cons e xs ih =>
    obtain ⟨hperm, horder, hfilter⟩ := ih (insertEvent e ys) (inOrder_insertEvent h)
    refine ⟨hperm.trans ?_, horder, fun src t k => (hfilter src t k).trans ?_⟩
    · exact ((perm_insertEvent e ys).append_right xs).trans List.perm_middle.symm
    · rw [List.filter_append, filter_insertEvent h, List.filter_append, List.append_assoc, ← List.filter_append]
      rfl

/-! ### Arrival (R481) -/

section
variable {s : State} {e : Event} {rest : List Event}

/-- The records of a class kept whole in a stride. -/
def keptLike (s : State) (e : Event) : Nat :=
  (s.gleaner.kept.filter fun x => decide (x.cls = e.cls) && decide (x.code ≠ 0xFFFF) && x.sameStride e).length

/-- The summary of a class and source. -/
def summaryOf (e : Event) (x : Summary) : Bool := decide (x.cls = e.cls) && decide (x.classWide = false) && decide (x.source = e.source)

theorem takeRecord_of_rate (h : s.gleaner.arriving = e :: rest) (hr : keptLike s e < s.field (.evtRate e.cls.toNat) 0 12) :
    s.takeRecord = { s with gleaner := { s.gleaner with arriving := rest, kept := s.gleaner.kept ++ [e] } } := by
  rw [State.takeRecord, h]
  exact if_pos hr

theorem takeRecord_of_excess (h : s.gleaner.arriving = e :: rest) (hr : s.field (.evtRate e.cls.toNat) 0 12 ≤ keptLike s e) :
    s.takeRecord = { s with gleaner := { s.gleaner with arriving := rest } }.coalesce e := by
  rw [State.takeRecord, h]
  exact if_neg (Nat.not_lt.2 hr)

theorem coalesce_of_mine (h : s.gleaner.summaries.any (summaryOf e) = true) :
    s.coalesce e = { s with gleaner := { s.gleaner with
      summaries := s.gleaner.summaries.map fun x => if summaryOf e x then { x with last := e.gtc, count := satAdd x.count 1 } else x } } := by
  have hany : (s.gleaner.summaries.any fun x => x.matches_ e false) = true := h
  rw [State.coalesce]
  dsimp only
  rw [hany, Bool.true_or, if_pos rfl, coalesceInto, hany, if_pos rfl]
  rfl

theorem coalesce_of_room (h : s.gleaner.summaries.any (summaryOf e) = false) (hr : (s.gleaner.summaries.filter fun x => !x.classWide).length < 1024) :
    s.coalesce e = { s with gleaner := { s.gleaner with
      summaries := s.gleaner.summaries ++ [Summary.ofEvent e e.source false] } } := by
  have hany : (s.gleaner.summaries.any fun x => x.matches_ e false) = false := h
  rw [State.coalesce]
  dsimp only
  rw [hany, Bool.false_or, decide_eq_true (show (s.gleaner.summaries.filter fun x => !x.classWide).length < maxSummaries from hr), if_pos rfl, coalesceInto, hany,
    if_neg (by decide)]

/-! ### The ring (R483, R484) -/

theorem foldl_keepEarly (l : List Event) (s : State) (h : s.gleaner.early.length + l.length ≤ 256) :
    l.foldl State.keepEarly s = { s with gleaner := { s.gleaner with early := s.gleaner.early ++ l } } := by
  induction l generalizing s with
  | nil =>
    rw [List.foldl_nil, List.append_nil]
  | cons e l ih =>
    rw [List.length_cons] at h
    have hkeep : s.keepEarly e = { s with gleaner := { s.gleaner with early := s.gleaner.early ++ [e] } } :=
      if_pos (show s.gleaner.early.length < maxEarly by rw [maxEarly]; omega)
    rw [List.foldl_cons, hkeep, ih _ (by dsimp only; rw [List.length_append, List.length_singleton]; omega)]
    dsimp only
    rw [List.append_assoc]
    rfl

end

/-- A state whose ring stands at a place, with a count of records written. -/
abbrev RingAs (v : BitVec 32 × BitVec 64) (s : State) : Prop := s.gleaner.write = v.1 ∧ s.gleaner.written = v.2

section
variable {v : BitVec 32 × BitVec 64} {s : State}

theorem ringAs_foldl {α : Type} {f : State → α → State} (hf : ∀ s x, RingAs v s → RingAs v (f s x)) (l : List α) (s : State) (h : RingAs v s) :
    RingAs v (l.foldl f s) := by
  induction l generalizing s with
  | nil => exact h
  | cons x l ih => exact ih _ (hf s x h)

theorem ringAs_modSheaf {m : Nat} {f : Sheaf → Sheaf} (h : RingAs v s) : RingAs v (s.modSheaf m f) := h

theorem ringAs_noteDevice {r : Reg} {m : BitVec 64} (h : RingAs v s) : RingAs v (s.noteDevice r m) := h

theorem ringAs_raise {src : Nat} {e : EventCode} {payload : BitVec 128} (h : RingAs v s) : RingAs v (s.raise src e payload) := by
  obtain ⟨hw, hn⟩ := h
  rw [State.raise, State.raiseAt]
  dsimp only
  split
  · exact ⟨hw, hn⟩
  · exact ⟨hw, hn⟩

theorem ringAs_writeUnit {p u : Nat} {x : BitVec 512} (h : RingAs v s) : RingAs v (s.writeUnit p u x) := by
  grind [State.writeUnit]

theorem ringAs_writeGroup {m g : Nat} {bs : List Byte} (h : RingAs v s) : RingAs v (s.writeGroup m g bs) := by
  grind [State.writeGroup, ringAs_modSheaf]

theorem ringAs_correctUnit {u : Nat} (h : RingAs v s) : RingAs v (s.correctUnit u) := h

theorem ringAs_failUnit {u : Nat} {patrol : Bool} (h : RingAs v s) : RingAs v (s.failUnit u patrol) := by
  grind [State.failUnit, ringAs_raise, ringAs_noteDevice]

theorem ringAs_writeChunk {p a : Nat} {bs : List Byte} {fromHost : Bool} (h : RingAs v s) : RingAs v (s.writeChunk p a bs fromHost) := by
  grind [State.writeChunk, ringAs_writeUnit, ringAs_correctUnit, ringAs_failUnit, ringAs_writeGroup]

theorem ringAs_writeBytes {p a : Nat} {bs : List Byte} (h : RingAs v s) : RingAs v (s.writeBytes p a bs) := by
  grind [State.writeBytes, ringAs_writeChunk, ringAs_foldl]

theorem ringAs_raiseUnbacked {src p a : Nat} {write : Bool} (h : RingAs v s) : RingAs v (s.raiseUnbacked src p a write) := by
  grind [State.raiseUnbacked, ringAs_raise]

theorem ringAs_raiseReach {src p a k : Nat} {write : Bool} (h : RingAs v s) : RingAs v (s.raiseReach src p a k write) := by
  grind [State.raiseReach, ringAs_raiseUnbacked, ringAs_raise]

theorem ringAs_masterWrite {src p a : Nat} {bs : List Byte} (h : RingAs v s) : RingAs v (s.masterWrite src p a bs) := by
  grind [State.masterWrite, ringAs_writeBytes, ringAs_raise, ringAs_raiseReach]

end

variable {s : State}

theorem ringPut_of_room (e : Event) (h : (s.gleaner.write - s.gleaner.read).toNat ≠ 2 ^ s.field .ringCtl 56 5) :
    (s.ringPut e).gleaner.write = s.gleaner.write + 1 ∧ (s.ringPut e).gleaner.written = s.gleaner.written + 1 := by
  have hput : s.ringPut e = _ := if_neg h
  obtain ⟨hw, hn⟩ := ringAs_masterWrite (src := srcFarrier) (p := 0)
    (a := s.field .ringCtl 0 48 + 32 * (s.gleaner.write.toNat % 2 ^ s.field .ringCtl 56 5)) (bs := e.bytes) (s := s) (v := (s.gleaner.write, s.gleaner.written)) ⟨rfl, rfl⟩
  rw [hput]
  exact ⟨congrArg (· + 1) hw, congrArg (· + 1) hn⟩

/-! ### READ (R485) -/

theorem writeFields_ringIdx (v : BitVec 32) : s.writeFields .ringIdx (maskOf 32 32) (v ++ (0 : BitVec 32)) = s.writeReadIndex v := by
  have hv : BitVec.ofNat 32 (bits (v ++ (0 : BitVec 32)) 32 32) = v := by
    refine BitVec.eq_of_toNat_eq ?_
    rw [BitVec.toNat_ofNat, bits]
    have hx := v.isLt
    rw [show (v ++ (0 : BitVec 32)).toNat = v.toNat * 2 ^ 32 by
      rw [BitVec.toNat_append, Nat.shiftLeft_eq, show (0 : BitVec 32).toNat = 0 from rfl, Nat.or_zero], Nat.shiftRight_eq_div_pow]
    omega
  have hbit : bit (maskOf 32 32) 32 = true := by decide +kernel
  have hw : s.writeFields .ringIdx (maskOf 32 32) (v ++ (0 : BitVec 32)) = if bit (maskOf 32 32) 32 = true then
    s.writeReadIndex (BitVec.ofNat 32 (bits (v ++ (0 : BitVec 32)) 32 32)) else s := rfl
  rw [hw, if_pos hbit, hv]

theorem writeShadow_of_rws_zero {r : Reg} (h : r.rws = 0) (m v : BitVec 64) : s.writeShadow r m v = s := by
  exact if_pos (by rw [h]; exact BitVec.zero_and)

theorem barWrite_ringIdx (v : BitVec 32) :
    s.barWrite .ringIdx (maskOf 32 32) (v ++ (0 : BitVec 32)) = (((s.noteBar .ringIdx (maskOf 32 32)).writeReadIndex v).noteHost .ringIdx (maskOf 32 32)) := by
  have hplain : (s.noteBar .ringIdx (maskOf 32 32)).writePlain .ringIdx (maskOf 32 32) (v ++ (0 : BitVec 32)) = _ :=
    if_neg (show ¬ (s.noteBar .ringIdx (maskOf 32 32)).windowDark .ringIdx = true from Bool.false_ne_true)
  refine Eq.trans (show s.barWrite .ringIdx (maskOf 32 32) (v ++ (0 : BitVec 32)) = _ from hplain) ?_
  rw [writeFields_ringIdx, writeShadow_of_rws_zero (by decide +kernel)]

theorem read_index_outcome (s : State) (v : BitVec 32) (hrun : s.isRunning = true) :
    ∃ t, exec (.evtReadIndexWrite v) s = .next t ∧ t.regs = s.regs ∧ t.shadows = s.shadows ∧ t.mem = s.mem ∧
      t.gleaner = { s.gleaner with read := if (s.gleaner.write - v).toNat ≤ 2 ^ s.field .ringCtl 56 5 then v else s.gleaner.read } := by
  refine ⟨_, (exec_running (f := fun s => s.barWrite .ringIdx (maskOf 32 32) (v ++ (0 : BitVec 32))) hrun).trans (congrArg _ (barWrite_ringIdx v)), ?_⟩
  by_cases hv : (s.gleaner.write - v).toNat ≤ 2 ^ s.field .ringCtl 56 5
  · have hw : (s.noteBar .ringIdx (maskOf 32 32)).writeReadIndex v = _ := if_pos hv
    rw [hw, if_pos hv]
    exact ⟨rfl, rfl, rfl, rfl⟩
  · have hw : (s.noteBar .ringIdx (maskOf 32 32)).writeReadIndex v = _ := if_neg hv
    rw [hw, if_neg hv]
    exact ⟨rfl, rfl, rfl, rfl⟩

/-! ### The obligation -/

theorem ring_write_outcome (s : State) (hrun : s.isRunning = true) :
    let old (e : Event) : Bool := decide (e.epoch < s.time.loads) || decide (e.gtc.toNat / 100000 + 1 ≤ s.stride)
    let out := sortEvents (s.gleaner.kept.filter old)
    let left := s.gleaner.kept.filter fun e => !old e
    (s.field .ringCtl 63 1 = 1 → exec .gleanerRingWrite s = .next ((s.gleaner.early ++ out).foldl State.ringPut
      { s with gleaner := { s.gleaner with kept := left, early := [] } })) ∧
    (s.field .ringCtl 63 1 ≠ 1 → s.gleaner.early.length + out.length ≤ 256 →
      exec .gleanerRingWrite s = .next { s with gleaner := { s.gleaner with kept := left, early := s.gleaner.early ++ out } }) := by
  intro old out left
  have hexec : exec .gleanerRingWrite s = .next (s.ringWrite 1) := exec_running hrun
  refine ⟨fun hon => hexec.trans (congrArg _ ?_), fun hoff hroom => hexec.trans (congrArg _ ?_)⟩
  · exact if_pos (decide_eq_true hon)
  · have hwrite : s.ringWrite 1 = out.foldl State.keepEarly { s with gleaner := { s.gleaner with kept := left } } :=
      if_neg (fun h => hoff (of_decide_eq_true h))
    exact hwrite.trans (foldl_keepEarly out _ hroom)

/-- Settles O53: arrival by the rate of the class, departure sorted by insertion, and the ring, whose WRITE no access of memory moves. -/
theorem eventRecords : Obligations.EventRecords := by
  unfold Obligations.EventRecords
  refine ⟨fun s e rest hrun harr => ?_, fun s hrun => ring_write_outcome s hrun, fun xs => ?_, fun s e => ?_, fun s v hrun => read_index_outcome s v hrun⟩
  · have hexec : exec .gleanerRecord s = .next s.takeRecord := exec_running hrun
    intro g kept mine
    refine ⟨fun hr => hexec.trans (congrArg _ ?_), fun hr hany => hexec.trans (congrArg _ ?_), fun hr hany hroom => hexec.trans (congrArg _ ?_)⟩
    · exact takeRecord_of_rate harr hr
    · exact (takeRecord_of_excess harr hr).trans (coalesce_of_mine hany)
    · exact (takeRecord_of_excess harr hr).trans (coalesce_of_room hany hroom)
  · obtain ⟨hperm, horder, hfilter⟩ := sortEvents_spec xs [] List.Pairwise.nil
    exact ⟨hperm, horder, hfilter⟩
  · exact ⟨fun hfull => ⟨s.dropRecord, if_pos hfull, rfl, rfl, rfl, rfl⟩, fun hroom => ringPut_of_room e hroom⟩

end Sys2Proof.Laws
end


section
/-!
SUPPORT. Accesses of the host port: registers and their shadows, aperture pages and words of Martingale entries (R8, R11, R99, R381, R382).
-/
namespace Sys2Proof.Laws
open Sys2Proof.Machine Sys2Proof.Safety

/-! ### Registers through BAR0 (R11, R381) -/

section
variable {s : State} {offset size : Nat}

theorem accessOk_iff : accessOk offset size = true ↔ (size = 4 ∨ size = 8) ∧ offset % size = 0 := by
  simp only [accessOk, Bool.and_eq_true, Bool.or_eq_true, beq_iff_eq, decide_eq_true_eq]

theorem accessReg_eq_none (p : Nat) (h : ¬ ((size = 4 ∨ size = 8) ∧ offset % size = 0) ∨ Reg.ofOffset (offset / 8 * 8) = none) :
    s.accessReg p offset size = none := by
  unfold State.accessReg
  rcases h with hsize | hreg
  · exact if_neg fun hok => hsize (accessOk_iff.1 hok)
  · rw [hreg]
    exact ite_self _

theorem writeAccess_eq_none (v : BitVec 64) (h : ¬ ((size = 4 ∨ size = 8) ∧ offset % size = 0) ∨ Reg.ofOffset (offset / 8 * 8) = none) :
    s.writeAccess offset size v = none := by
  unfold State.writeAccess
  rcases h with hsize | hreg
  · exact if_neg fun hok => hsize (accessOk_iff.1 hok)
  · rw [hreg]
    exact ite_self _

theorem accessReg_of_reg {r : Reg} (p : Nat) (hr : Reg.ofOffset (offset / 8 * 8) = some r) (hok : (size = 4 ∨ size = 8) ∧ offset % size = 0) :
    s.accessReg p offset size = some (if size = 8 then s.readReg p r else BitVec.ofNat 64 (bits (s.readReg p r) (8 * (offset % 8)) 32)) := by
  unfold State.accessReg
  rw [hr]
  exact if_pos (accessOk_iff.2 hok)

theorem writeAccess_of_reg {r : Reg} (v : BitVec 64) (hr : Reg.ofOffset (offset / 8 * 8) = some r) (hok : (size = 4 ∨ size = 8) ∧ offset % size = 0) :
    s.writeAccess offset size v = some (s.barWrite r (accessMask offset size) (BitVec.ofNat 64 (v.toNat <<< (8 * (offset % 8))))) := by
  unfold State.writeAccess
  rw [hr]
  exact if_pos (accessOk_iff.2 hok)

theorem inBar0 (hup : s.host.up = true) (ho : offset < 0x4000000) : ¬ (!s.host.up || decide (bar0Size ≤ offset)) = true := by
  rw [hup, decide_eq_false (show ¬ bar0Size ≤ offset by rw [bar0Size]; omega)]
  exact Bool.false_ne_true

theorem hostWrite_inside (v : BitVec 64) (hup : s.host.up = true) (ho : offset < 0x4000000) :
    s.hostWrite offset size v = (s.writeAccess offset size v).getD (s.raiseRegAccess offset size true) := if_neg (inBar0 hup ho)

theorem hostRead_of_none (hup : s.host.up = true) (ho : offset < 0x4000000) (h : s.accessReg 0 offset size = none) :
    s.hostRead offset size = (s.raiseRegAccess offset size false).complete (List.replicate size 0) false := by
  refine (if_neg (inBar0 hup ho)).trans ?_
  rw [h]

theorem hostRead_of_some {v : BitVec 64} (hup : s.host.up = true) (ho : offset < 0x4000000) (h : s.accessReg 0 offset size = some v) :
    s.hostRead offset size = s.complete (leBytes size v.toNat) false := by
  refine (if_neg (inBar0 hup ho)).trans ?_
  rw [h]

theorem bar0_outcome (s : State) (offset size : Nat) (v : BitVec 64) (hrun : s.isRunning = true) (hup : s.host.up = true) (ho : offset < 0x4000000) :
    let sized := (size = 4 ∨ size = 8) ∧ offset % size = 0
    let told (write : Nat) : State := s.raise srcHost (7, 1) (pack 128 [(0, 27, offset), (27, 1, write), (32, 4, size)])
    let answered (t : State) (bs : List Byte) : State := { t with host := { t.host with data := bs, poisoned := false } }
    (¬ sized ∨ Reg.ofOffset (offset / 8 * 8) = none →
      exec (.registerWrite offset size v) s = .next (told 1) ∧
      exec (.hostRegisterRead offset size) s = .next (answered (told 0) (List.replicate size 0))) ∧
    (∀ r, Reg.ofOffset (offset / 8 * 8) = some r →
      (offset % 8 = 0 → size = 8 → exec (.hostRegisterRead offset size) s = .next (answered s (leBytes 8 (s.readReg 0 r).toNat))) ∧
      (offset % 4 = 0 → size = 4 →
        exec (.hostRegisterRead offset size) s = .next (answered s (leBytes 4 (bits (s.readReg 0 r) (8 * (offset % 8)) 32)))) ∧
      (offset % 8 = 0 → size = 8 → exec (.registerWrite offset size v) s = .next ((s.noteBar r (BitVec.allOnes 64)).writeReg r (BitVec.allOnes 64) v)) ∧
      (offset % 4 = 0 → size = 4 →
        let mask := maskOf (8 * (offset % 8)) 32
        exec (.registerWrite offset size v) s = .next ((s.noteBar r mask).writeReg r mask (BitVec.ofNat 64 (v.toNat <<< (8 * (offset % 8))))))) := by
  intro sized told answered
  have hwrite : exec (.registerWrite offset size v) s = .next (s.hostWrite offset size v) := exec_running hrun
  have hread : exec (.hostRegisterRead offset size) s = .next (s.hostRead offset size) := exec_running hrun
  rw [hwrite, hread, hostWrite_inside v hup ho]
  refine ⟨fun h => ?_, fun r hr => ⟨fun ho8 hs => ?_, fun ho4 hs => ?_, fun ho8 hs => ?_, fun ho4 hs => ?_⟩⟩
  · rw [writeAccess_eq_none v h, hostRead_of_none hup ho (accessReg_eq_none 0 h)]
    exact ⟨rfl, rfl⟩
  · subst hs
    rw [hostRead_of_some hup ho (accessReg_of_reg 0 hr ⟨Or.inr rfl, ho8⟩), if_pos rfl]
    rfl
  · subst hs
    have hval : (BitVec.ofNat 64 (bits (s.readReg 0 r) (8 * (offset % 8)) 32)).toNat = bits (s.readReg 0 r) (8 * (offset % 8)) 32 := by
      rw [BitVec.toNat_ofNat]
      exact Nat.mod_eq_of_lt (lt_of_lt_of_le (Nat.mod_lt _ (by norm_num)) (by norm_num))
    rw [hostRead_of_some hup ho (accessReg_of_reg 0 hr ⟨Or.inl rfl, ho4⟩), if_neg (by decide), hval]
    rfl
  · subst hs
    have hmask : accessMask offset 8 = BitVec.allOnes 64 := by
      rw [accessMask, ho8]
      decide +kernel
    have hval : BitVec.ofNat 64 (v.toNat <<< (8 * (offset % 8))) = v := by
      rw [ho8]
      exact BitVec.ofNat_toNat 64 v |>.trans (BitVec.setWidth_eq v)
    rw [writeAccess_of_reg v hr ⟨Or.inr rfl, ho8⟩, hmask, hval]
    rfl
  · subst hs
    rw [writeAccess_of_reg v hr ⟨Or.inl rfl, ho4⟩]
    rfl

end

/-! ### Shadows (R8, R12) -/

/-- Another key reads as before, whatever default it reads with. -/
theorem get_put_other_default {α : Type} [DecidableEq α] (d d' : α) (m : Tbl α) {k j : Nat} (v : α) (h : Tbl.sorted m = true) (hj : j ≠ k) :
    Tbl.get d (Tbl.put d' m k v) j = Tbl.get d m j := by
  unfold Tbl.put
  split
  · exact Tbl.get_drop_other d m k j h hj
  · exact Tbl.get_insert_other d m k j v hj

theorem shadow_writeShadow (s : State) (r : Reg) (mask v : BitVec 64) (hs : Tbl.sorted s.shadows = true) :
    let m := mask &&& ~~~s.deviceBits r
    let t := s.writeShadow r mask v
    t.shadow r = (if r.rws &&& m = 0 then s.shadow r else ((s.shadow r &&& ~~~m) ||| (v &&& m)) &&& r.rws) ∧ t.regs = s.regs ∧
    ∀ q, q.offset ≠ r.offset → t.shadow q = s.shadow q := by
  intro m t
  by_cases hm : r.rws &&& m = 0
  · have ht : t = s := if_pos hm
    rw [ht, if_pos hm]
    exact ⟨rfl, rfl, fun _ _ => rfl⟩
  · have ht : t = s.setShadow r ((s.shadow r &&& ~~~m) ||| (v &&& m)) := if_neg hm
    rw [ht, if_neg hm]
    exact ⟨Tbl.get_put_same _ _ _ _ hs, rfl, fun q hq => get_put_other_default _ _ _ _ hs hq⟩

/-! ### What a read's error check leaves of the registers -/

/-- The registers of a state, in force and shadow. -/
structure RegView where
  regs : Tbl (BitVec 64)
  shadows : Tbl (BitVec 64)

/-- A state whose registers are as the view says. -/
abbrev RegsAs (v : RegView) (s : State) : Prop := s.regs = v.regs ∧ s.shadows = v.shadows

/-- The view of a state. -/
abbrev regsOf (s : State) : RegView := ⟨s.regs, s.shadows⟩

section
variable {v : RegView} {s : State}

theorem regsAs_modTile {n : Nat} {f : Tile → Tile} (h : RegsAs v s) : RegsAs v (s.modTile n f) := h

theorem regsAs_modSheaf {m : Nat} {f : Sheaf → Sheaf} (h : RegsAs v s) : RegsAs v (s.modSheaf m f) := h

theorem regsAs_noteDevice {r : Reg} {m : BitVec 64} (h : RegsAs v s) : RegsAs v (s.noteDevice r m) := h

theorem regsAs_raise {src : Nat} {e : EventCode} {payload : BitVec 128} (h : RegsAs v s) : RegsAs v (s.raise src e payload) := by
  rw [RegsAs, State.raise_regs, State.raise_shadows]
  exact h

theorem regsAs_takeEnv {env : Env} (h : RegsAs v s) : RegsAs v (s.takeEnv env) := by
  obtain ⟨mem, units, words, he⟩ := takeEnv_eq s env
  rw [he]
  exact h

theorem regsAs_correctUnit {u : Nat} (h : RegsAs v s) : RegsAs v (s.correctUnit u) := h

theorem regsAs_failUnit {u : Nat} {patrol : Bool} (h : RegsAs v s) : RegsAs v (s.failUnit u patrol) := by
  grind [State.failUnit, regsAs_raise, regsAs_noteDevice]

theorem regsAs_correctWord {w : Nat} (h : RegsAs v s) : RegsAs v (s.correctWord w) := by
  grind [State.correctWord, regsAs_modSheaf, regsAs_modTile]

theorem regsAs_failWord {w : Nat} (h : RegsAs v s) : RegsAs v (s.failWord w) := by
  grind [State.failWord, regsAs_modSheaf, regsAs_raise, regsAs_modTile]

theorem regsAs_readMark {c : Nat × EccMark} (hbm : Bool) (h : RegsAs v s) : RegsAs v (s.readMark hbm c).1 := by
  unfold State.readMark
  grind [regsAs_correctWord, regsAs_correctUnit, regsAs_failUnit, regsAs_failWord]

theorem regsAs_readMarks {l : List (Nat × EccMark)} (hbm : Bool) (h : RegsAs v s) : RegsAs v (s.readMarks hbm l).1 := by
  fun_induction State.readMarks <;> grind [regsAs_readMark]

theorem regsAs_checkRead {a n : Nat} (h : RegsAs v s) : RegsAs v (s.checkRead a n).1 := by
  grind [State.checkRead, regsAs_readMarks]

theorem regsAs_checkUnit {a n : Nat} (h : RegsAs v s) : RegsAs v (s.checkUnit a n).1 := by
  have hr : ∀ s a n, RegsAs v s → RegsAs v (State.checkRead s a n).1 := fun s a n h => regsAs_checkRead h
  unfold State.checkUnit
  generalize State.checkRead = check at hr
  grind

theorem regsAs_checkUnits {l : List (Nat × Nat)} (h : RegsAs v s) : RegsAs v (s.checkUnits l).1 := by
  fun_induction State.checkUnits <;> grind [regsAs_checkUnit]

theorem regsAs_checkReadAt {a n : Nat} (h : RegsAs v s) : RegsAs v (s.checkReadAt a n).1 := regsAs_checkUnits h

theorem regsAs_pagePoisoned {offset n : Nat} (h : RegsAs v s) : RegsAs v (s.pagePoisoned offset n).1 := by
  unfold State.pagePoisoned
  dsimp only
  split
  · exact regsAs_checkReadAt h
  · exact h

end

/-! ### The aperture (R382) -/

section
variable {s : State} {offset n : Nat}

theorem aperture_write (data : List Byte) (hup : s.host.up = true) (hn : n ≤ 0x200000 - offset % 0x200000) :
    s.aperture offset n (some data) = (s.pageAccess offset n (some (data.take n))).1 := by
  have hk : min n (pageSize - offset % pageSize) = n := Nat.min_eq_left hn
  unfold State.aperture
  refine (if_neg (by rw [hup]; exact Bool.false_ne_true)).trans ?_
  dsimp only
  rw [hk]
  exact if_neg (lt_irrefl n)

theorem aperture_read (hup : s.host.up = true) (hn : n ≤ 0x200000 - offset % 0x200000) :
    s.aperture offset n none = (((s.pagePoisoned offset n).1.pageAccess offset n none).1).complete ((s.pagePoisoned offset n).1.pageAccess offset n none).2
      (s.pagePoisoned offset n).2 := by
  have hk : min n (pageSize - offset % pageSize) = n := Nat.min_eq_left hn
  unfold State.aperture
  refine (if_neg (by rw [hup]; exact Bool.false_ne_true)).trans ?_
  dsimp only
  rw [hk]
  exact if_neg (lt_irrefl n)

theorem pagePoisoned_of_unmapped (h : bit (s.reg (.apt (offset / 0x200000))) 63 = false) : s.pagePoisoned offset n = (s, false) := by
  unfold State.pagePoisoned
  refine if_neg ?_
  rw [show bit (s.reg (.apt (offset / pageSize))) 63 = false from h, Bool.false_and, Bool.false_and]
  exact Bool.false_ne_true

/-- The event of an access through a page that is not mapped. -/
def unmappedTold (s : State) (offset : Nat) (write : Bool) : State :=
  s.raise srcHost evtAptUnmapped (pack 128 [(0, 13, offset / 0x200000), (13, 21, offset % 0x200000), (34, 1, b2n write)])

theorem pageAccess_of_unmapped (data : Option (List Byte)) (h : bit (s.reg (.apt (offset / 0x200000))) 63 = false) :
    s.pageAccess offset n data = (unmappedTold s offset data.isSome, List.replicate n 0) :=
  if_pos (show (!bit (s.reg (.apt (offset / pageSize))) 63) = true by rw [show bit (s.reg (.apt (offset / pageSize))) 63 = false from h]; rfl)

theorem pageAccess_of_mapped (data : Option (List Byte)) (h : bit (s.reg (.apt (offset / 0x200000))) 63 = true) :
    s.pageAccess offset n data = (match data with
      | some bs => (if bit (s.reg (.apt (offset / 0x200000))) 62 then
          s.pageWrite (bits (s.reg (.apt (offset / 0x200000))) 56 4) (bits (s.reg (.apt (offset / 0x200000))) 21 27 * 0x200000 + offset % 0x200000) bs else s, [])
      | none => s.pageRead (bits (s.reg (.apt (offset / 0x200000))) 56 4) (bits (s.reg (.apt (offset / 0x200000))) 21 27 * 0x200000 + offset % 0x200000) n) :=
  if_neg (show ¬ (!bit (s.reg (.apt (offset / pageSize))) 63) = true by
    rw [show bit (s.reg (.apt (offset / pageSize))) 63 = true from h]
    exact Bool.false_ne_true)

theorem told_unmapped (s : State) (offset : Nat) (write : Bool) :
    ∃ x ∈ (unmappedTold s offset write).gleaner.arriving, x.cls = 7 ∧ x.code = 2 ∧ bits x.payload 0 13 = offset / 0x200000 % 8192 := by
  obtain ⟨x, hx, hcls, hcode, hpay⟩ := mem_raise_arriving s srcHost evtAptUnmapped
    (pack 128 [(0, 13, offset / 0x200000), (13, 21, offset % 0x200000), (34, 1, b2n write)])
  refine ⟨x, hx, hcls, hcode, ?_⟩
  rw [hpay]
  exact bits_pack (List.mem_cons_self ..) (by omega) (by simp)

theorem unmapped_outcome (s : State) (offset n : Nat) (data : Option (List Byte)) (hup : s.host.up = true) (hn : n ≤ 0x200000 - offset % 0x200000)
    (h : bit (s.reg (.apt (offset / 0x200000))) 63 = false) :
    (s.aperture offset n data).mem = s.mem ∧ (s.aperture offset n data).hbm = s.hbm ∧ (s.aperture offset n data).regs = s.regs ∧
      (data = none → (s.aperture offset n data).host.data = List.replicate n 0) ∧
      ∃ x ∈ (s.aperture offset n data).gleaner.arriving, x.cls = 7 ∧ x.code = 2 ∧ bits x.payload 0 13 = offset / 0x200000 % 8192 := by
  cases data with
  | some bs =>
    rw [aperture_write bs hup hn, pageAccess_of_unmapped _ h]
    exact ⟨State.raise_mem .., State.raise_hbm .., State.raise_regs .., fun h => absurd h (Option.some_ne_none bs), told_unmapped s offset true⟩
  | none =>
    rw [aperture_read hup hn, pagePoisoned_of_unmapped h, pageAccess_of_unmapped _ h]
    exact ⟨State.raise_mem .., State.raise_hbm .., State.raise_regs .., fun _ => rfl, told_unmapped s offset false⟩

end

theorem aperture_outcome (s : State) (offset n : Nat) (data : Option (List Byte)) (env : Env) (hrun : s.isRunning = true) (hup : s.host.up = true)
    (hn : n ≤ 0x200000 - offset % 0x200000) :
    let e := s.takeEnv env
    let page := offset / 0x200000
    let r := s.reg (.apt page)
    let a := bits r 21 27 * 0x200000 + offset % 0x200000
    (bit r 63 = false → ∃ t, exec (.apertureAccess offset n data env) s = .next t ∧ t.mem = e.mem ∧ t.hbm = e.hbm ∧ t.regs = e.regs ∧
      (data = none → t.host.data = List.replicate n 0) ∧
      ∃ x ∈ t.gleaner.arriving, x.cls = 7 ∧ x.code = 2 ∧ bits x.payload 0 13 = page % 8192) ∧
    (bit r 63 = true → bit r 62 = false → data ≠ none → exec (.apertureAccess offset n data env) s = .next e) ∧
    (∀ bs, bit r 63 = true → bit r 62 = true → data = some bs → bs.length = n →
      exec (.apertureAccess offset n data env) s = .next (e.pageWrite (bits r 56 4) a bs)) ∧
    (bit r 63 = true → data = none → ∃ u bad bs v, e.pagePoisoned offset n = (u, bad) ∧ u.pageRead (bits r 56 4) a n = (v, bs) ∧
      exec (.apertureAccess offset n none env) s = .next { v with host := { v.host with data := bs, poisoned := bad } }) := by
  intro e page r a
  have hexec : ∀ data, exec (.apertureAccess offset n data env) s = .next (e.aperture offset n data) := fun _ => exec_running hrun
  have heup : e.host.up = true := by rw [takeEnv_host]; exact hup
  have hreg : ∀ u : State, RegsAs (regsOf s) u → u.reg (.apt page) = r := fun u h => congrArg (fun m => Tbl.get (Reg.apt page).reset m (Reg.apt page).offset) h.1
  have her : e.reg (.apt page) = r := hreg e (regsAs_takeEnv ⟨rfl, rfl⟩)
  refine ⟨fun h => ⟨_, hexec data, unmapped_outcome e offset n data heup hn (her ▸ h)⟩, fun h63 h62 hdata => (hexec data).trans (congrArg _ ?_),
    fun bs h63 h62 hdata hlen => (hexec data).trans (congrArg _ ?_), fun h63 hdata => ?_⟩
  · obtain ⟨bs, rfl⟩ := Option.ne_none_iff_exists'.1 hdata
    rw [aperture_write bs heup hn, pageAccess_of_mapped _ (her.symm ▸ h63)]
    exact if_neg (by rw [her, h62]; exact Bool.false_ne_true)
  · subst hdata
    rw [aperture_write bs heup hn, pageAccess_of_mapped _ (her.symm ▸ h63), ← hlen, List.take_length]
    refine (if_pos (by rw [her]; exact h62)).trans ?_
    rw [her]
  · have hu : (e.pagePoisoned offset n).1.reg (.apt page) = r := hreg _ (regsAs_pagePoisoned (regsAs_takeEnv ⟨rfl, rfl⟩))
    refine ⟨_, _, _, _, Prod.mk.eta.symm, Prod.mk.eta.symm, (hexec none).trans (congrArg _ ?_)⟩
    rw [aperture_read heup hn, pageAccess_of_mapped none (hu.symm ▸ h63), hu]
    rfl

/-! ### Martingale entries (R97, R99) -/

section
variable {s : State} {m i w : Nat} {v : BitVec 64}

/-- A word of a Martingale entry written through BAR0 writes the entry alone. -/
theorem barWrite_mtgWord (hf : s.sheafFailed m = false) (hi : s.isolated m = false) (mask : BitVec 64) :
    s.barWrite (.mtgWord m i w) mask v =
      (((s.noteBar (.mtgWord m i w) mask).modEntry m i fun x => x.write w mask v).noteHost (.mtgWord m i w) mask) := by
  have hdark : ¬ (s.noteBar (.mtgWord m i w) mask).windowDark (.mtgWord m i w) = true := by
    rw [show (s.noteBar (.mtgWord m i w) mask).windowDark (.mtgWord m i w) = (s.sheafFailed m || s.isolated m) from rfl, hf, hi]
    exact Bool.false_ne_true
  have hplain : (s.noteBar (.mtgWord m i w) mask).writePlain (.mtgWord m i w) mask v = _ := if_neg hdark
  refine Eq.trans (show s.barWrite (.mtgWord m i w) mask v = _ from hplain) ?_
  rw [writeShadow_of_rws_zero rfl]
  rfl

theorem sheaf_modEntry (f : MtgEntry → MtgEntry) (hs : Tbl.sorted s.sheaves = true) :
    (s.modEntry m i f).sheaf m = { s.sheaf m with entries := Tbl.modify {} (s.sheaf m).entries i f } := Tbl.get_put_same _ _ _ _ hs

theorem entry_modEntry (f : MtgEntry → MtgEntry) (hs : Tbl.sorted s.sheaves = true) (he : Tbl.sorted (s.sheaf m).entries = true) :
    (s.modEntry m i f).entry m i = f (s.entry m i) := by
  rw [State.entry, sheaf_modEntry f hs]
  exact Tbl.get_put_same _ _ _ _ he

theorem entry_modEntry_other {j : Nat} (f : MtgEntry → MtgEntry) (hs : Tbl.sorted s.sheaves = true) (he : Tbl.sorted (s.sheaf m).entries = true)
    (hj : j ≠ i) : (s.modEntry m i f).entry m j = s.entry m j := by
  rw [State.entry, sheaf_modEntry f hs]
  exact Tbl.get_put_other _ _ _ _ _ he hj

theorem merge64_allOnes (a b : BitVec 64) : merge64 a (BitVec.allOnes 64) b = b := by
  rw [merge64, BitVec.not_allOnes, BitVec.and_zero, BitVec.zero_or, BitVec.and_allOnes]

theorem write_of_open {x : MtgEntry} (mask : BitVec 64) (h : x.isOpen = true) : x.write w mask v = x := if_pos h

theorem write_word5 {x : MtgEntry} (h : x.isOpen = false) :
    x.write 5 (BitVec.allOnes 64) v = if bits v 56 8 = 0x80 then x else { x with tExp := BitVec.ofNat 8 (bits v 56 8) } := by
  have hw : x.write 5 (BitVec.allOnes 64) v = _ := if_neg (show ¬ x.isOpen = true by rw [h]; exact Bool.false_ne_true)
  rw [hw, if_neg (by decide), if_neg (by decide), if_pos rfl, merge64_allOnes]

theorem write_word4 {x : MtgEntry} (h : x.isOpen = false) :
    x.write 4 (BitVec.allOnes 64) v = { x with ctl := v &&& fieldMask [(40, 8), (18, 14)] } := by
  have hw : x.write 4 (BitVec.allOnes 64) v = _ := if_neg (show ¬ x.isOpen = true by rw [h]; exact Bool.false_ne_true)
  rw [hw, if_neg (by decide), if_pos rfl, merge64_allOnes]
  rfl

end

theorem entry_write_outcome (s : State) (m i w : Nat) (v : BitVec 64) (hrun : s.isRunning = true) (hf : s.sheafFailed m = false) (hi : s.isolated m = false)
    (hs : Tbl.sorted s.sheaves = true) (he : Tbl.sorted (s.sheaf m).entries = true) :
    let x := s.entry m i
    ∃ t, exec (.mtgEntryWrite m i w v) s = .next t ∧ t.mem = s.mem ∧ t.regs = s.regs ∧ t.tiles = s.tiles ∧
      (x.isOpen = true → t.entry m i = x) ∧
      (x.isOpen = false → w = 5 → bits v 56 8 ≠ 0x80 → t.entry m i = { x with tExp := BitVec.ofNat 8 (bits v 56 8) }) ∧
      (x.isOpen = false → w = 5 → bits v 56 8 = 0x80 → t.entry m i = x) ∧
      (x.isOpen = false → w = 4 → t.entry m i = { x with ctl := v &&& fieldMask [(40, 8), (18, 14)] }) ∧
      (∀ j, j ≠ i → t.entry m j = s.entry m j) := by
  intro x
  have hexec : exec (.mtgEntryWrite m i w v) s = .next (s.barWrite (.mtgWord m i w) (BitVec.allOnes 64) v) := exec_running hrun
  have hentry : (s.modEntry m i fun x => x.write w (BitVec.allOnes 64) v).entry m i = x.write w (BitVec.allOnes 64) v := entry_modEntry _ hs he
  refine ⟨_, hexec.trans (congrArg _ (barWrite_mtgWord hf hi _)), rfl, rfl, rfl, fun ho => hentry.trans (write_of_open _ ho), fun hc hw ht => ?_,
    fun hc hw ht => ?_, fun hc hw => ?_, fun j hj => entry_modEntry_other (s := s) _ hs he hj⟩
  · subst hw
    exact hentry.trans ((write_word5 hc).trans (if_neg ht))
  · subst hw
    exact hentry.trans ((write_word5 hc).trans (if_pos ht))
  · subst hw
    exact hentry.trans (write_word4 hc)

/-- Settles O54: BAR0 by what the offset names, shadows by the masked merge, the aperture by its page register, and entries while they are closed. -/
theorem hostAccesses : Obligations.HostAccesses := by
  unfold Obligations.HostAccesses
  exact ⟨fun s offset size v hrun hup ho => bar0_outcome s offset size v hrun hup ho, fun s r mask v hs => shadow_writeShadow s r mask v hs,
    fun s offset n data env hrun hup hn => aperture_outcome s offset n data env hrun hup hn,
    fun s m i w v hrun hf hi hs he => entry_write_outcome s m i w v hrun hf hi hs he⟩

end Sys2Proof.Laws
end


section
/-!
SUPPORT. The debug paths: what they leave of their own state, whom they touch, and the register that a write of them brings in (R439, R487, R488).
-/
namespace Sys2Proof.Laws
open Sys2Proof.Machine Sys2Proof.Safety

/-! ### Registers in force -/

section
variable {s : State} {r q : Reg}

theorem reg_setReg_same (v : BitVec 64) (h : Tbl.sorted s.regs = true) : (s.setReg r v).reg r = v := Tbl.get_put_same _ _ _ _ h

theorem reg_setReg_other (v : BitVec 64) (h : Tbl.sorted s.regs = true) (hq : q.offset ≠ r.offset) : (s.setReg r v).reg q = s.reg q :=
  get_put_other_default _ _ _ v h hq

end

/-- Who runs a sheaf depends on the gait registers alone, besides the masks and the time. -/
theorem runs_of_gait {s t : State} (hc : t.reg .gaitCtl = s.reg .gaitCtl) (hg : ∀ n, n < 64 → t.reg (.gaitSched n) = s.reg (.gaitSched n))
    (hm : t.masks = s.masks) (ht : t.time.gtc = s.time.gtc) (m : Nat) : t.runs m = s.runs m := by
  have hholders : t.holders m = s.holders m := by
    have hk : t.mask = s.mask := by funext p; simp only [State.mask, hm]
    rw [State.holders, State.holders, hk]
  have hstride : t.stride = s.stride := by rw [State.stride, State.stride, State.now, State.now, ht]
  have hentry : t.gaitEntry s.stride = s.gaitEntry s.stride := by
    have hlen : bits (s.reg .gaitCtl) 0 6 + 1 ≤ 64 := Nat.mod_lt _ (by norm_num)
    rw [State.gaitEntry, State.gaitEntry, State.field, State.field, hc]
    exact hg _ (lt_of_lt_of_le (Nat.mod_lt _ (Nat.succ_pos _)) hlen)
  unfold State.runs State.selects
  rw [hholders, hstride, State.field, State.field, hc, hentry]

/-! ### Uses of a debug path (R439) -/

section
variable (path : Nat) (ps : List Nat) (s : State)

theorem debugUse_cons (p : Nat) : s.debugUse path (p :: ps) = (s.debugUse path [p]).debugUse path ps := by
  rw [State.debugUse, State.debugUse, State.debugUse, List.foldl_cons, List.foldl_cons, List.foldl_nil]

/-- What a use leaves: it touches its paddocks, and changes beside them what the event brings. -/
structure UsedBy (ps : List Nat) (s t : State) : Prop where
  sec : t.sec = { s.sec with touched := ps.foldl (fun v p => withBit v p true) s.sec.touched }
  regs : t.regs = s.regs
  masks : t.masks = s.masks
  time : t.time = s.time
  progs : t.progs = s.progs
  tiles : t.tiles = s.tiles
  mem : t.mem = s.mem
  debugMem : t.debugMem = s.debugMem

theorem usedBy_single (p : Nat) : UsedBy [p] s (s.debugUse path [p]) := by
  rw [State.debugUse, List.foldl_cons, List.foldl_nil]
  dsimp only
  split
  · exact ⟨rfl, rfl, rfl, rfl, rfl, rfl, rfl, rfl⟩
  · exact ⟨State.raise_sec .., State.raise_regs .., State.raise_masks .., State.raise_time .., State.raise_progs .., State.raise_tiles ..,
      State.raise_mem .., State.raise_debugMem ..⟩

theorem usedBy_debugUse : UsedBy ps s (s.debugUse path ps) := by
  induction ps generalizing s with
  | nil => exact ⟨rfl, rfl, rfl, rfl, rfl, rfl, rfl, rfl⟩
  | cons p ps ih =>
    have h1 := usedBy_single path s p
    have h2 := ih (s.debugUse path [p])
    rw [debugUse_cons]
    refine ⟨?_, h2.regs.trans h1.regs, h2.masks.trans h1.masks, h2.time.trans h1.time, h2.progs.trans h1.progs, h2.tiles.trans h1.tiles,
      h2.mem.trans h1.mem, h2.debugMem.trans h1.debugMem⟩
    rw [h2.sec, h1.sec]
    rfl

theorem touched_of_usedBy {ps : List Nat} {s t : State} (h : UsedBy ps s t) : ∀ p ∈ ps, p < 16 → bit t.sec.touched p = true := by
  intro p hp h16
  rw [h.sec]
  exact (bit_foldl_withBit (fun p => p) ps s.sec.touched h16).2 (Or.inr ⟨p, hp, rfl⟩)

end

/-! ### What a debug access of memory leaves of its own state -/

/-- The access under way and the paddocks touched. -/
structure DebugView where
  debugMem : Option (BitVec 64)
  touched : BitVec 16

/-- A state whose debug access and touched paddocks are as the view says. -/
abbrev DebugAs (v : DebugView) (s : State) : Prop := s.debugMem = v.debugMem ∧ s.sec.touched = v.touched

section
variable {v : DebugView} {s : State}

theorem debugAs_foldl {α : Type} {f : State → α → State} (hf : ∀ s x, DebugAs v s → DebugAs v (f s x)) (l : List α) (s : State) (h : DebugAs v s) :
    DebugAs v (l.foldl f s) := by
  induction l generalizing s with
  | nil => exact h
  | cons x l ih => exact ih _ (hf s x h)

theorem debugAs_modTile {n : Nat} {f : Tile → Tile} (h : DebugAs v s) : DebugAs v (s.modTile n f) := h

theorem debugAs_setTile {n : Nat} {t : Tile} (h : DebugAs v s) : DebugAs v (s.setTile n t) := h

theorem debugAs_modSheaf {m : Nat} {f : Sheaf → Sheaf} (h : DebugAs v s) : DebugAs v (s.modSheaf m f) := h

theorem debugAs_setReg {r : Reg} {x : BitVec 64} (h : DebugAs v s) : DebugAs v (s.setReg r x) := h

theorem debugAs_setShadow {r : Reg} {x : BitVec 64} (h : DebugAs v s) : DebugAs v (s.setShadow r x) := h

theorem debugAs_noteDevice {r : Reg} {m : BitVec 64} (h : DebugAs v s) : DebugAs v (s.noteDevice r m) := h

theorem debugAs_noteHost {r : Reg} {m : BitVec 64} (h : DebugAs v s) : DebugAs v (s.noteHost r m) := h

theorem debugAs_raise {src : Nat} {e : EventCode} {payload : BitVec 128} (h : DebugAs v s) : DebugAs v (s.raise src e payload) := by
  rw [DebugAs, State.raise_debugMem, State.raise_sec]
  exact h

theorem debugAs_raiseUnbacked {src p a : Nat} {write : Bool} (h : DebugAs v s) : DebugAs v (s.raiseUnbacked src p a write) := by
  grind [State.raiseUnbacked, debugAs_raise]

/-! #### Reads -/

theorem debugAs_correctUnit {u : Nat} (h : DebugAs v s) : DebugAs v (s.correctUnit u) := h

theorem debugAs_failUnit {u : Nat} {patrol : Bool} (h : DebugAs v s) : DebugAs v (s.failUnit u patrol) := by
  grind [State.failUnit, debugAs_raise, debugAs_noteDevice]

theorem debugAs_correctWord {w : Nat} (h : DebugAs v s) : DebugAs v (s.correctWord w) := by
  grind [State.correctWord, debugAs_modSheaf, debugAs_modTile]

theorem debugAs_failWord {w : Nat} (h : DebugAs v s) : DebugAs v (s.failWord w) := by
  grind [State.failWord, debugAs_modSheaf, debugAs_raise, debugAs_modTile]

theorem debugAs_readMark {c : Nat × EccMark} (hbm : Bool) (h : DebugAs v s) : DebugAs v (s.readMark hbm c).1 := by
  unfold State.readMark
  grind [debugAs_correctWord, debugAs_correctUnit, debugAs_failUnit, debugAs_failWord]

theorem debugAs_readMarks {l : List (Nat × EccMark)} (hbm : Bool) (h : DebugAs v s) : DebugAs v (s.readMarks hbm l).1 := by
  fun_induction State.readMarks <;> grind [debugAs_readMark]

theorem debugAs_checkRead {a n : Nat} (h : DebugAs v s) : DebugAs v (s.checkRead a n).1 := by
  grind [State.checkRead, debugAs_readMarks]

theorem debugAs_checkUnit {a n : Nat} (h : DebugAs v s) : DebugAs v (s.checkUnit a n).1 := by
  have hr : ∀ s a n, DebugAs v s → DebugAs v (State.checkRead s a n).1 := fun s a n h => debugAs_checkRead h
  unfold State.checkUnit
  generalize State.checkRead = check at hr
  grind

theorem debugAs_checkUnits {l : List (Nat × Nat)} (h : DebugAs v s) : DebugAs v (s.checkUnits l).1 := by
  fun_induction State.checkUnits <;> grind [debugAs_checkUnit]

theorem debugAs_checkReadAt {a n : Nat} (h : DebugAs v s) : DebugAs v (s.checkReadAt a n).1 := debugAs_checkUnits h

/-! #### Writes -/

theorem debugAs_writeUnit {p u : Nat} {x : BitVec 512} (h : DebugAs v s) : DebugAs v (s.writeUnit p u x) := by
  grind [State.writeUnit]

theorem debugAs_writeGroup {m g : Nat} {bs : List Byte} (h : DebugAs v s) : DebugAs v (s.writeGroup m g bs) := by
  grind [State.writeGroup, debugAs_modSheaf]

theorem debugAs_writeChunk {p a : Nat} {bs : List Byte} {fromHost : Bool} (h : DebugAs v s) : DebugAs v (s.writeChunk p a bs fromHost) := by
  grind [State.writeChunk, debugAs_writeUnit, debugAs_correctUnit, debugAs_failUnit, debugAs_writeGroup]

theorem debugAs_writeReadIndex {x : BitVec 32} (h : DebugAs v s) : DebugAs v (s.writeReadIndex x) := by
  grind [State.writeReadIndex]

theorem debugAs_clearNonFinite {n : Nat} (h : DebugAs v s) : DebugAs v (s.clearNonFinite n) := by
  grind [State.clearNonFinite, debugAs_setTile]

theorem debugAs_writeFields {r : Reg} {m x : BitVec 64} (h : DebugAs v s) : DebugAs v (s.writeFields r m x) := by
  unfold State.writeFields
  dsimp only
  split
  case h_6 => split <;> [exact debugAs_writeReadIndex h; exact h]
  case h_7 => split <;> exact h
  case h_17 => split <;> [exact debugAs_clearNonFinite h; exact h]
  case h_18 => split <;> exact h
  all_goals exact h

theorem debugAs_writeShadow {r : Reg} {m x : BitVec 64} (h : DebugAs v s) : DebugAs v (s.writeShadow r m x) := by
  grind [State.writeShadow, debugAs_setShadow]

theorem debugAs_writePlain {r : Reg} {m x : BitVec 64} (h : DebugAs v s) : DebugAs v (s.writePlain r m x) := by
  grind [State.writePlain, debugAs_writeFields, debugAs_writeShadow, debugAs_noteHost]

/-- What memory, groups and registers keep when written, the MEM path keeps. -/
theorem debugWrite_keeps {P : State → Prop} (hchunk : ∀ s p a bs, P s → P (s.writeChunk p a bs true)) (hgroup : ∀ s m g bs, P s → P (s.writeGroup m g bs))
    (hmem : ∀ s mem words, P s → P { s with mem := mem, eccWords := words }) (hreg : ∀ s r m x, P s → P (s.writePlain r m x))
    (p a : Nat) (bs : List Byte) (h : P s) : P (s.debugWrite p a bs) := by
  have hfold : ∀ (f : State → Nat → State) (l : List Nat) (s : State), (∀ s i, P s → P (f s i)) → P s → P (l.foldl f s) := by
    intro f l
    induction l with
    | nil => exact fun s _ h => h
    | cons i l ih => exact fun s hf h => ih _ hf (hf s i h)
  unfold State.debugWrite
  generalize Reg.ofOffset = named
  split
  case h_1 => exact hchunk _ _ _ _ h
  case h_2 => exact hchunk _ _ _ _ h
  case h_3 => exact hmem _ _ _ h
  case h_4 => exact hmem _ _ _ h
  case h_5 => exact hmem _ _ _ h
  case h_6 => exact hgroup _ _ _ _ h
  case h_7 =>
    split
    · refine hfold _ _ _ (fun s i hs => ?_) h
      split
      · split
        · exact hs
        · exact hreg _ _ _ _ hs
      · exact hs
    · exact h

theorem debugAs_debugWrite {p a : Nat} {bs : List Byte} (h : DebugAs v s) : DebugAs v (s.debugWrite p a bs) :=
  debugWrite_keeps (fun _ _ _ _ h => debugAs_writeChunk h) (fun _ _ _ _ h => debugAs_writeGroup h) (fun _ _ _ h => h) (fun _ _ _ _ h => debugAs_writePlain h) p a bs h

end

/-! ### The MEM path (R487, R488) -/

/-- An access taken up, with the paddocks that it reaches touched. -/
def memBegun (s : State) : State :=
  { s with debugMem := some (s.reg .dbgMemCtl) }.debugUse 0 ({ s with debugMem := some (s.reg .dbgMemCtl) }.debugReaches (bits (s.reg .dbgMemCtl) 6 42 * 64))

/-- The view of a state. -/
abbrev debugOf (s : State) : DebugView := ⟨s.debugMem, s.sec.touched⟩

theorem debugMemGo_as {s : State} (h : s.debugMem = none) : DebugAs (debugOf (memBegun s)) s.debugMemGo := by
  unfold State.debugMemGo
  rw [if_neg (by rw [h]; exact Bool.false_ne_true)]
  extract_lets ctl a p write s0 s1 sec s2 s3 s4 s5 bs
  have h1 : DebugAs (debugOf (memBegun s)) s1 := ⟨rfl, rfl⟩
  have h2 : DebugAs (debugOf (memBegun s)) s2 := by
    unfold s2
    split <;> exact h1
  have h3 : DebugAs (debugOf (memBegun s)) s3 := by
    unfold s3
    split
    · exact h2
    · exact debugAs_raiseUnbacked h2
  have h4 : DebugAs (debugOf (memBegun s)) s4 := by
    unfold s4
    split
    · exact debugAs_raise h3
    · exact h3
  have h5 : DebugAs (debugOf (memBegun s)) s5 := by
    unfold s5
    split
    · exact debugAs_checkReadAt h4
    · exact h4
  split
  · exact debugAs_debugWrite h4
  · exact debugAs_foldl (fun s j hs => debugAs_setReg hs) _ _ h5

theorem debugReaches_begun (s : State) (x : Option (BitVec 64)) (a : Nat) : { s with debugMem := x }.debugReaches a = s.debugReaches a := by
  have hplace : { s with debugMem := x }.place a = s.place a := State.place_congr rfl a
  unfold State.debugReaches
  rw [hplace]
  generalize Reg.ofOffset = named
  rfl

theorem writeReg_go (s : State) (v : BitVec 64) (h : bit v 63 = true) :
    s.writeReg .dbgMemCtl (BitVec.allOnes 64) v = (s.writePlain .dbgMemCtl (BitVec.allOnes 64) v).debugMemGo ∧
    s.writeReg .dbgHalt (BitVec.allOnes 64) v = (s.writePlain .dbgHalt (BitVec.allOnes 64) v).debugHaltGo ∧
    s.writeReg .dbgForceAddr (BitVec.allOnes 64) v = (s.writePlain .dbgForceAddr (BitVec.allOnes 64) v).debugForceGo := by
  have hv : bit (v &&& BitVec.allOnes 64) 63 = true := by rw [BitVec.and_allOnes]; exact h
  exact ⟨if_pos hv, if_pos hv, if_pos hv⟩

theorem writeReg_noGo (s : State) (v : BitVec 64) (h : bit v 63 = false) :
    s.writeReg .dbgMemCtl (BitVec.allOnes 64) v = s.writePlain .dbgMemCtl (BitVec.allOnes 64) v ∧
    s.writeReg .dbgHalt (BitVec.allOnes 64) v = s.writePlain .dbgHalt (BitVec.allOnes 64) v ∧
    s.writeReg .dbgForceAddr (BitVec.allOnes 64) v = s.writePlain .dbgForceAddr (BitVec.allOnes 64) v := by
  have hv : ¬ bit (v &&& BitVec.allOnes 64) 63 = true := by rw [BitVec.and_allOnes, h]; exact Bool.false_ne_true
  exact ⟨if_neg hv, if_neg hv, if_neg hv⟩

theorem debugMem_outcome (s : State) (v : BitVec 64) (env : Env) (hrun : s.isRunning = true) :
    let u := ((s.takeEnv env).noteBar .dbgMemCtl (BitVec.allOnes 64)).writePlain .dbgMemCtl (BitVec.allOnes 64) v
    (bit v 63 = false → exec (.debugMem v env) s = .next u) ∧
    (bit v 63 = true → s.debugMem ≠ none → exec (.debugMem v env) s = .next u) ∧
    (bit v 63 = true → s.debugMem = none → ∃ t, exec (.debugMem v env) s = .next t ∧ t.debugMem = some (u.reg .dbgMemCtl) ∧
      ∀ p ∈ u.debugReaches (bits (u.reg .dbgMemCtl) 6 42 * 64), p < 16 → bit t.sec.touched p = true) := by
  intro u
  have hexec : exec (.debugMem v env) s = .next (((s.takeEnv env).noteBar .dbgMemCtl (BitVec.allOnes 64)).writeReg .dbgMemCtl (BitVec.allOnes 64) v) :=
    exec_running hrun
  have hu : u.debugMem = s.debugMem := by
    have hwrite : DebugAs (debugOf (s.takeEnv env)) u := debugAs_writePlain ⟨rfl, rfl⟩
    rw [hwrite.1]
    obtain ⟨mem, units, words, he⟩ := takeEnv_eq s env
    rw [he]
    rfl
  refine ⟨fun h => hexec.trans (congrArg _ (writeReg_noGo _ v h).1), fun h hbusy => hexec.trans (congrArg _ ?_), fun h hfree => ?_⟩
  · refine (writeReg_go _ v h).1.trans (if_pos ?_)
    exact Option.isSome_iff_ne_none.2 (hu ▸ hbusy)
  · obtain ⟨hmem, htouched⟩ := debugMemGo_as (s := u) (hu.trans hfree)
    have hused := usedBy_debugUse 0 (u.debugReaches (bits (u.reg .dbgMemCtl) 6 42 * 64)) { u with debugMem := some (u.reg .dbgMemCtl) }
    have hbegun : memBegun u = { u with debugMem := some (u.reg .dbgMemCtl) }.debugUse 0 (u.debugReaches (bits (u.reg .dbgMemCtl) 6 42 * 64)) := by
      rw [memBegun, debugReaches_begun]
    rw [← hbegun] at hused
    refine ⟨_, hexec.trans (congrArg _ (writeReg_go _ v h).1), hmem.trans hused.debugMem, fun p hp h16 => ?_⟩
    exact (congrArg (fun t => bit t p) htouched).trans (touched_of_usedBy hused p hp h16)

/-! ### The HALT path (R487) -/

theorem writePlain_dbgHalt (s : State) (v : BitVec 64) :
    s.writePlain .dbgHalt (BitVec.allOnes 64) v = (s.setReg .dbgHalt (v &&& maskOf 0 15)).noteHost .dbgHalt (BitVec.allOnes 64) := by
  have hplain : s.writePlain .dbgHalt (BitVec.allOnes 64) v = _ := if_neg (show ¬ s.windowDark .dbgHalt = true from Bool.false_ne_true)
  rw [hplain, writeShadow_of_rws_zero rfl]
  rw [show s.writeFields .dbgHalt (BitVec.allOnes 64) v = s.setReg .dbgHalt (merge64 (s.reg .dbgHalt) (BitVec.allOnes 64) v &&& maskOf 0 15) from rfl, merge64_allOnes]

theorem writePlain_dbgForceAddr (s : State) (v : BitVec 64) :
    s.writePlain .dbgForceAddr (BitVec.allOnes 64) v = (s.setReg .dbgForceAddr (v &&& maskOf 0 27)).noteHost .dbgForceAddr (BitVec.allOnes 64) := by
  have hplain : s.writePlain .dbgForceAddr (BitVec.allOnes 64) v = _ := if_neg (show ¬ s.windowDark .dbgForceAddr = true from Bool.false_ne_true)
  rw [hplain, writeShadow_of_rws_zero rfl]
  rw [show s.writeFields .dbgForceAddr (BitVec.allOnes 64) v =
    s.setReg .dbgForceAddr (merge64 (s.reg .dbgForceAddr) (BitVec.allOnes 64) v &&& maskOf 0 27) from rfl, merge64_allOnes]

theorem bits_and_maskOf (v : BitVec 64) {n : Nat} (h : n ≤ 64) : bits (v &&& maskOf 0 n) 0 n = bits v 0 n := by
  have hmask : (maskOf 0 n : BitVec 64).toNat = 2 ^ n - 1 := by
    rw [maskOf, Nat.shiftLeft_zero, BitVec.toNat_ofNat]
    exact Nat.mod_eq_of_lt (lt_of_lt_of_le (Nat.sub_lt (Nat.two_pow_pos n) one_pos) (Nat.pow_le_pow_right two_pos h))
  rw [bits, bits, Nat.shiftRight_zero, Nat.shiftRight_zero, BitVec.toNat_and, hmask, Nat.and_two_pow_sub_one_eq_mod, Nat.mod_mod]

/-- The sheaf's paddocks depend on the gait registers alone, besides the masks and the time. -/
theorem sheafPaddocks_of_gait {s t : State} (hc : t.reg .gaitCtl = s.reg .gaitCtl) (hg : ∀ n, n < 64 → t.reg (.gaitSched n) = s.reg (.gaitSched n))
    (hm : t.masks = s.masks) (ht : t.time.gtc = s.time.gtc) (m : Nat) : t.sheafPaddocks m = s.sheafPaddocks m := by
  have hholders : t.holders m = s.holders m := by
    have hk : t.mask = s.mask := by funext p; simp only [State.mask, hm]
    rw [State.holders, State.holders, hk]
  unfold State.sheafPaddocks
  rw [runs_of_gait hc hg hm ht, hholders]

/-- A tile's stop requested. -/
def haltAsked (s : State) : State := { s with sec := { s.sec with halt := true } }

theorem debugHaltGo_of_tile {s : State} (h : s.field .dbgHalt 0 15 < 25600) :
    s.debugHaltGo = { (haltAsked s).debugUse 1 (s.sheafPaddocks (s.field .dbgHalt 0 15 / 64)) with
      progs := ((haltAsked s).debugUse 1 (s.sheafPaddocks (s.field .dbgHalt 0 15 / 64))).progs ++
        [{ kind := .halt, paddock := ((haltAsked s).debugUse 1 (s.sheafPaddocks (s.field .dbgHalt 0 15 / 64))).tilePaddock (s.field .dbgHalt 0 15), queue := 0,
           stride := ((haltAsked s).debugUse 1 (s.sheafPaddocks (s.field .dbgHalt 0 15 / 64))).stride, images := [{ tile := s.field .dbgHalt 0 15 }], reply := 0 }] } :=
  if_neg (Nat.not_le.2 h)

theorem debugHaltGo_of_none {s : State} (h : 25600 ≤ s.field .dbgHalt 0 15) : s.debugHaltGo = (haltAsked s).debugUse 1 [0] := if_pos h

theorem debugHalt_outcome (s : State) (v : BitVec 64) (hrun : s.isRunning = true) (hs : Tbl.sorted s.regs = true) :
    let n := bits v 0 15
    let u := (s.noteBar .dbgHalt (BitVec.allOnes 64)).writePlain .dbgHalt (BitVec.allOnes 64) v
    let touched (t : State) (ps : List Nat) : Prop := ∀ p ∈ ps, p < 16 → bit t.sec.touched p = true
    (bit v 63 = false → exec (.debugHalt v) s = .next u) ∧
    (bit v 63 = true → n < 25600 → ∃ t, exec (.debugHalt v) s = .next t ∧ t.sec.halt = true ∧ touched t (s.sheafPaddocks (n / 64)) ∧
      t.progs = s.progs ++ [{ kind := .halt, paddock := s.tilePaddock n, queue := 0, stride := s.stride, images := [{ tile := n }], reply := 0 }]) ∧
    (bit v 63 = true → 25600 ≤ n → ∃ t, exec (.debugHalt v) s = .next t ∧ t.sec.halt = true ∧ touched t [0] ∧ t.progs = s.progs) := by
  intro n u touched
  have hexec : exec (.debugHalt v) s = .next ((s.noteBar .dbgHalt (BitVec.allOnes 64)).writeReg .dbgHalt (BitVec.allOnes 64) v) := exec_running hrun
  have hu : u = ((s.noteBar .dbgHalt (BitVec.allOnes 64)).setReg .dbgHalt (v &&& maskOf 0 15)).noteHost .dbgHalt (BitVec.allOnes 64) := writePlain_dbgHalt _ v
  have hn : u.field .dbgHalt 0 15 = n := by
    rw [State.field, show u.reg .dbgHalt = v &&& maskOf 0 15 by rw [hu]; exact reg_setReg_same _ hs]
    exact bits_and_maskOf v (by norm_num)
  have hother : ∀ q : Reg, q.offset ≠ 0x2800080 → u.reg q = s.reg q := fun q hq => by
    rw [hu]
    exact reg_setReg_other (s := s.noteBar .dbgHalt (BitVec.allOnes 64)) _ hs hq
  have hc : u.reg .gaitCtl = s.reg .gaitCtl := hother _ (by decide)
  have hg : ∀ k, k < 64 → u.reg (.gaitSched k) = s.reg (.gaitSched k) := fun k hk => hother _ (by rw [Reg.offset]; omega)
  have hmasks : u.masks = s.masks := by rw [hu]; rfl
  have htime : u.time = s.time := by rw [hu]; rfl
  have hprogs : u.progs = s.progs := by rw [hu]; rfl
  refine ⟨fun h => hexec.trans (congrArg _ (writeReg_noGo _ v h).2.1), fun h hlt => ?_, fun h hge => ?_⟩
  · have hpads : u.sheafPaddocks (n / 64) = s.sheafPaddocks (n / 64) := sheafPaddocks_of_gait hc hg hmasks (by rw [htime]) _
    have hgo : u.debugHaltGo = _ := debugHaltGo_of_tile (by rw [hn]; exact hlt)
    have hused := usedBy_debugUse 1 (s.sheafPaddocks (n / 64)) (haltAsked u)
    rw [hn, hpads] at hgo
    refine ⟨_, hexec.trans (congrArg _ ((writeReg_go _ v h).2.1.trans hgo)), ?_, fun p hp h16 => touched_of_usedBy hused p hp h16, ?_⟩
    · exact congrArg Security.halt hused.sec
    · have hgtc : ((haltAsked u).debugUse 1 (s.sheafPaddocks (n / 64))).time = s.time := hused.time.trans htime
      have hreg : ∀ q : Reg, ((haltAsked u).debugUse 1 (s.sheafPaddocks (n / 64))).reg q = u.reg q := fun q => by
        rw [State.reg, hused.regs]
        rfl
      have hpaddock : ((haltAsked u).debugUse 1 (s.sheafPaddocks (n / 64))).tilePaddock n = s.tilePaddock n := by
        unfold State.tilePaddock
        rw [runs_of_gait ((hreg _).trans hc) (fun k hk => (hreg _).trans (hg k hk)) (hused.masks.trans hmasks) (by rw [hgtc])]
      have hstride : ((haltAsked u).debugUse 1 (s.sheafPaddocks (n / 64))).stride = s.stride := by
        rw [State.stride, State.stride, State.now, State.now, hgtc]
      dsimp only
      rw [hpaddock, hstride, hused.progs, show (haltAsked u).progs = s.progs from hprogs]
  · have hgo : u.debugHaltGo = _ := debugHaltGo_of_none (by rw [hn]; exact hge)
    have hused := usedBy_debugUse 1 [0] (haltAsked u)
    exact ⟨_, hexec.trans (congrArg _ ((writeReg_go _ v h).2.1.trans hgo)), congrArg Security.halt hused.sec, touched_of_usedBy hused, hused.progs.trans hprogs⟩

/-! ### The FORCE and SCAN paths (R487, R488) -/

/-- A use of FORCE noted. -/
def forceAsked (s : State) : State := { s with sec := { s.sec with force := true } }

theorem debugForceGo_of_reg {s : State} {r : Reg} (h : Reg.ofOffset (s.field .dbgForceAddr 0 27) = some r) :
    s.debugForceGo = ((forceAsked s).debugUse 2 ((forceAsked s).regPaddocks r)).forceReg r (s.reg .dbgForceValue) := by
  have hreg : Reg.ofOffset ((forceAsked s).field .dbgForceAddr 0 27) = some r := h
  unfold State.debugForceGo
  change (match Reg.ofOffset ((forceAsked s).field .dbgForceAddr 0 27) with
    | some r => ((forceAsked s).debugUse 2 ((forceAsked s).regPaddocks r)).forceReg r (s.reg .dbgForceValue)
    | none => (forceAsked s).debugUse 2 [0]) = _
  rw [hreg]

theorem debugForceGo_of_none {s : State} (h : Reg.ofOffset (s.field .dbgForceAddr 0 27) = none) : s.debugForceGo = (forceAsked s).debugUse 2 [0] := by
  have hreg : Reg.ofOffset ((forceAsked s).field .dbgForceAddr 0 27) = none := h
  unfold State.debugForceGo
  change (match Reg.ofOffset ((forceAsked s).field .dbgForceAddr 0 27) with
    | some r => ((forceAsked s).debugUse 2 ((forceAsked s).regPaddocks r)).forceReg r (s.reg .dbgForceValue)
    | none => (forceAsked s).debugUse 2 [0]) = _
  rw [hreg]

theorem debugForce_outcome (s : State) (v : BitVec 64) (hrun : s.isRunning = true) (hs : Tbl.sorted s.regs = true) :
    let u := (s.noteBar .dbgForceAddr (BitVec.allOnes 64)).writePlain .dbgForceAddr (BitVec.allOnes 64) v
    let x := { u with sec := { u.sec with force := true } }
    (bit v 63 = false → exec (.debugForce v) s = .next u) ∧
    (∀ r, bit v 63 = true → Reg.ofOffset (bits v 0 27) = some r →
      exec (.debugForce v) s = .next ((x.debugUse 2 (x.regPaddocks r)).forceReg r (s.reg .dbgForceValue))) ∧
    (bit v 63 = true → Reg.ofOffset (bits v 0 27) = none → exec (.debugForce v) s = .next (x.debugUse 2 [0])) := by
  intro u x
  have hexec : exec (.debugForce v) s = .next ((s.noteBar .dbgForceAddr (BitVec.allOnes 64)).writeReg .dbgForceAddr (BitVec.allOnes 64) v) := exec_running hrun
  have hu : u = ((s.noteBar .dbgForceAddr (BitVec.allOnes 64)).setReg .dbgForceAddr (v &&& maskOf 0 27)).noteHost .dbgForceAddr (BitVec.allOnes 64) :=
    writePlain_dbgForceAddr _ v
  have ho : u.field .dbgForceAddr 0 27 = bits v 0 27 := by
    rw [State.field, show u.reg .dbgForceAddr = v &&& maskOf 0 27 by rw [hu]; exact reg_setReg_same _ hs]
    exact bits_and_maskOf v (by norm_num)
  have hvalue : u.reg .dbgForceValue = s.reg .dbgForceValue := by
    rw [hu]
    exact reg_setReg_other (s := s.noteBar .dbgForceAddr (BitVec.allOnes 64)) _ hs (by decide)
  refine ⟨fun h => hexec.trans (congrArg _ (writeReg_noGo _ v h).2.2), fun r h hr => hexec.trans (congrArg _ ?_), fun h hr => hexec.trans (congrArg _ ?_)⟩
  · have hgo := debugForceGo_of_reg (s := u) (ho.symm ▸ hr)
    rw [hvalue] at hgo
    exact (writeReg_go _ v h).2.2.trans hgo
  · exact (writeReg_go _ v h).2.2.trans (debugForceGo_of_none (s := u) (ho.symm ▸ hr))

theorem debugScan_outcome (s : State) (hrun : s.isRunning = true) :
    (s.portEn = false → exec .debugScan s = .next s) ∧
    (s.portEn = true → ∃ t, exec .debugScan s = .next t ∧ t.sec.scan = true ∧ (∀ p ∈ List.range 16, p < 16 → bit t.sec.touched p = true) ∧
      t.tiles = s.tiles ∧ t.mem = s.mem) := by
  have hexec : exec .debugScan s = .next (if s.portEn then { s with sec := { s.sec with scan := true } }.debugUse 3 paddockNumbers else s) := exec_running hrun
  refine ⟨fun h => hexec.trans (congrArg _ (if_neg (by rw [h]; exact Bool.false_ne_true))), fun h => ?_⟩
  have hused := usedBy_debugUse 3 paddockNumbers { s with sec := { s.sec with scan := true } }
  exact ⟨_, hexec.trans (congrArg _ (if_pos h)), congrArg Security.scan hused.sec, touched_of_usedBy hused, hused.tiles, hused.mem⟩

/-- Settles O55: each GO by its register, and the uses by what a use changes. -/
theorem debugPaths : Obligations.DebugPaths := by
  unfold Obligations.DebugPaths
  intro s hrun touched
  exact ⟨exec_running hrun, fun v env => debugMem_outcome s v env hrun, fun v hs => debugHalt_outcome s v hrun hs, fun v hs => debugForce_outcome s v hrun hs,
    (debugScan_outcome s hrun).1, (debugScan_outcome s hrun).2⟩

end Sys2Proof.Laws
end


section
/-!
SUPPORT. The input monitor, training of the host link and host reset (R379, R380, R440, R458, R460, R473).
-/
namespace Sys2Proof.Laws
open Sys2Proof.Machine Sys2Proof.Safety

section
variable {s : State} {mv : Nat}

theorem outOfRange_iff : outOfRange mv = true ↔ mv < 40000 ∨ 50000 < mv := by
  rw [outOfRange, Bool.or_eq_true, decide_eq_true_eq, decide_eq_true_eq]

theorem outOfRange_false_iff : outOfRange mv = false ↔ ¬ (mv < 40000 ∨ 50000 < mv) := by rw [← Bool.not_eq_true, outOfRange_iff]

/-! ### Readings of the input -/

theorem readInput_of_stopped (h : s.isRunning = false) : s.readInput mv = s.noteInput mv := by
  refine if_neg ?_
  rw [show (s.noteInput mv).isRunning = false from h, Bool.false_and, Bool.false_and]
  exact Bool.false_ne_true

theorem readInput_of_first (hrun : s.isRunning = true) (hout : outOfRange mv = true) (hold : s.power.excursion = false) :
    s.readInput mv = { s with power := { s.power with inputMv := BitVec.ofNat 16 mv, excursion := true } }.raise srcPower (9, 1) (pack 128 [(0, 16, mv)]) := by
  refine (if_pos ?_).trans ?_
  · rw [show (s.noteInput mv).isRunning = true from hrun, hout, hold]
    rfl
  · rw [State.noteInput, hout]
    rfl

theorem readInput_of_later (hout : outOfRange mv = true) (hold : s.power.excursion = true) :
    s.readInput mv = { s with power := { s.power with inputMv := BitVec.ofNat 16 mv } } := by
  refine (if_neg ?_).trans ?_
  · rw [hold, Bool.not_true, Bool.and_false]
    exact Bool.false_ne_true
  · rw [State.noteInput, hout, ← hold]

theorem inputExcursion_of_out (h : outOfRange mv = true) : s.inputExcursion mv = s.readInput mv := if_pos h

theorem inputExcursion_of_in (h : outOfRange mv = false) : s.inputExcursion mv = s := if_neg (ne_true_of_eq_false h)

theorem endExcursion_of_out (h : outOfRange mv = true) : s.endExcursion mv = s := if_pos h

theorem endExcursion_of_in (h : outOfRange mv = false) :
    s.endExcursion mv = { s with power := { s.power with inputMv := BitVec.ofNat 16 mv, excursion := false } } := by
  refine (if_neg (ne_true_of_eq_false h)).trans ?_
  rw [State.noteInput, h]

theorem inputFail_of_bad (h : mv < 38000 ∨ 53000 < mv) : s.inputFail mv = (s.readInput mv).holdPart failInput := if_neg (by omega)

theorem inputFail_of_good (hlo : 38000 ≤ mv) (hhi : mv ≤ 53000) : s.inputFail mv = s := if_pos ⟨hlo, hhi⟩

theorem holdPart_of_stopped (code : Nat) (h : s.isRunning = false) : s.holdPart code = s := if_neg (ne_true_of_eq_false h)

theorem holdPart_of_running (code : Nat) (h : s.isRunning = true) :
    s.holdPart code = { s with boot := { s.boot with power := .held, failCode := BitVec.ofNat 8 code } } := if_pos h

end

theorem stopped_input_outcome (s : State) (mv : Nat) (hstop : s.isRunning = false) :
    let seen (out : Bool) : State := { s with power := { s.power with inputMv := BitVec.ofNat 16 mv, excursion := out } }
    (mv < 40000 ∨ 50000 < mv → exec (.inputExcursion mv) s = .next (seen true) ∧ exec (.inputExcursionEnd mv) s = .next s) ∧
    (40000 ≤ mv → mv ≤ 50000 → exec (.inputExcursion mv) s = .next s ∧ exec (.inputExcursionEnd mv) s = .next (seen false)) ∧
    (mv < 38000 ∨ 53000 < mv → exec (.inputFail mv) s = .next (seen true)) ∧
    (38000 ≤ mv → mv ≤ 53000 → exec (.inputFail mv) s = .next s) := by
  intro seen
  have hread : outOfRange mv = true → s.readInput mv = seen true := fun h => by rw [readInput_of_stopped hstop, State.noteInput, h]
  refine ⟨fun h => ⟨congrArg Host.Outcome.next ?_, congrArg Host.Outcome.next ?_⟩, fun hlo hhi => ⟨congrArg Host.Outcome.next ?_, congrArg Host.Outcome.next ?_⟩, fun h => congrArg Host.Outcome.next ?_,
    fun hlo hhi => congrArg Host.Outcome.next (inputFail_of_good hlo hhi)⟩
  · exact (inputExcursion_of_out (outOfRange_iff.2 h)).trans (hread (outOfRange_iff.2 h))
  · exact endExcursion_of_out (outOfRange_iff.2 h)
  · exact inputExcursion_of_in (outOfRange_false_iff.2 (by omega))
  · exact endExcursion_of_in (outOfRange_false_iff.2 (by omega))
  · rw [inputFail_of_bad h, hread (outOfRange_iff.2 (by omega))]
    exact holdPart_of_stopped _ hstop

/-- An input failure of a running part: the excursion is noted, and the part is held with INPUT. -/
theorem input_fail_outcome (s u : State) (mv : Nat) (hrun : s.isRunning = true) (h : mv < 38000 ∨ 53000 < mv) (hread : s.readInput mv = u) (hboot : u.boot = s.boot) :
    exec (.inputFail mv) s = .next { u with boot := { s.boot with power := .held, failCode := 0x08 } } := by
  have hurun : u.isRunning = true := by rw [State.isRunning, hboot]; exact hrun
  refine congrArg Host.Outcome.next ?_
  rw [inputFail_of_bad h, hread, holdPart_of_running _ hurun, hboot]
  rfl

theorem running_input_outcome (s : State) (mv : Nat) (hrun : s.isRunning = true) :
    let seen := { s with power := { s.power with inputMv := BitVec.ofNat 16 mv } }
    let outside := mv < 40000 ∨ 50000 < mv
    let told := { s with power := { s.power with inputMv := BitVec.ofNat 16 mv, excursion := true } }.raise srcPower (9, 1) (pack 128 [(0, 16, mv)])
    (¬ outside → exec (.inputExcursion mv) s = .next s) ∧
    (outside → s.power.excursion = false → exec (.inputExcursion mv) s = .next told) ∧
    (outside → s.power.excursion = true → exec (.inputExcursion mv) s = .next seen) ∧
    (¬ outside → exec (.inputExcursionEnd mv) s = .next { s with power := { s.power with inputMv := BitVec.ofNat 16 mv, excursion := false } }) ∧
    (outside → exec (.inputExcursionEnd mv) s = .next s) ∧
    (mv < 38000 ∨ 53000 < mv → ∀ u, (s.power.excursion = true ∧ u = seen) ∨ (s.power.excursion = false ∧ u = told) →
      exec (.inputFail mv) s = .next { u with boot := { s.boot with power := .held, failCode := 0x08 } }) ∧
    (38000 ≤ mv → mv ≤ 53000 → exec (.inputFail mv) s = .next s) := by
  intro seen outside told
  refine ⟨fun h => congrArg Host.Outcome.next ?_, fun h hold => congrArg Host.Outcome.next ?_, fun h hold => congrArg Host.Outcome.next ?_, fun h => congrArg Host.Outcome.next ?_, fun h => congrArg Host.Outcome.next ?_, fun h u hu => ?_,
    fun hlo hhi => congrArg Host.Outcome.next (inputFail_of_good hlo hhi)⟩
  · exact inputExcursion_of_in (outOfRange_false_iff.2 h)
  · exact (inputExcursion_of_out (outOfRange_iff.2 h)).trans (readInput_of_first hrun (outOfRange_iff.2 h) hold)
  · exact (inputExcursion_of_out (outOfRange_iff.2 h)).trans (readInput_of_later (outOfRange_iff.2 h) hold)
  · exact endExcursion_of_in (outOfRange_false_iff.2 h)
  · exact endExcursion_of_out (outOfRange_iff.2 h)
  · have hout : outOfRange mv = true := outOfRange_iff.2 (by omega)
    rcases hu with ⟨hold, rfl⟩ | ⟨hold, rfl⟩
    · exact input_fail_outcome s _ mv hrun h (readInput_of_later hout hold) rfl
    · exact input_fail_outcome s _ mv hrun h (readInput_of_first hrun hout hold) (State.raise_boot ..)

/-! ### The host link (R379, R380, R473) -/

theorem host_train_outcome (s : State) (width rate : Nat) (hrun : s.isRunning = true) :
    let trained := { s with host := { s.host with up := true, width := width, rate := rate } }
    (width = 8 → rate = 3 → exec (.hostLinkTrain width rate) s = .next trained) ∧
    ((width = 8 ∨ width = 4) → 1 ≤ rate → rate ≤ 3 → ¬ (width = 8 ∧ rate = 3) → exec (.hostLinkTrain width rate) s = .next
      (trained.raise srcHost (7, 3) (pack 128 [(0, 4, width), (4, 3, rate), (7, 1, 0)]))) := by
  intro trained
  have hexec : exec (.hostLinkTrain width rate) s = .next (s.trainHost width rate) := exec_running hrun
  refine ⟨fun hw hr => hexec.trans (congrArg Host.Outcome.next ?_), fun hw h1 h3 hless => hexec.trans (congrArg Host.Outcome.next ?_)⟩
  · exact (if_neg (by omega)).trans (if_pos ⟨hw, hr⟩)
  · exact (if_neg (by omega)).trans (if_neg hless)

theorem host_reset_outcome (s : State) (hrun : s.isRunning = true) :
    ∃ t, exec .hostReset s = .next t ∧ t.host.up = false ∧ t.host.copies = [] ∧ t.host.slotsRead = [] ∧ t.host.resetPending = true ∧
      t.host.fetched = s.host.fetched ∧ (∀ r ∈ t.host.replies, r.dropped = true) ∧ t.host.replies.length = s.host.replies.length ∧
      t.host.fault = true ∧ t.mem = s.mem ∧ t.regs = s.regs ∧ ∃ e ∈ t.gleaner.arriving, e.cls = 7 ∧ e.code = 3 := by
  obtain ⟨e, he, hcls, hcode, -⟩ := mem_raise_arriving { s with host := { s.host with
      up := false, width := 0, rate := 0, resetPending := true, slotsRead := [], copies := [], data := [], poisoned := false,
      replies := s.host.replies.map fun (r : Reply) => { r with dropped := true } } } srcHost evtHostLink (hostLinkPayload 0 0 true)
  refine ⟨_, exec_running hrun, rfl, rfl, rfl, rfl, rfl, fun r hr => ?_, List.length_map .., rfl, rfl, rfl, e, he, hcls, hcode⟩
  obtain ⟨r', -, rfl⟩ := List.mem_map.1 hr
  rfl

/-- Settles O56: by the range of the reading and the state of the excursion, and by the width and rate of the link. -/
theorem inputAndHostLink : Obligations.InputAndHostLink := by
  unfold Obligations.InputAndHostLink
  refine ⟨fun s mv hstop => stopped_input_outcome s mv hstop, fun s mv width rate hrun => ?_⟩
  obtain ⟨hin, hfirst, hlater, hback, hstill, hfail, hgood⟩ := running_input_outcome s mv hrun
  exact ⟨hin, hfirst, hlater, hback, hstill, hfail, hgood, host_train_outcome s width rate hrun, host_reset_outcome s hrun⟩

end Sys2Proof.Laws
end


section
/-!
SUPPORT. A held part in which a tile still waits at a barrier for one that will not come (R237, R459, R503).
-/
namespace Sys2Proof.Laws
open Sys2Proof.Machine Sys2Proof.Safety

/-- A held part: tile 0 waits at a barrier for tile 1, which is idle. -/
def heldAtBarrier : State :=
  { State.reset with
    boot := { State.reset.boot with power := .held },
    tiles := [(0, { seqState := .barrier })],
    sheaves := [(0, { arrivals := [{ pos := 0, barrier := 0, mask := 2, time := 0 }] })] }

/-- The state in which tile 0 is after a command. -/
def tileAfter (o : Host.Outcome State Fault Refusal) : Option SeqState :=
  match o with
  | .next t => some (t.tile 0).seqState
  | _ => none

/-- Refutes O57: a BAR, SWAIT or END issues nothing while the part is held, but the waiting tiles of its sheaf are settled after it all the
same, and tile 0 faults with BAR_PEER. -/
theorem not_managementPort : ¬ Obligations.ManagementPort := by
  rintro ⟨hheld, -⟩
  have hstill : exec (.bar 1) heldAtBarrier = .next heldAtBarrier := hheld heldAtBarrier (.bar 1) (by decide +kernel) trivial
  have hafter : tileAfter (exec (.bar 1) heldAtBarrier) = some .faulted := by decide +kernel
  have hbefore : tileAfter (.next heldAtBarrier) = some .barrier := by decide +kernel
  exact absurd (hafter.symm.trans ((congrArg tileAfter hstill).trans hbefore)) (by decide)

end Sys2Proof.Laws
end


section
/-!
SUPPORT. Reset and the power-up reset: the first step that fails, the image that boots and what the boot records (R428, R429, R459 to R468).
-/
namespace Sys2Proof.Laws
open Sys2Proof.Machine Sys2Proof.Safety

/-! ### Reset (R10, R302, R314, R405, R444, R474) -/

theorem reset_state : State.reset.now = 0 ∧ State.reset.isRunning = true ∧ State.reset.pending = [] ∧ memoryOk State.reset = true ∧
    (∀ n, (State.reset.tile n).seqState = .idle ∧ (State.reset.tile n).pc = 0 ∧ ∀ i, (State.reset.tile n).s i = 0) ∧
    (State.reset.pdk 0).state = .active ∧ (∀ p, p ≠ 0 → (State.reset.pdk p).state = .free) ∧
    (∀ r < 512, State.reset.region r = if r ≤ 7 then { state := .owned, owner := 0 } else {}) ∧ (∀ m, (State.reset.sheaf m).active = false) ∧
    (∀ a, Memory.byte State.reset.mem a = 0) ∧ (∀ u, (State.reset.unit u).clear = true) ∧ (∀ r, State.reset.reg r = r.reset) ∧
    State.reset.gleaner = {} ∧ State.reset.colls = [] ∧ ∀ t, (State.reset.tether t).state = .closed :=
  ⟨rfl, rfl, rfl, rfl, fun _ => ⟨rfl, rfl, fun _ => rfl⟩, rfl, fun _ hp => if_neg hp, fun _ _ => rfl, fun _ => rfl, fun _ => rfl, fun _ => rfl, fun _ => rfl,
    rfl, rfl, fun _ => rfl⟩

/-! ### What the boot ROM finds (R428, R461, R462) -/

/-- The fuses as loaded, with those blown since. -/
def loadedFuses (s : State) (b : Boot) : Fuses :=
  match b.blown with
  | none => s.sec.fuses
  | some g => blowFuses s.sec.fuses g

section
variable {s : State} {b : Boot}

theorem loaded_eq : (b.blown.map (blowFuses s.sec.fuses)).getD s.sec.fuses = loadedFuses s b := by
  unfold loadedFuses
  cases b.blown <;> rfl

theorem bootFind_eq : s.bootFind b =
    if !b.fuseOk || decide ((loadedFuses s b).lifecycle = lifeScrapped) then { fuses := loadedFuses s b }
    else if bootAccepts (loadedFuses s b) (s.slotImage b 0) b.signedA then { fuses := loadedFuses s b, image := some (s.slotImage b 0, 1) }
    else { fuses := loadedFuses s b, rejectedA := true,
           image := if bootAccepts (loadedFuses s b) (s.slotImage b 1) b.signedB then some (s.slotImage b 1, 2) else none } := by
  unfold State.bootFind
  rw [loaded_eq]

theorem bootFind_fuses : (s.bootFind b).fuses = loadedFuses s b := by
  rw [bootFind_eq]
  split
  · rfl
  · split <;> rfl

theorem looks (hfuse : b.fuseOk = true) (hlife : (loadedFuses s b).lifecycle ≠ 4) :
    ¬ (!b.fuseOk || decide ((loadedFuses s b).lifecycle = lifeScrapped)) = true := by
  rw [hfuse, decide_eq_false (show ¬ (loadedFuses s b).lifecycle = lifeScrapped from hlife)]
  exact Bool.false_ne_true

theorem image_of_A (hfuse : b.fuseOk = true) (hlife : (loadedFuses s b).lifecycle ≠ 4)
    (hA : bootAccepts (loadedFuses s b) (s.slotImage b 0) b.signedA = true) : (s.bootFind b).image = some (s.slotImage b 0, 1) := by
  rw [bootFind_eq, if_neg (looks hfuse hlife), if_pos hA]

theorem image_of_not_A (hfuse : b.fuseOk = true) (hlife : (loadedFuses s b).lifecycle ≠ 4)
    (hA : ¬ bootAccepts (loadedFuses s b) (s.slotImage b 0) b.signedA = true) :
    (s.bootFind b).image = if bootAccepts (loadedFuses s b) (s.slotImage b 1) b.signedB then some (s.slotImage b 1, 2) else none := by
  rw [bootFind_eq, if_neg (looks hfuse hlife), if_neg hA]

theorem bootAccepts_iff {f : Fuses} {x : FwImage} {signed : Bool} : bootAccepts f x signed = true ↔
    x.magic = 0x57464152 ∧ 2948 + x.length ≤ 2 ^ 20 ∧ x.rb ≤ 64 ∧ leNat (shakeDigest x.key) = f.vh.toNat ∧ signed = true ∧ f.rbMin ≤ x.rb := by
  have hbytes : x.bytes ≤ slotLength ↔ 2948 + x.length ≤ 2 ^ 20 := by
    rw [FwImage.bytes, fwHeader, fwSignature, slotLength]
    omega
  simp only [bootAccepts, Bool.and_eq_true, decide_eq_true_eq, hbytes, and_assoc]
  exact Iff.rfl

end

/-! ### The first step that fails (R461, R464, R467) -/

section
variable {b : Boot} {x : BootFound}

theorem bootFailure_fuse (h : b.fuseOk = false) : bootFailure b x = some (failFuse, 0) := if_pos (by rw [h]; rfl)

theorem bootFailure_after_fuse (h : b.fuseOk = true) : bootFailure b x =
    if x.fuses.lifecycle = lifeScrapped then some (failScrapped, 0)
    else if x.image.isNone then some (failFirmware, 0)
    else if !b.railOk then some (failRail, 0)
    else
      match b.bistOuter, b.hbmFail with
      | some src, _ => some (failBistOuter, src)
      | none, some src => some (failHbm, src)
      | none, none => if maxFailedSheaves < b.sheaves.length then some (failSheaves, 0) else none := by
  unfold bootFailure
  rw [h]
  exact if_neg Bool.false_ne_true

theorem bootFailure_scrapped (h : b.fuseOk = true) (hlife : x.fuses.lifecycle = 4) : bootFailure b x = some (failScrapped, 0) :=
  (bootFailure_after_fuse h).trans (if_pos hlife)

theorem bootFailure_firmware (h : b.fuseOk = true) (hlife : x.fuses.lifecycle ≠ 4) (himage : x.image = none) :
    bootFailure b x = some (failFirmware, 0) := by
  refine (bootFailure_after_fuse h).trans ((if_neg hlife).trans (if_pos ?_))
  rw [himage]
  rfl

section
variable (h : b.fuseOk = true) (hlife : x.fuses.lifecycle ≠ 4) {i : FwImage × BitVec 2} (himage : x.image = some i)
include h hlife himage

theorem bootFailure_after_image : bootFailure b x =
    if !b.railOk then some (failRail, 0)
    else
      match b.bistOuter, b.hbmFail with
      | some src, _ => some (failBistOuter, src)
      | none, some src => some (failHbm, src)
      | none, none => if maxFailedSheaves < b.sheaves.length then some (failSheaves, 0) else none := by
  refine (bootFailure_after_fuse h).trans ((if_neg hlife).trans (if_neg ?_))
  rw [himage]
  exact Bool.false_ne_true

theorem bootFailure_rail (hrail : b.railOk = false) : bootFailure b x = some (failRail, 0) :=
  (bootFailure_after_image h hlife himage).trans (if_pos (by rw [hrail]; rfl))

theorem bootFailure_bist {src : Nat} (hrail : b.railOk = true) (hbist : b.bistOuter = some src) : bootFailure b x = some (failBistOuter, src) := by
  refine (bootFailure_after_image h hlife himage).trans ((if_neg (by rw [hrail]; exact Bool.false_ne_true)).trans ?_)
  rw [hbist]

theorem bootFailure_hbm {src : Nat} (hrail : b.railOk = true) (hbist : b.bistOuter = none) (hhbm : b.hbmFail = some src) :
    bootFailure b x = some (failHbm, src) := by
  refine (bootFailure_after_image h hlife himage).trans ((if_neg (by rw [hrail]; exact Bool.false_ne_true)).trans ?_)
  rw [hbist, hhbm]

theorem bootFailure_last (hrail : b.railOk = true) (hbist : b.bistOuter = none) (hhbm : b.hbmFail = none) :
    bootFailure b x = if 8 < b.sheaves.length then some (failSheaves, 0) else none := by
  refine (bootFailure_after_image h hlife himage).trans ((if_neg (by rw [hrail]; exact Bool.false_ne_true)).trans ?_)
  rw [hbist, hhbm]
  rfl

end

theorem bootRecord_of_failure {code src : Nat} (h : bootFailure b x = some (code, src)) :
    (bootRecord b x).power = .held ∧ (bootRecord b x).failCode = BitVec.ofNat 8 code := by
  unfold bootRecord
  rw [h]
  exact ⟨rfl, rfl⟩

theorem bootRecord_of_success {y : FwImage} {k : BitVec 2} (h : bootFailure b x = none) (himage : x.image = some (y, k)) :
    (bootRecord b x).power = .running ∧ (bootRecord b x).failCode = 0 ∧ (bootRecord b x).slot = k := by
  unfold bootRecord
  rw [h, himage]
  exact ⟨rfl, rfl, rfl⟩

theorem bootFuses_of_success {y : FwImage} {k : BitVec 2} (h : bootFailure b x = none) (himage : x.image = some (y, k)) :
    bootFuses b x = if y.advance then { x.fuses with rbMin := max x.fuses.rbMin y.rb } else x.fuses := by
  unfold bootFuses
  rw [h, himage]

end

/-! ### The events of boot (R462, R468) -/

/-- Events were raised, and nothing else changed but what they set. -/
def EventsRaised (s t : State) : Prop :=
  ∃ g h d, t = { s with gleaner := g, host := h, devSet := d } ∧ ∀ e ∈ s.gleaner.arriving, e ∈ g.arriving

theorem eventsRaised_self (s : State) : EventsRaised s s := ⟨_, _, _, rfl, fun _ he => he⟩

theorem eventsRaised_raise {s t : State} (src : Nat) (c : EventCode) (payload : BitVec 128) (h : EventsRaised s t) : EventsRaised s (t.raise src c payload) := by
  obtain ⟨g, host, d, rfl, hold⟩ := h
  have hmem : ∀ ev, ∀ e ∈ s.gleaner.arriving, e ∈ g.arriving ++ [ev] := fun _ e he => List.mem_append_left _ (hold e he)
  rw [State.raise, State.raiseAt]
  dsimp only
  split
  · exact ⟨_, _, _, rfl, hmem _⟩
  · exact ⟨_, _, _, rfl, hmem _⟩

theorem eventsRaised_foldl {α : Type} {s t : State} {f : State → α → State} (hf : ∀ t x, EventsRaised s t → EventsRaised s (f t x)) (l : List α)
    (h : EventsRaised s t) : EventsRaised s (l.foldl f t) := by
  induction l generalizing t with
  | nil => exact h
  | cons x l ih => exact ih (hf t x h)

theorem eventsRaised_testFails (b : Boot) {s t : State} (h : EventsRaised s t) :
    EventsRaised s (b.sheaves.foldl (fun s x => s.raiseTestFail x.1 x.2.1 x.2.2 true) t) :=
  eventsRaised_foldl (fun _ _ ht => eventsRaised_raise _ _ _ ht) _ h

theorem eventsRaised_bootEvents (s : State) (b : Boot) : EventsRaised s (s.bootEvents b) := by
  unfold State.bootEvents
  refine eventsRaised_testFails b ?_
  split
  · exact eventsRaised_raise _ _ _ (eventsRaised_self s)
  · exact eventsRaised_self s

theorem fallback_told (s : State) (b : Boot) (h : s.boot.slot = 2) : ∃ e ∈ (s.bootEvents b).gleaner.arriving, e.cls = 10 ∧ e.code = 1 := by
  obtain ⟨e, he, hcls, hcode, -⟩ := mem_raise_arriving s srcFarrier evtFwFallback (pack 128 [(0, 32, s.sec.fwVersion.toNat)])
  obtain ⟨g, host, d, ht, hkeep⟩ := eventsRaised_testFails b (eventsRaised_self (s.raise srcFarrier evtFwFallback (pack 128 [(0, 32, s.sec.fwVersion.toNat)])))
  unfold State.bootEvents
  rw [if_pos h, ht]
  exact ⟨e, hkeep e he, hcls, hcode⟩

/-! ### The power-up reset -/

theorem powerUp_of_stopped {s : State} (b : Boot) (h : s.isRunning = false) :
    s.powerUp b = if (s.poweredUp b).isRunning then (s.poweredUp b).bootEvents b else s.poweredUp b := by
  refine if_neg ?_
  rw [State.mayPowerUp, h]
  exact Bool.false_ne_true

theorem powerUp_of_running {s : State} (b : Boot) (h : s.isRunning = true) (ho : s.boot.outer = false) : s.powerUp b = s := by
  refine if_pos ?_
  rw [State.mayPowerUp, h, ho]
  rfl

theorem eventsRaised_powerUp {s : State} (b : Boot) (h : s.isRunning = false) : EventsRaised (s.poweredUp b) (s.powerUp b) := by
  rw [powerUp_of_stopped b h]
  split
  · exact eventsRaised_bootEvents _ b
  · exact eventsRaised_self _

/-- What the events leave is as the power-up reset brings it. -/
theorem fields_of_eventsRaised {s t : State} {b : Boot} (h : EventsRaised (s.poweredUp b) t) :
    t.now = 0 ∧ t.pending = s.pending ∧ t.flash = s.flash ∧
      t.tiles = [] ∧ t.sheaves = [] ∧ t.regs = [] ∧ t.shadows = [] ∧ t.masks = [] ∧ t.paddocks = [] ∧ t.regions = [] ∧ t.hbm = [] ∧ t.tethers = [] ∧
      t.colls = [] ∧ t.mem = s.mem.filter (fun c => decide (0x800000000000 ≤ c.1)) ∧
      t.power.inputMv = s.power.inputMv ∧ t.power.excursion = s.power.excursion := by
  obtain ⟨g, host, d, rfl, -⟩ := h
  exact ⟨rfl, rfl, rfl, rfl, rfl, rfl, rfl, rfl, rfl, rfl, rfl, rfl, rfl, rfl, rfl, rfl⟩

theorem boot_of_eventsRaised {s t : State} {b : Boot} (h : EventsRaised (s.poweredUp b) t) :
    t.boot = bootRecord b (s.bootFind b) ∧ t.sec.fuses = bootFuses b (s.bootFind b) ∧
      t.sec.fwVersion = ((s.bootFind b).image.map fun i => i.1.version).getD 0 := by
  obtain ⟨g, host, d, rfl, -⟩ := h
  exact ⟨rfl, rfl, rfl⟩

theorem held_of_failure {s t : State} {b : Boot} {code src : Nat} (ht : t.boot = bootRecord b (s.bootFind b))
    (h : bootFailure b (s.bootFind b) = some (code, src)) : t.boot.power = .held ∧ t.boot.failCode = BitVec.ofNat 8 code := by
  rw [ht]
  exact bootRecord_of_failure h

section
variable {s t : State} {b : Boot}

/-- An image that boots, with its code in BST_BOOT.SLOT. -/
structure Boots (s t : State) (b : Boot) (k : Nat) : Prop where
  power : t.boot.power = .running
  failCode : t.boot.failCode = 0
  slot : t.boot.slot.toNat = k + 1
  version : t.sec.fwVersion = (s.slotImage b k).version
  fuses : t.sec.fuses = if (s.slotImage b k).advance then { loadedFuses s b with rbMin := max (loadedFuses s b).rbMin (s.slotImage b k).rb } else loadedFuses s b

theorem boots_of_success {k : Nat} {c : BitVec 2} (ht : EventsRaised (s.poweredUp b) t) (h : bootFailure b (s.bootFind b) = none)
    (himage : (s.bootFind b).image = some (s.slotImage b k, c)) (hc : c.toNat = k + 1) : Boots s t b k := by
  obtain ⟨hboot, hfuses, hversion⟩ := boot_of_eventsRaised ht
  obtain ⟨hpower, hcode, hslot⟩ := bootRecord_of_success h himage
  refine ⟨by rw [hboot, hpower], by rw [hboot, hcode], by rw [hboot, hslot, hc], by rw [hversion, himage]; rfl, ?_⟩
  rw [hfuses, bootFuses_of_success h himage, bootFind_fuses]

/-- Once an image is found, the steps after it decide. -/
theorem outcome_of_image {k : Nat} {c : BitVec 2} (ht : EventsRaised (s.poweredUp b) t) (hfuse : b.fuseOk = true) (hlife : (loadedFuses s b).lifecycle ≠ 4)
    (himage : (s.bootFind b).image = some (s.slotImage b k, c)) (hc : c.toNat = k + 1) :
    let heldBy (code : BitVec 8) : Prop := t.boot.power = .held ∧ t.boot.failCode = code
    (b.railOk = false → heldBy 0x04) ∧
    (b.railOk = true → b.bistOuter ≠ none → heldBy 0x05) ∧
    (b.railOk = true → b.bistOuter = none → b.hbmFail ≠ none → heldBy 0x06) ∧
    (b.railOk = true → b.bistOuter = none → b.hbmFail = none → (8 < b.sheaves.length → heldBy 0x07) ∧ (b.sheaves.length ≤ 8 → Boots s t b k)) := by
  intro heldBy
  obtain ⟨hboot, -, -⟩ := boot_of_eventsRaised ht
  have hl : (s.bootFind b).fuses.lifecycle ≠ 4 := by rw [bootFind_fuses]; exact hlife
  refine ⟨fun hrail => held_of_failure hboot (bootFailure_rail hfuse hl himage hrail), fun hrail hbist => ?_, fun hrail hbist hhbm => ?_, fun hrail hbist hhbm => ?_⟩
  · obtain ⟨src, hsrc⟩ := Option.ne_none_iff_exists'.1 hbist
    exact held_of_failure hboot (bootFailure_bist hfuse hl himage hrail hsrc)
  · obtain ⟨src, hsrc⟩ := Option.ne_none_iff_exists'.1 hhbm
    exact held_of_failure hboot (bootFailure_hbm hfuse hl himage hrail hbist hsrc)
  · have hlast := bootFailure_last hfuse hl himage hrail hbist hhbm
    exact ⟨fun hmany => held_of_failure hboot (hlast.trans (if_pos hmany)),
      fun hfew => boots_of_success ht (hlast.trans (if_neg (Nat.not_lt.2 hfew))) himage hc⟩

end

theorem fallback_of_slot {s : State} {b : Boot} (hstop : s.isRunning = false) (hrun : (s.powerUp b).boot.power = .running)
    (hslot : (s.powerUp b).boot.slot.toNat = 2) : ∃ e ∈ (s.powerUp b).gleaner.arriving, e.cls = 10 ∧ e.code = 1 := by
  obtain ⟨hboot, -, -⟩ := boot_of_eventsRaised (eventsRaised_powerUp b hstop)
  have hrunning : (s.poweredUp b).isRunning = true := by
    rw [hboot] at hrun
    rw [State.isRunning, show (s.poweredUp b).boot = bootRecord b (s.bootFind b) from rfl, hrun]
    rfl
  have htwo : (s.poweredUp b).boot.slot = 2 := by
    rw [hboot] at hslot
    exact BitVec.eq_of_toNat_eq hslot
  rw [powerUp_of_stopped b hstop, if_pos hrunning]
  exact fallback_told _ b htwo

/-- Settles O58: the reset state by evaluation, and the power-up reset by the first step of its boot that fails. -/
theorem resetState : Obligations.ResetState := by
  unfold Obligations.ResetState
  refine ⟨reset_state, fun s b => ⟨fun hrun ho => congrArg Host.Outcome.next (powerUp_of_running b hrun ho), fun hstop => ⟨s.powerUp b, rfl, ?_⟩⟩⟩
  have ht := eventsRaised_powerUp b hstop
  obtain ⟨hnow, hpending, hflash, htiles, hsheaves, hregs, hshadows, hmasks, hpaddocks, hregions, hhbm, htethers, hcolls, hmem, hmv, hexc⟩ := fields_of_eventsRaised ht
  obtain ⟨hboot, -, -⟩ := boot_of_eventsRaised ht
  refine ⟨hnow, hpending, hflash, htiles, hsheaves, hregs, hshadows, hmasks, hpaddocks, hregions, hhbm, htethers, hcolls, hmem, hmv, hexc, ?_⟩
  intro f image accepted A B heldBy
  have hA : A ↔ bootAccepts (loadedFuses s b) (s.slotImage b 0) b.signedA = true := bootAccepts_iff.symm
  have hB : B ↔ bootAccepts (loadedFuses s b) (s.slotImage b 1) b.signedB = true := bootAccepts_iff.symm
  refine ⟨fun hfuse => held_of_failure hboot (bootFailure_fuse hfuse), fun hfuse hlife => held_of_failure hboot (bootFailure_scrapped hfuse (by rw [bootFind_fuses]; exact hlife)),
    fun hfuse hlife => ⟨fun hna hnb => ?_, fun hab => ?_⟩⟩
  · have hnone : (s.bootFind b).image = none := (image_of_not_A hfuse hlife (fun h => hna (hA.2 h))).trans (if_neg fun h => hnb (hB.2 h))
    exact held_of_failure hboot (bootFailure_firmware hfuse (by rw [bootFind_fuses]; exact hlife) hnone)
  · by_cases ha : A
    · have himage := image_of_A hfuse hlife (hA.1 ha)
      obtain ⟨hrail, hbist, hhbm, hlast⟩ := outcome_of_image ht hfuse hlife (k := 0) himage rfl
      refine ⟨hrail, hbist, hhbm, fun h1 h2 h3 => ⟨(hlast h1 h2 h3).1, fun hfew => ?_⟩⟩
      have hboots := (hlast h1 h2 h3).2 hfew
      refine ⟨hboots.power, hboots.failCode, fun k hk => ?_, fun hna => absurd ha hna⟩
      obtain ⟨-, rfl⟩ | ⟨hna, -⟩ := hk
      · exact ⟨hboots.slot, hboots.version, hboots.fuses⟩
      · exact absurd ha hna
    · have himage := (image_of_not_A hfuse hlife (fun h => ha (hA.2 h))).trans (if_pos (hB.1 (hab.resolve_left ha)))
      obtain ⟨hrail, hbist, hhbm, hlast⟩ := outcome_of_image ht hfuse hlife (k := 1) himage rfl
      refine ⟨hrail, hbist, hhbm, fun h1 h2 h3 => ⟨(hlast h1 h2 h3).1, fun hfew => ?_⟩⟩
      have hboots := (hlast h1 h2 h3).2 hfew
      refine ⟨hboots.power, hboots.failCode, fun k hk => ?_, fun _ => fallback_of_slot hstop hboots.power hboots.slot⟩
      obtain ⟨hyes, -⟩ | ⟨-, rfl⟩ := hk
      · exact absurd hyes ha
      · exact ⟨hboots.slot, hboots.version, hboots.fuses⟩

end Sys2Proof.Laws
end
